-- ==== Sys2Proof/Word.lean ====
section
/-!
DEFINITION. The word types of the device and the ranges of its numbered units
(spec/00_scope.md Table 0.2, R13): plain abbreviations, so that the library's lemmas apply.
-/

namespace Sys2Proof

abbrev Byte := BitVec 8
/-- A register, FP32 lane or doorbell value. -/
abbrev Word := BitVec 32
/-- A 42-bit device address (R105). -/
abbrev DevAddr := BitVec 42
/-- One 64-B line of data, byte i at bits 8i+7:8i (R3). -/
abbrev Line := BitVec 512
/-- One 256-bit treadle word (R69). -/
abbrev TreadleWord := BitVec 256
/-- One 256-B submission record (R332). -/
abbrev Record := BitVec 2048
/-- One 128-bit extended command (R137). -/
abbrev Xcmd := BitVec 128
/-- A byte enable per byte of a line. -/
abbrev LineMask := BitVec 64

/-- Logical core 0–143 (R13). -/
abbrev Core := Fin 144
/-- Physical core PC000–PC151 (Table 3.7). -/
abbrev PCore := Fin 152
/-- Stack S0–S7, and the SSB and core group of the same number. -/
abbrev Stack := Fin 8
abbrev Die := Fin 16
/-- Bank B00–B63 of a die. -/
abbrev Bank := Fin 64
/-- Pseudo-channel CH00–CH31 of a stack (R103). -/
abbrev Channel := Fin 32
/-- Spindle index n = 256k + 16 × die + bank group (R166). -/
abbrev SpindleIx := Fin 2048
/-- Context 0 (the PF) to 63 (R323). -/
abbrev Ctx := Fin 64
/-- Winder engine W-ENG0–15. -/
abbrev Engine := Fin 16
/-- Twine port T0–T7. -/
abbrev Port := Fin 8
/-- Model slot 0–255 (R198). -/
abbrev ModelSlot := Fin 256
/-- SCLK cycle within a tick (R157). -/
abbrev SclkInTick := Fin 750

end Sys2Proof
end

