-- ==== Sys2Proof/Syntax.lean ====
section
/-!
DEFINITION. The commands of the block: one constructor per row of spec/opcode_table.json, in the
table's order, each with the operands the chapters of the spec give that step. What the outside world
supplies at a step (the bytes a host read returns, a sensor's reading, the outcome of a self-test) is an
operand, so that a claim about a command holds whatever the outside supplies.
-/

namespace Sys2Proof

/-- What a read of host memory brings back (R351): the bytes, or an error completion. -/
inductive HostRead where
  | ok (bytes : List Byte)
  | failed
deriving DecidableEq, Repr

/-- The path an access takes, with the codes of SOURCE in Table 13.3. -/
inductive Path where
  | channel | thread | spindle | carder | scratchpad | ssb | bar4 | twine | busko | selftest
deriving DecidableEq, Repr

/-- What the check of a merge slot finds when its partial is read (R359, R363): nothing, so many corrected codewords, or a
codeword that fails at an offset of the SSB. -/
inductive SlotCheck where
  | clean | corrected (n : Nat) | failed (off : BitVec 25)
deriving DecidableEq, Repr

/-- Inbound data of one 64-B line for a scratchpad, waiting for an NI slot (R45, R50, R51). -/
structure NiItem where
  addr   : BitVec 21
  mask   : LineMask
  data   : Line
  poison : Bool
deriving DecidableEq, Repr

/-- A Twine packet as items: the header, the data items and the trailer (R290 to R292). -/
structure Packet where
  header  : BitVec 256
  data    : List (BitVec 256)
  trailer : BitVec 256
  /-- symbols that the FEC corrected while it was received (R316) -/
  fec     : Nat := 0
deriving DecidableEq, Repr

/-- The filtered inputs of Table 14.3. -/
inductive PinInput where
  | wakeIn | thermAlertIn | pauseIn (p : Port)
deriving DecidableEq, Repr

/-- The power rails of Table 17.6. -/
inductive Rail where
  | vddAon | vddIo18 | vddSram | vddCore | vddSerdes | vddSerdesH | vppStk | vddStk | vddqStk
deriving DecidableEq, Repr

/-- The reasons of R316 that are not packets or timers. -/
inductive LinkFailReason where
  | lossOfSignal | fecLock | fecUncorrectable
deriving DecidableEq, Repr

/-- The two directions of a Twine link. -/
inductive LinkDir where
  | transmit | receive
deriving DecidableEq, Repr

/-- Traffic classes of R299. -/
inductive PktClass where
  | lnk | rsp | req
deriving DecidableEq, Repr

/-- Where an SPDM request comes from: the DOE mailbox of a function, or a Twine port (R433). -/
inductive SpdmPeer where
  | func (c : Ctx)
  | port (p : Port)
deriving DecidableEq, Repr

/-- An SPDM request: its sender, the session it is carried in (none: outside a session), and the
parameters and payload the DMTF standard gives it. -/
structure SpdmReq where
  peer    : SpdmPeer
  session : Option (BitVec 32)
  param1  : Byte
  param2  : Byte
  payload : List Byte
  /-- what its own cryptographic checks and its offer of algorithms come to: the MAC of a FINISH, the tag of a secured message,
  an offer that contains the algorithms of R432 -/
  valid   : Bool
deriving DecidableEq, Repr

/-- The manufacturing record of the flash, an image slot, or a staged image (Table 15.3): its header, its body, and whether its two signatures and its hash
verify. -/
structure FlashSlot where
  header : BitVec 16384 := BitVec.allOnes 16384
  body   : List Byte := []
  sigOk  : Bool := false
  hashOk : Bool := false
deriving DecidableEq, Repr

/-- The chain that the partner of a link presents (R435): whether it verifies, and for a switch sled the SHA-256 digest of the
certificate in which it ends. -/
structure PartnerChain where
  verifies : Bool
  sled     : Option (BitVec 256)
deriving DecidableEq, Repr

/-- Sub-streams of an IDE stream. -/
inductive IdeSub where
  | posted | nonPosted | completion
deriving DecidableEq, Repr

/-- A place for an IDE key (R436): sub-stream, direction (true: transmit), and which of the two key sets. -/
structure IdeKeySlot where
  sub  : IdeSub
  tx   : Bool
  set1 : Bool
deriving DecidableEq, Repr

/-- What DBG_ACCESS asks for (R437). -/
inductive DbgOp where
  | reg (off : BitVec 26) (wr : Option Word)
  | mem (addr : DevAddr) (wr : Option Word)
  | halt | step | resume
deriving DecidableEq, Repr

/-- What the board and the flash present to a start-up (R66, R427, R381, R129). -/
structure BootEnv where
  /-- physical cores the repair map of the manufacturing record lists -/
  repairMap   : List PCore
  /-- the PUF root secret and the wrapped identity key are recovered (R424) -/
  identityOk  : Bool
  /-- the manufacturing record as found, where it was written from outside; none: as it was -/
  record      : Option FlashSlot
  /-- stacks whose interface training or lane repair fails -/
  stacksFail  : List Stack
  /-- stacks whose controller, Thread path or SSB decoder fails the self-test -/
  checkersFail : List Stack
  /-- cores whose scratchpad decoder fails the self-test -/
  coresFail   : List PCore
  /-- Spindles whose decoder fails the self-test -/
  spindlesFail : List SpindleIx
  /-- the production-test balls M61 to M84 are left unconnected (R459) -/
  testBallsOpen : Bool
  /-- AON_CLK is present and within 22.5 to 27.5 MHz (R464) -/
  aonClkOk    : Bool
  /-- SMB_ADDR1 and SMB_ADDR0 straps (R469) -/
  smbStraps   : BitVec 2
  /-- image slots A and B as found, where they were written from outside; none: as the device left them -/
  flash       : Option (FlashSlot × FlashSlot)
deriving DecidableEq, Repr

/-- The requester of a failed host-window read (R351). -/
inductive HostRequester where
  | core (c : Core) | winder (e : Engine) | prompt (hank : Nat) (slot : Nat) | spill (handle : Nat) | ring
deriving DecidableEq, Repr

/-- The BAR a register access arrives at (Table 12.2). -/
inductive BarAccess where
  | bar0
  | bar2 (c : Ctx)
deriving DecidableEq, Repr

/-- A line of the Skein table, or of the block map with the blocks whose occupants it gives: the spec does not state the map's
layout (R177, R178). -/
inductive TableLine where
  | table (line : BitVec 20)
  | map (addr : DevAddr) (blocks : List (BitVec 22))
deriving DecidableEq, Repr

/-- Lines of the request in place index of a core's waiting fetches or puts, counted from the request's first. -/
structure ReqLines where
  index : Nat
  lines : List Nat
deriving DecidableEq, Repr

/-- A channel read: of the line of an address, or of the 32-B sector alone (R104). -/
structure ReadAt where
  addr   : DevAddr
  sector : Bool
deriving DecidableEq, Repr

/-- The end of a scan on a Spindle, with the epoch its completion carries (R167), at an SCLK of the tick (R146). -/
structure ScanEnd where
  spindle : SpindleIx
  epoch   : BitVec 8
  sclk    : SclkInTick
deriving DecidableEq, Repr

/-- A received control item, with the symbols that the FEC corrected in it (R316). -/
structure RxItem where
  bits : BitVec 256
  fec  : Nat
deriving DecidableEq, Repr

/-- A packet start on a port, with the FILL items that its late data make the port send (R300). -/
structure TxStart where
  port  : Port
  fills : Nat
deriving DecidableEq, Repr

/-- A rail that has been below its limit for a time (R462). -/
structure RailFall where
  rail    : Rail
  belowNs : Nat
deriving DecidableEq, Repr

inductive Instr where
  -- Treadle streams (04), scratchpad ports (03)
  | exec (c : Core)
  | fetchLand (c : Core) (q : ReqLines) (host : HostRead)
  | putCommit (c : Core) (q : ReqLines)
  | agLocal (c : Core)
  | agDev (c : Core)
  | waitSet (c : Core)
  | srIndex (c : Core)
  | endStream (c : Core)
  | waitSatisfied (c : Core) (cycles : BitVec 32)
  | fenceComplete (c : Core) (cycles : BitVec 32)
  | signal (c : Core)
  | fetchHazardRelease (c : Core)
  | fetchLimitRelease (c : Core) (cycles : BitVec 32)
  | underrunResume (c : Core) (cycles : BitVec 32)
  | holdLimitExpiry (c : Core)
  | asyncPortInsert (c : Core)
  | niWrite (c : Core) (item : NiItem) (slotFree : Bool)
  | xoRead (c : Core) (addr : BitVec 21) (slotFree : Bool)
  | tqLineFetch (c : Core) (host : HostRead)
  | ctxDbTq (x : Ctx) (c : Core) (produced : Word)
  -- Stacked memory (05)
  | channelRead (r : ReadAt) (path : Path)
  | channelWrite (addr : DevAddr) (data : Line) (mask : LineMask) (poison : Bool)
  | threadAccess (k : Stack) (addr : DevAddr) (wr : Option (BitVec 64))
  | threadWindowWait (k : Stack)
  | refresh (k : Stack) (d : Die) (b : Bank)
  | bar4Read (x : Ctx) (off : BitVec 36) (len : Nat)
  | bar4Write (x : Ctx) (off : BitVec 36) (data : List (Option Byte))
  -- Spindles and row logic (06)
  | qload (k : Stack) (ch : Channel) (x : Xcmd) (query : List (BitVec 16))
  | scan (k : Stack) (ch : Channel) (x : Xcmd)
  | scanComplete (e : ScanEnd)
  | scopy (k : Stack) (ch : Channel) (x : Xcmd)
  | reseal (k : Stack) (ch : Channel) (x : Xcmd)
  | mkraw (k : Stack) (ch : Channel) (x : Xcmd)
  | pread (k : Stack) (ch : Channel) (x : Xcmd)
  | rowCopy (k : Stack) (ch : Channel) (x : Xcmd)
  | zero (k : Stack) (ch : Channel) (x : Xcmd)
  | notRow (k : Stack) (ch : Channel) (x : Xcmd)
  | andRow (k : Stack) (ch : Channel) (x : Xcmd)
  | orRow (k : Stack) (ch : Channel) (x : Xcmd)
  | xorRow (k : Stack) (ch : Channel) (x : Xcmd)
  | maj3 (k : Stack) (ch : Channel) (x : Xcmd)
  | spindleCmdStart (n : SpindleIx)
  | stepGrant (k : Stack) (g : SclkInTick)
  | budgetWindow (k : Stack)
  | busyBankServe (k : Stack) (d : Die) (b : Bank) (g : SclkInTick)
  | stepAbort (k : Stack) (d : Die) (b : Bank) (g : SclkInTick)
  | rowreq (x : Ctx) (rec : Record)
  | rowreqComplete (x : Ctx)
  | spindleDeclaredDead (n : SpindleIx)
  | spdCmdDeclare (n : SpindleIx)
  | spdCmdAdmit (n : SpindleIx) (selfTestOk : Bool)
  -- Skeins (07)
  | blockZero (b : BitVec 22) (stuck : List Nat)
  | skeinRelocateStart (h : BitVec 22) (dest : BitVec 22)
  | relocateComplete (h : BitVec 22)
  | spillComplete (h : BitVec 22)
  | restoreComplete (h : BitVec 22) (block : BitVec 22) (host : HostRead)
  | skeinTableLost (line : TableLine)
  -- Serving (08, 12)
  | modelLoad (x : Ctx) (rec : Record)
  | modelUnload (x : Ctx) (rec : Record)
  | hank (x : Ctx) (rec : Record)
  | cancel (x : Ctx) (rec : Record)
  | seqRelease (x : Ctx) (rec : Record)
  | seqCompact (x : Ctx) (rec : Record)
  | barrier (x : Ctx) (rec : Record)
  | stream (x : Ctx) (rec : Record)
  | selectionPass
  | phaseEnd (step : Nat)
  | attentionBegin (step : Nat) (sub : Bool)
  | prefillAppend (step : Nat) (sub : Bool)
  | mergeSlotReserve (k : Stack)
  | partialArrive (k : Stack) (row : Nat) (pos : Nat) (check : SlotCheck)
  | preemptSwitchEnd (step : Nat)
  | kvRetry
  | kvWaitExpiry (hank : Nat) (slot : Nat)
  | budgetWindowStart
  | governorThrottle (watts : BitVec 16)
  | quarantine (m : ModelSlot)
  | mirrorRepair (m : ModelSlot) (stuck : List Nat)
  | deadCoreStepRestart (step : Nat)
  -- Winder engines (09)
  | winder (x : Ctx) (rec : Record)
  | winderDispatch (e : Engine)
  | winderWaitSatisfied (e : Engine)
  | winderWaitTimeout (e : Engine)
  | winderAccess (e : Engine) (host : HostRead)
  | winderComplete (e : Engine)
  -- Tally counters (10)
  | ctxDbTally (x : Ctx) (v : Word)
  | ctxTcSel (x : Ctx) (v : Word)
  -- Twine (11)
  | write (p : Port) (pkt : Packet)
  | read (p : Port) (pkt : Packet)
  | rdata (p : Port) (pkt : Packet)
  | cack (p : Port) (pkt : Packet)
  | nack (p : Port) (pkt : Packet)
  | param (p : Port) (pkt : Packet)
  | credit (p : Port) (pkt : Packet)
  | spdm (p : Port) (pkt : Packet)
  | down (p : Port) (pkt : Packet)
  | idle (p : Port) (item : RxItem)
  | fill (p : Port) (item : RxItem)
  | egressPacketStart (x : TxStart)
  | creditReturnTimer (p : Port)
  | creditWaitExpiry (p : Port) (cls : PktClass)
  | keyUpdateStart (p : Port) (dir : LinkDir)
  | keyUpdateExpiry (p : Port) (dir : LinkDir)
  | requestTimeout (tag : BitVec 16)
  | tagFree (tag : BitVec 16)
  | portEnable (p : Port)
  | trainDone (p : Port)
  | alignDone (p : Port) (skewNs : Nat)
  | authDone (p : Port) (chainOk : PartnerChain)
  | portStateLimit (p : Port)
  | linkFailure (p : Port) (why : LinkFailReason)
  | downRetrain (p : Port)
  | pauseStuck (p : Port)
  | pauseInAccept (p : Port) (prev : Bool) (cur : Bool)
  | alternateFailover (node : BitVec 16)
  | twnPeerDeclare
  | twnPeerAdmit
  | twnXltRead
  | twnXltWrite
  -- Host interface (12)
  | ctxDbSq (x : Ctx) (tail : Word)
  | recordAccept (x : Ctx) (rec : Record)
  | ringReadError (x : Ctx)
  | ctxDbCq (x : Ctx) (head : Word)
  | ctxDbEq (x : Ctx) (head : Word)
  | flushReadComplete (x : Ctx) (ok : Bool)
  | irqDelayExpiry (x : Ctx)
  | ringStatusWrite (x : Ctx)
  | hostReadError (x : Ctx) (who : HostRequester) (bus : BitVec 64)
  | ringCtlRun (x : Ctx) (run : Bool)
  | stoppingDone (x : Ctx)
  | ctxReset (x : Ctx)
  | vfFlr (x : Ctx)
  | pfFlr
  | busMasterClear (x : Ctx)
  | begin_
  | commit
  | rollback
  | rwtWrite (off : BitVec 26) (v : Word)
  | cfgApply
  | registerWrite (bar : BarAccess) (off : BitVec 26) (size : Nat) (v : BitVec 64)
  | clkTickLoRead
  | sknRdHandle (v : Word)
  | eccLogSel (v : Word)
  -- Reliability (13)
  | ceLeak (bucket : Fin 9)
  | carderVisit (k : Stack) (stuck : List Nat)
  | eccBlockRelease (v : Word)
  | readRaw
  | writeData
  | writeCheck
  | writeBoth
  | coreDeclare (p : BitVec 8)
  | coreAdmit (p : BitVec 8) (selfTestOk : Bool)
  | coreDeclaredDead (p : PCore)
  | coreStopTimeout (c : Core)
  | spindleCmdTimeout (n : SpindleIx)
  | stkCmdLost (v : Word)
  | stackLost (k : Stack)
  | stackUnanswered (k : Stack)
  | safeEntry
  | glbSafeEnter
  | govWatchdogExpiry
  -- Power, clocks, inputs, reset (14, 17)
  | idleEntry
  | p1Wake
  | pwrTargetRun
  | pwrTargetBobbin
  | pwrTargetStandby
  | bobbinEntry
  | standbyEntry
  | bobbinWake
  | wakeTimerExpiry
  | wakeInAccept (prev : Bool) (cur : Bool)
  | thermAlertAccept (prev : Bool) (cur : Bool)
  | chatterMaskExpiry (i : PinInput) (prev : Bool) (cur : Bool)
  | inputStuck (i : PinInput)
  | tempRefresh (mill : BitVec 16) (stk : List (BitVec 16))
  | throttleEscalate (k : Stack)
  | l1Entry
  | powerOnReset (env : BootEnv)
  | coldReset (env : BootEnv)
  | warmReset (env : BootEnv)
  | perstAssert (aonCycles : Nat)
  | powerFail (f : RailFall)
  | ready
  -- Root of trust (15)
  | stage (host : HostRead) (sigOk hashOk : Bool)
  | abort
  | fwupDone (flashOk : Bool)
  | getVersion (r : SpdmReq)
  | getCapabilities (r : SpdmReq)
  | negotiateAlgorithms (r : SpdmReq)
  | getDigests (r : SpdmReq)
  | getCertificate (r : SpdmReq)
  | challenge (r : SpdmReq)
  | getMeasurements (r : SpdmReq)
  | keyExchange (r : SpdmReq)
  | finish (r : SpdmReq)
  | heartbeat (r : SpdmReq)
  | keyUpdate (r : SpdmReq)
  | endSession (r : SpdmReq)
  | ideKm (x : Ctx) (session : Option (BitVec 32)) (stream : Fin 9) (keySet : IdeKeySlot) (key : BitVec 256)
  | ideIntegrityFail (stream : Fin 9)
  | bypass
  | idcode
  | samplePreload (pins : BitVec 64)
  | extest
  | clamp
  | highz
  | dbgAccess (op : DbgOp)
  | dbgChal
  | dbgResp (cert : List Byte) (sig : List Byte) (verifies : Bool)
  | debugUnlock
  | nonceExpiry
  -- Sideband (17) and the rows the table lists last
  | smbStatus
  | smbTemps
  | smbPower
  | smbId
  | smbAlertResponse
  | farStackShareTick
  | perstDeassert (env : BootEnv)
  | aonClkLoss
  | aonClkReturn (env : BootEnv)
  | pcieLinkUp (speed : BitVec 4) (width : BitVec 5)
  | aspmL1Exit
  | functionD3hotChange (x : Ctx) (d3hot : Bool)
  | smbClockLowTimeout (ms : Nat)
deriving DecidableEq, Repr

end Sys2Proof
end

