-- ==== Sys2Proof/Config.lean ====
section
/-!
DEFINITION. What the spec leaves to the implementation or to the outside: opaque constants, so that nothing can be
proved from a value of one. The state's counter `drawn` is advanced at each draw.
-/

namespace Sys2Proof

/-- A byte that host memory returns to a read whose data no command carries (a Governor read through the host
window). -/
opaque Config.hostByte : Nat → Byte

/-- A choice the spec gives to the Governor and that no result shows: where the search for a free block or handle
starts (R182), and the like. -/
opaque Config.choice : Nat → Nat

/-- The AES-256-GCM key of a Twine port's direction (true: transmit), by the number of keys installed in it so far: it comes
from an SPDM session (R295) whose secrets no command carries. -/
opaque Config.linkKey : Nat → Bool → Nat → BitVec 256

/-- Its IV. -/
opaque Config.linkIv : Nat → Bool → Nat → BitVec 96

/-- The node ID of the device that a port is cabled to; none: a switch sled (R295). -/
opaque Config.cabled : Nat → Option Nat

/-- The data items of the n-th SPDM message that the Distaff sends on a port's link (R295): what a message holds depends on secrets
and certificates that no command carries. -/
opaque Config.linkMessage : Nat → Nat → List (BitVec 256)

/-- A message received on a link acknowledges a KEY_UPDATE (R297): it is protected by secrets that no command carries. -/
opaque Config.linkAck : List (BitVec 256) → Bool

/-- How many messages each end of a port's link sends, beyond the first, until its session is established (R295). -/
opaque Config.linkRounds : Nat → Nat

/-- The n-th value drawn from the Distaff's generator (R423). -/
opaque Config.drbg : Nat → BitVec 256

/-- The n-th RSASSA-PSS signature by the device identity key (R422, R426): its salt is random. -/
opaque Config.identitySign : Nat → List Byte → BitVec 3072

/-- The certificate chain of SPDM slot 0, from the manufacturing record (R432). -/
opaque Config.certChain : List Byte

/-- SHA-256 of that chain, of the identity leaf certificate (R437), and of the Distaff ROM. -/
opaque Config.chainDigest : BitVec 256
opaque Config.leafDigest : BitVec 256
opaque Config.romDigest : BitVec 256

/-- SHA-256 of a manufacturing record, header and body (R434). -/
opaque Config.mfgDigest : BitVec 16384 → List Byte → BitVec 256

/-- The PUF root secret, and the private half of the device identity key that it lets the Distaff unwrap (Table 15.1). -/
opaque Config.pufRoot : BitVec 256
opaque Config.identityKey : BitVec 3072

/-- Keys and IVs of an SPDM session, by the draw that made its ephemeral key and the KEY_UPDATEs made since (Table 15.1). -/
opaque Config.sessionKeys : Nat → Nat → BitVec 704

/-- The TAP's identification code, which the spec does not give. -/
opaque Config.idcode : BitVec 32

/-- How far into its range of 25 to 35 ms the clock-low timeout of the SMBus target lies (R469), in ms modulo 11. -/
opaque Config.smbSlack : Nat

/-- Does a line of the reserved area, by its address, hold the Governor's own state (R363)? The spec does not place it. -/
opaque Config.govState : Nat → Bool

end Sys2Proof
end

