-- ==== Sys2Proof/Machine/Codes.lean ====
section
/-!
DEFINITION. The symbol codes of spec/13_reliability.md: Reed-Solomon over GF(2^8) generated by
x^8 + x^4 + x^3 + x^2 + 1 with α = 0x02, four check symbols on a 64-B line of stacked memory (R357, R358)
and three on a 32-B codeword of a scratchpad or SSB (R359). A codeword is a list of symbols, position 0 first.
-/

namespace Sys2Proof

/-- x × a in the field. -/
def gfX (a : Nat) : Nat := if 128 ≤ a then Nat.xor (a * 2 - 256) 0x1D else a * 2

def gfMulLoop : Nat → Nat → Nat → Nat
  | 0, _, _ => 0
  | n + 1, a, b => Nat.xor (if b % 2 = 1 then a else 0) (gfMulLoop n (gfX a) (b / 2))

def gfMul (a b : Nat) : Nat := gfMulLoop 8 a b

/-- α^n. -/
def gfPow : Nat → Nat
  | 0 => 1
  | n + 1 => gfX (gfPow n)

/-- Coefficients, below the leading 1, of (x + 1)(x + α)(x + α²)(x + α³): degree 3 first. -/
def rsGen4 : List Nat := [15, 54, 120, 64]
/-- The same for (x + 1)(x + α)(x + α²): degree 2 first. -/
def rsGen3 : List Nat := [7, 14, 8]

/-- One step of the division by the generator: symbol `d` enters, `c` is the remainder so far. -/
def rsStep (g c : List Nat) (d : Nat) : List Nat :=
  match c with
  | [] => []
  | c0 :: cs =>
    let fb := Nat.xor d c0
    List.zipWith (fun x y => Nat.xor x (gfMul fb y)) (cs ++ [0]) g

/-- Check symbols c0, c1, … of a list of data symbols. -/
def rsCheck (g : List Nat) (data : List Nat) : List Nat :=
  data.foldl (rsStep g) (g.map (fun _ => 0))

/-- Syndrome S_j: the codeword evaluated at α^j (Horner's scheme, position 0 first). -/
def rsSyndrome (j : Nat) (cw : List Nat) : Nat :=
  let a := gfPow j
  cw.foldl (fun acc s => Nat.xor (gfMul acc a) s) 0

/-- What a checker finds (Table 13.1, R359). -/
inductive LineClass where
  | clean
  | poisonMark
  | correctable (pos : Nat) (value : Nat)
  | uncorrectable
deriving DecidableEq, Repr

/-- The e in 0 … n − 1 with a × α^e = b, if there is one. -/
def gfLog (a b : Nat) : Nat → Option Nat
  | 0 => none
  | n + 1 =>
    match gfLog a b n with
    | some e => some e
    | none => if gfMul a (gfPow n) = b then some n else none

/-- The pattern of the poison mark, XORed into c0 to c3 (R358, R360). -/
def poisonPattern : List Nat := [1, 2, 4, 8]

/-- Its syndromes. -/
def poisonSyndromes : List Nat :=
  [0, 1, 2, 3].map (fun j => rsSyndrome j (List.replicate 64 0 ++ poisonPattern))

/-- Table 13.1 for a stacked-memory codeword of 68 symbols. -/
def classifyLine (cw : List Nat) : LineClass :=
  let s0 := rsSyndrome 0 cw
  let s1 := rsSyndrome 1 cw
  let s2 := rsSyndrome 2 cw
  let s3 := rsSyndrome 3 cw
  if s0 = 0 ∧ s1 = 0 ∧ s2 = 0 ∧ s3 = 0 then .clean
  else if [s0, s1, s2, s3] = poisonSyndromes then .poisonMark
  else if s0 = 0 ∨ s1 = 0 ∨ s2 = 0 ∨ s3 = 0 then .uncorrectable
  else
    match gfLog s0 s1 68 with
    | some e =>
      if gfMul s1 (gfPow e) = s2 ∧ gfMul s2 (gfPow e) = s3 then .correctable (67 - e) s0 else .uncorrectable
    | none => .uncorrectable

/-- R359 for an SRAM codeword of 35 symbols. -/
def classifySram (cw : List Nat) : LineClass :=
  let s0 := rsSyndrome 0 cw
  let s1 := rsSyndrome 1 cw
  let s2 := rsSyndrome 2 cw
  if s0 = 0 ∧ s1 = 0 ∧ s2 = 0 then .clean
  else if s0 = 0 ∨ s1 = 0 ∨ s2 = 0 then .uncorrectable
  else
    match gfLog s0 s1 35 with
    | some e => if gfMul s1 (gfPow e) = s2 then .correctable (34 - e) s0 else .uncorrectable
    | none => .uncorrectable

/-- XOR `v` into position `p`. -/
def xorAt : List Nat → Nat → Nat → List Nat
  | [], _, _ => []
  | s :: ss, 0, v => Nat.xor s v :: ss
  | s :: ss, p + 1, v => s :: xorAt ss p v

/-- Bytes of a little-endian number, `n` of them (R3). -/
def bytesOfNat : Nat → Nat → List Nat
  | 0, _ => []
  | n + 1, v => v % 256 :: bytesOfNat n (v / 256)

/-- The little-endian number of a list of bytes. -/
def natOfBytes : List Nat → Nat
  | [] => 0
  | b :: bs => b % 256 + 256 * natOfBytes bs

end Sys2Proof
end

