-- ==== Sys2Proof/Machine/Regs.lean ====
section
/-!
DEFINITION. The register map (spec/16_register_map.md): every register of BAR0 as a list of fields, each
with its bits, access type, reset value and admitted encodings. A register is named by its BAR0 offset
(R440); a context's BAR2 page is reached at its mirror.
-/

namespace Sys2Proof

/-- Access types of Table 0.3. -/
inductive RegType where
  | rw | ro | wo | w1c | w1s | rwt
deriving DecidableEq, Repr

/-- The encodings a field admits (R9, R443). -/
inductive Enc where
  | any
  | range (lo hi : Nat)
  | oneOf (l : List Nat)
deriving DecidableEq, Repr

/-- One field of a register: bits hi:lo. -/
structure Field where
  hi : Nat
  lo : Nat
  ty : RegType
  reset : Nat := 0
  enc : Enc := .any
deriving DecidableEq, Repr

def Enc.admits : Enc → Nat → Bool
  | .any, _ => true
  | .range a b, v => decide (a ≤ v ∧ v ≤ b)
  | .oneOf l, v => l.contains v

/-- Bits hi:lo of a number. -/
def bitsAt (v hi lo : Nat) : Nat := v / 2 ^ lo % 2 ^ (hi + 1 - lo)

/-- `v` with its bits hi:lo replaced by `x`. -/
def putBits (v hi lo x : Nat) : Nat :=
  v - bitsAt v hi lo * 2 ^ lo + x % 2 ^ (hi + 1 - lo) * 2 ^ lo

def Field.val (f : Field) (v : Nat) : Nat := bitsAt v f.hi f.lo

/-- A whole 32-bit field. -/
def f32all (ty : RegType) : List Field := [{ hi := 31, lo := 0, ty := ty }]

/-! ### Block bases (Table 12.3) -/

def glbBase : Nat := 0x0000000
def hifBase : Nat := 0x0010000
def clkBase : Nat := 0x0020000
def pwrBase : Nat := 0x0030000
def secBase : Nat := 0x0040000
def eccBase : Nat := 0x0050000
def govBase : Nat := 0x0060000
def wndBase : Nat := 0x0070000
def sknBase : Nat := 0x0080000
def stkBase : Nat := 0x0100000
def spdBase : Nat := 0x0200000
def twnBase : Nat := 0x0300000
def ctxBase (c : Nat) : Nat := 0x0400000 + c * 0x10000

/-- `x` is one of base, base + stride, …, base + stride × (n − 1). -/
def inFamily (x base stride n : Nat) : Bool :=
  decide (base ≤ x ∧ x < base + stride * n ∧ (x - base) % stride = 0)

/-! ### Named registers -/

namespace Reg
def glbId : Nat := glbBase + 0x00
def glbCap : Nat := glbBase + 0x04
def glbStatus : Nat := glbBase + 0x08
def glbReset : Nat := glbBase + 0x0C
def glbSafe : Nat := glbBase + 0x10
def glbCfgTxn : Nat := glbBase + 0x14
def glbSpare : Nat := glbBase + 0x18
def glbStaleDrops : Nat := glbBase + 0x1C
def glbCoreCmd : Nat := glbBase + 0x20
def glbCoreSel : Nat := glbBase + 0x24
def glbTqRetired : Nat := glbBase + 0x28
def glbTqFetched : Nat := glbBase + 0x2C
def glbTqProduced : Nat := glbBase + 0x30
def glbPerfStall : Nat := glbBase + 0x34
def glbPerfInsert : Nat := glbBase + 0x38
def glbPerfUnderrun : Nat := glbBase + 0x3C
def glbPerfHold : Nat := glbBase + 0x40
def glbCoreMap (c : Nat) : Nat := glbBase + 0x400 + 4 * c
def hifLink : Nat := hifBase
def clkTickLo : Nat := clkBase
def clkTickHi : Nat := clkBase + 4
def clkStat : Nat := clkBase + 8
def pwrStat : Nat := pwrBase
def pwrCtl : Nat := pwrBase + 0x04
def pwrIdle : Nat := pwrBase + 0x08
def pwrWakeEn : Nat := pwrBase + 0x0C
def pwrWakeTimer : Nat := pwrBase + 0x10
def pwrLastWake0 : Nat := pwrBase + 0x14
def pwrLastWake1 : Nat := pwrBase + 0x18
def pwrPadHold : Nat := pwrBase + 0x1C
def pwrRegionLo : Nat := pwrBase + 0x20
def pwrRegionHi : Nat := pwrBase + 0x24
def pwrSram : Nat := pwrBase + 0x28
def pwrInCfgLo : Nat := pwrBase + 0x30
def pwrInCfgHi : Nat := pwrBase + 0x34
def pwrInStat (i : Nat) : Nat := pwrBase + 0x40 + 4 * i
def pwrTherm : Nat := pwrBase + 0x80
def pwrTempMill : Nat := pwrBase + 0x84
def pwrTempStk (k : Nat) : Nat := pwrBase + 0x88 + 4 * k
def pwrPower : Nat := pwrBase + 0xA8
def secStatusLo : Nat := secBase
def secStatusHi : Nat := secBase + 0x04
def secFwupAddrLo : Nat := secBase + 0x08
def secFwupAddrHi : Nat := secBase + 0x0C
def secFwupLen : Nat := secBase + 0x10
def secFwupCmd : Nat := secBase + 0x14
def secFwupStat : Nat := secBase + 0x18
def secFwupNextSeq : Nat := secBase + 0x1C
def secIde : Nat := secBase + 0x20
def secDbg : Nat := secBase + 0x24
def secTwnRoot (r w : Nat) : Nat := secBase + 0x100 + 32 * r + 4 * w
def eccLogHead : Nat := eccBase
def eccLogTail : Nat := eccBase + 0x04
def eccLogSel : Nat := eccBase + 0x08
def eccLogLost : Nat := eccBase + 0x0C
def eccLogData (w : Nat) : Nat := eccBase + 0x10 + 4 * w
def eccSelftest : Nat := eccBase + 0x40
def eccBlockRelease : Nat := eccBase + 0x44
def eccRetIdx : Nat := eccBase + 0x48
def eccRetData : Nat := eccBase + 0x4C
def eccWinCtl : Nat := eccBase + 0x50
def eccWinAddrLo : Nat := eccBase + 0x54
def eccWinAddrHi : Nat := eccBase + 0x58
def eccWinCmd : Nat := eccBase + 0x5C
def eccWinCheckLo : Nat := eccBase + 0x60
def eccWinCheckHi : Nat := eccBase + 0x64
def eccWinData (w : Nat) : Nat := eccBase + 0x80 + 4 * w
def eccCeCfgLo (n : Nat) : Nat := eccBase + 0x100 + 8 * n
def eccCeCfgHi (n : Nat) : Nat := eccBase + 0x104 + 8 * n
def eccCeStat (n : Nat) : Nat := eccBase + 0x180 + 4 * n
def eccCeCount (n : Nat) : Nat := eccBase + 0x1C0 + 4 * n
def eccCarder (k : Nat) : Nat := eccBase + 0x200 + 16 * k
def eccCarderPos (k : Nat) : Nat := eccBase + 0x204 + 16 * k
def eccCarderPass (k : Nat) : Nat := eccBase + 0x208 + 16 * k
def eccBankDisLo (n : Nat) : Nat := eccBase + 0x400 + 8 * n
def eccBankDisHi (n : Nat) : Nat := eccBase + 0x404 + 8 * n
def govWindow : Nat := govBase
def govBeFloor : Nat := govBase + 0x04
def govKvWait : Nat := govBase + 0x08
def govThrottle : Nat := govBase + 0x0C
def govWdog : Nat := govBase + 0x10
def wndGov : Nat := wndBase
def wndHold : Nat := wndBase + 4
def wndCtxLimit (c : Nat) : Nat := wndBase + 0x100 + 4 * c
def sknRdHandle : Nat := sknBase
def sknRdData (w : Nat) : Nat := sknBase + 4 + 4 * w
def sknFree : Nat := sknBase + 0x14
def stkRmode (q : Nat) : Nat := stkBase + 4 * q
def stkLost : Nat := stkBase + 0x10
def stkCmd : Nat := stkBase + 0x14
def spdDieCap : Nat := spdBase
def spdCmd : Nat := spdBase + 4
def spdBudgetLo (k : Nat) : Nat := spdBase + 0x100 + 8 * k
def spdBudgetHi (k : Nat) : Nat := spdBase + 0x104 + 8 * k
def spdPerfDeny (k : Nat) : Nat := spdBase + 0x180 + 4 * k
def spdMap (n : Nat) : Nat := spdBase + 0x10000 + 4 * n
def twnNode : Nat := twnBase
def twnReqTo : Nat := twnBase + 0x04
def twnRtIdx : Nat := twnBase + 0x10
def twnRtData : Nat := twnBase + 0x14
def twnXltIdx : Nat := twnBase + 0x20
def twnXltData (w : Nat) : Nat := twnBase + 0x24 + 4 * w
def twnXltCmd : Nat := twnBase + 0x34
def twnPeerIdx : Nat := twnBase + 0x40
def twnPeerData : Nat := twnBase + 0x44
def twnPeerCmd : Nat := twnBase + 0x48
def twnPort (n : Nat) : Nat := twnBase + 0x1000 + 0x100 * n
def twnPCtl (n : Nat) : Nat := twnPort n
def twnPPauseLo (n : Nat) : Nat := twnPort n + 0x04
def twnPPauseHi (n : Nat) : Nat := twnPort n + 0x08
def twnPStat (n : Nat) : Nat := twnPort n + 0x0C
/-- m: 0 MALFORMED, 1 AUTH_FAIL, 2 OVERFLOW, 3 UNDERRUN, 4 MISROUTE, 5 LATE, 6 FEC_CORR, 7 FEC_UNCORR,
8 CHATTER. -/
def twnPCount (n m : Nat) : Nat := twnPort n + 0x20 + 4 * m
def ctx (c x : Nat) : Nat := ctxBase c + x
def sqBaseLo : Nat := 0x100
def sqBaseHi : Nat := 0x104
def sqSize : Nat := 0x108
def cqBaseLo : Nat := 0x10C
def cqBaseHi : Nat := 0x110
def cqSize : Nat := 0x114
def eqBaseLo : Nat := 0x118
def eqBaseHi : Nat := 0x11C
def eqSize : Nat := 0x120
def rsbLo : Nat := 0x124
def rsbHi : Nat := 0x128
def ringCtl : Nat := 0x12C
def ringStat : Nat := 0x130
def irq : Nat := 0x134
def bar4Base : Nat := 0x200
def tcSel : Nat := 0x210
def tcValLo : Nat := 0x214
def tcValHi : Nat := 0x218
def srSeedLo : Nat := 0x220
def srSeedHi : Nat := 0x224
def ctxCtl : Nat := 0x1000
def tcRangeLo : Nat := 0x1004
def tcRangeHi : Nat := 0x1008
def hostWinLo : Nat := 0x100C
def hostWinHi : Nat := 0x1010
def hostWinSize : Nat := 0x1014
def tqHold : Nat := 0x1018
def ctxTwn : Nat := 0x101C
def extBase (e : Nat) : Nat := 0x1100 + 16 * e
def extLimit (e : Nat) : Nat := 0x1104 + 16 * e
def extCtl (e : Nat) : Nat := 0x1108 + 16 * e
def govShare : Nat := 0x1200
def govBudget : Nat := 0x1204
def govKvLo : Nat := 0x1208
def govKvHi : Nat := 0x120C
def govSpillOff : Nat := 0x1210
def govSpillSize : Nat := 0x1214
def govSpec : Nat := 0x1218
def govStat (i : Nat) : Nat := 0x1240 + 4 * i
end Reg

/-! ### Field maps, block by block; none: the offset is unoccupied -/

/-- Table 16.1, GLB_. -/
def glbFields (x : Nat) : Option (List Field) :=
  if x = 0x00 then some [{ hi := 15, lo := 0, ty := .ro, reset := 0x8144 }, { hi := 23, lo := 16, ty := .ro, reset := 0xB0 }]
  else if x = 0x04 then
    some [{ hi := 7, lo := 0, ty := .ro, reset := 0x90 }, { hi := 11, lo := 8, ty := .ro, reset := 8 },
      { hi := 15, lo := 12, ty := .ro, reset := 8 }]
  else if x = 0x08 then some [{ hi := 0, lo := 0, ty := .ro }]
  else if x = 0x0C then some [{ hi := 1, lo := 0, ty := .wo, enc := .range 0 2 }]
  else if x = 0x10 then
    some [{ hi := 0, lo := 0, ty := .ro }, { hi := 7, lo := 4, ty := .ro }, { hi := 8, lo := 8, ty := .wo }]
  else if x = 0x14 then
    some [{ hi := 1, lo := 0, ty := .wo }, { hi := 5, lo := 4, ty := .ro }, { hi := 9, lo := 8, ty := .ro },
      { hi := 26, lo := 16, ty := .ro }]
  else if x = 0x18 then some [{ hi := 3, lo := 0, ty := .ro }]
  else if x = 0x1C then some (f32all .ro)
  else if x = 0x20 then
    some [{ hi := 7, lo := 0, ty := .wo, enc := .range 0 151 }, { hi := 9, lo := 8, ty := .wo, enc := .range 0 2 }]
  else if x = 0x24 then some [{ hi := 7, lo := 0, ty := .rw, enc := .range 0 143 }]
  else if inFamily x 0x28 4 7 then some (f32all .ro)
  else if inFamily x 0x400 4 144 then
    some [{ hi := 7, lo := 0, ty := .ro }, { hi := 11, lo := 8, ty := .ro }, { hi := 23, lo := 16, ty := .ro },
      { hi := 24, lo := 24, ty := .ro }]
  else none

def hifFields (x : Nat) : Option (List Field) :=
  if x = 0 then some [{ hi := 3, lo := 0, ty := .ro }, { hi := 8, lo := 4, ty := .ro }, { hi := 12, lo := 12, ty := .ro }]
  else none

def clkFields (x : Nat) : Option (List Field) :=
  if x = 0 ∨ x = 4 then some (f32all .ro)
  else if x = 8 then some [{ hi := 0, lo := 0, ty := .ro }]
  else none

/-- Table 16.2. -/
def pwrFields (x : Nat) : Option (List Field) :=
  if x = 0x00 then some [{ hi := 1, lo := 0, ty := .ro }]
  else if x = 0x04 then some [{ hi := 1, lo := 0, ty := .rw, enc := .oneOf [0, 2, 3] }]
  else if x = 0x08 then some [{ hi := 19, lo := 0, ty := .rw, reset := 0x3E8, enc := .range 0 1000000 }]
  else if x = 0x0C then
    some [{ hi := 0, lo := 0, ty := .rw }, { hi := 1, lo := 1, ty := .rw }, { hi := 2, lo := 2, ty := .rw }]
  else if x = 0x10 then some (f32all .rw)
  else if x = 0x14 then some [{ hi := 2, lo := 0, ty := .ro }, { hi := 5, lo := 4, ty := .ro }]
  else if x = 0x18 then some (f32all .ro)
  else if x = 0x1C then some [{ hi := 8, lo := 0, ty := .ro }]
  else if x = 0x20 then some [{ hi := 31, lo := 0, ty := .rw, reset := 0xFFFFFFFF }]
  else if x = 0x24 then
    some [{ hi := 29, lo := 0, ty := .rw, reset := 0x3FFFFFFF }, { hi := 31, lo := 30, ty := .ro, reset := 3 }]
  else if x = 0x28 then some [{ hi := 7, lo := 0, ty := .rw }, { hi := 15, lo := 8, ty := .rw }]
  else if x = 0x30 ∨ x = 0x34 then
    some [{ hi := 23, lo := 0, ty := .rw, reset := 0x2710, enc := .range 100 16777215 }]
  else if inFamily x 0x40 4 10 then
    some [{ hi := 0, lo := 0, ty := .ro }, { hi := 1, lo := 1, ty := .w1c }, { hi := 2, lo := 2, ty := .ro },
      { hi := 3, lo := 3, ty := .w1c }]
  else if x = 0x80 then
    some [{ hi := 7, lo := 0, ty := .rwt, reset := 0x5F, enc := .range 70 95 },
      { hi := 15, lo := 8, ty := .rwt, reset := 0x64, enc := .range 70 100 }]
  else if x = 0x84 ∨ inFamily x 0x88 4 8 ∨ x = 0xA8 then some [{ hi := 15, lo := 0, ty := .ro }]
  else none

/-- Table 16.3. -/
def secFields (x : Nat) : Option (List Field) :=
  if x = 0x00 then
    some [{ hi := 15, lo := 0, ty := .ro }, { hi := 16, lo := 16, ty := .ro }, { hi := 17, lo := 17, ty := .ro },
      { hi := 18, lo := 18, ty := .ro }, { hi := 19, lo := 19, ty := .ro }]
  else if x = 0x04 then some (f32all .ro)
  else if x = 0x08 then some [{ hi := 31, lo := 12, ty := .rw }]
  else if x = 0x0C then some (f32all .rw)
  else if x = 0x10 then some [{ hi := 21, lo := 0, ty := .rw, enc := .range 2048 2099200 }]
  else if x = 0x14 then some [{ hi := 1, lo := 0, ty := .wo, enc := .range 0 2 }]
  else if x = 0x18 then some [{ hi := 1, lo := 0, ty := .ro }, { hi := 7, lo := 4, ty := .ro }]
  else if x = 0x1C then some (f32all .ro)
  else if x = 0x20 then some [{ hi := 0, lo := 0, ty := .rwt }]
  else if x = 0x24 then some [{ hi := 0, lo := 0, ty := .rw }, { hi := 1, lo := 1, ty := .ro }]
  else if inFamily x 0x100 4 32 then some (f32all .rwt)
  else none

/-- Table 16.4. -/
def eccFields (x : Nat) : Option (List Field) :=
  if x = 0x00 then some (f32all .ro)
  else if x = 0x04 ∨ x = 0x08 then some (f32all .rw)
  else if inFamily x 0x0C 4 9 then some (f32all .ro)
  else if x = 0x40 then some [{ hi := 15, lo := 0, ty := .ro }]
  else if x = 0x44 then some [{ hi := 21, lo := 0, ty := .wo }]
  else if x = 0x48 then some [{ hi := 7, lo := 0, ty := .rw }, { hi := 11, lo := 8, ty := .rw, enc := .range 0 7 }]
  else if x = 0x4C then
    some [{ hi := 0, lo := 0, ty := .rwt }, { hi := 1, lo := 1, ty := .rwt }, { hi := 5, lo := 2, ty := .rwt },
      { hi := 11, lo := 6, ty := .rwt }, { hi := 27, lo := 12, ty := .rwt }]
  else if x = 0x50 then
    some [{ hi := 1, lo := 0, ty := .rw, enc := .range 0 2 }, { hi := 15, lo := 8, ty := .rw }]
  else if x = 0x54 then some [{ hi := 31, lo := 6, ty := .rw }]
  else if x = 0x58 then some [{ hi := 9, lo := 0, ty := .rw }]
  else if x = 0x5C then some [{ hi := 2, lo := 0, ty := .wo, enc := .range 0 4 }]
  else if x = 0x60 then some (f32all .rw)
  else if x = 0x64 then some [{ hi := 23, lo := 0, ty := .rw }]
  else if inFamily x 0x80 4 16 then some (f32all .rw)
  else if inFamily x 0x100 8 9 then some [{ hi := 15, lo := 0, ty := .rwt, reset := 0x40, enc := .range 1 65535 }]
  else if inFamily x 0x104 8 9 then
    some [{ hi := 23, lo := 0, ty := .rwt, reset := 0xF4240, enc := .range 1 16777215 }]
  else if inFamily x 0x180 4 9 then some [{ hi := 15, lo := 0, ty := .ro }, { hi := 16, lo := 16, ty := .w1c }]
  else if inFamily x 0x1C0 4 9 then some (f32all .ro)
  else if inFamily x 0x200 16 8 then
    some [{ hi := 7, lo := 0, ty := .rwt }, { hi := 23, lo := 8, ty := .rwt, reset := 0x50, enc := .range 1 65535 },
      { hi := 24, lo := 24, ty := .rwt, reset := 1 }]
  else if inFamily x 0x204 16 8 then some [{ hi := 29, lo := 0, ty := .ro }]
  else if inFamily x 0x208 16 8 then some (f32all .ro)
  else if inFamily x 0x400 4 256 then some (f32all .rwt)
  else none

/-- Table 16.5. -/
def govFields (x : Nat) : Option (List Field) :=
  if x = 0x00 then some [{ hi := 23, lo := 0, ty := .rwt, reset := 0x186A0, enc := .range 1000 16777215 }]
  else if x = 0x04 then some [{ hi := 9, lo := 0, ty := .rwt, enc := .range 0 500 }]
  else if x = 0x08 then some [{ hi := 23, lo := 0, ty := .rwt, reset := 0x4E20, enc := .range 1 16777215 }]
  else if x = 0x0C then
    some [{ hi := 16, lo := 0, ty := .rwt, reset := 0xFA00, enc := .range 16 128000 },
      { hi := 28, lo := 18, ty := .rwt, reset := 0x5AA, enc := .range 300 1450 }]
  else if x = 0x10 then some [{ hi := 23, lo := 0, ty := .rwt, reset := 0x186A0, enc := .range 1000 10000000 }]
  else none

def wndFields (x : Nat) : Option (List Field) :=
  if x = 0x00 then some [{ hi := 3, lo := 0, ty := .rwt, reset := 4, enc := .range 1 8 }]
  else if x = 0x04 then some [{ hi := 23, lo := 0, ty := .rwt, reset := 0x2710, enc := .range 1 16777215 }]
  else if inFamily x 0x100 4 64 then some [{ hi := 4, lo := 0, ty := .rwt, reset := 4, enc := .range 1 16 }]
  else none

def sknFields (x : Nat) : Option (List Field) :=
  if x = 0x00 then some [{ hi := 21, lo := 0, ty := .rw }]
  else if inFamily x 0x04 4 4 then some (f32all .ro)
  else if x = 0x14 then some [{ hi := 22, lo := 0, ty := .ro }]
  else none

/-- Sixteen 2-bit region modes. -/
def rmodeFields : Nat → List Field
  | 0 => []
  | n + 1 => rmodeFields n ++ [{ hi := 2 * n + 1, lo := 2 * n, ty := .rwt, enc := .range 0 2 }]

/-- Table 16.6. -/
def stkFields (x : Nat) : Option (List Field) :=
  if inFamily x 0x00 4 4 then some (rmodeFields 16)
  else if x = 0x10 then some [{ hi := 7, lo := 0, ty := .ro }]
  else if x = 0x14 then some [{ hi := 3, lo := 0, ty := .wo, enc := .range 0 7 }, { hi := 4, lo := 4, ty := .wo }]
  else none

def spdFields (x : Nat) : Option (List Field) :=
  if x = 0x00 then some [{ hi := 3, lo := 0, ty := .rwt, reset := 0xB, enc := .range 1 11 }]
  else if x = 0x04 then some [{ hi := 10, lo := 0, ty := .wo }, { hi := 13, lo := 12, ty := .wo, enc := .range 0 2 }]
  else if inFamily x 0x100 8 8 then
    some [{ hi := 16, lo := 0, ty := .rwt, reset := 0x1F400, enc := .range 16 128000 }]
  else if inFamily x 0x104 8 8 then some [{ hi := 16, lo := 0, ty := .ro, reset := 0x1F400 }]
  else if inFamily x 0x180 4 8 then some (f32all .ro)
  else if inFamily x 0x10000 4 2048 then
    some [{ hi := 7, lo := 0, ty := .ro }, { hi := 18, lo := 8, ty := .ro, reset := (x - 0x10000) / 4 },
      { hi := 21, lo := 20, ty := .ro }]
  else none

def twnPortFields (x : Nat) : Option (List Field) :=
  if x = 0x00 then
    some [{ hi := 0, lo := 0, ty := .rwt }, { hi := 1, lo := 1, ty := .rwt },
      { hi := 15, lo := 8, ty := .rwt, reset := 0x82, enc := .range 2 130 },
      { hi := 23, lo := 16, ty := .rwt, reset := 0x08 }]
  else if x = 0x04 then
    some [{ hi := 15, lo := 0, ty := .rwt, reset := 0x6000, enc := .range 1024 64512 },
      { hi := 31, lo := 16, ty := .rwt, reset := 0x2000, enc := .range 0 63488 }]
  else if x = 0x08 then some [{ hi := 23, lo := 0, ty := .rwt, reset := 0x2710, enc := .range 100 16777215 }]
  else if x = 0x0C then
    some [{ hi := 2, lo := 0, ty := .ro }, { hi := 3, lo := 3, ty := .ro }, { hi := 19, lo := 4, ty := .ro },
      { hi := 27, lo := 20, ty := .ro }]
  else if inFamily x 0x20 4 9 then some (f32all .ro)
  else none

/-- Table 16.7. -/
def twnFields (x : Nat) : Option (List Field) :=
  if x = 0x00 then some [{ hi := 15, lo := 0, ty := .rwt }, { hi := 23, lo := 16, ty := .rwt }]
  else if x = 0x04 then some [{ hi := 19, lo := 0, ty := .rwt, reset := 0x7D0, enc := .range 10 1000000 }]
  else if x = 0x10 ∨ x = 0x40 then some [{ hi := 15, lo := 0, ty := .rw }]
  else if x = 0x14 then
    some [{ hi := 3, lo := 0, ty := .rwt, reset := 0xF, enc := .oneOf [0, 1, 2, 3, 4, 5, 6, 7, 15] },
      { hi := 7, lo := 4, ty := .rwt, reset := 0xF, enc := .oneOf [0, 1, 2, 3, 4, 5, 6, 7, 15] }]
  else if x = 0x20 then some [{ hi := 17, lo := 0, ty := .rw }]
  else if inFamily x 0x24 4 4 then some (f32all .rw)
  else if x = 0x34 ∨ x = 0x48 then some [{ hi := 1, lo := 0, ty := .wo, enc := .range 0 2 }]
  else if x = 0x44 then some [{ hi := 7, lo := 0, ty := .ro }, { hi := 8, lo := 8, ty := .ro }]
  else if 0x1000 ≤ x ∧ x < 0x1800 then twnPortFields ((x - 0x1000) % 0x100)
  else none

/-- Table 16.8 and the doorbells of Table 12.13. -/
def pageFields (x : Nat) : Option (List Field) :=
  if x = 0x000 ∨ x = 0x004 ∨ x = 0x008 then some (f32all .wo)
  else if x = 0x00C then some [{ hi := 11, lo := 0, ty := .wo }, { hi := 31, lo := 12, ty := .wo }]
  else if inFamily x 0x400 4 144 then some (f32all .wo)
  else if x = 0x100 ∨ x = 0x10C ∨ x = 0x118 then some [{ hi := 31, lo := 12, ty := .rw }]
  else if x = 0x104 ∨ x = 0x110 ∨ x = 0x11C ∨ x = 0x128 then some (f32all .rw)
  else if x = 0x108 then some [{ hi := 4, lo := 0, ty := .rw, reset := 0x04, enc := .range 4 16 }]
  else if x = 0x114 then some [{ hi := 4, lo := 0, ty := .rw, reset := 0x0B, enc := .range 11 20 }]
  else if x = 0x120 then some [{ hi := 4, lo := 0, ty := .rw, reset := 0x06, enc := .range 6 16 }]
  else if x = 0x124 then some [{ hi := 31, lo := 6, ty := .rw }]
  else if x = 0x12C then some [{ hi := 0, lo := 0, ty := .rw }]
  else if x = 0x130 then some [{ hi := 2, lo := 0, ty := .ro }]
  else if x = 0x134 then
    some [{ hi := 10, lo := 0, ty := .rw, reset := 1, enc := .range 1 1024 },
      { hi := 25, lo := 16, ty := .rw, enc := .range 0 1000 }]
  else if x = 0x200 then some [{ hi := 8, lo := 0, ty := .rw, enc := .range 0 448 }]
  else if x = 0x210 then some [{ hi := 12, lo := 0, ty := .rw }]
  else if x = 0x214 then some (f32all .ro)
  else if x = 0x218 then some [{ hi := 15, lo := 0, ty := .ro }]
  else if x = 0x220 ∨ x = 0x224 then some (f32all .rw)
  else none

/-- Table 16.9. -/
def ctxFields (x : Nat) : Option (List Field) :=
  if x = 0x1000 then some [{ hi := 0, lo := 0, ty := .rwt }, { hi := 1, lo := 1, ty := .wo }]
  else if x = 0x1004 then some [{ hi := 11, lo := 0, ty := .rwt }, { hi := 28, lo := 16, ty := .rwt, enc := .range 0 4096 }]
  else if x = 0x1008 then some [{ hi := 8, lo := 0, ty := .rwt, enc := .range 0 256 }]
  else if x = 0x100C then some [{ hi := 31, lo := 12, ty := .rwt }]
  else if x = 0x1010 ∨ x = 0x1204 then some (f32all .rwt)
  else if x = 0x1014 then some [{ hi := 11, lo := 0, ty := .rwt, enc := .range 0 2048 }]
  else if x = 0x1018 then some [{ hi := 23, lo := 0, ty := .rwt, reset := 0x2710, enc := .range 1 16777215 }]
  else if x = 0x101C then some [{ hi := 0, lo := 0, ty := .rwt }]
  else if inFamily x 0x1100 16 16 ∨ inFamily x 0x1104 16 16 then some [{ hi := 29, lo := 0, ty := .rwt }]
  else if inFamily x 0x1108 16 16 then some [{ hi := 0, lo := 0, ty := .rwt }, { hi := 1, lo := 1, ty := .rwt }]
  else if x = 0x1200 then
    some [{ hi := 0, lo := 0, ty := .rwt }, { hi := 15, lo := 8, ty := .rwt, reset := 0x10, enc := .range 1 255 }]
  else if x = 0x1208 then
    some [{ hi := 22, lo := 0, ty := .rwt, enc := .range 0 4194304 }, { hi := 24, lo := 24, ty := .rwt },
      { hi := 25, lo := 25, ty := .rwt }]
  else if x = 0x120C then some [{ hi := 22, lo := 0, ty := .rwt, enc := .range 0 4194304 }]
  else if x = 0x1210 ∨ x = 0x1214 then some [{ hi := 23, lo := 0, ty := .rwt }]
  else if x = 0x1218 then
    some [{ hi := 4, lo := 0, ty := .rwt, enc := .range 0 16 }, { hi := 14, lo := 8, ty := .rwt, enc := .range 0 64 },
      { hi := 23, lo := 16, ty := .rwt, reset := 0x40 },
      { hi := 31, lo := 24, ty := .rwt, reset := 0x08, enc := .range 1 255 }]
  else if inFamily x 0x1240 4 7 then some (f32all .ro)
  else none

/-- The fields of the register at a BAR0 offset; none where no register lies (R325, R440). -/
def regFields (off : Nat) : Option (List Field) :=
  if off % 4 ≠ 0 then none
  else if off < 0x90000 then
    (let x := off % 0x10000
     if off < hifBase then glbFields x else if off < clkBase then hifFields x
     else if off < pwrBase then clkFields x else if off < secBase then pwrFields x
     else if off < eccBase then secFields x else if off < govBase then eccFields x
     else if off < wndBase then govFields x else if off < sknBase then wndFields x else sknFields x)
  else if off < stkBase then none
  else if off < spdBase then stkFields (off - stkBase)
  else if off < twnBase then spdFields (off - spdBase)
  else if off < ctxBase 0 then twnFields (off - twnBase)
  else if off < ctxBase 64 then
    (let x := off % 0x10000
     if x < 0x1000 then pageFields x else ctxFields x)
  else none

def fieldsReset : List Field → Nat
  | [] => 0
  | f :: fs => f.reset * 2 ^ f.lo + fieldsReset fs

/-- The Reset column (R442): the value after a power-on reset. -/
def regReset (off : Nat) : Word :=
  match regFields off with
  | none => 0
  | some fs => BitVec.ofNat 32 (fieldsReset fs)

/-- What a write of `v` over `old` does to the fields of the types in `sel` (R6, R8, R9): a reserved
encoding leaves its field. The flag says whether a reserved encoding was met in any field written. -/
def writeFields (sel : RegType → Bool) (v : Nat) : List Field → Nat → Nat × Bool
  | [], old => (old, false)
  | f :: fs, old =>
    let r := writeFields sel v fs old
    if sel f.ty then
      let x := f.val v
      if f.ty = .wo then (r.1, r.2 || !(x == 0 || f.enc.admits x))
      else if f.ty = .w1c then
        (putBits r.1 f.hi f.lo (bitsAt old f.hi f.lo - Nat.land (bitsAt old f.hi f.lo) x), r.2)
      else if f.ty = .w1s then (putBits r.1 f.hi f.lo (Nat.lor (bitsAt old f.hi f.lo) x), r.2)
      else if f.ty = .ro then r
      else if f.enc.admits x then (putBits r.1 f.hi f.lo x, r.2)
      else (r.1, true)
    else r

/-- Does some selected field take the value written? -/
def anyFieldTakes (sel : RegType → Bool) (v : Nat) (fs : List Field) : Bool :=
  fs.any (fun f => sel f.ty && f.enc.admits (f.val v))

/-- The bits of the RWT fields whose written encoding passes: what a staged write stages (R353). -/
def stagedMask (v : Nat) : List Field → Nat
  | [] => 0
  | f :: fs =>
    stagedMask v fs + (if f.ty = .rwt ∧ f.enc.admits (f.val v) then (2 ^ (f.hi + 1 - f.lo) - 1) * 2 ^ f.lo else 0)

end Sys2Proof
end

