-- ==== Sys2Proof/Machine/Sparse.lean ====
section
/-!
DEFINITION. Sparse tables: a list of (key, value) pairs in one canonical form, used for memory, register
files and every other large indexed piece of state. `sget` reads, `sset` writes and keeps the form: keys
strictly rising, and no entry equal to what an unlisted key reads as.
-/

namespace Sys2Proof

abbrev Sparse (α : Type) := List (Nat × α)

/-- The value at `k`: the listed one, or the default of an unlisted key. -/
def sget {α : Type} (d : Nat → α) : Sparse α → Nat → α
  | [], k => d k
  | (j, v) :: m, k => if k = j then v else sget d m k

/-- List `v` at `k`, in key order. -/
def sput {α : Type} : Sparse α → Nat → α → Sparse α
  | [], k, v => [(k, v)]
  | (j, w) :: m, k, v =>
    if k < j then (k, v) :: (j, w) :: m
    else if k = j then (k, v) :: m
    else (j, w) :: sput m k v

/-- Remove key `k`. -/
def sdel {α : Type} : Sparse α → Nat → Sparse α
  | [], _ => []
  | (j, w) :: m, k => if k = j then sdel m k else (j, w) :: sdel m k

/-- Write `v` at `k`, keeping the canonical form. -/
def sset {α : Type} [DecidableEq α] (d : Nat → α) (m : Sparse α) (k : Nat) (v : α) : Sparse α :=
  if v = d k then sdel m k else sput m k v

/-- Apply `f` to the value at `k`. -/
def smod {α : Type} [DecidableEq α] (d : Nat → α) (m : Sparse α) (k : Nat) (f : α → α) : Sparse α :=
  sset d m k (f (sget d m k))

/-- The canonical form. -/
abbrev SparseWf {α : Type} (d : Nat → α) (m : Sparse α) : Prop :=
  m.Pairwise (fun a b => a.1 < b.1) ∧ ∀ e ∈ m, ¬ e.2 = d e.1

/-- Write a list of values at `k`, `k + 1`, …. -/
def ssetMany {α : Type} [DecidableEq α] (d : Nat → α) (m : Sparse α) (k : Nat) : List α → Sparse α
  | [] => m
  | v :: vs => ssetMany d (sset d m k v) (k + 1) vs

/-- Read `n` values from `k` on. -/
def sgetMany {α : Type} (d : Nat → α) (m : Sparse α) (k : Nat) : Nat → List α
  | 0 => []
  | n + 1 => sget d m k :: sgetMany d m (k + 1) n

/-- Write the entries of an association list, in order. -/
def ssetAll {α : Type} [DecidableEq α] (d : Nat → α) (m : Sparse α) : List (Nat × α) → Sparse α
  | [] => m
  | (k, v) :: es => ssetAll d (sset d m k v) es

/-- A set of numbers as a strictly rising list. -/
abbrev NatSet := List Nat

def nsAdd : NatSet → Nat → NatSet
  | [], k => [k]
  | j :: m, k => if k < j then k :: j :: m else if k = j then j :: m else j :: nsAdd m k

def nsDel (m : NatSet) (k : Nat) : NatSet := m.filter (fun j => decide (¬ j = k))

def nsPut (m : NatSet) (k : Nat) (on : Bool) : NatSet := if on then nsAdd m k else nsDel m k

abbrev NatSetWf (m : NatSet) : Prop := m.Pairwise (fun a b => a < b)

end Sys2Proof
end

