-- ==== Sys2Proof/Machine/Numerics.lean ====
section
/-!
DEFINITION. Number formats and arithmetic (spec/02_arithmetic.md). A floating-point datum is taken apart
into an exact dyadic value, every operation is computed exactly (or to a quotient whose lost part is kept
as a sticky lowest bit), and one rounding follows: to nearest, ties to even (R27).
-/

namespace Sys2Proof

/-- An FP32 bit pattern. -/
abbrev F32 := BitVec 32

/-- A datum: NaN, an infinity, or ±m × 2^e. -/
inductive FVal where
  | nan
  | inf (neg : Bool)
  | fin (neg : Bool) (m : Nat) (e : Int)
deriving DecidableEq, Repr

/-- How a format uses its top exponent: IEEE infinities and NaN, E4M3's single NaN, or neither. -/
inductive FmtKind where
  | ieee | e4m3 | finite
deriving DecidableEq, Repr

/-- A floating-point format of Table 2.1: exponent bits, mantissa bits, bias. -/
structure Fmt where
  eb   : Nat
  mb   : Nat
  bias : Nat
  kind : FmtKind
deriving DecidableEq, Repr

def fmtFP32 : Fmt := ⟨8, 23, 127, .ieee⟩
def fmtBF16 : Fmt := ⟨8, 7, 127, .ieee⟩
def fmtFP16 : Fmt := ⟨5, 10, 15, .ieee⟩
def fmtE4M3 : Fmt := ⟨4, 3, 7, .e4m3⟩
def fmtE5M2 : Fmt := ⟨5, 2, 15, .ieee⟩
def fmtE2M1 : Fmt := ⟨2, 1, 1, .finite⟩
def fmtE3M2 : Fmt := ⟨3, 2, 3, .finite⟩
def fmtE2M3 : Fmt := ⟨2, 3, 1, .finite⟩

/-- The exponent of the last place of a denormal. -/
def Fmt.qmin (f : Fmt) : Int := 1 - (f.bias : Int) - (f.mb : Int)

def Fmt.infCode (f : Fmt) : Nat := (2 ^ f.eb - 1) * 2 ^ f.mb

/-- The magnitude code of the largest finite value (Table 2.1). -/
def Fmt.maxCode (f : Fmt) : Nat :=
  match f.kind with
  | .ieee => f.infCode - 1
  | .e4m3 => 0x7E
  | .finite => 2 ^ (f.eb + f.mb) - 1

/-- The canonical NaN (R21); a format without NaN gives 0. -/
def Fmt.nanCode (f : Fmt) : Nat :=
  match f.kind with
  | .ieee => f.infCode + 2 ^ (f.mb - 1)
  | .e4m3 => 0x7F
  | .finite => 0

def Fmt.signed (f : Fmt) (neg : Bool) (mag : Nat) : Nat :=
  if neg then mag + 2 ^ (f.eb + f.mb) else mag

/-- The value of a code (R20). -/
def Fmt.decode (f : Fmt) (code : Nat) : FVal :=
  let neg := code.testBit (f.eb + f.mb)
  let mag := code % 2 ^ (f.eb + f.mb)
  let ex := mag / 2 ^ f.mb
  let man := mag % 2 ^ f.mb
  if f.kind = .ieee ∧ ex = 2 ^ f.eb - 1 then (if man = 0 then .inf neg else .nan)
  else if f.kind = .e4m3 ∧ mag = 0x7F then .nan
  else if ex = 0 then .fin neg man f.qmin
  else .fin neg (man + 2 ^ f.mb) (f.qmin + (ex : Int) - 1)

/-- m ÷ 2^sh rounded to the nearest integer, ties to even. -/
def rneShift (m sh : Nat) : Nat :=
  if sh = 0 then m
  else
    let q := m >>> sh
    let r := m % 2 ^ sh
    let half := 2 ^ (sh - 1)
    if half < r ∨ (r = half ∧ q % 2 = 1) then q + 1 else q

/-- m × 2^e in units of 2^q, rounded to nearest even. -/
def rneAt (m : Nat) (e q : Int) : Nat :=
  if q ≤ e then m <<< (e - q).toNat else rneShift m (q - e).toNat

/-- The exponent of the last place of the format at the magnitude m × 2^e, the exponent unbounded above. -/
def Fmt.quantum (f : Fmt) (m : Nat) (e : Int) : Int :=
  max f.qmin ((m.log2 : Int) + e - (f.mb : Int))

/-- The magnitude code of m × 2^e after rounding with an unbounded exponent (R27, R28): codes of one
format rise with the magnitude, so a carry into the exponent needs no case of its own. -/
def Fmt.roundCode (f : Fmt) (m : Nat) (e : Int) : Nat :=
  if m = 0 then 0
  else
    let q := f.quantum m e
    (q - f.qmin).toNat * 2 ^ f.mb + rneAt m e q

/-- Conversion under R27 and R28 with the saturation mode (Table 2.4). -/
def Fmt.encode (f : Fmt) (sat : Bool) (v : FVal) : Nat :=
  let big (neg : Bool) : Nat :=
    if sat ∨ f.kind = .finite then f.signed neg f.maxCode
    else if f.kind = .e4m3 then 0x7F
    else f.signed neg f.infCode
  match v with
  | .nan => f.nanCode
  | .inf neg => big neg
  | .fin neg m e =>
    let c := f.roundCode m e
    if f.maxCode < c then big neg else f.signed neg c

/-- A datum whose magnitude code is already known. -/
def Fmt.ofMag (f : Fmt) (neg : Bool) (c : Nat) (sat : Bool) : Nat :=
  if f.maxCode < c then f.encode sat (.inf neg) else f.signed neg c

def f32Decode (x : F32) : FVal := fmtFP32.decode x.toNat

/-- rne32: one rounding to FP32, overflow to infinity. -/
def rne32 (v : FVal) : F32 := BitVec.ofNat 32 (fmtFP32.encode false v)

def f32NaN : F32 := 0x7FC00000
def f32Zero : F32 := 0
def f32One : F32 := 0x3F800000
def f32NegInf : F32 := 0xFF800000

/-- rne32, then a magnitude below 2^-126 becomes zero of the same sign (Table 2.2, "flushed"). -/
def rne32Flush (v : FVal) : F32 :=
  let r := rne32 v
  if r.toNat % 2 ^ 31 < 2 ^ 23 then BitVec.ofNat 32 (r.toNat / 2 ^ 31 * 2 ^ 31) else r

def rneBF16 (v : FVal) : BitVec 16 := BitVec.ofNat 16 (fmtBF16.encode false v)
def bf16Decode (x : BitVec 16) : FVal := fmtBF16.decode x.toNat

def FVal.isNaN : FVal → Bool
  | .nan => true
  | _ => false

def FVal.isFinite : FVal → Bool
  | .fin _ _ _ => true
  | _ => false

def FVal.isZero : FVal → Bool
  | .fin _ m _ => m == 0
  | _ => false

def FVal.neg : FVal → FVal
  | .nan => .nan
  | .inf n => .inf (!n)
  | .fin n m e => .fin (!n) m e

def FVal.abs : FVal → FVal
  | .nan => .nan
  | .inf _ => .inf false
  | .fin _ m e => .fin false m e

/-- ±m × 2^(e − e0) as an integer, for e0 ≤ e. -/
def scaledInt (neg : Bool) (m : Nat) (e e0 : Int) : Int :=
  let v : Int := (m <<< (e - e0).toNat : Nat)
  if neg then -v else v

def FVal.ofInt (v : Int) (e : Int) : FVal := .fin (decide (v < 0)) v.natAbs e

/-- The exact sum, with IEEE 754 special values and signs of zero (R26). -/
def FVal.add : FVal → FVal → FVal
  | .nan, _ => .nan
  | _, .nan => .nan
  | .inf a, .inf b => if a = b then .inf a else .nan
  | .inf a, .fin _ _ _ => .inf a
  | .fin _ _ _, .inf b => .inf b
  | .fin n1 m1 e1, .fin n2 m2 e2 =>
    let e0 := min e1 e2
    let s := scaledInt n1 m1 e1 e0 + scaledInt n2 m2 e2 e0
    if s = 0 then .fin (n1 && n2) 0 e0 else .ofInt s e0

def FVal.sub (a b : FVal) : FVal := a.add b.neg

/-- The exact product. -/
def FVal.mul : FVal → FVal → FVal
  | .nan, _ => .nan
  | _, .nan => .nan
  | .inf a, .inf b => .inf (a ^^ b)
  | .inf a, .fin n m _ => if m = 0 then .nan else .inf (a ^^ n)
  | .fin n m _, .inf b => if m = 0 then .nan else .inf (n ^^ b)
  | .fin n1 m1 e1, .fin n2 m2 e2 => .fin (n1 ^^ n2) (m1 * m2) (e1 + e2)

/-- Extra quotient bits kept before a rounding; the rest is one sticky bit. -/
def quotBits : Nat := 300

/-- The quotient, its lost part kept as a sticky lowest bit far below any rounding. -/
def FVal.div : FVal → FVal → FVal
  | .nan, _ => .nan
  | _, .nan => .nan
  | .inf _, .inf _ => .nan
  | .inf a, .fin n _ _ => .inf (a ^^ n)
  | .fin n _ e, .inf b => .fin (n ^^ b) 0 e
  | .fin n1 m1 e1, .fin n2 m2 e2 =>
    if m2 = 0 then (if m1 = 0 then .nan else .inf (n1 ^^ n2))
    else
      let t := m1 <<< quotBits
      let q := t / m2
      .fin (n1 ^^ n2) (2 * q + (if t % m2 = 0 then 0 else 1)) (e1 - e2 - quotBits - 1)

/-- The largest r with r × r ≤ x, for x below 4^n, found bit by bit. -/
def isqrtBits (x : Nat) : Nat → Nat → Nat
  | 0, r => r
  | n + 1, r =>
    let t := r + 2 ^ n
    isqrtBits x n (if t * t ≤ x then t else r)

def isqrt (x : Nat) : Nat := isqrtBits x (x.log2 / 2 + 1) 0

/-- The square root, with a sticky lowest bit. -/
def FVal.sqrt : FVal → FVal
  | .nan => .nan
  | .inf true => .nan
  | .inf false => .inf false
  | .fin n m e =>
    if m = 0 then .fin n 0 e
    else if n then .nan
    else
      let odd : Nat := (e % 2).toNat
      let t := m <<< (odd + quotBits)
      let r := isqrt t
      .fin false (2 * r + (if r * r = t then 0 else 1)) ((e - odd - quotBits) / 2 - 1)

/-- 1 ÷ √x (Table 2.5). -/
def FVal.rsqrt : FVal → FVal
  | .nan => .nan
  | .inf true => .nan
  | .inf false => .fin false 0 0
  | .fin n m e =>
    if m = 0 then .inf n
    else if n then .nan
    else
      let odd : Nat := (e % 2).toNat
      let d := m <<< odd
      let r := isqrt (2 ^ (2 * quotBits) / d)
      .fin false (2 * r + (if r * r * d = 2 ^ (2 * quotBits) then 0 else 1))
        (-((e - odd) / 2) - quotBits - 1)

/-- The exact order of two values neither of which is NaN: −1, 0 or 1, with −0 = +0. -/
def FVal.cmp : FVal → FVal → Int
  | .nan, _ => 0
  | _, .nan => 0
  | .inf a, .inf b => if a = b then 0 else if a then -1 else 1
  | .inf a, .fin _ _ _ => if a then -1 else 1
  | .fin _ _ _, .inf b => if b then 1 else -1
  | .fin n1 m1 e1, .fin n2 m2 e2 =>
    let e0 := min e1 e2
    let x := scaledInt n1 m1 e1 e0
    let y := scaledInt n2 m2 e2 e0
    if x < y then -1 else if x = y then 0 else 1

def FVal.sign : FVal → Bool
  | .nan => false
  | .inf n => n
  | .fin n _ _ => n

/-- Maximum of Table 2.5: NaN if either is NaN, −0 less than +0. -/
def FVal.max (a b : FVal) : FVal :=
  if a.isNaN ∨ b.isNaN then .nan
  else if a.cmp b < 0 then b
  else if a.cmp b = 0 ∧ a.sign then b
  else a

def FVal.min (a b : FVal) : FVal :=
  if a.isNaN ∨ b.isNaN then .nan
  else if a.cmp b < 0 then a
  else if a.cmp b = 0 ∧ a.sign then a
  else b

def f32Add (a b : F32) : F32 := rne32 ((f32Decode a).add (f32Decode b))
def f32Sub (a b : F32) : F32 := rne32 ((f32Decode a).sub (f32Decode b))
def f32Mul (a b : F32) : F32 := rne32 ((f32Decode a).mul (f32Decode b))
def f32Fma (a b c : F32) : F32 := rne32 (((f32Decode a).mul (f32Decode b)).add (f32Decode c))
def f32Div (a b : F32) : F32 := rne32 ((f32Decode a).div (f32Decode b))
def f32Max (a b : F32) : F32 := rne32 ((f32Decode a).max (f32Decode b))
def f32Min (a b : F32) : F32 := rne32 ((f32Decode a).min (f32Decode b))

/-- The nearest integer, ties to even. -/
def rneInt (neg : Bool) (m : Nat) (e : Int) : Int :=
  let r : Int := (rneAt m e 0 : Nat)
  if neg then -r else r

/-- Conversion to a two's-complement integer of [lo, hi] (R27, Table 2.4). -/
def toIntSat (lo hi : Int) (v : FVal) : Int :=
  match v with
  | .nan => 0
  | .inf true => lo
  | .inf false => hi
  | .fin n m e =>
    let r := rneInt n m e
    if r < lo then lo else if hi < r then hi else r

def FVal.ofIntVal (i : Int) : FVal := .ofInt i 0

/-! ### exp2, one algorithm for every unit (R35) -/

/-- T[i], the FP32 value nearest 2^(i/64). -/
def exp2Table : List F32 :=
  [0x3f800000, 0x3f8164d2, 0x3f82cd87, 0x3f843a29, 0x3f85aac3, 0x3f871f62, 0x3f88980f, 0x3f8a14d5,
   0x3f8b95c2, 0x3f8d1adf, 0x3f8ea43a, 0x3f9031dc, 0x3f91c3d3, 0x3f935a2b, 0x3f94f4f0, 0x3f96942d,
   0x3f9837f0, 0x3f99e046, 0x3f9b8d3a, 0x3f9d3eda, 0x3f9ef532, 0x3fa0b051, 0x3fa27043, 0x3fa43516]
  ++
  [0x3fa5fed7, 0x3fa7cd94, 0x3fa9a15b, 0x3fab7a3a, 0x3fad583f, 0x3faf3b79, 0x3fb123f6, 0x3fb311c4,
   0x3fb504f3, 0x3fb6fd92, 0x3fb8fbaf, 0x3fbaff5b, 0x3fbd08a4, 0x3fbf179a, 0x3fc12c4d, 0x3fc346cd,
   0x3fc5672a, 0x3fc78d75, 0x3fc9b9be, 0x3fcbec15, 0x3fce248c, 0x3fd06334, 0x3fd2a81e, 0x3fd4f35b]
  ++
  [0x3fd744fd, 0x3fd99d16, 0x3fdbfbb8, 0x3fde60f5, 0x3fe0ccdf, 0x3fe33f89, 0x3fe5b907, 0x3fe8396a,
   0x3feac0c7, 0x3fed4f30, 0x3fefe4ba, 0x3ff28177, 0x3ff5257d, 0x3ff7d0df, 0x3ffa83b3, 0x3ffd3e0c]

/-- The FP32 values nearest ln 2, (ln 2)²/2 and (ln 2)³/6. -/
def exp2C1 : F32 := 0x3f317218
def exp2C2 : F32 := 0x3e75fdf0
def exp2C3 : F32 := 0x3d635847

def exp2Fin (neg : Bool) (m : Nat) (e : Int) : F32 :=
  let x : Int := scaledInt neg m e (-149)
  let n : Int := x / 2 ^ 149
  let f : Nat := (x % 2 ^ 149).toNat
  let i : Nat := f * 64 / 2 ^ 149
  let r : FVal := .fin false (f - i * 2 ^ 143) (-149)
  let p1 := rne32 ((f32Decode exp2C3).mul r)
  let p2 := f32Add exp2C2 p1
  let p3 := rne32 ((f32Decode p2).mul r)
  let p4 := f32Add exp2C1 p3
  let p5 := rne32 ((f32Decode p4).mul r)
  let p6 := f32Add f32One p5
  let y := f32Mul (exp2Table.getD i f32One) p6
  match f32Decode y with
  | .fin s mm ee => rne32 (.fin s mm (ee + n))
  | v => rne32 v

def exp2F (x : F32) : F32 :=
  match f32Decode x with
  | .nan => f32NaN
  | .inf true => f32Zero
  | .inf false => rne32 (.inf false)
  | .fin neg m e =>
    if neg ∧ (FVal.fin neg m e).cmp (.fin true 126 0) < 0 then f32Zero
    else if ¬ (FVal.fin neg m e).cmp (.fin false 128 0) < 0 then rne32 (.inf false)
    else exp2Fin neg m e

/-! ### Correctly rounded elementary functions (Table 2.5), in fixed point

Every function is computed to an absolute error far below 2^-600, and then rounded once. The exact result
is a tie of FP32 only where it is exact (R32); DEDUCED: no FP32 argument brings a result closer than that
to a tie, so the one rounding is the correct one. -/

def fxP : Nat := 840
def fxOne : Int := 2 ^ fxP
def fxMul (a b : Int) : Int := a * b / 2 ^ fxP
def fxDiv (a b : Int) : Int := a * 2 ^ fxP / b
def fxOf (neg : Bool) (m : Nat) (e : Int) : Int := scaledInt neg m e (-(fxP : Int))
def fxVal (x : Int) : FVal := .ofInt x (-(fxP : Int))

/-- Σ_{k < fuel} s^k t^(2k+1)/(2k+1): atanh for s = 1, atan for s = −1, with t2 = t². -/
def fxOddSeries (s t2 : Int) : Nat → Nat → Int → Int
  | 0, _, _ => 0
  | fuel + 1, k, pw => pw / ((2 * k + 1 : Nat) : Int) + fxOddSeries s t2 fuel (k + 1) (s * fxMul pw t2)

def fxAtanh (t : Int) : Int := fxOddSeries 1 (fxMul t t) 300 0 t
def fxAtan (t : Int) : Int := fxOddSeries (-1) (fxMul t t) 300 0 t

def fxLn2 : Int :=
  18 * fxAtanh (fxOne / 26) - 2 * fxAtanh (fxOne / 4801) + 8 * fxAtanh (fxOne / 8749)
def fxPi : Int := 16 * fxAtan (fxOne / 5) - 4 * fxAtan (fxOne / 239)

/-- Σ terms of exp: pw = r^k/k!. -/
def fxExpSeries (r : Int) : Nat → Nat → Int → Int
  | 0, _, _ => 0
  | fuel + 1, k, pw => pw + fxExpSeries r fuel (k + 1) (fxMul pw r / ((k + 1 : Nat) : Int))

/-- e^x as (E, k) with value E × 2^(k − P), E in [1, 2). -/
def fxExp (x : Int) : Int × Int :=
  let k := x / fxLn2
  (fxExpSeries (x - k * fxLn2) 200 0 fxOne, k)

def fxShift (x : Int) (k : Int) : Int := if k < 0 then x / 2 ^ (-k).toNat else x * 2 ^ k.toNat

def fxExpAbs (x : Int) : Int := let ek := fxExp x; fxShift ek.1 ek.2

/-- ln (m × 2^e), for m > 0. -/
def fxLn (m : Nat) (e : Int) : Int :=
  let l := m.log2
  let y : Int := fxOf false m (-(l : Int))
  2 * fxAtanh (fxDiv (y - fxOne) (y + fxOne)) + (e + l) * fxLn2

/-- |x| = m × 2^e at or above the integer b. -/
def magGe (m : Nat) (e : Int) (b : Nat) : Bool := decide (0 ≤ (FVal.fin false m e).cmp (.fin false b 0))

def expF (x : F32) : F32 :=
  match f32Decode x with
  | .nan => f32NaN
  | .inf true => f32Zero
  | .inf false => rne32 (.inf false)
  | .fin neg m e =>
    if magGe m e 200 then (if neg then f32Zero else rne32 (.inf false))
    else
      let ek := fxExp (fxOf neg m e)
      rne32 (.ofInt ek.1 (ek.2 - fxP))

def lnF (base2 : Bool) (x : F32) : F32 :=
  match f32Decode x with
  | .nan => f32NaN
  | .inf true => f32NaN
  | .inf false => rne32 (.inf false)
  | .fin neg m e =>
    if m = 0 then f32NegInf
    else if neg then f32NaN
    else
      let l := fxLn m e
      rne32 (fxVal (if base2 then fxDiv l fxLn2 else l))

def withSign (neg : Bool) (v : FVal) : FVal := if neg then v.neg else v

def tanhF (x : F32) : F32 :=
  match f32Decode x with
  | .nan => f32NaN
  | .inf n => rne32 (.fin n 1 0)
  | .fin neg m e =>
    if m = 0 then rne32 (.fin neg 0 0)
    else if magGe m e 30 then rne32 (.fin neg 1 0)
    else
      let t := fxExpAbs (2 * fxOf false m e)
      rne32 (withSign neg (fxVal (fxDiv (t - fxOne) (t + fxOne))))

/-- 1 ÷ (1 + e^−x). -/
def sigmF (x : F32) : F32 :=
  match f32Decode x with
  | .nan => f32NaN
  | .inf true => f32Zero
  | .inf false => f32One
  | .fin neg m e =>
    if magGe m e 200 then (if neg then f32Zero else f32One)
    else
      let t := fxExpAbs (-(fxOf false m e))
      rne32 (fxVal (if neg then fxDiv t (fxOne + t) else fxDiv fxOne (fxOne + t)))

def fxErfSeries (x2 : Int) : Nat → Nat → Int → Int
  | 0, _, _ => 0
  | fuel + 1, k, pw =>
    pw / ((2 * k + 1 : Nat) : Int) + fxErfSeries x2 fuel (k + 1) (-(fxMul pw x2) / ((k + 1 : Nat) : Int))

def erfF (x : F32) : F32 :=
  match f32Decode x with
  | .nan => f32NaN
  | .inf n => rne32 (.fin n 1 0)
  | .fin neg m e =>
    if m = 0 then rne32 (.fin neg 0 0)
    else if magGe m e 6 then rne32 (.fin neg 1 0)
    else
      let t := fxOf false m e
      let sqrtPi : Int := (isqrt ((fxPi * 2 ^ fxP).toNat) : Nat)
      rne32 (withSign neg (fxVal (fxDiv (2 * fxErfSeries (fxMul t t) 500 0 t) sqrtPi)))

/-- Σ (−1)^k t^(2k+o)/(2k+o)!, o = 1 for sine and 0 for cosine. -/
def fxTrigSeries (t2 : Int) (o : Nat) : Nat → Nat → Int → Int
  | 0, _, _ => 0
  | fuel + 1, k, pw =>
    pw + fxTrigSeries t2 o fuel (k + 1)
      (-(fxMul pw t2) / (((2 * k + o + 1) * (2 * k + o + 2) : Nat) : Int))

/-- sin or cos of a non-zero finite argument, reduced by π/2 at full precision. -/
def trigF (cosine : Bool) (x : F32) : F32 :=
  match f32Decode x with
  | .nan => f32NaN
  | .inf _ => f32NaN
  | .fin neg m e =>
    if m = 0 then (if cosine then f32One else rne32 (.fin neg 0 0))
    else
      let t := fxOf neg m e
      let halfPi := fxPi / 2
      let k := t / halfPi
      let r := t - k * halfPi
      let quad := ((k + (if cosine then 1 else 0)) % 4).toNat
      let r2 := fxMul r r
      let s := fxTrigSeries r2 1 200 0 r
      let c := fxTrigSeries r2 0 200 0 fxOne
      rne32 (fxVal (if quad = 0 then s else if quad = 1 then c else if quad = 2 then -s else -c))

/-! ### Stochastic rounding (R30, R31) -/

/-- The 16-bit random value r of R31. -/
def srRandom (seed : BitVec 64) (step : BitVec 64) (streamId : BitVec 24) (elem : BitVec 64) :
    BitVec 16 :=
  let x0 := seed ^^^ (step * 0x9E3779B97F4A7C15#64) ^^^ ((streamId.setWidth 64) <<< 40) ^^^ elem
  let x1 := (x0 ^^^ (x0 >>> 30)) * 0xBF58476D1CE4E5B9#64
  let x2 := (x1 ^^^ (x1 >>> 27)) * 0x94D049BB133111EB#64
  let x3 := x2 ^^^ (x2 >>> 31)
  x3.setWidth 16

/-- Stochastic rounding of an FP32 value to a narrower format: up when floor(t × 65,536) > r. -/
def Fmt.encodeSR (f : Fmt) (sat : Bool) (v : FVal) (r : BitVec 16) : Nat :=
  match v with
  | .fin neg m e =>
    if m = 0 then f.signed neg 0
    else
      let q := f.quantum m e
      if q ≤ e then f.encode sat v
      else
        let sh := (q - e).toNat
        let low := m % 2 ^ sh
        let t16 := low * 65536 / 2 ^ sh
        let base := (q - f.qmin).toNat * 2 ^ f.mb + (m >>> sh)
        f.ofMag neg (if r.toNat < t16 then base + 1 else base) sat
  | w => f.encode sat w

end Sys2Proof
end

