-- ==== Sys2Proof/Machine/Vector.lean ====
section
/-!
DEFINITION. The vector unit's operations (spec/04_treadle_streams.md Tables 4.2 and 4.3), packing (R23), MX and KV
block conversion (R29, R33), one K step of an accumulator (R25), and the Spindle and merge arithmetic
(R34 to R39).
-/

namespace Sys2Proof

/-- A vector register: lane i is bits 32i + 31:32i (R71). -/
abbrev VReg := BitVec 8192

/-! ### Format codes (Table 4.2) -/

/-- Bits per element of a format code, RAW counted at 8; none: reserved. -/
def fmtBits (c : Nat) : Option Nat :=
  match c with
  | 1 => some 8 | 2 => some 8 | 3 => some 8 | 4 => some 4 | 5 => some 16 | 6 => some 16 | 7 => some 32
  | 8 => some 8 | 9 => some 8 | 10 => some 6 | 11 => some 6 | 12 => some 4 | 15 => some 8
  | _ => none

/-- The floating-point format of a code; none for integers, RAW and reserved codes. -/
def fmtOf (c : Nat) : Option Fmt :=
  match c with
  | 1 => some fmtE4M3 | 2 => some fmtE5M2 | 5 => some fmtBF16 | 6 => some fmtFP16 | 7 => some fmtFP32
  | 8 => some fmtE4M3 | 9 => some fmtE5M2 | 10 => some fmtE3M2 | 11 => some fmtE2M3 | 12 => some fmtE2M1
  | _ => none

def signedOf (bits v : Nat) : Int :=
  if v < 2 ^ (bits - 1) then (v : Int) else (v : Int) - (2 ^ bits : Nat)

/-- The exact value of an element. -/
def elemVal (c v : Nat) : FVal :=
  match fmtOf c with
  | some f => f.decode v
  | none => FVal.ofIntVal (signedOf (if c = 4 then 4 else 8) v)

/-- An FP32 lane converted to an element (R27, R28). -/
def elemOf (c : Nat) (sat : Bool) (x : F32) : Nat :=
  match fmtOf c with
  | some f => if c = 7 then x.toNat else f.encode sat (f32Decode x)
  | none =>
    if c = 4 then ((toIntSat (-8) 7 (f32Decode x)) % 16).toNat else ((toIntSat (-128) 127 (f32Decode x)) % 256).toNat

/-- Elements of width `w` packed from the least significant bit (R23). -/
def packElems (w : Nat) : List Nat → Nat
  | [] => 0
  | v :: vs => v % 2 ^ w + 2 ^ w * packElems w vs

/-- `n` elements of width `w`, from bit 0 on. -/
def unpackElems (w : Nat) : Nat → Nat → List Nat
  | 0, _ => []
  | n + 1, v => v % 2 ^ w :: unpackElems w n (v / 2 ^ w)

def VReg.lanes (r : VReg) : List F32 := (unpackElems 32 256 r.toNat).map (BitVec.ofNat 32)

def VReg.ofLanes (l : List F32) : VReg := BitVec.ofNat 8192 (packElems 32 (l.map BitVec.toNat))

/-- Byte i of a register. -/
def VReg.byte (r : VReg) (i : Nat) : Nat := r.toNat / 2 ^ (8 * i) % 256

/-- A register with `n` bytes from byte `i` on replaced. -/
def VReg.putBytes (r : VReg) (i n v : Nat) : VReg :=
  BitVec.ofNat 8192 (r.toNat - r.toNat / 2 ^ (8 * i) % 2 ^ (8 * n) * 2 ^ (8 * i) + v % 2 ^ (8 * n) * 2 ^ (8 * i))

/-- VL: unpack `n` elements of a scratchpad datum into lanes, the rest +0 (R80); RAW fills bytes (R71). -/
def vlUnpack (c n v : Nat) : VReg :=
  if c = 15 then BitVec.ofNat 8192 (v % 2 ^ (8 * n))
  else
    match fmtBits c with
    | none => 0
    | some w =>
      VReg.ofLanes ((unpackElems w n v).map (fun e => if c = 7 then BitVec.ofNat 32 e else rne32 (elemVal c e)))

/-- VS: convert `n` lanes to the format and pack them (R80). -/
def vsPack (c n : Nat) (sat : Bool) (r : VReg) : Nat :=
  if c = 15 then r.toNat % 2 ^ (8 * n)
  else
    match fmtBits c with
    | none => 0
    | some w => packElems w ((r.lanes.take n).map (elemOf c sat))

/-! ### Block conversions -/

/-- e_max of R29. -/
def mxEmax (c : Nat) : Int :=
  match c with
  | 8 => 8 | 9 => 15 | 10 => 4 | 11 => 2 | _ => 2

def magMax (a b : FVal) : FVal := if a.cmp b < 0 then b else a

/-- The largest magnitude of a block of finite values. -/
def blockMax (xs : List F32) : FVal :=
  xs.foldl (fun a x => magMax a (f32Decode x).abs) (.fin false 0 0)

def anyNonFinite (xs : List F32) : Bool := xs.any (fun x => !(f32Decode x).isFinite)

/-- floor(log2 a) of a positive value. -/
def floorLog2 : FVal → Int
  | .fin _ m e => (m.log2 : Int) + e
  | _ => 0

/-- R29: 32 lanes to one MX block: the scale byte and the elements. -/
def mxBlock (c : Nat) (xs : List F32) : Nat × List Nat :=
  let a := blockMax xs
  if anyNonFinite xs then (0xFF, xs.map (fun _ => 0))
  else if a.isZero then (0, xs.map (fun _ => 0))
  else
    let x := max (-127) (min 127 (floorLog2 a - mxEmax c))
    match fmtOf c with
    | none => (0, xs.map (fun _ => 0))
    | some f =>
      ((x + 127).toNat, xs.map (fun v => f.encode true ((f32Decode v).mul (.fin false 1 (-x)))))

/-- R33: 32 lanes to one KV block: the BF16 scale and the elements, Q = 127 or 7. -/
def kvBlock (q : Nat) (xs : List F32) : BitVec 16 × List Nat :=
  let width := if q = 7 then 4 else 8
  if anyNonFinite xs then (0x7FC0, xs.map (fun _ => 0))
  else
    let s := rneBF16 ((blockMax xs).div (.fin false q 0))
    let sv := bf16Decode s
    if sv.isZero then (s, xs.map (fun _ => 0))
    else (s, xs.map (fun x => ((toIntSat (-(q : Int)) q ((f32Decode x).div sv)) % (2 ^ width : Nat)).toNat))

def chunks32 (xs : List F32) : List (List F32) :=
  (List.range 8).map (fun b => (xs.drop (32 * b)).take 32)

/-! ### Vector operations (Table 4.3) -/

def cmpResult (b : Bool) : F32 := if b then f32One else f32Zero

/-- E8M0 scale (Table 2.1). -/
def e8m0 (b : Nat) : FVal := if b = 0xFF then .nan else .fin false 1 ((b : Int) - 127)

/-- CVT of one lane: rounded to VFMT and held as an FP32 value. -/
def cvtLane (c : Nat) (sat : Bool) (sr : Option (BitVec 16)) (x : F32) : F32 :=
  match fmtOf c, sr with
  | some f, some r => rne32 (f.decode (f.encodeSR sat (f32Decode x) r))
  | _, _ => rne32 (elemVal c (elemOf c sat x))

/-- One-operand operations. -/
def unaryLane (vop : Nat) (a : F32) : F32 :=
  match vop with
  | 0x13 => rne32 (f32Decode a).sqrt
  | 0x14 => f32Div f32One a
  | 0x15 => rne32 (f32Decode a).rsqrt
  | 0x16 => exp2F a
  | 0x17 => expF a
  | 0x18 => lnF true a
  | 0x19 => lnF false a
  | 0x1A => tanhF a
  | 0x1B => sigmF a
  | 0x1C => erfF a
  | 0x1D => trigF false a
  | _ => trigF true a

/-- Lane operations of two or three operands. -/
def lane3 (vop : Nat) (a b c : F32) : F32 :=
  let x := f32Decode a
  let y := f32Decode b
  let z := f32Decode c
  let nan : Bool := x.isNaN || y.isNaN
  match vop with
  | 0x01 => f32Add a b
  | 0x02 => f32Sub a b
  | 0x03 => f32Mul a b
  | 0x04 => f32Fma a b c
  | 0x05 => f32Min a b
  | 0x06 => f32Max a b
  | 0x07 => cmpResult (!nan && decide (x.cmp y = 0))
  | 0x08 => cmpResult (nan || !decide (x.cmp y = 0))
  | 0x09 => cmpResult (!nan && decide (x.cmp y < 0))
  | 0x0A => cmpResult (!nan && decide (x.cmp y ≤ 0))
  | 0x0B => if z.isZero then b else a
  | _ => f32Div a b

/-- What an operation writes: VD, and VC for MXQ and KVQ. -/
structure VecOut where
  vd : Option VReg
  vc : Option VReg
deriving DecidableEq, Repr

/-- The result of VOP (Table 4.3). `rnd i` is the random value of lane i when SR is set. -/
def vectorOp (vop : Nat) (va vb vc : VReg) (vbf vfmt : Nat) (sat : Bool) (rnd : Option (List (BitVec 16))) :
    VecOut :=
  let a := va.lanes
  let b := vb.lanes
  let c := vc.lanes
  if vop = 0 then ⟨none, none⟩
  else if vop = 0x0C then
    let k := 2 ^ (vbf % 8)
    ⟨some (VReg.ofLanes (a.drop k ++ a.take k)), none⟩
  else if vop = 0x0D then
    ⟨some (VReg.ofLanes (a.mapIdx (fun i x => rne32 ((f32Decode x).mul (e8m0 (vc.byte (8 * vbf + i / 32))))))), none⟩
  else if vop = 0x0E then
    ⟨some (VReg.ofLanes (a.mapIdx (fun i x =>
      rne32 ((f32Decode x).mul (fmtBF16.decode (vc.toNat / 2 ^ (8 * (16 * vbf + 2 * (i / 32))) % 65536)))))), none⟩
  else if vop = 0x0F then
    match rnd with
    | none => ⟨some (VReg.ofLanes (a.map (cvtLane vfmt sat none))), none⟩
    | some rs => ⟨some (VReg.ofLanes (List.zipWith (fun x r => cvtLane vfmt sat (some r) x) a rs)), none⟩
  else if vop = 0x10 then
    let bl := (chunks32 a).map (mxBlock vfmt)
    ⟨some (BitVec.ofNat 8192 (packElems ((fmtBits vfmt).getD 8) (bl.map Prod.snd).flatten)),
      some (vc.putBytes (8 * vbf) 8 (packElems 8 (bl.map Prod.fst)))⟩
  else if vop = 0x11 then
    let bl := (chunks32 a).map (kvBlock (if vfmt = 4 then 7 else 127))
    ⟨some (BitVec.ofNat 8192 (packElems ((fmtBits vfmt).getD 8) (bl.map Prod.snd).flatten)),
      some (vc.putBytes (16 * vbf) 16 (packElems 16 (bl.map (fun p => p.1.toNat))))⟩
  else if 0x13 ≤ vop then ⟨some (VReg.ofLanes (a.map (unaryLane vop))), none⟩
  else
    ⟨some (VReg.ofLanes (List.zipWith (fun (p : F32 × F32) z => lane3 vop p.1 p.2 z) (List.zip a b) c)), none⟩

/-- Latency class of Table 3.5. -/
def vopLatency (vop : Nat) : Nat :=
  if vop = 0 then 0
  else if vop = 0x10 ∨ vop = 0x11 ∨ vop = 0x14 ∨ vop = 0x15 ∨ vop = 0x16 then 6
  else if vop = 0x12 ∨ vop = 0x13 then 12
  else if 0x17 ≤ vop then 10
  else 4

/-- Row of Table 3.5, for the issue interval. -/
def vopRow (vop : Nat) : Nat :=
  if vop = 0x12 ∨ vop = 0x13 then 4 else if vop = 0x0F then 1 else if vop = 0x10 ∨ vop = 0x11 then 2
  else if vop = 0x14 ∨ vop = 0x15 ∨ vop = 0x16 then 3 else if 0x17 ≤ vop then 5 else 0

/-! ### One K step (R25) -/

/-- acc + a × b, or acc + (a0 × b0 + a1 × b1) for a pair of 4-bit elements: the sum exact, one rounding. -/
def macStep (acc : F32) (prods : List (FVal × FVal)) : F32 :=
  rne32 ((f32Decode acc).add (prods.foldl (fun s p => s.add (p.1.mul p.2)) (.fin true 0 0)))

/-! ### Spindle and merge arithmetic (R34 to R39) -/

/-- A partial of one query row (R36), and the running statistics of a merge (R38). -/
structure Partial where
  m : F32
  l : F32
  o : List F32
deriving DecidableEq, Repr

def Partial.init (d : Nat) : Partial := ⟨f32NegInf, f32Zero, List.replicate d f32Zero⟩
/-- A partial that is NaN in every element (R39, R142). -/
def Partial.nan (d : Nat) : Partial := ⟨f32NaN, f32NaN, List.replicate d f32NaN⟩

def flAdd (a b : F32) : F32 := rne32Flush ((f32Decode a).add (f32Decode b))
def flMul (a b : F32) : F32 := rne32Flush ((f32Decode a).mul (f32Decode b))
def flSub (a b : F32) : F32 := rne32Flush ((f32Decode a).sub (f32Decode b))

/-- A key or value row of one token: the integer elements and one BF16 scale per 32 of them. -/
structure KvRow where
  elems  : List Int
  scales : List (BitVec 16)
deriving DecidableEq, Repr

/-- The score of one token (R34): q in BF16, key elements in blocks of 32. -/
def scoreBlocks (sigma : F32) : List (BitVec 16) → List Int → List (BitVec 16) → F32 → F32
  | _, _, [], acc => flMul sigma acc
  | q, k, s :: ss, acc =>
    let e := (List.zip (q.take 32) (k.take 32)).foldl
      (fun (t : FVal) p => t.add ((bf16Decode p.1).mul (FVal.ofIntVal p.2))) (.fin true 0 0)
    scoreBlocks sigma (q.drop 32) (k.drop 32) ss (rne32Flush ((f32Decode acc).add ((bf16Decode s).mul e)))

def score (sigma : F32) (q : List (BitVec 16)) (k : KvRow) : F32 := scoreBlocks sigma q k.elems k.scales f32Zero

/-- One unmasked token (R36, R39). -/
def scanToken (st : Partial) (t : F32) (v : KvRow) : Partial :=
  let mNew := f32Max st.m t
  let alpha := exp2F (flSub st.m mNew)
  let p := exp2F (flSub t mNew)
  let l := flAdd (flMul st.l alpha) p
  let ws := v.scales.map (fun s => rne32Flush ((f32Decode p).mul (bf16Decode s)))
  let o := List.zipWith (fun (x : F32) (iv : Nat × Int) =>
      rne32Flush ((f32Decode (flMul x alpha)).add ((f32Decode (ws.getD (iv.1 / 32) 0)).mul (FVal.ofIntVal iv.2))))
    st.o (v.elems.mapIdx (fun i e => (i, e)))
  ⟨mNew, l, o⟩

/-- A whole scan of one row over the unmasked tokens of a Skein, in ascending position (R36, R37): a score that is
NaN or infinite makes the partial NaN (R39). -/
def scanRow (d : Nat) (sigma : F32) (q : List (BitVec 16)) (tokens : List (KvRow × KvRow)) : Partial :=
  (tokens.foldl (fun (st : Partial × Bool) kv =>
      let t := score sigma q kv.1
      if st.2 then st else if (f32Decode t).isFinite then (scanToken st.1 t kv.2, false) else (Partial.nan d, true))
    (Partial.init d, false)).1

/-- Combine one partial (R38, R39). -/
def mergeAdd (st p : Partial) : Partial :=
  if p.m = f32NegInf then st
  else
    let mNew := f32Max st.m p.m
    let a := exp2F (flSub st.m mNew)
    let b := exp2F (flSub p.m mNew)
    ⟨mNew, flAdd (flMul st.l a) (flMul p.l b), List.zipWith (fun x y => flAdd (flMul x a) (flMul y b)) st.o p.o⟩

/-- The output y of a row (R38). -/
def mergeOut (st : Partial) : List F32 :=
  st.o.map (fun x => if st.l = f32Zero then f32Zero else rne32Flush ((f32Decode x).div (f32Decode st.l)))

end Sys2Proof
end

