-- ==== Sys2Proof/Machine/Types.lean ====
section
/-!
DEFINITION. The parts of the block's state, chapter by chapter of the spec: plain data. Machine/State.lean puts
them together. Ticks, counts, indices and keys are `Nat`; what software sees as bits is a `BitVec`.
-/

namespace Sys2Proof.Machine

/-! ### Stacked memory (05, 06, 13) -/

/-- Check classes of Table 6.10. -/
inductive RowClass where
  | sealed | raw | unsealed
deriving DecidableEq, Repr

/-- Where a line lies (R102, R109). -/
structure Loc where
  stack : Nat
  die   : Nat
  bank  : Nat
  row   : Nat
  line  : Nat
deriving DecidableEq, Repr

/-- A Thread-path access of 8 bytes (R123), with where its line lay when it was accepted (R111). -/
structure ThreadReq where
  addr : DevAddr
  wr   : Option (BitVec 64)
  loc  : Loc
deriving DecidableEq, Repr

/-- What waits in a stack's Thread path (R124): an access, a Winder engine's list read, a walk of the translation table for a
request received at a Twine port, or (8 + e) for one that engine e sends to the device itself. -/
inductive ThreadWait where
  | access (q : ThreadReq)
  | winder (e : Nat)
  | twine (p : Nat)
deriving DecidableEq, Repr

/-- The Thread path of one stack: accesses made in the tick `inTick`, and those waiting. -/
structure ThreadPath where
  inTick  : Nat := 0
  used    : Nat := 0
  waiting : List ThreadWait := []
deriving DecidableEq, Repr

/-- A BAR4 request under way (R125): its lines still to be accessed, each with where it lay when the request was accepted, and
what has been read. -/
structure Bar4Req where
  id     : Nat
  ctx    : Nat
  addr   : Nat
  len    : Nat
  /-- bytes written; none: a read -/
  data   : Option (List (Option Byte))
  left   : List (Nat × Loc)
  got    : List Byte := []
  poison : Bool := false
deriving DecidableEq, Repr

/-- An access that waits at a busy bank (R161): what it is, or which agent makes it. -/
inductive BankAcc where
  | read (addr : Nat) (path : Path) (sector : Bool) (l : Loc)
  | write (addr : Nat) (data : Line) (mask : LineMask) (poison : Bool) (l : Loc)
  | refresh
  | thread (k : Nat) (q : ThreadReq)
  | bar4 (id : Nat)
  | fetch (core id line : Nat)
  | put (core id line : Nat)
  | words (core : Nat)
  | winder (e : Nat)
  | data (e : Nat)
  | twine (p : Nat)
  | merge (row : Nat)
  | carder (left : Nat) (stuck : List Nat)
  /-- a line that the Governor or a stack controller writes -/
  | own (addr : Nat) (data : Line) (mask : LineMask) (poison : Bool) (l : Loc) (ctx : Option Nat)
deriving DecidableEq, Repr

/-- A staged line of an SSB (R60, R61): most recently used first in its set. Its bytes and check symbols lie in the
SSB's SRAM (`Rel.ssb`, `Rel.ssbChk`). -/
structure StagedLine where
  addr     : Nat
  way      : Nat
  poison   : Bool
  unsealed : Bool
deriving DecidableEq, Repr

structure Mem where
  /-- data bytes, keyed rowKey × 1,024 + offset -/
  data    : List Host.Cell := []
  /-- check symbols, keyed rowKey × 64 + 4 × line + k -/
  chk     : List Host.Cell := []
  /-- class tags, keyed rowKey -/
  cls     : Sparse RowClass := []
  thread  : Sparse ThreadPath := []
  /-- sets of each SSB's staging region, keyed stack × 20,480 + set -/
  staging : Sparse (List StagedLine) := []
  /-- tick of the last refresh of a bank, keyed (stack × 16 + die) × 64 + bank -/
  refresh : Sparse Nat := []
  /-- BAR4 requests under way, in the order received -/
  bar4s   : List Bar4Req := []
  nextBar4 : Nat := 0
deriving DecidableEq, Repr

/-! ### Cores (03, 04) -/

/-- One physical core's entry of the core map's other half. -/
structure Phys where
  dead    : Bool := false
  logical : Option Nat := none
deriving DecidableEq, Repr

/-- GLB_CORE_MAP_c (R68). -/
structure CoreMap where
  phys    : Option Nat := none
  /-- last physical core carried; none: none since the map was rebuilt -/
  last    : Option Nat := none
  epoch   : BitVec 8 := 0
  /-- declared dead with its epoch at 255: no core carries it again (R67) -/
  barred  : Bool := false
deriving DecidableEq, Repr

/-- An address generator (R74). -/
structure AddrGen where
  lbase : BitVec 21 := 0
  ls0 : BitVec 22 := 0
  ls1 : BitVec 22 := 0
  ls2 : BitVec 22 := 0
  n0 : BitVec 16 := 0
  n1 : BitVec 16 := 0
  n2 : BitVec 16 := 0
  sbase : BitVec 21 := 0
  sbs : BitVec 22 := 0
  dbase : BitVec 42 := 0
  ds0 : BitVec 40 := 0
  ds1 : BitVec 40 := 0
  ds2 : BitVec 40 := 0
  i0 : Nat := 0
  i1 : Nat := 0
  i2 : Nat := 0
  n : Nat := 0
deriving DecidableEq, Repr

/-- A wait register (R82). -/
structure WaitReg where
  tc : BitVec 12 := 0
  target : BitVec 48 := 0
  step : BitVec 32 := 0
deriving DecidableEq, Repr

/-- Where a stream's words come from (R94). -/
inductive StreamSrc where
  | program (addr : Nat) (count : Nat)
  | host (ring : BitVec 64) (status : BitVec 64)
deriving DecidableEq, Repr

/-- STATE of Table 4.8. -/
inductive TqState where
  | run | hold | underrun | preempted | ended | stopped
deriving DecidableEq, Repr

/-- Why a core's pipeline holds (R475, R98). -/
inductive HoldKind where
  | underrun | wait | fence | limit | hazard
deriving DecidableEq, Repr

/-- A treadle word in the queue. -/
structure QWord where
  w        : TreadleWord
  /-- delivered poisoned (R476), from an UNSEALED row, or not to be had at all, with this code (R81, R347) -/
  poison   : Bool := false
  unsealed : Bool := false
  refused  : Option Nat := none
deriving DecidableEq, Repr

/-- A result in flight (R54, R55, R88): it lands when stream cycle `at_` begins. -/
inductive Flight where
  /-- a vector register; `rank` is the order of R89 -/
  | vreg (at_ : Nat) (rank : Nat) (v : Nat) (val : VReg)
  /-- `n` bytes of a vector register from byte `pos` on: the scales of MXQ and KVQ -/
  | vpart (at_ : Nat) (v pos n : Nat) (val : Nat)
  /-- a set goes to +0 (R77) -/
  | zero (at_ : Nat) (set : Nat)
  /-- one K step into a set: the exact factors of each row and column -/
  | kstep (at_ : Nat) (set : Nat) (a b : List (List FVal))
  /-- LOAD_S chunk -/
  | chunk (at_ : Nat) (set : Nat) (pos : Nat) (val : BitVec 2048)
deriving DecidableEq, Repr

/-- An outstanding fetch (R81). -/
structure FetchReq where
  id    : Nat
  ctx   : Nat
  bank  : Option Nat
  addr  : Nat
  loc   : Nat
  lines : Nat
  stage : Bool
  tc    : Option Nat
  /-- arrangement of the regions when it was issued (R111) -/
  arr   : BitVec 128
  /-- lines that have not landed -/
  left  : List Nat
deriving DecidableEq, Repr

/-- A put not yet at its destination point: its lines as they stood at the grant. `sent`: performed at its CHIP point as the
context's host-window write of that number (R264). -/
structure PutReq where
  id    : Nat
  ctx   : Nat
  bank  : Option Nat
  addr  : Nat
  data  : List (Line × Bool)
  tc    : Option Nat
  /-- arrangement of the regions when it was issued (R111) -/
  arr   : BitVec 128
  /-- lines that have not been written -/
  left  : List Nat
  sent  : Option Nat := none
deriving DecidableEq, Repr

/-- A signal waiting for the effects before it (R83). -/
structure SigReq where
  tc   : Nat
  inc  : Nat
  /-- every fetch and put with a smaller number precedes the signal -/
  mark : Nat
deriving DecidableEq, Repr

/-- A signal owed by a word of a stream that has stopped (R83, R87): its counter, its increment, and the mark before which
every effect must be performed. -/
structure LateSig where
  ctx  : Nat
  key  : Nat
  inc  : Nat
  mark : Nat
deriving DecidableEq, Repr

/-- Scale reads owed by a stream cycle: the other lines it read and wrote, and the generators of MA and MB. -/
structure OwedScale where
  reads  : List Nat
  writes : List Nat
  genA   : Nat
  genB   : Nat
  /-- number of the core's next request when it was due: fetches from it on came later -/
  mark   : Nat := 0
  /-- the Mill throttle had lengthened its stream cycle -/
  slow   : Bool := false
  /-- lines written since it was due, as they stood then: number, data, poison, unsealed -/
  kept   : List (Nat × Line × Bool × Bool) := []
deriving DecidableEq, Repr

/-- The K count of R78 and the scale lines in hand. -/
structure ScaleState where
  p     : Nat := 0
  count : Nat := 0
  /-- the preceding word ran MX K cycles with this P and ended on a block boundary -/
  onEdge : Bool := false
  curA  : List Line := []
  curB  : List Line := []
  nextA : List Line := []
  nextB : List Line := []
  /-- reads that are due, oldest first, and wait for the end of their block: which generators they go through was not known -/
  owed  : List OwedScale := []
  /-- sets loaded by LOAD_S since they last accumulated -/
  loaded : NatSet := []
deriving DecidableEq, Repr

/-- A stream running on a logical core, for the step (or STREAM record's step) numbered `work`. -/
structure Stream where
  work     : Nat
  ctx      : Nat
  /-- the step's private counter bank (R274) -/
  bank     : Option Nat
  seed     : BitVec 64
  stepIx   : Nat
  src      : StreamSrc
  state    : TqState := .run
  status   : Nat := 0
  retired  : Word := 0
  fetched  : Word := 0
  produced : Word := 0
  queue    : List QWord := []
  /-- stream cycles of the front word already issued -/
  pos      : Nat := 0
  /-- the front word's fence and wait have been passed -/
  passed   : Bool := false
  /-- the scale reads before the front word have been made -/
  primed   : Bool := false
  hold     : Option (HoldKind × Nat) := none
  wts      : List WaitReg := [{}, {}, {}, {}, {}, {}, {}, {}]
  elem     : BitVec 40 := 0
  /-- bytes of a VL register, and of a two-cycle K step, read so far -/
  vlBytes  : List Nat := []
  maBytes  : List Nat := []
  mbBytes  : List Nat := []
  sigs     : List SigReq := []
  /-- END has retired -/
  ending   : Bool := false
  /-- stop at the next word boundary: with this final code, or with none of its own (R96, R221) -/
  halt     : Option (Option Nat) := none
  /-- a stream port read poison; true: the first such line came from an UNSEALED row -/
  poison   : Option Bool := none
deriving DecidableEq, Repr

/-- The pipeline of a core: what outlives a stream of one context (R74, R78, R475). -/
structure Pipe where
  ags     : List AddrGen := [{}, {}, {}, {}]
  scales  : ScaleState := {}
  /-- stream cycles issued -/
  cycle   : Nat := 0
  flight  : List Flight := []
  /-- first stream cycle in which a divide or square root may issue again (R89) -/
  divFree : Nat := 0
deriving DecidableEq, Repr

/-- An access waiting at an asynchronous port (R50). -/
inductive AsyncAcc where
  | ni (item : NiItem)
  | xo (addr : BitVec 21)
deriving DecidableEq, Repr

/-- A logical core. -/
structure CoreSt where
  map    : CoreMap := {}
  stream : Option Stream := none
  pipe   : Pipe := {}
  /-- requests outstanding on the network port, oldest first -/
  fetches : List FetchReq := []
  puts   : List PutReq := []
  /-- signals still owed by streams that have stopped, in word order -/
  late   : List LateSig := []
  nextId : Nat := 0
  /-- accesses waiting at the asynchronous ports -/
  async  : List AsyncAcc := []
  stall  : Word := 0
  insert : Word := 0
  underrun : Word := 0
  holdCycles : Word := 0
  /-- context that last ran here (R46) -/
  lastCtx : Option Nat := none
  /-- bytes delivered in the tick `farTick` by each far stack, keyed by stack (R58) -/
  farTick : Nat := 0
  farBytes : Sparse Nat := []
  /-- fetches held at a far stack until the next tick, by their numbers -/
  farHeld : List Nat := []
  /-- a line of treadle words held there: its stack, and the first fetch issued after it -/
  farLine : Option (Nat × Nat) := none
  /-- a stop has been requested at this tick and no boundary reached (R382) -/
  stopReq : Option Nat := none
  /-- a line of treadle words that waits at its bank, and where it lies (R111) -/
  wordLoc : Option (Nat × Loc) := none
deriving DecidableEq, Repr

/-- What a pre-emption saves of one core (R101, R230): its stream if any, the pipeline, the registers, and the written
lines with their poison marks. -/
structure Parked where
  core   : Nat
  stream : Option Stream
  pipe   : Pipe
  acc    : List (Nat × BitVec 6144)
  vregs  : List (Nat × VReg)
  lines  : List (Nat × Line × Bool × Bool)
deriving DecidableEq, Repr

/-- SRAM of the physical cores, keyed by physical core. -/
structure Spads where
  data    : List Host.Cell := []
  chk     : List Host.Cell := []
  written : NatSet := []
  poison  : NatSet := []
  /-- poison came from an UNSEALED row -/
  unsealed : NatSet := []
  acc     : Sparse (BitVec 6144) := []
  vregs   : Sparse VReg := []
deriving DecidableEq, Repr

/-! ### Spindles and row logic (06) -/

/-- A query buffer. -/
structure QBuf where
  d     : Nat
  rows  : List (List (BitVec 16))
  sigma : F32
deriving DecidableEq, Repr

/-- A partial record of the output buffer (Table 6.3). -/
structure PartialRec where
  ctag : Nat
  qrow : Nat
  d    : Nat
  part : Partial
  poison   : Bool
  unsealed : Bool
  empty    : Bool
deriving DecidableEq, Repr

/-- What a scan has met so far: poisoned, from an UNSEALED row, and whether the first such line has been logged (R142). -/
structure ScanFlags where
  poison   : Bool := false
  unsealed : Bool := false
  logged   : Bool := false
deriving DecidableEq, Repr

/-- A queued or running command. -/
structure SpdCmd where
  x       : Xcmd
  /-- SCAN: the query it was sent with -/
  q       : Option QBuf := none
  /-- SCOPY, RESEAL: the context whose row request it serves, and the request (R149) -/
  owner   : Option (Nat × Nat) := none
  /-- the Governor's own: its rows have been moved (notes/assumptions/36.md) -/
  ghost   : Bool := false
  /-- row steps the command takes in all -/
  total   : Nat := 0
  /-- row steps still to be granted -/
  steps   : Nat := 0
  /-- tick of the start -/
  started : Nat := 0
  /-- SCAN: the mask word, the rows read so far, what was met, and the SCLK in which the records are ready -/
  mask    : Nat := 0
  got     : List (List Nat) := []
  flags   : ScanFlags := {}
  endAt   : Nat := 0
deriving DecidableEq, Repr

inductive SpdState where
  | alive | deadServed | deadUnserved
deriving DecidableEq, Repr

structure Spindle where
  epoch : BitVec 8 := 0
  state : SpdState := .alive
  qb0   : Option QBuf := none
  qb1   : Option QBuf := none
  queue : List SpdCmd := []
  run   : Option SpdCmd := none
  out   : List PartialRec := []
  /-- commands that the controller holds until the queue has a place (R139) -/
  backlog : List SpdCmd := []
  /-- SCLK at which the bank-group path is free again -/
  pathTo : Nat := 0
deriving DecidableEq, Repr

/-- What a granted step does, beside taking its banks and its share of the budget. -/
inductive StepAct where
  /-- the next step of its Spindle's command -/
  | command
  /-- the next step of a context's row request -/
  | request (ctx id : Nat)
  /-- a row operation (Table 6.8) -/
  | op (op : Nat) (dst a b c : Loc)
  /-- nothing more: the Governor's own row work (notes/assumptions/36.md) -/
  | none
deriving DecidableEq, Repr

/-- Kinds of step that the activation budget grants. -/
inductive StepKind where
  | spindle | mask | rowop | scopy | reseal
deriving DecidableEq, Repr

/-- A pending or granted step of a stack (R160). -/
structure PStep where
  kind   : StepKind
  /-- 16 × die + bank group -/
  bg     : Nat
  /-- banks it keeps busy, keyed 64 × die + bank -/
  banks  : List Nat
  units  : Nat
  /-- SCLK cycles it occupies its die -/
  len    : Nat
  /-- SCLK cycles its bank is busy -/
  busy   : Nat
  /-- executing Spindle index, for a Spindle's own steps -/
  spindle : Option Nat
  /-- row keys written (destination rows) -/
  dest   : List Nat
  act    : StepAct
  /-- SCLK before which it is not pending (R146) -/
  notBefore : Nat := 0
  /-- CTAG of a scan -/
  tag    : Nat := 0
  /-- the row it acts on -/
  loc    : Loc := ⟨0, 0, 0, 0, 0⟩
deriving DecidableEq, Repr

/-- A bank held by a step: until which SCLK, who waits, and the 16-access allowance (R161). -/
structure BankSt where
  busyTo : Nat := 0
  step   : Option PStep := none
  /-- the last step granted, until a waiting access has been served after it (R164) -/
  held   : Option PStep := none
  /-- waiting accesses in arrival order, each with the SCLK at which it began to wait -/
  waits  : List (Nat × BankAcc) := []
  /-- the first of them that no further step may pass: those that waited when the step before the last ended -/
  first  : Nat := 0
  /-- those of them that waited when the last step ended -/
  older  : Nat := 0
  /-- accesses served since the last step ended, beyond the first -/
  served : Nat := 0
deriving DecidableEq, Repr

/-- The row logic of one stack. -/
structure StackRow where
  pend   : List PStep := []
  /-- window the charge belongs to -/
  window : Nat := 0
  used   : Nat := 0
  /-- booked intervals: die, first and last + 1 SCLK -/
  booked : List (Nat × Nat × Nat) := []
  lastBg : Nat := 255
  /-- the latest SCLK that an event has named -/
  now    : Nat := 0
  /-- bank state, keyed die × 64 + bank -/
  banks  : Sparse BankSt := []
deriving DecidableEq, Repr

/-- A row request in progress (R149 to R151). -/
structure RowReq where
  id    : Nat
  body  : BitVec 512
  tag   : Word
  /-- steps performed -/
  done  : Nat := 0
  /-- SCLK of the last step's end, and its stack -/
  endAt : Nat × Nat := (0, 0)
  fail  : Option Nat := none
  started : Bool := false
deriving DecidableEq, Repr

/-- One SCAN that attention needs: which Skein, which query rows, which chain position (R186, R187, R193). -/
structure ScanPlan where
  step    : Nat
  slot    : Nat
  handle  : Nat
  pos     : Nat
  /-- merge rows, one per query row of the command -/
  rows    : List Nat
  ntok    : Nat
  mask    : Option (Nat × Nat)
  /-- the query rows it is to be sent with -/
  q       : QBuf
  /-- executing Spindle and CTAG once issued -/
  bound   : Option (Nat × Nat) := none
deriving DecidableEq, Repr

/-- A query row at its merge unit (R62 to R65). -/
structure MergeRow where
  id     : Nat
  ssb    : Nat
  ctx    : Nat
  step   : Nat
  slot   : Nat
  d      : Nat
  nslots : Nat
  dest   : Nat
  /-- key of the counter it increases; none once the counter bank has been freed (R274) -/
  tc     : Option Nat
  reserved : Bool := false
  next   : Nat := 0
  acc    : Partial
  /-- partials read out of a Spindle and on their way -/
  inbox  : List (Nat × PartialRec) := []
  /-- partials in their slots, waiting for their turn -/
  slots  : List (Nat × PartialRec) := []
  /-- the output waits for a pre-empted core -/
  blocked : Bool := false
  /-- lines of the output record still to be written: where each begins, where it lies, its bytes -/
  left    : Option (List (Nat × Loc × List Nat)) := none
deriving DecidableEq, Repr

/-! ### Skeins (07) -/

inductive SkState where
  | free | resident | spilled | moving
deriving DecidableEq, Repr

/-- An entry of the Skein table (Table 7.4). -/
structure Skein where
  st      : SkState := .free
  ctx     : Nat := 0
  fmt     : Bool := false
  hd      : Nat := 0
  spec    : Bool := false
  refs    : Nat := 0
  block   : Nat := 0
  dest    : Nat := 0
  ntok    : Nat := 0
  commit  : Nat := 0
  basepos : Nat := 0
  /-- spill slot to which its rows are being copied (R228) -/
  spillTo : Option Nat := none
  /-- lost to an uncorrectable error (R363) -/
  lost    : Bool := false
deriving DecidableEq, Repr

structure Skeins where
  table    : Sparse Skein := []
  /-- the block map (R177): occupant handle + 1, 0: none -/
  owner    : Sparse Nat := []
  /-- blocks freed and not yet zeroed -/
  dirty    : NatSet := []
  /-- SKEIN regions all of whose blocks count as not zeroed, and the blocks zeroed since -/
  regDirty : NatSet := []
  clean    : NatSet := []
  /-- blocks withheld (R364) and blocks lost with their table line (R178) -/
  withheld : NatSet := []
  /-- bank groups, by Spindle index, all of whose blocks are withheld (R377), and blocks of them released since -/
  withheldBg : NatSet := []
  released : NatSet := []
  lost     : NatSet := []
  /-- freed blocks of lost Skeins, to be resealed (R364) -/
  reseal   : NatSet := []
deriving DecidableEq, Repr

/-! ### Serving (08) -/

structure Model where
  rec_     : BitVec 1024
  /-- an accepted MODEL_UNLOAD: its REC_TAG -/
  unload   : Option Word := none
  quarantined : Bool := false
  /-- repair list (R367), at most 64 line addresses -/
  repair   : List Nat := []
  /-- a further line arrived when the list was full -/
  full     : Bool := false
deriving DecidableEq, Repr

/-- An accepted MODEL_LOAD that waits for the running steps of its slot. -/
structure LoadReq where
  slot : Nat
  rec_ : BitVec 1024
  tag  : Word
deriving DecidableEq, Repr

inductive SeqSt where
  /-- its table entry has been read and not yet resolved (R206, R207) -/
  | fresh
  | prefill | decode | stepping | parked | done | held
deriving DecidableEq, Repr

/-- A sequence of a hank (Table 8.3, R209). -/
structure Seq where
  st        : SeqSt := .prefill
  /-- its table entry as read, and the code that the read itself fails it with -/
  entry     : BitVec 512 := 0
  bad       : Option Nat := none
  seqid     : Nat := 0
  keep      : Bool := false
  tag       : Word := 0
  tokin     : Nat := 0
  tokout    : Nat := 0
  promptLen : Nat := 0
  /-- prompt tokens already prefilled -/
  promptPos : Nat := 0
  maxNew    : Nat := 0
  /-- tokens in the KV cache -/
  committed : Nat := 0
  /-- tokens written at TOKOUT -/
  out       : Nat := 0
  /-- chains, keyed layer × 64 + KV head: the handles in order -/
  chains    : Sparse (List Nat) := []
  home      : Option Nat := none
  depth     : Nat := 0
  poor      : Nat := 0
  since     : Nat := 0
  cancel    : Bool := false
  /-- final condition met in the current step -/
  fate      : Option Nat := none
  /-- first tick in which no block could be had since the last completed step (R229) -/
  kvSince   : Option Nat := none
  lastStep  : Nat := 0
  /-- a compaction has been asked for: REC_TAG -/
  compact   : Option Word := none
  status    : Nat := 0
  /-- its spilled Skeins are being restored (R229) -/
  restore   : Bool := false
  /-- host bus addresses of prompt reads that have failed, with their ticks: the events follow its completion (R348, R351) -/
  errs      : List (BitVec 64 × Nat) := []
deriving DecidableEq, Repr

/-- A HELD sequence (R209). -/
structure Held where
  ctx       : Nat
  seqid     : Nat
  model     : Nat
  committed : Nat
  chains    : Sparse (List Nat)
  home      : Option Nat
  lastStep  : Nat
  compact   : Option Word := none
  /-- the hank and slot it was kept from, for the order of R227 -/
  uid       : Nat := 0
  slot      : Nat := 0
deriving DecidableEq, Repr

inductive HankSt where
  | queued | active | stepping | preempted | complete
deriving DecidableEq, Repr

/-- A hank, or a STREAM record, which is selected as one (R347). -/
structure Hank where
  uid    : Nat
  ctx    : Nat
  stream : Bool
  desc   : Record
  lc     : Bool
  model  : Nat
  mask   : BitVec 8
  nmax   : Nat
  st     : HankSt := .queued
  /-- the first selection has been made -/
  picked : Bool := false
  steps  : Nat := 0
  seqs   : List Seq := []
  okCount : Nat := 0
deriving DecidableEq, Repr

inductive Phase where
  | draft | main | prefill | stream
deriving DecidableEq, Repr

/-- What one slot does in a step. -/
structure SlotWork where
  slot   : Nat
  /-- first row's token position -/
  pos    : Nat
  /-- rows written as committed tokens -/
  rows   : Nat
  /-- candidates kept -/
  cand   : List (Word × Nat) := []
deriving DecidableEq, Repr

/-- A hank step running or pre-empted. -/
structure StepSt where
  uid    : Nat
  hank   : Nat
  ctx    : Nat
  lc     : Bool
  mask   : BitVec 8
  bank   : Nat
  phase  : Phase
  no     : Nat
  seed   : BitVec 64
  slots  : List SlotWork := []
  /-- phase results per core: logical core, code, tick -/
  ends   : List (Nat × Nat × Nat) := []
  /-- layers whose attention has begun, per sub-batch -/
  att0   : Nat := 0
  att1   : Nat := 0
  /-- values of QTC_0 and QTC_1 when the phase began (R214) -/
  q0     : BitVec 48 := 0
  q1     : BitVec 48 := 0
  start  : Nat := 0
  /-- ticks spent pre-empted -/
  away   : Nat := 0
  preAt  : Option Nat := none
  /-- a switch is under way: true saving, false restoring -/
  switch : Option Bool := none
  /-- step that starts when this one has been saved -/
  poison : Bool := false
  /-- prepared and waiting for a switch to end -/
  waiting : List Nat := []
  /-- restart after a dead core is due (R383) -/
  restart : Bool := false
  saved  : List Parked := []
deriving DecidableEq, Repr

structure Serve where
  models : Sparse (Option Model) := []
  loads  : List LoadReq := []
  hanks  : List Hank := []
  steps  : List StepSt := []
  /-- pre-empted steps in the order pre-empted -/
  preempted : List Nat := []
  held   : List Held := []
  /-- virtual times and charges, keyed 2 × context (+ 1 for LC) and context -/
  vt     : Sparse (BitVec 64) := []
  charged : Sparse Word := []
  /-- contexts and classes with a ready or stepping hank at the last pass, keyed as `vt` -/
  had    : NatSet := []
  windowStart : Nat := 0
  beTicks : Nat := 0
  nextUid : Nat := 0
  /-- spill slots in use, keyed context × 2^24 + slot: handle + 1 -/
  spill  : Sparse Nat := []
  /-- Governor's Spindle budget limit per stack as eighths taken off UNITS -/
  throttle : Nat := 0
  holdBe : Bool := false
  /-- tick of the last comparison of the average power (R234) -/
  throttleAt : Nat := 0
  plans  : List ScanPlan := []
  rows   : List MergeRow := []
  nextRow : Nat := 0
  /-- counts of GOV_CTXn_STAT, keyed 8 × context + s, s 1 (64 bits), 3, 4, 5 -/
  stats  : Sparse (BitVec 64) := []
  /-- relocations that wait for R168 -/
  evac   : NatSet := []
deriving DecidableEq, Repr

/-! ### Host interface (12) -/

inductive CtxSt where
  | off | idle | running | stopping | faulted
deriving DecidableEq, Repr

/-- A completion record before its PHASE is known (Table 12.9). -/
structure Completion where
  ckind  : Nat := 1
  rkind  : Nat := 0
  status : Nat := 0
  erroff : Nat := 0
  tag    : Word := 0
  aux    : Word := 0
  slot   : Nat := 0
  refused : Bool := false
  count  : Nat := 0
  addr   : Nat := 0
  core   : Nat := 0
deriving DecidableEq, Repr

/-- An event record before its PHASE is known (Table 12.10). -/
structure Event where
  ekind  : Nat
  status : Nat := 0
  ctx    : Nat := 0
  cause  : Nat := 0
  tag    : Word := 0
  aux    : Word := 0
  tick   : Nat := 0
  info   : Nat := 0
  core   : Nat := 0
deriving DecidableEq, Repr

/-- A record on its way to a ring, in order (R348). -/
inductive Post where
  | final (c : Completion)
  /-- a completion with an event concerning the same work: the completion's interrupt follows the event (R348) -/
  | both (c : Completion) (e : Event)
  | step (c : Completion)
  | event (e : Event)
  /-- a tally increment at the destination point of host-window writes (Table 10.3) -/
  | tally (tc : Nat) (bank : Option Nat) (amount : Nat)
deriving DecidableEq, Repr

/-- A post and the number of host-window writes that must be flushed before it. -/
structure Waiting where
  post : Post
  need : Nat
deriving DecidableEq, Repr

/-- What the device sends to the host. -/
inductive HostMsg where
  | record (ctx : Nat) (addr : BitVec 64) (data : BitVec 256)
  | ringStatus (ctx : Nat) (addr : BitVec 64) (data : BitVec 512)
  | treadleStatus (ctx : Nat) (addr : BitVec 64) (data : BitVec 128)
  | write (ctx : Nat) (addr : BitVec 64) (data : List Byte) (poison noSnoop relaxed : Bool)
  | flushRead (ctx : Nat) (addr : BitVec 64)
  /-- a memory read request for `len` bytes -/
  | read (ctx : Nat) (addr : BitVec 64) (len : Nat) (noSnoop : Bool)
  | msix (ctx : Nat) (vector : Nat)
  /-- the completion of a BAR4 read that P2 has held (R408): its data and EP, or Unsupported Request -/
  | bar4Read (ctx : Nat) (data : Option (List Byte × Bool))
deriving DecidableEq, Repr

/-- SPDM error codes the spec names (R424, R432, R433), and the standard's for a message out of order or malformed. -/
inductive SpdmError where
  | unspecified | unsupportedRequest | sessionLimitExceeded | unexpectedRequest | invalidRequest
deriving DecidableEq, Repr

/-- What a measurement block measures (Table 15.4). -/
inductive MeasKind where
  | immutableRom | firmwareConfig | mutableFirmware | firmwareVersion | securityState
deriving DecidableEq, Repr

/-- A measurement block (Table 15.4): index, kind, whether its content is raw or a digest, content. -/
structure MeasBlock where
  index : Nat
  kind  : MeasKind
  raw   : Bool
  value : List Byte
deriving DecidableEq, Repr

/-- Capabilities and algorithms of R432. -/
inductive SpdmCap where
  | cert | chal | measSig | keyEx | encrypt | mac | hbeat | keyUpd
deriving DecidableEq, Repr
inductive SpdmAlg where
  | rsaPss3072 | sha256 | secp384r1 | aes256Gcm | spdmKeySchedule
deriving DecidableEq, Repr

/-- An SPDM response, without the standard's own encoding. -/
inductive SpdmReply where
  | version
  | capabilities (l : List SpdmCap)
  | algorithms (l : List SpdmAlg)
  | digests (d : BitVec 256)
  | certificate (part : List Byte) (left : Nat)
  | challengeAuth (nonce sig : BitVec 3072)
  | measurements (nonce : BitVec 256) (b : List MeasBlock) (sig : Option (BitVec 3072))
  | keyExchange (session : BitVec 32) (random : BitVec 256) (sig : BitVec 3072)
  | finish | heartbeat | keyUpdate | endSession
  | error (e : SpdmError)
deriving DecidableEq, Repr

/-- What the device answers to the last request from outside. -/
inductive Reply where
  | none
  /-- a register read -/
  | word (v : Word)
  /-- BAR4 read data; EP when poisoned -/
  | data (bytes : List Byte) (ep : Bool)
  /-- partial records read out of a Spindle, stamped with its epoch (R167) -/
  | pread (epoch : BitVec 8) (b : List Byte)
  | unsupportedRequest
  | retry
  | accepted
  | bytes (b : List Byte)
  | nack
  | spdm (r : SpdmReply)
  /-- bits a TAP instruction selects or shifts out -/
  | tap (bits : BitVec 512)
  | refused
deriving DecidableEq, Repr

/-- A teardown under way (R330): its cause, whether nothing is posted to the function (R323, R331), whether it is an FLR's, the
details of its event, whether all has been posted, and what follows: 0 nothing, 1 a context reset, 2 OFF. -/
structure Closing where
  cause : Nat
  mute  : Bool := false
  flr   : Bool := false
  info  : Nat := 0
  core  : Nat := 0
  /-- HANK_TAG or REC_TAG concerned -/
  tag   : Word := 0
  told  : Bool := false
  next  : Nat := 0
  /-- false: no work is torn down, and `next` only waits for records on their way -/
  tears : Bool := true
deriving DecidableEq, Repr

structure Ctxs where
  st     : CtxSt := .off
  closing : Option Closing := none
  sqTail : Word := 0
  sqHead : Word := 0
  /-- submission records whose reads have been issued (R334) -/
  sqRead : Word := 0
  cqTail : Word := 0
  cqHead : Word := 0
  eqTail : Word := 0
  eqHead : Word := 0
  eqLost : Word := 0
  stepLost : Word := 0
  /-- completion slots reserved and not yet written (R338) -/
  reserved : Nat := 0
  parked : Word := 0
  preempted : Word := 0
  demoted : Word := 0
  bar4Refused : Word := 0
  dbRefused : Word := 0
  hostErrors : Word := 0
  dirty  : Bool := false
  unsignalled : Nat := 0
  firstUnsig : Nat := 0
  /-- an accepted BARRIER whose completion is not posted -/
  barrier : Option Word := none
  busMaster : Bool := true
  noSnoop : Bool := true
  relaxed : Bool := true
  d3hot  : Bool := false
  /-- host-window writes issued, and those passed by a completed flush read -/
  writes : Nat := 0
  flushed : Nat := 0
  /-- marks of the flush reads outstanding -/
  flushes : List Nat := []
  posts  : List Waiting := []
  rowQ   : List RowReq := []
  nextRow : Nat := 0
  /-- doorbells behind a BAR4 write received before them: the doorbell, and the number of the first BAR4 request after it (R345) -/
  bells  : List (Instr × Nat) := []
  /-- host-window reads that have failed and been reported, and whose data have not been delivered: their requesters (R351) -/
  hostFails : List Nat := []
  /-- words credited by treadle doorbells to STREAM records not yet started, keyed hank × 144 + core -/
  credits : Sparse Word := []
  /-- those that were overrun before they started (R96) -/
  overruns : NatSet := []
  /-- MSI-X table, keyed byte offset, and pending bits -/
  msix   : Sparse Word := []
  pba    : NatSet := []
deriving DecidableEq, Repr

inductive TxnSt where
  | idle | open_ | committing | full
deriving DecidableEq, Repr

/-- A staged write: register, index in force (R445), mask of bits and their value. -/
structure Staged where
  off  : Nat
  idx  : Nat
  mask : Nat
  val  : Nat
deriving DecidableEq, Repr

structure Txn where
  st     : TxnSt := .idle
  count  : Nat := 0
  last   : Nat := 0
  staged : List Staged := []
  /-- the boundary after the COMMIT has come -/
  due    : Bool := false
  /-- one-write transactions of this tick (R7) -/
  fresh  : List Staged := []
  /-- one-write transactions whose boundary has come -/
  single : List Staged := []
deriving DecidableEq, Repr

/-! ### Reliability (13) -/

/-- An error-log entry (Table 13.3). -/
structure LogEntry where
  typ    : Nat
  status : Nat := 0
  count  : Nat := 1
  ctx    : Option Nat := none
  tick   : Nat := 0
  /-- ADDR, and the location fields when `loc` is set -/
  addr   : Nat := 0
  loc    : Bool := false
  stack  : Nat := 0
  die    : Nat := 0
  bank   : Nat := 0
  row    : Nat := 0
  line   : Nat := 0
  symbol : Nat := 0x7F
  unit   : Nat := 0
  source : Nat := 8
  info   : Nat := 0
deriving DecidableEq, Repr

/-- A request that takes effect at the next tick boundary. -/
inductive Boundary where
  | coreDead (p : Nat) (why : Nat)
  | spindleDead (n : Nat) (why : Nat)
  | stackLost (k : Nat)
  | safe (cause : Nat)
  | quarantine (m : Nat) (line : Nat)
  | restored (m : Nat)
  /-- a MODEL_LOAD is applied to a slot that holds a model (R369) -/
  | load (m : Nat)
  | peerDead (node : Nat)
  | peerAlive (node : Nat)
  | unlock
  /-- a self-tested core joins again (R384) -/
  | coreAlive (p : Nat)
  /-- a sequence that is not stepping completes with a code (R222, R363) -/
  | seqEnds (hank i code : Nat)
  /-- a HELD sequence is freed (R363) -/
  | heldEnds (ctx seqid : Nat)
  /-- a context is torn down (R323) -/
  | teardown (c cause : Nat) (mute : Bool)
deriving DecidableEq, Repr

/-- Rank of an event in Table 14.2: errors, context faults, then register writes and records. -/
def Boundary.rank : Boundary → Nat
  | .safe c => if c = 1 then 3 else if c = 6 then 7 else 4
  | .coreDead _ w => if w = 6 then 7 else 4
  | .spindleDead _ w => if w = 6 then 7 else 4
  | .stackLost _ => 4
  | .quarantine _ _ => 4
  | .restored _ => 4
  | .load _ => 8
  | .heldEnds _ _ => 4
  | .seqEnds _ _ code => if code = 0x01 then 7 else 4
  | .teardown _ _ _ => 5
  | .peerDead _ => 7
  | .peerAlive _ => 7
  | .unlock => 7
  | .coreAlive _ => 7

/-- The command of the opcode table by which the request takes effect, if there is one. -/
def Boundary.cmd : Boundary → Option Instr
  | .coreDead p _ => some (.coreDeclaredDead (Fin.ofNat 152 p))
  | .spindleDead n _ => some (.spindleDeclaredDead (Fin.ofNat 2048 n))
  | .stackLost k => some (.stackLost (Fin.ofNat 8 k))
  | .safe _ => some .safeEntry
  | .quarantine m _ => some (.quarantine (Fin.ofNat 256 m))
  | .peerDead _ => some .twnPeerDeclare
  | .peerAlive _ => some .twnPeerAdmit
  | .unlock => some .debugUnlock
  | .restored _ => none
  | .load _ => none
  | .coreAlive _ => none
  | .seqEnds _ _ _ => none
  | .heldEnds _ _ => none
  | .teardown _ _ _ => none

def Boundary.hasRow (b : Boundary) : Bool := b.cmd.isSome

structure Rel where
  log     : Sparse LogEntry := []
  logHead : Word := 0
  logLost : Word := 0
  /-- retirement entries, keyed stack × 256 + entry -/
  retire  : Sparse Word := []
  /-- failing SRAM codewords seen: key (core × 2^21 + address, or 2^40 + SSB × 2^25 + offset) and tick -/
  sramFail : List (Nat × Nat) := []
  /-- withheld ways of staging sets: (SSB × 20,480 + set) × 16 + way (R365) -/
  ssbWays : NatSet := []
  /-- withheld merge slots: SSB, offset of the failing codeword, bytes (R365) -/
  slotsHeld : List (Nat × Nat × Nat) := []
  ueRows  : List (Nat × Nat) := []
  /-- re-admitted Spindles that wait for their buddy's FOREIGN commands to end (R384) -/
  admits  : NatSet := []
  /-- SRAM of the SSBs (R359, R380): data keyed SSB × 2^25 + offset, check symbols keyed
  3 × (SSB × 2^20 + offset / 32) + j -/
  ssb     : List Host.Cell := []
  ssbChk  : List Host.Cell := []
  /-- requests of this tick that take effect at the next boundary (R394) -/
  asked    : List Boundary := []
  /-- requests whose boundary has come -/
  boundary : List Boundary := []
  /-- rows already reported UNSEALED_FOUND in the current Carder pass -/
  found   : NatSet := []
  /-- tick of the last Busko service of the watchdog -/
  wdogAt  : Nat := 0
  /-- mirror lines to repair from their weight line (R368) -/
  mirrorBad : List (Nat × Nat) := []
deriving DecidableEq, Repr

/-! ### Power, clocks, inputs, reset (14, 17) -/

/-- A filtered input (R398 to R400). -/
structure InputSt where
  level   : Bool := false
  chatter : Bool := false
  stuck   : Bool := false
  /-- tick at which a chatter mask ends -/
  maskTo  : Option Nat := none
  /-- boundary of the last accepted edge -/
  lastEdge : Option Nat := none
  /-- tick since which the level, or masked value, is asserted -/
  since   : Option Nat := none
deriving DecidableEq, Repr

/-- Device resets (Table 14.8). -/
inductive ResetKind where
  | powerOn | cold | warm
deriving DecidableEq, Repr

inductive PwrState where
  | p0 | p1 | p2 | p3
deriving DecidableEq, Repr

/-- The separately switched power domains (Table 14.5). -/
inductive Domain where
  | core (p : Nat) | ssb (k : Nat) | winder (e : Nat) | twine (p : Nat) | stack (k : Nat) | spindles (k : Nat)
  | network (g : Nat) | pcie | tally | busko | distaff
deriving DecidableEq, Repr

structure Power where
  state   : PwrState := .p0
  /-- a P2 or P3 request is draining -/
  drain   : Bool := false
  drained : Bool := false
  /-- WAKE_IN# was asserted, enabled and not STUCK at the request -/
  wakeReq : Bool := false
  /-- last tick in which R405's work was present -/
  busyAt  : Nat := 0
  /-- a wake event of P1 was seen at this tick -/
  wakeAt  : Option Nat := none
  /-- tick of entry into P2 or P3 -/
  lowAt   : Nat := 0
  inputs  : Sparse InputSt := []
  /-- pins held by the AON latches, and the levels last driven or held, 1 asserted: bit 0 THERM_TRIP_OUT#, bit 1 + n
  Tn_PAUSE_OUT -/
  padHold : BitVec 9 := 0
  padLevel : BitVec 9 := 0
  /-- THERM_TRIP_OUT# asserted -/
  tripOut : Bool := false
  /-- a thermal trip has turned off every core, Winder engine, Twine port and Spindle domain -/
  hotOff  : Bool := false
  /-- stacks powered down by a thermal trip -/
  tripped : BitVec 8 := 0
  critical : Bool := false
  /-- Mill throttle by temperature, per-stack throttle, and the tick since which a stack is 5 °C above -/
  millHot : Bool := false
  stkHot  : BitVec 8 := 0
  hotSince : Sparse (Option Nat) := []
  deepHot : BitVec 8 := 0
  /-- refresh doubled per stack -/
  refresh2 : BitVec 8 := 0
  l1      : Bool := false
  perst   : Bool := false
  /-- power good: false between a power fail and the rails' recovery -/
  railsOk : Bool := true
  /-- rails that have been found below their thresholds since -/
  railsLow : List Rail := []
  aonOk   : Bool := true
  ready   : Bool := false
  /-- a start-up has run and READY is due -/
  started : Bool := false
  bootFail : Bool := false
  safe    : Option Nat := none
  /-- requests held unanswered in P2 (R408), each with the BAR4 base of its context when it was received -/
  heldReq : List (Instr × Nat) := []
  clkHi   : Word := 0
  /-- a wake from P2 or P3 accepted and not yet carried out: its source -/
  wakeSrc : Option Nat := none
  /-- GLB_RESET written: true COLD, false WARM -/
  resetReq : Option Bool := none
  smbAlert : Bool := false
  smbStraps : BitVec 2 := 0
  /-- the straps have been sampled and the start-up has passed step 5: the SMBus target acknowledges -/
  smbOn   : Bool := false
deriving DecidableEq, Repr
/-! ### Winder engines (09) -/

/-- An accepted descriptor (Table 9.1). -/
structure WDesc where
  ctx  : Nat
  tag  : Word
  rec_ : BitVec 1024
deriving DecidableEq, Repr

/-- A source access unit read and not yet written out. -/
structure SrcUnit where
  addr     : Nat
  data     : List Nat
  poison   : Bool
  unsealed : Bool
deriving DecidableEq, Repr

/-- A packet waiting to be sent; `own`: the tag of this device's request; `rekey`: directions whose key changes after it (R297). -/
structure TxPkt where
  header : BitVec 256
  data   : List (BitVec 256)
  own    : Option Nat := none
  rekey  : List LinkDir := []
  /-- its items' credit is owed to the partner: it came over the present link (R301) -/
  owes   : Bool := true
deriving DecidableEq, Repr

/-- A piece of a remote source's data that is still to be written locally (R312): its request's number, address, bytes. -/
structure LandPiece where
  serial : Nat
  addr   : Nat
  bytes  : List Nat
  poison : Bool
deriving DecidableEq, Repr

/-- The Governor's own copies (R240): a Skein's relocation across stacks, spill or restore, a MIRROR model's repair. -/
inductive GovCopy where
  | relocate (h : Nat)
  | spill (h : Nat)
  | restore (h : Nat)
  | mirror (m : Nat)
deriving DecidableEq, Repr

structure WEngine where
  desc  : Option WDesc := none
  /-- the Governor's copy that it makes instead (R240) -/
  gov   : Option GovCopy := none
  /-- tick in which its wait began (R253) -/
  wait  : Option Nat := none
  /-- performed as a move (R252) -/
  move  : Bool := false
  /-- issued in descending order (R254) -/
  down  : Bool := false
  /-- positions whose source has been read, and whose destination has been written -/
  rpos  : Nat := 0
  pos   : Nat := 0
  /-- GATHER, SCATTER: the list entry of the block in hand -/
  entry : Option (BitVec 64) := none
  got   : List SrcUnit := []
  committed : Nat := 0
  /-- why it has stopped issuing: code and refused address -/
  stop  : Option (Nat × Nat) := none
  /-- a poisoned line was taken; true: the first such line came from an UNSEALED row -/
  poison : Option Bool := none
  /-- remote requests issued, and the earliest of them that failed: number, code, address (R314) -/
  issued : Nat := 0
  failed : Option (Nat × Nat × Nat) := none
  /-- its context is being torn down: it completes once its remote requests have resolved (R239) -/
  torn  : Bool := false
  /-- data that have arrived and are still to be written (R312) -/
  land  : List LandPiece := []
  /-- requests to the device itself, not yet answered (R288) -/
  loop  : List TxPkt := []
  /-- the line of an access that has been issued and waits, and where it lies (R111): an access of its own, and a write of data
  that have arrived -/
  at_   : Option (Nat × Loc) := none
  landAt : Option (Nat × Loc) := none
  /-- the Thread path has given the list entry's read its turn (R124) -/
  turn  : Bool := false
  /-- context last served (R240) -/
  last  : Nat := 0
deriving DecidableEq, Repr

structure WinderSt where
  queue   : List WDesc := []
  engines : Sparse WEngine := []
deriving DecidableEq, Repr

/-! ### The Twine fabric (11) -/

inductive PortSt where
  | disabled | train | align | auth | param | up | stalled | down
deriving DecidableEq, Repr

/-- A remote request (R312, R313). -/
structure RemReq where
  tag   : Nat
  /-- engine -/
  eng   : Nat
  serial : Nat
  node  : Nat
  write : Bool
  addr  : Nat
  len   : Nat
  port  : Option Nat
  /-- it has left the egress FIFO -/
  sent  : Bool := false
  at_   : Nat
  /-- READ: local destination, offset in the run, bytes; none: the data are the source of a block that is read whole (R249) -/
  into  : List (Nat × Nat × Nat) := []
  ctx   : Nat := 0
  /-- WRITE: data bytes, for the count of bytes committed -/
  bytes : Nat := 0
deriving DecidableEq, Repr

/-- Per-class counts: LNK, RSP, REQ. -/
structure Credits where
  lnk : Nat := 0
  rsp : Nat := 0
  req : Nat := 0
deriving DecidableEq, Repr

structure TPort where
  st    : PortSt := .disabled
  /-- tick of entry into the state -/
  since : Nat := 0
  /-- consecutive passes through DOWN without reaching UP -/
  passes : Nat := 0
  /-- retries spent: DOWN until ENABLE is written again -/
  spent : Bool := false
  /-- recorded partner: NODE, EPOCH, switch sled -/
  partner : Option (Nat × Nat × Bool) := none
  txKey : Bool := false
  rxKey : Bool := false
  /-- keys installed so far, per direction -/
  txGen : Nat := 0
  rxGen : Nat := 0
  txSeq : Nat := 0
  rxSeq : Nat := 0
  /-- KEY_UPDATEs under way, by direction, in the order started (R297) -/
  updates : List LinkDir := []
  lnk   : List TxPkt := []
  /-- LINK packets that the egress FIFO has no room for yet (R300) -/
  lnkWait : List TxPkt := []
  rsp   : List TxPkt := []
  req   : List TxPkt := []
  /-- verified requests received and not yet acted on -/
  inReq : List TxPkt := []
  credit : Credits := {}
  owed  : Credits := {}
  /-- tick since which a class head has waited for credit: class code, tick -/
  heads : Sparse Nat := []
  pauseOut : Bool := false
  /-- SPDM messages received and handed to the Distaff -/
  spdmIn : List (List (BitVec 256)) := []
  /-- SPDM messages queued for sending since the session began -/
  spdmOut : Nat := 0
  /-- cached translations, the oldest first: page and entry (R308) -/
  cache : List (Nat × BitVec 128) := []
deriving DecidableEq, Repr

/-- The request in hand at a port, or of an engine to the device itself (R307 to R310): what of its translation has been read, the
entry or that it read poisoned, the local address, the lines left, and what they brought. -/
structure Taken where
  walk   : List Nat := []
  /-- the Thread path has given the walk's next read its turn (R124) -/
  turn   : Bool := false
  bad    : Bool := false
  entry  : Option (BitVec 128) := none
  addr   : Nat := 0
  left   : Option (List (Nat × Loc)) := none
  got    : List Nat := []
  poison : Nat := 0
deriving DecidableEq, Repr

/-- An entry of the peer table (R320). -/
structure Peer where
  epoch : Nat := 0
  dead  : Bool := false
deriving DecidableEq, Repr

structure TwineSt where
  ports : Sparse TPort := []
  peers : Sparse Peer := []
  /-- route table: PRIMARY + 16 × ALTERNATE -/
  routes : Sparse Nat := []
  reqs  : List RemReq := []
  /-- timed-out tags: tag and tick at which it is free -/
  late  : List (Nat × Nat) := []
  nextTag : Nat := 0
  /-- items sent: port and packet -/
  sent  : List (Nat × Packet) := []
  /-- requests being served, keyed port, or 8 + engine -/
  taken : Sparse Taken := []
deriving DecidableEq, Repr

/-! ### Root of trust (15) -/

structure SpdmSession where
  id    : BitVec 32
  peer  : SpdmPeer
  /-- FINISH has completed the establishment -/
  ready : Bool := false
  /-- KEY_UPDATEs made -/
  updates : Nat := 0
  /-- the draw that made its ephemeral key: its keys are Config.sessionKeys of it and of the updates (R422) -/
  secret : Nat := 0
deriving DecidableEq, Repr

/-- A PCIe IDE stream: Secure or Insecure, and the keys set: two sets for each sub-stream and direction (R436). -/
structure IdeStream where
  secure : Bool := false
  keys   : List (IdeKeySlot × BitVec 256) := []
deriving DecidableEq, Repr

/-- States of a firmware update (R431). -/
inductive FwSt where
  | idle | busy | done | failed
deriving DecidableEq, Repr

/-- Instructions of the TAP (R437). -/
inductive TapIr where
  | bypass | idcode | sample | extest | clamp | highz
deriving DecidableEq, Repr

structure Trust where
  /-- manufacturing record (Table 15.2) -/
  record : FlashSlot := {}
  /-- PUF root secret and identity key, while the Distaff holds them (Table 15.1) -/
  root  : Option (BitVec 256) := none
  identityKey : Option (BitVec 3072) := none
  slotA : FlashSlot := {}
  slotB : FlashSlot := {}
  /-- the image that runs -/
  image : BitVec 16384 := 0
  slot  : Bool := false
  fallback : Bool := false
  fw    : FwSt := .idle
  reason : Nat := 0
  /-- SEC_FWUP_NEXTSEQ while an update is BUSY -/
  nextSeq : Nat := 0
  /-- STAGE has been written and the image not yet read -/
  asked : Bool := false
  /-- the image checked and being written into the slot not booted -/
  staged : Option FlashSlot := none
  sessions : List SpdmSession := []
  nextSession : Nat := 0
  /-- values drawn from the generator, and signatures made -/
  drbg  : Nat := 0
  /-- SPDM connection of a requester: 1 version, 2 capabilities, 3 algorithms agreed; keyed context, or 64 + port -/
  conn  : Sparse Nat := []
  ide   : Sparse IdeStream := []
  nonce : Option (BitVec 256 × Nat) := none
  fails : Nat := 0
  tap   : TapIr := .idcode
  /-- boundary-scan register -/
  boundary : BitVec 64 := 0
  /-- the Busko is halted by DBG_ACCESS -/
  halted : Bool := false
deriving DecidableEq, Repr

end Sys2Proof.Machine
end

