-- ==== Sys2Proof/Machine/State.lean ====
section
/-!
DEFINITION. The state of the block, its reasons to stop, and its state after reset. Every piece of state is listed in
INVENTORY.md with the rule that names it. Indexed state is kept in sparse tables in one canonical form.
-/

namespace Sys2Proof.Machine

/-- Reasons a command stops the model. The spec gives every misuse of this part an outcome (00_scope.md), so no
command of this model raises one; the constructor keeps the type inhabited. -/
inductive Fault where
  /-- Raised by no command. Safe: a stop allows no behaviour. -/
  | unreachable
deriving DecidableEq, Repr

/-- Reasons a command has no meaning in the model. -/
inductive Refusal where
  /-- An arm of `exec` that has no meaning yet. Safe: the model stops. -/
  | notModelled (mnemonic : String)
deriving DecidableEq, Repr

structure State where
  /-- commands waiting, first in, first out -/
  pending : List Instr := []
  /-- the tick counter (R392) -/
  tick    : Nat := 0
  /-- registers with no other home, keyed by BAR0 offset -/
  regs    : Sparse Word := []
  mem     : Mem := {}
  cores   : Sparse CoreSt := []
  phys    : Sparse Phys := []
  spads   : Spads := {}
  /-- tally counters 0 to 4,095, and step-bank counters at 4,096 + 256 × bank + index -/
  tally   : Sparse (BitVec 48) := []
  /-- counter banks in use -/
  banks   : NatSet := []
  spindles : Sparse Spindle := []
  rowLogic : Sparse StackRow := []
  skeins  : Skeins := {}
  serve   : Serve := {}
  ctxs    : Sparse Ctxs := []
  txn     : Txn := {}
  rel     : Rel := {}
  pwr     : Power := {}
  winder  : WinderSt := {}
  twine   : TwineSt := {}
  trust   : Trust := {}
  /-- what the device has sent to the host, oldest first -/
  toHost  : List HostMsg := []
  /-- the answer to the last request from outside -/
  reply   : Reply := .none
  /-- the model's own counter of free values drawn -/
  drawn   : Nat := 0
deriving DecidableEq, Repr

/-- The machine right after a power-on reset: every register at its Reset column (R442), every table empty, and the
start-up sequence not yet run. -/
def State.reset : State := {}

end Sys2Proof.Machine
end

