-- ==== Sys2Proof/Machine/Ops.lean ====
section
/-!
DEFINITION. The named operations over the state that every family uses: registers and their fields, contexts, records
posted to the host (R338 to R343, R348), the error log (R372 to R374), tally counters (R271), and when the device serves.
-/

namespace Sys2Proof.Machine

abbrev Result := Host.Outcome State Fault Refusal

/-- The state that a meaning answers. -/
def nextOr (r : Result) (s : State) : State :=
  match r with
  | .next t => t
  | _ => s

def noRowLogic (_ : Nat) : StackRow := {}

/-! ### Registers -/

def State.reg (s : State) (off : Nat) : Word := sget regReset s.regs off

def State.setReg (s : State) (off : Nat) (v : Word) : State := { s with regs := sset regReset s.regs off v }

/-- Bits hi:lo of a register. -/
def State.fld (s : State) (off hi lo : Nat) : Nat := bitsAt (s.reg off).toNat hi lo

def State.setFld (s : State) (off hi lo x : Nat) : State :=
  s.setReg off (BitVec.ofNat 32 (putBits (s.reg off).toNat hi lo x))

/-- Add to a 32-bit count that wraps. -/
def State.bumpReg (s : State) (off n : Nat) : State := s.setReg off (s.reg off + BitVec.ofNat 32 n)

def State.cfld (s : State) (c x hi lo : Nat) : Nat := s.fld (Reg.ctx c x) hi lo

/-- A 64-bit quantity in a _LO, _HI pair. -/
def State.pair (s : State) (lo hi : Nat) : Nat := (s.reg lo).toNat + 2 ^ 32 * (s.reg hi).toNat

/-- Tick bits 31:0. -/
def State.tick32 (s : State) : Nat := s.tick % 2 ^ 32

/-- The SCLK that a stack has reached: that of the latest event which named one, and at least the tick's first (R157). -/
def State.sclkNow (s : State) (k : Nat) : Nat := max (750 * s.tick) (sget noRowLogic s.rowLogic k).now

/-- The next free value. -/
def State.draw (s : State) : Nat × State := (Config.choice s.drawn, { s with drawn := s.drawn + 1 })

/-! ### Components -/

def noCtx (_ : Nat) : Ctxs := {}
def noCore (_ : Nat) : CoreSt := {}
def noPhys (_ : Nat) : Phys := {}
def noSpindle (_ : Nat) : Spindle := {}
def noTally (_ : Nat) : BitVec 48 := 0
def noInput (_ : Nat) : InputSt := {}

def State.ctx (s : State) (c : Nat) : Ctxs := sget noCtx s.ctxs c
def State.setCtx (s : State) (c : Nat) (x : Ctxs) : State := { s with ctxs := sset noCtx s.ctxs c x }
def State.modCtx (s : State) (c : Nat) (f : Ctxs → Ctxs) : State := s.setCtx c (f (s.ctx c))

def State.core (s : State) (c : Nat) : CoreSt := sget noCore s.cores c
def State.setCore (s : State) (c : Nat) (x : CoreSt) : State := { s with cores := sset noCore s.cores c x }
def State.modCore (s : State) (c : Nat) (f : CoreSt → CoreSt) : State := s.setCore c (f (s.core c))

def State.stream (s : State) (c : Nat) : Option Stream := (s.core c).stream
def State.setStream (s : State) (c : Nat) (x : Option Stream) : State := s.modCore c (fun k => { k with stream := x })

def State.physOf (s : State) (p : Nat) : Phys := sget noPhys s.phys p
def State.setPhys (s : State) (p : Nat) (x : Phys) : State := { s with phys := sset noPhys s.phys p x }

def State.spindle (s : State) (n : Nat) : Spindle := sget noSpindle s.spindles n
def State.setSpindle (s : State) (n : Nat) (x : Spindle) : State := { s with spindles := sset noSpindle s.spindles n x }

def State.rowOf (s : State) (k : Nat) : StackRow := sget noRowLogic s.rowLogic k
def State.setRow (s : State) (k : Nat) (x : StackRow) : State := { s with rowLogic := sset noRowLogic s.rowLogic k x }

/-! ### When the device serves -/

/-- Rails, AON clock and PERST# let the device run, and its switched domains are not all off (R409, R416). -/
def State.powered (s : State) : Bool :=
  s.pwr.railsOk && s.pwr.aonOk && !s.pwr.perst && !s.pwr.critical && !(s.pwr.state == .p3)

/-- P0 or P1, in which every domain that is not dead can be on (Table 14.6). -/
def State.awake (s : State) : Bool := s.pwr.state == .p0 || s.pwr.state == .p1

/-- A power domain is on (R402 to R404, R416). -/
def State.domainOn (s : State) (d : Domain) : Bool :=
  s.powered && match d with
    | .core p => s.awake && !s.pwr.hotOff && !(s.physOf p).dead
    | .winder _ => s.awake && !s.pwr.hotOff
    | .twine _ => s.awake && !s.pwr.hotOff
    | .spindles k => s.awake && !s.pwr.hotOff && !s.pwr.tripped.getLsbD k
    | .stack k => s.awake && !s.pwr.tripped.getLsbD k
    | .ssb _ => s.awake
    | .network _ => s.awake
    | .pcie => true
    | .tally => true
    | .busko => true
    | .distaff => true

/-- READY, not in SAFE mode, and in P0 or P1. -/
def State.serving (s : State) : Bool :=
  s.powered && s.pwr.ready && s.pwr.safe.isNone && s.awake

/-- A command that needs the device in service; otherwise it has no effect. -/
def State.whenServing (s : State) (f : State → State) : State := if s.serving then f s else s

/-- THERM_ALERT_IN#, filtered and masked, is taken as asserted (R415). -/
def State.thermAlert (s : State) : Bool :=
  let i := sget noInput s.pwr.inputs 1
  i.level || i.maskTo.isSome

/-- The Mill-die throttle of R414. -/
def State.millThrottled (s : State) : Bool := s.pwr.millHot || s.thermAlert

/-! ### Tally counters -/

/-- The counter a number names for an agent with step bank `bank` (R274). -/
def State.tcKey (s : State) (c : Nat) (bank : Option Nat) (tc : Nat) : Nat :=
  match bank with
  | none => tc
  | some b =>
    let base := s.cfld c Reg.tcRangeLo 11 0
    if base ≤ tc ∧ tc < base + s.cfld c Reg.tcRangeHi 8 0 then 4096 + 256 * b + (tc - base) else tc

def State.tcVal (s : State) (key : Nat) : BitVec 48 := sget noTally s.tally key

/-- An increment (R271): indivisible, modulo 2^48. -/
def State.tcAdd (s : State) (key amount : Nat) : State :=
  { s with tally := sset noTally s.tally key (s.tcVal key + BitVec.ofNat 48 amount) }

/-- A stream leaves its core. Signals that its retired words still owe are made later (R83, R87). -/
def State.closeStream (s : State) (c : Nat) (t : Stream) : State :=
  s.modCore c (fun k => { k with
    stream := none
    late := k.late ++ t.sigs.map (fun g => ⟨t.ctx, s.tcKey t.ctx t.bank g.tc, g.inc, g.mark⟩) })

/-- Is a counter in the context's range (R85, R346)? -/
def State.tcInRange (s : State) (c tc : Nat) : Bool :=
  let base := s.cfld c Reg.tcRangeLo 11 0
  decide (base ≤ tc ∧ tc < base + s.cfld c Reg.tcRangeLo 28 16)

/-- Satisfied (R82, R253): (value − target) mod 2^48 is below 2^47. -/
def tcReached (value target : BitVec 48) : Bool := decide ((value - target).toNat < 2 ^ 47)

/-! ### Records -/

/-- Fields (lowest bit, width, value) of a structure put together. -/
def packFields : List (Nat × Nat × Nat) → Nat
  | [] => 0
  | (lo, w, v) :: fs => v % 2 ^ w * 2 ^ lo + packFields fs

def Completion.pack (c : Completion) (phase : Bool) : BitVec 256 :=
  BitVec.ofNat 256 (packFields [(0, 8, c.ckind), (8, 8, c.rkind), (16, 8, c.status), (24, 8, c.erroff),
    (32, 32, c.tag.toNat), (64, 32, c.aux.toNat), (96, 10, c.slot), (106, 1, if c.refused then 1 else 0),
    (128, 64, c.count), (192, 42, c.addr), (234, 8, c.core), (255, 1, if phase then 1 else 0)])

def Event.pack (e : Event) (phase : Bool) : BitVec 256 :=
  BitVec.ofNat 256 (packFields [(0, 8, e.ekind), (8, 8, e.status), (16, 6, e.ctx), (24, 8, e.cause),
    (32, 32, e.tag.toNat), (64, 32, e.aux.toNat), (96, 32, e.tick), (128, 64, e.info), (192, 8, e.core),
    (255, 1, if phase then 1 else 0)])

def CtxSt.code : CtxSt → Nat
  | .off => 0
  | .idle => 1
  | .running => 2
  | .stopping => 3
  | .faulted => 4

def State.send (s : State) (m : HostMsg) : State := { s with toHost := s.toHost ++ [m] }

def State.sqSize (s : State) (c : Nat) : Nat := 2 ^ s.cfld c Reg.sqSize 4 0
def State.cqSize (s : State) (c : Nat) : Nat := 2 ^ s.cfld c Reg.cqSize 4 0
def State.eqSize (s : State) (c : Nat) : Nat := 2 ^ s.cfld c Reg.eqSize 4 0

def Post.isTally : Post → Bool
  | .tally _ _ _ => true
  | _ => false

/-- A thermal trip of this tick, or of the tick that has just ended, is about to enter SAFE mode (R396). -/
def State.tripping (s : State) : Bool := s.rel.asked.contains (.safe 1) || s.rel.boundary.contains (.safe 1)

/-- The function can make requests, and the device is not in SAFE mode (R323, R386). -/
def State.canSend (s : State) (c : Nat) : Bool := (s.ctx c).busMaster && s.pwr.safe.isNone && s.powered

/-- Records, events and interrupts of a context are written while its function can make requests and its rings run, and
neither in SAFE mode nor in the tick of a thermal trip (R323, R329, R386, R396). -/
def State.canPost (s : State) (c : Nat) : Bool :=
  let x := s.ctx c
  s.canSend c && !s.tripping &&
    (x.st == .running || x.st == .stopping || x.st == .faulted || x.posts.any (fun w => !w.post.isTally))

/-- Address of slot i of a ring whose base registers lie at page offset `lo` (R332). -/
def State.ringAddr (s : State) (c lo size i width : Nat) : BitVec 64 :=
  BitVec.ofNat 64 (s.pair (Reg.ctx c lo) (Reg.ctx c (lo + 4)) + i % size * width)

/-- PHASE of slot i: 1 on the first pass, then alternately (R339). -/
def phaseOf (i size : Nat) : Bool := i / size % 2 == 0

/-- The PCI Express default of the MSI-X table: vectors masked. -/
def noMsix (off : Nat) : Word := if off % 16 = 12 then 1 else 0

/-- An interrupt message; a masked vector is held pending, and none is sent in D3hot (R343, R412). -/
def State.msix (s : State) (c v : Nat) : State :=
  let x := s.ctx c
  if !x.busMaster || x.d3hot then s
  else if (sget noMsix x.msix (16 * v + 12)).getLsbD 0 then s.setCtx c { x with pba := nsAdd x.pba v }
  else s.send (.msix c v)

def State.markDirty (s : State) (c : Nat) : State := s.modCtx c (fun x => { x with dirty := true })

/-- An event record in the next slot of the ring, with its interrupt. -/
def State.putEvent (s : State) (c : Nat) (e : Event) : State :=
  let i := (s.ctx c).eqTail.toNat
  let s := s.send (.record c (s.ringAddr c Reg.eqBaseLo (s.eqSize c) i 32) (e.pack (phaseOf i (s.eqSize c))))
  (s.modCtx c (fun x => { x with eqTail := x.eqTail + 1, dirty := true })).msix c 1

def State.eqFree (s : State) (c : Nat) : Nat := s.eqSize c - ((s.ctx c).eqTail - (s.ctx c).eqHead).toNat

/-- EQ_FULL goes into the last free slot as soon as one is left (R341). -/
def State.eqFull (s : State) (c : Nat) : State :=
  if s.eqFree c = 1 then s.putEvent c { ekind := 0x0F, ctx := c, tick := s.tick32 } else s

/-- Write one event record, and EQ_FULL behind it in the last free slot; an event that finds at most that slot is discarded and
counted (R340, R341). -/
def State.writeEvent (s : State) (c : Nat) (e : Event) : State :=
  if !s.canPost c then s
  else if s.eqFree c ≤ 1 then (s.eqFull c).modCtx c (fun x => { x with eqLost := x.eqLost + 1, dirty := true })
  else (s.putEvent c e).eqFull c

/-- The completion interrupt (R343): at COUNT unsignalled records, or at once with DELAY 0. -/
def State.signalCompletion (s : State) (c : Nat) : State :=
  let x := s.ctx c
  let n := x.unsignalled + 1
  if s.cfld c Reg.irq 10 0 ≤ n ∨ s.cfld c Reg.irq 25 16 = 0 then
    (s.setCtx c { x with unsignalled := 0 }).msix c 0
  else s.setCtx c { x with unsignalled := n, firstUnsig := if x.unsignalled = 0 then s.tick else x.firstUnsig }

/-- A completion record in the next slot of the ring. -/
def State.putCompletion (s : State) (c : Nat) (r : Completion) : State :=
  let i := (s.ctx c).cqTail.toNat
  let s := s.send (.record c (s.ringAddr c Reg.cqBaseLo (s.cqSize c) i 32) (r.pack (phaseOf i (s.cqSize c))))
  s.modCtx c (fun x => { x with cqTail := x.cqTail + 1, dirty := true })

def State.writeCompletion (s : State) (c : Nat) (r : Completion) : State :=
  if !s.canPost c then s else (s.putCompletion c r).signalCompletion c

/-- The completion, then the event, then the completion's interrupt (R348). -/
def State.postBoth (s : State) (c : Nat) (r : Completion) (e : Event) : State :=
  if !s.canPost c then s else ((s.putCompletion c r).writeEvent c e).signalCompletion c

/-- Free completion slots that no reservation holds (R338). -/
def State.cqFree (s : State) (c : Nat) : Int :=
  (s.cqSize c : Int) - ((s.ctx c).cqTail - (s.ctx c).cqHead).toNat - (s.ctx c).reserved

/-- Carry out one post. -/
def State.writePost (s : State) (c : Nat) (p : Post) : State :=
  match p with
  | .final r => (s.writeCompletion c r).modCtx c (fun x => { x with reserved := x.reserved - 1 })
  | .both r e => (s.postBoth c r e).modCtx c (fun x => { x with reserved := x.reserved - 1 })
  | .step r =>
    if s.cqFree c ≤ 0 then s.modCtx c (fun x => { x with stepLost := x.stepLost + 1, dirty := true })
    else s.writeCompletion c r
  | .event e => s.writeEvent c e
  | .tally tc bank n => s.tcAdd (s.tcKey c bank tc) n

/-- Posts at the front of the queue whose writes have been flushed. -/
def State.drainPosts (s : State) (c : Nat) : List Waiting → State
  | [] => s.modCtx c (fun x => { x with posts := [] })
  | w :: ws =>
    if w.need ≤ (s.ctx c).flushed then (s.writePost c w.post).drainPosts c ws
    else s.modCtx c (fun x => { x with posts := w :: ws })

/-- The ring status block (Table 12.12), written as one 64-B write (R342). -/
def State.writeRsb (s : State) (c : Nat) : State :=
  let x := s.ctx c
  let addr := s.pair (Reg.ctx c Reg.rsbLo) (Reg.ctx c Reg.rsbHi)
  let s1 := s.setCtx c { x with dirty := false }
  if !x.busMaster || s.pwr.safe.isSome || !s.powered || addr = 0 then s1
  else s1.send (.ringStatus c (BitVec.ofNat 64 addr) (BitVec.ofNat 512 (packFields [(0, 32, x.sqHead.toNat),
    (32, 32, x.cqTail.toNat), (64, 32, x.eqTail.toNat), (96, 32, x.eqLost.toNat), (128, 32, x.stepLost.toNat),
    (160, 8, x.st.code), (192, 32, x.parked.toNat), (224, 32, x.preempted.toNat), (256, 32, x.demoted.toNat),
    (288, 32, x.bar4Refused.toNat), (320, 32, x.dbRefused.toNat), (352, 32, x.hostErrors.toNat)])))

/-- A change of context state, with its ring status block. -/
def State.enter (s : State) (c : Nat) (st : CtxSt) : State :=
  (s.modCtx c (fun x => { x with st := st })).writeRsb c

/-- Every ring index and count at 0, every reservation clear (R329); increments still owed are kept (R272). -/
def Ctxs.fresh (x : Ctxs) : Ctxs :=
  { st := x.st, busMaster := x.busMaster, noSnoop := x.noSnoop, relaxed := x.relaxed, d3hot := x.d3hot
    writes := x.writes, flushed := x.flushed, flushes := x.flushes, msix := x.msix, pba := x.pba, bells := x.bells
    posts := x.posts.filter (fun w => w.post.isTally) }

/-- Registers of context c's BAR2 page at their reset values. -/
def State.clearPage (s : State) (c : Nat) : State :=
  { s with regs := s.regs.filter (fun e => !decide (ctxBase c ≤ e.1 ∧ e.1 < ctxBase c + 0x1000)) }

def State.enabled (s : State) (c : Nat) : Bool := decide (s.cfld c Reg.ctxCtl 0 0 = 1)

/-- A context that holds no work is reset: IDLE, or OFF if not enabled (Table 12.6). -/
def State.freshPage (s : State) (c : Nat) : State :=
  let st : CtxSt := if s.enabled c then .idle else .off
  (s.clearPage c).modCtx c (fun x => { x.fresh with st := st })

/-- A flush read that covers the context's host-window writes up to number `need`, unless one is under way, or the function can
make no request (R265, R323). -/
def State.askFlush (s : State) (c need : Nat) : State :=
  let x := s.ctx c
  if !x.busMaster || decide (need ≤ x.flushed) || x.flushes.any (fun m => decide (need ≤ m)) then s
  else
    (s.modCtx c (fun x => { x with flushes := x.flushes ++ [x.writes] })).send
      (.flushRead c (BitVec.ofNat 64 (s.pair (Reg.ctx c Reg.rsbLo) (Reg.ctx c Reg.rsbHi))))

/-- The context is torn down with nothing posted to its function (R323, R331). -/
def State.muted (s : State) (c : Nat) : Bool := (s.ctx c).closing.any (fun k => k.mute)

/-- What a post comes to for a function that is told nothing: a reservation ends, an increment is made (R272). -/
def State.mutePost (s : State) (c : Nat) (p : Post) : State :=
  match p with
  | .final _ => s.modCtx c (fun x => { x with reserved := x.reserved - 1 })
  | .both _ _ => s.modCtx c (fun x => { x with reserved := x.reserved - 1 })
  | .tally tc bank n => s.tcAdd (s.tcKey c bank tc) n
  | .step _ => s
  | .event _ => s

/-- A record or increment is written, or waits behind what the context's order puts before it: earlier posts, and a flush read
where host-window writes precede it (R348, R265). -/
def State.give (s : State) (c : Nat) (p : Post) : State :=
  let x := s.ctx c
  let need := match p with
    | .event _ => 0
    | _ => x.writes
  if s.muted c then s.mutePost c p
  else if x.posts = [] ∧ need ≤ x.flushed then s.writePost c p
  else (s.setCtx c { x with posts := x.posts ++ [⟨p, need⟩] }).askFlush c need

/-- The event of a teardown (Table 12.11). -/
def State.tornEvent (s : State) (c : Nat) (k : Closing) : Event :=
  { ekind := 0x01, status := 0x09, ctx := c, cause := k.cause, tag := k.tag, info := k.info, core := k.core, tick := s.tick32 }

/-- A teardown whose records have all been written comes to its end: the event on context 0's ring, FAULTED, and what follows
(R330, steps 7 and 8). -/
def State.closed (s : State) (c : Nat) : State :=
  match (s.ctx c).closing with
  | none => s
  | some k =>
    if ¬ k.told ∨ (¬ (s.ctx c).posts = [] ∧ ¬ k.mute) then s
    else
      let s := s.modCtx c (fun x => { x with closing := none, reserved := 0 })
      let s := if ¬ k.tears then s
        else
          let s := if c = 0 then s else s.give 0 (.event (s.tornEvent c k))
          if k.mute then s.modCtx c (fun x => { x with st := .faulted }) else s.enter c .faulted
      if k.next = 1 then s.freshPage c else if k.next = 2 then s.enter c .off else s

/-- After records have been written: a BARRIER whose turn has come, and the end of STOPPING (R337, Table 12.5); in a teardown
only its own end. -/
def State.settle (s : State) (c : Nat) : State :=
  if (s.ctx c).closing.isSome then s.closed c
  else
    let s :=
      match (s.ctx c).barrier with
      | some tag =>
        if (s.ctx c).reserved = 1 then
          (s.writePost c (.final { rkind := 0x01, tag := tag })).modCtx c (fun x => { x with barrier := none })
        else s
      | none => s
    if (s.ctx c).st = .stopping ∧ (s.ctx c).reserved = 0 ∧ (s.ctx c).posts = [] then s.enter c .idle else s

/-- Post a record or increment in the context's order (R348). -/
def State.post (s : State) (c : Nat) (p : Post) : State :=
  let written : Bool := !s.muted c && (s.ctx c).posts.isEmpty
  let s := s.give c p
  if written && (s.ctx c).posts.isEmpty then s.settle c else s

def State.final (s : State) (c : Nat) (r : Completion) : State := s.post c (.final r)

def State.event (s : State) (c : Nat) (e : Event) : State := s.post c (.event { e with tick := s.tick32 })

/-- The count of HOST_ERRORS and the event that reports a failed request at a host bus address (R348, R351). -/
def State.countError (s : State) (c : Nat) : State :=
  s.modCtx c (fun x => { x with hostErrors := x.hostErrors + 1, dirty := true })
def errorEvent (c : Nat) (bus : BitVec 64) (tag : Word) : Event :=
  { ekind := 0x07, status := 0x03, ctx := c, tag := tag, info := bus.toNat }

/-- HOST_ERROR; `tag`: of the record concerned (Table 12.10). -/
def State.hostError (s : State) (c : Nat) (bus : BitVec 64) (tag : Word := 0) : State :=
  (s.countError c).event c (errorEvent c bus tag)

/-- Numbers for the requesters of R351. -/
def coreKey (core : Nat) : Nat := core
def engineKey (e : Nat) : Nat := 256 + e

/-- The data of a failed read are delivered: HOST_ERROR is posted once for the request, when its failure was first met
(notes/assumptions/187.md). -/
def State.readFailed (s : State) (c who : Nat) (tag : Word) (bus : Nat) : State :=
  if (s.ctx c).hostFails.contains who then s.modCtx c (fun x => { x with hostFails := x.hostFails.erase who })
  else s.hostError c (BitVec.ofNat 64 bus) tag

/-- A read request to the host (R118, R350): for host-window data with No Snoop. -/
def State.hostRead (s : State) (c addr len : Nat) (window : Bool) : State :=
  let x := s.ctx c
  if !x.busMaster || !s.powered then s
  else s.send (.read c (BitVec.ofNat 64 addr) len (window && x.noSnoop))

/-- A host-window data write (R118, R265, R349) at a host bus address. -/
def State.hostWrite (s : State) (c addr : Nat) (data : List Byte) (poison : Bool) : State :=
  let x := s.ctx c
  if !x.busMaster || !s.powered then s
  else
    (s.setCtx c { x with writes := x.writes + 1 }).send
      (.write c (BitVec.ofNat 64 addr) data poison x.noSnoop x.relaxed)

/-- Records of the submission ring are read in ring order, up to 32 ahead of acceptance (R332, R334): the requests are snooped and
carry no attribute. -/
def State.readAhead (s : State) (c : Nat) : State :=
  let x := s.ctx c
  let n := min ((x.sqTail - x.sqHead).toNat) 32 - (x.sqRead - x.sqHead).toNat
  (List.range n).foldl (fun s i =>
    s.hostRead c (s.ringAddr c Reg.sqBaseLo (s.sqSize c) ((x.sqRead.toNat + i) % 2 ^ 32) 256).toNat 256 false)
    (s.setCtx c { x with sqRead := x.sqRead + BitVec.ofNat 32 n })

/-- Host bus address of a host-window offset. -/
def State.winAddr (s : State) (c off : Nat) : Nat :=
  s.pair (Reg.ctx c Reg.hostWinLo) (Reg.ctx c Reg.hostWinHi) + off

/-- While SEC_IDE.REQUIRE is 1, memory requests are served only in a Secure IDE stream (R436). -/
def State.ideAdmits (s : State) : Bool :=
  !(s.reg Reg.secIde).getLsbD 0 || s.trust.ide.any (fun e => e.2.secure)

/-- A request from outside is a wake event of P1 (R405). -/
def State.touch (s : State) : State :=
  if s.pwr.state = .p1 ∧ s.pwr.wakeAt.isNone then { s with pwr := { s.pwr with wakeAt := some s.tick } } else s

def PwrState.code : PwrState → Nat
  | .p0 => 0
  | .p1 => 1
  | .p2 => 2
  | .p3 => 3

/-- Write the last-wake record (R410). -/
def State.recordWake (s : State) (src : Nat) : State :=
  (s.setReg Reg.pwrLastWake0 (BitVec.ofNat 32 (src + 16 * s.pwr.state.code))).setReg Reg.pwrLastWake1
    (BitVec.ofNat 32 s.tick32)

/-- A wake is accepted: recorded in P2 and P3, and in a drain kept for the next boundary. -/
def State.wakeFrom (s : State) (src : Nat) : State :=
  if s.pwr.wakeSrc.isSome then s
  else
    let s : State := { s with pwr := { s.pwr with wakeSrc := some src } }
    if s.pwr.state = .p2 ∨ s.pwr.state = .p3 then s.recordWake src else s

/-- A submission or treadle doorbell wakes the device from P2, or from its drain, where PWR_WAKE_EN.DOORBELL says so. -/
def State.doorbellWake (s : State) (cmd : Instr) : State :=
  let kind : Bool := match cmd with
    | .ctxDbSq _ _ => true
    | .ctxDbTq _ _ _ => true
    | _ => false
  if kind ∧ s.fld Reg.pwrWakeEn 2 2 = 1 ∧ (s.pwr.state = .p2 ∨ (s.pwr.drain ∧ s.fld Reg.pwrCtl 1 0 = 2)) then s.wakeFrom 2 else s

/-- A BAR4 write that the context's function sent before request `mark` has not passed its CHIP point (R277). -/
def State.bar4Before (s : State) (c mark : Nat) : Bool :=
  s.mem.bar4s.any (fun q => decide (q.ctx = c ∧ q.id < mark) && q.data.isSome)

/-- What a doorbell does in a context's state: nothing outside RUNNING, STOPPING and, a tally doorbell, IDLE. -/
def State.rung (s : State) (c : Nat) (idleToo : Bool) (f : State → State) : State :=
  let st := (s.ctx c).st
  if (s.ctx c).closing.isNone ∧ (st = .running ∨ st = .stopping ∨ (idleToo ∧ st = .idle)) then f s else s

/-- A doorbell of a context (R277, R345, R386, R405, R408, R412): processed while the context is RUNNING or STOPPING and not being
torn down (a tally doorbell in IDLE too), held in P2, behind earlier BAR4 writes and doorbells of the function that wait,
otherwise discarded. -/
def State.doorbell (s : State) (c : Nat) (cmd : Instr) (idleToo : Bool) (f : State → State) : State :=
  if !s.powered || !s.pwr.ready || s.pwr.safe.isSome || (s.ctx c).d3hot || !s.ideAdmits then s
  else if s.pwr.state = .p2 then
    ({ s with pwr := { s.pwr with heldReq := s.pwr.heldReq ++ [(cmd, 0)] } }).doorbellWake cmd
  else
    let s := s.touch.doorbellWake cmd
    if !(s.ctx c).bells.isEmpty || s.bar4Before c s.mem.nextBar4 then
      s.modCtx c (fun x => { x with bells := x.bells ++ [(cmd, s.mem.nextBar4)] })
    else s.rung c idleToo f

/-- DOORBELL_REFUSED for the doorbell at a page offset (R346). -/
def State.refuseDoorbell (s : State) (c off : Nat) (v : Word) : State :=
  (s.modCtx c (fun x => { x with dbRefused := x.dbRefused + 1, dirty := true })).event c
    { ekind := 0x06, status := 0x03, ctx := c, aux := BitVec.ofNat 32 off, info := v.toNat }

/-! ### The error log -/

def LogEntry.pack (e : LogEntry) : BitVec 256 :=
  BitVec.ofNat 256 (packFields [(0, 8, e.typ), (8, 8, e.status), (16, 8, e.count), (24, 6, e.ctx.getD 0),
    (30, 1, if e.ctx.isSome then 1 else 0), (31, 1, if e.loc then 1 else 0), (32, 32, e.tick), (64, 42, e.addr),
    (112, 4, e.stack), (116, 4, e.die), (120, 6, e.bank), (128, 16, e.row), (144, 4, e.line),
    (152, 7, e.symbol), (160, 16, e.unit), (176, 8, e.source), (192, 64, e.info)])

def noLog (_ : Nat) : LogEntry := { typ := 0, symbol := 0, source := 0, count := 0 }

def State.logTail (s : State) : Word := s.reg Reg.eccLogTail

/-- Log one occurrence: coalesce with the most recent entry, count as lost when the log is full, or write a new entry and
post ERROR_LOGGED on context 0 (R372 to R374). -/
def State.log (s : State) (e : LogEntry) : State :=
  let e := { e with tick := s.tick32 }
  let slot := (s.rel.logHead - 1).toNat % 1024
  let last := sget noLog s.rel.log slot
  if s.rel.logHead ≠ 0 ∧ last.typ = e.typ ∧ last.source = e.source ∧ last.addr = e.addr ∧ last.unit = e.unit ∧
      (e.tick + 2 ^ 32 - last.tick) % 2 ^ 32 < 1000 then
    { s with rel := { s.rel with log := sset noLog s.rel.log slot { last with count := min 255 (last.count + 1) } } }
  else if (s.rel.logHead - s.logTail).toNat = 1024 then
    { s with rel := { s.rel with logLost := s.rel.logLost + 1 } }
  else
    let i := s.rel.logHead
    let s := { s with rel := { s.rel with log := sset noLog s.rel.log (i.toNat % 1024) e, logHead := i + 1 } }
    s.event 0 { ekind := 0x0C, status := e.status, aux := i }

/-- INVALID_REG (R5, R9): a function's write of `v` at an offset. -/
def State.logInvalid (s : State) (func off v : Nat) : State :=
  s.log { typ := 0x08, addr := off, unit := func, info := v }

/-- Ask for an effect at the next tick boundary. -/
def State.atBoundary (s : State) (b : Boundary) : State :=
  if s.rel.asked.contains b || s.rel.boundary.contains b then s
  else { s with rel := { s.rel with asked := s.rel.asked ++ [b] } }

def State.dropBoundary (s : State) (b : Boundary) : State :=
  { s with rel := { s.rel with boundary := s.rel.boundary.filter (fun x => decide (¬ x = b)) } }

end Sys2Proof.Machine
end

