-- ==== Sys2Proof/Machine/Memory.lean ====
section
/-!
DEFINITION. Stacked memory, scratchpads and their checks (spec/05_stack_memory.md, 03_mill_cores.md R44 to R46,
13_reliability.md R357 to R371): the address map, rows and lines, reading and writing a line on a path, the reserved
area's three copies, staging, the context's address map, and a scratchpad line.
-/

namespace Sys2Proof.Machine

def memTop : Nat := 0x8000000000
def regionOf (a : Nat) : Nat := a / 2 ^ 33

/-- Mode of region j: 0 GLOBAL, 1 NEAR, 2 SKEIN (R107, R110). -/
def State.rmode (s : State) (j : Nat) : Nat := s.fld (Reg.stkRmode (j / 16)) (2 * (j % 16) + 1) (2 * (j % 16))

/-- Table 5.4. -/
def decodeLoc (mode a : Nat) : Loc :=
  let j := regionOf a
  let bib := bitsAt a 11 10
  let mk (stack c g ris : Nat) : Loc :=
    ⟨stack, c / 2, 4 * (8 * (c % 2) + g) + bib, 1024 * j + ris, bitsAt a 9 6⟩
  if mode = 0 then mk (bitsAt a 14 12) (bitsAt a 19 15) (bitsAt a 22 20) (bitsAt a 32 23)
  else if mode = 1 then mk (bitsAt a 32 30) (bitsAt a 16 12) (bitsAt a 19 17) (bitsAt a 29 20)
  else
    ⟨bitsAt a 32 30, bitsAt a 29 26, 4 * bitsAt a 25 22 + bib,
      1024 * j + 32 * bitsAt a 21 17 + bitsAt a 16 12, bitsAt a 9 6⟩

/-- The address of a line, given where it lies: the inverse of Table 5.4. -/
def encodeLoc (mode : Nat) (l : Loc) : Nat :=
  let j := l.row / 1024
  let ris := l.row % 1024
  let bg := l.bank / 4
  let low := l.bank % 4 * 2 ^ 10 + l.line * 2 ^ 6
  let c := 2 * l.die + bg / 8
  let g := bg % 8
  if mode = 0 then j * 2 ^ 33 + ris * 2 ^ 23 + g * 2 ^ 20 + c * 2 ^ 15 + l.stack * 2 ^ 12 + low
  else if mode = 1 then j * 2 ^ 33 + l.stack * 2 ^ 30 + ris * 2 ^ 20 + g * 2 ^ 17 + c * 2 ^ 12 + low
  else
    j * 2 ^ 33 + l.stack * 2 ^ 30 + l.die * 2 ^ 26 + bg * 2 ^ 22 + ris / 32 * 2 ^ 17 + ris % 32 * 2 ^ 12 + low

def State.locate (s : State) (a : Nat) : Loc := decodeLoc (s.rmode (regionOf a)) a

/-- Where the line of an access lies: one that has been issued keeps its place (R111). -/
def State.placeFor (s : State) (held : Option (Nat × Loc)) (a : Nat) : Loc :=
  match held with
  | some h => if h.1 = a / 64 * 64 then h.2 else s.locate a
  | none => s.locate a

/-- The arrangement of all regions, two bits for each (R111). -/
def State.arrangement (s : State) : BitVec 128 :=
  s.reg (Reg.stkRmode 3) ++ (s.reg (Reg.stkRmode 2) ++ (s.reg (Reg.stkRmode 1) ++ s.reg (Reg.stkRmode 0)))

/-- Where an access issued under an arrangement finds its line. -/
def locateIn (arr : BitVec 128) (a : Nat) : Loc :=
  decodeLoc (bitsAt arr.toNat (2 * regionOf a + 1) (2 * regionOf a)) a
def State.addrOf (s : State) (l : Loc) : Nat := encodeLoc (s.rmode (l.row / 1024)) l

/-- Spare row chosen for a row, if a valid retirement entry names it (R375). -/
def State.spareOf (s : State) (l : Loc) : Option Nat :=
  (s.rel.retire.find? (fun e => decide (e.1 / 256 = l.stack) && e.2.getLsbD 0 &&
    decide (bitsAt e.2.toNat 5 2 = l.die ∧ bitsAt e.2.toNat 11 6 = l.bank ∧ bitsAt e.2.toNat 27 12 = l.row))).map
    (fun e => bitsAt e.2.toNat 1 1)

/-- Key of the storage that holds a row: its own, or a spare of its subarray. -/
def State.rowKey (s : State) (l : Loc) : Nat :=
  let base := ((l.stack * 16 + l.die) * 64 + l.bank) * 65792
  match s.spareOf l with
  | none => base + l.row
  | some sp => base + 65536 + 2 * (l.row / 512) + sp

def noByte (_ : Nat) : BitVec 8 := 0
def noClass (_ : Nat) : RowClass := .sealed

def State.rowClass (s : State) (rk : Nat) : RowClass := sget noClass s.mem.cls rk
def State.setRowClass (s : State) (rk : Nat) (c : RowClass) : State :=
  { s with mem := { s.mem with cls := sset noClass s.mem.cls rk c } }

/-- Stored data of line `i` of a row. -/
def State.rawData (s : State) (rk i : Nat) : List Nat :=
  (sgetMany noByte s.mem.data (rk * 1024 + 64 * i) 64).map BitVec.toNat
def State.rawChk (s : State) (rk i : Nat) : List Nat :=
  (sgetMany noByte s.mem.chk (rk * 64 + 4 * i) 4).map BitVec.toNat

def State.setRawData (s : State) (rk i : Nat) (d : List Nat) : State :=
  { s with mem := { s.mem with data := ssetMany noByte s.mem.data (rk * 1024 + 64 * i) (d.map (BitVec.ofNat 8)) } }
def State.setRawChk (s : State) (rk i : Nat) (d : List Nat) : State :=
  { s with mem := { s.mem with chk := ssetMany noByte s.mem.chk (rk * 64 + 4 * i) (d.map (BitVec.ofNat 8)) } }

/-- Store a line with its check symbols computed, poison pattern XORed in on request (R357, R360). -/
def State.storeLine (s : State) (rk i : Nat) (d : List Nat) (poison : Bool) : State :=
  let c := rsCheck rsGen4 d
  (s.setRawData rk i d).setRawChk rk i (if poison then List.zipWith Nat.xor c poisonPattern else c)

/-! ### Lost stacks, disabled banks, logging a location -/

def State.stackIsLost (s : State) (k : Nat) : Bool := (s.reg Reg.stkLost).getLsbD k

def State.bankDisabled (s : State) (l : Loc) : Bool :=
  let n := 16 * l.stack + l.die
  (s.reg (if l.bank < 32 then Reg.eccBankDisLo n else Reg.eccBankDisHi n)).getLsbD (l.bank % 32)

/-- The line's bank answers: its stack is neither lost nor powered down and the bank is enabled (R377, R379, R416). -/
def State.bankAnswers (s : State) (l : Loc) : Bool :=
  !s.stackIsLost l.stack && !s.bankDisabled l && !s.pwr.tripped.getLsbD l.stack

def pathCode : Path → Nat
  | .channel => 0
  | .thread => 1
  | .spindle => 2
  | .carder => 3
  | .scratchpad => 4
  | .ssb => 5
  | .bar4 => 6
  | .twine => 7
  | .busko => 8
  | .selftest => 9

def State.logAt (s : State) (e : LogEntry) (addr : Nat) (l : Loc) : State :=
  s.log { e with addr := addr, loc := true, stack := l.stack, die := l.die, bank := l.bank, row := l.row, line := l.line }

/-- A correctable codeword in bucket n (R362). -/
def State.countCe (s : State) (n : Nat) : State :=
  let s := s.bumpReg (Reg.eccCeCount n) 1
  let level := s.fld (Reg.eccCeStat n) 15 0
  if level < s.fld (Reg.eccCeCfgLo n) 15 0 then s.setFld (Reg.eccCeStat n) 15 0 (level + 1)
  else if s.fld (Reg.eccCeStat n) 16 16 = 0 then
    (s.setFld (Reg.eccCeStat n) 16 16 1).log { typ := 0x01, unit := n, info := (s.reg (Reg.eccCeCount n)).toNat }
  else s

/-! ### Models' weight and mirror lines (R366) -/

def noModel (_ : Nat) : Option Model := none
def State.model (s : State) (m : Nat) : Option Model := sget noModel s.serve.models m
def State.setModel (s : State) (m : Nat) (x : Option Model) : State :=
  { s with serve := { s.serve with models := sset noModel s.serve.models m x } }

def Model.bits (m : Model) (hi lo : Nat) : Nat := bitsAt m.rec_.toNat hi lo
def Model.base (m : Model) (r : Nat) : Nat := m.bits (256 + 128 * r + 29) (256 + 128 * r) * 4096
def Model.size (m : Model) (r : Nat) : Nat := m.bits (256 + 128 * r + 61) (256 + 128 * r + 32) * 4096
def Model.mbase (m : Model) (r : Nat) : Nat := m.bits (256 + 128 * r + 93) (256 + 128 * r + 64) * 4096
def Model.mirror (m : Model) : Bool := m.rec_.getLsbD 10

def Model.hasWeight (m : Model) (a : Nat) : Bool :=
  [0, 1, 2, 3].any (fun r => decide (m.base r ≤ a ∧ a < m.base r + m.size r))

/-- The weight line that a mirror line mirrors. -/
def Model.mirrored (m : Model) (a : Nat) : Option Nat :=
  if m.mirror then
    ([0, 1, 2, 3].find? (fun r => decide (m.mbase r ≤ a ∧ a < m.mbase r + m.size r))).map (fun r => a - m.mbase r + m.base r)
  else none

/-- The mirror line of a weight line. -/
def Model.mirrorOf (m : Model) (a : Nat) : Option Nat :=
  if m.mirror then
    ([0, 1, 2, 3].find? (fun r => decide (m.base r ≤ a ∧ a < m.base r + m.size r))).map (fun r => a - m.base r + m.mbase r)
  else none

/-- Ask for the quarantine of every model that has the line among its weights (R366, R367). -/
def State.quarantineLine (s : State) (a : Nat) : State :=
  s.serve.models.foldl (fun s e =>
    match e.2 with
    | some m => if m.hasWeight a then s.atBoundary (.quarantine e.1 a) else s
    | none => s) s

/-- A mirror line found uncorrectable is to be repaired from its weight line (R368). -/
def State.noteMirror (s : State) (a : Nat) : State :=
  s.serve.models.foldl (fun s e =>
    match e.2.bind (fun m => m.mirrored a) with
    | some w => { s with rel := { s.rel with mirrorBad := s.rel.mirrorBad ++ [(a, w)] } }
    | none => s) s

/-- An uncorrectable line found by a read of its storage: UE, its consequences for models (R366) and the count of distinct
failing rows (R379). -/
def State.foundUe (s : State) (a : Nat) (l : Loc) (path : Path) (ctx : Option Nat) : State :=
  let s := s.logAt { typ := 0x02, source := (pathCode path), ctx := ctx } a l
  let rk := s.rowKey l
  let rows := (s.rel.ueRows.filter (fun e => decide (s.tick < e.2 + 1000000 ∧ ¬ e.1 = rk))) ++ [(rk, s.tick)]
  let s := { s with rel := { s.rel with ueRows := rows } }
  let here := (rows.filter (fun e => decide (e.1 / (65792 * 1024) = l.stack))).length
  let s := if 1024 < here then s.atBoundary (.stackLost l.stack) else s
  (s.quarantineLine a).noteMirror a

/-! ### Reading and writing one line of storage -/

/-- What a reader receives. -/
structure Got where
  data     : Line
  poison   : Bool := false
  unsealed : Bool := false
deriving DecidableEq, Repr

def lineOf (d : List Nat) : Line := BitVec.ofNat 512 (natOfBytes d)
def bytesOfLine (l : Line) : List Nat := bytesOfNat 64 l.toNat

/-- Read line `l` of the storage (R153, R154, R358, R361, R363). -/
def State.readLoc (s : State) (a : Nat) (l : Loc) (path : Path) (ctx : Option Nat) : Got × State :=
  let rk := s.rowKey l
  let d := s.rawData rk l.line
  match s.rowClass rk with
  | .raw => ({ data := lineOf d }, s)
  | .unsealed =>
    ({ data := lineOf d, poison := true, unsealed := true },
      s.logAt { typ := 0x04, status := 0x0D, source := (pathCode path), ctx := ctx } a l)
  | .sealed =>
    match classifyLine (d ++ s.rawChk rk l.line) with
    | .clean => ({ data := lineOf d }, s)
    | .poisonMark => ({ data := lineOf d, poison := true }, s)
    | .correctable p v => ({ data := lineOf (xorAt d p v) }, s.countCe l.stack)
    | .uncorrectable => ({ data := lineOf d, poison := true }, s.foundUe a l path ctx)

def mergeMask (old new : Line) (mask : LineMask) : Line :=
  lineOf (List.zipWith (fun (p : Nat × Nat) (i : Nat) => if mask.getLsbD i then p.2 else p.1)
    (List.zip (bytesOfLine old) (bytesOfLine new)) (List.range 64))

def fullMask : LineMask := BitVec.allOnes 64

/-- Write a line of storage, whole or in part (R104, R155, R360); an error that the read of a partial write finds is logged for
the path. -/
def State.writeLoc (s : State) (a : Nat) (l : Loc) (data : Line) (mask : LineMask) (poison : Bool) (path : Path := .busko)
    (ctx : Option Nat := none) : State :=
  let rk := s.rowKey l
  if mask = fullMask then s.storeLine rk l.line (bytesOfLine data) poison
  else if mask = 0 then s
  else
    let d := s.rawData rk l.line
    match s.rowClass rk with
    | .sealed =>
      match classifyLine (d ++ s.rawChk rk l.line) with
      | .clean => s.storeLine rk l.line (bytesOfLine (mergeMask (lineOf d) data mask)) poison
      | .poisonMark => s.storeLine rk l.line (bytesOfLine (mergeMask (lineOf d) data mask)) true
      | .correctable p v =>
        (s.countCe l.stack).storeLine rk l.line (bytesOfLine (mergeMask (lineOf (xorAt d p v)) data mask)) poison
      | .uncorrectable =>
        (s.foundUe a l path ctx).storeLine rk l.line (bytesOfLine (mergeMask (lineOf d) data mask)) true
    | _ => s.storeLine rk l.line (bytesOfLine (mergeMask (lineOf d) data mask)) poison

/-! ### Staging (R60, R61) -/

def noStage (_ : Nat) : List StagedLine := []
def stageKey (stack a : Nat) : Nat := stack * 20480 + a / 64 % 20480

def State.stageSet (s : State) (k : Nat) : List StagedLine := sget noStage s.mem.staging k
def State.setStage (s : State) (k : Nat) (l : List StagedLine) : State :=
  { s with mem := { s.mem with staging := sset noStage s.mem.staging k l } }

def State.unstage (s : State) (a : Nat) : State :=
  let k := stageKey (s.locate a).stack a
  s.setStage k ((s.stageSet k).filter (fun x => decide (¬ x.addr = a / 64 * 64)))

/-- Invalidate every staged line of a row. -/
def State.unstageRow (s : State) (l : Loc) : State :=
  (List.range 16).foldl (fun s i => s.unstage (s.addrOf { l with line := i })) s

/-- Offset in its SSB of a way of a staging set. DESIGN CHOICE: the regions lie in the order of Table 3.7a, the ways of a
set side by side (notes/assumptions/95.md). -/
def stageOff (k way : Nat) : Nat := (k % 20480 * 16 + way) * 64

/-- The way that a new line of set k takes: the first one free, else that of the line used longest ago; none where every
way is withheld (R60, R365). -/
def State.stageWay (s : State) (k : Nat) : Option Nat :=
  let set := s.stageSet k
  match (List.range 16).find? (fun w => !s.rel.ssbWays.contains (k * 16 + w) && !set.any (fun x => decide (x.way = w))) with
  | some w => some w
  | none => set.getLast?.map StagedLine.way

/-! ### The SRAM of the SSBs (R359, R365) -/

def State.ssbBytes (s : State) (b off n : Nat) : List Nat := (sgetMany noByte s.rel.ssb (b * 2 ^ 25 + off) n).map BitVec.toNat

/-- Check symbols from the codeword at an offset on. -/
def State.ssbCheck (s : State) (b off n : Nat) : List Nat :=
  (sgetMany noByte s.rel.ssbChk (3 * (b * 2 ^ 20 + off / 32)) n).map BitVec.toNat

/-- Store the 64 bytes of an SSB line and the check symbols of its two codewords. -/
def State.setSsbLine (s : State) (b off : Nat) (d chk : List Nat) : State :=
  { s with rel := { s.rel with
      ssb := ssetMany noByte s.rel.ssb (b * 2 ^ 25 + off) (d.map (BitVec.ofNat 8))
      ssbChk := ssetMany noByte s.rel.ssbChk (3 * (b * 2 ^ 20 + off / 32)) (chk.map (BitVec.ofNat 8)) } }

/-- A codeword of an SSB failed its check: it is logged, and twice within 1,000,000 ticks at one offset is a hard fault. -/
def State.ssbFailed (s : State) (b off : Nat) : Bool × State :=
  let key := 2 ^ 40 + b * 2 ^ 25 + off
  let again := s.rel.sramFail.any (fun e => decide (e.1 = key ∧ s.tick < e.2 + 1000000))
  let s := s.log { typ := 0x02, source := 5 }
  let s := { s with rel := { s.rel with
    sramFail := s.rel.sramFail.filter (fun e => decide (¬ e.1 = key)) ++ [(key, s.tick)] } }
  (again, if again then s.log { typ := 0x03, source := 5 } else s)

/-- What a read of one codeword gives: its bytes, whether they are poisoned, whether the fault is hard. -/
def State.readSsbUnit (s : State) (b off : Nat) : List Nat × Bool × Bool × State :=
  let d := s.ssbBytes b off 32
  match classifySram (d ++ s.ssbCheck b off 3) with
  | .clean => (d, false, false, s)
  | .poisonMark => (d, true, false, s)
  | .correctable q v => (xorAt d q v, false, false, s.countCe 8)
  | .uncorrectable =>
    let r := s.ssbFailed b off
    (d, true, r.1, r.2)

/-- A staged line as the SSB delivers it; a way with a hard fault is withheld (R60, R61, R365). -/
def State.readStagedLine (s : State) (k : Nat) (x : StagedLine) : Got × State :=
  let off := stageOff k x.way
  let lo := s.readSsbUnit (k / 20480) off
  let hi := lo.2.2.2.readSsbUnit (k / 20480) (off + 32)
  let s := hi.2.2.2
  let others := (s.stageSet k).filter (fun y => decide (¬ y.addr = x.addr))
  ({ data := lineOf (lo.1 ++ hi.1), poison := x.poison || lo.2.1 || hi.2.1, unsealed := x.unsealed },
    if lo.2.2.1 || hi.2.2.1 then
      { (s.setStage k others) with rel := { s.rel with ssbWays := nsAdd s.rel.ssbWays (k * 16 + x.way) } }
    else s.setStage k (x :: others))

/-- A line is placed in its staging set (R60). -/
def State.placeStaged (s : State) (k a : Nat) (g : Got) : State :=
  match s.stageWay k with
  | none => s
  | some w =>
    let d := bytesOfLine g.data
    let s := s.setStage k (⟨a, w, g.poison, g.unsealed⟩ :: (s.stageSet k).filter (fun y => decide (¬ y.way = w)))
    s.setSsbLine (k / 20480) (stageOff k w) d (rsCheck rsGen3 (d.take 32) ++ rsCheck rsGen3 (d.drop 32))

/-! ### A line by its device address -/

def isReserved (a : Nat) : Bool := decide (62 ≤ regionOf a ∧ a < memTop)

/-- The part of the reserved area whose lines are held three times (R378). -/
def isContent (a : Nat) : Bool := decide (0x7C00000000 ≤ a ∧ a < 0x7D40000000)

/-- The three homes of a reserved-area line (R378). -/
def copiesOf (a : Nat) : List Nat := [a, a + 0x140003000, a + 0x280006000]

/-- Reserved-area read: the copies in order, the first good one used, the poisoned ones before it rewritten. -/
def State.readCopies (s : State) (path : Path) : List Nat → List Nat → Got → Got × State
  | [], _, worst => (worst, s)
  | a :: rest, bad, worst =>
    let l := s.locate a
    if !s.bankAnswers l then s.readCopies path rest bad worst
    else
      let r := s.readLoc a l path none
      if r.1.poison then r.2.readCopies path rest (bad ++ [a]) { r.1 with poison := true }
      else (r.1, bad.foldl (fun s b => s.writeLoc b (s.locate b) r.1.data fullMask false) r.2)

def tableBase : Nat := 0x7C00000000

/-- The line holds the Governor's own state, and is neither of the Skein table nor of the translation table. -/
def ownState (a : Nat) : Bool := decide (¬ a < tableBase + 2 ^ 26 + 2 ^ 22) && Config.govState a

/-- Read a line of stacked memory at a device address below the top of memory. One of the Governor's own state that is poisoned in
every copy is a cause of SAFE mode (R363, R385). -/
def State.readMem (s : State) (a : Nat) (path : Path) (ctx : Option Nat) : Got × State :=
  let a := a / 64 * 64
  if isContent a then
    let r := s.readCopies path (copiesOf a) [] { data := 0, poison := true }
    (r.1, if r.1.poison && ownState a then r.2.atBoundary (.safe 4) else r.2)
  else s.readLoc a (s.locate a) path ctx

/-- Read a line where an access found it when it was issued (R111). -/
def State.readMemAt (s : State) (a : Nat) (l : Loc) (path : Path) (ctx : Option Nat) : Got × State :=
  if isContent a then s.readMem a path ctx else s.readLoc (a / 64 * 64) l path ctx

/-- Every surviving copy of a line of the reserved area is written (R378). -/
def State.writeCopies (s : State) (a : Nat) (data : Line) (mask : LineMask) (poison : Bool) (path : Path) : State :=
  (copiesOf a).foldl (fun s b =>
    if s.bankAnswers (s.locate b) then s.writeLoc b (s.locate b) data mask poison path else s) s

/-! ### The Skein table's place in the reserved area (R110, R175, Table 7.4) -/

def noSkein (_ : Nat) : Skein := {}
def State.skein (s : State) (h : Nat) : Skein := sget noSkein s.skeins.table h

/-- The 16 bytes of an entry. -/
def Skein.pack (e : Skein) : Nat :=
  let st : Nat := match e.st with
    | .free => 0
    | .resident => 1
    | .spilled => 2
    | .moving => 3
  packFields [(0, 2, st), (2, 6, e.ctx), (8, 1, if e.fmt then 1 else 0), (9, 3, e.hd), (12, 1, if e.spec then 1 else 0),
    (16, 16, e.refs), (32, 22, e.block), (54, 22, e.dest), (76, 12, e.ntok), (88, 12, e.commit), (100, 24, e.basepos)]

/-- The entry that 16 bytes stand for; what the Governor knows of it besides stays. -/
def Skein.unpack (old : Skein) (v : Nat) : Skein :=
  { old with
    st := if bitsAt v 1 0 = 0 then .free else if bitsAt v 1 0 = 1 then .resident else if bitsAt v 1 0 = 2 then .spilled else .moving
    ctx := bitsAt v 7 2
    fmt := v.testBit 8
    hd := bitsAt v 11 9
    spec := v.testBit 12
    refs := bitsAt v 31 16
    block := bitsAt v 53 32
    dest := bitsAt v 75 54
    ntok := bitsAt v 87 76
    commit := bitsAt v 99 88
    basepos := bitsAt v 123 100 }

/-- What the first copy of a reserved-area line that answers and reads well holds. -/
def State.goodCopy (s : State) (a : Nat) : Option Line :=
  (copiesOf a).findSome? (fun b =>
    let g := (s.readLoc b (s.locate b) .busko none).1
    if s.bankAnswers (s.locate b) && !g.poison then some g.data else none)

/-- The entries of a line of the table follow a write of the line (R178). -/
def State.syncTable (s : State) (a : Nat) : State :=
  if a < tableBase ∨ tableBase + 2 ^ 26 ≤ a then s
  else
    match s.goodCopy a with
    | none => s
    | some d =>
      let v := d.toNat
      let h := (a - tableBase) / 16
      { s with skeins := { s.skeins with table := (List.range 4).foldl (fun t i =>
          smod noSkein t (h + i) (fun e => e.unpack (v / 2 ^ (128 * i) % 2 ^ 128))) s.skeins.table } }

/-- Write a line of stacked memory on any path: the staged copy goes, and the reserved area is written in every surviving
copy (R61, R378). -/
def State.writeMem (s : State) (a : Nat) (data : Line) (mask : LineMask) (poison : Bool) (path : Path := .busko)
    (ctx : Option Nat := none) : State :=
  let a := a / 64 * 64
  if isContent a then (s.writeCopies a data mask poison path).syncTable a
  else (s.writeLoc a (s.locate a) data mask poison path ctx).unstage a

/-- Write a line where an access found it when it was issued (R111). -/
def State.writeMemAt (s : State) (a : Nat) (l : Loc) (data : Line) (mask : LineMask) (poison : Bool) (path : Path)
    (ctx : Option Nat) : State :=
  if isContent a then s.writeMem a data mask poison path ctx
  else (s.writeLoc (a / 64 * 64) l data mask poison path ctx).unstage (s.addrOf l)

/-- A STAGE fetch of a line (R60): a hit is delivered from the SSB, a miss fills the set. One issued under an arrangement that
no longer holds for the address reads the line where it then lay, and stages nothing (R111). -/
def State.readStaged (s : State) (a : Nat) (l : Loc) (ctx : Option Nat) : Got × State :=
  let a := a / 64 * 64
  if ¬ s.locate a = l then s.readMemAt a l .channel ctx
  else
    let k := stageKey l.stack a
    match (s.stageSet k).find? (fun x => decide (x.addr = a)) with
    | some x => s.readStagedLine k x
    | none =>
      let r := s.readMem a .channel ctx
      (r.1, r.2.placeStaged k a r.1)

/-- Read `n` bytes of the reserved area or any stacked memory, for the device's own use. -/
def State.readBytes (s : State) (a n : Nat) : List Nat × Bool × State :=
  (List.range ((a % 64 + n + 63) / 64)).foldl (fun (acc : List Nat × Bool × State) i =>
    let r := acc.2.2.readMem (a / 64 * 64 + 64 * i) .busko none
    let lo := if i = 0 then a % 64 else 0
    (acc.1 ++ (bytesOfLine r.1.data).drop lo, acc.2.1 || r.1.poison, r.2)) ([], false, s)
  |> fun r => (r.1.take n, r.2.1, r.2.2)

/-- Line and mask of a write of bytes that lie in one line. -/
def partialLine (a : Nat) (b : List Nat) : Line × LineMask :=
  (BitVec.ofNat 512 (natOfBytes b * 2 ^ (8 * (a % 64))), BitVec.ofNat 64 ((2 ^ b.length - 1) * 2 ^ (a % 64)))

/-- Write bytes of stacked memory, line by line (R104). -/
def State.writeBytes (s : State) (a : Nat) (b : List Nat) (poison : Bool) : State :=
  (List.range ((a % 64 + b.length + 63) / 64)).foldl (fun s i =>
    let start := if i = 0 then a else a / 64 * 64 + 64 * i
    let skip := start - a
    let seg := (b.drop skip).take (64 - start % 64)
    let lm := partialLine start seg
    s.writeMem start lm.1 lm.2 poison) s

/-! ### The device address map and the context's check (R105, R114, R115) -/

inductive Place where
  | stacked
  | scratch (core off : Nat)
  | window (off : Nat)
  | reserved
deriving DecidableEq, Repr

def placeOf (a : Nat) : Place :=
  if a < memTop then .stacked
  else if 0x10000000000 ≤ a ∧ a < 0x10012000000 then
    .scratch ((a - 0x10000000000) / 0x200000) ((a - 0x10000000000) % 0x200000)
  else if 0x20000000000 ≤ a ∧ a < 0x40000000000 then .window (a - 0x20000000000)
  else .reserved

def State.hankOf (s : State) (uid : Nat) : Option Hank := s.serve.hanks.find? (fun h => decide (h.uid = uid))
def State.stepOf (s : State) (uid : Nat) : Option StepSt := s.serve.steps.find? (fun p => decide (p.uid = uid))

/-- Is logical core `core` running work of context `c` (R474)? -/
def State.runsFor (s : State) (core c : Nat) : Bool :=
  s.serve.steps.any (fun p => decide (p.ctx = c) && p.mask.getLsbD (core / 18) && p.preAt.isNone && p.switch.isNone && p.waiting.isEmpty)

def noOwner (_ : Nat) : Nat := 0

/-- The Skein that occupies a block, while its table entry owns it (R177). -/
def State.blockOwner (s : State) (b : Nat) : Option Nat :=
  let h := sget noOwner s.skeins.owner b
  if h = 0 then none
  else
    let e := s.skein (h - 1)
    if e.st = .resident ∧ e.block = b ∨ e.st = .moving ∧ (e.block = b ∨ e.dest = b) then some (h - 1) else none

def State.extentGrants (s : State) (c a : Nat) (write : Bool) : Bool :=
  (List.range 16).any (fun e =>
    decide (s.cfld c (Reg.extBase e) 29 0 * 4096 ≤ a ∧ a < s.cfld c (Reg.extLimit e) 29 0 * 4096) &&
    (s.reg (Reg.ctx c (Reg.extCtl e))).getLsbD (if write then 1 else 0))

/-- The check of one line (Table 5.5), for a line in a bank that answers. -/
def State.mayAccess (s : State) (c a : Nat) (write : Bool) : Bool :=
  match placeOf a with
  | .reserved => false
  | .window o => decide (o < s.cfld c Reg.hostWinSize 11 0 * 2 ^ 30)
  | .scratch core _ => (s.core core).map.phys.isSome && s.runsFor core c
  | .stacked =>
    if isReserved a then false
    else if !s.bankAnswers (s.locate a) then false
    else if s.rmode (regionOf a) = 2 then
      match s.blockOwner (a / 2 ^ 17) with
      | some h => decide ((s.skein h).ctx = c)
      | none => false
    else s.extentGrants c a write

/-- The status that refuses an access to `n` lines from `a` on (R81, R116), or none. -/
def State.refusal (s : State) (c a n : Nat) (write : Bool) : Option Nat :=
  (List.range n).foldl (fun (acc : Option Nat) i =>
    match acc with
    | some e => some e
    | none =>
      let x := (a / 64 * 64 + 64 * i) % 2 ^ 42
      match placeOf x with
      | .scratch core _ =>
        if (s.core core).map.phys.isNone then some 0x0C else if s.mayAccess c x write then none else some 0x03
      | _ => if s.mayAccess c x write then none else some 0x03) none

/-- Every line of a buffer of `n` bytes passes the check. -/
def State.rangeOk (s : State) (c a n : Nat) (write : Bool) : Bool :=
  n == 0 || (s.refusal c a ((a % 64 + n + 63) / 64) write).isNone

/-! ### Scratchpad lines (R45, R46, R359, R365) -/

def spadKey (p line : Nat) : Nat := p * 32768 + line

/-- Device address of the line of a logical core that holds a 32-B unit (Table 5.2). -/
def spadAddr (core unit : Nat) : Nat := 0x10000000000 + core * 0x200000 + unit / 2 * 64

def State.spadBytes (s : State) (p addr n : Nat) : List Nat :=
  (sgetMany noByte s.spads.data (p * 2 ^ 21 + addr) n).map BitVec.toNat

/-- Check symbols of the codeword that holds a 32-B unit. -/
def State.spadChk (s : State) (p unit : Nat) : List Nat :=
  (sgetMany noByte s.spads.chk (3 * (p * 65536 + unit)) 3).map BitVec.toNat

def State.setSpadUnit (s : State) (p unit : Nat) (d chk : List Nat) : State :=
  { s with spads := { s.spads with
      data := ssetMany noByte s.spads.data (p * 2 ^ 21 + 32 * unit) (d.map (BitVec.ofNat 8)),
      chk := ssetMany noByte s.spads.chk (3 * (p * 65536 + unit)) (chk.map (BitVec.ofNat 8)) } }

/-- A codeword that failed: twice within 1,000,000 ticks at one address declares the core dead (R365). -/
def State.sramFailed (s : State) (p unit : Nat) (core : Nat) : State :=
  let key := p * 2 ^ 21 + 32 * unit
  let again := s.rel.sramFail.any (fun e => decide (e.1 = key ∧ s.tick < e.2 + 1000000))
  let s := { s with rel := { s.rel with
    sramFail := s.rel.sramFail.filter (fun e => decide (¬ e.1 = key)) ++ [(key, s.tick)] } }
  if again then
    (s.log { typ := 0x03, source := 4, unit := core, addr := spadAddr core unit }).atBoundary (.coreDead p 2)
  else s

/-- One 32-B unit of a written line. -/
def State.readUnit (s : State) (p unit core : Nat) : List Nat × Bool × State :=
  let d := s.spadBytes p (32 * unit) 32
  match classifySram (d ++ s.spadChk p unit) with
  | .clean => (d, false, s)
  | .poisonMark => (d, true, s)
  | .correctable q v => (xorAt d q v, false, s.countCe 8)
  | .uncorrectable =>
    (d, true, (s.log { typ := 0x02, source := 4, addr := spadAddr core unit }).sramFailed p unit core)

/-- Read a scratchpad line: zeros where its written bit is clear. -/
def State.readSpad (s : State) (core p line : Nat) : Got × State :=
  let k := spadKey p line
  if !s.spads.written.contains k then ({ data := 0 }, s)
  else
    let a := s.readUnit p (2 * line) core
    let b := a.2.2.readUnit p (2 * line + 1) core
    ({ data := lineOf (a.1 ++ b.1), poison := s.spads.poison.contains k || a.2.1 || b.2.1,
       unsealed := s.spads.unsealed.contains k }, b.2.2)

/-- Write one 32-B unit of a line, or clear it where the line was never written (R46). -/
def State.putSpadUnit (s : State) (p unit : Nat) (on fresh : Bool) (x : List Nat) : State :=
  if on then s.setSpadUnit p unit x (rsCheck rsGen3 x)
  else if fresh then s.setSpadUnit p unit (List.replicate 32 0) (rsCheck rsGen3 (List.replicate 32 0)) else s

/-- Write 32-B units of a scratchpad line: unit h is written when some byte of its half is enabled. -/
def State.writeSpad (s : State) (p line : Nat) (data : Line) (mask : LineMask) (poison unsealed : Bool) : State :=
  let k := spadKey p line
  let lo : Bool := !(mask.toNat % 2 ^ 32 == 0)
  let hi : Bool := !(mask.toNat / 2 ^ 32 == 0)
  let fresh := !s.spads.written.contains k
  let d := bytesOfLine data
  if !lo && !hi then s
  else
    let s := (s.putSpadUnit p (2 * line) lo fresh (d.take 32)).putSpadUnit p (2 * line + 1) hi fresh (d.drop 32)
    let mark := poison || (!(lo && hi) && s.spads.poison.contains k)
    let uns := mark && (unsealed || (!poison && s.spads.unsealed.contains k))
    { s with
      spads := { s.spads with
        written := nsAdd s.spads.written k
        poison := nsPut s.spads.poison k mark
        unsealed := nsPut s.spads.unsealed k uns } }

/-- Written bits clear, accumulators and registers +0 (R46). -/
def State.clearCore (s : State) (p : Nat) : State :=
  let keep (k : Nat) : Bool := !decide (k / 32768 = p)
  { s with
    spads := { s.spads with
      written := s.spads.written.filter keep
      poison := s.spads.poison.filter keep
      unsealed := s.spads.unsealed.filter keep
      acc := s.spads.acc.filter (fun e => !decide (e.1 / 384 = p))
      vregs := s.spads.vregs.filter (fun e => !decide (e.1 / 32 = p)) } }

/-! ### The asynchronous ports (R50, R51) -/

/-- The access that has waited longest, on either asynchronous port, is performed. DESIGN CHOICE: the spec gives no order between
XO and NI accesses (notes/assumptions/152.md). -/
def State.asyncFirst (s : State) (core : Nat) : State :=
  let c := s.core core
  match c.async, c.map.phys with
  | a :: rest, some p =>
    let s := s.setCore core { c with async := rest }
    match a with
    | .ni item => s.writeSpad p (item.addr.toNat / 64) item.data item.mask item.poison false
    | .xo addr =>
      let g := s.readSpad core p (addr.toNat / 64)
      { g.2 with reply := .data ((bytesOfLine g.1.data).map (BitVec.ofNat 8)) g.1.poison }
  | _, _ => s

/-- Every access that waits at a core's asynchronous ports is performed. -/
def State.asyncAll (s : State) (core : Nat) : State := (s.core core).async.foldl (fun s _ => s.asyncFirst core) s

/-- A window access goes through the core's asynchronous ports, behind the accesses that wait there (R117). -/
def State.portWaits (s : State) (a : Nat) : Bool :=
  match placeOf a with
  | .scratch core _ => !(s.core core).async.isEmpty
  | _ => false

/-! ### A line at any device address, for a context's engines (R117, R118) -/

/-- Take the bytes of the line at `a`, which lies at `l` if it is stacked; a host-window line takes `host` (none: the host read
failed, which is reported for requester `who`, R351). -/
def State.fetchLineAt (s : State) (a : Nat) (l : Loc) (stage : Bool) (ctx : Nat) (host : Option Line) (who : Nat := 0)
    (tag : Word := 0) : Got × State :=
  match placeOf a with
  | .stacked => if stage then s.readStaged a l (some ctx) else s.readMemAt a l .channel (some ctx)
  | .scratch core o =>
    match (s.core core).map.phys with
    | some p => s.readSpad core p (o / 64)
    | none => ({ data := 0 }, s)
  | .window o =>
    let s := s.hostRead ctx (s.winAddr ctx o) 64 true
    match host with
    | some l => ({ data := l }, s)
    | none => ({ data := 0, poison := true }, s.readFailed ctx who tag (s.winAddr ctx o))
  | .reserved => ({ data := 0 }, s)

def State.fetchLine (s : State) (a : Nat) (stage : Bool) (ctx : Nat) (host : Option Line) : Got × State :=
  s.fetchLineAt a (s.locate (a / 64 * 64)) stage ctx host

/-- Runs of enabled bytes of a line: offset of the first, and how many. -/
def maskRuns (mask : LineMask) : List (Nat × Nat) :=
  (List.range 64).foldl (fun (acc : List (Nat × Nat)) i =>
    if !mask.getLsbD i then acc
    else match acc.getLast? with
      | some (a, n) => if a + n = i then acc.dropLast ++ [(a, n + 1)] else acc ++ [(i, 1)]
      | none => [(i, 1)]) []

/-- Perform a write of a line at `a`, which lies at `l` if it is stacked, for a context. -/
def State.placeLineAt (s : State) (a : Nat) (l : Loc) (data : Line) (mask : LineMask) (poison : Bool) (ctx : Nat) : State :=
  match placeOf a with
  | .stacked => s.writeMemAt a l data mask poison .channel (some ctx)
  | .scratch core o =>
    match (s.core core).map.phys with
    | some p => s.writeSpad p (o / 64) data mask poison false
    | none => s
  | .window o =>
    (maskRuns mask).foldl (fun s r => s.hostWrite ctx (s.winAddr ctx (o / 64 * 64) + r.1)
      (((bytesOfLine data).drop r.1).take r.2 |>.map (BitVec.ofNat 8)) poison) s
  | .reserved => s

def State.placeLine (s : State) (a : Nat) (data : Line) (mask : LineMask) (poison : Bool) (ctx : Nat) : State :=
  s.placeLineAt a (s.locate (a / 64 * 64)) data mask poison ctx

/-- Bytes of the 64-B lines a host read brought, line `i`. -/
def hostLine (h : HostRead) (i : Nat) : Option Line :=
  match h with
  | .ok b => some (BitVec.ofNat 512 (natOfBytes (((b.drop (64 * i)).take 64).map BitVec.toNat)))
  | .failed => none

/-! ### Banks busy with a step (R161) -/

def noBank (_ : Nat) : BankSt := {}

/-- The step of a bank has ended, if its time has come: what waits now is older than the step after the next. -/
def BankSt.settle (b : BankSt) (now : Nat) : BankSt :=
  if b.step.isSome ∧ b.busyTo ≤ now then
    { b with step := none, first := b.older, older := b.waits.length, served := 0 }
  else b

/-- The front access is served. -/
def BankSt.pop (b : BankSt) : BankSt :=
  { b with
    waits := b.waits.drop 1
    first := b.first - 1
    older := b.older - 1
    held := none
    served := if 0 < b.first then b.served else b.served + 1 }

def State.bankSt (s : State) (l : Loc) : BankSt :=
  (sget noBank (s.rowOf l.stack).banks (l.die * 64 + l.bank)).settle (s.sclkNow l.stack)
def State.setBankSt (s : State) (l : Loc) (b : BankSt) : State :=
  let r := s.rowOf l.stack
  s.setRow l.stack { r with banks := sset noBank r.banks (l.die * 64 + l.bank) b }

/-- The bank is busy with a step. -/
def State.bankBusy (s : State) (l : Loc) : Bool := decide (s.sclkNow l.stack < (s.bankSt l).busyTo)

/-- The access is an agent's, which comes back for it: it waits once. The others are accesses of their own, each time. -/
def BankAcc.returns : BankAcc → Bool
  | .read _ _ _ _ => false
  | .write _ _ _ _ _ => false
  | .refresh => false
  | .thread _ _ => false
  | .carder _ _ => false
  | .own _ _ _ _ _ _ => false
  | _ => true

/-- An access reaches a bank: it is made at once where no step holds the bank and nothing waits there before it; otherwise it
waits its turn. -/
def State.reach (s : State) (l : Loc) (x : BankAcc) : Bool × State :=
  let b := s.bankSt l
  let idle := !s.bankBusy l
  if idle && b.waits.isEmpty then (true, s)
  else if idle && b.waits.head?.any (fun w => w.2 == x) then (true, s.setBankSt l b.pop)
  else if x.returns && b.waits.any (fun w => w.2 == x) then (false, s)
  else (false, s.setBankSt l { b with waits := b.waits ++ [(s.sclkNow l.stack, x)] })

/-! ### The device's own reads and writes (R120, R161) -/

/-- A line that the Governor or a stack controller writes: it waits at a busy bank like any other access. -/
def State.ownWrite (s : State) (a : Nat) (l : Loc) (data : Line) (mask : LineMask) (poison : Bool) (ctx : Option Nat) : State :=
  let r := s.reach l (.own a data mask poison l ctx)
  if r.1 then r.2.writeMemAt a l data mask poison .channel ctx else r.2

/-- It is such a write to row `row`. -/
def BankAcc.ownRow (row : Nat) : BankAcc → Bool
  | .own _ _ _ _ l _ => decide (l.row = row)
  | _ => false

/-- Such a write is performed. -/
def State.performOwn (s : State) (x : BankAcc) : State :=
  match x with
  | .own a data mask poison l ctx => s.writeMemAt a l data mask poison .channel ctx
  | _ => s

/-- What the device itself does to a row at once comes after its own writes of the row: those that still wait at the bank are
performed. DESIGN CHOICE (notes/assumptions/186.md). -/
def State.flushRow (s : State) (l : Loc) : State :=
  let b := s.bankSt l
  let mine (w : Nat × BankAcc) : Bool := w.2.ownRow l.row
  let kept (n : Nat) : Nat := ((b.waits.take n).filter (fun w => !mine w)).length
  if b.waits.any mine then
    (b.waits.filter mine).foldl (fun s w => s.performOwn w.2) (s.setBankSt l { b with
      waits := b.waits.filter (fun w => !mine w)
      first := kept b.first
      older := kept b.older })
  else s

/-- No step holds the bank, and nothing waits there. -/
def State.bankQuiet (s : State) (l : Loc) : Bool := !s.bankBusy l && (s.bankSt l).waits.isEmpty

/-- One line for the Governor or a stack controller; what host memory holds is not given. -/
def State.govLine (s : State) (c a : Nat) : Got × State :=
  let h : Line := lineOf ((List.range 64).map (fun i => (Config.hostByte (s.drawn + i)).toNat))
  match placeOf a with
  | .window _ => ({ s with drawn := s.drawn + 64 }).fetchLine a false c (some h)
  | .stacked => (s.flushRow (s.locate a)).fetchLine a false c none
  | .scratch core _ => (s.asyncAll core).fetchLine a false c none
  | .reserved => s.fetchLine a false c none

/-- `n` bytes at `a`, and which lines of them were poisoned. -/
def State.govRead (s : State) (c a n : Nat) : List Nat × List Bool × State :=
  let r := (List.range ((a % 64 + n + 63) / 64)).foldl (fun (acc : List Nat × List Bool × State) i =>
    let g := acc.2.2.govLine c ((a / 64 * 64 + 64 * i) % 2 ^ 42)
    (acc.1 ++ bytesOfLine g.1.data, acc.2.1 ++ [g.1.poison], g.2)) ([], [], s)
  ((r.1.drop (a % 64)).take n, r.2.1, r.2.2)

/-- Write bytes at `a`, a line at a time; `poison`: every line poisoned. -/
def State.govWrite (s : State) (c a : Nat) (b : List Nat) (poison : Bool) : State :=
  (List.range ((a % 64 + b.length + 63) / 64)).foldl (fun s i =>
    let start := if i = 0 then a else a / 64 * 64 + 64 * i
    let lm := partialLine start ((b.drop (start - a)).take (64 - start % 64))
    let line := start / 64 * 64
    match placeOf line with
    | .stacked => s.ownWrite line (s.locate line) lm.1 lm.2 poison (some c)
    | .scratch core _ => (s.asyncAll core).placeLine line lm.1 lm.2 poison c
    | _ => s.placeLine line lm.1 lm.2 poison c) s

end Sys2Proof.Machine
end

