-- ==== Sys2Proof/Machine/SkeinOps.lean ====
section
/-!
DEFINITION. Skeins as data: the Skein table, the block map and the free pool (spec/07_skeins_attention.md R169 to R182),
where a token slot lies inside a Skein (R171 to R174), and the scan of one Skein (R140, R142, R143).
-/

namespace Sys2Proof.Machine

/-- Tokens per group for element width `b` and head dimension `d` (R173): the largest G whose scale and element lines fit
16 lines. -/
def groupTokens (b d : Nat) : Nat :=
  ((List.range 57).filter (fun g => decide ((g * d / 16 + 63) / 64 + (g * d * b / 8 + 63) / 64 ≤ 16))).foldl max 1

def scaleLines (b d : Nat) : Nat := (groupTokens b d * d / 16 + 63) / 64

def Skein.d (e : Skein) : Nat := 32 * (e.hd + 1)
def Skein.bits (e : Skein) : Nat := if e.fmt then 4 else 8
def Skein.g (e : Skein) : Nat := groupTokens e.bits e.d
/-- Slots a Skein holds (R173, R191). -/
def Skein.room (e : Skein) : Nat := if e.spec then 63 * e.g else 64 * e.g

/-- Offset in the block of a slot's key elements, and of its key scales (R172, R174); values lie 0x400 above. -/
def elemOff (b d slot : Nat) : Nat :=
  let g := groupTokens b d
  2048 * (slot / g) + 64 * scaleLines b d + slot % g * (d * b / 8)
def scaleOff (b d slot : Nat) : Nat :=
  let g := groupTokens b d
  2048 * (slot / g) + slot % g * (d / 16)

/-! ### The table and the block map -/

/-- An entry as the Governor holds it. -/
def State.putSkein (s : State) (h : Nat) (e : Skein) : State :=
  { s with skeins := { s.skeins with table := sset noSkein s.skeins.table h e } }

/-- Store an entry: the cached lines are written back at once (R178), in every surviving copy. -/
def State.setSkein (s : State) (h : Nat) (e : Skein) : State :=
  let same := (s.skein h).pack == e.pack
  let s := s.putSkein h e
  if same then s
  else
    let i := h / 4 * 4
    s.writeCopies (tableBase + 16 * i) (BitVec.ofNat 512 ((s.skein i).pack + 2 ^ 128 * (s.skein (i + 1)).pack +
      2 ^ 256 * (s.skein (i + 2)).pack + 2 ^ 384 * (s.skein (i + 3)).pack)) fullMask false .busko
def State.setOwner (s : State) (b v : Nat) : State :=
  { s with skeins := { s.skeins with owner := sset noOwner s.skeins.owner b v } }
def State.setDirty (s : State) (b : Nat) : State :=
  { s with skeins := { s.skeins with dirty := nsAdd s.skeins.dirty b, clean := nsDel s.skeins.clean b } }

/-- The block has been ZEROed since it was last freed (R180). -/
def State.blockZeroed (s : State) (b : Nat) : Bool :=
  !s.skeins.dirty.contains b && (!s.skeins.regDirty.contains (b / 65536) || s.skeins.clean.contains b)

/-- Spindle index of a block's bank group. -/
def State.blockSpindle (s : State) (b : Nat) : Nat :=
  let l := s.locate (b * 2 ^ 17)
  256 * l.stack + 16 * l.die + l.bank / 4

def State.spindleDead (s : State) (n : Nat) : Bool := !decide ((s.spindle n).state = .alive)

/-- The four banks of the block's bank group answer. -/
def State.blockAnswers (s : State) (b : Nat) : Bool :=
  let l := s.locate (b * 2 ^ 17)
  [0, 1, 2, 3].all (fun i => s.bankAnswers { l with bank := l.bank / 4 * 4 + i })

/-- The block is withheld, by itself or with its bank group (R364, R377). -/
def State.blockWithheld (s : State) (b : Nat) : Bool :=
  s.skeins.withheld.contains b || (s.skeins.withheldBg.contains (b / 32 % 2048) && !s.skeins.released.contains b)

/-- A block the Governor may allocate: in a SKEIN region, zeroed, unoccupied, neither withheld nor lost, its banks answering
and a Spindle serving it (R168, R178, R180, R182, R364, R377). -/
def State.blockFree (s : State) (b : Nat) : Bool :=
  decide (b < 62 * 65536) && decide (s.rmode (b / 65536) = 2) && s.blockZeroed b &&
    decide (sget noOwner s.skeins.owner b = 0) && !s.blockWithheld b && !s.skeins.lost.contains b &&
    s.blockAnswers b && !decide ((s.spindle (s.blockSpindle b)).state = .deadUnserved)

/-- The first block of region j that passes `p`, among `n` from its block i on, cyclically. -/
def scanRegion (p : Nat → Bool) (j : Nat) : Nat → Nat → Option Nat
  | 0, _ => none
  | n + 1, i =>
    let b := 65536 * j + i % 65536
    if p b then some b else scanRegion p j n (i + 1)

/-- A block of region j that passes `p`, which only free blocks do, from block i on; of a region that counts as not zeroed only
the blocks zeroed since can be free. -/
def State.findInRegion (s : State) (p : Nat → Bool) (j i : Nat) : Option Nat :=
  if ¬ s.rmode j = 2 then none
  else if s.skeins.regDirty.contains j then
    (let l := s.skeins.clean.filter (fun b => decide (b / 65536 = j))
     ((l.filter (fun b => decide (65536 * j + i ≤ b))) ++ l).find? p)
  else scanRegion p j 65536 i

/-- The first block that passes `p` found from block `b` on, region by region, cyclically. -/
def State.findBlock (s : State) (p : Nat → Bool) (b : Nat) : Option Nat :=
  (List.range 63).findSome? (fun n => s.findInRegion p ((b / 65536 + n) % 62) (if n = 0 then b % 65536 else 0))

def State.findHandle (s : State) : Nat → Nat → Option Nat
  | 0, _ => none
  | n + 1, h => if (s.skein (h % 4194304)).st = .free then some (h % 4194304) else s.findHandle n (h + 1)

/-- Blocks a context holds. -/
def State.blocksHeld (s : State) (c : Nat) : Nat :=
  s.skeins.table.foldl (fun n e =>
    if e.2.ctx = c ∧ e.2.st = .resident then n + 1 else if e.2.ctx = c ∧ e.2.st = .moving then n + 2 else n) 0

/-- Blocks of region j that pass `p`, which every block passes that lies outside `groups` and is not in `special`. -/
def countBlocks (j : Nat) (groups : NatSet) (special : List Nat) (p : Nat → Bool) : Nat :=
  let sp := (special.filter (fun b => decide (b / 65536 = j))).eraseDups
  32 * (2048 - groups.length) - (sp.filter (fun b => !groups.contains (b / 32 % 2048))).length + (sp.filter p).length

/-- In the free pool, or there once it has been zeroed. -/
def State.blockUnused (s : State) (b : Nat) : Bool :=
  decide (sget noOwner s.skeins.owner b = 0) && !s.blockWithheld b && !s.skeins.lost.contains b

def State.usedBlocks (s : State) : List Nat :=
  s.skeins.owner.map Prod.fst ++ s.skeins.withheld ++ s.skeins.lost ++ s.skeins.released

/-- Bank groups, by Spindle index, in which no block is free: no Spindle serves them, or a bank does not answer. -/
def State.closedGroups (s : State) : NatSet :=
  (List.range 2048).filter (fun n => s.skeins.withheldBg.contains n || (s.spindle n).state == .deadUnserved ||
    !([0, 1, 2, 3].all (fun i => s.bankAnswers ⟨n / 256, n / 16 % 16, 4 * (n % 16) + i, 0, 0⟩)))

/-- SKN_FREE.BLOCKS: the blocks that may be allocated (R176, R180). -/
def State.freeBlocks (s : State) : Nat :=
  let closed := s.closedGroups
  (List.range 62).foldl (fun n j =>
    if s.rmode j ≠ 2 then n
    else if s.skeins.regDirty.contains j then
      n + (s.skeins.clean.filter (fun b => decide (b / 65536 = j) && s.blockFree b)).length
    else n + countBlocks j closed (s.usedBlocks ++ s.skeins.dirty) s.blockFree) 0

/-- Would one more block pass the context's ceiling (R227)? -/
def State.atCeiling (s : State) (c : Nat) : Bool :=
  let ceil := s.cfld c Reg.govKvHi 22 0
  !decide (ceil = 0) && decide (ceil ≤ s.blocksHeld c)

/-- Where the Governor puts the next Skein of a chain whose last one lies in bank group `last`: a free block, in another bank
group where there is one (R182). Otherwise the choice shows in no result. -/
def State.chooseBlock (s : State) (last : Option Nat) : Option Nat × State :=
  let d := s.draw
  let apart := d.2.findBlock (fun b => d.2.blockFree b && !(last == some (b / 32 % 2048))) d.1
  (if apart.isSome then apart else d.2.findBlock d.2.blockFree d.1, d.2)

/-- Allocate a Skein to a chain behind `prev` (R179): none where no zeroed block can be had or the ceiling is met. -/
def State.allocSkein (s : State) (c : Nat) (fmt : Bool) (hd basepos : Nat) (prev : Option Nat) : Option Nat × State :=
  if s.atCeiling c then (none, s)
  else
    let b := s.chooseBlock (prev.map (fun h => (s.skein h).block / 32 % 2048))
    match b.1 with
    | none => (none, b.2)
    | some blk =>
      let d := b.2.draw
      match d.2.findHandle 4194304 d.1 with
      | none => (none, d.2)
      | some h =>
        let e : Skein := { st := .resident, ctx := c, fmt := fmt, hd := hd, refs := 1, block := blk, basepos := basepos }
        (some h, (d.2.setSkein h e).setOwner blk (h + 1))

def noSpill (_ : Nat) : Nat := 0
def State.setSpill (s : State) (c slot v : Nat) : State :=
  { s with serve := { s.serve with spill := sset noSpill s.serve.spill (c * 2 ^ 24 + slot) v } }

/-- The blocks next to a Skein's in the chains that name it: of the position before it and of the one behind. -/
def nextTo (h : Nat) : List Nat → List Nat
  | a :: b :: rest => (if b = h then [a] else []) ++ (if a = h then [b] else []) ++ nextTo h (b :: rest)
  | _ => []

def State.neighbours (s : State) (h : Nat) : List Nat :=
  let chains := ((s.serve.hanks.map (fun k => k.seqs.map (fun q => q.chains))).flatten ++
    s.serve.held.map (fun x => x.chains)).flatten
  ((chains.map (fun e => nextTo h e.2)).flatten.filter (fun n => (s.skein n).st == .resident)).map (fun n => (s.skein n).block)

/-- A block where the Governor may put a Skein of existing chains (R182): in another bank group than its neighbours there, unless no
free block is. -/
def State.wellPlaced (s : State) (h b : Nat) : Bool :=
  let groups := (s.neighbours h).map (fun n => n / 32 % 2048)
  !groups.contains (b / 32 % 2048) || (s.findBlock (fun x => s.blockFree x && !groups.contains (x / 32 % 2048)) 0).isNone

/-- The block of a lost Skein is to be resealed when it has been ZEROed (R364). -/
def State.noteReseal (s : State) (lost : Bool) (b : Nat) : State :=
  if lost then { s with skeins := { s.skeins with reseal := nsAdd s.skeins.reseal b } } else s

/-- The Skein no longer waits to be relocated from a bank group that no Spindle serves (R168). -/
def State.endEvac (s : State) (h : Nat) : State := { s with serve := { s.serve with evac := nsDel s.serve.evac h } }

/-- The entry becomes FREE: all zero, its block not zeroed until the Governor has ZEROed it (R179, R180). -/
def State.freeSkein (s : State) (h : Nat) : State :=
  let e := s.skein h
  let s := (s.setSkein h {}).endEvac h
  match e.st with
  | .free => s
  | .spilled => s.setSpill e.ctx e.block 0
  | .resident =>
    let s := match e.spillTo with
      | some n => s.setSpill e.ctx n 0
      | none => s
    ((s.setOwner e.block 0).setDirty e.block).noteReseal e.lost e.block
  | .moving =>
    (((((s.setOwner e.block 0).setDirty e.block).setOwner e.dest 0).setDirty e.dest).noteReseal e.lost e.block).noteReseal e.lost e.dest

/-- One chain no longer names the Skein: one that is RESIDENT or SPILLED becomes FREE with its last, one that is being moved once
it is RESIDENT again (Table 7.5). -/
def State.dropRef (s : State) (h : Nat) : State :=
  let e := s.skein h
  if e.st = .free then s
  else if e.refs ≤ 1 then (if e.st = .moving then s.setSkein h { e with refs := 0 } else s.freeSkein h)
  else s.setSkein h { e with refs := e.refs - 1 }

def noChain (_ : Nat) : List Nat := []

def chainHandles (ch : Sparse (List Nat)) : List Nat := (ch.map Prod.snd).flatten

/-- Release every Skein that a sequence's chains name. -/
def State.releaseChains (s : State) (ch : Sparse (List Nat)) : State :=
  (chainHandles ch).foldl (fun s h => s.dropRef h) s

/-! ### Inside a Skein -/

/-- Location of byte `off` of a block, arranged as in a SKEIN region. -/
def State.inBlock (_s : State) (b off : Nat) : Nat × Loc := (b * 2 ^ 17 + off, decodeLoc 2 (b * 2 ^ 17 + off))

/-- Lines of a key or value row that hold fields of its first `k` places (R172). -/
def rowLines (b d k : Nat) : List Nat :=
  List.range ((k * d / 16 + 63) / 64) ++
    (List.range ((k * d * b / 8 + 63) / 64)).map (fun i => i + scaleLines b d)

/-- A Spindle's read of a line: of the lines that fail their check or lie in an UNSEALED row, the first of a command is logged,
the others are not (R142). -/
def State.spindleLine (s : State) (a : Nat) (l : Loc) (f : ScanFlags) : List Nat × ScanFlags × State :=
  let r := s.readLoc a l .spindle none
  let rk := s.rowKey l
  let marked := !r.1.unsealed && classifyLine (s.rawData rk l.line ++ s.rawChk rk l.line) == .poisonMark
  if r.1.poison then
    (bytesOfLine r.1.data, { poison := true, unsealed := f.unsealed || r.1.unsealed, logged := f.logged || !marked },
      if f.logged then
        { r.2 with
          rel := { r.2.rel with log := s.rel.log, logHead := s.rel.logHead, logLost := s.rel.logLost }
          toHost := s.toHost
          ctxs := s.ctxs }
      else r.2)
  else (bytesOfLine r.1.data, f, r.2)

/-- The bytes of scan row q that hold the first `k` places. -/
def State.scanRowBytes (s : State) (blk q b d k : Nat) (f : ScanFlags) : List Nat × ScanFlags × State :=
  (List.range 16).foldl (fun (acc : List Nat × ScanFlags × State) i =>
    if (rowLines b d k).contains i then
      let p := acc.2.2.inBlock blk (1024 * q + 64 * i)
      let r := acc.2.2.spindleLine p.1 p.2 acc.2.1
      (acc.1 ++ r.1, r.2.1, r.2.2)
    else (acc.1 ++ List.replicate 64 0, acc.2.1, acc.2.2)) ([], f, s)

/-- Place t of a row: elements and block scales (R172). -/
def kvPlace (b d t : Nat) (row : List Nat) : KvRow :=
  let sc := (row.drop (t * (d / 16))).take (d / 16)
  let el := (row.drop (64 * scaleLines b d + t * (d * b / 8))).take (d * b / 8)
  { elems := (unpackElems b d (natOfBytes el)).map (signedOf b),
    scales := (unpackElems 16 (d / 32) (natOfBytes sc)).map (BitVec.ofNat 16) }

/-- Rows that a scan of `ntok` slots reads (R174). -/
def scanRows (b d ntok : Nat) : Nat := 2 * ((ntok + groupTokens b d - 1) / groupTokens b d)

/-- Places of scan row q that hold slots below `ntok`. -/
def scanPlaces (b d ntok q : Nat) : Nat := min (groupTokens b d) (ntok - q / 2 * groupTokens b d)

/-- The tokens of a Skein of `ntok` slots, from the rows read. -/
def scanTokens (b d ntok : Nat) (rows : List (List Nat)) : List (KvRow × KvRow) :=
  ((List.range (rows.length / 2)).map (fun p =>
    (List.range (scanPlaces b d ntok (2 * p))).map (fun t =>
      (kvPlace b d t (rows.getD (2 * p) []), kvPlace b d t (rows.getD (2 * p + 1) []))))).flatten

/-- The partials of a SCAN (R140): `masked s` says that slot s is excluded. -/
def scanPartials (b d ntok : Nat) (q : QBuf) (rows : List (List Nat)) (masked : Nat → Bool) : List Partial :=
  let live := ((List.zip (List.range ntok) (scanTokens b d ntok rows)).filter (fun e => !masked e.1)).map Prod.snd
  q.rows.map (fun qr => scanRow d q.sigma qr live)

end Sys2Proof.Machine
end

