-- ==== Sys2Proof/Machine/Work.lean ====
section
/-!
DEFINITION. How work ends: streams on cores (R97, R100), sequences and hanks (R209 to R211), model slots (R198, R201),
and the teardown of a context (R237, R239, R330).
-/

namespace Sys2Proof.Machine

/-! ### Hanks, steps, sequences -/

def State.modHank (s : State) (uid : Nat) (f : Hank → Hank) : State :=
  { s with serve := { s.serve with hanks := s.serve.hanks.map (fun h => if h.uid = uid then f h else h) } }
def State.modStep (s : State) (uid : Nat) (f : StepSt → StepSt) : State :=
  { s with serve := { s.serve with steps := s.serve.steps.map (fun p => if p.uid = uid then f p else p) } }
def State.dropStep (s : State) (uid : Nat) : State :=
  { s with serve := { s.serve with
      steps := s.serve.steps.filter (fun p => !decide (p.uid = uid))
      preempted := s.serve.preempted.filter (fun u => !decide (u = uid)) } }
def State.dropHank (s : State) (uid : Nat) : State :=
  { s with serve := { s.serve with hanks := s.serve.hanks.filter (fun x => !decide (x.uid = uid)) } }
def State.dropLoad (s : State) (q : LoadReq) : State :=
  { s with serve := { s.serve with loads := s.serve.loads.filter (fun x => !decide (x = q)) } }
def Hank.seq (h : Hank) (i : Nat) : Seq := h.seqs.getD i {}
def State.seq (s : State) (uid i : Nat) : Seq := ((s.hankOf uid).map (fun h => h.seq i)).getD {}
def State.modSeq (s : State) (uid i : Nat) (f : Seq → Seq) : State :=
  s.modHank uid (fun h => { h with seqs := h.seqs.modify i f })

def Hank.f (h : Hank) (hi lo : Nat) : Nat := bitsAt h.desc.toNat hi lo
def Hank.tag (h : Hank) : Word := BitVec.ofNat 32 (h.f 63 32)
def Hank.recTag (h : Hank) : Word := BitVec.ofNat 32 (h.f 2015 1984)
def Hank.nseq (h : Hank) : Nat := h.f 73 64 + 1
def Hank.stepRec (h : Hank) : Bool := h.desc.getLsbD 12
def Hank.train (h : Hank) : Bool := h.f 10 9 == 1

/-- The sequence table is read, once and in full (R206): every entry with the code that the read fails it with. SEQ_TAG is 0
where the table fails R115, and at a cancellation also where a line of it is poisoned. -/
def State.readTable (s : State) (uid : Nat) (early : Bool) : State :=
  match s.hankOf uid with
  | none => s
  | some h =>
    if h.stream ∨ ¬ h.seqs = [] then s
    else
      let n := h.nseq
      let base := h.f 169 128
      let ok := s.rangeOk h.ctx base (64 * n) false
      let r := if ok then s.govRead h.ctx base (64 * n) else ([], [], s)
      let noTag := !ok || (early && r.2.1.any (fun b => b))
      let seqs := (List.range n).map (fun i =>
        let e := natOfBytes ((r.1.drop (64 * i)).take 64)
        ({ st := .fresh
           entry := BitVec.ofNat 512 e
           bad := if r.2.1.getD i false then some 0x07 else none
           seqid := bitsAt e 19 0
           keep := e.testBit 20
           tag := if noTag then 0 else BitVec.ofNat 32 (bitsAt e 319 288)
           tokin := bitsAt e 168 128
           tokout := bitsAt e 232 192
           promptLen := bitsAt e 87 64
           maxNew := bitsAt e 119 96 } : Seq))
      r.2.2.modHank uid (fun h => { h with seqs := seqs })

def SeqSt.final : SeqSt → Bool
  | .done => true
  | .held => true
  | _ => false

/-- A HELD sequence keeps committed slots only (R209). -/
def State.trimChains (s : State) (ch : Sparse (List Nat)) : State :=
  (chainHandles ch).foldl (fun s h =>
    let e := s.skein h
    if e.refs = 1 ∧ e.commit < e.ntok then s.setSkein h { e with ntok := e.commit } else s) s

/-- A HELD sequence is freed, with nothing posted but the answer to a compaction it still owed. -/
def State.freeHeld (s : State) (x : Held) (code : Nat) : State :=
  let s := { s with serve := { s.serve with
    held := s.serve.held.filter (fun y => !decide (y.ctx = x.ctx ∧ y.seqid = x.seqid)) } }
  let s := s.releaseChains x.chains
  match x.compact with
  | some t => s.final x.ctx { rkind := 0x13, status := code, tag := t }
  | none => s

def State.freeHeldWhere (s : State) (p : Held → Bool) (code : Nat) : State :=
  (s.serve.held.filter p).foldl (fun s x => s.freeHeld x code) s

/-! ### Model slots (R198, R201, R367, R369) -/

/-- A step of the slot's model is running or pre-empted. -/
def State.modelStepping (s : State) (m : Nat) : Bool :=
  s.serve.steps.any (fun p => match s.hankOf p.hank with
    | some h => !h.stream && decide (h.model = m)
    | none => false)

/-- A MODEL_LOAD is applied (R198, R201): it ends a quarantine that is in force (R369). -/
def State.applyLoad (s : State) (q : LoadReq) : State :=
  let old := s.model q.slot
  let s := if old.isSome then s.freeHeldWhere (fun x => decide (x.model = q.slot)) 0x03 else s
  let s := s.setModel q.slot (some { rec_ := q.rec_, unload := old.bind (fun m => m.unload) })
  let s := s.dropLoad q
  let r : Completion := { rkind := 0x50, tag := q.tag }
  if old.any (fun m => m.quarantined) then
    s.post 0 (.both r { ekind := 0x0A, aux := BitVec.ofNat 32 q.slot, tick := s.tick32 })
  else s.final 0 r

/-- The loads of a slot of which no step runs. -/
def State.applyLoads (s : State) (m : Nat) : State :=
  if s.modelStepping m then s
  else (s.serve.loads.filter (fun q => decide (q.slot = m))).foldl (fun s q => s.applyLoad q) s

/-- Loads and unloads that no running step or hank holds up any more. What replaces a model does so at the next tick boundary, after
the quarantines that are due there (R369, R395). -/
def State.settleModels (s : State) : State :=
  let s := s.serve.loads.foldl (fun s q =>
    if s.modelStepping q.slot then s
    else if (s.model q.slot).isSome then s.atBoundary (.load q.slot)
    else s.applyLoad q) s
  s.serve.models.foldl (fun s e =>
    match e.2 with
    | some m =>
      match m.unload with
      | some tag =>
        if s.serve.hanks.any (fun h => !h.stream && decide (h.model = e.1)) then s
        else
          ((s.setModel e.1 none).freeHeldWhere (fun x => decide (x.model = e.1)) 0x03).final 0 { rkind := 0x51, tag := tag }
      | none => s
    | none => s) s

/-! ### Step banks (R274) -/

/-- The key of a counter of bank b. -/
def bankKey (b key : Nat) : Bool := decide (4096 + 256 * b ≤ key ∧ key < 4096 + 256 * (b + 1))

/-- The bank is freed: an increment of it that is still owed reaches no counter. -/
def State.freeBank (s : State) (b : Nat) : State :=
  let stale (c : Nat) (bank : Option Nat) (tc : Option Nat) : Bool := tc.any (fun n => bankKey b (s.tcKey c bank n))
  let t := s.cores.foldl (fun s e => s.modCore e.1 (fun k => { k with
    fetches := k.fetches.map (fun f => if stale f.ctx f.bank f.tc then { f with tc := none } else f)
    puts := k.puts.map (fun q => if stale q.ctx q.bank q.tc then { q with tc := none } else q)
    late := k.late.filter (fun g => !bankKey b g.key) })) s
  let t := t.ctxs.foldl (fun t e => t.modCtx e.1 (fun x => { x with posts := x.posts.filter (fun w => match w.post with
    | .tally tc bank _ => !stale e.1 bank (some tc)
    | .final _ => true
    | .both _ _ => true
    | .step _ => true
    | .event _ => true) })) t
  { t with
    banks := nsDel t.banks b
    serve := { t.serve with rows := t.serve.rows.map (fun r =>
      if r.tc.any (fun k => bankKey b k) then { r with tc := none } else r) } }

/-! ### Readiness (R210, R223) -/

def State.quarantinedSlot (s : State) (m : Nat) : Bool := (s.model m).any (fun x => x.quarantined)

/-- A step of the hank may start: its context is not being torn down, its model is loaded, not quarantined, and no load waits for
its slot (R198, R203, R330). -/
def State.mayStart (s : State) (h : Hank) : Bool :=
  (s.ctx h.ctx).closing.isNone && (h.stream || ((s.model h.model).isSome && !s.quarantinedSlot h.model &&
    !s.serve.loads.any (fun q => decide (q.slot = h.model))))

/-- R210; a hank not yet selected has its sequences still to be read. -/
def State.hankReady (s : State) (h : Hank) : Bool :=
  s.mayStart h && (h.st == .queued ||
    (!h.stream && h.st == .active && h.seqs.any (fun q => q.st == .prefill || q.st == .decode)))

/-- Contexts with a ready hank of a class. -/
def State.readyCtxs (s : State) (lc : Bool) : List Nat :=
  (List.range 64).filter (fun c => s.serve.hanks.any (fun h => decide (h.ctx = c) && h.lc == lc && s.hankReady h))

def noVt (_ : Nat) : BitVec 64 := 0
def vtKey (c : Nat) (lc : Bool) : Nat := 2 * c + (if lc then 1 else 0)
def State.vt (s : State) (k : Nat) : BitVec 64 := sget noVt s.serve.vt k

/-- The least virtual time among contexts. -/
def State.leastVt (s : State) (lc : Bool) (cs : List Nat) : Option Nat :=
  cs.foldl (fun (w : Option Nat) c => match w with
    | none => some (s.vt (vtKey c lc)).toNat
    | some v => some (min v (s.vt (vtKey c lc)).toNat)) none

/-- A context that gains a ready hank in a class, having had none, starts at the least virtual time of the others. -/
def State.catchUp (s : State) (lc : Bool) : State :=
  let now := s.readyCtxs lc
  let s := match s.leastVt lc (now.filter (fun c => s.serve.had.contains (vtKey c lc))) with
    | none => s
    | some v => (now.filter (fun c => !s.serve.had.contains (vtKey c lc))).foldl (fun s c =>
        { s with serve := { s.serve with
            vt := sset noVt s.serve.vt (vtKey c lc) (BitVec.ofNat 64 (max v (s.vt (vtKey c lc)).toNat)) } }) s
  { s with serve := { s.serve with had := (List.range 64).foldl (fun m c =>
      nsPut m (vtKey c lc) (now.contains c)) s.serve.had } }

/-- The same in both classes. -/
def State.noteReady (s : State) : State := (s.catchUp true).catchUp false

/-! ### The end of a sequence and of a hank -/

/-- The hank is complete once every sequence is DONE or HELD (R210, R211). -/
def State.settleHank (s : State) (uid : Nat) (status : Nat) : State :=
  match s.hankOf uid with
  | none => s
  | some h =>
    if ¬ h.seqs = [] ∧ h.seqs.all (fun q => q.st.final) ∧ ¬ s.serve.steps.any (fun p => decide (p.hank = uid)) then
      let s := s.dropHank uid
      (s.final h.ctx { rkind := 0x10, status := status, tag := h.tag, aux := BitVec.ofNat 32 h.okCount }).settleModels
    else s

/-- Complete one sequence with a final code (R209, R211). -/
def State.endSeq (s : State) (uid i code : Nat) : State :=
  match s.hankOf uid with
  | none => s
  | some h =>
    let q := h.seq i
    if q.st.final then s
    else
      let keep := q.keep && decide (code = 0)
      let s :=
        if keep then
          let s := s.trimChains q.chains
          { s with serve := { s.serve with held := s.serve.held ++
            [⟨h.ctx, q.seqid, h.model, q.committed, q.chains, q.home, q.lastStep, q.compact, uid, i⟩] } }
        else
          let s := s.releaseChains q.chains
          match q.compact with
          | some t => s.final h.ctx { rkind := 0x13, status := if code = 0x09 then 0x09 else 0x03, tag := t }
          | none => s
      let s := s.modHank uid (fun h => { h with
        seqs := h.seqs.modify i (fun q => { q with
          st := if keep then .held else .done
          chains := []
          compact := none
          status := code })
        okCount := if code = 0 then h.okCount + 1 else h.okCount })
      let r : Completion := { ckind := 2, rkind := 0x10, status := code, tag := h.tag, aux := q.tag, slot := i, count := q.out }
      let ev (e : BitVec 64 × Nat) : Event := { errorEvent h.ctx e.1 h.tag with tick := e.2 }
      match q.errs with
      | [] => s.final h.ctx r
      | e :: es => es.foldl (fun s e => s.post h.ctx (.event (ev e))) (s.post h.ctx (.both r (ev e)))

/-- Complete every sequence that is not final. -/
def State.endAllSeqs (s : State) (uid code : Nat) : State :=
  match s.hankOf uid with
  | none => s
  | some h => (List.range h.seqs.length).foldl (fun s i => s.endSeq uid i code) s

/-- The code of an end that waits for the next tick boundary; CANCELLED gives way to any other (R222). -/
def State.endPending (s : State) (uid i : Nat) : Option Nat :=
  let codes := (s.rel.boundary ++ s.rel.asked).filterMap (fun b => match b with
    | .seqEnds u j c => if u = uid ∧ j = i then some c else none
    | _ => none)
  match codes.find? (fun c => !decide (c = 0x01)) with
  | some c => some c
  | none => codes.head?

/-- The hank has taken its last step (R209): its sequences complete, which displaces no end that one already awaits (R222). -/
def State.endAtMax (s : State) (uid : Nat) : State :=
  match s.hankOf uid with
  | none => s
  | some h => (List.range h.seqs.length).foldl (fun s i => s.endSeq uid i ((s.endPending uid i).getD 0)) s

def State.endHank (s : State) (uid code status : Nat) : State := (s.endAllSeqs uid code).settleHank uid status

/-! ### Lost Skeins (R142, R178, R351, R363) -/

/-- A chain of the sequence names the Skein. -/
def namesSkein (ch : Sparse (List Nat)) (h : Nat) : Bool := (chainHandles ch).contains h

/-- A sequence ends with a code: a stepping one at the end of its step, CANCELLED giving way to any other code (R222). -/
def State.seqEnds (s : State) (uid i code : Nat) : State :=
  let q := s.seq uid i
  if q.st = .stepping then s.modSeq uid i (fun q =>
    if code = 0x01 then { q with cancel := true } else { q with fate := some (q.fate.getD code) })
  else (s.endSeq uid i code).settleHank uid 0

/-- A sequence ends: at the end of its step, or at the next tick boundary (R222, R363). -/
def State.askEnd (s : State) (uid i code : Nat) : State :=
  if (s.seq uid i).st = .stepping then s.seqEnds uid i code
  else if (s.seq uid i).st.final then s
  else s.atBoundary (.seqEnds uid i code)

/-- The sequences whose chains name a Skein end; HELD ones are freed. -/
def State.endNaming (s : State) (handle code : Nat) : State :=
  let s := (s.serve.held.filter (fun x => namesSkein x.chains handle)).foldl (fun s x => s.atBoundary (.heldEnds x.ctx x.seqid)) s
  s.serve.hanks.foldl (fun s h => (List.range h.seqs.length).foldl (fun s i =>
    if namesSkein (s.seq h.uid i).chains handle then s.askEnd h.uid i code else s) s) s

def State.loseSkein (s : State) (handle : Nat) (uns : Bool) : State :=
  let s := if uns then s else s.setSkein handle { s.skein handle with lost := true }
  s.endNaming handle (if uns then 0x0D else 0x06)

/-- The read of a spill slot fails (R351): the Skein is lost, and HOST_ERROR follows the completion record of the sequence for
which it was to be restored (R348). -/
def State.restoreFailed (s : State) (c handle : Nat) (bus : BitVec 64) : State :=
  let wants (k : Hank) : Option (Nat × Nat) :=
    (k.seqs.zipIdx.find? (fun q => q.1.restore && namesSkein q.1.chains handle)).map (fun q => (k.uid, q.2))
  let s := match s.serve.hanks.findSome? wants with
    | some u => (s.countError c).modSeq u.1 u.2 (fun q => { q with errs := q.errs ++ [(bus, s.tick32)] })
    | none => s.hostError c bus
  s.loseSkein handle false

/-! ### Streams -/

def TqState.code : TqState → Nat
  | .run => 0
  | .hold => 1
  | .underrun => 2
  | .preempted => 3
  | .ended => 4
  | .stopped => 5

/-- The treadle status record of a HOST source (R97). -/
def State.statusRecord (s : State) (core : Nat) (t : Stream) : State :=
  match t.src with
  | .program _ _ => s
  | .host _ addr =>
    if !(s.ctx t.ctx).busMaster || s.pwr.safe.isSome || !s.powered then s
    else
      (s.modCtx t.ctx (fun x => { x with writes := x.writes + 1 })).send (.treadleStatus t.ctx addr
        (BitVec.ofNat 128 (packFields [(0, 32, t.retired.toNat), (32, 32, t.fetched.toNat),
          (64, 32, t.produced.toNat), (96, 8, t.state.code), (104, 8, t.status), (112, 8, core)])))

/-- Put a stream back, with a status record when its STATE has changed. -/
def State.putStream (s : State) (core : Nat) (old new : Stream) : State :=
  let s := s.setStream core (some new)
  if old.state = new.state then s else s.statusRecord core new

/-- Core groups of a mask. -/
def groupCount (m : BitVec 8) : Nat := ((List.range 8).filter (fun i => m.getLsbD i)).length

/-- A hold ends otherwise than by what it waited for: its ACLK cycles are counted where R98 counts them. The spec gives no
moment within a tick, so that the count is a free value within what the ticks of the hold allow (notes/assumptions/151.md). -/
def State.countHold (s : State) (core : Nat) : State :=
  match (s.core core).stream.bind (fun t => t.hold) with
  | none => s
  | some (k, since) =>
    let n := s.tick - since
    let d := s.draw
    let cycles : Word := BitVec.ofNat 32 (if n = 0 then d.1 % 700 else 700 * (n - 1) + d.1 % 1400)
    d.2.modCore core (fun x => match k with
      | .underrun => { x with underrun := x.underrun + cycles }
      | .hazard => x
      | _ => { x with holdCycles := x.holdCycles + cycles })

/-- Virtual time at the end of a step (R223): group-ticks without the time spent pre-empted, by weight. -/
def State.chargeTime (s : State) (p : StepSt) : State :=
  let run := s.tick - p.start - p.away
  let k := vtKey p.ctx p.lc
  let add := run * groupCount p.mask * 65536 / max 1 (s.cfld p.ctx Reg.govShare 15 8)
  { s with serve := { s.serve with vt := sset noVt s.serve.vt k (s.vt k + BitVec.ofNat 64 add) } }

/-- A STREAM record completes when every stream of it has ended (R347). -/
def State.settleStream (s : State) (uid : Nat) : State :=
  match s.stepOf uid with
  | none => s
  | some p =>
    let alive := s.cores.any (fun e => match e.2.stream with
      | some t => decide (t.work = uid)
      | none => false)
    if ¬ p.phase = .stream ∨ alive then s
    else
      let bad := p.ends.filter (fun e => !decide (e.2.1 = 0))
      let worst := bad.foldl (fun (w : Option (Nat × Nat)) e =>
        match w with
        | some v => if e.1 < v.1 then some (e.1, e.2.1) else some v
        | none => some (e.1, e.2.1)) none
      match s.hankOf p.hank with
      | none => s.dropStep uid
      | some h =>
        let s := (s.chargeTime p).dropStep uid
        let s := s.dropHank h.uid
        (s.final h.ctx {
          rkind := 0x40, tag := h.recTag, status := (worst.map Prod.snd).getD 0
          core := (worst.map Prod.fst).getD 0 }).noteReady

/-- Codes of a core's end that fail a phase of a hank step (R221). -/
def failsPhase (code : Nat) : Bool := code == 0x03 || code == 0x07 || code == 0x0C || code == 0x0F

/-! ### Teardown (R237, R239, R330) -/

def noEngine (_ : Nat) : WEngine := {}
def State.engine (s : State) (e : Nat) : WEngine := sget noEngine s.winder.engines e
def State.setEngine (s : State) (e : Nat) (x : WEngine) : State :=
  { s with winder := { s.winder with engines := sset noEngine s.winder.engines e x } }

/-- Requests being served, keyed port, or 8 + engine. -/
def noTaken (_ : Nat) : Taken := {}
def State.takenOf (s : State) (k : Nat) : Taken := sget noTaken s.twine.taken k
def State.setTaken (s : State) (k : Nat) (t : Taken) : State :=
  { s with twine := { s.twine with taken := sset noTaken s.twine.taken k t } }

/-- An engine has nothing in hand any more. -/
def State.idleEngine (s : State) (e : Nat) : State :=
  (s.setEngine e { last := (s.engine e).last }).setTaken (8 + e) {}

/-! #### Ports -/

def TxPkt.items (p : TxPkt) : Nat := 2 + p.data.length

def noPort (_ : Nat) : TPort := {}
def State.port (s : State) (p : Nat) : TPort := sget noPort s.twine.ports p
def State.setPort (s : State) (p : Nat) (x : TPort) : State :=
  { s with twine := { s.twine with ports := sset noPort s.twine.ports p x } }
def State.modPort (s : State) (p : Nat) (f : TPort → TPort) : State := s.setPort p (f (s.port p))

/-- Items held in a port's egress FIFO. -/
def TPort.egress (x : TPort) : Nat := (x.lnk ++ x.rsp ++ x.req).foldl (fun n k => n + k.items) 0

/-- LINK packets that wait for room enter the egress FIFO as far as it goes (R300). -/
def TPort.admitLnk (x : TPort) : Nat → TPort
  | 0 => x
  | n + 1 =>
    match x.lnkWait with
    | [] => x
    | k :: ks =>
      if 8192 < x.egress + k.items then x else TPort.admitLnk { x with lnk := x.lnk ++ [k], lnkWait := ks } n

/-- CREDIT mode. -/
def State.creditMode (s : State) (p : Nat) : Bool := decide (s.fld (Reg.twnPCtl p) 1 1 = 0)

/-- What waits for room enters the FIFO; class heads that wait for credit, each with the tick its wait began (R300, R302). -/
def State.watchCredit (s : State) (p : Nat) : State :=
  let x := (s.port p).admitLnk (s.port p).lnkWait.length
  let need (q : List TxPkt) (c : Nat) : Bool := match q with
    | h :: _ => decide (c < h.items)
    | [] => false
  let upd (m : Sparse Nat) (k : Nat) (on : Bool) : Sparse Nat :=
    if on then (if m.any (fun e => decide (e.1 = k)) then m else sput m k s.tick) else sdel m k
  let on := s.creditMode p && x.st == .up
  let h0 := upd x.heads 0 (on && need x.lnk x.credit.lnk)
  let h1 := upd h0 1 (on && need x.rsp x.credit.rsp)
  s.setPort p { x with heads := upd h1 2 (on && need x.req x.credit.req) }

/-- A class head that is gone waits for credit no more: the next head's wait begins (R302). -/
def TPort.newHead (x y : TPort) : TPort := if x.req.head? = y.req.head? then y else { y with heads := sdel y.heads 2 }

/-- A request is outstanding no more, and leaves its port if it waits there. -/
def State.dropReq (s : State) (tag : Nat) : State :=
  let mine (k : TxPkt) : Bool := decide (k.own = some tag)
  let t := { s with twine := { s.twine with
      reqs := s.twine.reqs.filter (fun r => !decide (r.tag = tag))
      ports := s.twine.ports.map (fun e => (e.1, e.2.newHead { e.2 with req := e.2.req.filter (fun k => !mine k) })) } }
  s.twine.ports.foldl (fun t e => if e.2.req.any mine then t.watchCredit e.1 else t) t

/-- At an FLR the Twine requests outstanding for an engine's descriptor are abandoned; their tags are freed as after a timeout. -/
def State.abandon (s : State) (e : Nat) : State :=
  let gone := s.twine.reqs.filter (fun r => decide (r.eng = e))
  let free := s.tick + 16 * s.fld Reg.twnReqTo 19 0
  let s := gone.foldl (fun s r => s.dropReq r.tag) s
  { s with twine := { s.twine with late := s.twine.late ++ gone.map (fun (r : RemReq) => (r.tag, free)) } }

/-- An engine that runs a descriptor of the context stops before its next access (R239); under an FLR its remote requests are
abandoned (R331). -/
def State.stopEngine (s : State) (c e : Nat) (flr : Bool) : State :=
  let x := s.engine e
  if x.desc.any (fun d => decide (d.ctx = c)) then
    (let s := if flr then s.abandon e else s
     s.setEngine e { x with torn := true, wait := none, stop := some (0x09, 0), rpos := x.pos, land := if flr then [] else x.land })
  else s

/-- The engines that run descriptors of a context stop. -/
def State.stopWinder (s : State) (c : Nat) (flr : Bool) : State :=
  (List.range 16).foldl (fun s e => s.stopEngine c e flr) s

/-- A stopped engine's accesses already issued have completed: no remote request is outstanding and no data wait to be written. -/
def State.engineQuiet (s : State) (e : Nat) : Bool :=
  (s.engine e).land.isEmpty && !s.twine.reqs.any (fun r => decide (r.eng = e))

/-- Every running and queued Winder descriptor of a torn-down context completes (R239). -/
def State.tearWinder (s : State) (c : Nat) : State :=
  let s := (List.range 16).foldl (fun s e =>
    let x := s.engine e
    match x.desc with
    | some d =>
      if d.ctx = c then (s.idleEngine e).final c { rkind := 0x20, status := 0x09, tag := d.tag, count := x.committed } else s
    | none => s) s
  let gone := s.winder.queue.filter (fun d => decide (d.ctx = c))
  let s := { s with winder := { s.winder with queue := s.winder.queue.filter (fun d => !decide (d.ctx = c)) } }
  gone.foldl (fun s d => s.final c { rkind := 0x20, status := 0x09, tag := d.tag }) s

/-- A stream of a context that is torn down stops at its word boundary: at once where it stands at one. -/
def State.stopStream (s : State) (core : Nat) (t : Stream) (mute : Bool) : State :=
  let s := s.countHold core
  (if mute then s else s.statusRecord core { t with state := .stopped, status := 0x09 }).closeStream core t

/-- The streams of one context stop at a word boundary; what their retired words have outstanding is still performed (R87, R330).
Under an FLR they stop at once, and no fetch and signal of the function is left (notes/assumptions/16.md). -/
def State.stopStreams (s : State) (c : Nat) (mute flr : Bool) : State :=
  s.cores.foldl (fun s e =>
    let s := match s.stream e.1 with
      | some t =>
        if ¬ t.ctx = c then s
        else if t.pos = 0 ∨ flr then s.stopStream e.1 t mute
        else
          (s.setStream e.1 (some { t with halt := some (some 0x09) })).modCore e.1 (fun k => { k with stopReq := some s.tick })
      | none => s
    if flr then s.modCore e.1 (fun k => { k with
      fetches := k.fetches.filter (fun f => !decide (f.ctx = c))
      late := k.late.filter (fun g => !decide (g.ctx = c)) })
    else s) s

/-- One hank, or STREAM record, of a torn-down context. -/
def State.tearHank (s : State) (h : Hank) : State :=
  if h.stream then
    (s.final h.ctx { rkind := 0x40, tag := h.recTag, status := 0x09 }).dropHank h.uid
  else
    ((s.readTable h.uid true).endAllSeqs h.uid 0x09).settleHank h.uid 0x09

/-- The saved HOST streams of a context's pre-empted steps end (R97). -/
def State.endSaved (s : State) (c : Nat) : State :=
  (s.serve.steps.filter (fun p => decide (p.ctx = c))).foldl (fun s p => p.saved.foldl (fun s x =>
    match x.stream with
    | some t => s.statusRecord x.core { t with state := .stopped, status := 0x09 }
    | none => s) s) s

/-- The steps of a context, named in `gone`, are gone: their plans, merge rows and counter banks, and the context's
virtual times and charges. -/
def State.dropWork (s : State) (c : Nat) (gone : List Nat) : State :=
  let s := (s.serve.steps.filter (fun p => gone.contains p.uid)).foldl (fun s p => s.freeBank p.bank) s
  let left := s.serve.steps.filter (fun p => !gone.contains p.uid)
  { s with
    serve := { s.serve with
      steps := left
      preempted := s.serve.preempted.filter (fun u => !gone.contains u)
      plans := s.serve.plans.filter (fun p => !gone.contains p.step)
      rows := s.serve.rows.filter (fun r => !gone.contains r.step)
      vt := sdel (sdel s.serve.vt (2 * c)) (2 * c + 1)
      charged := sdel s.serve.charged c
      had := nsDel (nsDel s.serve.had (2 * c)) (2 * c + 1) } }

/-- The step belongs to a row request of the context. -/
def PStep.ofCtx (q : PStep) (c : Nat) : Bool :=
  match q.act with
  | .request x _ => decide (x = c)
  | _ => false

/-- The command serves a row request of the context. -/
def SpdCmd.ofCtx (x : SpdCmd) (c : Nat) : Bool := x.owner.any (fun o => decide (o.1 = c))

/-- Steps of a context's row requests that are pending, or queued at a Spindle, go; a step already granted, and a command
already started, runs to its end (R135). -/
def State.dropRowSteps (s : State) (c : Nat) : State :=
  let s := s.rowLogic.foldl (fun s e =>
    let r := s.rowOf e.1
    s.setRow e.1 { r with pend := r.pend.filter (fun q => !q.ofCtx c) }) s
  let keep (x : SpdCmd) : Bool := !x.ofCtx c
  s.spindles.foldl (fun s e =>
    let p := s.spindle e.1
    s.setSpindle e.1 { p with queue := p.queue.filter keep, backlog := p.backlog.filter keep }) s

/-! ### Puts that have passed their destination points (R264) -/

/-- A put has passed its destination point. -/
def State.putDone (s : State) (q : PutReq) : Bool :=
  match q.sent with
  | some m => decide (m ≤ (s.ctx q.ctx).flushed)
  | none => false

/-- They are outstanding no more. -/
def State.dropPuts (s : State) : State :=
  s.cores.foldl (fun s e =>
    let k := s.core e.1
    if k.puts.any s.putDone then s.setCore e.1 { k with puts := k.puts.filter (fun q => !s.putDone q) } else s) s

/-! ### Teardown of a context (R330) -/

/-- No stream of the context runs, the accesses of its engines have completed, and no step of its row requests is in progress at
a Spindle (R330). -/
def State.stopped (s : State) (c : Nat) : Bool :=
  s.cores.all (fun e => match e.2.stream with
    | some t => !decide (t.ctx = c)
    | none => true) &&
  (List.range 16).all (fun e => (s.engine e).desc.all (fun d => !decide (d.ctx = c)) || s.engineQuiet e) &&
  s.spindles.all (fun e => e.2.run.all (fun x => !x.ofCtx c))

/-- Accepted loads and unloads of model slots end with context 0. -/
def State.tearModels (s : State) : State :=
  let s := s.serve.loads.foldl (fun s q => (s.final 0 { rkind := 0x50, tag := q.tag, status := 0x09 }).dropLoad q) s
  s.serve.models.foldl (fun s e => match e.2 with
    | some m => match m.unload with
      | some t => (s.setModel e.1 (some { m with unload := none })).final 0 { rkind := 0x51, tag := t, status := 0x09 }
      | none => s
    | none => s) s

/-- The steps of a torn-down context do no more at once, although their counter banks and merge identities stay until its streams
have stopped: no attention, no merge output and no Spindle output of theirs is left (R237, R330). -/
def State.muteSteps (s : State) (c : Nat) : State :=
  let gone := (s.serve.steps.filter (fun p => decide (p.ctx = c))).map (fun p => p.uid)
  { s with serve := { s.serve with
      plans := s.serve.plans.filter (fun p => !gone.contains p.step)
      rows := s.serve.rows.filter (fun r => !gone.contains r.step) } }

/-- The context's hanks, sequences, Skeins and spill slots are released, and every accepted record completes. -/
def State.tearRecords (s : State) (c : Nat) : State :=
  let gone := (s.serve.steps.filter (fun p => decide (p.ctx = c))).map (fun p => p.uid)
  let s := ((if s.muted c then s else s.endSaved c).dropWork c gone).tearWinder c
  let s := (s.serve.hanks.filter (fun h => decide (h.ctx = c))).foldl (fun s h => s.tearHank h) s
  let s := s.freeHeldWhere (fun x => decide (x.ctx = c)) 0x09
  let s := { s with serve := { s.serve with spill := s.serve.spill.filter (fun e => !decide (e.1 / 2 ^ 24 = c)) } }
  let s := if c = 0 then s.tearModels else s
  let s := (s.ctx c).rowQ.foldl (fun s r => s.final c { rkind := 0x30, tag := r.tag, status := 0x09, count := r.done })
    (s.modCtx c (fun x => { x with rowQ := [] }))
  match (s.ctx c).barrier with
  | some t => (s.modCtx c (fun x => { x with barrier := none })).final c { rkind := 0x01, tag := t, status := 0x09 }
  | none => s

/-- Once its streams and engines have stopped, the context is torn down: records, events, FAULTED, and what follows. -/
def State.finishTeardown (s : State) (c : Nat) : State :=
  match (s.ctx c).closing with
  | none => s
  | some k =>
    if k.told || !(k.flr || s.stopped c) then s
    else
      let s := s.tearRecords c
      let s := s.event c (s.tornEvent c k)
      (s.modCtx c (fun x => { x with
        credits := []
        overruns := []
        closing := x.closing.map (fun k => { k with told := true }) })).closed c

/-- Records, and what waits behind host-window writes, of a function that no request may be made for: increments whose flush read
is under way wait for it, the others are made (notes/assumptions/155.md). -/
def State.orphans (s : State) (c : Nat) : State :=
  let x := s.ctx c
  if x.busMaster || !x.flushes.isEmpty then s
  else x.posts.foldl (fun s w => s.mutePost c w.post) (s.modCtx c (fun x => { x with posts := [] }))

/-- Nothing is left to post. -/
def State.dropPosts (s : State) (c : Nat) : State :=
  let x := s.ctx c
  (x.posts.foldl (fun s w => s.mutePost c w.post) (s.modCtx c (fun x => { x with
    posts := [], flushes := [], flushed := x.writes }))).dropPuts

/-- What waits to be posted to a function that is told nothing: increments alone. -/
def State.mutePosts (s : State) (c : Nat) : State :=
  (s.modCtx c (fun x => { x with posts := x.posts.filter (fun w => w.post.isTally) })).orphans c

/-- A context that holds accepted work is torn down. -/
def State.teardownFor (s : State) (c : Nat) (k : Closing) : State :=
  let on := (s.ctx c).closing.isSome
  if !on && !decide ((s.ctx c).st = .running ∨ (s.ctx c).st = .stopping) then s
  else if on && !k.flr then s
  else
    let s := s.modCtx c (fun x => { x with closing := some k })
    let s := if k.mute then s.mutePosts c else s
    let s := ((((s.muteSteps c).stopWinder c k.flr).dropRowSteps c).stopStreams c k.mute k.flr).dropPuts
    s.finishTeardown c

/-- A context is torn down with a cause of Table 12.10; `mute`: nothing is posted to its function. -/
def State.teardown (s : State) (c cause : Nat) (mute : Bool) : State := s.teardownFor c { cause := cause, mute := mute }

/-- HANK_TAG or REC_TAG of the record that a step works for. -/
def State.workTag (s : State) (uid : Nat) : Word :=
  match (s.stepOf uid).bind (fun p => s.hankOf p.hank) with
  | some h => if h.stream then h.recTag else h.tag
  | none => 0

/-- The tag of the work that a core does for a context. -/
def State.coreTag (s : State) (core c : Nat) : Word :=
  match s.stream core with
  | some t => if t.ctx = c then s.workTag t.work else 0
  | none => 0

/-! ### The end of a stream (R100, R221) -/

/-- The other cores of a failed phase stop at their next word boundary (R221). -/
def State.haltStep (s : State) (uid : Nat) : State :=
  s.cores.foldl (fun s e => match s.stream e.1 with
    | some t =>
      if t.work = uid then
        (if t.pos = 0 then (s.countHold e.1).closeStream e.1 t
          else s.setStream e.1 (some { t with halt := some (t.halt.getD none) })).modCore e.1 (fun k => { k with stopReq := some s.tick })
      else s
    | none => s) s

/-- A stream ends on a core with a final code. A failing core of a hank step stops the step's other cores (R221). -/
def State.endStream (s : State) (core code : Nat) : State :=
  match s.stream core with
  | none => s
  | some t =>
    let t1 := { t with state := if code = 0 then .ended else .stopped, status := code }
    let s := ((s.countHold core).statusRecord core t1).closeStream core t
    let s := s.modStep t.work (fun p => { p with ends := p.ends ++ [(core, code, s.tick)] })
    if (s.ctx t.ctx).closing.isSome then s.finishTeardown t.ctx
    else match s.stepOf t.work with
    | none => s
    | some p =>
      if p.phase = .stream then s.settleStream t.work
      else if failsPhase code then s.haltStep t.work
      else s

/-- END has retired, every signal has been made (R100), and the stream's fetches have landed (Table 10.4). The final code of a
host stream shows poison it read (Table 13.2). -/
def State.tryEnd (s : State) (core : Nat) : State :=
  match s.stream core with
  | none => s
  | some t =>
    if t.ending && t.sigs.isEmpty && (s.core core).late.all (fun g => !decide (g.ctx = t.ctx)) &&
        (s.core core).fetches.all (fun f => !decide (f.ctx = t.ctx)) then
      let host : Bool := (s.stepOf t.work).map (fun p => decide (p.phase = .stream)) == some true
      s.endStream core (if host = true then (match t.poison with
        | some true => 0x0D
        | some false => 0x07
        | none => 0) else 0)
    else s

/-! ### Signals that outlive their stream (R83, R87) -/

/-- The effects before a signal's mark have all been performed (R83). -/
def State.sigReady (s : State) (core mark : Nat) : Bool :=
  let c := s.core core
  c.fetches.all (fun f => !decide (f.id < mark)) && c.puts.all (fun q => !decide (q.id < mark) || s.putDone q)

/-- The oldest signal owed by streams that have stopped is made. -/
def State.lateSignal (s : State) (core : Nat) : State :=
  match (s.core core).late with
  | g :: gs =>
    if s.sigReady core g.mark then ((s.tcAdd g.key g.inc).modCore core (fun k => { k with late := gs })).tryEnd core else s
  | [] => s

end Sys2Proof.Machine
end

