-- ==== Sys2Proof/Machine/Records.lean ====
section
/-!
DEFINITION. Submission records (spec/12_host_interface.md R334 to R338): when the device takes the next record of a ring,
and how it refuses a malformed one.
-/

namespace Sys2Proof.Machine

/-- Bits hi:lo of a record. -/
def recField (r : Record) (hi lo : Nat) : Nat := bitsAt r.toNat hi lo
def recKind (r : Record) : Nat := recField r 7 0
def recTag (r : Record) : Word := BitVec.ofNat 32 (recField r 2015 1984)

/-- Bits lo to hi set. -/
def span (lo hi : Nat) : Nat := (2 ^ (hi + 1 - lo) - 1) * 2 ^ lo
def spans (l : List (Nat × Nat)) : Nat := l.foldl (fun m e => Nat.lor m (span e.1 e.2)) 0

/-- Byte that holds the lowest-numbered bit set in `v` outside `mask`, among the bits from `lo` to `hi`. -/
def lowestOutside (v mask lo hi : Nat) : Option Nat :=
  ((List.range (hi + 1 - lo)).find? (fun i => v.testBit (lo + i) && !mask.testBit (lo + i))).map (fun i => (lo + i) / 8)

/-- The lowest byte offset of a condition that fails (R336). -/
def lowestBad : List (Nat × Bool) → Option Nat
  | [] => none
  | (o, b) :: l =>
    match lowestBad l with
    | none => if b then some o else none
    | some x => if b ∧ o < x then some o else some x

/-- The conditions of the host-interface chapter come first, then those of the layout's chapter (R336). -/
def refusalOffset (unassigned : Option Nat) (own : List (Nat × Bool)) (layoutReserved : Option Nat)
    (layout : List (Nat × Bool)) : Option Nat :=
  let res (o : Option Nat) : List (Nat × Bool) := match o with
    | some x => [(x, true)]
    | none => []
  match lowestBad (res unassigned ++ own) with
  | some x => some x
  | none => lowestBad (res layoutReserved ++ layout)

/-- The next record of the ring can be taken: the context runs, a record waits, no BARRIER is outstanding, and `n`
completion slots are free (R327, R334, R337, R338). -/
def State.mayAccept (s : State) (c n : Nat) : Bool :=
  let x := s.ctx c
  s.serving && x.st == .running && x.closing.isNone && !(x.sqHead == x.sqTail) && x.barrier.isNone && decide ((n : Int) ≤ s.cqFree c)

/-- The record is accepted and reserves `n` completion slots; the reads go on ahead of it. -/
def State.takeRecord (s : State) (c n : Nat) : State :=
  (s.modCtx c (fun x => { x with sqHead := x.sqHead + 1, reserved := x.reserved + n, dirty := true })).readAhead c

/-- A refused record does nothing but receive its completion (R336). -/
def State.refuseRecord (s : State) (c kind off : Nat) (tag : Word) : State :=
  (s.takeRecord c 1).final c { rkind := kind, status := 0x03, erroff := off, tag := tag, refused := true }

/-- Take the next record of a ring if it is of this kind: refuse it, or accept it with `n` slots and carry `f` out. -/
def State.acceptRecord (s : State) (c : Nat) (rec_ : Record) (kind : Nat) (bad : Option Nat) (n : Nat) (tag : Word)
    (f : State → State) : State :=
  if ¬ recKind rec_ = kind then s
  else
    match bad with
    | some off => if s.mayAccept c 1 then s.refuseRecord c kind off tag else s
    | none => if s.mayAccept c n then f (s.takeRecord c n) else s

end Sys2Proof.Machine
end

