-- ==== Sys2Proof/Machine/HostOps.lean ====
section
/-!
DEFINITION. Register accesses as every family makes them (spec/00_scope.md R5 to R9, 12_host_interface.md R325 to R328): when
the device answers, what a write of plain fields does, and the gates of a context page.
-/

namespace Sys2Proof

/-- A slot with an erased header. -/
def FlashSlot.erased (x : FlashSlot) : FlashSlot := { body := x.body }

end Sys2Proof

namespace Sys2Proof.Machine

/-- BAR0 and BAR2 registers answer as the register map gives them: after READY, outside SAFE mode, in P0, P1 and P2. -/
def State.regAnswers (s : State) : Bool :=
  s.powered && s.pwr.ready && s.pwr.safe.isNone && !(s.pwr.state == .p3) && s.ideAdmits

/-- Configuration requests are answered: from READY on, or once a failed boot has ended in SAFE mode (R421). -/
def State.cfgAnswers (s : State) : Bool := s.powered && (s.pwr.ready || (s.pwr.bootFail && s.pwr.safe.isSome))

/-- A configuration request; before that it is answered with Request Retry Status. -/
def State.cfgRequest (s : State) (f : State → State) : State :=
  if s.cfgAnswers then f s else if s.powered then { s with reply := .retry } else s

/-- The RW, W1C and W1S fields of a register take their values at once; a reserved encoding is logged (R6, R9), at offset
`at_` of the BAR accessed. -/
def State.writePlain (s : State) (func at_ off v : Nat) : State :=
  match regFields off with
  | none => s.logInvalid func at_ v
  | some fs =>
    let r := writeFields (fun t => t == .rw || t == .w1c || t == .w1s) v fs (s.reg off).toNat
    let s := s.setReg off (BitVec.ofNat 32 r.1)
    if r.2 then s.logInvalid func at_ v else s

/-- A register command of the PF through BAR0. -/
def State.pfWrite (s : State) (f : State → State) : State :=
  if s.regAnswers && !(s.ctx 0).d3hot then f s.touch else s

/-- A write of a context to its own page: discarded while the context is OFF (Table 12.5). -/
def State.pageWrite (s : State) (c : Nat) (f : State → State) : State :=
  if s.regAnswers && !(s.ctx c).d3hot && !((s.ctx c).st == .off) then f s.touch else s

/-! ### An update given up (R430) -/

def State.setTrust (s : State) (t : Trust) : State := { s with trust := t }

/-- The slot that did not boot. -/
def Trust.target (t : Trust) : FlashSlot := if t.slot then t.slotA else t.slotB
def Trust.setTarget (t : Trust) (x : FlashSlot) : Trust := if t.slot then { t with slotA := x } else { t with slotB := x }

def State.failUpdate (s : State) (reason : Nat) : State :=
  s.setTrust { s.trust with fw := .failed, reason := reason, asked := false, staged := none }

/-- An update under way is given up: the target slot is left with an erased header. -/
def State.dropUpdate (s : State) : State :=
  if s.trust.fw = .busy then
    let s := s.setTrust (s.trust.setTarget s.trust.target.erased)
    s.failUpdate 7
  else s

/-! ### Tally counters (10) -/

/-- CTX_DB_TALLY (R277, R345, R346). -/
def State.dbTally (s : State) (c : Nat) (v : Word) : State :=
  let tc := bitsAt v.toNat 11 0
  if s.tcInRange c tc then s.tcAdd tc (bitsAt v.toNat 31 12) else s.refuseDoorbell c 0x00C v

def execCtxDbTally (x : Ctx) (v : Word) (s : State) : Result :=
  .next (s.doorbell x (.ctxDbTally x v) true (fun s => s.dbTally x v))

/-- CTX_TC_SEL (R276): the index within the range is checked, and the counter's value is captured. `page`: offset of the page in
the BAR accessed. -/
def State.selectCounter (s : State) (func page c : Nat) (v : Word) : State :=
  let i := bitsAt v.toNat 12 0
  if s.cfld c Reg.tcRangeLo 28 16 ≤ i then s.logInvalid func (page + Reg.tcSel) v.toNat
  else
    let x := (s.tcVal (s.cfld c Reg.tcRangeLo 11 0 + i)).toNat
    ((s.setReg (Reg.ctx c Reg.tcSel) (BitVec.ofNat 32 i)).setReg (Reg.ctx c Reg.tcValLo) (BitVec.ofNat 32 x)).setReg
      (Reg.ctx c Reg.tcValHi) (BitVec.ofNat 32 (x / 2 ^ 32))

def execCtxTcSel (x : Ctx) (v : Word) (s : State) : Result := .next (s.pageWrite x (fun s => s.selectCounter x 0 x v))

end Sys2Proof.Machine
end

