-- ==== Sys2Proof/Machine/Gcm.lean ====
section
/-!
DEFINITION. AES-256-GCM, with which a Twine link protects its packets (spec/11_twine_fabric.md R294): the cipher of FIPS 197 and
the mode of NIST SP 800-38D, on bytes.
-/

namespace Sys2Proof.Machine

/-! ### The cipher -/

/-- The substitution box, 64 entries to a number, the first in the lowest byte. -/
def aesBox : Nat → Nat
  | 0 => 0x75b227ebe28012079a059618c323c7041531d871f1e5a534ccf73f362693fdb7c072a49cafa2d4adf04759fa7dc982ca76abd7fe2b670130c56f6bf27b777c63
  | 1 => 0xd2f3ff1021dab6bcf5389d928f40a351a89f3c507f02f94585334d43fbaaefd0cf584c4a39becb6a5bb1fc20ed00d153842fe329b3d63b52a05a6e1b1a2c8309
  | 2 => 0x08ae7a65eaf4566ca94ed58d6d37c8e779e4959162acd3c25c2406490a3a32e0db0b5ede14b8ee4688902a22dc4f816073195d643d7ea7c41744975fec130ccd
  | _ => 0x16bb54b00f2d99416842e6bf0d89a18cdf2855cee9871e9b948ed9691198f8e19e1dc186b95735610ef6034866b53e708a8bbd4b1f74dde8c6b4a61c2e2578ba

def subByte (b : Nat) : Nat := aesBox (b / 64) / 2 ^ (8 * (b % 64)) % 256

/-- Multiplication by x in GF(2^8). -/
def timesX (b : Nat) : Nat := if 128 ≤ b then Nat.xor (2 * b - 256) 0x1B else 2 * b

def xorBytes (a b : List Nat) : List Nat := (List.zip a b).map (fun e => Nat.xor e.1 e.2)

/-- The round constant of the n-th key block. -/
def roundConst : Nat → Nat
  | 0 => 1
  | n + 1 => timesX (roundConst n)

/-- The next word of the key schedule, from the words so far, the newest first. -/
def nextKeyWord (i : Nat) (ws : List (List Nat)) : List Nat :=
  let w := ws.getD 0 []
  let t :=
    if i % 8 = 0 then xorBytes ((w.drop 1 ++ w.take 1).map subByte) [roundConst (i / 8 - 1), 0, 0, 0]
    else if i % 8 = 4 then w.map subByte
    else w
  xorBytes (ws.getD 7 []) t

/-- The sixty words of the schedule as fifteen round keys of 16 bytes. -/
def roundKeys (key : List Nat) : List (List Nat) :=
  let first := (List.range 8).map (fun i => (key.drop (4 * i)).take 4)
  let ws := ((List.range 52).foldl (fun ws i => nextKeyWord (i + 8) ws :: ws) first.reverse).reverse
  (List.range 15).map (fun r => ((ws.drop (4 * r)).take 4).flatten)

/-- Byte r + 4c of the state moves to row r, column c − r. -/
def shiftRows (b : List Nat) : List Nat := (List.range 16).map (fun i => b.getD ((i + 4 * (i % 4)) % 16) 0)

def mixColumn (c : List Nat) : List Nat :=
  (List.range 4).map (fun i =>
    let b (j : Nat) : Nat := c.getD ((i + j) % 4) 0
    Nat.xor (Nat.xor (timesX (b 0)) (Nat.xor (timesX (b 1)) (b 1))) (Nat.xor (b 2) (b 3)))

def mixColumns (b : List Nat) : List Nat := ((List.range 4).map (fun c => mixColumn ((b.drop (4 * c)).take 4))).flatten

/-- One block of 16 bytes. -/
def aesBlock (keys : List (List Nat)) (block : List Nat) : List Nat :=
  let k (r : Nat) : List Nat := keys.getD r []
  let mid := (List.range 13).foldl (fun b r => xorBytes (mixColumns (shiftRows (b.map subByte))) (k (r + 1)))
    (xorBytes block (k 0))
  xorBytes (shiftRows (mid.map subByte)) (k 14)

/-! ### The mode -/

/-- The number whose most significant byte comes first. -/
def bigEndian (b : List Nat) : Nat := b.foldl (fun n x => 256 * n + x) 0
def bigBytes (n v : Nat) : List Nat := (bytesOfNat n v).reverse

/-- Multiplication in GF(2^128), the first bit of a block its most significant. -/
def ghashMul (x y : Nat) : Nat :=
  ((List.range 128).foldl (fun (zv : Nat × Nat) i =>
    (if x.testBit (127 - i) then Nat.xor zv.1 zv.2 else zv.1,
     if zv.2 % 2 = 1 then Nat.xor (zv.2 / 2) (0xE1 * 2 ^ 120) else zv.2 / 2)) (0, y)).1

def blocksOf (b : List Nat) : List (List Nat) :=
  (List.range ((b.length + 15) / 16)).map (fun i =>
    let x := (b.drop (16 * i)).take 16
    x ++ List.replicate (16 - x.length) 0)

def ghash (h : Nat) (blocks : List (List Nat)) : Nat :=
  blocks.foldl (fun y b => ghashMul (Nat.xor y (bigEndian b)) h) 0

/-- The counter block of number n. -/
def counterBlock (nonce : List Nat) (n : Nat) : List Nat := nonce ++ bigBytes 4 n

/-- Encryption, and decryption: the bytes against the cipher's stream. -/
def gcmStream (keys : List (List Nat)) (nonce data : List Nat) : List Nat :=
  xorBytes data (((List.range ((data.length + 15) / 16)).map (fun i => aesBlock keys (counterBlock nonce (i + 2)))).flatten)

def gcmTag (keys : List (List Nat)) (nonce aad cipher : List Nat) : List Nat :=
  let h := bigEndian (aesBlock keys (List.replicate 16 0))
  let len := bigBytes 8 (8 * aad.length) ++ bigBytes 8 (8 * cipher.length)
  xorBytes (bigBytes 16 (ghash h (blocksOf aad ++ blocksOf cipher ++ [len]))) (aesBlock keys (counterBlock nonce 1))

/-! ### A packet (R294) -/

def itemsOf (n : Nat) (b : List Nat) : List (BitVec 256) :=
  (List.range n).map (fun i => BitVec.ofNat 256 (natOfBytes ((b.drop (32 * i)).take 32)))
/-- Bytes of data items. -/
def itemBytes (l : List (BitVec 256)) : List Nat := (l.map (fun i => bytesOfNat 32 i.toNat)).flatten

/-- The data items encrypted, and the tag. DEDUCED: byte i of a key, a nonce and a tag stands in bits 8i+7:8i, as in every other
structure (R3; notes/assumptions/157.md). -/
def gcmSeal (key : BitVec 256) (nonce : BitVec 96) (aad : BitVec 384) (data : List (BitVec 256)) :
    List (BitVec 256) × BitVec 128 :=
  let keys := roundKeys (bytesOfNat 32 key.toNat)
  let iv := bytesOfNat 12 nonce.toNat
  let c := gcmStream keys iv (itemBytes data)
  (itemsOf data.length c, BitVec.ofNat 128 (natOfBytes (gcmTag keys iv (bytesOfNat 48 aad.toNat) c)))

/-- The data items in clear; none where the tag does not verify. -/
def gcmOpen (key : BitVec 256) (nonce : BitVec 96) (aad : BitVec 384) (data : List (BitVec 256)) (tag : BitVec 128) :
    Option (List (BitVec 256)) :=
  let keys := roundKeys (bytesOfNat 32 key.toNat)
  let iv := bytesOfNat 12 nonce.toNat
  let c := itemBytes data
  if BitVec.ofNat 128 (natOfBytes (gcmTag keys iv (bytesOfNat 48 aad.toNat) c)) = tag then
    some (itemsOf data.length (gcmStream keys iv c))
  else none

end Sys2Proof.Machine
end

