-- ==== Sys2Proof/Machine/MemoryCmds.lean ====
section
/-!
DEFINITION. The commands of the stack interfaces (spec/05_stack_memory.md): channel and Thread-path accesses, refresh,
and the host's BAR4 window.
-/

namespace Sys2Proof.Machine

/-! ### Channel accesses (R104) -/

/-- A line whose bank answers; a line of the reserved area has copies elsewhere (R378). -/
def State.lineAnswers (s : State) (a : Nat) (l : Loc) : Bool :=
  decide (a < memTop) && (isContent a || s.bankAnswers l)

def bytesOut (g : Got) : List Byte := (bytesOfLine g.data).map (BitVec.ofNat 8)

/-- A read of a line, or of the addressed 32-B half of it. -/
def State.channelRead (s : State) (a : Nat) (path : Path) (sector : Bool) (l : Loc) : State :=
  if !s.powered || !s.lineAnswers a l then s
  else
    let r := s.reach l (.read a path sector l)
    if !r.1 then r.2
    else
      let g := r.2.readMemAt a l path none
      let b := bytesOut g.1
      { g.2 with reply := .data (if sector then (b.drop (a % 64 / 32 * 32)).take 32 else b) g.1.poison }

def execChannelRead (r : ReadAt) (path : Path) (s : State) : Result :=
  .next (s.channelRead r.addr.toNat path r.sector (s.locate r.addr.toNat))

def State.channelWrite (s : State) (a : Nat) (data : Line) (mask : LineMask) (poison : Bool) (l : Loc) : State :=
  if !s.powered || !s.lineAnswers a l then s
  else
    let r := s.reach l (.write a data mask poison l)
    if r.1 then r.2.writeMemAt a l data mask poison .channel none else r.2

def execChannelWrite (addr : DevAddr) (data : Line) (mask : LineMask) (poison : Bool) (s : State) : Result :=
  .next (s.channelWrite addr.toNat data mask poison (s.locate addr.toNat))

/-! ### The Thread path (R122 to R124) -/

def noThread (_ : Nat) : ThreadPath := {}
def State.threadOf (s : State) (k : Nat) : ThreadPath := sget noThread s.mem.thread k
def State.setThread (s : State) (k : Nat) (t : ThreadPath) : State :=
  { s with mem := { s.mem with thread := sset noThread s.mem.thread k t } }

/-- Accesses made in the current tick. -/
def State.threadUsed (s : State) (k : Nat) : Nat := if (s.threadOf k).inTick = s.tick then (s.threadOf k).used else 0

/-- It is an agent's, which comes back for it: it waits once. -/
def ThreadWait.returns : ThreadWait → Bool
  | .access _ => false
  | _ => true

/-- `n` accesses of a stack's Thread path: made at once where the tick's 1,500 allow them and nothing waits before them,
otherwise they wait their turn. -/
def State.threadTurn (s : State) (k : Nat) (x : ThreadWait) (n : Nat) : Bool × State :=
  let t := s.threadOf k
  let mine := t.waiting.head? == some x
  if s.threadUsed k + n ≤ 1500 ∧ (t.waiting = [] ∨ mine) then
    (true, s.setThread k { inTick := s.tick, used := s.threadUsed k + n, waiting := if mine then t.waiting.drop 1 else t.waiting })
  else if x.returns && t.waiting.contains x then (false, s)
  else (false, s.setThread k { t with waiting := t.waiting ++ [x] })

/-- One access at its bank: 8 bytes delivered, or replaced in their line (R123). -/
def State.threadDo (s : State) (k : Nat) (q : ThreadReq) : State :=
  let r := s.reach q.loc (.thread k q)
  if !r.1 then r.2
  else
    let a := q.addr.toNat
    match q.wr with
    | none =>
      let g := r.2.readMemAt a q.loc .thread none
      { g.2 with reply := .data (((bytesOut g.1).drop (a % 64)).take 8) g.1.poison }
    | some v =>
      let m := partialLine a (bytesOfNat 8 v.toNat)
      r.2.writeMemAt a q.loc m.1 m.2 false .thread none

/-- The stack's Thread path takes the access: 8-B aligned, in this stack; a lost stack's path has stopped (R378, R379). Of a line of the reserved area the first copy that answers is accessed. -/
def State.threadTakes (s : State) (k : Nat) (q : ThreadReq) : Bool :=
  let a := q.addr.toNat
  s.domainOn (.stack k) && decide (a % 8 = 0) && !s.stackIsLost k && s.lineAnswers a q.loc &&
    (if isContent a then ((copiesOf a).find? (fun b => s.bankAnswers (s.locate b))).any (fun b => decide ((s.locate b).stack = k))
     else decide (q.loc.stack = k))

def State.threadAccess (s : State) (k : Nat) (q : ThreadReq) : State :=
  if !s.threadTakes k q then s
  else
    let r := s.threadTurn k (.access q) 1
    if r.1 then r.2.threadDo k q else r.2

def execThreadAccess (k : Stack) (addr : DevAddr) (wr : Option (BitVec 64)) (s : State) : Result :=
  .next (s.threadAccess k ⟨addr, wr, s.locate addr.toNat⟩)

/-! ### Refresh (R131, R132) -/

def noRefresh (_ : Nat) : Nat := 0

/-- One bank is refreshed, after any step in it (R132). In BOBBIN and LATCH the controllers refresh no bank (R131, R407), and a
disabled bank is never refreshed (R377). -/
def State.refreshBank (s : State) (l : Loc) : State :=
  if !s.powered || !(s.pwr.state == .p0 || s.pwr.state == .p1) || !s.bankAnswers l then s
  else
    let r := s.reach l .refresh
    if r.1 then { r.2 with mem := { r.2.mem with
      refresh := sset noRefresh r.2.mem.refresh ((l.stack * 16 + l.die) * 64 + l.bank) s.tick } }
    else r.2

def execRefresh (k : Stack) (d : Die) (b : Bank) (s : State) : Result := .next (s.refreshBank ⟨k, d, b, 0, 0⟩)

/-! ### BAR4 (R125 to R128, R387, R408, R421) -/

/-- Device address of a BAR4 offset: the base in force applies to a request when it is received. -/
def State.bar4Addr (s : State) (c off : Nat) : Nat := s.cfld c Reg.bar4Base 8 0 * 2 ^ 30 + off

/-- Addresses of the lines that `n` bytes at `a` touch. -/
def linesAt (a n : Nat) : List Nat := (List.range ((a % 64 + n + 63) / 64)).map (fun i => a / 64 * 64 + 64 * i)

/-- Every line passes R115; in SAFE mode a line of a SKEIN region fails (R387). -/
def State.bar4Ok (s : State) (c a n : Nat) (write : Bool) : Bool :=
  (linesAt a n).all (fun x => decide (x < memTop) && s.mayAccess c x write &&
    (s.pwr.safe.isNone || !decide (s.rmode (regionOf x) = 2)))

/-- A request is refused and reported (R126). -/
def State.refuseBar4 (s : State) (c off : Nat) : State :=
  if s.pwr.safe.isSome then s
  else
    (s.modCtx c (fun x => { x with bar4Refused := x.bar4Refused + 1, dirty := true })).event c
      { ekind := 0x05, status := 0x03, ctx := c, info := off }

/-- Data and byte enables of one line of a write. -/
def bar4Line (a : Nat) (data : List (Option Byte)) (x : Nat) : Line × LineMask :=
  let at_ (i : Nat) : Option Byte := if x + i < a then none else (data.getD (x + i - a) none)
  let cells := (List.range 64).map at_
  (lineOf (cells.map (fun o => (o.getD 0).toNat)),
    BitVec.ofNat 64 (packElems 1 (cells.map (fun o => if o.isSome then 1 else 0))))

/-- The next lines of a BAR4 request, up to one whose bank is busy. -/
def State.bar4Lines (s : State) : Nat → Bar4Req → Bar4Req × State
  | 0, q => (q, s)
  | n + 1, q =>
    match q.left with
    | [] => (q, s)
    | (x, l) :: rest =>
      let r := s.reach l (.bar4 q.id)
      if !r.1 then (q, r.2)
      else
        match q.data with
        | none =>
          let g := r.2.readMemAt x l .bar4 (some q.ctx)
          g.2.bar4Lines n { q with left := rest, got := q.got ++ bytesOut g.1, poison := q.poison || g.1.poison }
        | some d =>
          let m := bar4Line q.addr d x
          (r.2.writeMemAt x l m.1 m.2 false .bar4 (some q.ctx)).bar4Lines n { q with left := rest }

/-- A BAR4 request goes on: it waits at a busy bank, and a read answers once its last line has been read. -/
def State.bar4Step (s : State) (q : Bar4Req) : State :=
  let r := s.bar4Lines q.left.length q
  let others := r.2.mem.bar4s.filter (fun x => !decide (x.id = q.id))
  if r.1.left = [] then
    let t : State := { r.2 with mem := { r.2.mem with bar4s := others } }
    if q.data.isNone then { t with reply := .data ((r.1.got.drop (q.addr % 64)).take q.len) r.1.poison } else t
  else { r.2 with mem := { r.2.mem with bar4s := r.2.mem.bar4s.map (fun x => if x.id = q.id then r.1 else x) } }

/-- The requests of a context, oldest first, up to one that waits. -/
def State.bar4Go (s : State) (c : Nat) : Nat → State
  | 0 => s
  | n + 1 =>
    match s.mem.bar4s.find? (fun q => decide (q.ctx = c)) with
    | none => s
    | some q =>
      let t := s.bar4Step q
      if t.mem.bar4s.any (fun x => decide (x.id = q.id)) then t else t.bar4Go c n

/-- A request accepted at a device address: it follows the context's earlier ones. -/
def State.bar4Accept (s : State) (c a n : Nat) (data : Option (List (Option Byte))) : State :=
  let q : Bar4Req := {
    id := s.mem.nextBar4
    ctx := c
    addr := a
    len := n
    data := data
    left := (linesAt a n).map (fun x => (x, s.locate x)) }
  let s : State := { s with mem := { s.mem with bar4s := s.mem.bar4s ++ [q], nextBar4 := q.id + 1 } }
  s.bar4Go c (s.mem.bar4s.length)

/-- A read of `n` bytes at BAR4 offset `off`, which the base has placed at device address `a`. -/
def State.bar4ReadNow (s : State) (c off n a : Nat) : State :=
  if n = 0 ∨ 2 ^ 36 < off + n then { s with reply := .unsupportedRequest }
  else if !s.bar4Ok c a n false then { s.refuseBar4 c off with reply := .unsupportedRequest }
  else s.bar4Accept c a n none

def State.bar4WriteNow (s : State) (c off : Nat) (data : List (Option Byte)) (a : Nat) : State :=
  let n := data.length
  if s.pwr.safe.isSome || decide (n = 0 ∨ 2 ^ 36 < off + n) then s
  else if !s.bar4Ok c a n true then s.refuseBar4 c off
  else s.bar4Accept c a n (some data)

/-- When a BAR4 request is answered: from READY on, in P0 and P1; in P2 it is held with the address that the base gives it; in
D3hot, and for a context that is OFF (Table 12.5), the function answers as an unsupported request. -/
def State.bar4 (s : State) (c off : Nat) (cmd : Instr) (read : Bool) (f : Nat → State → State) : State :=
  let a := s.bar4Addr c off
  if !s.powered || !s.pwr.ready || (s.ctx c).d3hot || !s.ideAdmits || (s.ctx c).st == .off then
    (if read then { s with reply := .unsupportedRequest } else s)
  else if s.pwr.state = .p2 then { s with pwr := { s.pwr with heldReq := s.pwr.heldReq ++ [(cmd, a)] } }
  else f a s.touch

def execBar4Read (x : Ctx) (off : BitVec 36) (len : Nat) (s : State) : Result :=
  .next (s.bar4 x off.toNat (.bar4Read x off len) true (fun a s => s.bar4ReadNow x off.toNat len a))

def execBar4Write (x : Ctx) (off : BitVec 36) (data : List (Option Byte)) (s : State) : Result :=
  .next (s.bar4 x off.toNat (.bar4Write x off data) false (fun a s => s.bar4WriteNow x off.toNat data a))

end Sys2Proof.Machine
end

