-- ==== Sys2Proof/Machine/Operands.lean ====
section
/-!
DEFINITION. The operand forms of a treadle word (spec/04_treadle_streams.md): its fields (Tables 4.1 and 4.4), the
address generators (R74), the transfer units (R75, R76), and what makes a word illegal (R85, R86).
-/

namespace Sys2Proof.Machine

/-- Bits hi:lo of a treadle word. -/
def twField (w : TreadleWord) (hi lo : Nat) : Nat := bitsAt w.toNat hi lo
def twBit (w : TreadleWord) (i : Nat) : Bool := w.getLsbD i

def twRepeat (w : TreadleWord) : Nat := twField w 15 0
def twKind (w : TreadleWord) : Nat := twField w 17 16
def twFence (w : TreadleWord) : Nat := twField w 19 18
def twWaitEn (w : TreadleWord) : Bool := twBit w 20
def twWaitReg (w : TreadleWord) : Nat := twField w 23 21
def twSigEn (w : TreadleWord) : Bool := twBit w 24
def twSigTc (w : TreadleWord) : Nat := twField w 36 25
def twSigInc (w : TreadleWord) : Nat := twField w 56 37
def twAgStep (w : TreadleWord) (g : Nat) : Nat := twField w (65 + 2 * g) (64 + 2 * g)
def twMaEn (w : TreadleWord) : Bool := twBit w 72
def twMaAg (w : TreadleWord) : Nat := twField w 74 73
def twMbEn (w : TreadleWord) : Bool := twBit w 75
def twMbAg (w : TreadleWord) : Nat := twField w 77 76
def twVlEn (w : TreadleWord) : Bool := twBit w 78
def twVlAg (w : TreadleWord) : Nat := twField w 80 79
def twVsEn (w : TreadleWord) : Bool := twBit w 81
def twVsAg (w : TreadleWord) : Nat := twField w 83 82
def twNetOp (w : TreadleWord) : Nat := twField w 85 84
def twNetAg (w : TreadleWord) : Nat := twField w 87 86
def twNetLines (w : TreadleWord) : Nat := twField w 89 88 + 1
def twNetStage (w : TreadleWord) : Bool := twBit w 90
def twNetTcEn (w : TreadleWord) : Bool := twBit w 91
def twNetTc (w : TreadleWord) : Nat := twField w 103 92
def twStreamId (w : TreadleWord) : Nat := twField w 127 104
def twMxOp (w : TreadleWord) : Nat := twField w 129 128
def twMxSet (w : TreadleWord) : Nat := twField w 130 130
def twFmtA (w : TreadleWord) : Nat := twField w 134 131
def twFmtB (w : TreadleWord) : Nat := twField w 138 135
def twXferOp (w : TreadleWord) : Nat := twField w 141 139
def twXferSet (w : TreadleWord) : Nat := twField w 142 142
def twXferVreg (w : TreadleWord) : Nat := twField w 147 143
def twXferPos (w : TreadleWord) : Nat := twField w 157 148
def twVop (w : TreadleWord) : Nat := twField w 197 192
def twVd (w : TreadleWord) : Nat := twField w 202 198
def twVa (w : TreadleWord) : Nat := twField w 207 203
def twVb (w : TreadleWord) : Nat := twField w 212 208
def twVc (w : TreadleWord) : Nat := twField w 217 213
def twVfmt (w : TreadleWord) : Nat := twField w 221 218
def twSat (w : TreadleWord) : Bool := twBit w 222
def twSr (w : TreadleWord) : Bool := twBit w 223
def twVlVreg (w : TreadleWord) : Nat := twField w 228 224
def twVlFmt (w : TreadleWord) : Nat := twField w 232 229
def twVsVreg (w : TreadleWord) : Nat := twField w 237 233
def twVsFmt (w : TreadleWord) : Nat := twField w 241 238
def twLanes (w : TreadleWord) : Nat :=
  match twField w 243 242 with
  | 0 => 256
  | 1 => 192
  | 2 => 128
  | _ => 64
def twSop (w : TreadleWord) : Nat := twField w 21 18
def twIdx (w : TreadleWord) : Nat := twField w 24 22

/-! ### Address generators (R74) -/

/-- A two's-complement stride of `n` bits. -/
def stride (n v : Nat) : Int := signedOf n v

def wrap (n : Nat) (v : Int) : Nat := (v % (2 ^ n : Int)).toNat

def AddrGen.local_ (g : AddrGen) : Nat :=
  wrap 21 (g.lbase.toNat + g.i0 * stride 22 g.ls0.toNat + g.i1 * stride 22 g.ls1.toNat + g.i2 * stride 22 g.ls2.toNat)
def AddrGen.device (g : AddrGen) : Nat :=
  wrap 42 (g.dbase.toNat + g.i0 * stride 40 g.ds0.toNat + g.i1 * stride 40 g.ds1.toNat + g.i2 * stride 40 g.ds2.toNat)
/-- Scale address n + j. -/
def AddrGen.scaleAt (g : AddrGen) (j : Nat) : Nat :=
  (g.sbase.toNat + (g.n + j) / 3 * g.sbs.toNat + (g.n + j) % 3 * 64) % 2 ^ 21

/-- Carry out of i1 into i2. -/
def AddrGen.carry (g : AddrGen) : AddrGen :=
  if g.i1 = g.n1.toNat + 1 then
    (if g.i2 + 1 = g.n2.toNat + 1 then { g with i1 := 0, i2 := 0 } else { g with i1 := 0, i2 := g.i2 + 1 })
  else g

/-- The four step codes. -/
def AddrGen.advance (g : AddrGen) (code : Nat) : AddrGen :=
  match code with
  | 1 =>
    if g.i0 + 1 = g.n0.toNat + 1 then AddrGen.carry { g with i0 := 0, i1 := g.i1 + 1 } else { g with i0 := g.i0 + 1 }
  | 2 => AddrGen.carry { g with i0 := 0, i1 := g.i1 + 1 }
  | 3 => { g with i0 := 0, i1 := 0, i2 := 0 }
  | _ => g

def AddrGen.loadLocal (g : AddrGen) (w : TreadleWord) : AddrGen :=
  { g with
    lbase := BitVec.ofNat 21 (twField w 84 64)
    ls0 := BitVec.ofNat 22 (twField w 106 85)
    ls1 := BitVec.ofNat 22 (twField w 128 107)
    ls2 := BitVec.ofNat 22 (twField w 150 129)
    n0 := BitVec.ofNat 16 (twField w 166 151)
    n1 := BitVec.ofNat 16 (twField w 182 167)
    n2 := BitVec.ofNat 16 (twField w 198 183)
    sbase := BitVec.ofNat 21 (twField w 219 199)
    sbs := BitVec.ofNat 22 (twField w 241 220)
    i0 := 0
    i1 := 0
    i2 := 0
    n := 0 }

def AddrGen.loadDevice (g : AddrGen) (w : TreadleWord) : AddrGen :=
  { g with
    dbase := BitVec.ofNat 42 (twField w 105 64)
    ds0 := BitVec.ofNat 40 (twField w 145 106)
    ds1 := BitVec.ofNat 40 (twField w 185 146)
    ds2 := BitVec.ofNat 40 (twField w 225 186)
    i0 := 0
    i1 := 0
    i2 := 0 }

/-! ### Transfer units (Tables 2.3, 4.2, 4.5) -/

/-- Stream cycles of one K step for an operand pair, if Table 2.3 has it. -/
def pairCycles (a b : Nat) : Option Nat :=
  if (a = 1 ∨ a = 2) ∧ (b = 1 ∨ b = 2) then some 1
  else if a = 3 ∧ (b = 3 ∨ b = 4) then some 1
  else if (a = 5 ∧ b = 5) ∨ (a = 6 ∧ b = 6) then some 2
  else if 8 ≤ a ∧ a ≤ 11 ∧ 8 ≤ b ∧ b ≤ 11 then some 1
  else if a = 12 ∧ 8 ≤ b ∧ b ≤ 12 then some 1
  else none

/-- MXFP4 × MXFP4: two K elements a stream cycle. -/
def pairDouble (a b : Nat) : Bool := a == 12 && b == 12

def isMx (a : Nat) : Bool := decide (8 ≤ a)

/-- P of R78. -/
def mxPeriod (a b : Nat) : Nat := if pairDouble a b then 16 else 32

/-- Bits of an element in the scratchpad; RAW moves bytes. -/
def moveBits (code : Nat) : Nat := if code = 15 then 8 else (fmtBits code).getD 8

/-- Bytes and stream cycles of one vector register's move. -/
def moveBytes (code lanes : Nat) : Nat := lanes * moveBits code / 8
def moveCycles (code lanes : Nat) : Nat := (lanes * moveBits code + 2047) / 2048

/-- Bytes of one K step of an operand. -/
def kBytes (code : Nat) (double : Bool) : Nat := if double then 192 else 24 * moveBits code

/-- Generators bound to ports (R75): MA, MB, VL, VS, NET, with the length of their transfer units. -/
def boundGens (w : TreadleWord) : List (Nat × Nat) :=
  let k := (pairCycles (twFmtA w) (twFmtB w)).getD 1
  (if twMaEn w then [(twMaAg w, k)] else []) ++ (if twMbEn w then [(twMbAg w, k)] else []) ++
  (if twVlEn w then [(twVlAg w, moveCycles (twVlFmt w) (twLanes w))]
    else if twXferOp w = 3 then [(twVlAg w, 1)] else []) ++
  (if twVsEn w then [(twVsAg w, moveCycles (twVsFmt w) (twLanes w))]
    else if twXferOp w = 2 then [(twVsAg w, 1)] else []) ++
  (if twNetOp w = 0 then [] else [(twNetAg w, 1)])

/-! ### Illegal words (R24, R30, R52, R85, R86) -/

def vlFmtOk (c : Nat) : Bool := decide (1 ≤ c ∧ c ≤ 12) || c == 15
def vsFmtOk (c : Nat) : Bool := decide (1 ≤ c ∧ c ≤ 7) || c == 15
def vfmtOk (vop c : Nat) : Bool :=
  if vop = 0x0F then decide (1 ≤ c ∧ c ≤ 6)
  else if vop = 0x10 then decide (8 ≤ c ∧ c ≤ 12)
  else if vop = 0x11 then c == 3 || c == 4
  else true
def vbOk (vop vb : Nat) : Bool :=
  if vop = 0x0C then decide (vb < 8) else if vop = 0x0E ∨ vop = 0x11 then decide (vb ≤ 15) else true

/-- Some condition of Table 4.6 that needs no state holds of an EXEC word. -/
def execFormBad (w : TreadleWord) : Bool :=
  let r := twRepeat w
  let x := twXferOp w
  let mx := twMxOp w
  !decide (twField w 63 57 = 0 ∧ twField w 191 158 = 0 ∧ twField w 255 244 = 0) ||
  twNetOp w == 3 || mx == 3 || decide (3 < x) || decide (0x1E < twVop w) ||
  (if mx = 0 then twMaEn w || twMbEn w
   else !(twMaEn w && twMbEn w) || (pairCycles (twFmtA w) (twFmtB w)).isNone ||
     decide (¬ x = 0 ∧ twXferSet w = twMxSet w)) ||
  (x == 2 && twVsEn w) || (x == 3 && twVlEn w) ||
  (!(x == 0) && decide ((if x = 1 then 191 else 575) < twXferPos w + r)) ||
  (twVlEn w && !vlFmtOk (twVlFmt w)) || (twVsEn w && !vsFmtOk (twVsFmt w)) ||
  !decide (((boundGens w).map Prod.fst).Nodup) ||
  (boundGens w).any (fun g => decide (¬ (r + 1) % g.2 = 0)) ||
  (twSr w && !(twVop w == 0x0F && [1, 2, 5, 6].contains (twVfmt w))) ||
  !vfmtOk (twVop w) (twVfmt w) || !vbOk (twVop w) (twVb w) ||
  ((twVop w == 0x10 || twVop w == 0x11) && twVd w == twVc w) ||
  (twNetStage w && twNetOp w == 2) ||
  (twSigEn w && twSigInc w == 0)

/-- Payload bits that a SETUP operation lists: highest and lowest. -/
def setupPayload (sop : Nat) : Nat :=
  match sop with
  | 0 => 241
  | 1 => 225
  | 2 => 155
  | 3 => 103
  | _ => 63

def setupFormBad (w : TreadleWord) : Bool :=
  !decide (twRepeat w = 0) || decide (4 < twSop w) || !decide (twField w 63 25 = 0) ||
  !decide (w.toNat / 2 ^ (setupPayload (twSop w) + 1) = 0) ||
  (if twSop w ≤ 1 then decide (3 < twIdx w) else if twSop w = 2 then false else !decide (twIdx w = 0))

/-- The word is illegal for context `c` (R85, R86). -/
def State.wordIllegal (s : State) (c : Nat) (w : TreadleWord) : Bool :=
  if twKind w = 0 then
    execFormBad w || (twSigEn w && !s.tcInRange c (twSigTc w)) ||
      (twNetTcEn w && !(twNetOp w == 0) && !s.tcInRange c (twNetTc w))
  else if twKind w = 1 then
    setupFormBad w || (twSop w == 2 && !s.tcInRange c (twField w 75 64))
  else true

end Sys2Proof.Machine
end

