-- ==== Sys2Proof/Machine/WinderOps.lean ====
section
/-!
DEFINITION. A Winder descriptor as data (spec/09_winder_layout.md R241 to R252): its fields, the source and destination of
every position it walks, the checks of acceptance and dispatch, and an engine's reads and writes of one access unit.
-/

namespace Sys2Proof.Machine

/-! ### Fields (Table 9.1) -/

def WDesc.f (d : WDesc) (hi lo : Nat) : Nat := bitsAt d.rec_.toNat hi lo
def WDesc.bit (d : WDesc) (i : Nat) : Bool := d.rec_.getLsbD i

/-- 0 DENSE, 1 GATHER, 2 SCATTER. -/
def WDesc.mode (d : WDesc) : Nat := d.f 9 8
def WDesc.blocks (d : WDesc) : Bool := !decide (d.mode = 0)
/-- Access width in bytes. -/
def WDesc.unit (d : WDesc) : Nat := if d.bit 10 then 32 else 64
def WDesc.fmt (d : WDesc) : Nat := d.f 14 11
/-- Element width in bits (R242). -/
def WDesc.w (d : WDesc) : Nat := moveBits d.fmt
def WDesc.perm (d : WDesc) (i : Nat) : Nat := d.f (18 + 3 * i) (16 + 3 * i)
def WDesc.identity (d : WDesc) : Bool := decide (d.f 30 16 = 18056)
def WDesc.dtcEn (d : WDesc) : Bool := d.bit 32
def WDesc.dtc (d : WDesc) : Nat := d.f 44 33
def WDesc.waitEn (d : WDesc) : Bool := d.bit 45
def WDesc.wtc (d : WDesc) : Nat := d.f 57 46
def WDesc.target (d : WDesc) : BitVec 48 := BitVec.ofNat 48 (d.f 111 64)
def WDesc.sbase (d : WDesc) : Nat := d.f 169 128
def WDesc.sremote (d : WDesc) : Bool := d.bit 170
def WDesc.snode (d : WDesc) : Nat := d.f 186 171
def WDesc.dbase (d : WDesc) : Nat := d.f 233 192
def WDesc.dremote (d : WDesc) : Bool := d.bit 234
def WDesc.dnode (d : WDesc) : Nat := d.f 250 235
/-- Strides of dimensions 1 to 4. -/
def WDesc.s (d : WDesc) (k : Nat) : Int := signedOf 36 (d.f (255 + 36 * k) (220 + 36 * k))
def WDesc.ds (d : WDesc) (k : Nat) : Int := signedOf 36 (d.f (415 + 36 * k) (380 + 36 * k))
def WDesc.eRaw (d : WDesc) (k : Nat) : Nat := d.f (599 + 24 * k) (576 + 24 * k)
def WDesc.vRaw (d : WDesc) (k : Nat) : Nat := d.f (719 + 24 * k) (696 + 24 * k)
def WDesc.oRaw (d : WDesc) (k : Nat) : Int := signedOf 24 (d.f (839 + 24 * k) (816 + 24 * k))
def WDesc.list (d : WDesc) : Nat := d.f 617 576
def WDesc.lcount (d : WDesc) : Nat := d.f 641 618 + 1
def WDesc.blk (d : WDesc) : Nat := d.f 645 642
def WDesc.block (d : WDesc) : Nat := 64 * 2 ^ d.blk
def WDesc.padv (d : WDesc) : Nat := d.f 967 936

/-! ### Units of the walk: bytes for sub-byte formats, whose dimension 0 R243 keeps on byte boundaries, else elements -/

def WDesc.sub (d : WDesc) : Bool := decide (d.w < 8)
/-- Bytes per unit of the walk. -/
def WDesc.eb (d : WDesc) : Nat := if d.blocks || d.sub then 1 else d.w / 8
def WDesc.ext (d : WDesc) (k : Nat) : Nat :=
  if k = 0 ∧ d.sub then (d.eRaw 0 + 1) * d.w / 8 else d.eRaw k + 1
def WDesc.valid (d : WDesc) (k : Nat) : Nat := if k = 0 ∧ d.sub then d.vRaw 0 * d.w / 8 else d.vRaw k
def WDesc.org (d : WDesc) (k : Nat) : Int := if k = 0 ∧ d.sub then d.oRaw 0 * d.w / 8 else d.oRaw k

/-- Length of a row of the walk. -/
def WDesc.rowLen (d : WDesc) : Nat := if d.blocks then d.block else d.ext 0
def WDesc.total (d : WDesc) : Nat :=
  if d.blocks then d.lcount * d.block else d.ext 0 * d.ext 1 * d.ext 2 * d.ext 3 * d.ext 4

/-- Where one position is read from (none: pad) and written to. -/
structure Elt where
  src : Option Int
  dst : Int
  /-- byte offset in its row, for the pad pattern -/
  off : Nat
deriving DecidableEq, Repr

/-- Indices j0 to j4 of linear index n (R244). -/
def WDesc.index (d : WDesc) (n : Nat) : List Nat :=
  let a := n / d.ext 0
  let b := a / d.ext 1
  let c := b / d.ext 2
  [n % d.ext 0, a % d.ext 1, b % d.ext 2, c % d.ext 3, c / d.ext 3]

/-- Destination dimension that walks source dimension k. -/
def WDesc.walks (d : WDesc) (k : Nat) : Nat := ((List.range 5).find? (fun i => decide (d.perm i = k))).getD 0

/-- R244, for one linear index. -/
def WDesc.denseElt (d : WDesc) (n : Nat) : Elt :=
  let j := d.index n
  let x := (List.range 5).map (fun k => (j.getD (d.walks k) 0 : Int) + d.org k)
  let pad := (List.range 5).any (fun k => decide (x.getD k 0 < 0 ∨ (d.valid k : Int) ≤ x.getD k 0))
  let src := (d.sbase : Int) + x.getD 0 0 * d.eb + x.getD 1 0 * d.s 1 + x.getD 2 0 * d.s 2 + x.getD 3 0 * d.s 3 +
    x.getD 4 0 * d.s 4
  let dst := (d.dbase : Int) + (j.getD 0 0 * d.eb : Nat) + (j.getD 1 0 : Int) * d.ds 1 + (j.getD 2 0 : Int) * d.ds 2 +
    (j.getD 3 0 : Int) * d.ds 3 + (j.getD 4 0 : Int) * d.ds 4
  ⟨if pad then none else some src, dst, j.getD 0 0 * d.eb⟩

def entryCoord (e : BitVec 64) (i : Nat) : Nat := bitsAt e.toNat (16 * i + 15) (16 * i)
def nullEntry (e : BitVec 64) : Bool := decide (entryCoord e 0 = 0xFFFF)

/-- R247, R248, for byte i of the block of list entry n. -/
def WDesc.blockElt (d : WDesc) (n : Nat) (e : BitVec 64) (i : Nat) : Elt :=
  let grid (s : Nat → Int) : Int := (List.range 4).foldl (fun a k => a + (entryCoord e k : Int) * s (k + 1)) 0
  if d.mode = 1 then
    ⟨if nullEntry e then none else some (d.sbase + grid d.s + i), d.dbase + n * d.ds 1 + i, i⟩
  else ⟨some (d.sbase + n * d.s 1 + i), d.dbase + grid d.ds + i, i⟩

/-- Byte i of a row of pad elements (R242). -/
def WDesc.padByte (d : WDesc) (i : Nat) : Nat :=
  let p := if d.w = 6 then 3 else if d.w ≤ 8 then 1 else d.w / 8
  let packed := (List.range (8 * p / d.w)).foldl (fun a e => a + d.padv % 2 ^ d.w * 2 ^ (d.w * e)) 0
  packed / 2 ^ (8 * (i % p)) % 256

/-! ### Acceptance (R243, R287) -/

def permOk (d : WDesc) : Bool := (List.range 5).all (fun k => (List.range 5).any (fun i => decide (d.perm i = k)))

/-- The format is sub-byte and its dimension 0 is broken up. -/
def WDesc.broken (d : WDesc) : Bool :=
  let m := if d.w = 4 then 2 else 4
  d.sub && (!decide (d.perm 0 = 0) || !decide ((d.eRaw 0 + 1) % m = 0) || !decide (d.vRaw 0 % m = 0) ||
    !decide (d.oRaw 0 % (m : Int) = 0))

def State.winderBad (s : State) (c : Nat) (rec_ : Record) : Option Nat :=
  let v := rec_.toNat
  let d : WDesc := ⟨c, recTag rec_, BitVec.ofNat 1024 v⟩
  let own : List (Nat × Nat) := if d.blocks then [(576, 645)] else [(576, 935)]
  let pad : List (Nat × Nat) := [(936, 935 + d.w)]
  refusalOffset (lowestOutside v (spans [(0, 1023), (1984, 2015)]) 0 2047) []
    (lowestOutside v (spans ([(0, 14), (16, 30), (32, 57), (64, 111), (128, 186), (192, 250), (256, 399), (416, 559)] ++
      own ++ pad)) 0 1023)
    [(1, decide (d.mode = 3)), (1, !vlFmtOk d.fmt), (2, !permOk d), (1, d.blocks && !d.identity),
      (21, d.sremote && d.dremote), (5, d.waitEn && !s.tcInRange c d.wtc),
      (4, d.dtcEn && !d.dremote && !s.tcInRange c d.dtc), (1, !d.blocks && d.broken),
      (80, d.blocks && decide (10 < d.blk)), (1, d.blocks && !decide (d.block * 8 % d.w = 0)),
      (21, d.sremote && decide (s.cfld c Reg.ctxTwn 0 0 = 0)), (29, d.dremote && decide (s.cfld c Reg.ctxTwn 0 0 = 0))]

/-! ### Dispatch (R250 to R252) -/

def multiple (v : Int) (u : Nat) : Bool := decide (v % (u : Int) = 0)

def isScratch (a : Int) : Bool :=
  match placeOf a.toNat with
  | .scratch _ _ => decide (0 ≤ a)
  | _ => false

def WDesc.toScratch (d : WDesc) : Bool := !d.dremote && isScratch d.dbase

/-- Lowest and highest source coordinate read in dimension k. -/
def WDesc.lowX (d : WDesc) (k : Nat) : Int := max 0 (d.org k)
def WDesc.highX (d : WDesc) (k : Nat) : Int := min (d.valid k : Int) ((d.ext (d.walks k) : Int) + d.org k) - 1
/-- Some position of a DENSE copy is read. -/
def WDesc.reads (d : WDesc) : Bool := (List.range 5).all (fun k => decide (d.lowX k ≤ d.highX k))

def WDesc.aligned (d : WDesc) : Bool :=
  let u := d.unit
  multiple d.sbase u && multiple d.dbase u &&
  (if d.mode = 0 then
      [1, 2, 3, 4].all (fun k => (!(d.reads && decide (1 ≤ d.highX k)) || multiple (d.s k) u) &&
        (decide (d.ext k ≤ 1) || multiple (d.ds k) u)) &&
      (!d.toScratch || decide (d.ext 0 * d.eb % 32 = 0))
    else if d.mode = 1 then [1, 2, 3, 4].all (fun k => multiple (d.s k) u) && multiple (d.ds 1) u
    else multiple (d.s 1) u && [1, 2, 3, 4].all (fun k => multiple (d.ds k) u)) &&
  (!d.blocks || decide (d.list % 8 = 0))

/-- Range of `base + Σ stride × x`, x between its bounds: lowest byte, and one past the highest. -/
def spanRange (base : Int) (eb : Nat) (lo hi : Nat → Int) (st : Nat → Int) : Int × Int :=
  let a := [1, 2, 3, 4].foldl (fun a k => a + min (st k * lo k) (st k * hi k)) (base + lo 0 * eb)
  let b := [1, 2, 3, 4].foldl (fun a k => a + max (st k * lo k) (st k * hi k)) (base + hi 0 * eb)
  (a, b + eb)

def WDesc.srcRange (d : WDesc) : Int × Int := spanRange d.sbase d.eb d.lowX d.highX d.s
def WDesc.dstRange (d : WDesc) : Int × Int :=
  let lo (i : Nat) : Int := if d.toScratch then 0 else d.lowX (d.perm i) - d.org (d.perm i)
  let hi (i : Nat) : Int := if d.toScratch then d.ext i - 1 else d.highX (d.perm i) - d.org (d.perm i)
  spanRange d.dbase d.eb lo hi d.ds

/-- Both ranges lie in the same place. -/
def samePlace (a b : Int) : Bool :=
  match placeOf a.toNat, placeOf b.toNat with
  | .stacked, .stacked => true
  | .scratch c _, .scratch e _ => decide (c = e)
  | .window _, .window _ => true
  | _, _ => false

def WDesc.overlaps (d : WDesc) : Bool :=
  let r := d.srcRange
  let t := d.dstRange
  decide (d.mode = 0) && d.reads && !d.sremote && !d.dremote && samePlace r.1 t.1 && decide (r.1 < t.2 ∧ t.1 < r.2)

/-- The overlap can be performed as a move. -/
def WDesc.movable (d : WDesc) : Bool := d.identity && [1, 2, 3, 4].all (fun k => decide (d.s k = d.ds k))

/-! ### Positions of an engine -/

/-- Element at issue position k (R249, R254). -/
def WEngine.elt (e : WEngine) (d : WDesc) (k : Nat) : Elt :=
  if d.blocks then d.blockElt (k / d.block) (e.entry.getD 0) (k % d.block)
  else d.denseElt (if e.down then d.total - 1 - k else k)

/-- A position for which nothing is written (R245, R248). -/
def WDesc.skips (d : WDesc) (x : Elt) : Bool := x.src.isNone && (d.dremote || !isScratch x.dst)

/-- The first position from k on, and below `lim`, that is written. -/
def WEngine.skipPads (e : WEngine) (d : WDesc) (lim : Nat) : Nat → Nat → Nat
  | 0, k => k
  | n + 1, k => if k < lim ∧ d.skips (e.elt d k) then e.skipPads d lim n (k + 1) else k

/-- Positions that follow k in its row and go on its access: `ok` compares neighbours. -/
def WEngine.follow (e : WEngine) (d : WDesc) (lim : Nat) (ok : Elt → Elt → Bool) : Nat → Nat → Elt → List Elt
  | 0, _, _ => []
  | n + 1, k, p =>
    let x := e.elt d k
    if k < lim ∧ ¬ k % d.rowLen = 0 ∧ ok p x then x :: e.follow d lim ok n (k + 1) x else []

def WEngine.run (e : WEngine) (d : WDesc) (lim : Nat) (ok : Elt → Elt → Bool) (k : Nat) : List Elt :=
  let x := e.elt d k
  x :: e.follow d lim ok 4096 (k + 1) x

def sameBlock (u : Nat) (a b : Int) : Bool := decide (a / (u : Int) = b / (u : Int))

/-- Neighbours of one destination access: adjacent, in one unit (or 4 KiB page of the fabric), both pad or both not unless
pad is written. -/
def WEngine.together (e : WEngine) (d : WDesc) (p x : Elt) : Bool :=
  decide (x.dst = if e.down then p.dst - d.eb else p.dst + d.eb) &&
    sameBlock (if d.dremote then 4096 else d.unit) p.dst x.dst && (d.toScratch || decide (p.src.isNone = x.src.isNone))

/-- The destination access at position k. -/
def WEngine.chunk (e : WEngine) (d : WDesc) (lim k : Nat) : List Elt := e.run d lim (e.together d) k

/-- Neighbours of one remote READ (R312): one contiguous run of the source in a 4 KiB page, or, in a permuting copy, one
access unit (R246). -/
def WDesc.readTogether (d : WDesc) (p x : Elt) : Bool :=
  match p.src, x.src with
  | some a, some b =>
    decide (x.dst = p.dst + d.eb) &&
      (if d.blocks || d.identity then decide (b = a + d.eb) && sameBlock 4096 a b else sameBlock d.unit a b)
  | _, _ => false

/-- Source units that a list of positions needs, in order. -/
def WDesc.units (d : WDesc) (l : List Elt) : List Int :=
  (l.filterMap (fun x => x.src.map (fun a => a / (d.unit : Int) * d.unit))).eraseDups

/-- End of the part that is read before it is written: the block, the whole of a move, or one destination access. -/
def WEngine.segEnd (e : WEngine) (d : WDesc) : Nat :=
  if d.blocks then (e.pos / d.block + 1) * d.block
  else if e.move then d.total
  else min d.total (e.pos + (e.chunk d d.total e.pos).length)

/-! ### One access unit -/

def WEngine.unitAt (e : WEngine) (a : Int) : Option SrcUnit := e.got.find? (fun u => decide ((u.addr : Int) = a))

/-- Bytes of a position: from its source unit, or pad. -/
def WEngine.bytesOf (e : WEngine) (d : WDesc) (x : Elt) : List Nat :=
  match x.src with
  | none => (List.range d.eb).map (fun i => d.padByte (x.off + i))
  | some a =>
    match e.unitAt (a / (d.unit : Int) * d.unit) with
    | some u => (u.data.drop (a % (d.unit : Int)).toNat).take d.eb
    | none => List.replicate d.eb 0

/-- Bytes of a destination access in address order. -/
def WEngine.outBytes (e : WEngine) (d : WDesc) (l : List Elt) : List Nat :=
  ((if e.down then l.reverse else l).map (e.bytesOf d)).flatten
def WEngine.outStart (e : WEngine) (l : List Elt) : Int :=
  match (if e.down then l.getLast? else l.head?) with
  | some x => x.dst
  | none => 0

/-- Why an access to the unit at `a` may not be issued (R255). -/
def State.winderRefusal (s : State) (c : Nat) (a : Int) (write : Bool) : Option Nat :=
  if a < 0 ∨ 2 ^ 42 ≤ a then some 0x03 else s.refusal c a.toNat 1 write

def addr42 (a : Int) : Nat := wrap 42 a

/-- An access to a line at `l` may be made now: it waits at its bank (R161), or behind those at a core's asynchronous ports
(R117). -/
def State.accessTurn (s : State) (a : Nat) (l : Loc) (x : BankAcc) : Bool × State :=
  match placeOf a with
  | .stacked => s.reach l x
  | _ => (!s.portWaits a, s)

/-- Take the bytes of a source unit: one in the host window is requested with No Snoop where the function allows it (R118, R257). -/
def State.takeUnit (s : State) (e : Nat) (d : WDesc) (a : Nat) (l : Loc) (host : HostRead) : SrcUnit × State :=
  let c := d.ctx
  let u := d.unit
  match placeOf a, host with
  | .window o, .ok b => (⟨a, (b.map BitVec.toNat ++ List.replicate u 0).take u, false, false⟩, s.hostRead c (s.winAddr c o) u true)
  | .window o, .failed =>
    (⟨a, List.replicate u 0, true, false⟩,
      (s.hostRead c (s.winAddr c o) u true).readFailed c (engineKey e) d.tag (s.winAddr c o))
  | _, _ =>
    let g := s.fetchLineAt (a / 64 * 64) l false c none
    (⟨a, ((bytesOfLine g.1.data).drop (a % 64)).take u, g.1.poison, g.1.unsealed⟩, g.2)

/-- Existing bytes of a scratchpad line, to complete a unit written in part. -/
def State.underLine (s : State) (a : Nat) : Line :=
  match placeOf a with
  | .scratch core o =>
    match (s.core core).map.phys with
    | some p => (s.readSpad core p (o / 64)).1.data
    | none => 0
  | _ => 0

/-- Write bytes that lie in one line, for a context, and count them in the counter (R256, R257). -/
def State.winderPut (s : State) (d : WDesc) (a : Nat) (l : Loc) (b : List Nat) (poison : Bool) : State :=
  let lm := partialLine a b
  let line := if isScratch a then mergeMask (s.underLine a) lm.1 lm.2 else lm.1
  let s := s.placeLineAt (a / 64 * 64) l line lm.2 poison d.ctx
  if d.dtcEn then
    (match placeOf a with
      | .window _ => s.post d.ctx (.tally d.dtc none b.length)
      | _ => s.tcAdd d.dtc b.length)
  else s

end Sys2Proof.Machine
end

