-- ==== Sys2Proof/Machine/TwineOps.lean ====
section
/-!
DEFINITION. The Twine fabric's shared operations (spec/11_twine_fabric.md): packet fields and form (R290 to R293), ports and
their states (R315 to R319), routes and peers, remote requests and how they resolve (R312 to R314), and the serving of a
request (R306 to R311).
-/

namespace Sys2Proof.Machine

/-! ### Packets -/

def hField (h : BitVec 256) (hi lo : Nat) : Nat := bitsAt h.toNat hi lo
def hType (h : BitVec 256) : Nat := hField h 3 0
def hSub (h : BitVec 256) : Nat := hField h 15 8
def hDnode (h : BitVec 256) : Nat := hField h 31 16
def hSnode (h : BitVec 256) : Nat := hField h 47 32
def hTag (h : BitVec 256) : Nat := hField h 79 64
def hTc (h : BitVec 256) : Nat := hField h 91 80
def hTcEn (h : BitVec 256) : Bool := h.getLsbD 92
def hAddr (h : BitVec 256) : Nat := hField h 137 96
def hBytes (h : BitVec 256) : Nat := hField h 150 138
def hPoison (h : BitVec 256) : Nat := hField h 223 160

def pktHeader (typ sub dnode snode depoch sepoch tag tc : Nat) (tcEn : Bool) (addr bytes status poison : Nat) : BitVec 256 :=
  BitVec.ofNat 256 (packFields [(0, 4, typ), (8, 8, sub), (16, 16, dnode), (32, 16, snode), (48, 8, depoch),
    (56, 8, sepoch), (64, 16, tag), (80, 12, tc), (92, 1, if tcEn then 1 else 0), (96, 42, addr), (138, 13, bytes),
    (152, 8, status), (160, 64, poison)])


/-- Lines that a run touches (R291). -/
def runLines (addr bytes : Nat) : Nat := (addr % 64 + bytes + 64) / 64

/-- A 64-B line as two data items. -/
def lineItems (b : List Nat) : List (BitVec 256) :=
  [BitVec.ofNat 256 (natOfBytes (b.take 32)), BitVec.ofNat 256 (natOfBytes (b.drop 32))]

/-- Data items of a run of bytes: whole lines, zeros outside the run. -/
def runItems (addr : Nat) (b : List Nat) : List (BitVec 256) :=
  let n := (addr % 64 + b.length + 63) / 64
  let all := List.replicate (addr % 64) 0 ++ b ++ List.replicate (64 * n - addr % 64 - b.length) 0
  ((List.range n).map (fun i => lineItems ((all.drop (64 * i)).take 64))).flatten

/-- A run lies in one 4 KiB page below 2^39 (R286, R291). -/
def runOk (addr bytes : Nat) : Bool :=
  decide (bytes < 4096) && decide (addr % 4096 + bytes < 4096) && decide (addr + bytes < 2 ^ 39)

/-- R293: the packet's header and data are well formed; `trailer` holds the trailer's bits. -/
def pktOk (h : BitVec 256) (data : List (BitVec 256)) (trailer : BitVec 256) : Bool :=
  let t := hType h
  let zero (hi lo : Nat) : Bool := decide (hField h hi lo = 0)
  let run := decide (1 ≤ t ∧ t ≤ 3)
  zero 7 4 && zero 95 93 && zero 151 151 && zero 255 224 && decide (bitsAt trailer.toNat 255 176 = 0) &&
  (decide (t = 1) || zero 92 80) && (run || zero 150 96) && (decide (t = 5) || zero 159 152) &&
  (decide (t = 3) || zero 223 160) && (decide (t = 6) || zero 15 8) &&
  (if run then runOk (hAddr h) (hBytes h) && decide (data.length = if t = 2 then 0 else 2 * runLines (hAddr h) (hBytes h))
   else if t = 4 then data.isEmpty
   else if t = 5 then data.isEmpty && decide (hField h 159 152 ≤ 0x0F)
   else if t = 6 then
     zero 79 64 &&
     (if hSub h = 1 then decide (data.length = 2) && (match data with
        | [a, b] => decide (bitsAt a.toNat 31 26 = 0 ∧ bitsAt a.toNat 255 80 = 0 ∧ b = 0)
        | _ => false)
      else if hSub h = 3 then true
      else decide (hSub h = 2 ∨ hSub h = 4) && data.isEmpty)
   else false)

/-! ### Ports -/

def PortSt.code : PortSt → Nat
  | .disabled => 0
  | .train => 1
  | .align => 2
  | .auth => 3
  | .param => 4
  | .up => 5
  | .stalled => 6
  | .down => 7

def PortSt.live (x : PortSt) : Bool := x == .up || x == .stalled

def State.portEnabled (s : State) (p : Nat) : Bool := decide (s.fld (Reg.twnPCtl p) 0 0 = 1)
def State.retries (s : State) (p : Nat) : Nat := s.fld (Reg.twnPCtl p) 23 16
def State.countPort (s : State) (p m : Nat) : State := s.bumpReg (Reg.twnPCount p m) 1

/-- Tn_PAUSE_IN as the transmitter takes it (R304). -/
def State.paused (s : State) (p : Nat) : Bool :=
  let i := sget noInput s.pwr.inputs (2 + p)
  !s.creditMode p && (i.level || i.maskTo.isSome)

def State.nodeId (s : State) : Nat := s.fld Reg.twnNode 15 0
def State.nodeEpoch (s : State) : Nat := s.fld Reg.twnNode 23 16

/-- The node at the other end of a port's link: the partner recorded, or until there is one the device it is cabled to. -/
def State.farNode (s : State) (p : Nat) : Nat :=
  match (s.port p).partner with
  | some x => x.1
  | none => (Config.cabled p).getD 0

/-- Header of a LINK packet: its node fields name the two ends of the link (R290). -/
def State.linkHeader (s : State) (p sub : Nat) : BitVec 256 :=
  pktHeader 6 sub (s.farNode p) s.nodeId 0 0 0 0 false 0 0 0 0
/-- Header of the SPDM packets that are sent before a key is installed (R296). -/
def bareSpdm : BitVec 256 := pktHeader 6 3 0 0 0 0 0 0 false 0 0 0 0

/-- The device is the requester on a port's link: towards a switch sled, and towards a device with a higher node ID (R295). -/
def State.requester (s : State) (p : Nat) : Bool :=
  match Config.cabled p with
  | none => true
  | some n => decide (s.nodeId < n)

def noPeer (_ : Nat) : Peer := {}
def State.peer (s : State) (n : Nat) : Peer := sget noPeer s.twine.peers n
def State.setPeer (s : State) (n : Nat) (x : Peer) : State :=
  { s with twine := { s.twine with peers := sset noPeer s.twine.peers n x } }

def noRoute (_ : Nat) : Nat := 255
def State.route (s : State) (n : Nat) : Nat × Nat := (sget noRoute s.twine.routes n % 16, sget noRoute s.twine.routes n / 16)

/-- The port can carry requests. -/
def State.portUp (s : State) (p : Nat) : Bool := decide (p < 8) && (s.port p).st == .up

/-- Items received and not yet acted on. -/
def TPort.ingress (x : TPort) : Nat := x.inReq.foldl (fun n k => n + k.items) 0

/-- Tn_PAUSE_OUT follows the occupancy (R303). -/
def State.drivePause (s : State) (p : Nat) : State :=
  let x := s.port p
  let n := x.ingress
  let out := !s.creditMode p && (decide (s.fld (Reg.twnPPauseLo p) 15 0 ≤ n) ||
    (x.pauseOut && decide (s.fld (Reg.twnPPauseLo p) 31 16 < n)))
  s.setPort p { x with pauseOut := out }

/-- A change of port state posts an event on context 0 (R315). -/
def State.portState (s : State) (p : Nat) (st : PortSt) : State :=
  if (s.port p).st = st then s
  else
    (s.modPort p (fun x => { x with st := st, since := s.tick })).event 0 {
      ekind := 0x08, status := if st = .stalled then 0x0B else 0, aux := BitVec.ofNat 32 p, info := st.code }

/-! ### How requests resolve (R313, R314) -/

/-- The engine of a request issues nothing more. -/
def State.failEngine (s : State) (e serial code addr : Nat) : State :=
  let x := s.engine e
  if x.desc.isNone then s
  else
    let f := match x.failed with
      | some g => if serial < g.1 then (serial, code, addr) else g
      | none => (serial, code, addr)
    s.setEngine e { x with failed := some f, stop := some (x.stop.getD (code, addr)), rpos := x.pos }

def State.resolveFail (s : State) (r : RemReq) (code : Nat) : State :=
  (s.dropReq r.tag).failEngine r.eng r.serial code r.addr

def State.resolveWrite (s : State) (r : RemReq) : State :=
  let s := s.dropReq r.tag
  let x := s.engine r.eng
  s.setEngine r.eng { x with committed := x.committed + r.bytes }

/-- The data that have arrived for an engine are written in order, as its own local writes, up to one whose turn has not come; a
refused one stops the engine. -/
def State.landPieces (s : State) (e : Nat) : Nat → State
  | 0 => s
  | n + 1 =>
    let x := s.engine e
    match x.land, x.desc with
    | q :: rest, some d =>
      let gone := s.setEngine e { x with land := rest, landAt := none }
      if x.failed.any (fun f => decide (f.1 = q.serial)) then gone.landPieces e n
      else
        match s.winderRefusal d.ctx q.addr true with
        | some code => (gone.failEngine e q.serial code (q.addr % 2 ^ 42)).landPieces e n
        | none =>
          let l := s.placeFor x.landAt q.addr
          let r := (s.setEngine e { x with landAt := some (q.addr / 64 * 64, l) }).accessTurn q.addr l (.data e)
          if !r.1 then r.2
          else
            let s := r.2.winderPut d q.addr l q.bytes q.poison
            (s.setEngine e { x with
              land := rest
              landAt := none
              committed := x.committed + q.bytes.length
              poison := if q.poison then some (x.poison.getD false) else x.poison }).landPieces e n
    | _, _ => s

/-- The pieces, each within one access unit, of a run's part written to `a`: `off` is its place in the lines received. -/
def piecesOf (u serial a off n : Nat) (bytes : List Nat) (poison : Nat) : List LandPiece :=
  (List.range ((a % u + n + u - 1) / u)).map (fun i =>
    let start := if i = 0 then a else a / u * u + u * i
    let len := min (u - start % u) (a + n - start)
    let o := off + (start - a)
    ⟨serial, start, (bytes.drop o).take len, (List.range len).any (fun j => poison.testBit ((o + j) / 64))⟩)

/-- The source units that a READ for a whole block brought. -/
def unitsOf (r : RemReq) (u : Nat) (bytes : List Nat) (poison : Nat) : List SrcUnit :=
  (List.range (r.len / u)).map (fun i =>
    let o := r.addr % 64 + u * i
    ⟨r.addr + u * i, (bytes.drop o).take u, poison.testBit (o / 64), false⟩)

/-- The data of a READ, as lines from the run's first line on: they are to be written to the local destination (R312), or are the
source of the block in hand (R249). -/
def State.landData (s : State) (r : RemReq) (bytes : List Nat) (poison : Nat) : State :=
  let s := s.dropReq r.tag
  let x := s.engine r.eng
  match x.desc with
  | none => s
  | some d =>
    if r.into.isEmpty then
      let us := unitsOf r d.unit bytes poison
      s.setEngine r.eng { x with
        got := x.got ++ us
        poison := if us.any (fun u => u.poison) then some (x.poison.getD false) else x.poison }
    else
      let l := (r.into.map (fun p => piecesOf d.unit r.serial p.1 (r.addr % 64 + p.2.1) p.2.2 bytes poison)).flatten
      (s.setEngine r.eng { x with land := x.land ++ l }).landPieces r.eng (x.land.length + l.length)

/-! ### Going down (R316 to R319) -/

/-- A request still queued on a port that is not UP can move to its node's alternate. -/
def State.canMove (s : State) (r : RemReq) : Bool :=
  let t := s.route r.node
  decide (r.port = some t.1) && !decide (t.1 = t.2) && s.portUp t.2

/-- Queued requests on ports that are not UP, and that cannot move, resolve with PORT_STALLED (R319). -/
def State.settleRoutes (s : State) : State :=
  s.twine.reqs.foldl (fun s r =>
    match r.port with
    | some p => if r.sent || s.portUp p || s.canMove r then s else s.resolveFail r 0x0B
    | none => s) s

/-- Every request sent on a port that fails resolves with PORT_STALLED. -/
def State.failSent (s : State) (p : Nat) : State :=
  s.twine.reqs.foldl (fun s r => if r.sent ∧ r.port = some p then s.resolveFail r 0x0B else s) s

/-- The port leaves service for DOWN or DISABLED: its keys, credits, responses and link packets go; requests resolve. -/
def State.portOut (s : State) (p : Nat) (st : PortSt) : State :=
  let x := s.port p
  let spent := decide (st = .down) && decide (s.retries p ≤ x.passes)
  let s := s.setPort p { x with
    txKey := false, rxKey := false, txSeq := 0, rxSeq := 0, updates := [], lnk := [], lnkWait := [], rsp := []
    inReq := x.inReq.map (fun k => { k with owes := false })
    credit := {}, owed := {}, heads := [], spdmIn := [], spdmOut := 0, spent := spent
    passes := if st = .disabled then 0 else x.passes }
  let s := { s with trust := { s.trust with sessions := s.trust.sessions.filter (fun (y : SpdmSession) => match y.peer with
    | .port q => !decide ((q : Nat) = p)
    | .func _ => true) } }
  ((s.portState p st).failSent p).settleRoutes

def State.portDown (s : State) (p : Nat) : State := s.portOut p .down

/-- A direction has its next key, its sequence number starting at 0 (R297). -/
def TPort.rekey (x : TPort) (dir : LinkDir) : TPort :=
  match dir with
  | .transmit => { x with txGen := x.txGen + 1, txSeq := 0, updates := x.updates.erase .transmit }
  | .receive => { x with rxGen := x.rxGen + 1, rxSeq := 0, updates := x.updates.erase .receive }

/-- Seal a packet and send it: the trailer returns the credit owed (R292, R294, R301). -/
def State.transmit (s : State) (p : Nat) (k : TxPkt) : State :=
  let x := s.port p
  let o := if s.creditMode p then x.owed else {}
  let up := packFields [(0, 16, o.req), (16, 16, o.rsp), (32, 16, o.lnk)]
  let sealed : List (BitVec 256) × BitVec 128 :=
    if x.txKey then
      gcmSeal (Config.linkKey p true x.txGen) (Config.linkIv p true x.txGen ^^^ BitVec.ofNat 96 x.txSeq)
        (BitVec.ofNat 384 (k.header.toNat + 2 ^ 256 * up)) k.data
    else (k.data, 0)
  let s := s.setPort p { x with
    owed := if s.creditMode p then {} else x.owed
    txSeq := if x.txKey then x.txSeq + 1 else x.txSeq }
  let pkt : Packet := { header := k.header, data := sealed.1, trailer := BitVec.ofNat 256 (sealed.2.toNat + 2 ^ 128 * up) }
  let s : State := { s with
    twine := { s.twine with
      sent := s.twine.sent ++ [(p, pkt)]
      reqs := s.twine.reqs.map (fun (r : RemReq) => if k.own = some r.tag then { r with sent := true } else r) } }
  s.modPort p (fun x => k.rekey.foldl TPort.rekey x)

/-- Clearing ENABLE, SAFE mode and BOBBIN: LINK DOWN if the port is UP, then DISABLED (R315, R318, R406). -/
def State.disablePort (s : State) (p : Nat) (announce : Bool) : State :=
  let s := if announce && (s.port p).st == .up then s.transmit p { header := s.linkHeader p 4, data := [] } else s
  s.portOut p .disabled

def State.disablePorts (s : State) (announce : Bool) : State :=
  (List.range 8).foldl (fun s p => s.disablePort p announce) s

/-- A port enters TRAIN. -/
def State.trainPort (s : State) (p : Nat) : State :=
  (s.modPort p (fun x => { x with spent := false })).portState p .train

/-- A LINK packet is queued on a port, behind those that wait for room (R299, R300). -/
def State.queueLnk (s : State) (p : Nat) (k : TxPkt) : State :=
  (s.modPort p (fun x => { x with lnkWait := x.lnkWait ++ [k] })).watchCredit p

/-- An SPDM message of the Distaff's is queued on a port's link: in clear until the transmit key is installed. -/
def State.queueSpdm (s : State) (p : Nat) (rekey : List LinkDir) : State :=
  let x := s.port p
  let k : TxPkt := {
    header := if x.txKey then s.linkHeader p 3 else bareSpdm
    data := Config.linkMessage p s.drawn
    rekey := rekey }
  let s : State := { s with drawn := s.drawn + 1 }
  (s.setPort p { x with spdmOut := x.spdmOut + 1 }).queueLnk p k

/-! ### Serving a request (R307 to R311) -/

/-- Device address of a translation entry, and where the copy of it lies that is read. -/
def xltAddr (page : Nat) : Nat := 0x7C04000000 + 16 * page
def State.xltLoc (s : State) (page : Nat) : Loc :=
  let l := (copiesOf (xltAddr page)).map s.locate
  (l.find? (fun x => s.bankAnswers x)).getD (s.locate (xltAddr page))

/-- The reads that are left of a walk for requester k, 8 bytes each through the Thread path (R122, R308); false: one waits. It takes
its turn in the path before its bank (R124). -/
def State.walkOn (s : State) (k page : Nat) : Nat → Taken → Bool × Taken × State
  | 0, w => (true, w, s)
  | n + 1, w =>
    let l := s.xltLoc page
    let t := if w.turn then (true, s) else s.threadTurn l.stack (.twine k) 1
    let r := if t.1 then t.2.reach l (.twine k) else t
    if !r.1 then (false, { w with turn := t.1 }, r.2)
    else
      let a := xltAddr page + 8 * (w.walk.length / 8)
      let g := r.2.readMem a .thread none
      g.2.walkOn k page n { w with
        turn := false
        walk := w.walk ++ ((bytesOfLine g.1.data).drop (a % 64)).take 8
        bad := w.bad || g.1.poison }

/-- A port caches up to 2,048 entries. DESIGN CHOICE: the one that has been there longest gives way (notes/assumptions/79.md). -/
def TPort.remember (x : TPort) (page : Nat) (e : BitVec 128) : TPort :=
  { x with cache := (x.cache ++ [(page, e)]).drop (x.cache.length - 2047) }

/-- The translation of the request in hand: the entry its port holds, or what a walk reads; false: the walk waits. -/
def State.translate (s : State) (k page : Nat) : Bool × State :=
  let t := s.takenOf k
  if t.entry.isSome || t.bad then (true, s)
  else
    match (if k < 8 then (s.port k).cache.find? (fun x => decide (x.1 = page)) else none) with
    | some x => (true, s.setTaken k { t with entry := some x.2 })
    | none =>
      let r := s.walkOn k page (2 - t.walk.length / 8) t
      let e := BitVec.ofNat 128 (natOfBytes r.2.1.walk)
      if !r.1 then (false, r.2.2.setTaken k r.2.1)
      else if r.2.1.bad then (true, r.2.2.setTaken k r.2.1)
      else
        let s := r.2.2.setTaken k { r.2.1 with entry := some e }
        (true, if k < 8 then s.modPort k (fun x => x.remember page e) else s)

/-- The local address of a request's first byte under an entry, or none: refused (R307). -/
def State.grant (s : State) (e : BitVec 128) (h : BitVec 256) (src : Nat) : Option Nat :=
  let v := e.toNat
  let write := decide (hType h = 1)
  let c := bitsAt v 9 4
  let lpage := bitsAt v 49 32
  let a := lpage * 2 ^ 21 + hAddr h % 2 ^ 21
  let lines := linesAt a (hBytes h + 1)
  if bitsAt v 0 0 = 1 ∧ Nat.land (Nat.xor src (bitsAt v 79 64)) (bitsAt v 95 80) = 0 ∧
      (if write then v.testBit 2 else v.testBit 1) = true ∧
      (¬ (write ∧ hTcEn h) ∨ v.testBit 3 ∧ s.tcInRange c (hTc h)) ∧ ¬ (s.ctx c).st = .off ∧
      lpage / 4096 < 62 ∧ ¬ s.rmode (lpage / 4096) = 2 ∧ lines.all (fun x => s.bankAnswers (s.locate x)) then some a
  else none

/-- How a request is answered. -/
inductive Answer where
  | nack
  | cack
  | rdata (bytes : List Nat) (poison : Nat)
deriving DecidableEq, Repr

/-- The lines of a granted request, one at a time, up to one whose bank is busy: written as the peer's (R309), or read with their
POISON bits (R310), for the context that owns the grant. -/
def State.serveLines (s : State) (k : Nat) (h : BitVec 256) (data : List Nat) : Nat → Taken → Taken × State
  | 0, t => (t, s)
  | n + 1, t =>
    match t.left with
    | some ((x, l) :: rest) =>
      let c := bitsAt (t.entry.getD 0).toNat 9 4
      let r := s.reach l (.twine k)
      if !r.1 then (t, r.2)
      else if hType h = 1 then
        let m := bar4Line t.addr (data.map (fun b => some (BitVec.ofNat 8 b))) x
        (r.2.writeMemAt x l m.1 m.2 false .twine (some c)).serveLines k h data n { t with left := some rest }
      else
        let g := r.2.readMemAt x l .twine (some c)
        g.2.serveLines k h data n { t with
          left := some rest
          got := t.got ++ bytesOfLine g.1.data
          poison := t.poison + (if g.1.poison then 2 ^ (t.got.length / 64) else 0) }
    | _ => (t, s)

/-- A request under its entry: refused, or its lines are found where they lie (R111). -/
def State.judge (s : State) (k : Nat) (h : BitVec 256) (src : Nat) : State :=
  let t := s.takenOf k
  if t.left.isSome then s
  else
    match t.entry.bind (fun e => s.grant e h src) with
    | none => s.setTaken k { t with bad := true }
    | some a => s.setTaken k { t with addr := a, left := some ((linesAt a (hBytes h + 1)).map (fun x => (x, s.locate x))) }

/-- Serve the request in hand of port k, or of engine k − 8, from node `src`; none: a bank or the Thread path makes it wait. -/
def State.serveReq (s : State) (k : Nat) (h : BitVec 256) (data : List (BitVec 256)) (src : Nat) : Option Answer × State :=
  let w := s.translate k (hAddr h / 2 ^ 21)
  if !w.1 then (none, w.2)
  else
    let s := w.2.judge k h src
    if (s.takenOf k).bad then (some .nack, s.setTaken k {})
    else
      let n := hBytes h + 1
      let b := ((itemBytes data).drop (hAddr h % 64)).take n
      let r := s.serveLines k h b 65 (s.takenOf k)
      if !r.1.left.any List.isEmpty then (none, r.2.setTaken k r.1)
      else
        let s := r.2.setTaken k {}
        if hType h = 1 then (some .cack, if hTcEn h then s.tcAdd (hTc h) n else s)
        else (some (.rdata r.1.got r.1.poison), s)

/-- Bytes of a line run with zeros outside it. -/
def maskRun (addr n : Nat) (b : List Nat) : List Nat :=
  (List.zip b (List.range b.length)).map (fun e => if addr % 64 ≤ e.2 ∧ e.2 < addr % 64 + n then e.1 else 0)

/-- The response to a request, as a packet to node `src`. -/
def State.responsePkt (s : State) (h : BitVec 256) (src : Nat) (a : Answer) : TxPkt :=
  let hd (typ addr bytes status poison : Nat) : BitVec 256 :=
    pktHeader typ 0 src s.nodeId (s.peer src).epoch s.nodeEpoch (hTag h) 0 false addr bytes status poison
  match a with
  | .nack => { header := hd 5 0 0 0x03 0, data := [] }
  | .cack => { header := hd 4 0 0 0 0, data := [] }
  | .rdata b p =>
    let l := maskRun (hAddr h) (hBytes h + 1) b
    { header := hd 3 (hAddr h) (hBytes h) 0 p
      data := ((List.range (l.length / 64)).map (fun i => lineItems ((l.drop (64 * i)).take 64))).flatten }

/-- Items of the response a request may need. -/
def responseItems (h : BitVec 256) : Nat := if hType h = 2 then 2 + 2 * runLines (hAddr h) (hBytes h) else 2

/-- The credit of items that have left the ingress FIFO is owed (R301). -/
def State.freeIngress (s : State) (p cls n : Nat) : State :=
  s.modPort p (fun x => { x with owed :=
    if cls = 0 then { x.owed with lnk := x.owed.lnk + n }
    else if cls = 1 then { x.owed with rsp := x.owed.rsp + n }
    else { x.owed with req := x.owed.req + n } })

/-- Act on the requests waiting at a port, in order, as far as room, banks and the Thread path let them (R299, R311). -/
def State.serveIngress (s : State) (p : Nat) : Nat → State
  | 0 => s
  | n + 1 =>
    let x := s.port p
    match x.inReq with
    | [] => s
    | k :: ks =>
      if x.st.live ∧ 8192 < x.egress + responseItems k.header then s
      else
        match s.serveReq p k.header k.data (hSnode k.header) with
        | (none, t) => t
        | (some a, t) =>
          let t := t.modPort p (fun x => { x with
            inReq := ks
            rsp := if x.st.live then x.rsp ++ [t.responsePkt k.header (hSnode k.header) a] else x.rsp })
          ((if k.owes then t.freeIngress p 2 k.items else t).drivePause p).serveIngress p n

def State.serveAll (s : State) (p : Nat) : State :=
  if !s.powered || s.pwr.safe.isSome then s
  else ((s.serveIngress p ((s.port p).inReq.length + 1)).drivePause p).watchCredit p

/-- An engine's requests to the device itself are answered in order (R288). -/
def State.serveLoopN (s : State) (e : Nat) : Nat → State
  | 0 => s
  | n + 1 =>
    match (s.engine e).loop with
    | [] => s
    | k :: ks =>
      match s.serveReq (8 + e) k.header k.data s.nodeId with
      | (none, t) => t
      | (some a, t) =>
        let t := t.setEngine e { t.engine e with loop := ks }
        let t := match t.twine.reqs.find? (fun r => decide (k.own = some r.tag ∧ r.eng = e)), a with
          | some r, .nack => t.resolveFail r 0x03
          | some r, .cack => t.resolveWrite r
          | some r, .rdata b p => t.landData r b p
          | none, _ => t
        t.serveLoopN e n

def State.serveLoop (s : State) (e : Nat) : State := s.serveLoopN e ((s.engine e).loop.length)

/-! ### Issuing a request (R288, R312, R313, R319) -/

/-- The port a new request to a node goes on: none where it resolves with PORT_STALLED. -/
def State.usePort (s : State) (node : Nat) : Option Nat :=
  let t := s.route node
  let on (p : Nat) : Bool := s.twine.reqs.any (fun r => decide (r.node = node ∧ r.port = some p))
  if t.1 = 15 then none
  else if s.portUp t.1 then
    (if !decide (t.2 = 15) && !decide (t.1 = t.2) && on t.2 && s.portUp t.2 then some t.2 else some t.1)
  else if !decide (t.1 = t.2) && s.portUp t.2 then (if on t.1 then some t.1 else some t.2)
  else none

/-- A tag that is neither outstanding nor held back after a timeout. -/
def State.freeTag (s : State) : Nat → Nat → Nat
  | 0, t => t % 65536
  | n + 1, t =>
    if s.twine.reqs.any (fun r => decide (r.tag = t % 65536)) || s.twine.late.any (fun l => decide (l.1 = t % 65536)) then
      s.freeTag n (t + 1)
    else t % 65536

/-- Issue a request of an engine. None: it cannot be issued yet. -/
def State.issue (s : State) (r : RemReq) (tc : Nat) (tcEn : Bool) (data : List (BitVec 256)) : Option State :=
  let x := s.engine r.eng
  let tag := s.freeTag 65536 s.twine.nextTag
  let serial := x.issued
  let r := { r with tag := tag, serial := serial, at_ := s.tick }
  let counted := s.setEngine r.eng { x with issued := serial + 1 }
  let hd (dep : Nat) : BitVec 256 := pktHeader (if r.write then 1 else 2) 0 r.node s.nodeId dep s.nodeEpoch tag
    (if r.write && tcEn then tc else 0) (r.write && tcEn) r.addr (r.len - 1) 0 0
  if r.node = s.nodeId then
    let t : State := { counted with twine := { counted.twine with
      reqs := counted.twine.reqs ++ [{ r with sent := true }], nextTag := (tag + 1) % 65536 } }
    let y := t.engine r.eng
    some (if runOk r.addr (r.len - 1) then
        t.setEngine r.eng { y with loop := y.loop ++ [{ header := hd s.nodeEpoch, data := data, own := some tag }] }
      else t)
  else if (s.peer r.node).dead then some (counted.failEngine r.eng serial 0x0C r.addr)
  else
    match s.usePort r.node with
    | none => some (counted.failEngine r.eng serial 0x0B r.addr)
    | some p =>
      let k : TxPkt := { header := hd (s.peer r.node).epoch, data := data, own := some tag }
      if 8192 < (s.port p).egress + k.items then none
      else
        let t := counted.modPort p (fun y => { y with req := y.req ++ [k] })
        some (({ t with twine := { t.twine with
          reqs := t.twine.reqs ++ [{ r with port := some p }], nextTag := (tag + 1) % 65536 } }).watchCredit p)

end Sys2Proof.Machine
end

