-- ==== Sys2Proof/Machine/Twine.lean ====
section
/-!
DEFINITION. The commands of the Twine fabric (spec/11_twine_fabric.md): packets and control items received, the transmitter,
timers, bring-up and failure of a port, peers, and the translation table.
-/

namespace Sys2Proof.Machine

/-! ### Reception (R285, R296, R298, R302, R306) -/

/-- A packet of a kind that some row of the table names. -/
def knownKind (h : BitVec 256) : Bool :=
  decide (1 ≤ hType h ∧ hType h ≤ 5) || (decide (hType h = 6) && decide (1 ≤ hSub h ∧ hSub h ≤ 4))

def isKind (typ sub : Nat) (h : BitVec 256) : Bool := decide (hType h = typ) && (decide (typ < 6) || decide (hSub h = sub))

/-- Class of a packet (R299): 0 LNK, 1 RSP, 2 REQ. -/
def hClass (h : BitVec 256) : Nat := if hType h = 6 then 0 else if hType h ≤ 2 then 2 else 1

def PortSt.receives (x : PortSt) : Bool := x == .align || x == .auth || x == .param || x.live

/-- No room in the ingress FIFO for `n` items (R302, R303). -/
def State.overflows (s : State) (p cls n : Nat) : Bool :=
  let held := (s.port p).ingress
  if s.creditMode p then
    decide ((if cls = 0 then 1024 else 32256) < (if cls = 2 then held else 0) + n)
  else decide (65536 < held + n)

/-- Credit returned in a trailer (R292, R301). -/
def State.takeCredit (s : State) (p : Nat) (trailer : BitVec 256) : State :=
  if !s.creditMode p then s
  else
    s.modPort p (fun x => { x with credit := {
      req := x.credit.req + bitsAt trailer.toNat 143 128
      rsp := x.credit.rsp + bitsAt trailer.toNat 159 144
      lnk := x.credit.lnk + bitsAt trailer.toNat 175 160 } })

/-- Checks 2 to 4 of R306, then the packet is acted on. Requests leave the ingress FIFO when they have been served. -/
def State.checkPacket (s : State) (p : Nat) (k : TxPkt) (trailer : BitVec 256) (act : State → TxPkt → State) : State :=
  let h := k.header
  let link := decide (hType h = 6)
  let free (s : State) : State := s.freeIngress p (hClass h) k.items
  let src := s.peer (hSnode h)
  if !link && !(decide (hField h 63 56 = src.epoch) && !src.dead && decide (hField h 55 48 = s.nodeEpoch)) then
    free (s.bumpReg Reg.glbStaleDrops 1)
  else if !link && !decide (hDnode h = s.nodeId) then free (s.countPort p 4)
  else if !pktOk h k.data trailer then free (s.countPort p 0)
  else if hClass h = 2 then act s k
  else act (free s) k

/-- Symbols that the FEC corrected (R316). -/
def State.countFec (s : State) (p n : Nat) : State := if n = 0 then s else s.bumpReg (Reg.twnPCount p 6) n

/-- A packet arrives on a port (R296, R298, R306). -/
def State.receive (s : State) (p : Nat) (pkt : Packet) (mine : BitVec 256 → Bool) (act : State → TxPkt → State) : State :=
  let x := s.port p
  let h := pkt.header
  let n := 2 + pkt.data.length
  if !s.powered || s.pwr.safe.isSome || !x.st.receives || (knownKind h && !mine h) then s
  else
    let s := s.countFec p pkt.fec
    let s := if x.st = .up then s.touch else s
    if !x.rxKey then
      (if isKind 6 3 h && pktOk h pkt.data pkt.trailer then act s { header := h, data := pkt.data } else s.countPort p 0)
    else
      let upper := bitsAt pkt.trailer.toNat 255 128
      let seen := s.modPort p (fun x => { x with rxSeq := x.rxSeq + 1 })
      if s.overflows p (hClass h) n then seen.countPort p 2
      else
        match gcmOpen (Config.linkKey p false x.rxGen) (Config.linkIv p false x.rxGen ^^^ BitVec.ofNat 96 x.rxSeq)
          (BitVec.ofNat 384 (h.toNat + 2 ^ 256 * upper)) pkt.data (pkt.trailer.extractLsb' 0 128) with
        | none => (s.countPort p 1).portDown p
        | some data => ((seen.takeCredit p pkt.trailer).checkPacket p { header := h, data := data } pkt.trailer act).serveAll p

/-- A request waits its turn at the head of the ingress queue (R311). -/
def State.arrive (s : State) (p : Nat) (k : TxPkt) : State := s.modPort p (fun x => { x with inReq := x.inReq ++ [k] })

def execWrite (p : Port) (pkt : Packet) (s : State) : Result :=
  .next (s.receive p pkt (isKind 1 0) (fun s k => s.arrive p k))
def execRead (p : Port) (pkt : Packet) (s : State) : Result :=
  .next (s.receive p pkt (isKind 2 0) (fun s k => s.arrive p k))

/-- The outstanding request that a response names, or the response is LATE (R313). -/
def State.matchReq (s : State) (p : Nat) (h : BitVec 256) (ok : RemReq → Bool) (f : State → RemReq → State) : State :=
  match s.twine.reqs.find? (fun r => decide (r.tag = hTag h ∧ r.node = hSnode h) && r.sent && ok r) with
  | some r => f s r
  | none => s.countPort p 5

def execRdata (p : Port) (pkt : Packet) (s : State) : Result :=
  .next (s.receive p pkt (isKind 3 0) (fun s k => s.matchReq p k.header
    (fun r => !r.write && decide (r.addr = hAddr k.header ∧ r.len = hBytes k.header + 1))
    (fun s r => s.landData r (itemBytes k.data) (hPoison k.header))))
def execCack (p : Port) (pkt : Packet) (s : State) : Result :=
  .next (s.receive p pkt (isKind 4 0) (fun s k => s.matchReq p k.header (fun r => r.write) (fun s r => s.resolveWrite r)))
def execNack (p : Port) (pkt : Packet) (s : State) : Result :=
  .next (s.receive p pkt (isKind 5 0) (fun s k => s.matchReq p k.header (fun _ => true) (fun s r => s.resolveFail r 0x03)))

/-- LINK PARAM (R315): the partner is recorded with its credits, and the port goes UP, or DOWN. -/
def State.param (s : State) (p : Nat) (k : TxPkt) : State :=
  if ¬ (s.port p).st = .param then s
  else
    let v := (k.data.getD 0 0).toNat
    let node := bitsAt v 15 0
    let sled := v.testBit 24
    if !decide (s.creditMode p = !v.testBit 25) || (!sled && (s.peer node).dead) then s.portDown p
    else
      let c : Credits := if s.creditMode p then ⟨bitsAt v 47 32, bitsAt v 63 48, bitsAt v 79 64⟩ else {}
      ((s.modPort p (fun x => { x with
        partner := some (node, bitsAt v 23 16, sled)
        credit := c
        passes := 0 })).portState p .up).settleRoutes

def execParam (p : Port) (pkt : Packet) (s : State) : Result :=
  .next (s.receive p pkt (isKind 6 1) (fun s k => s.param p k))

/-- LINK CREDIT carries credit in its trailer alone. -/
def execCredit (p : Port) (pkt : Packet) (s : State) : Result := .next (s.receive p pkt (isKind 6 2) (fun s _ => s))

/-- LINK SPDM: one message for the Distaff (R295). In AUTH the requester sends its next message, until the session is established;
on a link in service the acknowledgement of a KEY_UPDATE gives the direction its new key (R297). -/
def State.takeSpdm (s : State) (p : Nat) (k : TxPkt) : State :=
  let s := s.modPort p (fun x => { x with spdmIn := x.spdmIn ++ [k.data] })
  let x := s.port p
  match x.updates with
  | dir :: _ => if x.st.live && Config.linkAck k.data then s.setPort p (x.rekey dir) else s
  | [] => if x.st == .auth && s.requester p && decide (x.spdmOut ≤ Config.linkRounds p) then s.queueSpdm p [] else s

def execSpdm (p : Port) (pkt : Packet) (s : State) : Result :=
  .next (s.receive p pkt (isKind 6 3) (fun s k => s.takeSpdm p k))

def execDown (p : Port) (pkt : Packet) (s : State) : Result :=
  .next (s.receive p pkt (isKind 6 4) (fun s _ => if (s.port p).st.live then s.portDown p else s))

/-- A control item is discarded; a reserved kind is counted as malformed (R285). -/
def State.control (s : State) (p : Nat) (item : BitVec 256) (fec : Nat) : State :=
  if !s.powered || !(s.port p).st.receives then s
  else
    let s := s.countFec p fec
    if hField item 7 0 ≤ 1 then s else s.countPort p 0

def execIdle (p : Port) (item : RxItem) (s : State) : Result := .next (s.control p item.bits item.fec)
def execFill (p : Port) (item : RxItem) (s : State) : Result := .next (s.control p item.bits item.fec)

/-! ### The transmitter (R297, R299 to R305) -/

/-- A class head can start: in CREDIT mode once the port is UP, with credit for all its items (R300). -/
def State.headGoes (s : State) (p : Nat) (q : List TxPkt) (credit : Nat) : Option TxPkt :=
  match q with
  | k :: _ => if !s.creditMode p || ¬ (s.port p).st = .up || k.items ≤ credit then some k else none
  | [] => none

def State.spend (s : State) (p n : Nat) (f : TPort → Nat → TPort) : State :=
  if s.creditMode p ∧ (s.port p).st = .up then s.modPort p (fun x => f x n) else s

/-- A class's head packet leaves, started with CUT of its items in the FIFO at the least: only a packet that has more of them can
find the FIFO dry, and each FILL item then sent is counted in UNDERRUN (R300). -/
def State.sendHead (s : State) (p : Nat) (k : TxPkt) (fills : Nat) : State :=
  let s := if fills = 0 ∨ k.items ≤ s.fld (Reg.twnPCtl p) 15 8 then s else s.bumpReg (Reg.twnPCount p 3) fills
  (s.transmit p k).serveAll p

def State.egressStart (s : State) (p fills : Nat) : State :=
  let x := s.port p
  let may := x.st == .align || x.st == .auth || x.st == .param || x.st == .up
  if !s.powered || s.pwr.safe.isSome || !may || s.paused p then s
  else
    match s.headGoes p x.lnk x.credit.lnk with
    | some k =>
      let s := s.spend p k.items (fun x n => { x with credit := { x.credit with lnk := x.credit.lnk - n } })
      let s := s.modPort p (fun x => { x with lnk := x.lnk.drop 1, heads := sdel x.heads 0 })
      s.sendHead p k fills
    | none =>
      if ¬ x.st = .up then s
      else
        match s.headGoes p x.rsp x.credit.rsp with
        | some k =>
          let s := s.spend p k.items (fun x n => { x with credit := { x.credit with rsp := x.credit.rsp - n } })
          let s := s.modPort p (fun x => { x with rsp := x.rsp.drop 1, heads := sdel x.heads 1 })
          s.sendHead p k fills
        | none =>
          match s.headGoes p x.req x.credit.req with
          | some k =>
            let s := s.spend p k.items (fun x n => { x with credit := { x.credit with req := x.credit.req - n } })
            let s := s.modPort p (fun x => { x with req := x.req.drop 1, heads := sdel x.heads 2 })
            s.sendHead p k fills
          | none => s.serveAll p

def execEgressPacketStart (x : TxStart) (s : State) : Result := .next (s.egressStart x.port x.fills)

/-- CREDIT_RETURN_TIMER (R301). -/
def execCreditReturnTimer (p : Port) (s : State) : Result :=
  let x := s.port p
  .next (if s.creditMode p ∧ x.st = .up ∧ 256 ≤ x.owed.lnk + x.owed.rsp + x.owed.req ∧
      ¬ (x.lnk ++ x.lnkWait).any (fun k => decide (hSub k.header = 2)) then
    s.queueLnk p { header := s.linkHeader p 2, data := [] }
  else s)

def classCode : PktClass → Nat
  | .lnk => 0
  | .rsp => 1
  | .req => 2

def execCreditWaitExpiry (p : Port) (cls : PktClass) (s : State) : Result :=
  let due := (s.port p).heads.any (fun e => decide (e.1 = classCode cls ∧ e.2 + 1000 ≤ s.tick))
  .next (if (s.port p).st = .up ∧ due then s.portDown p else s)

/-- Packets that a direction's key has protected. -/
def TPort.seq (x : TPort) (dir : LinkDir) : Nat :=
  match dir with
  | .transmit => x.txSeq
  | .receive => x.rxSeq

/-- The Distaff sends a KEY_UPDATE for a direction (R297). -/
def State.keyUpdateStart (s : State) (p : Nat) (dir : LinkDir) : State :=
  let x := s.port p
  if x.st.live ∧ 2 ^ 40 ≤ x.seq dir ∧ dir ∉ x.updates then
    (s.setPort p { x with updates := x.updates ++ [dir] }).queueSpdm p []
  else s

def execKeyUpdateStart (p : Port) (dir : LinkDir) (s : State) : Result := .next (s.keyUpdateStart p dir)

def execKeyUpdateExpiry (p : Port) (dir : LinkDir) (s : State) : Result :=
  let x := s.port p
  .next (if x.st.live ∧ 2 ^ 41 ≤ x.seq dir then s.portDown p else s)

/-! ### Request timers (R313) -/

def execRequestTimeout (tag : BitVec 16) (s : State) : Result :=
  let to_ := s.fld Reg.twnReqTo 19 0
  .next (match s.twine.reqs.find? (fun r => decide (r.tag = tag.toNat)) with
    | some r =>
      if r.at_ + to_ ≤ s.tick then
        let t := s.resolveFail r 0x0F
        { t with twine := { t.twine with late := t.twine.late ++ [(r.tag, s.tick + 16 * to_)] } }
      else s
    | none => s)

def execTagFree (tag : BitVec 16) (s : State) : Result :=
  .next { s with twine := { s.twine with
    late := s.twine.late.filter (fun l => !decide (l.1 = tag.toNat ∧ l.2 ≤ s.tick)) } }

/-! ### Bring-up and failure (R315, R316, R319) -/

def execPortEnable (p : Port) (s : State) : Result :=
  .next (s.whenServing (fun s =>
    if s.portEnabled p ∧ (s.port p).st = .disabled ∧ ¬ s.pwr.drained then s.trainPort p else s))

def execTrainDone (p : Port) (s : State) : Result :=
  .next (s.whenServing (fun s => if (s.port p).st = .train then s.portState p .align else s))

/-- A port whose skew is above 20 ns cannot complete ALIGN (R463). On entry to AUTH the requester begins the session (R295). -/
def execAlignDone (p : Port) (skewNs : Nat) (s : State) : Result :=
  .next (s.whenServing (fun s =>
    if (s.port p).st = .align ∧ skewNs ≤ 20 then
      let s := s.portState p .auth
      if s.requester p then s.queueSpdm p [] else s
    else s))

/-- This device's LINK PARAM payload (Table 11.8). -/
def State.paramItems (s : State) (p : Nat) : List (BitVec 256) :=
  let c := s.creditMode p
  [BitVec.ofNat 256 (packFields [(0, 16, s.nodeId), (16, 8, s.nodeEpoch), (25, 1, if c then 0 else 1),
    (32, 16, if c then 1024 else 0), (48, 16, if c then 32256 else 0), (64, 16, if c then 32256 else 0)]), 0]

/-- The link's SPDM session is one of the sixteen the Distaff holds (R433). -/
def State.ofPort (p : Nat) (x : SpdmSession) : Bool := match x.peer with
  | .port q => decide ((q : Nat) = p)
  | .func _ => false
def State.sessionFits (s : State) (p : Nat) : Bool :=
  s.trust.sessions.any (State.ofPort p) || decide (s.trust.sessions.length < 16)
def State.portSession (s : State) (p : Port) : State :=
  if s.trust.sessions.any (State.ofPort p) then s
  else { s with trust := { s.trust with
      sessions := s.trust.sessions ++
        [{ id := BitVec.ofNat 32 s.trust.nextSession, peer := .port p, ready := true, secret := s.trust.drbg }]
      nextSession := s.trust.nextSession + 1
      drbg := s.trust.drbg + 1 } }

/-- The session of a port's link is established: the requester has received FINISH_RSP, its last answer; the responder has accepted
FINISH and its answer has been sent (R296). -/
def State.linkAgreed (s : State) (p : Nat) : Bool :=
  let x := s.port p
  if s.requester p then decide (Config.linkRounds p < x.spdmIn.length) && s.sessionFits p
  else s.trust.sessions.any (fun y => State.ofPort p y && y.ready) && !(x.lnk ++ x.lnkWait).any (fun k => decide (hSub k.header = 3))

/-- SEC_TWN_ROOT_r: eight registers, the first the least significant. -/
def State.twnRoot (s : State) (r : Nat) : Nat :=
  ((List.range 8).map (fun w => (s.reg (Reg.secTwnRoot r w)).toNat * 2 ^ (32 * w))).sum

/-- The partner's chain passes (R435): a switch sled's ends in a certificate that a SEC_TWN_ROOT register names, and 0 names none. -/
def State.chainPasses (s : State) (x : PartnerChain) : Bool :=
  x.verifies && x.sled.all (fun d => !decide (d = 0) && [0, 1, 2, 3].any (fun r => decide (s.twnRoot r = d.toNat)))

/-- AUTH_DONE (R295, R296, R424, R435). -/
def execAuthDone (p : Port) (chainOk : PartnerChain) (s : State) : Result :=
  .next (s.whenServing (fun s =>
    if (s.port p).st = .auth ∧ s.chainPasses chainOk ∧ s.fld Reg.secStatusLo 17 17 = 1 ∧ s.linkAgreed p then
      let s := (s.portSession p).modPort p (fun x => { x with
        txKey := true, rxKey := true, txGen := x.txGen + 1, rxGen := x.rxGen + 1, txSeq := 0, rxSeq := 0 })
      let s := s.portState p .param
      s.queueLnk p { header := s.linkHeader p 1, data := s.paramItems p }
    else s))

/-- Limit of a state in ticks (Table 11.7). -/
def PortSt.limit : PortSt → Option Nat
  | .train => some 300000
  | .align => some 10000
  | .auth => some 200000
  | .param => some 1000
  | _ => none

def execPortStateLimit (p : Port) (s : State) : Result :=
  let x := s.port p
  .next (match x.st.limit with
    | some n => if x.since + n ≤ s.tick then s.portDown p else s
    | none => s)

def execLinkFailure (p : Port) (why : LinkFailReason) (s : State) : Result :=
  .next (if (s.port p).st.live then
    (if why = .fecUncorrectable then s.countPort p 7 else s).portDown p
  else s)

def execDownRetrain (p : Port) (s : State) : Result :=
  let x := s.port p
  .next (s.whenServing (fun s =>
    if x.st = .down ∧ ¬ x.spent ∧ x.since + 100000 ≤ s.tick then
      (s.setPort p { x with passes := x.passes + 1 }).trainPort p
    else s))

/-- The packets, from the first on, that go into `n` items of a FIFO. -/
def fitting (n : Nat) : List TxPkt → List TxPkt
  | [] => []
  | k :: ks => if k.items ≤ n then k :: fitting (n - k.items) ks else []

/-- ALTERNATE_FAILOVER (R319): the node's queued requests move once all it was sent on the primary has resolved, as far as the
alternate's FIFO has room (R300). -/
def State.failover (s : State) (node : Nat) : State :=
  let t := s.route node
  let moves (r : RemReq) : Bool := decide (r.node = node) && !r.sent && decide (r.port = some t.1)
  if t.1 = 15 ∨ t.1 = t.2 ∨ s.portUp t.1 ∨ ¬ s.portUp t.2 ∨
      s.twine.reqs.any (fun r => r.sent && decide (r.node = node ∧ r.port = some t.1)) then s
  else
    let tags := (s.twine.reqs.filter moves).map (fun r => r.tag)
    let mine (k : TxPkt) : Bool := k.own.any (fun g => tags.contains g)
    let moved := fitting (8192 - (s.port t.2).egress) ((s.port t.1).req.filter mine)
    let goes (k : TxPkt) : Bool := moved.any (fun m => decide (m.own = k.own))
    let s := s.modPort t.1 (fun x => { x with req := x.req.filter (fun k => !goes k) })
    let s := s.modPort t.2 (fun x => { x with req := x.req ++ moved })
    let s := { s with twine := { s.twine with
      reqs := s.twine.reqs.map (fun (r : RemReq) =>
        if moved.any (fun m => decide (m.own = some r.tag)) then { r with port := some t.2 } else r) } }
    (s.watchCredit t.1).watchCredit t.2

def execAlternateFailover (node : BitVec 16) (s : State) : Result :=
  .next (s.whenServing (fun s => s.failover node.toNat))

/-! ### Peers (R320, R321, R454) -/

def State.peerDead (s : State) (n : Nat) : State :=
  let x := s.peer n
  let s := s.setPeer n { epoch := min 255 (x.epoch + 1), dead := true }
  let s := s.twine.reqs.foldl (fun s r => if r.node = n ∧ ¬ n = s.nodeId then s.resolveFail r 0x0C else s) s
  (List.range 8).foldl (fun s p =>
    match (s.port p).partner with
    | some (m, _, sled) => if m = n ∧ ¬ sled ∧ ¬ (s.port p).st = .disabled then s.portOut p .disabled else s
    | none => s) s

def State.applyPeers (s : State) (dead : Bool) : State :=
  s.rel.boundary.foldl (fun s b =>
    match b with
    | .peerDead n => if dead then (s.dropBoundary b).peerDead n else s
    | .peerAlive n => if dead then s else (s.dropBoundary b).setPeer n { s.peer n with dead := false }
    | _ => s) s

def execTwnPeerDeclare (s : State) : Result := .next (s.whenServing (fun s => s.applyPeers true))
def execTwnPeerAdmit (s : State) : Result := .next (s.whenServing (fun s => s.applyPeers false))

/-- A TWN_PEER_CMD for the node in TWN_PEER_IDX. -/
def State.peerCmd (s : State) (v : Nat) : State :=
  let n := s.fld Reg.twnPeerIdx 15 0
  let x := s.peer n
  let bad := s.logInvalid 0 Reg.twnPeerCmd v
  if n = s.nodeId then bad
  else if bitsAt v 1 0 = 1 then (if x.dead then bad else s.atBoundary (.peerDead n))
  else if bitsAt v 1 0 = 2 then (if x.dead ∧ ¬ x.epoch = 255 then s.atBoundary (.peerAlive n) else bad)
  else s

/-! ### The translation table (R307, R308) -/

/-- TWN_XLT_CMD READ. -/
def State.xltRead (s : State) : State :=
  let a := xltAddr (s.fld Reg.twnXltIdx 17 0)
  let g := s.readMem a .thread none
  (List.range 4).foldl (fun s w =>
    s.setReg (Reg.twnXltData w) (BitVec.ofNat 32 (natOfBytes (((bytesOfLine g.1.data).drop (a % 64 + 4 * w)).take 4)))) g.2

/-- No port holds the entry of a page any more (R308). -/
def State.forget (s : State) (page : Nat) : State :=
  { s with twine := { s.twine with ports := s.twine.ports.map (fun e =>
      (e.1, { e.2 with cache := e.2.cache.filter (fun x => !decide (x.1 = page)) })) } }

/-- TWN_XLT_CMD WRITE. -/
def State.xltWrite (s : State) : State :=
  let v := (List.range 4).foldl (fun a w => a + (s.reg (Reg.twnXltData w)).toNat * 2 ^ (32 * w)) 0
  if bitsAt v 31 10 ≠ 0 ∨ bitsAt v 63 50 ≠ 0 ∨ bitsAt v 127 96 ≠ 0 ∨ 62 ≤ bitsAt v 49 44 then s.logInvalid 0 Reg.twnXltCmd 2
  else
    let page := s.fld Reg.twnXltIdx 17 0
    (s.writeBytes (xltAddr page) (bytesOfNat 16 v) false).forget page

def execTwnXltRead (s : State) : Result := .next (s.pfWrite (fun s => s.xltRead))
def execTwnXltWrite (s : State) : Result := .next (s.pfWrite (fun s => s.xltWrite))

end Sys2Proof.Machine
end

