-- ==== Sys2Proof/Machine/HostRings.lean ====
section
/-!
DEFINITION. Rings and contexts (spec/12_host_interface.md R323 to R351): doorbells, posted records, flush reads, interrupts,
host errors, the ring control bit, and the resets that act on contexts.
-/

namespace Sys2Proof.Machine

/-- `new` is ahead of `old` (R332). -/
def ahead (new old : Word) : Bool := decide (1 ≤ (new - old).toNat ∧ (new - old).toNat < 2 ^ 31)

/-! ### Doorbells (R333, R344 to R346) -/

def State.dbSq (s : State) (c : Nat) (tail : Word) : State :=
  let x := s.ctx c
  if !ahead tail x.sqTail then s
  else if s.sqSize c < (tail - x.sqHead).toNat then s.teardown c 0x03 false
  else
    let s := s.setCtx c { x with sqTail := tail }
    { s with pwr := { s.pwr with busyAt := s.tick + 1 } }.readAhead c

def execCtxDbSq (x : Ctx) (tail : Word) (s : State) : Result :=
  .next (s.doorbell x (.ctxDbSq x tail) false (fun s => s.dbSq x tail))

def State.dbCq (s : State) (c : Nat) (head : Word) : State :=
  let x := s.ctx c
  if !ahead head x.cqHead || ahead head x.cqTail then s.refuseDoorbell c 0x004 head
  else s.setCtx c { x with cqHead := head }

def execCtxDbCq (x : Ctx) (head : Word) (s : State) : Result :=
  .next (s.doorbell x (.ctxDbCq x head) false (fun s => s.dbCq x head))

def State.dbEq (s : State) (c : Nat) (head : Word) : State :=
  let x := s.ctx c
  if !ahead head x.eqHead || ahead head x.eqTail then s.refuseDoorbell c 0x008 head
  else s.setCtx c { x with eqHead := head }

def execCtxDbEq (x : Ctx) (head : Word) (s : State) : Result :=
  .next (s.doorbell x (.ctxDbEq x head) false (fun s => s.dbEq x head))

/-- RING_READ_ERROR (R334): the read of a record not yet accepted fails; one made before RUN was cleared may still be
outstanding. -/
def execRingReadError (x : Ctx) (s : State) : Result :=
  .next (s.whenServing (fun s =>
    if ((s.ctx x).st = .running ∨ (s.ctx x).st = .stopping) ∧ ¬ (s.ctx x).sqHead = (s.ctx x).sqRead then s.teardown x 0x04 false else s))

/-! ### Flush reads, interrupts, the ring status block (R265, R342, R343, R348) -/

def State.flushDone (s : State) (c : Nat) (ok : Bool) : State :=
  match (s.ctx c).flushes with
  | [] => s
  | m :: ms =>
    let s := (s.modCtx c (fun x => { x with flushes := ms, flushed := max x.flushed m })).dropPuts
    let s := (s.drainPosts c (s.ctx c).posts).settle c
    let s := match (s.ctx c).posts with
      | [] => s
      | w :: _ => (s.askFlush c w.need).orphans c
    if ok then s
    else s.hostError c (BitVec.ofNat 64 (s.pair (Reg.ctx c Reg.rsbLo) (Reg.ctx c Reg.rsbHi)))

def execFlushReadComplete (x : Ctx) (ok : Bool) (s : State) : Result :=
  .next (if s.powered then s.flushDone x ok else s)

/-- IRQ_DELAY_EXPIRY (R343). -/
def execIrqDelayExpiry (x : Ctx) (s : State) : Result :=
  let c := s.ctx x
  .next (if s.canSend x ∧ 0 < c.unsignalled ∧ c.firstUnsig + s.cfld x Reg.irq 25 16 ≤ s.tick then
    (s.setCtx x { c with unsignalled := 0 }).msix x 0
  else s)

/-- RING_STATUS_WRITE (R342). -/
def execRingStatusWrite (x : Ctx) (s : State) : Result := .next (if (s.ctx x).dirty then s.writeRsb x else s)

/-- The failure of a read whose data are still to be delivered is reported. -/
def State.noteFailed (s : State) (c who : Nat) (tag : Word) (bus : BitVec 64) : State :=
  (s.modCtx c (fun x => { x with hostFails := x.hostFails ++ [who] })).hostError c bus tag

/-- A prompt read fails: its sequence ends with BOUNDS, and the event follows its completion record (R348). -/
def State.promptFailed (s : State) (c uid slot : Nat) (bus : BitVec 64) : State :=
  let q := s.seq uid slot
  if ¬ (s.hankOf uid).any (fun h => decide (h.ctx = c)) ∨ q.st.final then s.hostError c bus
  else
    let s := (s.countError c).modSeq uid slot (fun q => { q with errs := q.errs ++ [(bus, s.tick32)] })
    if q.st = .stepping then s.modSeq uid slot (fun q => { q with fate := some (q.fate.getD 0x03) })
    else (s.endSeq uid slot 0x03).settleHank uid 0

/-- HOST_READ_ERROR (R351), for the requester. A core's and an engine's lines are delivered poisoned where they land. -/
def State.hostReadError (s : State) (c : Nat) (who : HostRequester) (bus : BitVec 64) : State :=
  match who with
  | .prompt uid slot => s.promptFailed c uid slot bus
  | .spill h =>
    if (s.skein h).ctx = c ∧ (s.skein h).st = .spilled then s.restoreFailed c h bus else s.hostError c bus
  | .core n => s.noteFailed c (coreKey n) (s.coreTag n c) bus
  | .winder e => s.noteFailed c (engineKey e) (((s.engine e).desc.map (fun d => d.tag)).getD 0) bus
  | .ring => s.hostError c bus

def execHostReadError (x : Ctx) (who : HostRequester) (bus : BitVec 64) (s : State) : Result :=
  .next (s.whenServing (fun s => s.hostReadError x who bus))

/-! ### RUN (R323, R329, R455) -/

def State.setRun (s : State) (func page c : Nat) (run : Bool) : State :=
  let off := Reg.ctx c Reg.ringCtl
  let st := (s.ctx c).st
  if run then
    (if ¬ st = .idle then s
     else if !(s.ctx c).busMaster || decide (s.pair (Reg.ctx c Reg.rsbLo) (Reg.ctx c Reg.rsbHi) = 0) then
        s.logInvalid func (page + Reg.ringCtl) 1
     else ((s.modCtx c Ctxs.fresh).setReg off 1).enter c .running)
  else if st = .running then ((s.setReg off 0).enter c .stopping).settle c
  else s

def execRingCtlRun (x : Ctx) (run : Bool) (s : State) : Result := .next (s.pageWrite x (fun s => s.setRun x 0 x run))

def execStoppingDone (x : Ctx) (s : State) : Result := .next (s.settle x)

/-! ### Context-level resets (R331) -/

/-- Context reset: torn down if work is held, then IDLE, or OFF if not enabled, once its records have been written. -/
def State.resetCtx (s : State) (c : Nat) : State :=
  if (s.ctx c).closing.isSome then s.modCtx c (fun x => { x with closing := x.closing.map (fun k => { k with next := 1 }) })
  else if (s.ctx c).st = .running ∨ (s.ctx c).st = .stopping then s.teardownFor c { cause := 0x05, next := 1 }
  else if (s.ctx c).posts = [] then s.freshPage c
  else s.modCtx c (fun x => { x with closing := some { cause := 0x05, told := true, next := 1, tears := false } })

/-- An FLR of a function: its context is torn down with nothing posted to it, and reset. -/
def State.flrCtx (s : State) (c : Nat) : State :=
  ((s.teardownFor c { cause := 0x07, mute := true, flr := true }).dropPosts c).freshPage c

def execCtxReset (x : Ctx) (s : State) : Result := .next (s.pfWrite (fun s => s.resetCtx x))

/-- SPDM state of a function goes with its FLR (R433). -/
def State.endFuncSessions (s : State) (p : Nat → Bool) : State :=
  { s with trust := { s.trust with
    sessions := s.trust.sessions.filter (fun x => match x.peer with
      | .func c => !p c
      | .port _ => true)
    conn := s.trust.conn.filter (fun e => !(decide (e.1 < 64) && p e.1)) } }

/-- PCI Express state of a function after an FLR. -/
def Ctxs.flr (x : Ctxs) : Ctxs :=
  { x with busMaster := true, noSnoop := true, relaxed := true, d3hot := false, msix := [], pba := [], bells := [] }

def execVfFlr (x : Ctx) (s : State) : Result :=
  .next (if (x : Nat) = 0 then s else s.cfgRequest (fun s =>
    let me (c : Nat) : Bool := decide (c = (x : Nat))
    ((s.flrCtx x).endFuncSessions me).modCtx x Ctxs.flr))

/-- Every context is torn down and its registers reset; model slots are emptied and an open transaction is discarded. -/
def State.pfFlr (s : State) : State :=
  let s := (List.range 64).foldl (fun s c => s.flrCtx c) s
  let s := s.freeHeldWhere (fun _ => true) 0x09
  let s := (s.endFuncSessions (fun _ => true)).dropUpdate
  { s with
    regs := s.regs.filter (fun e => !decide (ctxBase 0 ≤ e.1 ∧ e.1 < ctxBase 64))
    ctxs := []
    txn := { last := s.txn.last }
    serve := { s.serve with models := [], loads := [], vt := [], charged := [], had := [], stats := [] } }

def execPfFlr (s : State) : Result := .next (s.cfgRequest State.pfFlr)

/-- BUS_MASTER_CLEAR (R323): a context that holds work is torn down at the next tick boundary. -/
def execBusMasterClear (x : Ctx) (s : State) : Result :=
  .next (s.cfgRequest (fun s =>
    let s := s.modCtx x (fun y => { y with busMaster := false })
    if (s.ctx x).st = .running ∨ (s.ctx x).st = .stopping then s.atBoundary (.teardown x 0x04 true) else s))

end Sys2Proof.Machine
end

