-- ==== Sys2Proof/Machine/Inputs.lean ====
section
/-!
DEFINITION. The filtered inputs (spec/14_power_clocks_events.md R398 to R400), and what each of them moves: the pause pins of
the Twine ports (spec/11_twine_fabric.md R304, R305), WAKE_IN# (R410) and THERM_ALERT_IN# (R415).
-/

namespace Sys2Proof.Machine

/-- Index of an input in PWR_IN_STAT_i. -/
def inputIx : PinInput → Nat
  | .wakeIn => 0
  | .thermAlertIn => 1
  | .pauseIn p => 2 + p

def State.input (s : State) (i : Nat) : InputSt := sget noInput s.pwr.inputs i
def State.setInput (s : State) (i : Nat) (x : InputSt) : State :=
  { s with pwr := { s.pwr with inputs := sset noInput s.pwr.inputs i x } }

/-- Masked value of Table 14.3: WAKE_IN# deasserted, the others asserted. -/
def maskedValue (i : Nat) : Bool := !decide (i = 0)

/-- What the input is taken as. -/
def InputSt.taken (x : InputSt) (i : Nat) : Bool := if x.maskTo.isSome then maskedValue i else x.level

/-- Tick since which the taken value has been asserted without a break. -/
def InputSt.count (x : InputSt) (i now : Nat) : InputSt :=
  { x with since := if x.taken i then some (x.since.getD now) else none }

/-- The filter runs: the AON domain always; a pause input in PAUSE mode only (R304). -/
def State.filters (s : State) (i : Nat) : Bool := s.pwr.railsOk && s.pwr.aonOk && (decide (i < 2) || !s.creditMode (i - 2))

/-- The samples at the previous boundary and at this one (`tick`) show a new level: it is accepted, with CHATTER where another
edge came in the three boundaries before (R398, R399). The flag says that a level was accepted. -/
def State.acceptInput (s : State) (i : Nat) (prev cur : Bool) : Bool × State :=
  let x := s.input i
  if !s.filters i || x.maskTo.isSome || !(prev == cur) || cur == x.level then (false, s)
  else
    let chatter := x.lastEdge.any (fun e => decide (s.tick ≤ e + 3 ∧ e < s.tick))
    let y : InputSt := { x with
      level := cur
      lastEdge := some s.tick
      chatter := x.chatter || chatter
      maskTo := if chatter then some (s.tick + 1000) else none
      stuck := if cur then x.stuck else false }
    let s := s.setInput i (y.count i s.tick)
    (true, if chatter ∧ 2 ≤ i then s.countPort (i - 2) 8 else s)

/-- The end of a chatter mask: the level becomes the sample where two samples agree (R399). -/
def State.endMask (s : State) (i : Nat) (prev cur : Bool) : Bool × State :=
  let x := s.input i
  if s.filters i && x.maskTo.any (fun m => decide (m ≤ s.tick)) && prev == cur then
    (true, s.setInput i (({ x with level := cur, maskTo := none } : InputSt).count i s.tick))
  else (false, s)

/-! ### Pause pins -/

/-- The port leaves STALLED once its pause input is released (R305, Table 11.7). -/
def State.unstall (s : State) (p : Nat) : State :=
  if (s.port p).st = .stalled ∧ !(s.input (2 + p)).level then (s.portState p .up).settleRoutes else s

def execPauseInAccept (p : Port) (prev cur : Bool) (s : State) : Result :=
  let r := s.acceptInput (2 + p) prev cur
  .next (if r.1 then r.2.unstall p else s)

/-- An input asserted for `n` ticks (R400). -/
def State.assertedFor (s : State) (i n : Nat) : Bool :=
  let x := s.input i
  s.filters i && x.taken i && x.since.any (fun t => decide (t + n ≤ s.tick))

def State.setStuck (s : State) (i : Nat) : State := s.setInput i { s.input i with stuck := true }

/-- PAUSE_STUCK (R305): the port becomes STALLED. -/
def State.pauseStuck (s : State) (p : Nat) : State :=
  if s.assertedFor (2 + p) (s.fld (Reg.twnPPauseHi p) 23 0) then
    let s := s.setStuck (2 + p)
    if (s.port p).st = .up then (s.portState p .stalled).settleRoutes else s
  else s

def execPauseStuck (p : Port) (s : State) : Result := .next (s.pauseStuck p)

/-! ### Wakes (R406, R410) -/

/-- A drain is cancelled: TARGET reads 0, and the ports that it took to DISABLED train again (R406). -/
def State.cancelDrain (s : State) : State :=
  if !s.pwr.drain then s
  else
    let again := s.pwr.drained
    let s := { s with pwr := { s.pwr with drain := false, drained := false, wakeReq := false, wakeSrc := none } }
    let s := s.setFld Reg.pwrCtl 1 0 0
    if again then
      (List.range 8).foldl (fun s p => if s.portEnabled p ∧ (s.port p).st = .disabled then s.trainPort p else s) s
    else s

/-- An enabled wake source in P2 or P3, or before a request has been carried out. -/
def State.wakeBy (s : State) (src : Nat) : State :=
  if s.pwr.state = .p2 ∨ s.pwr.state = .p3 then
    s.wakeFrom src
  else s.cancelDrain

/-- WAKE_IN_ACCEPT (R398, R406, R410). -/
def State.wakeIn (s : State) (prev cur : Bool) : State :=
  let r := s.acceptInput 0 prev cur
  if r.1 ∧ (r.2.input 0).taken 0 ∧ r.2.fld Reg.pwrWakeEn 0 0 = 1 then r.2.wakeBy 1 else r.2

def execWakeInAccept (prev cur : Bool) (s : State) : Result := .next (s.wakeIn prev cur)

/-- THERM_ALERT_IN# (R415): the throttle follows the level taken. -/
def State.alertIn (s : State) (r : Bool × State) : State :=
  if r.1 ∧ ¬ s.millThrottled ∧ r.2.millThrottled then { r.2 with pwr := { r.2.pwr with smbAlert := true } } else r.2

def execThermAlertAccept (prev cur : Bool) (s : State) : Result := .next (s.alertIn (s.acceptInput 1 prev cur))

/-- CHATTER_MASK_EXPIRY (R399). -/
def State.maskExpiry (s : State) (i : PinInput) (prev cur : Bool) : State :=
  let r := s.endMask (inputIx i) prev cur
  match i with
  | .wakeIn => if r.1 ∧ (r.2.input 0).level ∧ r.2.fld Reg.pwrWakeEn 0 0 = 1 then r.2.wakeBy 1 else r.2
  | .thermAlertIn => s.alertIn r
  | .pauseIn p => if r.1 then r.2.unstall p else r.2

def execChatterMaskExpiry (i : PinInput) (prev cur : Bool) (s : State) : Result := .next (s.maskExpiry i prev cur)

/-- INPUT_STUCK (R400, R410): a stuck WAKE_IN# is recorded once; a stuck pause input stalls its port. -/
def State.inputStuck (s : State) (i : PinInput) : State :=
  match i with
  | .wakeIn =>
    if s.assertedFor 0 (s.fld Reg.pwrInCfgLo 23 0) ∧ ¬ (s.input 0).stuck then (s.setStuck 0).recordWake 1 else s
  | .thermAlertIn => if s.assertedFor 1 (s.fld Reg.pwrInCfgHi 23 0) then s.setStuck 1 else s
  | .pauseIn p => s.pauseStuck p

def execInputStuck (i : PinInput) (s : State) : Result := .next (s.inputStuck i)

end Sys2Proof.Machine
end

