-- ==== Sys2Proof/Machine/RowOps.lean ====
section
/-!
DEFINITION. Row operations on one row (spec/06_spindles_row_logic.md R147, R153, R156; 13_reliability.md R360, R361):
data cells, check cells and class of a row together.
-/

namespace Sys2Proof.Machine

/-- A row as its sense amplifiers hold it: 1,024 data bytes, 64 check bytes, its class. -/
structure RowImg where
  data : List Nat
  chk  : List Nat
  cls  : RowClass
deriving DecidableEq, Repr

def State.readRow (s : State) (l : Loc) : RowImg :=
  let rk := s.rowKey l
  ⟨(sgetMany noByte s.mem.data (rk * 1024) 1024).map BitVec.toNat, (sgetMany noByte s.mem.chk (rk * 64) 64).map BitVec.toNat,
    s.rowClass rk⟩

/-- Write a row and its tag; every staged line of it is invalidated (R61). -/
def State.writeRow (s : State) (l : Loc) (r : RowImg) : State :=
  let rk := s.rowKey l
  let s := { s with mem := { s.mem with
    data := ssetMany noByte s.mem.data (rk * 1024) (r.data.map (BitVec.ofNat 8))
    chk := ssetMany noByte s.mem.chk (rk * 64) (r.chk.map (BitVec.ofNat 8)) } }
  (s.setRowClass rk r.cls).unstageRow l

/-- A function of the bits of three rows, on data and check cells alike. -/
def rowBits (f : Nat → Nat → Nat → Nat) (a b c : RowImg) (cls : RowClass) : RowImg :=
  let go (x y z : List Nat) : List Nat := List.zipWith (fun p w => f p.1 p.2 w) (List.zip x y) z
  ⟨go a.data b.data c.data, go a.chk b.chk c.chk, cls⟩

/-- Class of a logic result (Table 6.7). -/
def logicClass (l : List RowImg) : RowClass := if l.all (fun r => r.cls == .raw) then .raw else .unsealed

def maj (a b c : Nat) : Nat := Nat.lor (Nat.lor (Nat.land a b) (Nat.land b c)) (Nat.land a c)

def rowCopyOf (a : RowImg) : RowImg := a
def rowZero : RowImg := ⟨List.replicate 1024 0, List.replicate 64 0, .sealed⟩
def rowNot (a : RowImg) : RowImg := rowBits (fun x _ _ => 255 - x) a a a (logicClass [a])
def rowAnd (a b : RowImg) : RowImg := rowBits (fun x y _ => Nat.land x y) a b b (logicClass [a, b])
def rowOr (a b : RowImg) : RowImg := rowBits (fun x y _ => Nat.lor x y) a b b (logicClass [a, b])
def rowXor (a b : RowImg) : RowImg := rowBits (fun x y _ => Nat.xor x y) a b b (logicClass [a, b])
def rowMaj (a b c : RowImg) : RowImg := rowBits maj a b c (logicClass [a, b, c])

/-- Line i of a row through a Spindle's decoder: what is passed on, data and check symbols; `fresh`: the check symbols of a
row that was not SEALED are computed afresh (R156), or kept. -/
def State.spindlePass (s : State) (l : Loc) (r : RowImg) (fresh : Bool) (i : Nat) : List Nat × List Nat × State :=
  let d := (r.data.drop (64 * i)).take 64
  let k := (r.chk.drop (4 * i)).take 4
  if r.cls = .sealed then
    match classifyLine (d ++ k) with
    | .clean => (d, k, s)
    | .poisonMark => (d, k, s)
    | .correctable p v => let d := xorAt d p v; (d, rsCheck rsGen4 d, s.countCe l.stack)
    | .uncorrectable =>
      let l := { l with line := i }
      (d, k, s.foundUe (s.addrOf l) l .spindle none)
  else (d, if fresh then rsCheck rsGen4 d else k, s)

/-- A row passed through the Spindle from `src` to `dst`, with class `cls` (RESEAL and SCOPY). -/
def State.throughSpindle (s : State) (src dst : Loc) (fresh : Bool) (cls : RowClass) : State :=
  let r := s.readRow src
  let out := (List.range 16).foldl (fun (acc : List Nat × List Nat × State) i =>
    let x := acc.2.2.spindlePass src r fresh i
    (acc.1 ++ x.1, acc.2.1 ++ x.2.1, x.2.2)) ([], [], s)
  out.2.2.writeRow dst ⟨out.1, out.2.1, cls⟩

def State.resealRow (s : State) (l : Loc) : State := s.throughSpindle l l true .sealed
def State.scopyRow (s : State) (src dst : Loc) : State := s.throughSpindle src dst false (s.readRow src).cls
def State.markRaw (s : State) (l : Loc) : State := s.writeRow l { s.readRow l with cls := .raw }

/-- One row operation, by the codes of Table 6.8 (the first seven are those of ROWOP). -/
def State.rowOperation (s : State) (op : Nat) (dst a b c : Loc) : State :=
  match op with
  | 0 => s.writeRow dst (rowCopyOf (s.readRow a))
  | 1 => s.writeRow dst rowZero
  | 2 => s.writeRow dst (rowNot (s.readRow a))
  | 3 => s.writeRow dst (rowAnd (s.readRow a) (s.readRow b))
  | 4 => s.writeRow dst (rowOr (s.readRow a) (s.readRow b))
  | 5 => s.writeRow dst (rowXor (s.readRow a) (s.readRow b))
  | 6 => s.writeRow dst (rowMaj (s.readRow a) (s.readRow b) (s.readRow c))
  | 7 => s.resealRow dst
  | 8 => s.markRaw dst
  | _ => s.scopyRow a dst

/-- ZERO of every row of a block (R180). -/
def State.zeroBlock (s : State) (b : Nat) : State :=
  (List.range 128).foldl (fun s q => s.writeRow (s.inBlock b (1024 * q)).2 rowZero) s

def State.resealBlock (s : State) (b : Nat) : State :=
  (List.range 128).foldl (fun s q => s.resealRow (s.inBlock b (1024 * q)).2) s

/-! ### Cost of a step (Tables 6.4 and 6.7, R158, R473) -/

def opUnits (op : Nat) : Nat :=
  match op with
  | 0 => 16
  | 1 => 16
  | 2 => 24
  | 3 => 32
  | 4 => 32
  | 5 => 48
  | 6 => 32
  | 7 => 17
  | 8 => 4
  | _ => 32

def opBusy (op : Nat) (buddy : Bool) : Nat :=
  match op with
  | 0 => 48
  | 1 => 40
  | 2 => 56
  | 3 => 72
  | 4 => 72
  | 5 => 112
  | 6 => 72
  | 7 => if buddy then 62 else 44
  | 8 => 28
  | _ => if buddy then 88 else 56

end Sys2Proof.Machine
end

