-- ==== Sys2Proof/Machine/Spindles.lean ====
section
/-!
DEFINITION. Spindles and row logic (spec/06_spindles_row_logic.md): pending steps and the activation budget, row requests,
extended commands, the start and end of a Spindle's commands, and aborted steps.
-/

namespace Sys2Proof.Machine

/-! ### Extended commands as data (R136 to R138) -/

/-- Bits hi:lo of an XCMD. -/
def xf (x : Xcmd) (hi lo : Nat) : Nat := bitsAt x.toNat hi lo
def xop (x : Xcmd) : Nat := xf x 3 0
def xDie (x : Xcmd) : Nat := xf x 7 4
def xBg (x : Xcmd) : Nat := xf x 11 8
def xEpoch (x : Xcmd) : Nat := xf x 19 12
def xTag (x : Xcmd) : Nat := xf x 27 20
def xPri (x : Xcmd) : Bool := x.getLsbD 28
def xForeign (x : Xcmd) : Bool := x.getLsbD 29

def buddyBg (bg : Nat) : Nat := if bg % 2 = 0 then bg + 1 else bg - 1
def spdIndex (k die bg : Nat) : Nat := 256 * k + 16 * die + bg
/-- Spindle that executes a command for a bank group. -/
def execSpindle (k die bg : Nat) (foreign : Bool) : Nat := spdIndex k die (if foreign then buddyBg bg else bg)

/-- Bits that a command's rows of Table 6.2 list, by XOP. -/
def xMask (op : Nat) : Nat :=
  let common := span 0 29
  match op with
  | 1 => Nat.lor common (spans [(32, 46), (48, 79)])
  | 2 => Nat.lor common (spans [(32, 62), (64, 100)])
  | 3 => Nat.lor common (span 32 79)
  | 4 => Nat.lor common (span 32 61)
  | 5 => Nat.lor common (spans [(32, 36), (40, 103)])
  | 6 => Nat.lor common (span 32 61)
  | _ => common

/-- A reserved bit or encoding of the command's own layout. -/
def xFormBad (x : Xcmd) : Bool :=
  !decide (Nat.land x.toNat (2 ^ 128 - 1 - xMask (xop x)) = 0) ||
  (match xop x with
    | 2 => decide (xf x 59 48 = 0 ∨ ¬ xf x 47 32 % 32 = 0)
    | 5 =>
      let op := xf x 34 32
      decide (op = 7) || (decide (op = 1) && !decide (xf x 71 56 = 0)) ||
        (!decide (3 ≤ op) && !decide (xf x 87 72 = 0)) || (!decide (op = 6) && !decide (xf x 103 88 = 0))
    | _ => false)

/-- The command's die and bank group lie on the pseudo-channel, and its epoch is the Spindle's. -/
def State.xAddressOk (s : State) (k ch : Nat) (x : Xcmd) (bg : Nat) : Bool :=
  decide (xDie x = ch / 2 ∧ bg / 8 = ch % 2 ∧
    xEpoch x = (s.spindle (execSpindle k (xDie x) bg (xForeign x))).epoch.toNat)

/-- Location of a row of a command's bank group. -/
def rowAt (k : Nat) (x : Xcmd) (bank row : Nat) : Loc := ⟨k, xDie x, 4 * xBg x + bank, row, 0⟩

/-! ### Pending steps (R144, R146, R160, R473) -/

def State.pushStep (s : State) (k : Nat) (q : PStep) : State :=
  let r := s.rowOf k
  s.setRow k { r with pend := r.pend ++ [q] }

/-- The next step of a Spindle's running command: `i` steps have been granted. It is pending once the bank-group path is free
for its row. -/
def State.stepOfCmd (s : State) (n : Nat) (c : SpdCmd) (i : Nat) : PStep :=
  let x := c.x
  let k := n / 256
  let f := xForeign x
  let bank (b : Nat) : Nat := 64 * xDie x + 4 * xBg x + b
  let q : PStep := {
    kind := .spindle
    bg := 16 * xDie x + xBg x
    banks := []
    units := 16
    len := 16
    busy := 40
    spindle := some n
    dest := []
    act := .command
    notBefore := (s.spindle n).pathTo
    tag := xTag x
    loc := rowAt k x (xf x 49 48) (xf x 47 32 + i) }
  match xop x with
  | 2 =>
    if x.getLsbD 62 ∧ i = 0 then
      { q with
        kind := .mask
        banks := [bank (xf x 65 64)]
        units := 1
        len := 1
        busy := 25
        loc := { rowAt k x (xf x 65 64) (xf x 81 66) with line := xf x 88 82 / 8 } }
    else
      let row := if x.getLsbD 62 then i - 1 else i
      { q with
        banks := [bank (row % 4)]
        len := if f then 32 else 16
        busy := if f then 56 else 40
        loc := decodeLoc 2 (encodeLoc 2 (rowAt k x 0 (xf x 47 32)) + 1024 * row) }
  | 3 =>
    { q with
      kind := .scopy
      banks := [bank (xf x 49 48), bank (xf x 67 66)]
      units := 32
      len := opBusy 9 f
      busy := if f then 56 else 40
      dest := [s.rowKey (rowAt k x (xf x 67 66) (xf x 65 50 + i))]
      loc := rowAt k x (xf x 67 66) (xf x 65 50 + i) }
  | _ =>
    { q with
      kind := .reseal
      banks := [bank (xf x 49 48)]
      units := 17
      len := opBusy 7 f
      busy := opBusy 7 f
      dest := [s.rowKey (rowAt k x (xf x 49 48) (xf x 47 32 + i))] }

/-- A row operation's step on a row of the stack. -/
def State.opStep (s : State) (op : Nat) (l : Loc) (act : StepAct) : PStep :=
  { kind := .rowop
    bg := 16 * l.die + l.bank / 4
    banks := [64 * l.die + l.bank]
    units := opUnits op
    len := opBusy op false
    busy := opBusy op false
    spindle := none
    dest := [s.rowKey l]
    act := act
    loc := l }

/-- Steps a command takes: the rows of groups that hold tokens, and the mask word (R140, R146). -/
def cmdSteps (c : SpdCmd) : Nat :=
  let x := c.x
  match xop x with
  | 2 =>
    let g := groupTokens (if x.getLsbD 60 then 4 else 8) ((c.q.map (fun q => q.d)).getD 32)
    2 * ((xf x 59 48 + g - 1) / g) + (if x.getLsbD 62 then 1 else 0)
  | 3 => xf x 79 68 + 1
  | _ => xf x 61 50 + 1

/-! ### Queues of the Spindles (R133, R139) -/

def State.spdAlive (s : State) (n : Nat) : Bool := (s.spindle n).state == .alive

/-- The controller sends a command to a Spindle once its queue has a place; until then it holds it (R139). -/
def State.enqueueSpd (s : State) (n : Nat) (c : SpdCmd) : State :=
  let p := s.spindle n
  if p.queue.length < 4 ∧ p.backlog = [] then s.setSpindle n { p with queue := p.queue ++ [c] }
  else s.setSpindle n { p with backlog := p.backlog ++ [c] }

/-- The Spindle that serves a bank group, and whether it is the buddy (R166). -/
def State.serverOf (s : State) (l : Loc) : Nat × Bool :=
  let f := !s.spdAlive (spdIndex l.stack l.die (l.bank / 4))
  (execSpindle l.stack l.die (l.bank / 4) f, f)

/-- An SCOPY (or, with `dst` none, RESEAL) command for `n` rows from `src` on. -/
def State.spdXcmd (s : State) (src : Loc) (dst : Option Loc) (n : Nat) (pri : Bool) : Xcmd :=
  let v := s.serverOf src
  let common := [(4, 4, src.die), (8, 4, src.bank / 4), (12, 8, (s.spindle v.1).epoch.toNat), (28, 1, if pri then 1 else 0),
    (29, 1, if v.2 then 1 else 0), (32, 16, src.row), (48, 2, src.bank % 4)]
  BitVec.ofNat 128 (match dst with
    | some d => packFields ((0, 4, 3) :: common ++ [(50, 16, d.row), (66, 2, d.bank % 4), (68, 12, n - 1)])
    | none => packFields ((0, 4, 4) :: common ++ [(50, 12, n - 1)]))

/-! ### Row requests (R149 to R151) -/

namespace RowBody
def op (b : BitVec 512) : Nat := bitsAt b.toNat 3 0
def count (b : BitVec 512) : Nat := bitsAt b.toNat 23 8
def tcEn (b : BitVec 512) : Bool := b.getLsbD 24
def tc (b : BitVec 512) : Nat := bitsAt b.toNat 43 32
def dst (b : BitVec 512) : Nat := bitsAt b.toNat 105 64
def srcA (b : BitVec 512) : Nat := bitsAt b.toNat 169 128
def srcB (b : BitVec 512) : Nat := bitsAt b.toNat 233 192
def srcC (b : BitVec 512) : Nat := bitsAt b.toNat 297 256
end RowBody

/-- Sources an operation uses. -/
def opSources (op : Nat) : Nat :=
  match op with
  | 0 => 1
  | 2 => 1
  | 3 => 2
  | 4 => 2
  | 5 => 2
  | 6 => 3
  | 9 => 1
  | _ => 0

/-- The source addresses used in step k. -/
def rowSources (b : BitVec 512) (k : Nat) : List Nat :=
  ([RowBody.srcA b, RowBody.srcB b, RowBody.srcC b].take (opSources (RowBody.op b))).map (fun a => a + 1024 * k)

/-- One step keeps R148; an SCOPY's rows lie in one region mode (Table 6.9). -/
def State.rowStepFits (s : State) (b : BitVec 512) (k : Nat) : Bool :=
  let d := RowBody.dst b + 1024 * k
  let ld := s.locate d
  decide (d + 1024 ≤ memTop) && (rowSources b k).all (fun a =>
    let l := s.locate a
    decide (a + 1024 ≤ memTop ∧ s.rmode (regionOf a) = s.rmode (regionOf d)) && (if RowBody.op b = 9
      then decide (l.stack = ld.stack ∧ l.die = ld.die ∧ l.bank / 4 = ld.bank / 4)
      else decide (l.stack = ld.stack ∧ l.die = ld.die ∧ l.bank = ld.bank ∧ l.row / 512 = ld.row / 512)))

/-- Every line of one step passes R115. -/
def State.rowStepGranted (s : State) (c : Nat) (b : BitVec 512) (k : Nat) : Bool :=
  s.rangeOk c (RowBody.dst b + 1024 * k) 1024 true && (rowSources b k).all (fun a => s.rangeOk c a 1024 false)

/-- A Spindle can execute RESEAL and SCOPY steps of the bank group. -/
def State.groupServed (s : State) (l : Loc) : Bool :=
  !((s.spindle (spdIndex l.stack l.die (l.bank / 4))).state == .deadUnserved)

/-- The code that a whole request fails with, steps 2 and 3 of R150. -/
def State.rowCheck (s : State) (c : Nat) (b : BitVec 512) : Option Nat :=
  let ks := List.range (RowBody.count b + 1)
  if !decide (RowBody.dst b % 1024 = 0) || (rowSources b 0).any (fun a => !decide (a % 1024 = 0)) ||
      !ks.all (s.rowStepFits b) then some 0x02
  else if !ks.all (s.rowStepGranted c b) then some 0x03
  else if 7 ≤ RowBody.op b ∧ RowBody.op b ≠ 8 ∧
      !ks.all (fun k => s.groupServed (s.locate (RowBody.dst b + 1024 * k))) then some 0x0C
  else none

def State.modRow (s : State) (c id : Nat) (f : RowReq → RowReq) : State :=
  s.modCtx c (fun x => { x with rowQ := x.rowQ.map (fun r => if r.id = id then f r else r) })

/-- Step k of a context's request becomes pending: RESEAL and SCOPY as commands of the Spindle that serves the bank group
(R139), the others at the bank. DESIGN CHOICE: the commands are sent with PRI 0 (notes/assumptions/173.md). -/
def State.sendRowStep (s : State) (c id : Nat) (b : BitVec 512) (k : Nat) : State :=
  let l := s.locate (RowBody.dst b + 1024 * k)
  let src := (rowSources b k).map s.locate
  let op := RowBody.op b
  if op = 7 then s.enqueueSpd (s.serverOf l).1 { x := s.spdXcmd l none 1 false, owner := some (c, id) }
  else if op = 9 then
    s.enqueueSpd (s.serverOf l).1 { x := s.spdXcmd (src.getD 0 l) (some l) 1 false, owner := some (c, id) }
  else s.pushStep l.stack (s.opStep op l (.request c id))

/-- The context's oldest request starts, unless it has: it is checked whole, and its first step becomes pending. -/
def State.startRow (s : State) (c : Nat) : State :=
  match (s.ctx c).rowQ with
  | [] => s
  | r :: _ =>
    if r.started || s.pwr.drain then s
    else
      match s.rowCheck c r.body with
      | some code => s.modRow c r.id (fun r => { r with started := true, fail := some code })
      | none => (s.modRow c r.id (fun r => { r with started := true })).sendRowStep c r.id r.body 0

/-- A step of a request has written its row: it is counted, and the next one becomes pending (R151). -/
def State.rowStepDone (s : State) (c : Nat) (r : RowReq) (k endAt : Nat) : State :=
  let b := r.body
  let s := if RowBody.tcEn b then s.tcAdd (RowBody.tc b) 1024 else s
  let s := s.modRow c r.id (fun r => { r with done := r.done + 1, endAt := (endAt, k) })
  if r.done + 1 ≤ RowBody.count b ∧ (s.ctx c).closing.isNone then s.sendRowStep c r.id b (r.done + 1) else s

def State.rowReq (s : State) (c id : Nat) : Option RowReq := (s.ctx c).rowQ.find? (fun r => decide (r.id = id))

/-- A granted step of a context's request. -/
def State.requestStep (s : State) (k g : Nat) (q : PStep) (c id : Nat) : State :=
  match s.rowReq c id with
  | none => s
  | some r =>
    let d := s.locate (RowBody.dst r.body + 1024 * r.done)
    let src := (rowSources r.body r.done).map s.locate
    if !s.bankAnswers d then s.modRow c id (fun r => { r with fail := some 0x03 })
    else
      (s.rowOperation (RowBody.op r.body) d (src.getD 0 d) (src.getD 1 d) (src.getD 2 d)).rowStepDone c r k (g + q.busy)

/-- Conditions of R150 step 1, and bits that the record's layout does not assign. -/
def State.rowreqBad (s : State) (c : Nat) (rec_ : Record) : Option Nat :=
  let v := rec_.toNat
  let b : BitVec 512 := BitVec.ofNat 512 (recField rec_ 1023 512)
  let used := opSources (RowBody.op b)
  refusalOffset (lowestOutside v (spans [(0, 7), (512, 1023), (1984, 2015)]) 0 2047) []
    (lowestOutside v (spans [(512, 515), (520, 536), (544, 555), (576, 617), (640, 681), (704, 745), (768, 809)]) 512 1023)
    [(64, decide (9 < RowBody.op b)), (68, !s.tcInRange c (RowBody.tc b)),
      (80, decide (used < 1) && !decide (RowBody.srcA b = 0)), (88, decide (used < 2) && !decide (RowBody.srcB b = 0)),
      (96, decide (used < 3) && !decide (RowBody.srcC b = 0))]

/-- ROWREQ (R149 to R151). -/
def execRowreq (x : Ctx) (rec : Record) (s : State) : Result :=
  .next (s.acceptRecord x rec 0x30 (s.rowreqBad x rec) 1 (recTag rec) (fun s =>
    (s.modCtx x (fun y => { y with
      rowQ := y.rowQ ++ [{ id := y.nextRow, body := BitVec.ofNat 512 (recField rec 1023 512), tag := recTag rec }]
      nextRow := y.nextRow + 1 })).startRow x))

/-- The request has failed, or performed its last step, whose bank-busy period is over. -/
def State.rowOver (s : State) (r : RowReq) : Bool :=
  r.started && (r.fail.isSome || (decide (RowBody.count r.body < r.done) && decide (r.endAt.1 ≤ s.sclkNow r.endAt.2)))

/-- ROWREQ_COMPLETE (R151): the oldest request completes, and the next one starts. -/
def State.rowreqComplete (s : State) (c : Nat) : State :=
  match (s.ctx c).rowQ with
  | [] => s
  | r :: rs =>
    if s.rowOver r then
      ((s.modCtx c (fun x => { x with rowQ := rs })).final c
        { rkind := 0x30, status := r.fail.getD 0, tag := r.tag, count := r.done }).startRow c
    else s.startRow c

def execRowreqComplete (x : Ctx) (s : State) : Result := .next (s.rowreqComplete x)

/-! ### The activation budget (R157 to R160) -/

/-- Limit that the Governor's throttle leaves (R234). -/
def State.governorLimit (s : State) (k : Nat) : Nat :=
  let units := s.fld (Reg.spdBudgetLo k) 16 0
  max (min units (s.fld Reg.govThrottle 16 0)) (units - s.serve.throttle * (units / 8))

/-- Thermal limit (R414). -/
def State.thermalLimit (s : State) (k : Nat) : Nat :=
  let units := s.fld (Reg.spdBudgetLo k) 16 0
  if s.pwr.deepHot.getLsbD k then max 16 (units / 8)
  else if s.pwr.stkHot.getLsbD k || s.millThrottled then max 16 (units / 2)
  else units

/-- SPD_BUDGET_k.EFFECTIVE (R158). -/
def State.effectiveBudget (s : State) (k : Nat) : Nat :=
  min (s.fld (Reg.spdBudgetLo k) 16 0) (min (s.governorLimit k) (s.thermalLimit k))

/-- Steps that occupy a die in an SCLK. -/
def occupied (booked : List (Nat × Nat × Nat)) (die x : Nat) : Nat :=
  (booked.filter (fun e => decide (e.1 = die ∧ e.2.1 ≤ x ∧ x < e.2.2))).length

def PStep.start (q : PStep) (now : Nat) : Nat :=
  if q.kind = .spindle ∨ q.kind = .mask then now + 12 else now

/-- A bank lets a step start: it is idle, and nothing waits there, or 16 accesses have been served since its last step beside
those that were owed (R160, R161). -/
def bankFree (r : StackRow) (now b : Nat) : Bool :=
  let x := (sget noBank r.banks b).settle now
  decide (x.busyTo ≤ now) && (x.waits.isEmpty || decide (x.first = 0 ∧ 16 ≤ x.served))

/-- The step is pending: its time has come and its banks let it start. -/
def PStep.ready (q : PStep) (r : StackRow) (now : Nat) : Bool := decide (q.notBefore ≤ now) && q.banks.all (bankFree r now)

/-- The steps considered in one SCLK: at most one per Spindle, and one row-operation step per bank, in arrival order. -/
def considered (r : StackRow) (now : Nat) : List PStep → List Nat → List Nat → List PStep
  | [], _, _ => []
  | q :: qs, spds, banks =>
    match q.spindle with
    | some n =>
      if spds.contains n then considered r now qs spds banks
      else if q.ready r now then q :: considered r now qs (n :: spds) banks
      else considered r now qs (n :: spds) banks
    | none =>
      if q.banks.any (fun b => banks.contains b) then considered r now qs spds banks
      else if q.ready r now then q :: considered r now qs spds (q.banks ++ banks)
      else considered r now qs spds (q.banks ++ banks)

/-- Rotation order after the bank group of the last grant. -/
def rotation (last : Nat) (qs : List PStep) : List PStep :=
  ((List.range 256).map (fun i => qs.filter (fun q => decide (q.bg = (last + 1 + i) % 256)))).flatten

/-- Banks of a step: until when each is busy. -/
def busyUntil (q : PStep) (now : Nat) : List (Nat × Nat) :=
  if q.kind = .scopy then
    match q.banks with
    | [a, b] => [(a, now + q.busy), (b, now + q.len)]
    | l => l.map (fun b => (b, now + q.len))
  else q.banks.map (fun b => (b, now + q.busy))

def removeStep (q : PStep) : List PStep → List PStep
  | [] => []
  | x :: xs => if x = q then xs else x :: removeStep q xs

/-! #### What a granted step does -/

/-- The mask word of a SCAN is read (R140, R142). -/
def State.readMask (s : State) (k : Nat) (c : SpdCmd) : SpdCmd × State :=
  let x := c.x
  let w := xf x 88 82
  let l : Loc := { rowAt k x (xf x 65 64) (xf x 81 66) with line := w / 8 }
  let r := s.spindleLine (s.addrOf l) l c.flags
  ({ c with mask := natOfBytes ((r.1.drop (w % 8 * 8)).take 8), flags := r.2.1 }, r.2.2)

def SpdCmd.bits (c : SpdCmd) : Nat := if c.x.getLsbD 60 then 4 else 8
def SpdCmd.d (c : SpdCmd) : Nat := (c.q.map (fun q => q.d)).getD 32

/-- Row i of a SCAN's block is read. -/
def State.readScanRow (s : State) (k : Nat) (c : SpdCmd) (i : Nat) : SpdCmd × State :=
  let blk := encodeLoc 2 (rowAt k c.x 0 (xf c.x 47 32)) / 2 ^ 17
  let r := s.scanRowBytes blk i c.bits c.d (scanPlaces c.bits c.d (xf c.x 59 48) i) c.flags
  ({ c with got := c.got ++ [r.1], flags := r.2.1 }, r.2.2)

/-- The SCLK in which a SCAN's records are ready, when its last row is granted in SCLK g (Table 6.6). DESIGN CHOICE: half an SCLK
at the end of the merge is rounded down (notes/assumptions/174.md). -/
def SpdCmd.readyAt (c : SpdCmd) (g : Nat) : Nat :=
  g + 12 + (if xForeign c.x then 32 else 16) + 4 + ((c.q.map (fun q => q.rows.length)).getD 0) * (4 * c.d + 32) / 64

/-- What step i of a Spindle's command does to memory, and to what the command has in hand. -/
def State.commandData (s : State) (k : Nat) (c : SpdCmd) (i : Nat) : SpdCmd × State :=
  let x := c.x
  match xop x with
  | 2 => if x.getLsbD 62 then (if i = 0 then s.readMask k c else s.readScanRow k c (i - 1)) else s.readScanRow k c i
  | 3 =>
    (c, if c.ghost then s
      else s.scopyRow (rowAt k x (xf x 49 48) (xf x 47 32 + i)) (rowAt k x (xf x 67 66) (xf x 65 50 + i)))
  | _ => (c, if c.ghost then s else s.resealRow (rowAt k x (xf x 49 48) (xf x 47 32 + i)))

/-- The row request that the command serves goes on. -/
def State.ownerStep (s : State) (k endAt : Nat) (c : SpdCmd) : State :=
  match c.owner with
  | none => s
  | some o =>
    match s.rowReq o.1 o.2 with
    | none => s
    | some r => (s.rowStepDone o.1 r k endAt).finishTeardown o.1

/-- SCLK cycles for which a step keeps its Spindle's path from the command's next step: its data cycles (R146, R473). DESIGN CHOICE:
of a RESEAL step the whole bank-busy period (notes/assumptions/175.md). -/
def PStep.pathTime (q : PStep) : Nat :=
  match q.kind with
  | .mask => 16
  | .scopy => if q.len = 56 then 32 else 64
  | _ => q.len

/-- A granted step of Spindle n's command, in SCLK g. -/
def State.commandStep (s : State) (g n : Nat) (q : PStep) : State :=
  match (s.spindle n).run with
  | none => s
  | some c =>
    let k := n / 256
    let i := c.total - c.steps
    let r := s.commandData k c i
    let c1 := { r.1 with steps := c.steps - 1, endAt := c.readyAt g }
    let last := c1.steps == 0
    let s := r.2.setSpindle n { r.2.spindle n with
      run := if last && !(xop c.x == 2) then none else some c1
      pathTo := g + q.pathTime }
    if last then s.ownerStep k (g + q.len) c else s.pushStep k (s.stepOfCmd n c1 (i + 1))

def State.stepEffect (s : State) (k g : Nat) (q : PStep) : State :=
  match q.act with
  | .none => s
  | .op op d a b c => if s.bankAnswers d then s.rowOperation op d a b c else s
  | .request c id => s.requestStep k g q c id
  | .command => match q.spindle with
    | some n => s.commandStep g n q
    | none => s

/-- The step may be granted in SCLK `now`: the budget and the die's cap allow it. -/
def State.fitsBudget (s : State) (k now : Nat) (q : PStep) : Bool :=
  let r := s.rowOf k
  let used := if r.window = s.tick then r.used else 0
  decide (used + q.units ≤ s.effectiveBudget k) && (List.range q.len).all (fun i =>
    decide (occupied r.booked (q.bg / 16) (q.start now + i) < s.fld Reg.spdDieCap 3 0))

/-- A grant: the budget is charged, the die and the banks are taken, and the step is made. -/
def State.grantStep (s : State) (k now : Nat) (q : PStep) : State :=
  let r := s.rowOf k
  let used := if r.window = s.tick then r.used else 0
  let st := q.start now
  let take (m : Sparse BankSt) (e : Nat × Nat) : Sparse BankSt :=
    smod noBank m e.1 (fun b => { b.settle now with busyTo := e.2, step := some q, held := some q })
  (s.setRow k { r with
    pend := removeStep q r.pend
    window := s.tick
    used := used + q.units
    booked := r.booked.filter (fun e => decide (now < e.2.2)) ++ [(q.bg / 16, st, st + q.len)]
    lastBg := q.bg
    banks := (busyUntil q now).foldl take r.banks }).stepEffect k now q

/-- One pending step: granted, or counted as refused. -/
def State.tryGrant (s : State) (k now : Nat) (acc : Bool) (q : PStep) : Bool × State :=
  if s.fitsBudget k now q then (acc, s.grantStep k now q) else (true, s)

/-- Row logic works in a stack. -/
def State.rowLogicRuns (s : State) (k : Nat) : Bool := s.serving && !s.stackIsLost k && !s.pwr.tripped.getLsbD k

/-- An event names SCLK `now` of a stack. -/
def State.reachSclk (s : State) (k now : Nat) : State :=
  let r := s.rowOf k
  s.setRow k { r with now := max r.now now }

/-- STEP_GRANT (R160): one SCLK of a stack's grants. -/
def State.stepGrant (s : State) (k g : Nat) : State :=
  if !s.rowLogicRuns k then s
  else
    let s := s.reachSclk k (750 * s.tick + g)
    let now := s.sclkNow k
    let r := s.rowOf k
    let qs := rotation r.lastBg (considered r now r.pend [] [])
    let out := qs.foldl (fun (acc : Bool × State) q =>
      if q.banks.all (bankFree (acc.2.rowOf k) now) then acc.2.tryGrant k now acc.1 q else acc) (false, s)
    if out.1 then out.2.bumpReg (Reg.spdPerfDeny k) 1 else out.2

def execStepGrant (k : Stack) (g : SclkInTick) (s : State) : Result := .next (s.stepGrant k g)

/-- A row operation's step reaches its bank: where nothing is pending in the stack and the step can be granted, it is granted at
once, otherwise it is pending. -/
def State.offerStep (s : State) (k : Nat) (q : PStep) : State :=
  let now := s.sclkNow k
  let idle := (s.rowOf k).pend == [] && q.ready (s.rowOf k) now && s.fitsBudget k now q
  if s.rowLogicRuns k && idle then s.grantStep k now q else s.pushStep k q

/-- BUDGET_WINDOW (R157): the window of the new tick begins with nothing used. -/
def execBudgetWindow (k : Stack) (s : State) : Result :=
  let r := s.rowOf k
  .next (if r.window = s.tick then s else s.setRow k { r with window := s.tick, used := 0 })

/-! ### Extended commands (R137 to R141) -/

/-- XCMD_FAULT (R138), for the Spindle that discards the command. -/
def State.xcmdFault (s : State) (n : Nat) (x : Xcmd) : State :=
  s.log { typ := 0x06, source := 2, unit := n, info := x.toNat % 2 ^ 64 }

/-- The Spindle that executes a command. -/
def xTarget (k : Nat) (x : Xcmd) : Nat := execSpindle k (xDie x) (xBg x) (xForeign x)

/-- A command arrives: one with a reserved XOP is discarded, and one with another operation is met by that operation's row. -/
def State.asXcmd (s : State) (op k : Nat) (x : Xcmd) (f : State → State) : State :=
  if ¬ s.serving then s
  else if xop x = 0 ∨ 8 ≤ xop x then s.xcmdFault (xTarget k x) x
  else if xop x = op then f s
  else s

/-- A query buffer is used by a queued or running SCAN. -/
def Spindle.bufBusy (p : Spindle) (b : Bool) : Bool :=
  (p.queue ++ p.run.toList).any (fun c => xop c.x == 2 && c.x.getLsbD 61 == b)

def queryRows (d : Nat) (q : List (BitVec 16)) (n : Nat) : List (List (BitVec 16)) :=
  (List.range n).map (fun r => (List.range d).map (fun i => q.getD (d * r + i) 0))

/-- QLOAD at one bank group of BGMASK. -/
def State.qloadOne (s : State) (k ch : Nat) (x : Xcmd) (query : List (BitVec 16)) (i : Nat) : State :=
  let bg := 8 * (ch % 2) + i
  let n := execSpindle k (xDie x) bg (xForeign x)
  let p := s.spindle n
  let b := x.getLsbD 40
  if xFormBad x || !s.xAddressOk k ch x bg || !s.spdAlive n || p.bufBusy b then s.xcmdFault n x
  else
    let d := 32 * (xf x 46 44 + 1)
    let q : QBuf := { d := d, rows := queryRows d query (xf x 43 41 + 1), sigma := BitVec.ofNat 32 (xf x 79 48) }
    s.setSpindle n (if b then { p with qb1 := some q } else { p with qb0 := some q })

def execQload (k : Stack) (ch : Channel) (x : Xcmd) (query : List (BitVec 16)) (s : State) : Result :=
  .next (s.asXcmd 1 k x (fun s =>
    ((List.range 8).filter (fun i => x.getLsbD (32 + i))).foldl (fun s i => s.qloadOne k ch x query i) s))

/-- An access of the device's own to a line of block b still waits. -/
def BankAcc.ownBlock (b : Nat) : BankAcc → Bool
  | .own a _ _ _ _ _ => decide (a / 2 ^ 17 = b)
  | _ => false

/-- Every append write to the block has passed its CHIP point (R185). -/
def State.appended (s : State) (b : Nat) : Bool :=
  let l := decodeLoc 2 (b * 2 ^ 17)
  [0, 1, 2, 3].all (fun i => !(s.bankSt { l with bank := l.bank / 4 * 4 + i }).waits.any (fun w => w.2.ownBlock b))

/-- The SCAN that a plan of the serving layer waits for: the Skein's bank group and first row, its format, count, mask word
and query rows, with every merge slot held (R174, R187, R193). -/
def State.planMatches (s : State) (k : Nat) (x : Xcmd) (q : QBuf) (p : ScanPlan) : Bool :=
  let e := s.skein p.handle
  s.appended e.block &&
  let l := decodeLoc 2 (e.block * 2 ^ 17)
  p.bound.isNone && decide (l.stack = k ∧ l.die = xDie x ∧ l.bank / 4 = xBg x ∧ l.row = xf x 47 32 ∧
    p.ntok = xf x 59 48 ∧ p.q = q) && e.fmt == x.getLsbD 60 && (p.mask == (if x.getLsbD 62 then some (xf x 88 82, xf x 100 89) else none)) &&
    (!x.getLsbD 62 || decide (xf x 65 64 = 3 ∧ xf x 81 66 = l.row + 31)) &&
    p.rows.all (fun id => s.serve.rows.any (fun m => decide (m.id = id) && m.reserved))

/-- The first plan of a list that fits is bound to a Spindle's command. -/
def bindFirst (fits : ScanPlan → Bool) (b : Nat × Nat) : List ScanPlan → List ScanPlan
  | [] => []
  | p :: ps => if fits p then { p with bound := some b } :: ps else p :: bindFirst fits b ps

/-- DESIGN CHOICE: a command that a dead Spindle would execute is discarded like one whose epoch differs
(notes/assumptions/154.md). -/
def State.scanCmd (s : State) (k ch : Nat) (x : Xcmd) : State :=
  let n := xTarget k x
  let p := s.spindle n
  let q := if x.getLsbD 61 then p.qb1 else p.qb0
  if xFormBad x || !s.xAddressOk k ch x (xBg x) || !s.spdAlive n || q.isNone then s.xcmdFault n x
  else
    let s := s.enqueueSpd n { x := x, q := q }
    let q := q.getD { d := 32, rows := [], sigma := 0 }
    { s with serve := { s.serve with plans := bindFirst (s.planMatches k x q) (n, xTag x) s.serve.plans } }

def execScan (k : Stack) (ch : Channel) (x : Xcmd) (s : State) : Result :=
  .next (s.asXcmd 2 k x (fun s => s.scanCmd k ch x))

/-- SCOPY and RESEAL wait in the Spindle's queue (R139). DESIGN CHOICE: rows past 65,535 make the command one with a reserved
encoding (notes/assumptions/154.md). -/
def State.queuedCmd (s : State) (k ch : Nat) (x : Xcmd) : State :=
  let n := xTarget k x
  let rows := if xop x = 3 then xf x 79 68 else xf x 61 50
  let last := (if xop x = 3 then max (xf x 47 32) (xf x 65 50) else xf x 47 32) + rows
  if xFormBad x || !s.xAddressOk k ch x (xBg x) || !s.spdAlive n || decide (65535 < last) then s.xcmdFault n x
  else s.enqueueSpd n { x := x }

def execScopy (k : Stack) (ch : Channel) (x : Xcmd) (s : State) : Result :=
  .next (s.asXcmd 3 k x (fun s => s.queuedCmd k ch x))

def execReseal (k : Stack) (ch : Channel) (x : Xcmd) (s : State) : Result :=
  .next (s.asXcmd 4 k x (fun s => s.queuedCmd k ch x))

/-- MKRAW (R147): rows of one bank, each a step at the bank. -/
def State.mkrawCmd (s : State) (k ch : Nat) (x : Xcmd) : State :=
  if xFormBad x || !s.xAddressOk k ch x (xBg x) || decide (65535 < xf x 47 32 + xf x 61 50) then s.xcmdFault (xTarget k x) x
  else (List.range (xf x 61 50 + 1)).foldl (fun s i =>
    let l := rowAt k x (xf x 49 48) (xf x 47 32 + i)
    s.offerStep k (s.opStep 8 l (.op 8 l l l l))) s

def execMkraw (k : Stack) (ch : Channel) (x : Xcmd) (s : State) : Result :=
  .next (s.asXcmd 6 k x (fun s => s.mkrawCmd k ch x))

/-- The plan of a partial's command, by Spindle and CTAG. -/
def planOf (n tag : Nat) (p : ScanPlan) : Bool := decide (p.bound = some (n, tag))

/-- A partial record goes on its way to its merge row (R141). -/
def State.deliverPartial (s : State) (p : ScanPlan) (r : PartialRec) : State :=
  match p.rows[r.qrow]? with
  | none => s
  | some id =>
    { s with serve := { s.serve with rows := s.serve.rows.map (fun m =>
        if m.id = id then { m with inbox := m.inbox ++ [(p.pos, r)] } else m) } }

/-- Bytes of a partial record (Table 6.3). -/
def PartialRec.bytes (r : PartialRec) : List Nat :=
  (r.part.o.map (fun v => bytesOfNat 4 v.toNat)).flatten ++ bytesOfNat 4 r.part.m.toNat ++ bytesOfNat 4 r.part.l.toNat ++
    [(if r.poison then 1 else 0) + (if r.unsealed then 2 else 0) + (if r.empty then 4 else 0), r.ctag, r.qrow] ++
    List.replicate 21 0

/-- PREAD (R137): every record held for CTAG is read out, in order, stamped with the Spindle's epoch (R167); a poisoned one ends
the sequences concerned (Table 13.2). -/
def State.preadCmd (s : State) (k ch : Nat) (x : Xcmd) : State :=
  let n := xTarget k x
  let p := s.spindle n
  if xFormBad x || !s.xAddressOk k ch x (xBg x) || !s.spdAlive n then s.xcmdFault n x
  else
    let recs := p.out.filter (fun r => decide (r.ctag = xTag x))
    let s := s.setSpindle n { p with out := p.out.filter (fun r => !decide (r.ctag = xTag x)) }
    let s := { s with reply := .pread p.epoch ((recs.map PartialRec.bytes).flatten.map (BitVec.ofNat 8)) }
    if recs = [] then s
    else
      match s.serve.plans.find? (planOf n (xTag x)) with
      | none => s
      | some plan =>
        let s := recs.foldl (fun s r => s.deliverPartial plan r) s
        let s := if recs.any (fun r => r.poison) then s.loseSkein plan.handle (recs.any (fun r => r.unsealed)) else s
        { s with serve := { s.serve with plans := s.serve.plans.filter (fun q => !planOf n (xTag x) q) } }

def execPread (k : Stack) (ch : Channel) (x : Xcmd) (s : State) : Result :=
  .next (s.asXcmd 7 k x (fun s => s.preadCmd k ch x))

/-! ### ROWOP (R147, R148) -/

def sameSubarray (a b : Nat) : Bool := a / 512 == b / 512

/-- Rows of a ROWOP that lie in different subarrays. -/
def rowopSplit (x : Xcmd) : Bool :=
  let op := xf x 34 32
  let d := xf x 55 40
  (!decide (op = 1) && !sameSubarray d (xf x 71 56)) || (decide (3 ≤ op) && !sameSubarray d (xf x 87 72)) ||
    (decide (op = 6) && !sameSubarray d (xf x 103 88))

/-- One ROWOP command: its operation on rows of one bank, through the activation budget. -/
def State.rowopCmd (s : State) (k ch : Nat) (x : Xcmd) : State :=
  if xFormBad x || !s.xAddressOk k ch x (xBg x) || rowopSplit x then s.xcmdFault (xTarget k x) x
  else
    let l (row : Nat) : Loc := rowAt k x (xf x 36 35) row
    let op := xf x 34 32
    s.offerStep k (s.opStep op (l (xf x 55 40)) (.op op (l (xf x 55 40)) (l (xf x 71 56)) (l (xf x 87 72)) (l (xf x 103 88))))

/-- A ROWOP whose OP is `op`, or the reserved one. -/
def State.rowop (s : State) (op k ch : Nat) (x : Xcmd) : State :=
  s.asXcmd 5 k x (fun s => if xf x 34 32 = op ∨ xf x 34 32 = 7 then s.rowopCmd k ch x else s)

def execRowCopy (k : Stack) (ch : Channel) (x : Xcmd) (s : State) : Result := .next (s.rowop 0 k ch x)
def execZero (k : Stack) (ch : Channel) (x : Xcmd) (s : State) : Result := .next (s.rowop 1 k ch x)
def execNotRow (k : Stack) (ch : Channel) (x : Xcmd) (s : State) : Result := .next (s.rowop 2 k ch x)
def execAndRow (k : Stack) (ch : Channel) (x : Xcmd) (s : State) : Result := .next (s.rowop 3 k ch x)
def execOrRow (k : Stack) (ch : Channel) (x : Xcmd) (s : State) : Result := .next (s.rowop 4 k ch x)
def execXorRow (k : Stack) (ch : Channel) (x : Xcmd) (s : State) : Result := .next (s.rowop 5 k ch x)
def execMaj3 (k : Stack) (ch : Channel) (x : Xcmd) (s : State) : Result := .next (s.rowop 6 k ch x)

/-! ### The start and end of a Spindle's commands (R139, R146) -/

/-- The partial records of a SCAN, from what it has read (R140 to R143). -/
def SpdCmd.records (c : SpdCmd) : List PartialRec :=
  let x := c.x
  match c.q with
  | none => []
  | some q =>
    let slot0 := xf x 100 89
    let masked (t : Nat) : Bool :=
      x.getLsbD 62 && decide (slot0 ≤ t ∧ t < slot0 + 64) && !c.mask.testBit (t - slot0)
    let f := c.flags
    let empty : Bool := (List.range (xf x 59 48)).all masked
    (if f.poison then q.rows.map (fun _ => Partial.nan q.d) else scanPartials c.bits q.d (xf x 59 48) q c.got masked).mapIdx
      (fun i p =>
        { ctag := xTag x, qrow := i, d := q.d, part := p, poison := f.poison, unsealed := f.poison && f.unsealed,
          empty := empty && !f.poison })

def recBytes (r : PartialRec) : Nat := 4 * r.d + 32

/-- Room in the output buffer for a SCAN's records (R139). -/
def Spindle.room (p : Spindle) (c : SpdCmd) : Bool :=
  match c.q with
  | none => true
  | some q => decide ((p.out.map recBytes).sum + q.rows.length * (4 * q.d + 32) ≤ 16384)

/-- The next command to start: latency-critical first, then arrival order (R139). -/
def Spindle.nextCmd (p : Spindle) : Option SpdCmd :=
  match p.queue.find? (fun c => xPri c.x) with
  | some c => some c
  | none => p.queue.head?

def removeFirst (c : SpdCmd) : List SpdCmd → List SpdCmd
  | [] => []
  | x :: xs => if x = c then xs else x :: removeFirst c xs

/-- SPINDLE_CMD_START (R139): the place it leaves in the queue is filled from what the controller holds. -/
def State.spindleStart (s : State) (n : Nat) : State :=
  let p := s.spindle n
  match p.run, p.nextCmd with
  | none, some c =>
    if !s.serving || !s.spdAlive n || !p.room c then s
    else
      let total := cmdSteps c
      let c1 := { c with steps := total, total := total, started := s.tick }
      (s.setSpindle n { p with
        run := some c1
        queue := removeFirst c p.queue ++ p.backlog.take 1
        backlog := p.backlog.drop 1 }).pushStep (n / 256) (s.stepOfCmd n c1 0)
  | _, _ => s

def execSpindleCmdStart (n : SpindleIx) (s : State) : Result := .next (s.spindleStart n)

/-- SCAN_COMPLETE (R146): the records are written to the output buffer in SCLK g. A report stamped with another epoch than the
Spindle's is dropped and counted (R167). -/
def State.scanComplete (s : State) (n : Nat) (epoch : BitVec 8) (g : Nat) : State :=
  if !s.serving then s
  else
    let p := s.spindle n
    if ¬ epoch = p.epoch then s.bumpReg Reg.glbStaleDrops 1
    else
      match p.run with
      | none => s
      | some c =>
        if xop c.x = 2 ∧ c.steps = 0 ∧ c.endAt ≤ max (s.sclkNow (n / 256)) (750 * s.tick + g) then
          (s.setSpindle n { p with run := none, out := p.out ++ c.records }).reachSclk (n / 256) (750 * s.tick + g)
        else s

def execScanComplete (e : ScanEnd) (s : State) : Result :=
  .next (s.scanComplete e.spindle e.epoch e.sclk)

/-! ### Aborted steps (R164, R165) -/

/-- The records of an aborted scan are poisoned, with UNSEALED set (R165). -/
def poisonRecs (tag : Nat) (l : List PartialRec) : List PartialRec :=
  l.map (fun r => if r.ctag = tag then { r with part := Partial.nan r.d, poison := true, unsealed := true, empty := false } else r)

/-- What an aborted step leaves of its Spindle's command: a scan is poisoned, whether it still runs or has completed; a copy
goes on with its other rows. -/
def State.abortCommand (s : State) (n : Nat) (q : PStep) : State :=
  let p := s.spindle n
  if q.kind = .spindle ∨ q.kind = .mask then
    s.setSpindle n { p with
      run := p.run.map (fun (c : SpdCmd) => if xop c.x = 2 ∧ xTag c.x = q.tag then
        { c with flags := { poison := true, unsealed := true, logged := c.flags.logged } } else c)
      out := poisonRecs q.tag p.out }
  else s

/-- The row request that an aborted step belongs to: of a row operation its own, of a Spindle's command that of its owner. -/
def State.requestOf (s : State) (q : PStep) : Option (Nat × Nat) :=
  match q.act with
  | .request c id => some (c, id)
  | _ => (s.ctxs.findSome? (fun e => (e.2.rowQ.find? (fun r =>
      decide (RowBody.op r.body = 7 ∨ RowBody.op r.body = 9) && r.started && decide (0 < r.done) &&
      q.dest.contains (s.rowKey (s.locate (RowBody.dst r.body + 1024 * (r.done - 1)))))).map (fun r => (e.1, r.id))))

/-- The request completes with TIMEOUT, and none of its further steps is made. -/
def State.failRequest (s : State) (c id code : Nat) : State :=
  let s := s.rowLogic.foldl (fun s e =>
    let r := s.rowOf e.1
    s.setRow e.1 { r with pend := r.pend.filter (fun q => !(q.act == .request c id)) }) s
  let keep (x : SpdCmd) : Bool := !(x.owner == some (c, id))
  let s := s.spindles.foldl (fun s e =>
    let p := s.spindle e.1
    s.setSpindle e.1 { p with queue := p.queue.filter keep, backlog := p.backlog.filter keep }) s
  s.modRow c id (fun r => { r with fail := some code })

/-- Every bank that the step holds is free from SCLK `now` on. -/
def State.freeBanks (s : State) (k now : Nat) (q : PStep) : State :=
  let r := s.rowOf k
  let free (x : BankSt) : BankSt := { x with busyTo := min x.busyTo now, held := none }
  s.setRow k { r with
    banks := q.banks.foldl (fun m b => if (sget noBank m b).held = some q then smod noBank m b free else m) r.banks }

/-- The step that holds a bank is aborted: its destination row, its command, its request, the log entry, and the report of the
Spindle concerned. -/
def State.abortStep (s : State) (l : Loc) (now : Nat) (q : PStep) : State :=
  let n := q.spindle.getD (s.serverOf { l with bank := q.bg % 16 * 4 }).1
  let bySpindle := !(q.kind == StepKind.rowop)
  let req := s.requestOf q
  let s := q.dest.foldl (fun s rk => s.setRowClass rk .unsealed) s
  let s := match q.spindle with
    | some m => s.abortCommand m q
    | none => s
  let s := match req with
    | some r => s.failRequest r.1 r.2 0x0F
    | none => s
  let s := s.freeBanks l.stack now q
  let s := s.logAt { typ := 0x07, status := 0x0F, source := 0, unit := n, info := if bySpindle then 0 else 1 } (s.addrOf q.loc) q.loc
  if bySpindle then s.atBoundary (.spindleDead n 4) else s

/-- An access has waited 1,500 SCLK at the bank: the step that was granted there last has not ended, as none that waited has been
served since, whatever time the step should have taken. -/
def State.abortDue (s : State) (l : Loc) (now : Nat) : Option PStep :=
  let b := s.bankSt l
  if b.waits.any (fun w => decide (w.1 + 1500 ≤ now)) then b.held else none

end Sys2Proof.Machine
end

