-- ==== Sys2Proof/Machine/ServeOps.lean ====
section
/-!
DEFINITION. What serving rests on (spec/07_skeins_attention.md R178 to R194, spec/08_serving.md): model shapes and hank
buffers, copies of Skein rows and slots, the growth and fork of chains, parking and eviction, and lost Skeins.
-/

namespace Sys2Proof.Machine

/-! ### Models and hanks (Tables 8.1 and 8.2) -/

def Model.specMode (m : Model) : Nat := m.bits 9 8
def Model.nlayer (m : Model) : Nat := m.bits 23 16 + 1
def Model.nkv (m : Model) : Nat := m.bits 29 24 + 1
def Model.nqpk (m : Model) : Nat := m.bits 37 32 + 1
def Model.hd (m : Model) : Nat := m.bits 42 40
def Model.d (m : Model) : Nat := 32 * (m.hd + 1)
def Model.fmt (m : Model) : Bool := m.rec_.getLsbD 43
def Model.nheads (m : Model) : Nat := m.bits 47 44
def Model.gmask (m : Model) : BitVec 8 := BitVec.ofNat 8 (m.bits 55 48)
def Model.allows (m : Model) (c : Nat) : Bool := m.rec_.getLsbD (64 + c)
def Model.ctxlim (m : Model) : Nat := m.bits 151 128
/-- Query heads NH. -/
def Model.nh (m : Model) : Nat := m.nkv * m.nqpk
/-- Bytes of a token's elements, and the carrier size C of R215. -/
def Model.ebytes (m : Model) : Nat := m.d * (if m.fmt then 4 else 8) / 8
def Model.epad (m : Model) : Nat := (m.ebytes + 63) / 64 * 64
def Model.carrier (m : Model) : Nat := 2 * m.epad + 64

def Hank.maxSteps (h : Hank) : Nat := h.f 95 80
def Hank.pchunk (h : Hank) : Nat := h.f 108 96 + 1
def Hank.append (h : Hank) : Nat := h.f 233 192
def Hank.candList (h : Hank) : Nat := h.f 297 256
def Hank.verdict (h : Hank) : Nat := h.f 361 320
def Hank.qbuf (h : Hank) (sub : Bool) : Nat := if sub then h.f 489 448 else h.f 425 384
def Hank.ybuf (h : Hank) (sub : Bool) : Nat := if sub then h.f 617 576 else h.f 553 512
def Hank.qtc (h : Hank) (sub : Bool) : Nat := if sub then h.f 663 652 else h.f 651 640
def Hank.ytc (h : Hank) (sub : Bool) : Nat := if sub then h.f 695 684 else h.f 683 672
def Hank.sigma (h : Hank) : F32 := BitVec.ofNat 32 (h.f 735 704)
def Hank.statsBuf (h : Hank) : Nat := h.f 809 768
def Hank.progPrefill (h : Hank) : Nat := h.f 873 832
def Hank.progDraft (h : Hank) : Nat := h.f 937 896
def Hank.progMain (h : Hank) : Nat := h.f 1001 960
/-- Slots of sub-batch 0 (R213). -/
def Hank.half (h : Hank) : Nat := (h.nseq + 1) / 2
def Hank.subSize (h : Hank) (sub : Bool) : Nat := if sub then h.nseq - h.half else h.half
def Hank.subFirst (h : Hank) (sub : Bool) : Nat := if sub then h.half else 0
/-- R of R214 at its largest for the hank. -/
def Hank.rmax (h : Hank) : Nat := max h.pchunk (1 + h.nmax)
/-- R of R214 for a step of a phase. -/
def Hank.rows (h : Hank) (ph : Phase) : Nat := if ph = .prefill then h.pchunk else 1 + h.nmax

def State.modelOf (s : State) (h : Hank) : Option Model := if h.stream then none else s.model h.model

/-- Depth limit of R226. -/
def State.depthMax (s : State) (h : Hank) (m : Model) : Nat :=
  let lim := if m.specMode = 1 then 16 else if m.specMode = 2 then m.nheads else 0
  min (s.cfld h.ctx Reg.govSpec 4 0) (min lim h.nmax)

/-! ### Copying rows and slots of Skeins (R181, R188, R194) -/

/-- Rows of a block that hold data: 2⌈NTOK ÷ G⌉. -/
def Skein.dataRows (e : Skein) : Nat := 2 * ((e.ntok + e.g - 1) / e.g)

/-- The first `rows` rows of a block hold what the device has written there (notes/assumptions/186.md). -/
def State.flushRows (s : State) (blk rows : Nat) : State :=
  (List.range rows).foldl (fun s q => s.flushRow (s.inBlock blk (1024 * q)).2) s

/-- The bank that holds bank offset i of a block's bank group. -/
def State.blockBank (s : State) (blk i : Nat) : Loc :=
  let l := (s.inBlock blk 0).2
  { l with bank := l.bank / 4 * 4 + i }

/-- No step holds a bank of the block, and nothing waits there (R161, R162). -/
def State.blockQuiet (s : State) (blk : Nat) : Bool := [0, 1, 2, 3].all (fun i => s.bankQuiet (s.blockBank blk i))

/-- Copy a row over the stack interface, line by line, with its class. -/
def State.copyRowOver (s : State) (src dst : Nat × Loc) : State :=
  let cls := s.rowClass (s.rowKey src.2)
  let s := (List.range 16).foldl (fun s i =>
    let g := s.readLoc (src.1 + 64 * i) { src.2 with line := i } .channel none
    g.2.writeLoc (dst.1 + 64 * i) { dst.2 with line := i } g.1.data fullMask g.1.poison) s
  (s.setRowClass (s.rowKey dst.2) cls).unstageRow dst.2

/-- Blocks of one bank group have equal low parts above the five block bits; a half of 16 shares its subarrays. -/
def sameGroup (a b : Nat) : Bool := a / 32 % 2048 == b / 32 % 2048
def sameHalf (a b : Nat) : Bool := a / 16 == b / 16

/-- The Governor's own step on a row that it has written (notes/assumptions/36.md). -/
def State.govStep (s : State) (op : Nat) (l : Loc) : State := s.pushStep l.stack (s.opStep op l .none)

/-- The Governor's own SCOPY or RESEAL command for rows that it has written. -/
def State.govCommand (s : State) (src : Loc) (dst : Option Loc) (n : Nat) (pri : Bool) : State :=
  if n = 0 then s else s.enqueueSpd (s.serverOf src).1 { x := s.spdXcmd src dst n pri, ghost := true }

/-- Copy the data rows of a Skein to another block: ROW-COPY within a subarray half, SCOPY within a bank group that a Spindle
serves, otherwise the stack interface (R181, R188); `pri`: for a latency-critical hank (R139). -/
def State.copyBlock (s : State) (src dst rows : Nat) (pri : Bool) : State :=
  let s := s.flushRows src rows
  let at_ (b q : Nat) : Nat × Loc := s.inBlock b (1024 * q)
  if sameHalf src dst then
    (List.range rows).foldl (fun s q => (s.writeRow (at_ dst q).2 (s.readRow (at_ src q).2)).govStep 0 (at_ dst q).2) s
  else if sameGroup src dst && s.groupServed (at_ src 0).2 then
    let s := (List.range rows).foldl (fun s q => s.scopyRow (at_ src q).2 (at_ dst q).2) s
    (List.range 4).foldl (fun s i => s.govCommand (at_ src i).2 (some (at_ dst i).2) ((rows + 3 - i) / 4) pri) s
  else (List.range rows).foldl (fun s q => s.copyRowOver (at_ src q) (at_ dst q)) s

def maskRow : Nat := 127
def State.maskLoc (s : State) (blk : Nat) : Loc := (s.inBlock blk (1024 * maskRow)).2

/-- Bytes at an offset of a block through the stack interface. -/
def State.blockBytes (s : State) (blk off n : Nat) : List Nat × Bool × State :=
  (List.range ((off % 64 + n + 63) / 64)).foldl (fun (acc : List Nat × Bool × State) i =>
    let p := acc.2.2.inBlock blk (off / 64 * 64 + 64 * i)
    let g := (acc.2.2.flushRow p.2).readLoc p.1 p.2 .channel none
    (acc.1 ++ bytesOfLine g.1.data, acc.2.1 || g.1.poison, g.2)) ([], false, s)
  |> fun r => ((r.1.drop (off % 64)).take n, r.2.1, r.2.2)

/-- Write bytes at an offset of a block (R104), a line at a time, each waiting at a busy bank (R161). -/
def State.putBlock (s : State) (blk off : Nat) (b : List Nat) (poison : Bool) : State :=
  (List.range ((off % 64 + b.length + 63) / 64)).foldl (fun s i =>
    let start := if i = 0 then off else off / 64 * 64 + 64 * i
    let lm := partialLine start ((b.drop (start - off)).take (64 - start % 64))
    let p := s.inBlock blk (start / 64 * 64)
    s.ownWrite p.1 p.2 lm.1 lm.2 poison none) s

/-- A block's row 127 becomes a mask row: RAW by MKRAW (R191), its words 64 to 127 zero (R192). -/
def State.makeMask (s : State) (b : Nat) : State :=
  let l := s.maskLoc b
  (((s.flushRow l).markRaw l).govStep 8 l).putBlock b (1024 * maskRow + 512) (List.replicate 512 0) false

/-- R191: row 127 becomes the mask row; or it is ZEROed and SPEC cleared. -/
def State.setSpec (s : State) (h : Nat) : State :=
  let e := s.skein h
  if e.spec then s else (s.makeMask e.block).setSkein h { e with spec := true }
def State.clearSpec (s : State) (h : Nat) : State :=
  let e := s.skein h
  let l := s.maskLoc e.block
  if ¬ e.spec ∨ 1 < e.refs then s else (((s.flushRow l).writeRow l rowZero).govStep 1 l).setSkein h { e with spec := false }

/-- The four fields of a slot: offset and size (R172, R174). -/
def slotFields (b d slot : Nat) : List (Nat × Nat) :=
  [(elemOff b d slot, d * b / 8), (elemOff b d slot + 1024, d * b / 8), (scaleOff b d slot, d / 16),
    (scaleOff b d slot + 1024, d / 16)]

/-- Copy a token's key and value from one slot to another, as line and scale-field writes. -/
def State.copySlot (s : State) (e1 : Skein) (s1 : Nat) (e2 : Skein) (s2 : Nat) : State :=
  (List.zip (slotFields e1.bits e1.d s1) (slotFields e2.bits e2.d s2)).foldl (fun s f =>
    let r := s.blockBytes e1.block f.1.1 f.1.2
    r.2.2.putBlock e2.block f.2.1 r.1 r.2.1) s

/-! ### Chains -/

def chainKey (l j : Nat) : Nat := l * 64 + j
def Seq.chain (q : Seq) (l j : Nat) : List Nat := sget noChain q.chains (chainKey l j)

/-- Layers and KV heads of a model. -/
def Model.heads (m : Model) : List (Nat × Nat) :=
  ((List.range m.nlayer).map (fun l => (List.range m.nkv).map (fun j => (l, j)))).flatten

/-- The handle, chain position and slot that hold token position `t` (R170). -/
def State.placeIn (s : State) (t : Nat) : List Nat → Nat → Option (Nat × Nat × Nat)
  | [], _ => none
  | h :: hs, i =>
    match s.placeIn t hs (i + 1) with
    | some x => some x
    | none => if (s.skein h).basepos ≤ t then some (h, i, t - (s.skein h).basepos) else none

/-- Every Skein of a sequence's chains is RESIDENT (R229), where a Spindle serves it (R168), and not being spilled (R228). -/
def State.seqResident (s : State) (ch : Sparse (List Nat)) : Bool :=
  (chainHandles ch).all (fun h => (s.skein h).st == .resident && (s.skein h).spillTo.isNone && !s.serve.evac.contains h)

/-- What growing a chain comes to. -/
inductive Grow (α : Type) where
  | done (a : α)
  /-- no zeroed block, or the ceiling of the context (R227) -/
  | lack
  /-- a 4,097th Skein (R63) -/
  | limit
deriving DecidableEq, Repr

/-- Where a forked Skein goes (R188): the same subarray half, the same bank group, any, in that order; the last apart from the Skein
before it in the chain (R182). -/
def State.forkBlock (s : State) (src : Nat) (prev : Option Nat) : Option Nat × State :=
  match ((List.range 16).map (fun i => src / 16 * 16 + i)).find? s.blockFree with
  | some b => (some b, s)
  | none =>
    match ((List.range 1984).map (fun i => i / 32 * 65536 + src / 32 % 2048 * 32 + i % 32)).find? s.blockFree with
    | some b => (some b, s)
    | none => s.chooseBlock (prev.map (fun h => (s.skein h).block / 32 % 2048))

/-- Fork a shared Skein, behind `prev` in its chain (R184, R188); `lc`: for a step of a latency-critical hank. -/
def State.forkSkein (s : State) (c h : Nat) (prev : Option Nat) (lc : Bool) : Option (Nat × State) :=
  if s.atCeiling c then none
  else
    let b := s.forkBlock (s.skein h).block prev
    match b.1 with
    | none => none
    | some blk =>
      let d := b.2.draw
      match d.2.findHandle 4194304 d.1 with
      | none => none
      | some h2 =>
        let e := s.skein h
        let s := (d.2.setSkein h2 { e with refs := 1, block := blk, spec := false, spillTo := none }).setOwner blk (h2 + 1)
        some (h2, (s.copyBlock e.block blk e.dataRows lc).setSkein h { e with refs := e.refs - 1 })

/-- New Skeins at the end of a chain until it covers token positions below `target`. -/
def State.extendChain (s : State) (c : Nat) (m : Model) (spec : Bool) (target : Nat) :
    Nat → Nat → List Nat → Grow (List Nat × State)
  | 0, _, _ => .limit
  | fuel + 1, cover, chain =>
    if target ≤ cover then .done (chain, s)
    else if 4096 ≤ chain.length then .limit
    else
      match s.allocSkein c m.fmt m.hd cover chain.getLast? with
      | (none, _) => .lack
      | (some h, s) =>
        let s := if spec then s.setSpec h else s
        let g := groupTokens (if m.fmt then 4 else 8) m.d
        s.extendChain c m spec target fuel (cover + (if spec then 63 * g else 64 * g)) (chain ++ [h])

/-- Room in one chain for token positions pos to pos + n − 1 (R183, R184, R190, R191). DESIGN CHOICE: a tail with SPEC set that a
sequence of depth 0 takes over keeps it until its group 63 is needed (notes/assumptions/183.md). -/
def State.growChain (s : State) (c : Nat) (lc : Bool) (m : Model) (pos n : Nat) (spec : Bool) (chain : List Nat) :
    Grow (List Nat × State) :=
  match chain.getLast? with
  | none => s.extendChain c m spec (pos + n) 4097 pos []
  | some t =>
    let e := s.skein t
    let keep := spec || (e.spec && decide (pos + n ≤ e.basepos + 63 * e.g))
    let cover := e.basepos + (if keep then 63 * e.g else 64 * e.g)
    if (spec ∧ cover < pos + n) ∨ cover ≤ pos then
      (s.clearSpec t).extendChain c m spec (pos + n) 4097 pos chain
    else
      match (if 1 < e.refs then s.forkSkein c t chain.dropLast.getLast? lc else some (t, s)) with
      | none => .lack
      | some (t2, s) =>
        let s := if spec then s.setSpec t2 else if keep then s else s.clearSpec t2
        s.extendChain c m spec (pos + n) 4097 cover (chain.dropLast ++ [t2])

/-- The same in every chain of a sequence. -/
def State.growSeq (s : State) (c : Nat) (lc : Bool) (m : Model) (pos n : Nat) (spec : Bool) (ch : Sparse (List Nat)) :
    List (Nat × Nat) → Grow (Sparse (List Nat) × State)
  | [] => .done (ch, s)
  | lj :: rest =>
    let k := chainKey lj.1 lj.2
    match s.growChain c lc m pos n spec (sget noChain ch k) with
    | .done r => r.2.growSeq c lc m pos n spec (sset noChain ch k r.1) rest
    | .lack => .lack
    | .limit => .limit

/-- NTOK and COMMIT come to cover positions below `top` and `com`, within each Skein's stretch of the chain (R183). -/
def State.raiseChain (s : State) (top com : Nat) : List Nat → State
  | [] => s
  | h :: hs =>
    let e := s.skein h
    let stop := match hs with
      | [] => e.basepos + 64 * e.g
      | x :: _ => (s.skein x).basepos
    (s.setSkein h { e with
      ntok := max e.ntok (min top stop - e.basepos)
      commit := max e.commit (min com stop - e.basepos) }).raiseChain top com hs

def State.raiseSeq (s : State) (ch : Sparse (List Nat)) (top com : Nat) : State :=
  ch.foldl (fun s e => s.raiseChain top com e.2) s

/-- Blocks that the growth needs and that are not there yet: new Skeins and forks. -/
def State.lacking (s : State) (m : Model) (pos n : Nat) (spec : Bool) (ch : Sparse (List Nat)) : Nat :=
  m.heads.foldl (fun acc lj =>
    let g := groupTokens (if m.fmt then 4 else 8) m.d
    let cap := if spec then 63 * g else 64 * g
    let chain := sget noChain ch (chainKey lj.1 lj.2)
    match chain.getLast? with
    | none => acc + (n + cap - 1) / cap
    | some t =>
      let e := s.skein t
      let cover := e.basepos + cap
      if (spec ∧ cover < pos + n) ∨ cover ≤ pos then acc + (n + cap - 1) / cap
      else acc + (pos + n - cover + cap - 1) / cap + (if 1 < e.refs then 1 else 0)) 0

/-! ### What a sequence's next step writes (R183, R190, R212) -/

/-- The sequence has prompt tokens to prefill. -/
def Seq.hasPrompt (q : Seq) : Bool := decide (q.promptPos < q.promptLen)
/-- Its next step speculates. -/
def Seq.speculates (q : Seq) : Bool := decide (0 < q.depth) && !q.hasPrompt
/-- Slots for which the prepare stage makes room. -/
def Hank.slotsFor (h : Hank) (q : Seq) : Nat :=
  if q.hasPrompt then min h.pchunk (q.promptLen - q.promptPos) else if q.speculates then 1 + h.nmax else 1

/-! ### Parking and eviction (R227 to R229) -/

/-- Enter PARKED: SEQ_PARKED and PARKED (R211, R229); `wanting`: for a block that could not be had. -/
def State.parkSeq (s : State) (uid i : Nat) (wanting : Bool) : State :=
  match s.hankOf uid with
  | none => s
  | some h =>
    let q := h.seq i
    let since := if wanting ∧ q.kvSince.isNone then some s.tick else q.kvSince
    let s := s.modSeq uid i (fun q => { q with st := .parked, kvSince := since })
    if q.st = .parked then s
    else
      (s.modCtx h.ctx (fun x => { x with parked := x.parked + 1, dirty := true })).event h.ctx
        { ekind := 0x02, status := 0x05, ctx := h.ctx, tag := h.tag, aux := q.tag, info := i }

/-- A parked sequence rejoins its hank. -/
def State.unparkSeq (s : State) (uid i : Nat) : State :=
  s.modSeq uid i (fun q => { q with st := if q.hasPrompt then .prefill else .decode, restore := false })

/-- A count of GOV_CTXn_STAT. -/
def noStat (_ : Nat) : BitVec 64 := 0
def State.addStat (s : State) (c i n : Nat) : State :=
  { s with serve := { s.serve with stats := smod noStat s.serve.stats (8 * c + i) (fun v => v + BitVec.ofNat 64 n) } }

/-- Something that eviction can take: a HELD sequence, or a sequence of a best-effort hank. -/
structure Victim where
  ctx  : Nat
  held : Option Nat
  uid  : Nat
  slot : Nat
  last : Nat
  chains : Sparse (List Nat)
deriving DecidableEq, Repr

def State.victims (s : State) (uid : Nat) : List Victim :=
  (s.serve.held.map (fun x => (⟨x.ctx, some x.seqid, x.uid, x.slot, x.lastStep, x.chains⟩ : Victim))) ++
  ((s.serve.hanks.filter (fun h => !h.stream && !h.lc && !decide (h.uid = uid))).map (fun h =>
    (h.seqs.zipIdx.filter (fun e => e.1.st == .prefill || e.1.st == .decode || e.1.st == .parked)).map (fun e =>
      (⟨h.ctx, none, h.uid, e.2, e.1.lastStep, e.1.chains⟩ : Victim)))).flatten

/-- The order of R227: least recently stepped, later-submitted hank, higher slot. -/
def Victim.before (a b : Victim) : Bool :=
  decide (a.last < b.last) || (decide (a.last = b.last) && (decide (b.uid < a.uid) ||
    (decide (a.uid = b.uid) && decide (b.slot < a.slot))))

def insertVictim (v : Victim) : List Victim → List Victim
  | [] => [v]
  | x :: xs => if v.before x then v :: x :: xs else x :: insertVictim v xs
def sortVictims (l : List Victim) : List Victim := l.foldr insertVictim []

/-- Skeins that a victim alone names, and that hold a block which no eviction has taken yet. -/
def State.ownSkeins (s : State) (ch : Sparse (List Nat)) : List Nat :=
  (chainHandles ch).filter (fun h => (s.skein h).refs == 1 && (s.skein h).st == .resident && (s.skein h).spillTo.isNone)

/-- A free slot of a context's spill area. -/
def State.spillSlot (s : State) (c : Nat) : Option Nat :=
  (List.range (s.cfld c Reg.govSpillSize 23 0)).find? (fun n => decide (sget noSpill s.serve.spill (c * 2 ^ 24 + n) = 0))

/-- Mark a victim's Skeins for copying to spill slots; none where the area has no room for all of them. -/
def State.planSpill (s : State) (c : Nat) : List Nat → Option State
  | [] => some s
  | h :: hs =>
    if (s.skein h).spillTo.isSome then s.planSpill c hs
    else
      match s.spillSlot c with
      | none => none
      | some n => ((s.setSpill c n (h + 1)).setSkein h { s.skein h with spillTo := some n }).planSpill c hs

/-- Evict one sequence (R228). -/
def State.evict (s : State) (v : Victim) : State :=
  let s := s.addStat v.ctx 5 1
  match v.held with
  | some id => s.freeHeldWhere (fun x => decide (x.ctx = v.ctx ∧ x.seqid = id)) 0x03
  | none =>
    match (if (s.reg (Reg.ctx v.ctx Reg.govKvLo)).getLsbD 25 then s.planSpill v.ctx (s.ownSkeins v.chains) else none) with
    | some s => s.parkSeq v.uid v.slot false
    | none => (s.endSeq v.uid v.slot 0x06).settleHank v.uid 0

/-- Blocks of SKEIN regions that are free, or will be once zeroed or spilled out. -/
def State.poolBlocks (s : State) : Nat :=
  let closed := s.closedGroups
  let out := (s.skeins.table.filter (fun e => e.2.spillTo.isSome && !closed.contains (e.2.block / 32 % 2048))).length
  (List.range 62).foldl (fun n j =>
    if s.rmode j ≠ 2 then n
    else n + countBlocks j closed s.usedBlocks (fun b => s.blockUnused b && s.blockAnswers b &&
      !(s.spindle (s.blockSpindle b)).state == .deadUnserved)) out

/-- Blocks of a context that are on their way to its spill area. -/
def State.goingOut (s : State) (c : Nat) : Nat :=
  (s.skeins.table.filter (fun e => decide (e.2.ctx = c) && e.2.spillTo.isSome)).length

/-- The pool and the ceiling leave room for `need` blocks of a context. -/
def State.enoughBlocks (s : State) (c need : Nat) (ceilingOnly : Bool) : Bool :=
  let ceil := s.cfld c Reg.govKvHi 22 0
  let under := decide (ceil = 0) || decide (s.blocksHeld c - s.goingOut c + need ≤ ceil)
  if ceilingOnly then under else under && decide (need ≤ s.poolBlocks)

/-- The sequence has been evicted with spill and not restored since: evicting it again would free nothing. -/
def State.spilledOut (s : State) (uid i : Nat) : Bool :=
  let q := s.seq uid i
  q.st == .parked && (chainHandles q.chains).any (fun h => (s.skein h).st == .spilled || (s.skein h).spillTo.isSome)

/-- Evict in order until enough blocks are free. `donors`: the second tier of R227. -/
def State.evictList (s : State) (c need : Nat) (donors : Bool) : List Victim → State
  | [] => s
  | v :: vs =>
    if s.enoughBlocks c need false then s
    else
      let own := (s.ownSkeins v.chains).length
      if v.held.isNone && decide (own = 0) && s.spilledOut v.uid v.slot then s.evictList c need donors vs
      else if donors && (!(s.reg (Reg.ctx v.ctx Reg.govKvLo)).getLsbD 24 ||
          decide (s.blocksHeld v.ctx - s.goingOut v.ctx < s.cfld v.ctx Reg.govKvLo 22 0 + own) || !s.enoughBlocks c need true) then
        s.evictList c need donors vs
      else (s.evict v).evictList c need donors vs

/-- Reclaim blocks for a requester (R227): its own context first, then donors. -/
def State.reclaim (s : State) (uid c need : Nat) : State :=
  let own := sortVictims ((s.victims uid).filter (fun v => decide (v.ctx = c)))
  let s := s.evictList c need false own
  let other := sortVictims ((s.victims uid).filter (fun v => !decide (v.ctx = c)))
  s.evictList c need true other

/-! ### Obtaining what a sequence needs -/

/-- Try to give a sequence the Skeins of its next step: the chains are grown, or nothing changes. -/
def State.obtain (s : State) (h : Hank) (m : Model) (i : Nat) : Grow State :=
  let q := h.seq i
  match s.growSeq h.ctx h.lc m q.committed (h.slotsFor q) q.speculates q.chains m.heads with
  | .done r =>
    let home := match q.home, sget noChain r.1 0 with
      | none, x :: _ => some (r.2.locate ((r.2.skein x).block * 2 ^ 17)).stack
      | o, _ => o
    .done (r.2.modSeq h.uid i (fun q => { q with chains := r.1, home := home }))
  | .lack => .lack
  | .limit => .limit

/-- Skeins of a sequence that need a block: spilled, or in a bank group that no Spindle serves. -/
def State.spilled (s : State) (q : Seq) : Nat :=
  ((chainHandles q.chains).filter (fun h => (s.skein h).st == .spilled || s.serve.evac.contains h)).length

/-- One more try for a parked sequence (R229): its Skeins are all RESIDENT and what it lacks can be had, or blocks are
reclaimed for it. -/
def State.retrySeq (s : State) (uid i : Nat) : State :=
  match s.hankOf uid with
  | none => s
  | some h =>
    let q := h.seq i
    match s.modelOf h with
    | none => s
    | some m =>
      if ¬ q.st = .parked then s
      else if s.seqResident q.chains then
        if q.kvSince.isNone then s.unparkSeq uid i
        else
          match s.obtain h m i with
          | .done s => s.unparkSeq uid i
          | .lack => s.reclaim uid h.ctx (s.lacking m q.committed (h.slotsFor q) q.speculates q.chains)
          | .limit => (s.endSeq uid i 0x06).settleHank uid 0
      else if q.restore then
        let need := s.spilled q
        if s.enoughBlocks h.ctx need false then s
        else (s.modSeq uid i (fun q => { q with kvSince := if q.kvSince.isNone then some s.tick else q.kvSince })).reclaim
          uid h.ctx need
      else s

/-- Sequences that wait for a Skein which is RESIDENT again rejoin. -/
def State.rejoin (s : State) (handle : Nat) : State :=
  (s.serve.hanks.foldl (fun s h => (List.range h.seqs.length).foldl (fun s i =>
    let q := s.seq h.uid i
    if q.st = .parked ∧ namesSkein q.chains handle ∧ s.seqResident q.chains then
      (if q.kvSince.isNone ∨ q.restore then s.unparkSeq h.uid i else s)
    else s) s) s).noteReady

end Sys2Proof.Machine
end

