-- ==== Sys2Proof/Machine/SkeinCmds.lean ====
section
/-!
DEFINITION. The commands on Skeins (spec/07_skeins_attention.md R178 to R181, spec/08_serving.md R228, R229,
spec/13_reliability.md R364): zeroing, relocation, spill and restore, and lost table lines.
-/

namespace Sys2Proof.Machine

/-! ### BLOCK_ZERO (R180, R364) -/

def State.setZeroed (s : State) (b : Nat) : State :=
  { s with skeins := { s.skeins with
      dirty := nsDel s.skeins.dirty b
      clean := if s.skeins.regDirty.contains (b / 65536) then nsAdd s.skeins.clean b else s.skeins.clean } }

/-- Lines of a block that still classify as uncorrectable: address and place. -/
def State.badLines (s : State) (b : Nat) : List (Nat × Loc) :=
  ((List.range 2048).map (fun i => s.inBlock b (64 * i))).filter (fun p =>
    let rk := s.rowKey p.2
    classifyLine (s.rawData rk p.2.line ++ s.rawChk rk p.2.line) == .uncorrectable)

/-- The uncorrectable lines of a block among those whose cells do not take what is written: place, data and check symbols. -/
def State.stuckLines (s : State) (b : Nat) (stuck : List Nat) : List (Loc × List Nat × List Nat) :=
  ((List.range 2048).filter (fun i => stuck.contains i)).filterMap (fun i =>
    let l := (s.inBlock b (64 * i)).2
    let rk := s.rowKey l
    let d := s.rawData rk l.line
    let c := s.rawChk rk l.line
    if classifyLine (d ++ c) == .uncorrectable then some (l, d, c) else none)

/-- Those lines keep what they held. -/
def State.keepStuck (s : State) (x : List (Loc × List Nat × List Nat)) : State :=
  x.foldl (fun s e => (s.setRawData (s.rowKey e.1) e.1.line e.2.1).setRawChk (s.rowKey e.1) e.1.line e.2.2) s

/-- After ZERO, the block of a lost Skein is resealed, and withheld if a line of it still fails. -/
def State.checkLost (s : State) (b : Nat) (kept : List (Loc × List Nat × List Nat)) : State :=
  if !s.skeins.reseal.contains b then s.keepStuck kept
  else
    let s := (s.resealBlock b).keepStuck kept
    let s := (List.range 4).foldl (fun s i => s.govCommand (s.inBlock b (1024 * i)).2 none 32 false) s
    let s := { s with skeins := { s.skeins with reseal := nsDel s.skeins.reseal b } }
    match s.badLines b with
    | [] => s
    | bad =>
      let s := bad.foldl (fun s p => s.logAt { typ := 0x03, source := 8 } p.1 p.2) s
      ({ s with skeins := { s.skeins with withheld := nsAdd s.skeins.withheld b } }).log { typ := 0x0D, info := b }

/-- The Governor zeroes a freed block: 2,048 units of the stack's budget (R180). -/
def State.blockZero (s : State) (b : Nat) (stuck : List Nat) : State :=
  if !s.serving || s.blockZeroed b || !decide (b < 62 * 65536) || !decide (s.rmode (b / 65536) = 2) ||
      !decide (sget noOwner s.skeins.owner b = 0) || s.blockWithheld b || s.skeins.lost.contains b ||
      !s.blockAnswers b || !s.blockQuiet b then s
  else
    let z := (List.range 128).foldl (fun s q => s.govStep 1 (s.inBlock b (1024 * q)).2) (s.zeroBlock b)
    (z.setZeroed b).checkLost b (s.stuckLines b stuck)

def execBlockZero (b : BitVec 22) (stuck : List Nat) (s : State) : Result := .next (s.blockZero b.toNat stuck)

/-! ### The Governor's copies (R240) -/

/-- An engine makes the copy. -/
def State.copying (s : State) (g : GovCopy) : Bool := (List.range 16).any (fun e => (s.engine e).gov == some g)

/-- The engine that made it is idle. -/
def State.copyDone (s : State) (g : GovCopy) : State :=
  (List.range 16).foldl (fun s e =>
    if (s.engine e).gov = some g then s.setEngine e { s.engine e with gov := none } else s) s

/-! ### Relocation (R168, R179, R181) -/

/-- No step running or pre-empted scans the Skein or appends to it. -/
def State.skeinIdle (s : State) (h : Nat) : Bool :=
  s.serve.hanks.all (fun k => k.seqs.all (fun q => !(q.st == .stepping && namesSkein q.chains h)))

def execSkeinRelocateStart (h : BitVec 22) (dest : BitVec 22) (s : State) : Result :=
  let e := s.skein h.toNat
  .next (if s.serving && e.st == .resident && e.spillTo.isNone && s.skeinIdle h.toNat && s.blockFree dest.toNat &&
      s.wellPlaced h.toNat dest.toNat then
    (s.setSkein h.toNat { e with st := .moving, dest := dest.toNat }).setOwner dest.toNat (h.toNat + 1)
  else s)

/-- The Skein moves to another stack. -/
def State.across (s : State) (e : Skein) : Bool :=
  !decide ((s.inBlock e.block 0).2.stack = (s.inBlock e.dest 0).2.stack)

/-- The copy is complete, which across stacks an engine has made: the mask row, which holds no data, is set up afresh. -/
def State.relocateComplete (s : State) (h : Nat) : State :=
  let e := s.skein h
  if !s.serving || !(e.st == .moving) || (s.across e && !s.copying (.relocate h)) ||
      !s.blockQuiet e.block || !s.blockQuiet e.dest then s
  else
    let s := (s.copyDone (.relocate h)).copyBlock e.block e.dest e.dataRows false
    let s := if e.spec then s.makeMask e.dest else s
    let s := s.setSkein h { e with st := .resident, block := e.dest, dest := 0 }
    let s := ((s.setOwner e.block 0).setDirty e.block).noteReseal e.lost e.block
    if e.refs = 0 then s.freeSkein h
    else (if (s.spindle (s.blockSpindle e.dest)).state == .deadUnserved then s else s.endEvac h).rejoin h

def execRelocateComplete (h : BitVec 22) (s : State) : Result := .next (s.relocateComplete h.toNat)

/-! ### Spill and restore (R228, R229, R351) -/

def spillBytes : Nat := 131072

/-- Host-window offset of a context's spill slot. -/
def State.spillOff (s : State) (c n : Nat) : Nat := s.cfld c Reg.govSpillOff 23 0 * spillBytes + spillBytes * n

/-- The rows that hold data go to the spill slot, line by line. -/
def State.spillOut (s : State) (c blk n rows : Nat) : State :=
  (List.range (16 * rows)).foldl (fun s i =>
    let p := s.inBlock blk (64 * i)
    let g := s.readLoc p.1 p.2 .channel none
    g.2.hostWrite c (g.2.winAddr c (g.2.spillOff c n + 64 * i)) ((bytesOfLine g.1.data).map (BitVec.ofNat 8)) g.1.poison) s

def State.spillComplete (s : State) (h : Nat) : State :=
  let e := s.skein h
  match e.spillTo with
  | none => s
  | some n =>
    if !s.serving || !(e.st == .resident) || !s.skeinIdle h || !s.copying (.spill h) || !s.blockQuiet e.block then s
    else
      let s := (s.copyDone (.spill h)).spillOut e.ctx e.block n e.dataRows
      let s := s.setSkein h { e with st := .spilled, block := n, spillTo := none }
      (s.setOwner e.block 0).setDirty e.block

def execSpillComplete (h : BitVec 22) (s : State) : Result := .next (s.spillComplete h.toNat)

/-- A sequence is having this Skein restored. -/
def State.restoring (s : State) (h : Nat) : Bool :=
  s.serve.hanks.any (fun k => k.seqs.any (fun q => q.restore && namesSkein q.chains h))

/-- The reads of the lines that a spill slot holds (R323, R349). -/
def State.restoreReads (s : State) (c n rows : Nat) : State :=
  (List.range (16 * rows)).foldl (fun s i => s.hostRead c (s.winAddr c (s.spillOff c n + 64 * i)) 64 true) s

/-- The rows come back with fresh check symbols. -/
def State.restoreIn (s : State) (blk rows : Nat) (host : HostRead) : State :=
  (List.range (16 * rows)).foldl (fun s i =>
    let p := s.inBlock blk (64 * i)
    (s.writeLoc p.1 p.2 ((hostLine host i).getD 0) fullMask false).unstage p.1) s

def State.restoreComplete (s : State) (h blk : Nat) (host : HostRead) : State :=
  let e := s.skein h
  if !s.serving || !(e.st == .spilled) || !s.restoring h || !s.copying (.restore h) then s
  else if host = .failed then
    let s := (s.copyDone (.restore h)).restoreReads e.ctx e.block e.dataRows
    s.restoreFailed e.ctx h (BitVec.ofNat 64 (s.winAddr e.ctx (s.spillOff e.ctx e.block)))
  else if !s.blockFree blk || s.atCeiling e.ctx || !s.blockQuiet blk || !s.wellPlaced h blk then s
  else
    let s := ((s.copyDone (.restore h)).restoreReads e.ctx e.block e.dataRows).restoreIn blk e.dataRows host
    let s := if e.spec then s.makeMask blk else s
    let s := (s.setSkein h { e with st := .resident, block := blk }).setOwner blk (h + 1)
    (s.setSpill e.ctx e.block 0).rejoin h

def execRestoreComplete (h : BitVec 22) (block : BitVec 22) (host : HostRead) (s : State) : Result :=
  .next (s.restoreComplete h.toNat block.toNat host)

/-- Lines of a MIRROR model wait for repair, and no step of it runs (R368). -/
def State.mirrorWork (s : State) (m : Nat) : Bool :=
  match s.model m with
  | some o => o.mirror && !s.modelStepping m &&
      (!o.repair.isEmpty || s.rel.mirrorBad.any (fun e => decide (o.mirrored e.1 = some e.2)))
  | none => false

/-- The copy is still to be made. -/
def State.copyWanted (s : State) : GovCopy → Bool
  | .relocate h => (s.skein h).st == .moving && s.across (s.skein h)
  | .spill h => (s.skein h).st == .resident && (s.skein h).spillTo.isSome && s.skeinIdle h
  | .restore h => (s.skein h).st == .spilled && s.restoring h
  | .mirror m => s.mirrorWork m

/-- The copy has begun in the Skein table, so that a drain waits for it (R406). -/
def GovCopy.begun : GovCopy → Bool
  | .relocate _ => true
  | .spill _ => true
  | .restore _ => false
  | .mirror _ => false

/-- The next copy that waits for an engine: Skeins in the order of their handles, then models; in a drain those that have begun. The spec gives the Governor's copies no
order among themselves (notes/assumptions/67.md). -/
def State.nextCopy (s : State) : Option GovCopy :=
  ((s.skeins.table.map (fun e => [GovCopy.relocate e.1, .spill e.1, .restore e.1])).flatten ++
    s.serve.models.map (fun e => GovCopy.mirror e.1)).find? (fun g => s.copyWanted g && !s.copying g &&
      (!s.pwr.drain || g.begun))

/-! ### SKEIN_TABLE_LOST (R178) -/

/-- One lost entry: its blocks stay out of use, and the sequences that name the Skein end. -/
def State.loseEntry (s : State) (h : Nat) : State :=
  let e := s.skein h
  if e.st = .free then s
  else
    let blocks := if e.st = .resident then [e.block] else if e.st = .moving then [e.block, e.dest] else []
    let s := { s with skeins := { s.skeins with lost := blocks.foldl nsAdd s.skeins.lost } }
    s.endNaming h 0x06

/-- Every copy of the line that answers and is uncorrectable is logged, as the Thread-path fill found it; a poison mark is not
(R374, R378). -/
def State.logCopies (s : State) (a : Nat) : State :=
  (copiesOf a).foldl (fun s b =>
    let l := s.locate b
    let rk := s.rowKey l
    if !s.bankAnswers l || classifyLine (s.rawData rk l.line ++ s.rawChk rk l.line) == .poisonMark then s
    else s.foundUe b l .thread none) s

/-- A line of the table: its four Skeins. -/
def State.tableLost (s : State) (line : Nat) : State :=
  let s := s.logCopies (tableBase + 64 * line)
  [0, 1, 2, 3].foldl (fun s i => s.loseEntry (4 * line + i)) s

/-- A line of the block map: the Skeins that its entries give, and the blocks whose entries they are. -/
def State.mapLost (s : State) (a : Nat) (blocks : List Nat) : State :=
  let s := s.logCopies (a / 64 * 64)
  let s : State := { s with skeins := { s.skeins with lost := blocks.foldl nsAdd s.skeins.lost } }
  blocks.foldl (fun s b =>
    let o := sget noOwner s.skeins.owner b
    if o = 0 then s else s.loseEntry (o - 1)) s

/-- A line reads as uncorrectable in every copy: its Skeins are lost. -/
def State.skeinLineLost (s : State) (line : TableLine) : State :=
  if !s.powered then s
  else match line with
    | .table n => s.tableLost n.toNat
    | .map a blocks => s.mapLost a.toNat (blocks.map BitVec.toNat)

def execSkeinTableLost (line : TableLine) (s : State) : Result := .next (s.skeinLineLost line)

end Sys2Proof.Machine
end

