-- ==== Sys2Proof/Machine/Treadle.lean ====
section
/-!
DEFINITION. How a core runs a treadle word (spec/03_mill_cores.md R44 to R56, spec/04_treadle_streams.md R74 to R93,
R475): scratchpad accesses of a stream cycle, results in flight, one stream cycle, and a whole word.
-/

namespace Sys2Proof.Machine

/-! ### Scratchpad accesses of a stream port -/

/-- The 64-B lines that overlap n bytes at a local address, its bits 4:0 taken as zero (R45, R47). -/
def spanLines (a n : Nat) : List Nat :=
  let a := a / 32 * 32
  if n = 0 then [] else (List.range ((a % 64 + n + 63) / 64)).map (fun i => (a / 64 + i) % 32768)

/-- R48: the ACLK cycles of a stream cycle that reads and writes these lines. -/
def cycleCost (reads writes : List Nat) : Nat :=
  let r := reads.eraseDups
  let perBank := (List.range 16).map (fun b => ((r ++ writes).filter (fun l => decide (l % 16 = b))).length)
  max (max 1 (perBank.foldl max 0)) (max ((r.length + 7) / 8) ((writes.length + 7) / 8))

/-- Read n bytes: the bytes, poison if any line of them is poisoned (true: UNSEALED first), and the state. -/
def State.readSpan (s : State) (core p a n : Nat) : List Nat × Option Bool × State :=
  let r := (spanLines a n).foldl (fun (acc : List Nat × Option Bool × State) l =>
    let g := acc.2.2.readSpad core p l
    (acc.1 ++ bytesOfLine g.1.data,
      (match acc.2.1 with
        | some u => some u
        | none => if g.1.poison then some g.1.unsealed else none), g.2)) ([], none, s)
  ((r.1.drop (a / 32 % 2 * 32)).take n, r.2.1, r.2.2)

/-- Write bytes of a stream port, whole 32-B units. -/
def State.writeSpan (s : State) (p a : Nat) (b : List Nat) : State :=
  let a := a / 32 * 32
  (spanLines a b.length).zipIdx.foldl (fun s l =>
    let start := if l.2 = 0 then a else a / 64 * 64 + 64 * l.2
    let seg := (b.drop (start - a)).take (64 - start % 64)
    let m := partialLine start seg
    s.writeSpad p l.1 m.1 m.2 false false) s

/-- A stream port read poison: the stream and its step have consumed it (Table 13.2). -/
def State.consume (s : State) (core : Nat) (q : Option Bool) : State :=
  match q, s.stream core with
  | some u, some t =>
    (s.setStream core (some { t with poison := some (t.poison.getD u) })).modStep t.work
      (fun p => { p with poison := true })
  | _, _ => s

/-! ### Registers and accumulators -/

def noVreg (_ : Nat) : VReg := 0
def noAcc (_ : Nat) : BitVec 6144 := 0
def State.vreg (s : State) (p v : Nat) : VReg := sget noVreg s.spads.vregs (p * 32 + v)
def State.setVreg (s : State) (p v : Nat) (x : VReg) : State :=
  { s with spads := { s.spads with vregs := sset noVreg s.spads.vregs (p * 32 + v) x } }
def State.accRow (s : State) (p set row : Nat) : BitVec 6144 := sget noAcc s.spads.acc (p * 384 + set * 192 + row)
def State.setAccRow (s : State) (p set row : Nat) (x : BitVec 6144) : State :=
  { s with spads := { s.spads with acc := sset noAcc s.spads.acc (p * 384 + set * 192 + row) x } }

def rowVals (r : BitVec 6144) : List F32 := (unpackElems 32 192 r.toNat).map (BitVec.ofNat 32)
def rowOfVals (l : List F32) : BitVec 6144 := BitVec.ofNat 6144 (packElems 32 (l.map BitVec.toNat))

/-- One K step into a set (R25): every accumulator takes its products, one rounding each. -/
def State.applyK (s : State) (p set : Nat) (a b : List (List FVal)) : State :=
  (List.range 192).foldl (fun s r =>
    let ar := a.getD r []
    s.setAccRow p set r (rowOfVals (List.zipWith (fun x bc => macStep x (List.zip ar bc)) (rowVals (s.accRow p set r)) b)))
    s

/-- 64-element chunk `pos` of a set (R79). -/
def State.chunk (s : State) (p set pos : Nat) : BitVec 2048 := (s.accRow p set (pos / 3)).extractLsb' (2048 * (pos % 3)) 2048
def State.setChunk (s : State) (p set pos : Nat) (v : BitVec 2048) : State :=
  s.setAccRow p set (pos / 3)
    (BitVec.ofNat 6144 (putBits (s.accRow p set (pos / 3)).toNat (2048 * (pos % 3) + 2047) (2048 * (pos % 3)) v.toNat))

/-- The core's pipeline. -/
def State.pipe (s : State) (core : Nat) : Pipe := (s.core core).pipe
def State.setPipe (s : State) (core : Nat) (x : Pipe) : State := s.modCore core (fun k => { k with pipe := x })

/-! ### Results in flight (R54, R55, R88, R89, R475) -/

def Flight.at : Flight → Nat
  | .vreg t _ _ _ => t
  | .vpart t _ _ _ _ => t
  | .zero t _ => t
  | .kstep t _ _ _ => t
  | .chunk t _ _ _ => t

/-- Rank among register writes of one stream cycle; none: a write to an accumulator set. -/
def Flight.rank : Flight → Option Nat
  | .vreg _ r _ _ => some r
  | .vpart _ _ _ _ _ => some 2
  | _ => none

def Flight.set : Flight → Nat
  | .zero _ s => s
  | .kstep _ s _ _ => s
  | .chunk _ s _ _ => s
  | _ => 2

def State.perform (s : State) (p : Nat) (f : Flight) : State :=
  match f with
  | .vreg _ _ v x => s.setVreg p v x
  | .vpart _ v pos n x => s.setVreg p v ((s.vreg p v).putBytes pos n x)
  | .zero _ set => (List.range 192).foldl (fun s r => s.setAccRow p set r 0) s
  | .kstep _ set a b => s.applyK p set a b
  | .chunk _ set pos v => s.setChunk p set pos v

/-- Accumulator results due, each set's in issue order: those that land, and those that stay. DESIGN CHOICE: a LOAD_S chunk that
was issued right after a K step of its set lands behind it, later than its own four stream cycles (notes/assumptions/177.md). -/
def accDue (now : Nat) : List Flight → List Nat → List Flight × List Flight
  | [], _ => ([], [])
  | f :: fs, blocked =>
    if f.rank.isNone && decide (f.at ≤ now) && !blocked.contains f.set then
      let r := accDue now fs blocked
      (f :: r.1, r.2)
    else
      let r := accDue now fs (if f.rank.isNone then f.set :: blocked else blocked)
      (r.1, f :: r.2)

/-- What lands as stream cycle `now` begins: register writes in the order of R89, then accumulator results. -/
def State.land (s : State) (core p : Nat) : State :=
  let q := s.pipe core
  let regs (r : Nat) : List Flight := q.flight.filter (fun f => decide (f.at ≤ q.cycle ∧ f.rank = some r))
  let acc := accDue q.cycle q.flight []
  let left := acc.2.filter (fun f => !decide (f.at ≤ q.cycle ∧ f.rank.isSome))
  (regs 0 ++ regs 1 ++ regs 2 ++ acc.1).foldl (fun s f => s.perform p f) (s.setPipe core { q with flight := left })

/-- `n` stream cycles pass in which nothing issues. -/
def State.idleCycles (s : State) (core p : Nat) : Nat → State
  | 0 => s
  | n + 1 =>
    let s := s.land core p
    (s.setPipe core { s.pipe core with cycle := (s.pipe core).cycle + 1 }).idleCycles core p n

/-! ### Fences, waits, signals -/

/-- The fence of a word is complete (R84, R264). -/
def State.fenceDone (s : State) (core : Nat) (w : TreadleWord) : Bool :=
  let k := s.core core
  match twFence w with
  | 0 => true
  | 1 => k.fetches.isEmpty
  | 2 => k.fetches.isEmpty && k.puts.all (fun q => q.sent.isSome)
  | _ => k.fetches.isEmpty && k.puts.all (fun q => s.putDone q)

def Stream.wt (t : Stream) (i : Nat) : WaitReg := t.wts.getD i {}

/-- The wait register of a word is satisfied (R82). -/
def State.waitDone (s : State) (t : Stream) (w : TreadleWord) : Bool :=
  let r := t.wt (twWaitReg w)
  tcReached (s.tcVal (s.tcKey t.ctx t.bank r.tc.toNat)) r.target

/-- Lines that the core's own fetches will write (R90), or those of them issued before request `mark`. -/
def CoreSt.fetchLines (k : CoreSt) (mark : Option Nat := none) : List Nat :=
  ((k.fetches.filter (fun f => mark.all (fun m => decide (f.id < m)))).map (fun f =>
    f.left.map (fun i => (f.loc / 64 + i) % 32768))).flatten

/-- What stops a word, or lets it go on. -/
inductive Gate where
  | go
  | hold (k : HoldKind)
  | stop (code : Nat)
deriving DecidableEq, Repr

/-! ### One stream cycle -/

def State.gen (s : State) (core g : Nat) : AddrGen := (s.pipe core).ags.getD g {}

/-- The reads of ports MA, MB, VL (or LOAD_S) and SO in stream cycle k of a word: address and bytes. -/
def State.portReads (s : State) (core : Nat) (w : TreadleWord) (k : Nat) : List (Nat × Nat) :=
  let a := twFmtA w
  let b := twFmtB w
  let dbl := pairDouble a b
  let n := (pairCycles a b).getD 1
  let at_ (g n : Nat) : Nat := (s.gen core g).local_ + n
  [if twMaEn w then (at_ (twMaAg w) (kBytes a dbl / n * (k % n)), kBytes a dbl / n) else (0, 0),
    if twMbEn w then (at_ (twMbAg w) (kBytes b dbl / n * (k % n)), kBytes b dbl / n) else (0, 0),
    if twVlEn w then
      let j := k % moveCycles (twVlFmt w) (twLanes w)
      (at_ (twVlAg w) (256 * j), min 256 (moveBytes (twVlFmt w) (twLanes w) - 256 * j))
    else if twXferOp w = 3 then (at_ (twVlAg w) 0, 256) else (0, 0),
    if twNetOp w = 2 then ((s.gen core (twNetAg w)).local_ / 64 * 64, 64 * twNetLines w) else (0, 0)]

/-- The write of port VS (or DRAIN_S). -/
def State.portWrite (s : State) (core : Nat) (w : TreadleWord) (k : Nat) : Nat × Nat :=
  if twVsEn w then
    let j := k % moveCycles (twVsFmt w) (twLanes w)
    ((s.gen core (twVsAg w)).local_ + 256 * j, min 256 (moveBytes (twVsFmt w) (twLanes w) - 256 * j))
  else if twXferOp w = 2 then ((s.gen core (twVsAg w)).local_, 256) else (0, 0)

/-- An EXEC word with MX K stream cycles. -/
def isMxWord (w : TreadleWord) : Bool := decide (twKind w = 0) && !(twMxOp w == 0) && isMx (twFmtA w)

/-- Scratchpad lines of core `core` that its fetches will read through its own window, and that its puts will write there. -/
def ownLine (core a : Nat) : Option Nat :=
  match placeOf a with
  | .scratch c o => if c = core then some (o / 64) else none
  | _ => none
def State.ownReads (s : State) (core : Nat) : List Nat :=
  ((s.core core).fetches.map (fun f => f.left.filterMap (fun i => ownLine core ((f.addr + 64 * i) % 2 ^ 42)))).flatten
def State.ownWrites (s : State) (core : Nat) : List Nat :=
  ((s.core core).puts.map (fun q => q.left.filterMap (fun i => ownLine core ((q.addr + 64 * i) % 2 ^ 42)))).flatten

/-- MX scale reads are due in stream cycle k (R78). -/
def State.scalesDue (s : State) (core : Nat) (w : TreadleWord) : Bool :=
  let p := mxPeriod (twFmtA w) (twFmtB w)
  let j := (s.pipe core).scales.count % p
  isMxWord w && (j == 0 || j == p / 3 || j == 2 * p / 3)

/-- The next word of a stream, as far as it is known: `some none` where there is none, or none that can run. -/
def Stream.nextWord (t : Stream) : Option (Option TreadleWord) :=
  match t.queue with
  | _ :: q :: _ => some (if q.poison || q.refused.isSome then none else some q.w)
  | _ => (match t.src with
    | .program _ n => if (t.retired + 1).toNat = n then some none else none
    | .host _ _ => none)

/-- The word starts a K count, with these sets loaded and not yet accumulated into: ZACC, or the first ACC after LOAD_S. -/
def startsCount (loaded : NatSet) (w : TreadleWord) : Bool :=
  decide (twKind w = 0) && (twMxOp w == 2 || (twMxOp w == 1 && loaded.contains (twMxSet w)))

/-- The generators of the scale reads due in stream cycle k: the word's own, but in a last block that ends with the word
those of a next word that starts a count with the same P (R78). None: that shows only when the block ends, later in this word or
in a further one, or the next word is not known yet; the reads that follow an open one in its block wait with it. -/
def State.scaleGens (s : State) (core : Nat) (w : TreadleWord) (k : Nat) : Option (Nat × Nat) :=
  let c := (s.pipe core).scales
  let p := mxPeriod (twFmtA w) (twFmtB w)
  let own := (twMaAg w, twMbAg w)
  let left := p - c.count % p
  let here := twRepeat w + 1 - k
  if !c.owed.isEmpty || decide (here < left) then none
  else if left < here then some own
  else
    match (s.stream core).bind Stream.nextWord with
    | none => none
    | some none => some own
    | some (some v) =>
      let loaded := if twXferOp w = 3 then nsAdd c.loaded (twXferSet w) else c.loaded
      some (if startsCount loaded v && isMxWord v && mxPeriod (twFmtA v) (twFmtB v) == p then (twMaAg v, twMbAg v) else own)

/-- The scale lines that reads through these generators touch, in order. -/
def scaleRun (ags : List AddrGen) : List Nat → List Nat → List Nat
  | _, [] => []
  | before, g :: gs =>
    (ags.getD g {}).scaleAt (before.filter (fun x => decide (x = g))).length / 64 :: scaleRun ags (before ++ [g]) gs

/-- One scale line of an operand through generator g, and the generator's count; `kept`: lines that have been written since the
read was due. DEDUCED: a scale line is the 64-B line that contains the address (notes/assumptions/150.md). -/
def State.readScale (s : State) (core p g : Nat) (kept : List (Nat × Line × Bool × Bool)) : Line × State :=
  let line := (s.gen core g).scaleAt 0 / 64
  let r : Got × State := match kept.find? (fun e => decide (e.1 = line)) with
    | some e => ({ data := e.2.1, poison := e.2.2.1, unsealed := e.2.2.2 }, s)
    | none => s.readSpad core p line
  let s := r.2.consume core (if r.1.poison then some r.1.unsealed else none)
  let q := s.pipe core
  (r.1.data, s.setPipe core { q with ags := q.ags.modify g (fun y => { y with n := y.n + 1 }) })

/-- Both operands' next scale lines, for the next block, or with `now` for the block that follows at once. -/
def State.readScales (s : State) (core p gA gB : Nat) (now : Bool) (kept : List (Nat × Line × Bool × Bool)) : State :=
  let a := s.readScale core p gA kept
  let b := a.2.readScale core p gB kept
  let q := b.2.pipe core
  b.2.setPipe core { q with scales := if now then { q.scales with
      curA := q.scales.curA ++ [a.1]
      curB := q.scales.curB ++ [b.1] }
    else { q.scales with
      nextA := q.scales.nextA ++ [a.1]
      nextB := q.scales.nextB ++ [b.1] } }

/-- Scale byte of row r: 64 scales a line. -/
def scaleByte (l : List Line) (r : Nat) : Nat := (l.getD (r / 64) 0).toNat / 2 ^ (8 * (r % 64)) % 256

/-- The exact factors of one K step's operand: 192 rows, one or two elements each, MX scales applied (R25, R26). -/
def kFactors (code : Nat) (dbl : Bool) (bytes : List Nat) (scales : List Line) : List (List FVal) :=
  let bits := moveBits code
  let n := if dbl then 2 else 1
  let es := (unpackElems bits (192 * n) (natOfBytes bytes)).map (elemVal code)
  (List.range 192).map (fun r =>
    let row := (es.drop (n * r)).take n
    if isMx code then row.map (fun x => (e8m0 (scaleByte scales r)).mul x) else row)

/-- The matrix unit in stream cycle k, with the bytes its ports read. -/
def State.matrixCycle (s : State) (core : Nat) (w : TreadleWord) (k : Nat) (ma mb : List Nat) : State :=
  match s.stream core with
  | none => s
  | some t =>
    if twMxOp w = 0 then s
    else
      let a := twFmtA w
      let b := twFmtB w
      let dbl := pairDouble a b
      let n := (pairCycles a b).getD 1
      let q := s.pipe core
      let z : List Flight := if twMxOp w = 2 ∧ k = 0 then [.zero (q.cycle + 1) (twMxSet w)] else []
      let ma := t.maBytes ++ ma
      let mb := t.mbBytes ++ mb
      let full := k % n + 1 = n
      let c := q.scales
      let step : List Flight := if full then
        [.kstep (q.cycle + 6) (twMxSet w) (kFactors a dbl ma c.curA) (kFactors b dbl mb c.curB)] else []
      let c1 : ScaleState := { c with count := c.count + 1 }
      let c2 : ScaleState := if isMx a ∧ c1.count % mxPeriod a b = 0 then
        { c1 with curA := c1.nextA, curB := c1.nextB, nextA := [], nextB := [] } else c1
      let s := s.setPipe core { q with flight := q.flight ++ z ++ step, scales := c2 }
      s.setStream core (some { t with maBytes := if full then [] else ma, mbBytes := if full then [] else mb })

/-- VL, LOAD_S, DRAIN_V and the vector operation: results put in flight (R55, R56, R79, R80). -/
def State.vectorCycle (s : State) (core p : Nat) (w : TreadleWord) (k : Nat) (vl : List Nat) : State :=
  match s.stream core with
  | none => s
  | some t =>
    let q := s.pipe core
    let n := moveCycles (twVlFmt w) (twLanes w)
    let got := t.vlBytes ++ vl
    let full := twVlEn w && decide (k % n + 1 = n)
    let load : List Flight := if full then
      [.vreg (q.cycle + 4) 1 ((twVlVreg w + k / n) % 32) (vlUnpack (twVlFmt w) (twLanes w) (natOfBytes got))] else []
    let chunk : List Flight := if twXferOp w = 3 then
      [.chunk (q.cycle + 4) (twXferSet w) (twXferPos w + k) (BitVec.ofNat 2048 (natOfBytes vl))] else []
    let drain : List Flight := if twXferOp w = 1 then
      [.vreg (q.cycle + 1) 0 ((twXferVreg w + k) % 32)
        (BitVec.ofNat 8192 (s.accRow p (twXferSet w) (twXferPos w + k)).toNat)] else []
    let vop := twVop w
    let rnd : Option (List (BitVec 16)) := if twSr w then
      some ((List.range 256).map (fun i => srRandom t.seed (BitVec.ofNat 64 t.stepIx) (BitVec.ofNat 24 (twStreamId w))
        (BitVec.ofNat 64 (t.elem.toNat + i)))) else none
    let out := vectorOp vop (s.vreg p (twVa w)) (s.vreg p (twVb w)) (s.vreg p (twVc w)) (twVb w) (twVfmt w) (twSat w) rnd
    let due := q.cycle + vopLatency vop
    let vd : List Flight := match out.vd with
      | some x => [.vreg due 2 (twVd w) x]
      | none => []
    let m := if vop = 0x10 then 8 else 16
    let vc : List Flight := match out.vc with
      | some x => [.vpart due (twVc w) (m * twVb w) m (x.toNat / 2 ^ (8 * m * twVb w) % 2 ^ (8 * m))]
      | none => []
    let c := q.scales
    let c := if twXferOp w = 3 then { c with loaded := nsAdd c.loaded (twXferSet w) } else c
    let s := s.setPipe core { q with
      flight := q.flight ++ drain ++ load ++ chunk ++ vd ++ vc
      scales := c
      divFree := if vopRow vop = 4 then q.cycle + 4 else q.divFree }
    s.setStream core (some { t with
      vlBytes := if twVlEn w && !full then got else []
      elem := if twSr w then t.elem + 256 else t.elem })

/-- Before request or store number `id` writes lines of the scratchpad, scale reads that were due earlier keep what the lines hold:
when they are made shows in no result (R41). -/
def State.keepOwed (s : State) (core p id : Nat) (lines : List Nat) : State :=
  if (s.pipe core).scales.owed.isEmpty then s
  else lines.foldl (fun s l =>
    let g := (s.readSpad core p l).1
    let q := s.pipe core
    s.setPipe core { q with scales := { q.scales with owed := q.scales.owed.map (fun o =>
      if o.mark ≤ id ∧ ¬ o.kept.any (fun e => decide (e.1 = l)) then
        { o with kept := o.kept ++ [(l, g.data, g.poison, g.unsealed)] } else o) } }) s

/-- Port VS: a register's bytes as they stand, or a chunk of a set (R55, R79, R80). -/
def State.storeCycle (s : State) (core p : Nat) (w : TreadleWord) (k : Nat) : State :=
  let a := s.portWrite core w k
  let s := s.keepOwed core p (s.core core).nextId (spanLines a.1 a.2)
  if twVsEn w then
    let n := moveCycles (twVsFmt w) (twLanes w)
    let bytes := bytesOfNat (moveBytes (twVsFmt w) (twLanes w))
      (vsPack (twVsFmt w) (twLanes w) (twSat w) (s.vreg p ((twVsVreg w + k / n) % 32)))
    s.writeSpan p a.1 ((bytes.drop (256 * (k % n))).take a.2)
  else if twXferOp w = 2 then
    s.writeSpan p a.1 (bytesOfNat 256 (s.chunk p (twXferSet w) (twXferPos w + k)).toNat)
  else s

/-- The network request of a stream cycle (R81). -/
def State.netCycle (s : State) (core : Nat) (w : TreadleWord) (so : List (Line × Bool)) : State :=
  match s.stream core with
  | none => s
  | some t =>
    let g := s.gen core (twNetAg w)
    let tc := if twNetTcEn w then some (twNetTc w) else none
    if twNetOp w = 1 then
      s.modCore core (fun k => { k with
        nextId := k.nextId + 1
        fetches := k.fetches ++ [⟨k.nextId, t.ctx, t.bank, g.device / 64 * 64, g.local_ / 64 * 64, twNetLines w,
          twNetStage w, tc, s.arrangement, List.range (twNetLines w)⟩] })
    else if twNetOp w = 2 then
      s.modCore core (fun k => { k with
        nextId := k.nextId + 1
        puts := k.puts ++ [⟨k.nextId, t.ctx, t.bank, g.device / 64 * 64, so, tc, s.arrangement, List.range so.length,
          none⟩] })
    else s

/-- Generators take their steps (R75): a bound one at the end of its transfer unit, another in every stream cycle. -/
def stepGens (w : TreadleWord) (k : Nat) (ags : List AddrGen) : List AddrGen :=
  ags.mapIdx (fun i g =>
    match (boundGens w).find? (fun e => decide (e.1 = i)) with
    | some e => if k % e.2 + 1 = e.2 then g.advance (twAgStep w i) else g
    | none => g.advance (twAgStep w i))

/-- The scale lines that stream cycle k reads. -/
def State.cycleScales (s : State) (core : Nat) (w : TreadleWord) (k : Nat) : List Nat :=
  if s.scalesDue core w then
    (match s.scaleGens core w k with
      | some g => scaleRun (s.pipe core).ags [] [g.1, g.2]
      | none => [])
  else []

/-- The scale reads of stream cycle k are made, or noted as owed. -/
def State.scaleCycle (s : State) (core p : Nat) (w : TreadleWord) (k : Nat) (reads writes : List Nat) : State :=
  if !s.scalesDue core w then s
  else
    match s.scaleGens core w k with
    | some g => s.readScales core p g.1 g.2 false []
    | none =>
      let q := s.pipe core
      let o : OwedScale := {
        reads := reads
        writes := writes
        genA := twMaAg w
        genB := twMbAg w
        mark := (s.core core).nextId
        slow := s.millThrottled && decide (cycleCost reads writes = 1) }
      s.setPipe core { q with scales := { q.scales with owed := q.scales.owed ++ [o] } }

/-- ACLK cycles by which a stream cycle is stretched (R48), counted. -/
def State.stretch (s : State) (core n : Nat) : State := s.modCore core (fun c => { c with stall := c.stall + BitVec.ofNat 32 n })

/-- An owed scale read is made through its generators: it counts in the stream cycle in which it was due. `now`: for the block that
follows at once. -/
def State.payScale (s : State) (core p : Nat) (now : Bool) (o : OwedScale × Nat × Nat) : State :=
  let lines := scaleRun (s.pipe core).ags [] [o.2.1, o.2.2]
  let n := cycleCost (o.1.reads ++ lines) o.1.writes - cycleCost o.1.reads o.1.writes
  let less : Word := if o.1.slow ∧ 0 < n then 1 else 0
  ((s.readScales core p o.2.1 o.2.2 now o.1.kept).stretch core n).modCore core (fun c => { c with holdCycles := c.holdCycles - less })

/-- A fetch issued before an owed read was due will still write a line of it (R90). -/
def State.owedHazard (s : State) (core : Nat) (l : List (OwedScale × Nat × Nat)) : Bool :=
  let lines := scaleRun (s.pipe core).ags [] ((l.map (fun o => [o.2.1, o.2.2])).flatten)
  l.zipIdx.any (fun e =>
    let out := (s.core core).fetchLines (some e.1.1.mark)
    ((lines.drop (2 * e.2)).take 2).any (fun x => out.contains x && !e.1.1.kept.any (fun y => decide (y.1 = x))))

/-- The reads owed, each with the generators that its own word named. -/
def State.ownOwed (s : State) (core : Nat) : List (OwedScale × Nat × Nat) :=
  (s.pipe core).scales.owed.map (fun o => (o, o.genA, o.genB))

/-- Stream cycle k ends a block, and not with its word. -/
def State.endsBlock (s : State) (core : Nat) (w : TreadleWord) (k : Nat) : Bool :=
  isMxWord w && decide (((s.pipe core).scales.count + 1) % mxPeriod (twFmtA w) (twFmtB w) = 0 ∧ k < twRepeat w)

/-- The reads owed for the next block are made through the generators named when they were due. -/
def State.payOwn (s : State) (core p : Nat) (now : Bool) : State :=
  let s1 := (s.ownOwed core).foldl (fun s o => s.payScale core p now o) s
  let q := s1.pipe core
  s1.setPipe core { q with scales := { q.scales with owed := [] } }

/-- What keeps stream cycle k of a word from issuing: an address outside the map, 256 fetch lines outstanding, or a line
that an own fetch will write (R81, R90), or an own request will write or read through the core's own window (R266). -/
def State.cycleGate (s : State) (core : Nat) (w : TreadleWord) (k : Nat) : Gate :=
  match s.stream core with
  | none => .stop 0
  | some t =>
    let g := s.gen core (twNetAg w)
    match (if twNetOp w = 0 then none
      else s.refusal t.ctx (g.device / 64 * 64) (twNetLines w) (twNetOp w == 2)) with
    | some code => .stop code
    | none =>
      let kc := s.core core
      if twNetOp w = 1 ∧ 256 < (kc.fetches.map (fun f => f.left.length)).sum + twNetLines w then .hold .limit
      else
        let wr := s.portWrite core w k
        let stores := spanLines wr.1 wr.2
        let lines := ((s.portReads core w k).map (fun a => spanLines a.1 a.2)).flatten ++ stores ++ s.cycleScales core w k
        let out := kc.fetchLines ++ s.ownWrites core
        let src := s.ownReads core
        if lines.any (fun l => out.contains l) || stores.any (fun l => src.contains l) ||
          (s.endsBlock core w k && s.owedHazard core (s.ownOwed core)) then .hold .hazard else .go

/-- Stream cycle k of a word, its gate passed. -/
def State.runCycle (s : State) (core p : Nat) (w : TreadleWord) (k : Nat) : State :=
  -- the issue interval of R89: held stream cycles in which results in flight advance
  let q := s.pipe core
  let s := if vopRow (twVop w) = 4 ∧ ¬ twVop w = 0 ∧ q.cycle < q.divFree
    then s.idleCycles core p (q.divFree - q.cycle) else s
  let s := s.land core p
  let rd := s.portReads core w k
  let wr := s.portWrite core w k
  let reads := (rd.map (fun a => spanLines a.1 a.2)).flatten
  let writes := spanLines wr.1 wr.2
  let cost := cycleCost (reads ++ s.cycleScales core w k) writes
  let at_ (i : Nat) : Nat × Nat := rd.getD i (0, 0)
  let ma := s.readSpan core p (at_ 0).1 (at_ 0).2
  let mb := ma.2.2.readSpan core p (at_ 1).1 (at_ 1).2
  let vl := mb.2.2.readSpan core p (at_ 2).1 (at_ 2).2
  let so := (spanLines (at_ 3).1 (at_ 3).2).foldl (fun (acc : List (Line × Bool) × State) l =>
    let g := acc.2.readSpad core p l
    (acc.1 ++ [(g.1.data, g.1.poison)], g.2)) ([], vl.2.2)
  let s := ((so.2.consume core ma.2.1).consume core mb.2.1).consume core vl.2.1
  let s := s.scaleCycle core p w k reads writes
  let s := if s.endsBlock core w k then s.payOwn core p false else s
  let s := s.matrixCycle core w k ma.1 mb.1
  let s := s.storeCycle core p w k
  let s := s.vectorCycle core p w k vl.1
  let s := s.netCycle core w so.1
  let slow : Word := if s.millThrottled ∧ cost = 1 then 1 else 0
  let s := s.modCore core (fun c => { c with
    stall := c.stall + BitVec.ofNat 32 (cost - 1)
    holdCycles := c.holdCycles + slow
    pipe := { c.pipe with cycle := c.pipe.cycle + 1, ags := stepGens w k c.pipe.ags } })
  match s.stream core with
  | some t => s.setStream core (some { t with pos := k + 1 })
  | none => s

/-! ### Scale reads before a word (R78) -/

/-- The scale reads before a word: those owed for a block that has ended, or that the word ends by starting a count, each with its
generators, and whether three stream cycles are inserted for block 0. -/
def State.scalePlan (s : State) (core : Nat) (w : TreadleWord) : List (OwedScale × Nat × Nat) × Bool :=
  let c := (s.pipe core).scales
  let fresh := isMxWord w && startsCount c.loaded w
  let skip := fresh && c.onEdge && c.p == mxPeriod (twFmtA w) (twFmtB w)
  let ended := fresh || decide (c.count % c.p = 0)
  (if !ended then [] else if skip then c.owed.map (fun o => (o, twMaAg w, twMbAg w)) else s.ownOwed core, fresh && !skip)

/-- A scale line to be read before the word is one that an own fetch will write (R90). -/
def State.scaleHazard (s : State) (core : Nat) (w : TreadleWord) : Bool :=
  let plan := s.scalePlan core w
  let own := [twMaAg w, twMbAg w]
  let before : List Nat := (plan.1.map (fun o => [o.2.1, o.2.2])).flatten
  let gens := if plan.2 then own ++ own ++ own else []
  let out := (s.core core).fetchLines ++ s.ownWrites core
  s.owedHazard core plan.1 || ((scaleRun (s.pipe core).ags [] (before ++ gens)).drop before.length).any (fun l => out.contains l)

/-- One inserted stream cycle, in which the block-0 lines are read. -/
def State.insertCycle (s : State) (core p : Nat) (w : TreadleWord) : State :=
  let s := s.land core p
  let n := cycleCost (scaleRun (s.pipe core).ags [] [twMaAg w, twMbAg w]) [] - 1
  let s := (s.readScales core p (twMaAg w) (twMbAg w) true []).stretch core n
  let slow : Word := if s.millThrottled ∧ n = 0 then 1 else 0
  s.modCore core (fun c => { c with
    holdCycles := c.holdCycles + slow
    pipe := { c.pipe with cycle := c.pipe.cycle + 1 } })

def State.modScales (s : State) (core : Nat) (f : ScaleState → ScaleState) : State :=
  s.setPipe core { s.pipe core with scales := f (s.pipe core).scales }

/-- Make the reads, and start the K count where the word starts one. -/
def State.primeWord (s : State) (core p : Nat) (w : TreadleWord) : State :=
  let plan := s.scalePlan core w
  let s := (plan.1.foldl (fun s o => s.payScale core p true o) s).modScales core (fun c => { c with
    owed := if plan.1.isEmpty then c.owed else [] })
  let s := if plan.2 then
      (((s.modScales core (fun c => { c with curA := [], curB := [], nextA := [], nextB := [] })).insertCycle core p w).insertCycle
        core p w).insertCycle core p w
    else s
  if startsCount (s.pipe core).scales.loaded w then
    s.modScales core (fun c => { c with count := 0, loaded := nsDel c.loaded (twMxSet w) })
  else s

/-! ### The end of a word -/

/-- Marks, after its last stream cycle, what the next word needs to know of this one (R78). -/
def State.closeScales (s : State) (core : Nat) (w : TreadleWord) : State :=
  let mx := isMxWord w
  let p := mxPeriod (twFmtA w) (twFmtB w)
  s.modScales core (fun c => { c with
    p := if mx then p else c.p
    onEdge := mx && c.count % p == 0 })

/-- The core stops before a word that was delivered poisoned, or could not be had (R476, R347), a word that a pre-emption
interrupted and that has been read again included. -/
def State.checkFront (s : State) (core : Nat) : State :=
  match s.stream core with
  | none => s
  | some t =>
    match t.queue with
    | [] => s
    | q :: _ =>
      match q.refused with
      | some code => s.endStream core code
      | none =>
        if q.poison then
          let host : Bool := (s.stepOf t.work).map (fun p => decide (p.phase = .stream)) == some true
          s.endStream core (if q.unsealed && host then 0x0D else 0x07)
        else s

/-- The front word retires (R95): its signal is queued (R83), and the stream goes on, holds for want of a word (R98), or
ends. -/
def State.retire (s : State) (core : Nat) (w : TreadleWord) : State :=
  match s.stream core with
  | none => s
  | some t =>
    let sig : List SigReq := if twKind w = 0 ∧ twSigEn w then
      [⟨twSigTc w, twSigInc w, (s.core core).nextId⟩] else []
    let isEnd : Bool := (decide (twKind w = 1) && decide (twSop w = 4)) || (match t.src with
      | .program _ n => decide ((t.retired + 1).toNat = n)
      | .host _ _ => false)
    let runOut := isEnd && !(decide (twKind w = 1) && decide (twSop w = 4))
    let rest := if isEnd then [] else t.queue.tail
    let dry : Bool := rest.isEmpty && !isEnd && t.halt.isNone
    let t1 := { t with
      queue := rest
      pos := 0
      passed := false
      primed := false
      retired := t.retired + 1
      sigs := t.sigs ++ sig
      ending := isEnd
      hold := if dry then some (.underrun, s.tick) else none
      state := if dry then .underrun else t.state }
    let s := (s.closeScales core w).setStream core (some t1)
    -- a PROGRAM stream whose words run out ends as though its next word were END (R100)
    let s := match (s.core core).map.phys with
      | some p => if runOut then s.payOwn core p true else s
      | none => s
    let s := if t1.retired.toNat % 256 = 0 ∨ ¬ t1.state = t.state then s.statusRecord core t1 else s
    match t.halt with
    | some (some code) => s.endStream core code
    | some none => s.closeStream core t1
    | none => if isEnd then s.tryEnd core else s.checkFront core

/-! ### A whole word -/

/-- The core holds. DEDUCED: each kind of hold is a hold of its own, with its own limit, also where a word that an underrun waited
for holds at once for a fence or a wait (notes/assumptions/160.md, 181.md). -/
def State.holdAt (s : State) (core : Nat) (k : HoldKind) : State :=
  match s.stream core with
  | none => s
  | some t =>
    s.putStream core t { t with
      hold := some (k, s.tick)
      state := if k = .underrun then .underrun else .hold }

/-- The remaining stream cycles of an EXEC word. -/
def State.cycles (s : State) (core p : Nat) (w : TreadleWord) : Nat → State
  | 0 => s.retire core w
  | n + 1 =>
    let k := twRepeat w - n
    match s.cycleGate core w k with
    | .go => (s.runCycle core p w k).cycles core p w n
    | .hold h => s.holdAt core h
    | .stop code => s.endStream core code

/-- Fence, wait and scale reads before the first stream cycle (R78, R82, R84). -/
def State.wordGate (s : State) (core : Nat) (w : TreadleWord) (t : Stream) : Gate :=
  if t.passed then (if !t.primed && s.scaleHazard core w then .hold .hazard else .go)
  else if !s.fenceDone core w then .hold .fence
  else if twWaitEn w && !s.waitDone t w then .hold .wait
  else if s.scaleHazard core w then .hold .hazard
  else .go

/-- The wait has been passed: TARGET increases by STEP (R82). -/
def Stream.takeWait (t : Stream) (w : TreadleWord) : Stream :=
  if twWaitEn w then
    { t with wts := t.wts.modify (twWaitReg w) (fun r => { r with target := r.target + r.step.setWidth 48 }) }
  else t

/-- Run the front EXEC word from where it stands (R76). -/
def State.runWord (s : State) (core p : Nat) (w : TreadleWord) : State :=
  match s.stream core with
  | none => s
  | some t =>
    match s.wordGate core w t with
    | .stop code => s.endStream core code
    | .hold .hazard =>
      -- the fence and the wait, if any, have been passed
      let t1 := if t.passed then t else { t.takeWait w with passed := true }
      (s.setStream core (some t1)).holdAt core .hazard
    | .hold h => s.holdAt core h
    | .go =>
      let t1 := if t.passed then t else { t.takeWait w with passed := true }
      let s := s.setStream core (some { t1 with primed := true })
      let s := if t.primed then s else s.primeWord core p w
      s.cycles core p w (twRepeat w + 1 - t.pos)

/-- Tear the context down for an illegal word (R87). -/
def State.illegalWord (s : State) (core : Nat) (t : Stream) : State :=
  s.teardownFor t.ctx { cause := 0x01, info := t.retired.toNat, core := core, tag := s.workTag t.work }

end Sys2Proof.Machine
end

