-- ==== Sys2Proof/Machine/Steps.lean ====
section
/-!
DEFINITION. Inside a hank step (spec/08_serving.md R212 to R221, spec/07_skeins_attention.md R183 to R194): the prepare
stage, phases on the cores, attention in the stacks, and the verdict stage.
-/

namespace Sys2Proof.Machine

/-! ### Starting streams (R46, R94, R98) -/

/-- A core passes from one context to another (R46): what waits at its ports is performed before it is cleared. -/
def State.giveCore (s : State) (core p c : Nat) : State :=
  if (s.core core).lastCtx = some c then s
  else ((s.asyncAll core).clearCore p).modCore core (fun k => { k with
    lastCtx := some c
    pipe := {} })

/-- Logical cores of the groups of a mask. -/
def coresOf (m : BitVec 8) : List Nat := (List.range 144).filter (fun c => m.getLsbD (c / 18))

/-- Every core of a mask passes to a context, whether or not a stream runs on it (R474). -/
def State.giveCores (s : State) (m : BitVec 8) (c : Nat) : State :=
  (coresOf m).foldl (fun s core => match (s.core core).map.phys with
    | some p => s.giveCore core p c
    | none => s) s

/-- No scale line is in hand, and no read is owed, when a stream starts (R78). -/
def CoreSt.freshScales (k : CoreSt) : CoreSt :=
  { k with
    wordLoc := none
    pipe := { k.pipe with scales := { k.pipe.scales with onEdge := false, owed := [] } } }

/-- A stream starts on a logical core for a step; its first word has still to be fetched. A core that is OFFLINE refuses
it (R67). DESIGN CHOICE: results of an earlier stream of the context that are still in flight stay so, and land in this one's stream
cycles (notes/assumptions/178.md). -/
def State.launch (s : State) (p : StepSt) (bank : Option Nat) (core : Nat) (src : StreamSrc) (credit : Word) : State :=
  let t : Stream := {
    work := p.uid
    ctx := p.ctx
    bank := bank
    seed := p.seed
    stepIx := p.no
    src := src
    produced := credit
    hold := some (.underrun, s.tick)
    state := .underrun }
  match (s.core core).map.phys with
  | none => (s.setStream core (some t)).endStream core 0x0C
  | some _ => ((s.setStream core (some t)).modCore core CoreSt.freshScales).statusRecord core t

/-! ### Step banks (R274) -/

def State.clearBank (s : State) (b : Nat) : State :=
  { s with tally := s.tally.filter (fun e => !decide (4096 + 256 * b ≤ e.1 ∧ e.1 < 4096 + 256 * (b + 1))) }

/-- Something under way still increments the bank's counters. -/
def State.bankOwed (s : State) (b : Nat) : Bool :=
  s.cores.any (fun e => e.2.fetches.any (fun f => decide (f.bank = some b)) || e.2.puts.any (fun q => decide (q.bank = some b)) ||
    e.2.late.any (fun g => bankKey b g.key)) ||
  s.ctxs.any (fun e => e.2.posts.any (fun w => match w.post with
    | .tally _ bank _ => bank == some b
    | _ => false)) ||
  s.serve.rows.any (fun r => r.tc.any (fun k => bankKey b k))

/-- A bank for a step that starts: 16 always suffice. -/
def State.newBank (s : State) : Nat := ((List.range 16).find? (fun b => !s.banks.contains b)).getD 0

/-! ### The end of a step (R209, R211, R220, R223) -/

/-- What becomes of a stepping sequence when its step has ended. -/
def State.settleSeq (s : State) (uid i : Nat) : State :=
  let q := s.seq uid i
  if ¬ q.st = .stepping then s
  else
    let s := s.modSeq uid i (fun q => { q with lastStep := s.tick })
    match q.fate with
    | some code => s.endSeq uid i (if q.cancel ∧ code = 0 then 0x01 else code)
    | none =>
      if q.cancel then s.endSeq uid i 0x01
      else s.modSeq uid i (fun q => { q with
        st := if q.hasPrompt then .prefill else .decode
        kvSince := none })

/-- The step ends with `tokens` committed: charges, records, and the hank's next state. -/
def State.closeStep (s : State) (uid tokens : Nat) : State :=
  match s.stepOf uid with
  | none => s
  | some p =>
    match s.hankOf p.hank with
    | none => s.dropStep uid
    | some h =>
      let s := (s.chargeTime p).addStat p.ctx 3 1
      let s := { s with serve := { s.serve with
        charged := smod noCredit0 s.serve.charged p.ctx (fun v => v + BitVec.ofNat 32 tokens) } }
      let s := ((s.freeBank p.bank).dropStep uid).modHank h.uid (fun h => { h with steps := h.steps + 1, st := .active })
      let s := (List.range h.nseq).foldl (fun s i => s.settleSeq h.uid i) s
      let s := if h.stepRec then
        s.post p.ctx (.step { ckind := 3, rkind := 0x10, tag := h.tag, aux := BitVec.ofNat 32 tokens, count := p.no }) else s
      let s := if 0 < h.maxSteps ∧ h.maxSteps ≤ h.steps + 1 then s.endAtMax h.uid else s
      (s.settleHank h.uid 0).settleModels.noteReady
where
  noCredit0 (_ : Nat) : Word := 0

/-- The step ends without a verdict stage: every sequence stepping in it completes with the code (R221). -/
def State.failStep (s : State) (uid code : Nat) : State :=
  match s.stepOf uid with
  | none => s
  | some p =>
    let s := p.slots.foldl (fun s w => s.modSeq p.hank w.slot (fun q => { q with fate := some code })) s
    s.closeStep uid 0

/-! ### Phases (R208, R212, R274) -/

/-- Entry c of a program table starts core c. -/
def State.launchEntry (s : State) (uid : Nat) (table : List Nat) (core : Nat) : State :=
  match s.stepOf uid with
  | none => s
  | some p =>
    let e := natOfBytes ((table.drop (16 * core)).take 16)
    let words := bitsAt e 95 64
    if words = 0 ∨ ¬ p.mask.getLsbD (core / 18) ∨ p.ends.any (fun x => failsPhase x.2.1) then s
    else s.launch p (some p.bank) core (.program (bitsAt e 41 0) words) 0

def Hank.program (h : Hank) (ph : Phase) : Nat :=
  match ph with
  | .draft => h.progDraft
  | .prefill => if h.train then h.progMain else h.progPrefill
  | _ => h.progMain

/-- A phase starts: the step's bank is cleared, the program table is read, the cores start. -/
def State.startPhase (s : State) (uid : Nat) (ph : Phase) : State :=
  match s.stepOf uid with
  | none => s
  | some p =>
    match s.hankOf p.hank with
    | none => s
    | some h =>
      let s := (s.giveCores p.mask p.ctx).clearBank p.bank
      let val (b : Bool) : BitVec 48 := s.tcVal (s.tcKey p.ctx (some p.bank) (h.qtc b))
      let s := s.modStep uid (fun p => { p with
        phase := ph
        ends := []
        att0 := 0
        att1 := 0
        q0 := val false
        q1 := val true })
      let r := s.govRead p.ctx (h.program ph) 2304
      if r.2.1.any (fun b => b) then r.2.2.failStep uid 0x07
      else (List.range 144).foldl (fun s c => s.launchEntry uid r.1 c) r.2.2

/-! ### Candidate lists (R217, R219, Tables 8.6 and 7.6) -/

/-- Token and parent of each node, in order. -/
def candNodes (b : List Nat) (n : Nat) : List (Word × Nat) :=
  (List.range n).map (fun w =>
    let e := natOfBytes ((b.drop (64 + 8 * w)).take 8)
    (BitVec.ofNat 32 (bitsAt e 31 0), bitsAt e 39 32))

/-- Every parent is 255 or an earlier node on the current depth-first path; `path` is that path, deepest node first. -/
def depthFirst : List (Word × Nat) → Nat → List Nat → Bool
  | [], _, _ => true
  | (_, p) :: rest, w, path =>
    if p = 255 then depthFirst rest (w + 1) [w]
    else if path.contains p then depthFirst rest (w + 1) (w :: path.dropWhile (fun x => !decide (x = p)))
    else false

/-- Plies of nodes: `done` holds those before. -/
def plies : List (Word × Nat) → List Nat → List Nat
  | [], done => done
  | (_, p) :: rest, done => plies rest (done ++ [if p = 255 then 1 else done.getD p 0 + 1])

/-- The nodes of ply at most D, in order and renumbered. -/
def prune (d : Nat) (nodes : List (Word × Nat)) : List (Word × Nat) :=
  let ply := plies nodes []
  let keep (w : Nat) : Bool := decide (ply.getD w 0 ≤ d)
  (nodes.zipIdx.filter (fun e => keep e.2)).map (fun e =>
    (e.1.1, if e.1.2 = 255 then 255 else ((List.range e.1.2).filter keep).length))

/-- NODE_w: node w and its ancestors. -/
def nodeMasks : List (Word × Nat) → List Nat → List Nat
  | [], done => done
  | (_, p) :: rest, done =>
    nodeMasks rest (done ++ [2 ^ done.length + (if p = 255 then 0 else done.getD p 0)])

/-- The mask row's 512 bytes. -/
def maskBytes (nodes : List (Word × Nat)) : List Nat :=
  let m := nodeMasks nodes []
  ((List.range 64).map (fun w => bytesOfNat 8 (m.getD w 0))).flatten

/-- The list is malformed (R219). -/
def candBad (b : List Nat) (nmax no : Nat) : Bool :=
  let n := b.getD 3 0
  !decide (b.getD 2 0 = no % 256) || !decide (natOfBytes ((b.drop 4).take 60) = 0) || decide (nmax < n) ||
  (List.range n).any (fun w => !decide (natOfBytes ((b.drop (64 + 8 * w + 5)).take 3) = 0)) ||
  !depthFirst (candNodes b n) 0 []

/-- One slot's list is read, checked, pruned and written back, and its mask rows are written (R192, R217). -/
def State.armSlot (s : State) (uid : Nat) (w : SlotWork) : State :=
  match s.stepOf uid with
  | none => s
  | some p =>
    match s.hankOf p.hank with
    | none => s
    | some h =>
      let q := h.seq w.slot
      if q.depth = 0 ∨ w.rows = 0 ∨ (s.ctx p.ctx).closing.isSome then s
      else
        let a := h.candList + 1024 * w.slot
        let r := s.govRead p.ctx a 576
        let s := r.2.2
        if r.2.1.any (fun b => b) then s.modSeq h.uid w.slot (fun q => { q with fate := some 0x07 })
        else if candBad r.1 h.nmax p.no then s.teardownFor p.ctx { cause := 0x02, tag := s.workTag p.uid }
        else
          let nodes := prune q.depth (candNodes r.1 (r.1.getD 3 0))
          let s := s.govWrite p.ctx (a + 3) [nodes.length] false
          let s := s.govWrite p.ctx (a + 64) ((nodes.map (fun n => bytesOfNat 4 n.1.toNat ++ [n.2, 0, 0, 0])).flatten) false
          let s := q.chains.foldl (fun s e =>
            match s.placeIn w.pos e.2 0 with
            | some x => s.putBlock (s.skein x.1).block (1024 * maskRow) (maskBytes nodes) false
            | none => s) s
          s.modStep uid (fun p => { p with slots := p.slots.map (fun x =>
            if x.slot = w.slot then { x with cand := nodes, rows := 1 + nodes.length } else x) })

/-! ### The append list (R215, R216) -/

/-- Entry number of a slot's row, layer and KV head. -/
def appendIx (h : Hank) (m : Model) (slot r l j : Nat) : Nat :=
  ((slot * h.rmax + r) * m.nlayer + l) * m.nkv + j

/-- KELEM and KSCALE of a row, if the row is active. -/
def State.rowAddrs (s : State) (q : Seq) (w : Option SlotWork) (r l j : Nat) : Nat × Nat :=
  match w with
  | none => (0, 0)
  | some w =>
    if w.rows ≤ r then (0, 0)
    else
      match s.placeIn (w.pos + r) (q.chain l j) 0 with
      | none => (0, 0)
      | some x =>
        let e := s.skein x.1
        (e.block * 2 ^ 17 + elemOff e.bits e.d x.2.2, e.block * 2 ^ 17 + scaleOff e.bits e.d x.2.2)

def StepSt.work (p : StepSt) (slot : Nat) : Option SlotWork := p.slots.find? (fun w => decide (w.slot = slot))

/-- A slot whose sequence still steps without a final condition met in the prepare stage. -/
def State.fillAppend (s : State) (uid : Nat) : State :=
  match s.stepOf uid with
  | none => s
  | some p =>
    match s.hankOf p.hank with
    | none => s
    | some h =>
      match s.modelOf h with
      | none => s
      | some m =>
        (List.range h.nseq).foldl (fun s slot => (List.range h.rmax).foldl (fun s r => m.heads.foldl (fun s lj =>
          let ad := s.rowAddrs (h.seq slot) (p.work slot) r lj.1 lj.2
          s.govWrite p.ctx (h.append + 32 * appendIx h m slot r lj.1 lj.2 + 8)
            (bytesOfNat 8 ad.1 ++ bytesOfNat 16 ad.2) false) s) s) s

/-! ### The prepare stage (R212) -/

/-- A slot leaves the step. -/
def State.leaveStep (s : State) (uid slot : Nat) : State :=
  s.modStep uid (fun p => { p with slots := p.slots.filter (fun w => !decide (w.slot = slot)) })

/-- Skeins for one slot (R183, R184, R227); its NTOK and COMMIT are raised. -/
def State.prepSlot (s : State) (uid : Nat) (w : SlotWork) : State :=
  match s.stepOf uid with
  | none => s
  | some p =>
    match s.hankOf p.hank with
    | none => s
    | some h =>
      match s.modelOf h with
      | none => s
      | some m =>
        let q := h.seq w.slot
        if !s.seqResident q.chains then ((s.parkSeq h.uid w.slot false).leaveStep uid w.slot)
        else
          match s.obtain h m w.slot with
          | .limit =>
            (s.modSeq h.uid w.slot (fun q => { q with fate := some 0x06 })).modStep uid (fun p => { p with
              slots := p.slots.map (fun x => if x.slot = w.slot then { x with rows := 0 } else x) })
          | .lack => (s.parkSeq h.uid w.slot true).leaveStep uid w.slot
          | .done s =>
            let n := h.slotsFor q
            s.raiseSeq (s.seq h.uid w.slot).chains (w.pos + n) (w.pos + (if q.hasPrompt then n else 1))

/-- Blocks are reclaimed for a sequence that the prepare stage has parked for want of them (R227). -/
def State.reclaimSlot (s : State) (uid i : Nat) : State :=
  match s.hankOf uid with
  | none => s
  | some h =>
    match s.modelOf h with
    | none => s
    | some m =>
      let q := h.seq i
      if q.st = .parked ∧ q.kvSince.isSome ∧ s.seqResident q.chains then
        s.reclaim uid h.ctx (s.lacking m q.committed (h.slotsFor q) q.speculates q.chains)
      else s

/-- D and NMAX of a slot's list. -/
def State.writeDepth (s : State) (uid : Nat) (w : SlotWork) : State :=
  match s.stepOf uid with
  | none => s
  | some p =>
    match s.hankOf p.hank with
    | none => s
    | some h =>
      s.govWrite p.ctx (h.candList + 1024 * w.slot) [(h.seq w.slot).depth, h.nmax] false

/-- Lists, masks and the append list, and then the main phase or the prefill phase. -/
def State.armStep (s : State) (uid : Nat) (ph : Phase) : State :=
  match s.stepOf uid with
  | none => s
  | some p =>
    let s := if ph = .main then p.slots.foldl (fun s w => s.armSlot uid w) s else s
    if (s.ctx p.ctx).closing.isSome then s else (s.fillAppend uid).startPhase uid ph

/-- A prepared step does not take place: its hank is ACTIVE, and complete if every sequence is (R198, R210). -/
def State.cancelStep (s : State) (p : StepSt) : State :=
  let s := (s.freeBank p.bank).dropStep p.uid
  let s := s.modHank p.hank (fun h => { h with
    st := .active
    seqs := h.seqs.map (fun q => if q.st = .stepping then { q with st := if q.hasPrompt then .prefill else .decode } else q) })
  ((s.settleHank p.hank 0).settleModels).noteReady

/-- The step begins: the prepare stage, and then its first phase; it does not take place when no sequence is left in it. -/
def State.beginStep (s : State) (uid : Nat) : State :=
  match s.stepOf uid with
  | none => s
  | some p =>
    let s := p.slots.foldl (fun s w => s.prepSlot uid w) s
    let s := p.slots.foldl (fun s w => s.reclaimSlot p.hank w.slot) s
    match s.stepOf uid with
    | none => s
    | some p =>
      match s.hankOf p.hank with
      | none => s.dropStep uid
      | some h =>
        if p.slots = [] then s.cancelStep p
        else
          let s := p.slots.foldl (fun s w => s.writeDepth uid w) (s.giveCores p.mask p.ctx)
          let tree : Bool := (s.modelOf h).any (fun m => m.specMode == 1)
          if p.phase = .prefill then s.armStep uid .prefill
          else if tree then s.startPhase uid .draft
          else s.armStep uid .main

/-! ### Attention (R185 to R187, R193, R214 to R216, R477) -/

/-- QTC's value at which a layer's attention begins, since the phase began. -/
def layerTarget (h : Hank) (m : Model) (ph : Phase) (sub : Bool) : Nat :=
  h.subSize sub * h.rows ph * ((if ph = .prefill then 0 else m.nh * 2 * m.d) + m.nkv * m.carrier)

def StepSt.layer (p : StepSt) (sub : Bool) : Nat := if sub then p.att1 else p.att0
def StepSt.nextLayer (sub : Bool) (p : StepSt) : StepSt :=
  if sub then { p with att1 := p.att1 + 1 } else { p with att0 := p.att0 + 1 }

/-- The sub-batch's trigger counter has reached its next layer. -/
def State.layerDue (s : State) (p : StepSt) (h : Hank) (m : Model) (sub : Bool) : Bool :=
  let key := s.tcKey p.ctx (some p.bank) (h.qtc sub)
  let base := if sub then p.q1 else p.q0
  decide (p.layer sub < m.nlayer ∧ 0 < h.subSize sub) && p.preAt.isNone && p.switch.isNone && p.waiting.isEmpty &&
    (s.ctx p.ctx).closing.isNone && tcReached (s.tcVal key) (base + BitVec.ofNat 48 ((p.layer sub + 1) * layerTarget h m p.phase sub))

/-- Bytes off to off + n − 1, line by line: offset and size. -/
def linePieces (off n : Nat) : List (Nat × Nat) :=
  (List.range ((off + n + 63) / 64 - off / 64)).map (fun i =>
    let a := max off (64 * (off / 64 + i))
    (a, min (off + n) (64 * (off / 64 + i) + 64) - a))

/-- The append writes of one row, layer and KV head. -/
def State.appendRow (s : State) (h : Hank) (m : Model) (w : SlotWork) (r l j : Nat) : State :=
  let a := s.govRead h.ctx (h.append + 32 * appendIx h m w.slot r l j) 8
  let car := natOfBytes a.1 % 2 ^ 42
  let s := a.2.2
  if !s.rangeOk h.ctx car m.carrier false then
    s.modSeq h.uid w.slot (fun q => { q with fate := some (q.fate.getD 0x03) })
  else
    let c := s.govRead h.ctx car m.carrier
    let s := if c.2.1.any (fun b => b) then c.2.2.modSeq h.uid w.slot (fun q => { q with fate := some 0x07 }) else c.2.2
    match s.placeIn (w.pos + r) ((h.seq w.slot).chain l j) 0 with
    | none => s
    | some x =>
      let e := s.skein x.1
      let from_ := [(0, m.ebytes), (m.epad, m.ebytes), (2 * m.epad, m.d / 16), (2 * m.epad + 32, m.d / 16)]
      (List.zip from_ (slotFields e.bits e.d x.2.2)).foldl (fun s f => (linePieces f.1.1 f.1.2).foldl (fun s g =>
        s.putBlock e.block (f.2.1 + (g.1 - f.1.1)) ((c.1.drop g.1).take g.2) (c.2.1.getD (g.1 / 64) false)) s) s

/-- Slots of a sub-batch that step, with their active rows. -/
def StepSt.active (p : StepSt) (h : Hank) (sub : Bool) : List SlotWork :=
  p.slots.filter (fun w => decide (h.subFirst sub ≤ w.slot ∧ w.slot < h.subFirst sub + h.subSize sub))

def State.appendLayer (s : State) (p : StepSt) (h : Hank) (m : Model) (sub : Bool) : State :=
  (p.active h sub).foldl (fun s w => (List.range w.rows).foldl (fun s r => (List.range m.nkv).foldl (fun s j =>
    s.appendRow h m w r (p.layer sub) j) s) s) s

/-- Bytes of a merge output record (Table 3.8). -/
def outRecord (y : List F32) (m l : F32) : List Nat :=
  (y.map (fun v => bytesOfNat 4 v.toNat)).flatten ++ bytesOfNat 4 m.toNat ++ bytesOfNat 4 l.toNat ++ List.replicate 24 0

/-- Where a row's output record goes. -/
def outAddr (p : StepSt) (h : Hank) (m : Model) (sub : Bool) (slot r head : Nat) : Nat :=
  (h.ybuf sub + (((slot - h.subFirst sub) * h.rows p.phase + r) * m.nh + head) * (4 * m.d + 32)) % 2 ^ 42

/-- The query rows of a group of heads; rows on a poisoned line are NaN (R477). -/
def State.queryRows (s : State) (p : StepSt) (h : Hank) (m : Model) (sub : Bool) (slot r : Nat) (heads : List Nat) :
    List (List (BitVec 16)) × State :=
  heads.foldl (fun (acc : List (List (BitVec 16)) × State) head =>
    let a := (h.qbuf sub + (((slot - h.subFirst sub) * h.rows p.phase + r) * m.nh + head) * (2 * m.d)) % 2 ^ 42
    let g := acc.2.govRead h.ctx a (2 * m.d)
    let bad := g.2.1.any (fun b => b)
    let row := if bad then List.replicate m.d (0x7FC0 : BitVec 16)
      else (unpackElems 16 m.d (natOfBytes g.1)).map (BitVec.ofNat 16)
    (acc.1 ++ [row], if bad then g.2.2.modSeq h.uid slot (fun q => { q with fate := some 0x07 }) else g.2.2)) ([], s)

/-- An empty partial for a Skein with no token (R37). -/
def emptyPartial (d row : Nat) : PartialRec :=
  { ctag := 0, qrow := row, d := d, part := Partial.init d, poison := false, unsealed := false, empty := true }

/-- Merge rows and scans of one group of query rows over one chain (R186, R187, R193). -/
def State.planGroup (s : State) (p : StepSt) (h : Hank) (m : Model) (sub : Bool) (w : SlotWork) (r l j : Nat)
    (heads : List Nat) : State :=
  let q := s.seq h.uid w.slot
  let chain := q.chain l j
  let qs := s.queryRows p h m sub w.slot r heads
  let s := qs.2
  let first := s.serve.nextRow
  let ids := (List.range heads.length).map (fun i => first + i)
  let tail := s.placeIn w.pos chain 0
  let scanOf (e : Nat × Nat) : Nat × Option (Nat × Nat) :=
    match tail with
    | some x =>
      if e.2 = x.2.1 then
        (if r = 0 then (x.2.2 + 1, none) else (x.2.2 + 1 + w.cand.length, some (r - 1, x.2.2 + 1)))
      else ((s.skein e.1).ntok, none)
    | none => ((s.skein e.1).ntok, none)
  let buf : QBuf := { d := m.d, rows := qs.1, sigma := h.sigma }
  let plans := (chain.zipIdx.filter (fun e => !decide ((scanOf e).1 = 0))).map (fun e =>
    ({ step := p.uid, slot := w.slot, handle := e.1, pos := e.2, rows := ids, ntok := (scanOf e).1, mask := (scanOf e).2,
       q := buf } : ScanPlan))
  let empty := (chain.zipIdx.filter (fun e => decide ((scanOf e).1 = 0))).map Prod.snd
  let tc := s.tcKey p.ctx (some p.bank) (h.ytc sub)
  let rows := heads.zipIdx.map (fun hd =>
    ({ id := first + hd.2, ssb := q.home.getD 0, ctx := p.ctx, step := p.uid, slot := w.slot, d := m.d,
       nslots := chain.length, dest := outAddr p h m sub w.slot r hd.1, tc := some tc, acc := Partial.init m.d,
       inbox := empty.map (fun pos => (pos, emptyPartial m.d hd.2)) } : MergeRow))
  { s with serve := { s.serve with
      plans := s.serve.plans ++ plans
      rows := s.serve.rows ++ rows
      nextRow := first + heads.length } }

/-- Groups of at most eight query heads of a KV head. -/
def headGroups (m : Model) (j : Nat) : List (List Nat) :=
  (List.range ((m.nqpk + 7) / 8)).map (fun g =>
    (List.range (min 8 (m.nqpk - 8 * g))).map (fun i => j * m.nqpk + 8 * g + i))

/-- The append writes of a prefill step's layer; YTC_b advances when they are committed. -/
def State.prefillAppend (s : State) (uid : Nat) (sub : Bool) : State :=
  match s.stepOf uid with
  | none => s
  | some p =>
    match s.hankOf p.hank with
    | none => s
    | some h =>
      match s.modelOf h with
      | none => s
      | some m =>
        if s.serving && p.phase == .prefill && !p.restart && s.layerDue p h m sub then
          ((s.appendLayer p h m sub).tcAdd (s.tcKey p.ctx (some p.bank) (h.ytc sub))
            (h.subSize sub * h.rows .prefill * m.nkv * m.carrier)).modStep uid (StepSt.nextLayer sub)
        else s

/-! ### The merge units (R62 to R65, R230) -/

def MergeRow.bytes (r : MergeRow) : Nat := r.nslots * (4 * r.d + 32)

/-- Bytes of an SSB's merge-slot region that are reserved. -/
def State.mergeUsed (s : State) (k : Nat) : Nat :=
  ((s.serve.rows.filter (fun r => decide (r.ssb = k) && r.reserved)).map MergeRow.bytes).sum

/-- Bytes of the region that are not withheld (R365). -/
def State.mergeRoom (s : State) (k : Nat) : Nat :=
  8388608 - ((s.rel.slotsHeld.filter (fun e => decide (e.1 = k))).map (fun e => e.2.2)).sum

/-- The SSB's oldest waiting reservation is granted if the pool has room. -/
def State.mergeReserve (s : State) (k : Nat) : State :=
  match s.serve.rows.find? (fun r => decide (r.ssb = k) && !r.reserved) with
  | none => s
  | some r =>
    if s.domainOn (.ssb k) ∧ s.mergeUsed k + r.bytes ≤ s.mergeRoom k then
      { s with serve := { s.serve with rows := s.serve.rows.map (fun x => if x.id = r.id then { x with reserved := true } else x) } }
    else s

def State.setMergeRow (s : State) (r : MergeRow) : State :=
  { s with serve := { s.serve with rows := s.serve.rows.map (fun x => if x.id = r.id then r else x) } }
def State.dropMergeRow (s : State) (id : Nat) : State :=
  { s with serve := { s.serve with rows := s.serve.rows.filter (fun x => !decide (x.id = id)) } }

/-- Combine the partials that have their turn (R64). -/
def MergeRow.combine (r : MergeRow) : Nat → MergeRow
  | 0 => r
  | n + 1 =>
    match r.slots.find? (fun e => decide (e.1 = r.next)) with
    | none => r
    | some e => MergeRow.combine { r with
        acc := mergeAdd r.acc e.2.part
        next := r.next + 1
        slots := r.slots.filter (fun x => !decide (x.1 = r.next)) } n

/-- The step of a row is pre-empted or being switched. -/
def State.rowAway (s : State) (r : MergeRow) : Bool :=
  match s.stepOf r.step with
  | some p => p.preAt.isSome || p.switch.isSome
  | none => false

/-- The lines of a record at `a`. -/
def State.recordLines (s : State) (a : Nat) (b : List Nat) : List (Nat × Loc × List Nat) :=
  (List.range ((a % 64 + b.length + 63) / 64)).map (fun i =>
    let start := if i = 0 then a else a / 64 * 64 + 64 * i
    (start, s.locate (start / 64 * 64), (b.drop (start - a)).take (64 - start % 64)))

/-- The next lines of an output record, up to one whose bank is busy (R161). -/
def State.rowLines (s : State) : Nat → MergeRow → MergeRow × State
  | 0, r => (r, s)
  | n + 1, r =>
    match r.left with
    | some ((a, l, b) :: rest) =>
      let t : Bool × State := match placeOf a with
        | .stacked => s.reach l (.merge r.id)
        | .scratch core _ => (true, s.asyncAll core)
        | _ => (true, s)
      if !t.1 then (r, t.2)
      else
        let m := partialLine a b
        (t.2.placeLineAt (a / 64 * 64) l m.1 m.2 false r.ctx).rowLines n { r with left := some rest }
    | _ => (r, s)

/-- An output record is written line by line, and counted once it has been (R65). -/
def State.writeOutput (s : State) (r : MergeRow) : State :=
  let b := outRecord (mergeOut r.acc) r.acc.m r.acc.l
  let l := r.left.getD (s.recordLines (r.dest / 32 * 32) b)
  let w := s.rowLines l.length { r with left := some l }
  if w.1.left.any List.isEmpty then
    (match r.tc with
      | some k => w.2.tcAdd k b.length
      | none => w.2).dropMergeRow r.id
  else w.2.setMergeRow w.1

/-- The row's output is refused: it is dropped, and its sequence ends with the code. -/
def State.refuseOutput (s : State) (r : MergeRow) (code : Nat) : State :=
  (match s.stepOf r.step with
    | some p => s.modSeq p.hank r.slot (fun q => { q with fate := some (q.fate.getD code) })
    | none => s).dropMergeRow r.id

/-- An output record is checked when it is issued (R115). DESIGN CHOICE: one that fails ends its sequence with BOUNDS
(notes/assumptions/185.md). -/
def State.issueOutput (s : State) (r : MergeRow) : State :=
  if r.left.isNone && !s.rangeOk r.ctx (r.dest / 32 * 32) (4 * r.d + 32) true then s.refuseOutput r 0x03
  else s.writeOutput r

/-- A row's output record is written, or waits for the restore of its core (R230). One for a core that no longer runs the
step is dropped, and at an OFFLINE core refused with STALE_EPOCH, which ends the row's sequence (R67). -/
def State.mergeOutput (s : State) (r : MergeRow) : State :=
  match placeOf r.dest with
  | .scratch core _ =>
    if s.rowAway r then s.setMergeRow { r with blocked := true }
    else if (s.core core).map.phys.isNone then s.refuseOutput r 0x0C
    else if s.runsFor core r.ctx then s.issueOutput r
    else s.dropMergeRow r.id
  | _ => s.issueOutput r

/-- What the check of a partial's slot does: corrections are counted; where it fails, the partial is taken as poisoned and
the row's sequence will complete with WEIGHT_POISON (Table 13.2), and a slot with a hard fault is withheld (R365). -/
def State.slotCheck (s : State) (r : MergeRow) (e : PartialRec) : SlotCheck → PartialRec × State
  | .clean => (e, s)
  | .corrected n => (e, (List.range n).foldl (fun s _ => s.countCe 8) s)
  | .failed off =>
    let o := off.toNat / 32 * 32
    let f := s.ssbFailed r.ssb o
    let s := if f.1 && !f.2.rel.slotsHeld.any (fun e => decide (e.1 = r.ssb ∧ e.2.1 = o)) then
      { f.2 with rel := { f.2.rel with slotsHeld := f.2.rel.slotsHeld ++ [(r.ssb, o, 4 * r.d + 32)] } } else f.2
    ({ e with part := Partial.nan r.d, poison := true },
      match s.stepOf r.step with
      | some p => s.modSeq p.hank r.slot (fun q => { q with fate := some 0x07 })
      | none => s)

def State.partialArrive (s : State) (k id pos : Nat) (check : SlotCheck) : State :=
  match s.serve.rows.find? (fun r => decide (r.id = id ∧ r.ssb = k) && r.reserved) with
  | none => s
  | some r =>
    match r.inbox.find? (fun e => decide (e.1 = pos) && (s.ctx r.ctx).closing.isNone) with
    | none => s
    | some e =>
      let c := s.slotCheck r e.2 check
      let s := c.2
      let r := MergeRow.combine { r with
        inbox := r.inbox.filter (fun x => !decide (x.1 = pos))
        slots := r.slots ++ [(pos, c.1)] } (r.nslots + 1)
      let s := s.setMergeRow r
      if r.next = r.nslots then s.mergeOutput r else s

/-! ### A layer's attention begins (R214, R216) -/

/-- The output record of an inactive row, which no scan feeds: one for a fully masked row (R38). -/
def State.inactiveRow (s : State) (r : MergeRow) : State :=
  let r := { r with id := s.serve.nextRow }
  { s with serve := { s.serve with rows := s.serve.rows ++ [r], nextRow := s.serve.nextRow + 1 } }.mergeOutput r

/-- The records of a slot's inactive rows; they hold no merge slot. -/
def State.inactiveRows (s : State) (p : StepSt) (h : Hank) (m : Model) (sub : Bool) (slot : Nat) : State :=
  let tc := some (s.tcKey p.ctx (some p.bank) (h.ytc sub))
  let from_ := ((p.work slot).map (fun w => w.rows)).getD 0
  (List.range (h.rows p.phase - from_)).foldl (fun s i => (List.range m.nh).foldl (fun s head =>
    s.inactiveRow { id := 0, ssb := 8, ctx := p.ctx, step := p.uid, slot := slot, d := m.d, nslots := 0, tc := tc,
                    dest := outAddr p h m sub slot (from_ + i) head, reserved := true, acc := Partial.init m.d }) s) s

/-- A layer's attention begins for a sub-batch. -/
def State.attend (s : State) (p : StepSt) (h : Hank) (m : Model) (sub : Bool) : State :=
  let s := s.appendLayer p h m sub
  let s := (List.range (h.subSize sub)).foldl (fun s i => s.inactiveRows p h m sub (h.subFirst sub + i)) s
  let s := (p.active h sub).foldl (fun s w => (List.range w.rows).foldl (fun s r => (List.range m.nkv).foldl (fun s j =>
    (headGroups m j).foldl (fun s g => s.planGroup p h m sub w r (p.layer sub) j g) s) s) s) s
  s.modStep p.uid (StepSt.nextLayer sub)

def State.attentionBegin (s : State) (uid : Nat) (sub : Bool) : State :=
  match s.stepOf uid with
  | none => s
  | some p =>
    match s.hankOf p.hank with
    | none => s
    | some h =>
      match s.modelOf h with
      | none => s
      | some m => if s.serving && p.phase == .main && !p.restart && !h.train && s.layerDue p h m sub then s.attend p h m sub else s

/-! ### The verdict stage (R194, R218 to R220, R226) -/

/-- R226. -/
def Seq.adapt (q : Seq) (k dmax thresh poor : Nat) : Seq :=
  let a := if 0 < q.depth then
      (let bad := if 256 * k < thresh * q.depth then q.poor + 1 else 0
       if bad = poor then { q with depth := q.depth / 2, poor := 0, since := 0 } else { q with poor := bad })
    else q
  let b := { a with since := a.since + 1 }
  if b.since = 256 ∧ b.depth < dmax then { b with depth := min dmax (max 1 (2 * b.depth)), poor := 0, since := 0 } else b

/-- The a_i of a verdict. -/
def verdictAcc (v : Nat) : List Nat :=
  (List.range (v % 32)).map (fun i => bitsAt v (64 + 6 * i + 5) (64 + 6 * i))

/-- The accepted candidates form a path from the committed token. -/
def isPath (nodes : List (Word × Nat)) : Nat → List Nat → Bool
  | _, [] => true
  | prev, a :: rest =>
    match nodes[a]? with
    | some n => decide (n.2 = prev) && isPath nodes a rest
    | none => false

/-- The verdict is malformed (R219). -/
def verdictBad (v no d : Nat) (nodes : List (Word × Nat)) : Bool :=
  !decide (bitsAt v 15 8 = no % 256) || !decide (bitsAt v 7 6 = 0 ∧ bitsAt v 31 16 = 0 ∧ bitsAt v 255 160 = 0) ||
    decide (d < v % 32) || !isPath nodes 255 (verdictAcc v)

/-- Accepted candidates move to their committed slots in one chain, and NTOK and COMMIT follow (R194). -/
def State.moveChain (s : State) (pos : Nat) (acc : List Nat) (chain : List Nat) : State :=
  match s.placeIn pos chain 0 with
  | none => s
  | some x =>
    let e := s.skein x.1
    let m0 := x.2.2 + 1
    let s := acc.zipIdx.foldl (fun s a => if a.1 = a.2 then s else s.copySlot e (m0 + a.1) e (m0 + a.2)) s
    s.setSkein x.1 { s.skein x.1 with ntok := m0 + acc.length, commit := m0 + acc.length }

/-- Depth after a decode step; a tail whose sequence no longer speculates gets row 127 back (R191). -/
def State.adaptSeq (s : State) (h : Hank) (m : Model) (slot k : Nat) : State :=
  let q := s.seq h.uid slot
  let q1 := q.adapt k (s.depthMax h m) (s.cfld h.ctx Reg.govSpec 23 16) (s.cfld h.ctx Reg.govSpec 31 24)
  let s := s.modSeq h.uid slot (fun _ => q1)
  if 0 < q.depth ∧ q1.depth = 0 then
    q.chains.foldl (fun s e => match e.2.getLast? with
      | some t => s.clearSpec t
      | none => s) s
  else s

/-- The step's tokens go to TOKOUT, up to MAXNEW, and the final conditions of R220 are met. -/
def State.emit (s : State) (h : Hank) (m : Model) (slot : Nat) (toks : List Word) (fin : Bool) : State :=
  let q := s.seq h.uid slot
  let t := toks.take (q.maxNew - q.out)
  if q.cancel then s
  else if !s.rangeOk h.ctx (0x20000000000 + q.tokout + 4 * q.out) (4 * t.length) true then
    s.modSeq h.uid slot (fun q => { q with fate := some 0x03 })
  else
    let s := s.hostWrite h.ctx (s.winAddr h.ctx (q.tokout + 4 * q.out))
      ((t.map (fun v => bytesOfNat 4 v.toNat)).flatten.map (BitVec.ofNat 8)) false
    let out := q.out + t.length
    let done := fin || decide (q.maxNew ≤ out) || decide (m.ctxlim ≤ q.committed + 1)
    s.modSeq h.uid slot (fun q => { q with out := out, fate := if done then some 0 else q.fate })

/-- One slot's verdict is read and acted on; answers the tokens committed. -/
def State.readVerdict (s : State) (p : StepSt) (h : Hank) (m : Model) (w : SlotWork) : Nat × State :=
  let r := s.govRead p.ctx (h.verdict + 32 * w.slot) 32
  let s := r.2.2
  let v := natOfBytes r.1
  let q := s.seq h.uid w.slot
  let decode : Bool := p.phase == .main
  if r.2.1.any (fun b => b) then (0, s.modSeq h.uid w.slot (fun q => { q with fate := some 0x07 }))
  else if verdictBad v p.no (if decode then q.depth else 0) w.cand then (0, s.teardownFor p.ctx { cause := 0x02, tag := s.workTag p.uid })
  else
    let acc := verdictAcc v
    let next := BitVec.ofNat 32 (bitsAt v 63 32)
    let toks := acc.map (fun a => ((w.cand[a]?).map Prod.fst).getD 0) ++ [next]
    if decode then
      let s := q.chains.foldl (fun s e => s.moveChain w.pos acc e.2) s
      let s := s.modSeq h.uid w.slot (fun q => { q with committed := q.committed + 1 + acc.length })
      (acc.length + 1, (s.adaptSeq h m w.slot acc.length).emit h m w.slot toks (v.testBit 5))
    else (0, s.emit h m w.slot toks (v.testBit 5))

/-- The verdict stage for one slot. -/
def State.verdictSlot (s : State) (uid : Nat) (w : SlotWork) : Nat × State :=
  match s.stepOf uid with
  | none => (0, s)
  | some p =>
    match s.hankOf p.hank with
    | none => (0, s)
    | some h =>
      match s.modelOf h with
      | none => (0, s)
      | some m =>
        let q := h.seq w.slot
        if ¬ q.st = .stepping ∨ q.fate.isSome ∨ (s.ctx p.ctx).closing.isSome then (0, s)
        else if p.poison then (0, s.modSeq h.uid w.slot (fun q => { q with fate := some 0x07 }))
        else if p.phase = .main then s.readVerdict p h m w
        else
          let s := s.modSeq h.uid w.slot (fun q => { q with
            promptPos := q.promptPos + w.rows
            committed := q.committed + w.rows })
          if (s.seq h.uid w.slot).hasPrompt then (w.rows, s)
          else
            let r := s.readVerdict p h m w
            (w.rows + r.1, r.2)

def State.verdictStage (s : State) (uid : Nat) : State :=
  match s.stepOf uid with
  | none => s
  | some p =>
    let r := p.slots.foldl (fun (acc : Nat × State) w =>
      let x := acc.2.verdictSlot uid w
      (acc.1 + x.1, x.2)) (0, s)
    if (r.2.ctx p.ctx).closing.isSome then r.2 else r.2.closeStep uid r.1

/-! ### PHASE_END -/

/-- The code of the core that failed earliest, then of the lowest (R221). -/
def phaseCode (ends : List (Nat × Nat × Nat)) : Option Nat :=
  ((ends.filter (fun e => failsPhase e.2.1)).foldl (fun (w : Option (Nat × Nat × Nat)) e =>
    match w with
    | none => some e
    | some v => if e.2.2 < v.2.2 ∨ (e.2.2 = v.2.2 ∧ e.1 < v.1) then some e else some v) none).map (fun e => e.2.1)

/-- Every increment that the phase caused has been made (R274). -/
def State.phaseQuiet (s : State) (p : StepSt) : Bool := !s.bankOwed p.bank

/-- PHASE_END (R208, R212, R221): every core's stream of the phase has ended. -/
def State.phaseEnd (s : State) (uid : Nat) : State :=
  match s.stepOf uid with
  | none => s
  | some p =>
    let alive := s.cores.any (fun e => match e.2.stream with
      | some t => decide (t.work = uid)
      | none => false)
    if !s.serving || p.phase == .stream || alive || p.preAt.isSome || p.switch.isSome || !p.waiting.isEmpty || p.restart ||
        (s.ctx p.ctx).closing.isSome then s
    else
      match phaseCode p.ends with
      | some code => s.failStep uid code
      | none =>
        if p.phase = .draft then (if s.phaseQuiet p then s.armStep uid .main else s) else s.verdictStage uid

end Sys2Proof.Machine
end

