-- ==== Sys2Proof/Machine/Serving.lean ====
section
/-!
DEFINITION. The commands of serving (spec/08_serving.md, spec/13_reliability.md R366 to R369): the records that name
models, hanks, sequences and streams, the Governor's selection, steps, parking, quarantine and repair.
-/

namespace Sys2Proof.Machine

/-! ### MODEL_LOAD and MODEL_UNLOAD (R198, R199, R201) -/

/-- Field bits hi:lo of the model record that a MODEL_LOAD carries in bytes 64 to 191. -/
def loadModel (r : Record) : Model := { rec_ := BitVec.ofNat 1024 (recField r 1535 512) }

/-- A used range lies wholly in GLOBAL or NEAR regions among 0 to 61. -/
def State.rangePlain (s : State) (base size : Nat) : Bool :=
  decide (base + size ≤ 62 * 2 ^ 33) &&
    (List.range (regionOf (base + size - 1) + 1 - regionOf base)).all (fun i => !decide (s.rmode (regionOf base + i) = 2))

/-- Some line of the range lies in the stack of its mirror line; a 4 KiB page lies in one stack. -/
def State.mirrorClash (s : State) (m : Model) (r : Nat) : Bool :=
  (List.range (m.size r / 4096)).any (fun i =>
    decide ((s.locate (m.base r + 4096 * i)).stack = (s.locate (m.mbase r + 4096 * i)).stack))

/-- Model-record bits that no field holds, as bits of the submission record. -/
def modelMask : Nat :=
  spans [(512, 522), (528, 541), (544, 549), (552, 567), (576, 663)] +
    ([0, 1, 2, 3].map (fun r => span (768 + 128 * r) (797 + 128 * r) + span (800 + 128 * r) (829 + 128 * r) +
      span (832 + 128 * r) (861 + 128 * r))).sum

def State.loadBad (s : State) (c : Nat) (r : Record) : Option Nat :=
  let m := loadModel r
  let rs := [0, 1, 2, 3]
  refusalOffset (lowestOutside r.toNat (spans [(0, 7), (512, 1535), (1984, 2015)]) 0 2047) [(0, !decide (c = 0))]
    (lowestOutside r.toNat modelMask 512 1535)
    ([(65, decide (m.specMode = 3)), (65, !(decide (m.nheads = 0) == !decide (m.specMode = 2))),
      (69, decide (8 < m.nheads)), (70, decide (m.gmask = 0)), (80, decide (m.ctxlim = 0)),
      (100, rs.all (fun i => decide (m.size i = 0)))] ++
    rs.map (fun i => (96 + 16 * i, !decide (m.size i = 0) && !s.rangePlain (m.base i) (m.size i))) ++
    rs.map (fun i => (65, m.mirror && !decide (m.size i = 0) && s.mirrorClash m i)))

/-- MODEL_LOAD: it waits for the running steps of its slot. -/
def execModelLoad (x : Ctx) (rec : Record) (s : State) : Result :=
  .next (s.acceptRecord x rec 0x50 (s.loadBad x rec) 1 (recTag rec) (fun s =>
    ({ s with serve := { s.serve with loads := s.serve.loads ++
      [(⟨recField rec 519 512, (loadModel rec).rec_, recTag rec⟩ : LoadReq)] } }).settleModels.noteReady))

/-- A slot that holds a model whose unload has not been accepted. -/
def State.loaded (s : State) (m : Nat) : Bool := (s.model m).any (fun x => x.unload.isNone)

def execModelUnload (x : Ctx) (rec : Record) (s : State) : Result :=
  let m := recField rec 23 16
  let bad := refusalOffset (lowestOutside rec.toNat (spans [(0, 7), (16, 23), (1984, 2015)]) 0 2047)
    [(0, !decide ((x : Nat) = 0))] none [(2, !s.loaded m)]
  .next (s.acceptRecord x rec 0x51 bad 1 (recTag rec) (fun s =>
    match s.model m with
    | some o => (s.setModel m (some { o with unload := some (recTag rec) })).settleModels
    | none => s))

/-! ### HANK (R200, R204, R205, R214) -/

def hankMask : Nat :=
  spans [(0, 12), (16, 23), (32, 73), (80, 108), (128, 169), (192, 233), (256, 297), (320, 361), (384, 425), (448, 489),
    (512, 553), (576, 617), (640, 663), (672, 695), (704, 735), (768, 809), (832, 873), (896, 937), (960, 1001)]

/-- Byte offset and lowest bit of each address a descriptor names. -/
def hankAddrs : List (Nat × Nat) :=
  [(16, 128), (24, 192), (32, 256), (40, 320), (48, 384), (56, 448), (64, 512), (72, 576), (96, 768), (104, 832),
    (112, 896), (120, 960)]

def State.hankBad (s : State) (c : Nat) (r : Record) : Option Nat :=
  let f := recField r
  let model := f 23 16
  refusalOffset none [] (lowestOutside r.toNat hankMask 0 2047)
    ([(1, decide (2 ≤ f 10 9)), (1, decide (f 10 9 = 1 ∧ f 8 8 = 1)),
      (2, !(s.loaded model && (s.model model).any (fun m => m.allows c))),
      (80, !s.tcInRange c (f 651 640)), (81, !s.tcInRange c (f 663 652)),
      (84, !s.tcInRange c (f 683 672)), (85, !s.tcInRange c (f 695 684))] ++
    hankAddrs.map (fun e => (e.1, !decide (f (e.2 + 5) e.2 = 0))))

def State.acceptHank (s : State) (c : Nat) (r : Record) : State :=
  let f := recField r
  match s.model (f 23 16) with
  | none => s
  | some m =>
    let want : Bool := f 8 8 == 1
    let may : Bool := s.cfld c Reg.govShare 0 0 == 1
    let h : Hank := {
      uid := s.serve.nextUid
      ctx := c
      stream := false
      desc := r
      lc := want && may
      model := f 23 16
      mask := m.gmask
      nmax := if f 11 11 = 1 ∨ m.specMode = 0 then 0 else s.cfld c Reg.govSpec 14 8 }
    let s := { s with serve := { s.serve with hanks := s.serve.hanks ++ [h], nextUid := s.serve.nextUid + 1 } }
    if want && !may then
      ((s.modCtx c (fun x => { x with demoted := x.demoted + 1, dirty := true })).event c
        { ekind := 0x04, ctx := c, tag := h.tag }).noteReady
    else s.noteReady

def execHank (x : Ctx) (rec : Record) (s : State) : Result :=
  .next (s.acceptRecord x rec 0x10 (s.hankBad x rec) (recField rec 73 64 + 2) (BitVec.ofNat 32 (recField rec 63 32))
    (fun s => s.acceptHank x rec))

/-! ### CANCEL, SEQ_RELEASE, SEQ_COMPACT, BARRIER, STREAM -/

/-- The non-final sequences that a CANCEL names in a hank. -/
def cancelSlots (h : Hank) (all : Bool) (slot : Nat) : List Nat :=
  (List.range h.seqs.length).filter (fun i => (all || decide (i = slot)) && !(h.seq i).st.final)

/-- R222. -/
def State.cancelHank (s : State) (uid : Nat) (all : Bool) (slot : Nat) : State :=
  match s.hankOf uid with
  | none => s
  | some h =>
    (cancelSlots h all slot).foldl (fun s i => s.askEnd uid i 0x01) s

def State.cancelRecord (s : State) (c : Nat) (r : Record) : State :=
  let all : Bool := recField r 8 8 == 1
  let slot := recField r 25 16
  let uids := (s.serve.hanks.filter (fun h => decide (h.ctx = c) && !h.stream &&
    decide (h.tag = BitVec.ofNat 32 (recField r 63 32)))).map (fun h => h.uid)
  let s := uids.foldl (fun s u => s.readTable u true) s
  let n := (uids.map (fun u => ((s.hankOf u).map (fun h => (cancelSlots h all slot).length)).getD 0)).sum
  let s := s.final c { rkind := 0x11, tag := recTag r, aux := BitVec.ofNat 32 n }
  uids.foldl (fun s u => s.cancelHank u all slot) s

def execCancel (x : Ctx) (rec : Record) (s : State) : Result :=
  .next (s.acceptRecord x rec 0x11
    (refusalOffset (lowestOutside rec.toNat (spans [(0, 8), (16, 25), (32, 63), (1984, 2015)]) 0 2047) [] none [])
    1 (recTag rec) (fun s => s.cancelRecord x rec))

/-- A record that names a sequence: KIND, SEQID and REC_TAG. -/
def seqRecordBad (rec : Record) : Option Nat :=
  refusalOffset (lowestOutside rec.toNat (spans [(0, 7), (32, 51), (1984, 2015)]) 0 2047) [] none []

def execSeqRelease (x : Ctx) (rec : Record) (s : State) : Result :=
  .next (s.acceptRecord x rec 0x12 (seqRecordBad rec) 1 (recTag rec) (fun s =>
    let id := recField rec 51 32
    let there := s.serve.held.any (fun h => decide (h.ctx = x ∧ h.seqid = id))
    (s.freeHeldWhere (fun h => decide (h.ctx = x ∧ h.seqid = id)) 0x03).final x
      { rkind := 0x12, tag := recTag rec, status := if there then 0 else 0x03 }))

/-! #### Compaction (R189, R236) -/

/-- Token positions of a chain with the handle and slot that hold them. -/
def State.chainSlots (s : State) (chain : List Nat) : List (Nat × Nat) :=
  (chain.map (fun h => (List.range (s.skein h).commit).map (fun i => (h, i)))).flatten

/-- A Skein that is to be written is forked if it is shared; none where no block can be had. -/
def State.ownTarget (s : State) (c h : Nat) (prev : Option Nat) : Option (Nat × State) :=
  if (s.skein h).refs ≤ 1 then some (h, s) else s.forkSkein c h prev false

/-- One chain rewritten so that every Skein but the last is full: `p` is the position being filled, behind `prev`. -/
def State.compactChain (s : State) (c : Nat) (src : List (Nat × Nat)) (prev : Option Nat) :
    List Nat → Nat → Option (List Nat × State)
  | [], _ => some ([], s)
  | h :: hs, p =>
    let room := 64 * (s.skein h).g
    let mine := (src.drop (p * room)).take room
    if mine = [] then (s.dropRef h).compactChain c src prev hs (p + 1)
    else if mine = (List.range mine.length).map (fun i => (h, i)) ∧ mine.length = (s.skein h).commit then
      ((s.clearSpec h).compactChain c src (some h) hs (p + 1)).map (fun r => (h :: r.1, r.2))
    else
      match s.ownTarget c h prev with
      | none => none
      | some (h2, s) =>
        let s := s.clearSpec h2
        let s := mine.zipIdx.foldl (fun s e =>
          if e.1 = (h, e.2) then s
          else s.copySlot (s.skein e.1.1) e.1.2 (s.skein h2) e.2) s
        let s := s.setSkein h2 { s.skein h2 with ntok := mine.length, commit := mine.length, basepos := p * room }
        (s.compactChain c src (some h2) hs (p + 1)).map (fun r => (h2 :: r.1, r.2))

def State.compactChains (s : State) (c : Nat) : Sparse (List Nat) → Option (Sparse (List Nat) × State)
  | [] => some ([], s)
  | (k, chain) :: rest =>
    match s.compactChain c (s.chainSlots chain) none chain 0 with
    | none => none
    | some r => (r.2.compactChains c rest).map (fun x => ((k, r.1) :: x.1, x.2))

/-- The compactions that are owed and can be made: those of HELD sequences, and of sequences that are not stepping. -/
def State.settleCompact (s : State) : State :=
  let s := s.serve.held.foldl (fun s x =>
    match x.compact with
    | none => s
    | some tag =>
      if !s.seqResident x.chains then s
      else
        match s.compactChains x.ctx x.chains with
        | none => s
        | some r =>
          let s := r.2
          ({ s with serve := { s.serve with held := s.serve.held.map (fun (y : Held) =>
              if y.ctx = x.ctx ∧ y.seqid = x.seqid then { y with chains := r.1, compact := none } else y) } }).final x.ctx
            { rkind := 0x13, tag := tag }) s
  s.serve.hanks.foldl (fun s h => (List.range h.seqs.length).foldl (fun s i =>
    let q := s.seq h.uid i
    match q.compact with
    | none => s
    | some tag =>
      if q.st = .stepping ∨ ¬ s.seqResident q.chains then s
      else
        match s.compactChains h.ctx q.chains with
        | none => s
        | some r => (r.2.modSeq h.uid i (fun q => { q with chains := r.1, compact := none })).final h.ctx
            { rkind := 0x13, tag := tag }) s) s

/-- The compaction that a SEQ_COMPACT asks for. -/
def State.compactRecord (s : State) (c id : Nat) (tag : Word) : State :=
  if s.serve.held.any (fun x => decide (x.ctx = c ∧ x.seqid = id) && x.compact.isNone) then
    ({ s with serve := { s.serve with held := s.serve.held.map (fun (y : Held) =>
        if y.ctx = c ∧ y.seqid = id then { y with compact := some tag } else y) } }).settleCompact
  else
    let at_ := ((s.serve.hanks.filter (fun h => decide (h.ctx = c) && h.st == .active)).map (fun h =>
      ((List.range h.seqs.length).filter (fun i => decide ((h.seq i).seqid = id) && !(h.seq i).st.final &&
        (h.seq i).compact.isNone)).map (fun i => (h.uid, i)))).flatten
    match at_ with
    | e :: _ => (s.modSeq e.1 e.2 (fun q => { q with compact := some tag })).settleCompact
    | [] => s.final c { rkind := 0x13, status := 0x03, tag := tag }

def execSeqCompact (x : Ctx) (rec : Record) (s : State) : Result :=
  .next (s.acceptRecord x rec 0x13 (seqRecordBad rec) 1 (recTag rec) (fun s =>
    s.compactRecord x (recField rec 51 32) (recTag rec)))

/-- BARRIER (R337): its completion waits for every earlier record's. -/
def execBarrier (x : Ctx) (rec : Record) (s : State) : Result :=
  .next (s.acceptRecord x rec 0x01
    (refusalOffset (lowestOutside rec.toNat (spans [(0, 7), (1984, 2015)]) 0 2047) [] none []) 1 (recTag rec) (fun s =>
      (s.modCtx x (fun y => { y with barrier := some (recTag rec) })).settle x))

/-- STREAM (R347): a best-effort hank of one step. -/
def execStream (x : Ctx) (rec : Record) (s : State) : Result :=
  .next (s.acceptRecord x rec 0x40
    (refusalOffset (lowestOutside rec.toNat (spans [(0, 15), (64, 105), (1984, 2015)]) 0 2047)
      [(8, !decide (recField rec 69 64 = 0))] none []) 1 (recTag rec) (fun s =>
      let h : Hank := {
        uid := s.serve.nextUid
        ctx := x
        stream := true
        desc := rec
        lc := false
        model := 0
        mask := BitVec.ofNat 8 (recField rec 15 8)
        nmax := 0 }
      ({ s with serve := { s.serve with hanks := s.serve.hanks ++ [h], nextUid := s.serve.nextUid + 1 } } : State).noteReady))

/-! ### First selection (R205 to R208) -/

/-- Buffers a hank names: address, size, and whether the device writes it. -/
def hankBuffers (h : Hank) (m : Model) : List (Nat × Nat × Bool) :=
  let n := h.nseq
  let q (b : Bool) : Nat := h.subSize b * h.rmax * m.nh * (2 * m.d)
  let y (b : Bool) : Nat := h.subSize b * h.rmax * m.nh * (4 * m.d + 32)
  [(h.f 169 128, 64 * n, false), (h.append, 32 * n * h.rmax * m.nlayer * m.nkv, true), (h.verdict, 32 * n, true),
    (h.qbuf false, q false, true), (h.qbuf true, q true, true), (h.ybuf false, y false, true), (h.ybuf true, y true, true),
    (h.progMain, 2304, false)] ++
  [(h.candList, 1024 * n, true)] ++
  (if h.train then [(h.statsBuf, 8 * n * h.rmax * m.nh * m.nlayer, true)] else [(h.progPrefill, 2304, false)]) ++
  (if m.specMode = 1 ∧ ¬ h.train then [(h.progDraft, 2304, false)] else [])

/-- A non-zero entry of a program table names a core in the mask and a PROGRAM source that passes R115. -/
def State.programOk (s : State) (h : Hank) (table : List Nat) : Bool :=
  (List.range 144).all (fun c =>
    let e := natOfBytes ((table.drop (16 * c)).take 16)
    let words := bitsAt e 95 64
    decide (words = 0) || (h.mask.getLsbD (c / 18) && decide (bitsAt e 5 0 = 0) &&
      s.rangeOk h.ctx (bitsAt e 41 0) (32 * words) false))

/-- The bytes lie in scratchpad windows of cores that will run the hank's steps. -/
def State.inOwnCores (s : State) (h : Hank) (a n : Nat) : Bool :=
  match placeOf a, placeOf (a + n - 1) with
  | .scratch first _, .scratch last _ =>
    (List.range (last + 1 - first)).all (fun i => h.mask.getLsbD ((first + i) / 18) && (s.core (first + i)).map.phys.isSome)
  | _, _ => false

/-- A buffer passes R205's check. DEDUCED: a line in the scratchpad window of a core of GROUPMASK passes, since the hank's steps
run there while the device uses the buffer (R474; notes/assumptions/153.md). -/
def State.bufferOk (s : State) (h : Hank) (b : Nat × Nat × Bool) : Bool :=
  s.rangeOk h.ctx b.1 b.2.1 false && (!b.2.2 || s.rangeOk h.ctx b.1 b.2.1 true) || (b.2.2 && s.inOwnCores h b.1 b.2.1)

/-- Every buffer and program passes. -/
def State.buffersOk (s : State) (h : Hank) (m : Model) : Bool × State :=
  if !(hankBuffers h m).all (s.bufferOk h) then (false, s)
  else
    ((if h.train then [h.progMain] else [h.progMain, h.progPrefill]) ++
      (if m.specMode = 1 ∧ ¬ h.train then [h.progDraft] else [])).foldl (fun (acc : Bool × State) a =>
        let r := acc.2.govRead h.ctx a 2304
        (acc.1 && r.2.2.programOk h r.1, r.2.2)) (true, s)

/-- Reserved bits of a sequence-table entry (Table 8.3). -/
def seqEntryMask : Nat :=
  spans [(0, 22), (32, 51), (64, 87), (96, 119), (128, 168), (192, 232), (256, 279), (288, 319)]

/-- SEQID is HELD or in use in the context. -/
def State.seqInUse (s : State) (c id : Nat) : Bool :=
  s.serve.held.any (fun x => decide (x.ctx = c ∧ x.seqid = id)) ||
  s.serve.hanks.any (fun h => decide (h.ctx = c) && h.seqs.any (fun q =>
    decide (q.seqid = id) && !(q.st == .fresh) && !q.st.final))

def State.heldOf (s : State) (c id : Nat) : Option Held := s.serve.held.find? (fun x => decide (x.ctx = c ∧ x.seqid = id))

/-- The Skeins of a chain that lie wholly within the first `n` tokens. -/
def State.sharedPart (s : State) (n : Nat) : List Nat → List Nat
  | [] => []
  | h :: hs => if (s.skein h).basepos + (s.skein h).commit ≤ n ∧ 0 < (s.skein h).commit then h :: s.sharedPart n hs else []

/-- The sequence enters PREFILL or DECODE, or waits with KV_WAIT for Skeins that are not RESIDENT. -/
def State.enterSeq (s : State) (h : Hank) (m : Model) (i : Nat) : State :=
  let s := s.modSeq h.uid i (fun q => { q with st := if q.hasPrompt then .prefill else .decode, depth := s.depthMax h m })
  if s.seqResident (s.seq h.uid i).chains then s
  else (s.parkSeq h.uid i false).modSeq h.uid i (fun q => { q with restore := true })

/-- One entry resolved (R207). DESIGN CHOICE: with PREFIX the home SSB is the HELD sequence's (notes/assumptions/182.md). -/
def State.resolveSeq (s : State) (h : Hank) (m : Model) (i : Nat) : State :=
  let q := s.seq h.uid i
  if ¬ q.st = .fresh then s
  else
    let e := q.entry.toNat
    let c := h.ctx
    let cont := e.testBit 21
    let pre := e.testBit 22
    let plen := bitsAt e 279 256
    match q.bad with
    | some code => s.endSeq h.uid i code
    | none =>
      if (lowestOutside e seqEntryMask 0 511).isSome || decide (q.maxNew = 0) ||
          !s.rangeOk c (0x20000000000 + q.tokin) (4 * q.promptLen) false ||
          !s.rangeOk c (0x20000000000 + q.tokout) (4 * q.maxNew) true then s.endSeq h.uid i 0x03
      else if cont then
        match s.heldOf c q.seqid with
        | none => s.endSeq h.uid i 0x03
        | some x =>
          if ¬ x.model = h.model then s.endSeq h.uid i 0x03
          else
            let s := { s with serve := { s.serve with
              held := s.serve.held.filter (fun y => !decide (y.ctx = c ∧ y.seqid = q.seqid)) } }
            (s.modSeq h.uid i (fun q => { q with
              chains := x.chains
              committed := x.committed
              home := x.home
              lastStep := x.lastStep
              compact := x.compact })).enterSeq h m i
      else if s.seqInUse c q.seqid then s.endSeq h.uid i 0x03
      else if pre then
        match s.heldOf c (bitsAt e 51 32) with
        | none => s.endSeq h.uid i 0x03
        | some x =>
          if ¬ x.model = h.model ∨ x.committed < plen then s.endSeq h.uid i 0x03
          else
            let ch := (x.chains.map (fun k => (k.1, s.sharedPart plen k.2))).filter (fun k => !decide (k.2 = []))
            let s := (chainHandles ch).foldl (fun s g => s.setSkein g { s.skein g with refs := (s.skein g).refs + 1 }) s
            let p := match (sget noChain ch 0).getLast? with
              | some g => (s.skein g).basepos + (s.skein g).commit
              | none => 0
            (s.modSeq h.uid i (fun q => { q with
              chains := ch
              committed := p
              home := if ch = [] then none else x.home })).enterSeq h m i
      else if q.promptLen = 0 then s.endSeq h.uid i 0x03
      else s.enterSeq h m i

/-- The first selection of a hank. -/
def State.firstSelection (s : State) (uid : Nat) : State :=
  match s.hankOf uid with
  | none => s
  | some h =>
    if h.picked then s
    else if h.stream then s.modHank uid (fun h => { h with picked := true })
    else
      let s := (s.readTable uid false).modHank uid (fun h => { h with picked := true, st := .active })
      match s.hankOf uid, s.modelOf h with
      | some h, some m =>
        let ok := s.buffersOk h m
        let s := ok.2
        (if ok.1 then (List.range h.nseq).foldl (fun s i => s.resolveSeq h m i) s
          else s.endAllSeqs uid 0x03).settleHank uid 0
      | _, _ => s

/-! ### STREAM records begin (R347) -/

/-- An entry of the stream table is malformed for a record. -/
def State.streamEntryBad (s : State) (h : Hank) (core e : Nat) : Bool :=
  let src := e % 4
  let a := bitsAt e 127 64
  !decide (bitsAt e 31 2 = 0 ∧ bitsAt e 255 192 = 0) || decide (src = 3) ||
    (!decide (src = 0) && !h.mask.getLsbD (core / 18)) ||
    (decide (src = 1) && (!decide (a / 2 ^ 42 = 0 ∧ a % 64 = 0) || !s.rangeOk h.ctx a (32 * bitsAt e 63 32) false)) ||
    (decide (src = 2) && !decide (a % 4096 = 0 ∧ bitsAt e 191 128 % 16 = 0))

/-- What starts on a core: its source, its credit, and the code of a stream that ends as it starts. -/
def State.streamStart (s : State) (h : Hank) (core e : Nat) : Option (StreamSrc × Word × Option Nat) :=
  let key := h.uid * 144 + core
  let offline := (s.core core).map.phys.isNone
  if e % 4 = 1 then
    some (.program (bitsAt e 105 64) (bitsAt e 63 32), 0,
      if offline then some 0x0C else if bitsAt e 63 32 = 0 then some 0 else none)
  else if e % 4 = 2 then
    some (.host (BitVec.ofNat 64 (bitsAt e 127 64)) (BitVec.ofNat 64 (bitsAt e 191 128)),
      sget (fun _ => (0 : Word)) (s.ctx h.ctx).credits key,
      if offline then some 0x0C else if (s.ctx h.ctx).overruns.contains key then some 0x0E else none)
  else none

/-- A core of the record starts, or its stream ends as it starts. -/
def State.startOne (s : State) (p : StepSt) (core : Nat) (x : StreamSrc × Word × Option Nat) : State :=
  match x.2.2 with
  | none => s.launch p none core x.1 x.2.1
  | some code =>
    let t : Stream := {
      work := p.uid
      ctx := p.ctx
      bank := none
      seed := p.seed
      stepIx := 0
      src := x.1
      produced := x.2.1
      state := if code = 0 then .ended else .stopped
      status := code }
    (s.statusRecord core t).modStep p.uid (fun p => { p with ends := p.ends ++ [(core, code, s.tick)] })

def State.seedOf (s : State) (c : Nat) : BitVec 64 :=
  BitVec.ofNat 64 (s.pair (Reg.ctx c Reg.srSeedLo) (Reg.ctx c Reg.srSeedHi))

/-- The streams of a selected record start, or it completes with BOUNDS. -/
def State.startStreams (s : State) (h : Hank) (uid : Nat) : State :=
  let table := h.f 105 64
  match s.stepOf uid with
  | none => s
  | some p =>
    let ok := s.rangeOk h.ctx table 4608 false
    let r := if ok then s.govRead h.ctx table 4608 else ([], [], s)
    let s := r.2.2
    let entry (c : Nat) : Nat := natOfBytes ((r.1.drop (32 * c)).take 32)
    if !ok || r.2.1.any (fun b => b) || (List.range 144).any (fun c => s.streamEntryBad h c (entry c)) then
      ((s.dropStep uid).dropHank h.uid).final h.ctx { rkind := 0x40, tag := h.recTag, status := 0x03 }
    else
      ((List.range 144).foldl (fun (s : State) c => match s.streamStart h c (entry c) with
        | some x => s.startOne p c x
        | none => s) (s.giveCores p.mask p.ctx)).settleStream uid

/-! ### Selection (R210, R223 to R225, R232) -/

/-- The first selection pass after a quarantine ends the model's hanks (R203). -/
def State.quarantineSweep (s : State) : State :=
  s.serve.hanks.foldl (fun s h =>
    if !h.stream && (h.st == .queued || h.st == .active) && (s.model h.model).any (fun m => m.quarantined && !m.mirror) then
      ((s.readTable h.uid false).endAllSeqs h.uid 0x08).settleHank h.uid 0
    else s) s

/-- Restores begin for the parked sequences of a hank (R229). -/
def State.wantRestores (s : State) (uid : Nat) : State :=
  s.modHank uid (fun h => { h with seqs := h.seqs.map (fun q =>
    if q.st = .parked ∧ ¬ s.seqResident q.chains then { q with restore := true } else q) })

/-- An ACTIVE hank whose sequences are all PARKED is passed over; what they wait for is asked for. -/
def State.passOver (s : State) : State :=
  s.serve.hanks.foldl (fun s h =>
    if !h.stream && h.st == .active && !h.seqs.isEmpty && h.seqs.all (fun q => q.st == .parked || q.st.final) then
      s.wantRestores h.uid
    else s) s

def noCharge (_ : Nat) : Word := 0
def State.budgetOk (s : State) (c : Nat) : Bool :=
  let b := (s.reg (Reg.ctx c Reg.govBudget)).toNat
  decide (b = 0) || decide ((sget noCharge s.serve.charged c).toNat < b)

/-- R223: the best-effort floor of the window has been met. -/
def State.floorOk (s : State) : Bool :=
  let fl := s.fld Reg.govBeFloor 9 0
  decide (fl = 0) || (s.readyCtxs false).isEmpty ||
    decide (fl * 8 * (s.tick - s.serve.windowStart) ≤ 1000 * s.serve.beTicks)

/-- The step has its groups: it runs, or it is being saved or restored. -/
def State.onCores (s : State) (p : StepSt) : Bool := !s.serve.preempted.contains p.uid || p.switch.isSome

/-- Steps on some groups. -/
def State.stepsOn (s : State) (m : BitVec 8) : List StepSt :=
  s.serve.steps.filter (fun p => !decide (p.mask &&& m = 0) && s.onCores p)

/-- The groups that carry a step. -/
def State.busyGroups (s : State) : BitVec 8 :=
  (s.serve.steps.filter s.onCores).foldl (fun (b : BitVec 8) p => b ||| p.mask) 0

def State.maskOf (s : State) (h : Hank) : BitVec 8 :=
  if h.stream then h.mask else ((s.model h.model).map Model.gmask).getD 0

/-- A step is set up for a hank, waiting for the steps in `waiting` to be saved. -/
def State.makeStep (s : State) (h : Hank) (waiting : List Nat) : Nat × State :=
  let uid := s.serve.nextUid
  let bank := if h.stream then 16 else s.newBank
  let p : StepSt := {
    uid := uid
    hank := h.uid
    ctx := h.ctx
    lc := h.lc
    mask := s.maskOf h
    bank := bank
    phase := if h.stream then .stream else .main
    no := h.steps
    seed := s.seedOf h.ctx
    start := s.tick
    waiting := waiting }
  let s := { s with
    banks := if h.stream then s.banks else nsAdd s.banks bank
    serve := { s.serve with steps := s.serve.steps ++ [p], nextUid := uid + 1 } }
  (uid, s.modHank h.uid (fun h => { h with st := .stepping }))

/-- The sequences that step (R212). DESIGN CHOICE: those in DECODE, or where there are none those in PREFILL
(notes/assumptions/184.md). -/
def State.fillStep (s : State) (uid : Nat) : State :=
  match s.stepOf uid with
  | none => s
  | some p =>
    match s.hankOf p.hank with
    | none => s
    | some h =>
      let dec : Bool := h.seqs.any (fun q => q.st == .decode)
      let st : SeqSt := if dec then .decode else .prefill
      let slots := (List.range h.seqs.length).filter (fun i => (h.seq i).st == st)
      let works := slots.map (fun i =>
        let q := h.seq i
        ({ slot := i, pos := q.committed, rows := if dec then 1 else min h.pchunk (q.promptLen - q.promptPos) } : SlotWork))
      let s := s.modHank h.uid (fun h => { h with seqs := h.seqs.mapIdx (fun i q =>
        if slots.contains i then { q with st := .stepping, fate := none } else q) })
      s.modStep uid (fun p => { p with slots := works, phase := if dec then .main else .prefill, start := s.tick })

/-- A prepared step runs. -/
def State.runStep (s : State) (uid : Nat) : State :=
  match s.stepOf uid with
  | none => s
  | some p =>
    match s.hankOf p.hank with
    | none => s
    | some h =>
      if h.stream then (s.modStep uid (fun p => { p with start := s.tick })).startStreams h uid
      else (s.fillStep uid).beginStep uid

/-! #### Pre-emption (R101, R230) -/

/-- What is saved of a stream: no queued words; the fetcher reads again from the current word (R101). DESIGN CHOICE: FETCHED goes back
to RETIRED, in the status record of the pre-emption too (notes/assumptions/180.md). -/
def Stream.pause (t : Stream) : Stream :=
  { t with queue := [], fetched := t.retired, state := .preempted }

/-- A core of a step stops at a stream-cycle boundary; signals that its words still owe are made in the switch (R83). -/
def State.pauseCore (s : State) (uid core : Nat) : State :=
  match s.stream core with
  | none => s
  | some t =>
    if ¬ t.work = uid then s
    else
      let t1 := t.pause
      let s := ((s.countHold core).statusRecord core t1).closeStream core t
      s.modStep uid (fun p => { p with
        saved := p.saved ++ [{ core := core, stream := some { t1 with sigs := [] }, pipe := {}, acc := [], vregs := [], lines := [] }] })

/-- A best-effort step is pre-empted. -/
def State.preempt (s : State) (v : StepSt) : State :=
  let s := (List.range 144).foldl (fun s c => s.pauseCore v.uid c) s
  let s := (List.range 144).foldl (fun s c =>
    if v.mask.getLsbD (c / 18) then s.modCore c (fun k => { k with stopReq := some s.tick }) else s) s
  let s := s.modStep v.uid (fun p => { p with preAt := some s.tick, switch := some true })
  let s := { s with serve := { s.serve with preempted := s.serve.preempted ++ [v.uid] } }
  let s := (s.modHank v.hank (fun h => { h with st := .preempted })).addStat v.ctx 4 1
  match s.hankOf v.hank with
  | none => s
  | some h =>
    (s.modCtx v.ctx (fun x => { x with preempted := x.preempted + 1, dirty := true })).event v.ctx
      { ekind := 0x03, status := 0x0A, ctx := v.ctx, tag := if h.stream then h.recTag else h.tag,
        aux := BitVec.ofNat 32 v.no }

/-- The restore of a pre-empted step begins. -/
def State.resumeStep (s : State) (uid : Nat) : State :=
  let s := s.modStep uid (fun p => { p with switch := some false })
  { s with serve := { s.serve with preempted := s.serve.preempted.filter (fun u => !decide (u = uid)) } }

/-- The pass's own state: groups busy and reserved. -/
structure Pass where
  busy : BitVec 8
  held : BitVec 8
  s    : State

/-- Pre-empted steps resume in the order pre-empted; those of a context that is being torn down do not. -/
def Pass.resumes (a : Pass) : Pass :=
  a.s.serve.preempted.foldl (fun a uid =>
    match a.s.stepOf uid with
    | none => a
    | some p =>
      if (a.s.ctx p.ctx).closing.isSome then a
      else if p.mask &&& (a.busy ||| a.held) = 0 ∧ p.switch.isNone then
        { a with busy := a.busy ||| p.mask, s := a.s.resumeStep uid }
      else { a with held := a.held ||| p.mask }) a

/-- The first selection of a hank about to start; whether it is still ready. -/
def State.select (s : State) (h : Hank) : Bool × State :=
  let s := (s.firstSelection h.uid).wantRestores h.uid
  ((s.hankOf h.uid).any (fun h => s.hankReady h), s)

/-- One hank, at its turn. -/
def Pass.consider (a : Pass) (h : Hank) : Pass :=
  let m := a.s.maskOf h
  if ¬ m &&& a.held = 0 then a
  else if m &&& a.busy = 0 then
    if !h.lc && a.s.serve.holdBe then a
    else
      let r := a.s.select h
      match r.1, r.2.hankOf h.uid with
      | true, some h =>
        let st := r.2.makeStep h []
        { a with busy := a.busy ||| m, s := st.2.runStep st.1 }
      | _, _ => { a with s := r.2 }
  else
    let on := a.s.stepsOn m
    if h.lc && on.all (fun p => !p.lc && p.switch.isNone && p.waiting.isEmpty && (a.s.ctx p.ctx).closing.isNone) && a.s.floorOk then
      let r := a.s.select h
      match r.1, r.2.hankOf h.uid with
      | true, some h =>
        let s := on.foldl (fun s p => s.preempt p) r.2
        let st := s.makeStep h (on.map (fun p => p.uid))
        { a with busy := a.busy ||| m, s := st.2 }
      | _, _ => { a with s := r.2 }
    else { a with held := a.held ||| m }

/-- The contexts of a class, by least virtual time, ties to the lowest number. -/
def Pass.contexts (a : Pass) (lc : Bool) : Nat → List Nat → Pass
  | 0, _ => a
  | n + 1, tried =>
    let cs := (a.s.readyCtxs lc).filter (fun c => !tried.contains c && a.s.budgetOk c)
    match cs.find? (fun c => cs.all (fun x => decide ((a.s.vt (vtKey c lc)).toNat ≤ (a.s.vt (vtKey x lc)).toNat))) with
    | none => a
    | some c =>
      match a.s.serve.hanks.find? (fun h => decide (h.ctx = c) && h.lc == lc && a.s.hankReady h) with
      | none => a
      | some h => (a.consider h).contexts lc n (c :: tried)

/-- While a P2 or P3 request drains, nothing starts, and pre-empted steps resume (R406). -/
def State.drainPass (s : State) : State :=
  (Pass.resumes { busy := s.busyGroups, held := 0, s := s }).s

/-- The pass of R223. -/
def State.selectionPass (s : State) : State :=
  if !s.serving || !(s.pwr.state == .p0) then s
  else if s.pwr.drain then s.drainPass
  else
    let s := s.quarantineSweep.settleCompact.passOver
    let a : Pass := { busy := s.busyGroups, held := 0, s := s.noteReady }
    let a := (a.contexts true 64 []).resumes
    (a.contexts false 64 []).s.noteReady

/-- The Busko, which runs the Governor, services its watchdog at every pass (Table 13.7); a halted Busko runs none. -/
def execSelectionPass (s : State) : Result :=
  .next (if s.trust.halted then s
    else if s.serving then ({ s with rel := { s.rel with wdogAt := s.tick } }).selectionPass else s)

/-! ### PREEMPT_SWITCH_END (R230, R231) -/

/-- The outstanding fetches and puts of a step's cores have ended. -/
def State.settled (s : State) (p : StepSt) : Bool :=
  (coresOf p.mask).all (fun c => (s.core c).fetches.all (fun f => !decide (f.ctx = p.ctx)) &&
    (s.core c).puts.all (fun q => !decide (q.ctx = p.ctx) || q.sent.isSome))

/-- Signals owed that can be made are made, oldest first. -/
def State.lateSignals (s : State) (core : Nat) : State := (s.core core).late.foldl (fun s _ => s.lateSignal core) s

/-- One core's registers and written lines are saved, beside its stream if it had one. -/
def State.saveCore (s : State) (uid core : Nat) : State :=
  let s := (s.asyncAll core).lateSignals core
  match (s.core core).map.phys, s.stepOf uid with
  | some ph, some p =>
    let st := ((p.saved.find? (fun x => decide (x.core = core))).map (fun x => x.stream)).getD none
    let keys := s.spads.written.filter (fun k => decide (k / 32768 = ph))
    let r := keys.foldl (fun (acc : List (Nat × Line × Bool × Bool) × State) k =>
      let g := acc.2.readSpad core ph (k % 32768)
      (acc.1 ++ [(k % 32768, g.1.data, g.1.poison, g.1.unsealed)], g.2)) ([], s)
    let x : Parked := {
      core := core
      stream := st
      pipe := (s.core core).pipe
      acc := (s.spads.acc.filter (fun e => decide (e.1 / 384 = ph))).map (fun e => (e.1 % 384, e.2))
      vregs := (s.spads.vregs.filter (fun e => decide (e.1 / 32 = ph))).map (fun e => (e.1 % 32, e.2))
      lines := r.1 }
    r.2.modStep uid (fun p => { p with saved := p.saved.filter (fun y => !decide (y.core = core)) ++ [x] })
  | _, _ => s

/-- A pre-empted step has been saved; one stopped between phases has no scratchpad state, and one of a context that is being torn
down is not saved (R237). -/
def State.saveStep (s : State) (uid : Nat) : State :=
  match s.stepOf uid with
  | none => s
  | some p =>
    let s := if p.saved = [] ∨ (s.ctx p.ctx).closing.isSome then s else (coresOf p.mask).foldl (fun s c => s.saveCore uid c) s
    s.modStep uid (fun p => { p with switch := none })

/-- A saved stream runs on: it reads again from its current word, and a hold's limit restarts (R101). -/
def Stream.unpause (t : Stream) (now : Nat) : Stream :=
  match t.hold with
  | some (.underrun, _) => { t with hold := some (.underrun, now), state := .underrun }
  | some (k, _) => { t with hold := some (k, now), state := .hold }
  | none => if t.ending then { t with state := .run } else { t with hold := some (.underrun, now), state := .underrun }

/-- ACC0, ACC1 and V0 to V31 of a physical core are +0. -/
def State.clearRegs (s : State) (p : Nat) : State :=
  { s with spads := { s.spads with
      acc := s.spads.acc.filter (fun e => !decide (e.1 / 384 = p))
      vregs := s.spads.vregs.filter (fun e => !decide (e.1 / 32 = p)) } }

/-- One core restored, onto whatever physical core carries its number now. -/
def State.restoreCore (s : State) (p : StepSt) (x : Parked) : State :=
  match (s.core x.core).map.phys with
  | none =>
    (match x.stream with
      | some t => s.statusRecord x.core { t with state := .stopped, status := 0x0C }
      | none => s).modStep p.uid (fun p => { p with
        ends := if x.stream.isSome then p.ends ++ [(x.core, 0x0C, s.tick)] else p.ends })
  | some ph =>
    let s := (s.asyncAll x.core).clearRegs ph
    let s := x.lines.foldl (fun s l => s.writeSpad ph l.1 l.2.1 fullMask l.2.2.1 l.2.2.2) s
    let s := x.acc.foldl (fun s e => s.setAccRow ph (e.1 / 192) (e.1 % 192) e.2) s
    let s := x.vregs.foldl (fun s e => s.setVreg ph e.1 e.2) s
    let s := s.setPipe x.core x.pipe
    match x.stream with
    | some t =>
      let t1 := t.unpause s.tick
      (s.setStream x.core (some t1)).statusRecord x.core t1
    | none => s

/-- A restored stream that a stop at its next word boundary already awaits, or whose END had retired, ends (R96, R221, R232). -/
def State.resumeEnd (s : State) (core : Nat) : State :=
  match s.stream core with
  | none => s
  | some t =>
    match t.halt with
    | some code =>
      if t.pos = 0 then (match code with
        | some n => s.endStream core n
        | none => (s.countHold core).closeStream core t)
      else s
    | none => s.tryEnd core

/-- A restored step runs on: merge outputs that waited are delivered before its cores resume. -/
def State.restoreStep (s : State) (p : StepSt) : State :=
  let s := s.modStep p.uid (fun q => { q with
    switch := none
    preAt := none
    saved := []
    away := q.away + (s.tick - p.preAt.getD s.tick) })
  let s := (s.modHank p.hank (fun h => { h with st := .stepping })).giveCores p.mask p.ctx
  let s := p.saved.foldl (fun s x => s.restoreCore p x) s
  let s := (s.serve.rows.filter (fun r => decide (r.step = p.uid) && r.blocked)).foldl (fun s r =>
    s.mergeOutput { r with blocked := false }) s
  let s := p.saved.foldl (fun s x => s.resumeEnd x.core) s
  match s.stepOf p.uid with
  | none => s
  | some q =>
    if q.phase = .stream then s.settleStream p.uid
    else if q.ends.any (fun e => failsPhase e.2.1) then s.haltStep p.uid else s

def State.switchEnd (s : State) (uid : Nat) : State :=
  if !s.serving then s
  else
    match s.stepOf uid with
    | none => s
    | some p =>
      if p.switch = some false then (if (s.ctx p.ctx).closing.isSome then s else s.restoreStep p)
      else if p.switch = some true then (if s.settled p then s.saveStep uid else s)
      else if p.waiting = [] then s
      else if p.waiting.all (fun u => (s.stepOf u).all (fun v => s.settled v)) then
        let s := (p.waiting.foldl (fun s u => s.saveStep u) s).modStep uid (fun p => { p with waiting := [] })
        if (s.hankOf p.hank).all (fun h => s.mayStart h) then s.runStep uid else s.cancelStep p
      else s

def execPreemptSwitchEnd (step : Nat) (s : State) : Result := .next (s.switchEnd step)

/-! ### Phases and attention -/

def execPhaseEnd (step : Nat) (s : State) : Result := .next (s.phaseEnd step)
def execAttentionBegin (step : Nat) (sub : Bool) (s : State) : Result := .next (s.attentionBegin step sub)
def execPrefillAppend (step : Nat) (sub : Bool) (s : State) : Result := .next (s.prefillAppend step sub)
def execMergeSlotReserve (k : Stack) (s : State) : Result := .next (s.mergeReserve k)
def execPartialArrive (k : Stack) (row : Nat) (pos : Nat) (check : SlotCheck) (s : State) : Result :=
  .next (s.partialArrive k row pos check)

/-! ### Waits for Skeins (R227, R229) -/

/-- KV_RETRY: every parked sequence is tried again, in submission order. -/
def execKvRetry (s : State) : Result :=
  .next (if s.serving then
    (s.serve.hanks.foldl (fun s h => (List.range h.seqs.length).foldl (fun s i => s.retrySeq h.uid i) s) s).noteReady else s)

/-- KV_WAIT_EXPIRY: the wait bound has passed without success. -/
def State.kvExpire (s : State) (uid i : Nat) : State :=
  let q := s.seq uid i
  match q.kvSince with
  | some t =>
    if s.serving ∧ q.st = .parked ∧ t + s.fld Reg.govKvWait 23 0 ≤ s.tick then (s.endSeq uid i 0x06).settleHank uid 0 else s
  | none => s

def execKvWaitExpiry (hank : Nat) (slot : Nat) (s : State) : Result := .next (s.kvExpire hank slot)

/-! ### Windows and throttling (R224, R234) -/

/-- BUDGET_WINDOW_START. -/
def execBudgetWindowStart (s : State) : Result :=
  let w := s.fld Reg.govWindow 23 0
  let start := s.tick / w * w
  .next (if start = s.serve.windowStart then s
    else { s with serve := { s.serve with windowStart := start, charged := [], beTicks := 0 } })

/-- The budget limit of every stack stands at UNITS_MIN. -/
def State.throttledOut (s : State) : Bool :=
  (List.range 8).all (fun k => decide (s.governorLimit k ≤ s.fld Reg.govThrottle 16 0 ∨
    s.fld (Reg.spdBudgetLo k) 16 0 ≤ s.fld Reg.govThrottle 16 0))

/-- GOVERNOR_THROTTLE: every 1,000 ticks the average power is compared with CAP_W. Until 1,000 ticks have passed since the last
comparison, only the average shows. -/
def execGovernorThrottle (watts : BitVec 16) (s : State) : Result :=
  let cap := s.fld Reg.govThrottle 28 18
  let w := watts.toNat
  let t := s.serve.throttle
  let t1 := if cap < w then (if s.throttledOut then t else min 8 (t + 1)) else if 100 * w < 95 * cap then t - 1 else t
  let s := if s.powered then s.setReg Reg.pwrPower (watts.setWidth 32) else s
  let s1 := { s with serve := { s.serve with throttle := t1, throttleAt := s.tick } }
  .next (if s.serving ∧ s.serve.throttleAt + 1000 ≤ s.tick then
    { s1 with serve := { s1.serve with holdBe := s1.throttledOut && decide (cap < w) } }
    else s)

/-! ### Quarantine and repair (R366 to R368) -/

/-- QUARANTINE takes effect for a model, with every line asked for. -/
def State.quarantineModel (s : State) (m : Nat) : State :=
  let lines := s.rel.boundary.filterMap (fun b => match b with
    | .quarantine k a => if k = m then some a else none
    | _ => none)
  let s := { s with rel := { s.rel with boundary := s.rel.boundary.filter (fun b => match b with
    | .quarantine k _ => !decide (k = m)
    | _ => true) } }
  match s.model m with
  | none => s
  | some o =>
    let lines := lines.filter o.hasWeight
    if lines = [] then s
    else
      let add (o : Model) (a : Nat) : Model :=
        if o.repair.contains a then o else if 64 ≤ o.repair.length then { o with full := true } else { o with repair := o.repair ++ [a] }
      let s := s.setModel m (some { lines.foldl add o with quarantined := true })
      if o.quarantined then s
      else (s.log { typ := 0x0B, status := 0x08, unit := m }).event 0 { ekind := 0x09, status := 0x08, aux := BitVec.ofNat 32 m }

def execQuarantine (m : ModelSlot) (s : State) : Result := .next (if s.serving then s.quarantineModel m else s)

/-- Read a line, and whether it is clean. -/
def State.probeLine (s : State) (a : Nat) : Got × State :=
  if s.lineAnswers a (s.locate a) then s.readMem a .busko none else ({ data := 0, poison := true }, s)

/-- Repair `bad` from `good`; the flag says whether the re-read was clean. A line in `stuck` does not take the write. -/
def State.repairLine (s : State) (bad good : Nat) (stuck : List Nat) : Bool × State :=
  let g := s.probeLine good
  if g.1.poison || !g.2.lineAnswers bad (g.2.locate bad) then (false, g.2)
  else
    let s := if stuck.contains bad then g.2.unstage bad else g.2.writeMem bad g.1.data fullMask false
    let r := s.probeLine bad
    (!r.1.poison, r.2)

/-- Listed weight lines of a MIRROR model, one after another. -/
def State.repairList (s : State) (m : Nat) (stuck : List Nat) : List Nat → State
  | [] => s
  | a :: rest =>
    match s.model m with
    | none => s
    | some o =>
      match o.mirrorOf a with
      | none => s.repairList m stuck rest
      | some mi =>
        let r := s.repairLine a mi stuck
        let s := r.2
        if r.1 then
          ((s.setModel m ((s.model m).map (fun o => { o with repair := o.repair.filter (fun x => !decide (x = a)) }))).log
            { typ := 0x0C, unit := m, info := mi }).repairList m stuck rest
        else (s.logAt { typ := 0x03, source := 8 } a (s.locate a)).repairList m stuck rest

/-- Mirror lines that were found uncorrectable, repaired from their weight lines (R368). -/
def State.repairMirrors (s : State) (m : Nat) (stuck : List Nat) : State :=
  match s.model m with
  | none => s
  | some o =>
    s.rel.mirrorBad.foldl (fun s e =>
      if o.mirrored e.1 = some e.2 then
        let r := s.repairLine e.1 e.2 stuck
        let s := { r.2 with rel := { r.2.rel with mirrorBad := r.2.rel.mirrorBad.filter (fun x => !decide (x = e)) } }
        if r.1 then s.log { typ := 0x0C, unit := m, info := e.1 } else s.logAt { typ := 0x03, source := 8 } e.1 (s.locate e.1)
      else s) s

/-- MIRROR_REPAIR: once no step of the model runs, by an engine where lines are to be copied (R240). With the list empty the
quarantine is lifted. -/
def State.mirrorRepair (s : State) (m : Nat) (stuck : List Nat) : State :=
  match s.model m with
  | none => s
  | some o =>
    if !s.serving || !o.mirror || s.modelStepping m || (s.mirrorWork m && !s.copying (.mirror m)) then s
    else
      let s := ((s.copyDone (.mirror m)).repairList m stuck o.repair).repairMirrors m stuck
      match s.model m with
      | some o =>
        if o.quarantined ∧ o.repair = [] ∧ ¬ o.full then s.atBoundary (.restored m) else s
      | none => s

/-- The quarantine of a model whose repair list is empty is lifted. -/
def State.restoreModel (s : State) (m : Nat) : State :=
  match s.model m with
  | some o =>
    if o.quarantined ∧ o.repair = [] ∧ ¬ o.full then
      ((s.setModel m (some { o with quarantined := false })).event 0 { ekind := 0x0A, aux := BitVec.ofNat 32 m }).noteReady
    else s
  | none => s

def execMirrorRepair (m : ModelSlot) (stuck : List Nat) (s : State) : Result := .next (s.mirrorRepair m stuck)

/-! ### DEAD_CORE_STEP_RESTART (R383) -/

/-- A sequence whose Skeins were lost leaves the step as its attempt ends (R363). -/
def State.dropFated (s : State) (uid : Nat) (p : StepSt) (w : SlotWork) : State :=
  match (s.seq p.hank w.slot).fate with
  | none => s
  | some code => (s.leaveStep uid w.slot).endSeq p.hank w.slot code

/-- An abandoned step runs again from its prepare stage, once every increment of the attempt has been made. -/
def State.restartStep (s : State) (uid : Nat) (p : StepSt) : State :=
  let s := { s with serve := { s.serve with
    plans := s.serve.plans.filter (fun q => !decide (q.step = uid))
    rows := s.serve.rows.filter (fun r => !decide (r.step = uid)) } }
  if s.bankOwed p.bank then s
  else
    let s := p.slots.foldl (fun s w => s.dropFated uid p w) s
    let s := s.modStep uid (fun p => { p with
      restart := false
      poison := false
      ends := []
      phase := if p.slots.any (fun w => (s.seq p.hank w.slot).hasPrompt) then .prefill else .main
      slots := p.slots.map (fun w => { w with
        cand := []
        rows := if (s.seq p.hank w.slot).hasPrompt then w.rows else 1 }) })
    (s.beginStep uid).settleHank p.hank 0

def State.stepRestart (s : State) (uid : Nat) : State :=
  match s.stepOf uid with
  | none => s
  | some p =>
    let alive := s.cores.any (fun e => match e.2.stream with
      | some t => decide (t.work = uid)
      | none => false)
    if !s.serving || !p.restart || alive || p.preAt.isSome || p.switch.isSome || !p.waiting.isEmpty ||
        (s.ctx p.ctx).closing.isSome then s
    else s.restartStep uid p

def execDeadCoreStepRestart (step : Nat) (s : State) : Result := .next (s.stepRestart step)

end Sys2Proof.Machine
end

