-- ==== Sys2Proof/Machine/Streams.lean ====
section
/-!
DEFINITION. The commands of the treadle streams and the scratchpad ports (spec/03_mill_cores.md, 04_treadle_streams.md):
words, holds and their ends, fetches, puts, signals, the fetcher and its doorbell.
-/

namespace Sys2Proof.Machine

/-! ### Words -/

/-- The front word of a running core that nothing holds, with its physical core. -/
def State.frontWord (s : State) (core : Nat) : Option (Stream × TreadleWord × Nat) :=
  match s.stream core, (s.core core).map.phys with
  | some t, some p =>
    match t.queue with
    | q :: _ =>
      if t.hold.isNone && !t.ending && s.powered && !(decide (t.pos = 0) && t.halt.isSome) then some (t, q.w, p) else none
    | [] => none
  | _, _ => none

/-- Which row of the table a word belongs to: 5 for EXEC, else its SETUP operation; a word with no row is met, and found
illegal, as EXEC is. -/
def wordRow (w : TreadleWord) : Nat := if twKind w = 1 ∧ twSop w ≤ 4 then twSop w else 5

/-- EXEC (R76): the word runs for REPEAT + 1 stream cycles, or to the first hold; an illegal word tears the context down
(R87). -/
def State.execWord (s : State) (core : Nat) : State :=
  match s.frontWord core with
  | none => s
  | some (t, w, p) =>
    if wordRow w ≠ 5 then s
    else if t.pos = 0 ∧ ¬ t.passed ∧ s.wordIllegal t.ctx w then s.illegalWord core t
    else s.runWord core p w

def execExec (c : Core) (s : State) : Result := .next (s.execWord c)

/-- A SETUP word in its one stream cycle (R73, R92, R414): `f` is its effect on the stream and the pipeline. -/
def State.setupWord (s : State) (core sop : Nat) (f : TreadleWord → Stream → Pipe → Stream × Pipe) : State :=
  match s.frontWord core with
  | none => s
  | some (t, w, p) =>
    if wordRow w ≠ sop then s
    else if s.wordIllegal t.ctx w then s.illegalWord core t
    else if s.scaleHazard core w then s.holdAt core .hazard
    else
      let s := (s.primeWord core p w).idleCycles core p 1
      let slow : Word := if s.millThrottled then 1 else 0
      let s := s.modCore core (fun c => { c with holdCycles := c.holdCycles + slow })
      match s.stream core with
      | none => s
      | some t =>
        let r := f w t (s.pipe core)
        ((s.setStream core (some r.1)).setPipe core r.2).retire core w

def setGen (i : Nat) (f : AddrGen → AddrGen) (q : Pipe) : Pipe := { q with ags := q.ags.modify i f }

def execAgLocal (c : Core) (s : State) : Result :=
  .next (s.setupWord c 0 (fun w t q => (t, setGen (twIdx w) (fun g => g.loadLocal w) q)))

def execAgDev (c : Core) (s : State) : Result :=
  .next (s.setupWord c 1 (fun w t q => (t, setGen (twIdx w) (fun g => g.loadDevice w) q)))

/-- R82. -/
def setWait (w : TreadleWord) (t : Stream) : Stream :=
  { t with wts := t.wts.modify (twIdx w) (fun _ =>
      ⟨BitVec.ofNat 12 (twField w 75 64), BitVec.ofNat 48 (twField w 123 76), BitVec.ofNat 32 (twField w 155 124)⟩) }

def execWaitSet (c : Core) (s : State) : Result := .next (s.setupWord c 2 (fun w t q => (setWait w t, q)))

def execSrIndex (c : Core) (s : State) : Result :=
  .next (s.setupWord c 3 (fun w t q => ({ t with elem := BitVec.ofNat 40 (twField w 103 64) }, q)))

/-- END (R100): the stream ends once every signal has been made. -/
def execEndStream (c : Core) (s : State) : Result := .next (s.setupWord c 4 (fun _ t q => (t, q)))

/-! ### Holds and their ends -/

/-- The hold of one kind ends: its ACLK cycles are counted where R98 counts them, and a held word goes on. -/
def State.release (s : State) (core : Nat) (k : HoldKind) (cycles : Word) : State :=
  match s.stream core with
  | none => s
  | some t =>
    match t.hold with
    | some (h, _) =>
      if h = k then
        let s := s.putStream core t { t with hold := none, state := .run }
        let s := s.modCore core (fun x => match k with
          | .underrun => { x with underrun := x.underrun + cycles }
          | .hazard => x
          | _ => { x with holdCycles := x.holdCycles + cycles })
        if k = .underrun then s else s.execWord core
      else s
    | none => s

/-- The front word and its stream while the core holds. -/
def State.heldWord (s : State) (core : Nat) : Option (Stream × TreadleWord) :=
  match s.stream core with
  | some t =>
    match t.queue, t.hold with
    | q :: _, some _ => some (t, q.w)
    | _, _ => none
  | none => none

def execWaitSatisfied (c : Core) (cycles : BitVec 32) (s : State) : Result :=
  match s.heldWord c with
  | some (t, w) => .next (if s.waitDone t w then s.release c .wait cycles else s)
  | none => .next s

def execFenceComplete (c : Core) (cycles : BitVec 32) (s : State) : Result :=
  match s.heldWord c with
  | some (_, w) => .next (if s.fenceDone c w then s.release c .fence cycles else s)
  | none => .next s

/-- The hazard is over when the held stream cycle, or the scale reads before the word, meet no line of a fetch (R90). -/
def State.hazardOver (s : State) (core : Nat) (t : Stream) (w : TreadleWord) : Bool :=
  if twKind w = 1 ∨ ¬ t.primed then !s.scaleHazard core w
  else !decide (s.cycleGate core w t.pos = .hold .hazard)

def execFetchHazardRelease (c : Core) (s : State) : Result :=
  match s.heldWord c with
  | some (t, w) => .next (if s.hazardOver c t w then s.release c .hazard 0 else s)
  | none => .next s

def execFetchLimitRelease (c : Core) (cycles : BitVec 32) (s : State) : Result :=
  match s.heldWord c with
  | some (t, w) => .next (if s.cycleGate c w t.pos = .hold .limit then s else s.release c .limit cycles)
  | none => .next s

/-- UNDERRUN_RESUME (R98): the missing word has come. -/
def execUnderrunResume (c : Core) (cycles : BitVec 32) (s : State) : Result :=
  match s.heldWord c with
  | some _ => .next (s.release c .underrun cycles)
  | none => .next s

/-- What a hold waits for has not come. -/
def State.stillHeld (s : State) (core : Nat) (t : Stream) (k : HoldKind) : Bool :=
  match k, t.queue with
  | .underrun, q => q.isEmpty
  | .wait, q :: _ => !s.waitDone t q.w
  | .fence, q :: _ => !s.fenceDone core q.w
  | _, _ => false

/-- HOLD_LIMIT_EXPIRY (R99). -/
def execHoldLimitExpiry (c : Core) (s : State) : Result :=
  match s.stream c with
  | none => .next s
  | some t =>
    match t.hold with
    | some (k, since) =>
      .next (if since + s.cfld t.ctx Reg.tqHold 23 0 ≤ s.tick ∧ s.stillHeld c t k then s.endStream c 0x0F else s)
    | none => .next s

/-! ### Fetches, puts, signals -/

/-- Stack that serves a device address, if it lies in stacked memory. -/
def State.stackOf (s : State) (a : Nat) : Option Nat :=
  if a < memTop then some (s.locate a).stack else none

/-- Near stack of a logical core: that of its physical core's group (R57, R67). -/
def State.nearStack (s : State) (core : Nat) : Nat :=
  match (s.core core).map.phys with
  | some p => p / 19
  | none => core / 18

/-- The stack of a line, if it is a far one. -/
def State.farStack (s : State) (core a : Nat) : List Nat :=
  ((s.stackOf a).toList).filter (fun k => !decide (k = s.nearStack core))

/-- Far stacks of the lines that a fetch has still to take. -/
def State.farBytesOf (s : State) (core : Nat) (f : FetchReq) : List Nat :=
  (f.left.map (fun i => s.farStack core (f.addr + 64 * i))).flatten

def noBytes (_ : Nat) : Nat := 0

/-- Bytes a far stack has delivered in this tick (R58). -/
def State.farUsed (s : State) (core k : Nat) : Nat :=
  let c := s.core core
  if c.farTick = s.tick then sget noBytes c.farBytes k else 0

/-- `n` lines, of them those in `far` from far stacks, would exceed a far stack's share of the tick, or the port's rate (kept as
stack 8). -/
def State.overShare (s : State) (core : Nat) (far : List Nat) (n : Nat) : Bool :=
  far.any (fun k => decide (22400 < s.farUsed core k + 64 * (far.filter (fun j => decide (j = k))).length)) ||
    decide (179200 < s.farUsed core 8 + 64 * n)

/-- The fetch would exceed a share, or stands behind one, or a line of treadle words, that was held at a stack. -/
def State.farBlocked (s : State) (core : Nat) (f : FetchReq) : Bool :=
  let far := s.farBytesOf core f
  let c := s.core core
  s.overShare core far f.left.length ||
    c.fetches.any (fun g => decide (g.id < f.id) && c.farHeld.contains g.id &&
      (s.farBytesOf core g).any (fun k => far.contains k)) ||
    c.farLine.any (fun (e : Nat × Nat) => far.contains e.1 && decide (e.2 ≤ f.id))

/-- Address of line j of a request. -/
def lineAt (addr j : Nat) : Nat := (addr + 64 * j) % 2 ^ 42

/-- Line of the scratchpad that line j of a fetch is written to. -/
def FetchReq.localLine (f : FetchReq) (j : Nat) : Nat := (f.loc / 64 + j) % 32768

/-- An earlier fetch of the core still has to take the line at `a`. -/
def CoreSt.fetchesBefore (c : CoreSt) (id a : Nat) : Bool :=
  c.fetches.any (fun g => decide (g.id < id) && g.left.any (fun i => decide (lineAt g.addr i = a)))

/-- An earlier put of the core still has to write the line at `a`. -/
def CoreSt.putsBefore (c : CoreSt) (id a : Nat) : Bool :=
  c.puts.any (fun q => decide (q.id < id) && q.left.any (fun i => decide (lineAt q.addr i = a)))

/-- Line j of a fetch must follow an earlier request of the core on the same line, at either end, the core's own window included
(R90, R266, R267), or the
asynchronous ports that it passes through are taken (R50, R117). -/
def State.fetchBehind (s : State) (core : Nat) (f : FetchReq) (j : Nat) : Bool :=
  let c := s.core core
  let a := lineAt f.addr j
  let from_ := ownLine core a
  let to_ := f.localLine j
  !c.async.isEmpty || s.portWaits a || c.fetchesBefore f.id a || c.putsBefore f.id a ||
    c.fetches.any (fun g => decide (g.id < f.id) && g.left.any (fun i =>
      decide (g.localLine i = to_ ∨ from_ = some (g.localLine i) ∨ ownLine core (lineAt g.addr i) = some to_))) ||
    c.puts.any (fun q => decide (q.id < f.id) && q.left.any (fun i => decide (ownLine core (lineAt q.addr i) = some to_)))

/-- The staged copy serves the line. -/
def State.stagedAt (s : State) (a : Nat) (l : Loc) : Bool :=
  decide (s.locate a = l) && (s.stageSet (stageKey l.stack a)).any (fun x => decide (x.addr = a / 64 * 64))

/-- A line that lies in stacked memory reaches its bank, and waits there while it is busy (R161). -/
def State.reachLine (s : State) (a : Nat) (l : Loc) (x : BankAcc) : Bool × State :=
  if a < memTop then s.reach l x else (true, s)

/-- Line j of a fetch lands (R60, R118, R360, R366); once the core has passed to another context, nowhere (R46). -/
def State.landLine (s : State) (core p : Nat) (f : FetchReq) (keep : Bool) (host : HostRead) (j : Nat) : State :=
  let a := lineAt f.addr j
  let g := s.fetchLineAt a (locateIn f.arr a) f.stage f.ctx (hostLine host j) (coreKey core) (s.coreTag core f.ctx)
  let s := if g.1.poison && decide (a < memTop) then g.2.quarantineLine a else g.2
  let s := if keep then s.keepOwed core p f.id [f.localLine j] else s
  if keep then s.writeSpad p (f.localLine j) g.1.data fullMask g.1.poison g.1.unsealed else s

/-- `n` lines are delivered, of them those in `far` from far stacks. -/
def State.takeShare (s : State) (core : Nat) (far : List Nat) (n : Nat) : State :=
  let used := (List.range 8).map (fun k => s.farUsed core k + 64 * (far.filter (fun j => decide (j = k))).length)
  s.modCore core (fun c => { c with
    farTick := s.tick
    farBytes := ssetMany noBytes [] 0 (used ++ [s.farUsed core 8 + 64 * n]) })

/-- The outstanding fetch of that number. -/
def CoreSt.fetchNo (c : CoreSt) (id : Nat) : Option FetchReq := c.fetches.find? (fun f => decide (f.id = id))

/-- Line j of an outstanding fetch, if it has not landed, lands or waits. -/
def State.fetchOne (s : State) (core id : Nat) (host : HostRead) (j : Nat) : State :=
  match (s.core core).fetchNo id, (s.core core).map.phys with
  | some f, some p =>
    if !f.left.contains j || s.fetchBehind core f j then s
    else
      let a := lineAt f.addr j
      let l := locateIn f.arr a
      let r := if f.stage && s.stagedAt a l then (true, s) else s.reachLine a l (.fetch core id j)
      if !r.1 then r.2
      else
        let keep := (r.2.core core).lastCtx == some f.ctx
        ((r.2.landLine core p f keep host j).takeShare core (s.farStack core a) 1).modCore core (fun c => { c with
          fetches := c.fetches.map (fun x => if x.id = id then { x with left := x.left.filter (fun i => !decide (i = j)) } else x) })
  | _, _ => s

/-- A fetch whose last line has been written is done: NET_TC is increased (R81). -/
def State.fetchEnd (s : State) (core id : Nat) : State :=
  match (s.core core).fetchNo id with
  | none => s
  | some f =>
    if f.left ≠ [] then s
    else
      let s := s.modCore core (fun c => { c with fetches := c.fetches.filter (fun x => !decide (x.id = id)) })
      let s := match f.tc with
        | some tc => s.tcAdd (s.tcKey f.ctx f.bank tc) (64 * f.lines)
        | none => s
      s.tryEnd core

/-- Lines of an outstanding fetch land, in the order given, unless its data are held at a stack: those it has still to take would
exceed a share (R58, R81, R269). -/
def State.fetchLines (s : State) (core id : Nat) (lines : List Nat) (host : HostRead) : State :=
  match (s.core core).fetchNo id with
  | none => s
  | some f =>
    let c := s.core core
    if s.farBlocked core f then
      s.setCore core { c with farHeld := if c.farHeld.contains id then c.farHeld else c.farHeld ++ [id] }
    else
      let s := s.setCore core { c with farHeld := c.farHeld.filter (fun i => !decide (i = id)) }
      (lines.foldl (fun s j => s.fetchOne core id host j) s).fetchEnd core id

/-- FETCH_LAND (R81): lines of an outstanding fetch are written through NI. -/
def State.fetchLand (s : State) (core i : Nat) (lines : List Nat) (host : HostRead) : State :=
  match (s.core core).fetches[i]? with
  | some f => s.fetchLines core f.id lines host
  | none => s

def execFetchLand (c : Core) (q : ReqLines) (host : HostRead) (s : State) : Result :=
  .next (if s.powered then s.fetchLand c q.index q.lines host else s)

/-- Line j of a put must follow an earlier request of the core on the same line, the landing of a fetch in the core's own window
included (R266), or the asynchronous ports that it passes through are taken. -/
def State.putBehind (s : State) (core : Nat) (q : PutReq) (j : Nat) : Bool :=
  let c := s.core core
  let a := lineAt q.addr j
  s.portWaits a || c.putsBefore q.id a || c.fetchesBefore q.id a ||
    c.fetches.any (fun g => decide (g.id < q.id) && g.left.any (fun i => decide (ownLine core a = some (g.localLine i))))

/-- A put into the scratchpad of a pre-empted core of its context waits for the restore (R474). -/
def State.putWaits (s : State) (q : PutReq) : Bool :=
  match placeOf q.addr with
  | .scratch core _ => !s.runsFor core q.ctx
  | _ => false

def CoreSt.putNo (c : CoreSt) (id : Nat) : Option PutReq := c.puts.find? (fun q => decide (q.id = id))

/-- Line j of a put, if it has not been written, is written or waits. -/
def State.putOne (s : State) (core id j : Nat) : State :=
  match (s.core core).putNo id with
  | none => s
  | some q =>
    match q.data[j]? with
    | none => s
    | some d =>
      if !q.left.contains j || s.putBehind core q j || s.putWaits q then s
      else
        let a := lineAt q.addr j
        let r := s.reachLine a (locateIn q.arr a) (.put core id j)
        if !r.1 then r.2
        else
          (r.2.placeLineAt a (locateIn q.arr a) d.1 fullMask d.2 q.ctx).modCore core (fun c => { c with
            puts := c.puts.map (fun x => if x.id = id then { x with left := x.left.filter (fun i => !decide (i = j)) } else x) })

/-- A put whose last line has been written: its increment follows its destination point (R81, R264). -/
def State.putEnd (s : State) (core id : Nat) : State :=
  match (s.core core).putNo id with
  | none => s
  | some q =>
    if q.left ≠ [] ∨ q.sent.isSome then s
    else
      let n := 64 * q.data.length
      match placeOf q.addr with
      | .window _ =>
        let mark := (s.ctx q.ctx).writes
        let s := s.modCore core (fun c => { c with
          puts := c.puts.map (fun x => if x.id = id then { x with sent := some mark } else x) })
        let s := match q.tc with
          | some tc => s.post q.ctx (.tally tc q.bank n)
          | none => s
        (s.askFlush q.ctx mark).dropPuts
      | _ =>
        let s := s.modCore core (fun c => { c with puts := c.puts.filter (fun x => !decide (x.id = id)) })
        match q.tc with
        | some tc => s.tcAdd (s.tcKey q.ctx q.bank tc) n
        | none => s

def State.putLines (s : State) (core id : Nat) (lines : List Nat) : State :=
  (lines.foldl (fun s j => s.putOne core id j) s).putEnd core id

/-- PUT_COMMIT (R81, R264): lines of a put are performed, in the order given (R269). -/
def State.putCommit (s : State) (core i : Nat) (lines : List Nat) : State :=
  match (s.core core).puts[i]? with
  | none => s
  | some q => s.putLines core q.id lines

def execPutCommit (c : Core) (q : ReqLines) (s : State) : Result :=
  .next (if s.powered then s.putCommit c q.index q.lines else s)

/-- The oldest signal of the running stream is made, behind every owed signal to its counter. -/
def State.streamSignal (s : State) (core : Nat) : State :=
  match s.stream core with
  | none => s
  | some t =>
    match t.sigs with
    | [] => s
    | g :: gs =>
      if s.sigReady core g.mark &&
          (s.core core).late.all (fun l => !decide (l.key = s.tcKey t.ctx t.bank g.tc)) then
        ((s.tcAdd (s.tcKey t.ctx t.bank g.tc) g.inc).setStream core (some { t with sigs := gs })).tryEnd core
      else s

/-- SIGNAL (R83): the oldest waiting signal adds SIG_INC to SIG_TC. -/
def execSignal (c : Core) (s : State) : Result := .next ((s.lateSignal c).streamSignal c)

/-- FAR_STACK_SHARE_TICK (R58): a new tick gives every far stack's share afresh. -/
def execFarStackShareTick (s : State) : Result :=
  .next (s.cores.foldl (fun s e =>
    let k := s.core e.1
    if k.farTick = s.tick ∨ k.farBytes = [] then s
    else s.setCore e.1 { k with farTick := s.tick, farBytes := [] }) s)

/-! ### Asynchronous ports (R50, R51) -/

def State.asyncArrive (s : State) (core : Nat) (a : AsyncAcc) (slotFree : Bool) : State :=
  if !(s.core core).map.phys.any (fun p => s.domainOn (.core p)) then s
  else
    let s := s.modCore core (fun c => { c with async := c.async ++ [a] })
    if slotFree then s.asyncFirst core else s

/-- NI_WRITE (R50): with no slot free the data wait in the 16 KiB inbound buffer, and behind it, once that is full, at their
sender (R51): the list of waiting accesses holds both, and nothing is dropped. -/
def execNiWrite (c : Core) (item : NiItem) (slotFree : Bool) (s : State) : Result :=
  .next (s.asyncArrive c (.ni item) slotFree)

def execXoRead (c : Core) (addr : BitVec 21) (slotFree : Bool) (s : State) : Result :=
  .next (s.asyncArrive c (.xo addr) slotFree)

/-- ASYNC_PORT_INSERT (R50): one ACLK cycle is inserted for the access that has waited 32 of them. -/
def execAsyncPortInsert (c : Core) (s : State) : Result :=
  .next (if (s.core c).async.isEmpty || (s.core c).map.phys.isNone then s
    else (s.asyncFirst c).modCore c (fun k => { k with insert := k.insert + 1 }))

/-! ### The fetcher (R94 to R97, R476) -/

/-- Words that the next line read brings: number of the first, how many. -/
def Stream.nextLine (t : Stream) : Nat × Nat :=
  let k := t.fetched.toNat
  let limit := match t.src with
    | .program _ n => n - k
    | .host _ _ => (t.produced - t.fetched).toNat
  (k, min (2 - k % 2) (min limit (4096 - t.queue.length)))

/-- END has been fetched: the fetcher reads nothing past it (R100). -/
def Stream.endFetched (t : Stream) : Bool :=
  t.ending || t.queue.any (fun q => decide (twKind q.w = 1 ∧ twSop q.w = 4))

/-- The words of a line, from word k of the stream on. -/
def wordsOf (bytes : List Nat) (k n : Nat) (poison unsealed : Bool) (refused : Option Nat) : List QWord :=
  (List.range n).map (fun i =>
    { w := BitVec.ofNat 256 (natOfBytes ((bytes.drop (32 * ((k + i) % 2))).take 32)), poison := poison,
      unsealed := unsealed, refused := refused })

/-- The line read that the fetcher makes next, at `l` where it is stacked: its bytes and what became of it. -/
def State.treadleLine (s : State) (core : Nat) (t : Stream) (l : Loc) (host : HostRead) (k n : Nat) : List QWord × State :=
  match t.src with
  | .program addr _ =>
    let a := (addr + 64 * (k / 2)) % 2 ^ 42
    match s.refusal t.ctx a 1 false with
    | some code => (wordsOf [] k n false false (some code), s)
    | none =>
      let g := s.fetchLineAt a l true t.ctx (hostLine host 0) (coreKey core) (s.workTag t.work)
      let s := if g.1.poison && decide (a < memTop) then g.2.quarantineLine a else g.2
      (wordsOf (bytesOfLine g.1.data) k n g.1.poison g.1.unsealed none, s)
  | .host ring _ =>
    -- word k lies in slot k mod 4,096; the request is a snooped one
    let s := s.hostRead t.ctx (ring.toNat + k % 4096 * 32) (32 * n) false
    match hostLine host 0 with
    | some l => (wordsOf (bytesOfLine l) k n false false none, s)
    | none => (wordsOf [] k n false false (some 0x03), s)

/-- Far stacks that the next line of treadle words comes from. -/
def State.lineFar (s : State) (core : Nat) (t : Stream) (k : Nat) : List Nat :=
  match t.src with
  | .program addr _ => ((s.stackOf ((addr + 64 * (k / 2)) % 2 ^ 42)).toList).filter (fun j => !decide (j = s.nearStack core))
  | .host _ _ => []

/-- The line would exceed a share of R58, or stands behind a fetch that was held at its stack. -/
def State.lineBlocked (s : State) (core : Nat) (far : List Nat) : Bool :=
  let c := s.core core
  s.overShare core far 1 || (c.farLine.isNone && c.fetches.any (fun g => c.farHeld.contains g.id &&
    (s.farBytesOf core g).any (fun k => far.contains k)))

/-- Where a line of treadle words is taken from (R111). -/
def State.lineLoc (s : State) (core : Nat) (t : Stream) (k : Nat) : Loc :=
  match t.src with
  | .program addr _ => s.placeFor (s.core core).wordLoc (lineAt addr (k / 2))
  | .host _ _ => s.locate 0

/-- A line of treadle words waits at its bank, unless the SSB has it (R60, R161), or behind those at a core's asynchronous ports
(R117). -/
def State.lineReach (s : State) (core : Nat) (t : Stream) (k : Nat) : Bool × State :=
  match t.src with
  | .program addr _ =>
    let a := lineAt addr (k / 2)
    let l := s.lineLoc core t k
    if s.stagedAt a l || (s.refusal t.ctx a 1 false).isSome then (true, s)
    else if s.portWaits a then (false, s)
    else
      let r := s.reachLine a l (.words core)
      if r.1 then r else (false, r.2.modCore core (fun c => { c with wordLoc := some (a / 64 * 64, l) }))
  | .host _ _ => (true, s)

/-- The word that a stop interrupted in its middle has still to be read again (R96, R101). -/
def Stream.rereads (t : Stream) : Bool := decide (0 < t.pos) && t.queue.isEmpty

/-- TQ_LINE_FETCH (R95): a line read returns and fills the queue. DESIGN CHOICE: "reads nothing past END" (R100) holds by lines: a
word in END's own 64-B line is queued and counted in FETCHED (notes/assumptions/179.md). -/
def State.tqLineFetch (s : State) (core : Nat) (host : HostRead) : State :=
  match s.stream core with
  | none => s
  | some t =>
    let kn := t.nextLine
    let far := s.lineFar core t kn.1
    if t.endFetched || kn.2 == 0 || !s.powered || (t.halt.isSome && !t.rereads) then s
    else if s.lineBlocked core far then
      s.modCore core (fun c => { c with
        farLine := if c.farLine.isSome then c.farLine else far.head?.map (fun k => (k, c.nextId)) })
    else
      let q := s.lineReach core t kn.1
      if !q.1 then q.2
      else
      let l := s.lineLoc core t kn.1
      let s := (q.2.takeShare core far 1).modCore core (fun c => { c with farLine := none, wordLoc := none })
      let r := s.treadleLine core t l host kn.1 kn.2
      (r.2.setStream core (some { t with
        queue := t.queue ++ r.1
        fetched := t.fetched + BitVec.ofNat 32 kn.2 })).checkFront core

def execTqLineFetch (c : Core) (host : HostRead) (s : State) : Result := .next (s.tqLineFetch c host)

/-! ### The treadle doorbell (R96, R346) -/

/-- The byte at an address as it is stored, with nothing read out of it; none: it lies in host memory. -/
def State.peekByte (s : State) (a : Nat) : Option Nat :=
  match placeOf a with
  | .stacked =>
    let l := s.locate a
    some (sget noByte s.mem.data (s.rowKey l * 1024 + 64 * l.line + a % 64)).toNat
  | .scratch core o =>
    match (s.core core).map.phys with
    | some p => some (if s.spads.written.contains (spadKey p (o / 64)) then (s.spadBytes p o 1).headD 0 else 0)
    | none => some 0
  | .window _ => none
  | .reserved => some 0

/-- STREAM record fields: the stream table's address. -/
def Hank.streamTable (h : Hank) : Nat := h.f 105 64

/-- An accepted STREAM record, not yet selected, has a HOST source for a core. DESIGN CHOICE: of a table in host memory, which is not
read before selection, that is taken to be so (notes/assumptions/188.md). -/
def State.hostPlanned (s : State) (h : Hank) (core : Nat) : Bool :=
  h.stream && !h.picked && h.mask.getLsbD (core / 18) &&
    (s.peekByte (h.streamTable + 32 * core)).all (fun b => b % 4 == 2)

def isHostSrc : StreamSrc → Bool
  | .host _ _ => true
  | .program _ _ => false

/-- The context's oldest HOST stream on a core: not yet started (its hank), or running or saved (its step). -/
inductive HostStream where
  | none
  | planned (hank : Nat)
  | running
  | saved (step : Nat)
deriving DecidableEq, Repr

/-- Among saved and planned streams. -/
def State.hostParked (s : State) (c core : Nat) : HostStream :=
  match s.serve.steps.find? (fun p => decide (p.ctx = c) && p.saved.any (fun x => decide (x.core = core) &&
      (match x.stream with
        | some t => isHostSrc t.src
        | none => false))) with
  | some p => .saved p.uid
  | none =>
    match s.serve.hanks.find? (fun h => decide (h.ctx = c) && s.hostPlanned h core) with
    | some h => .planned h.uid
    | none => .none

def State.hostStream (s : State) (c core : Nat) : HostStream :=
  match s.stream core with
  | some t => if t.ctx = c ∧ isHostSrc t.src then .running else s.hostParked c core
  | none => s.hostParked c core

/-- PRODUCED after a doorbell: ignored, taken, or past the credited space (R96). -/
inductive Credit where
  | ignored
  | taken
  | overrun
deriving DecidableEq, Repr

def creditOf (cur retired new : Word) : Credit :=
  if (new - cur).toNat = 0 ∨ 2 ^ 31 ≤ (new - cur).toNat then .ignored
  else if 4096 < (new - retired).toNat then .overrun
  else .taken

def Stream.doorbell (t : Stream) (v : Word) : Stream :=
  match creditOf t.produced t.retired v with
  | .ignored => t
  | .taken => { t with produced := v }
  | .overrun => { t with halt := some (some 0x0E) }

def noCredit (_ : Nat) : Word := 0
def State.tqDoorbell (s : State) (c core : Nat) (v : Word) : State :=
  match s.hostStream c core with
  | .none => s.refuseDoorbell c (0x400 + 4 * core) v
  | .running =>
    match s.stream core with
    | none => s
    | some t =>
      let t1 := t.doorbell v
      let s := s.setStream core (some t1)
      -- a stop at a word boundary that has already been reached
      if t1.halt = some (some 0x0E) ∧ t1.pos = 0 then s.endStream core 0x0E else s
  | .saved uid =>
    s.modStep uid (fun p => { p with saved := p.saved.map (fun x =>
      if x.core = core then { x with stream := x.stream.map (fun t => t.doorbell v) } else x) })
  | .planned h =>
    let key := h * 144 + core
    let cur := sget noCredit (s.ctx c).credits key
    if (s.ctx c).overruns.contains key then s
    else
      match creditOf cur 0 v with
      | .ignored => s
      | .taken => s.modCtx c (fun x => { x with credits := sset noCredit x.credits key v })
      | .overrun => s.modCtx c (fun x => { x with overruns := nsAdd x.overruns key })

def execCtxDbTq (x : Ctx) (c : Core) (produced : Word) (s : State) : Result :=
  .next (s.doorbell x (.ctxDbTq x c produced) false (fun s => s.tqDoorbell x c produced))

end Sys2Proof.Machine
end

