-- ==== Sys2Proof/Machine/Reliability.lean ====
section
/-!
DEFINITION. Errors, repair and degraded operation (spec/13_reliability.md R361 to R388, 03_mill_cores.md R66 to R68,
06_spindles_row_logic.md R166 to R168): the buckets, the Carder, the split-write window, units declared dead and re-admitted,
lost stacks and SAFE mode.
-/

namespace Sys2Proof.Machine

/-! ### Correctable-error buckets (R362) -/

def execCeLeak (bucket : Fin 9) (s : State) : Result :=
  let n : Nat := bucket
  let level := s.fld (Reg.eccCeStat n) 15 0
  .next (if s.powered ∧ s.tick % s.fld (Reg.eccCeCfgHi n) 23 0 = 0 ∧ 0 < level then
    s.setFld (Reg.eccCeStat n) 15 0 (level - 1)
  else s)

/-! ### The Carder (R370, R371) -/

/-- Line `n` of a stack in the Carder's order. -/
def carderLoc (k n : Nat) : Loc := ⟨k, n / 1024 % 16, n / 16 % 64, n / 16384 % 65536, n % 16⟩

/-- The content address of which `a` is one of the three copies (R378). -/
def contentOf (a : Nat) : Option Nat :=
  [0, 0x140003000, 0x280006000].findSome? (fun d => if d ≤ a ∧ isContent (a - d) then some (a - d) else none)

/-- A failed copy of a reserved-area line is rewritten from the first good one among the others. -/
def State.repairCopy (s : State) (a : Nat) : List Nat → State
  | [] => s
  | b :: rest =>
    if b = a ∨ !s.bankAnswers (s.locate b) then s.repairCopy a rest
    else
      let g := s.readLoc b (s.locate b) .carder none
      if g.1.poison then g.2.repairCopy a rest else g.2.writeLoc a (g.2.locate a) g.1.data fullMask false

/-- One line, by the class of its row and its own classification. A line in `stuck` has a failing symbol that does not take the
corrected value. -/
def State.carderLine (s : State) (k n : Nat) (stuck : List Nat) : State :=
  let l := carderLoc k n
  let a := s.addrOf l
  let rk := s.rowKey l
  if !s.bankAnswers l then s
  else
    match s.rowClass rk with
    | .raw => s
    | .unsealed =>
      if s.rel.found.contains rk then s
      else ({ s with rel := { s.rel with found := nsAdd s.rel.found rk } }).logAt { typ := 0x05, source := pathCode .carder } a l
    | .sealed =>
      let d := s.rawData rk l.line
      match classifyLine (d ++ s.rawChk rk l.line) with
      | .clean => s
      | .poisonMark => s
      | .correctable p v =>
        let s := s.countCe k
        let s := (if stuck.contains n then s else s.storeLine rk l.line (xorAt d p v) false).unstage a
        match classifyLine (s.rawData rk l.line ++ s.rawChk rk l.line) with
        | .clean => s
        | _ => s.logAt { typ := 0x03, source := pathCode .carder, symbol := p } a l
      | .uncorrectable =>
        let s := s.foundUe a l .carder none
        match contentOf a with
        | some c => s.repairCopy a (copiesOf c)
        | none =>
          if s.rmode (regionOf a) = 2 then
            match s.blockOwner (a / 2 ^ 17) with
            | some h => s.loseSkein h false
            | none => s
          else s

/-- The next line, and the position after it; a completed pass is counted. -/
def State.carderNext (s : State) (k : Nat) (stuck : List Nat) : State :=
  let n := s.fld (Reg.eccCarderPos k) 29 0
  let s := s.carderLine k n stuck
  let s := s.setFld (Reg.eccCarderPos k) 29 0 (n + 1)
  if n + 1 = 2 ^ 30 then
    ({ s with rel := { s.rel with found := s.rel.found.filter (fun rk => !decide (rk / (65792 * 1024) = k)) } }).bumpReg
      (Reg.eccCarderPass k) 1
  else s

/-- The next lines, up to one whose bank is busy (R161). -/
def State.carderRun (s : State) (k : Nat) (stuck : List Nat) : Nat → State
  | 0 => s
  | n + 1 =>
    let l := carderLoc k (s.fld (Reg.eccCarderPos k) 29 0)
    let r : Bool × State := if s.bankAnswers l then s.reach l (.carder (n + 1) stuck) else (true, s)
    if r.1 then (r.2.carderNext k stuck).carderRun k stuck n else r.2

def State.carderVisit (s : State) (k : Nat) (stuck : List Nat) : State :=
  let c := Reg.eccCarder k
  if s.serving ∧ s.fld c 24 24 = 1 ∧ s.tick % s.fld c 23 8 = 0 ∧ ¬ s.stackIsLost k ∧ ¬ s.pwr.tripped.getLsbD k then
    s.carderRun k stuck (s.fld c 7 0 + 1)
  else s

def execCarderVisit (k : Stack) (stuck : List Nat) (s : State) : Result := .next (s.carderVisit k stuck)

/-! ### Withheld blocks (R364, R377) -/

def State.blockRelease (s : State) (v : Word) : State :=
  let b := bitsAt v.toNat 21 0
  if !s.blockWithheld b then s.logInvalid 0 Reg.eccBlockRelease v.toNat
  else { s with skeins := { s.skeins with
      withheld := nsDel s.skeins.withheld b
      released := if s.skeins.withheldBg.contains (b / 32 % 2048) then nsAdd s.skeins.released b else s.skeins.released } }

def execEccBlockRelease (v : Word) (s : State) : Result := .next (s.pfWrite (fun s => s.blockRelease v))

/-! ### Work that is abandoned (R383) -/

/-- An attempt of a hank step is given up: its streams are gone, and it restarts once it has drained. -/
def State.abandonStep (s : State) (uid : Nat) : State :=
  let s := s.cores.foldl (fun s e => match s.stream e.1 with
    | some t => if t.work = uid then (s.countHold e.1).closeStream e.1 t else s
    | none => s) s
  s.modStep uid (fun p => { p with restart := true, ends := [], saved := [] })

/-- The steps in which a sequence that names the Skein is stepping. -/
def State.stepsNaming (s : State) (handle : Nat) : List Nat :=
  (s.serve.steps.filter (fun p => !(p.phase == .stream) && p.slots.any (fun w =>
    namesSkein (s.seq p.hank w.slot).chains handle))).map (fun p => p.uid)

/-- Every block of a bank group is withheld, and every Skein with a block in it is lost. A step that would scan one ends its
attempt, and the sequences concerned leave it. -/
def State.withholdGroup (s : State) (n : Nat) : State :=
  let s := { s with skeins := { s.skeins with
    withheldBg := nsAdd s.skeins.withheldBg n
    released := s.skeins.released.filter (fun b => !decide (b / 32 % 2048 = n)) } }
  let inGroup (b : Nat) : Bool := decide (b / 32 % 2048 = n)
  let gone := (s.skeins.table.filter (fun e =>
    (e.2.st == .resident && inGroup e.2.block) || (e.2.st == .moving && (inGroup e.2.block || inGroup e.2.dest)))).map Prod.fst
  gone.foldl (fun s h =>
    let steps := s.stepsNaming h
    steps.foldl (fun s u => s.abandonStep u) (s.loseSkein h false)) s

/-! ### The core map (R66 to R68) -/

/-- Physical cores of a group that may carry a number. -/
def groupAlive (dead : List Nat) (k : Nat) : List Nat :=
  ((List.range 19).map (fun i => 19 * k + i)).filter (fun p => !dead.contains p)

/-- Logical cores that their own group's cores leave over, and the spares that the groups leave. -/
def leftover (dead : List Nat) : List Nat :=
  (List.range 144).filter (fun c => decide ((groupAlive dead (c / 18)).length ≤ c % 18))
def sparesOf (dead : List Nat) : List Nat := ((List.range 8).map (fun k => (groupAlive dead k).drop 18)).flatten

/-- The map of R66: the physical core of logical core c. -/
def assignCore (dead : List Nat) (c : Nat) : Option Nat :=
  match (groupAlive dead (c / 18))[c % 18]? with
  | some p => some p
  | none => (sparesOf dead)[(leftover dead).idxOf c]?

/-- The map is rebuilt at a reset: every epoch 0, the listed cores dead. -/
def State.rebuildMap (s : State) (dead : List Nat) : State :=
  let s := { s with
    phys := dead.foldl (fun m p => sset noPhys m p { dead := true }) []
    cores := [] }
  (List.range 144).foldl (fun s c =>
    match assignCore dead c with
    | none => s
    | some p => (s.setPhys p { logical := some c }).modCore c (fun k => { k with
        map := { phys := some p, last := some p, epoch := 0 } })) s

/-- The lowest unused spare of a group, and the spare that R67 gives a logical core. -/
def State.spareIn (s : State) (g : Nat) : Option Nat :=
  ((List.range 19).map (fun i => 19 * g + i)).find? (fun p => !(s.physOf p).dead && (s.physOf p).logical.isNone)
def State.spareFor (s : State) (g : Nat) : Option Nat :=
  match s.spareIn g with
  | some p => some p
  | none => (List.range 8).findSome? (fun k => s.spareIn k)

/-- GLB_SPARE.AVAIL. -/
def State.spareCount (s : State) : Nat :=
  ((List.range 152).filter (fun p => !(s.physOf p).dead && (s.physOf p).logical.isNone)).length

/-- A physical core takes a logical number: it begins with its written bits clear. -/
def State.giveNumber (s : State) (p c : Nat) : State :=
  ((s.setPhys p { logical := some c }).clearCore p).modCore c (fun k => { k with
    map := { k.map with phys := some p, last := some p } })

/-! ### Cores declared dead (R67, R382, R383) -/

/-- The work of logical core c: its host stream ends with STALE_EPOCH, and hank steps that run over it, or are being saved
from it, are abandoned. -/
def State.loseCoreWork (s : State) (c : Nat) : State :=
  let s : State := match s.stream c with
    | some t => if (s.stepOf t.work).any (fun (p : StepSt) => p.phase == .stream) then s.endStream c 0x0C else s
    | none => s
  s.serve.steps.foldl (fun s p =>
    if ¬ p.mask.getLsbD (c / 18) ∨ ¬ p.waiting = [] then s
    else if p.phase = .stream then
      (if p.switch = some true then
        (p.saved.filter (fun x => decide (x.core = c))).foldl (fun s x =>
          match x.stream with
          | some t => s.statusRecord c { t with state := .stopped, status := 0x0C }
          | none => s)
        (s.modStep p.uid (fun q => { q with
          saved := q.saved.filter (fun x => !decide (x.core = c))
          ends := if q.saved.any (fun x => decide (x.core = c)) then q.ends ++ [(c, 0x0C, s.tick)] else q.ends }))
      else s)
    else if p.preAt.isNone ∨ p.switch = some true then s.abandonStep p.uid
    else s) s

/-- Requests and inbound data under way under the old epoch. -/
def CoreSt.packets (k : CoreSt) : Nat := k.fetches.length + k.puts.length + k.async.length

/-- Physical core p dies for a reason of Table 13.6. -/
def State.killCore (s : State) (p why : Nat) : State :=
  let old := s.physOf p
  if old.dead then s
  else
    match old.logical with
    | none => s.setPhys p { dead := true }
    | some c =>
      let s := s.loseCoreWork c
      let k := s.core c
      let full := decide (k.map.epoch = 255)
      let e := if full then k.map.epoch else k.map.epoch + 1
      let s := s.bumpReg Reg.glbStaleDrops k.packets
      let s := (s.setPhys p { dead := true }).modCore c (fun k => { k with
        map := { phys := none, last := some p, epoch := e, barred := full }
        stream := none
        pipe := {}
        fetches := []
        puts := []
        late := []
        async := []
        farLine := none
        lastCtx := none
        farTick := 0
        farBytes := []
        farHeld := []
        wordLoc := none
        stopReq := none })
      let s := match (if full then none else s.spareFor (p / 19)) with
        | some q => s.giveNumber q c
        | none => s
      let s := s.ctxs.foldl (fun s e => s.finishTeardown e.1) s
      s.log { typ := 0x09, status := 0x0C, unit := c, info := why + 256 * e.toNat }

/-- GLB_CORE_CMD DECLARE (R382, R447). -/
def State.coreDeclare (s : State) (p : Nat) : State :=
  if 151 < p ∨ (s.physOf p).dead ∨ (s.physOf p).logical.isNone then s.logInvalid 0 Reg.glbCoreCmd (p + 256)
  else s.atBoundary (.coreDead p 6)

def execCoreDeclare (p : BitVec 8) (s : State) : Result := .next (s.pfWrite (fun s => s.coreDeclare p.toNat))

/-- CORE_DECLARED_DEAD: the declaration takes effect. -/
def State.coreDies (s : State) (p : Nat) : State :=
  let whys := s.rel.boundary.filterMap (fun b => match b with
    | .coreDead q w => if q = p then some w else none
    | _ => none)
  match whys with
  | [] => s
  | w :: _ => (whys.foldl (fun s w => s.dropBoundary (.coreDead p w)) s).killCore p w

def execCoreDeclaredDead (p : PCore) (s : State) : Result := .next (s.whenServing (fun s => s.coreDies p))

/-- A stop of the core has been asked for and it has reached no boundary. -/
def State.stopping (s : State) (c : Nat) : Bool :=
  (s.stream c).any (fun t => t.halt.isSome) ||
  s.serve.steps.any (fun p => p.mask.getLsbD (c / 18) && decide (p.switch = some true))

/-- CORE_STOP_TIMEOUT: 100 ticks after the request. -/
def execCoreStopTimeout (c : Core) (s : State) : Result :=
  .next (s.whenServing (fun s =>
    match (s.core c).stopReq, (s.core c).map.phys with
    | some t, some p => if s.stopping c ∧ t + 100 ≤ s.tick then s.atBoundary (.coreDead p 3) else s
    | _, _ => s))

/-- Logical cores that a re-admitted core may carry: OFFLINE, and not barred by a declaration at epoch 255 (R67). -/
def State.offline (s : State) : Option Nat :=
  (List.range 144).find? (fun c => (s.core c).map.phys.isNone && !(s.core c).map.barred)

/-- A core that has passed its self-test joins again (R384). -/
def State.coreJoins (s : State) (p : Nat) : State :=
  if !(s.physOf p).dead then s
  else
    match s.offline with
    | some c => (s.giveNumber p c).log { typ := 0x0A, unit := c }
    | none => ((s.setPhys p {}).clearCore p).log { typ := 0x0A, unit := p }

/-- GLB_CORE_CMD ADMIT (R384, R447). -/
def State.coreAdmit (s : State) (p : Nat) (ok : Bool) : State :=
  if 151 < p ∨ ¬ (s.physOf p).dead then s.logInvalid 0 Reg.glbCoreCmd (p + 512)
  else if !ok then s.log { typ := 0x0A, status := 0x0C, unit := p }
  else s.atBoundary (.coreAlive p)

def execCoreAdmit (p : BitVec 8) (selfTestOk : Bool) (s : State) : Result :=
  .next (s.pfWrite (fun s => s.coreAdmit p.toNat selfTestOk))

/-! ### Spindles declared dead (R166 to R168, R382) -/

def buddyIx (n : Nat) : Nat := if n % 2 = 0 then n + 1 else n - 1

/-- A command tag that a Spindle has in use. -/
def State.tagBusy (s : State) (n tag : Nat) : Bool :=
  let p := s.spindle n
  (p.run.toList ++ p.queue ++ p.backlog).any (fun c => decide (xTag c.x = tag)) || p.out.any (fun r => decide (r.ctag = tag)) ||
    s.serve.plans.any (planOf n tag)

/-- The tag under which the buddy takes a command over. -/
def State.spareTag (s : State) (n tag : Nat) : Nat :=
  if s.tagBusy n tag then ((List.range 256).find? (fun t => !s.tagBusy n t)).getD tag else tag

/-- A command as it is reissued to the buddy: FOREIGN, the buddy's epoch, a tag free there. -/
def reissued (x : Xcmd) (epoch tag : Nat) : Xcmd :=
  BitVec.ofNat 128 (putBits (putBits (putBits x.toNat 19 12 epoch) 27 20 tag) 29 29 1)

/-- One command of dead Spindle n goes to its buddy, with the query it was sent with; its partials keep their slots. It waits at
the controller for a place in the buddy's queue (R139). -/
def State.reissue (s : State) (n : Nat) (c : SpdCmd) : State :=
  let b := buddyIx n
  let q := s.spindle b
  let old := xTag c.x
  let tag := s.spareTag b old
  let s := s.enqueueSpd b { x := reissued c.x q.epoch.toNat tag, q := c.q, owner := c.owner, ghost := c.ghost }
  { s with serve := { s.serve with plans := s.serve.plans.map (fun (p : ScanPlan) =>
      if xop c.x = 2 ∧ p.bound = some (n, old) then { p with bound := some (b, tag) } else p) } }

/-- The Governor is to relocate the Skeins of a bank group that no Spindle serves; sequences that hold one are parked. -/
def State.evacuate (s : State) (n : Nat) : State :=
  let hit := (s.skeins.table.filter (fun e => (e.2.st == .resident || e.2.st == .moving) &&
    decide (e.2.block / 32 % 2048 = n ∨ e.2.st = .moving ∧ e.2.dest / 32 % 2048 = n))).map Prod.fst
  hit.foldl (fun s h =>
    let s := { s with serve := { s.serve with evac := nsAdd s.serve.evac h } }
    let s := (s.stepsNaming h).foldl (fun s u => s.abandonStep u) s
    s.serve.hanks.foldl (fun s k => (List.range k.seqs.length).foldl (fun s i =>
      let q := s.seq k.uid i
      if ¬ namesSkein q.chains h ∨ q.st.final ∨ q.st = .stepping then s
      else (s.parkSeq k.uid i false).modSeq k.uid i (fun q => { q with restore := true })) s) s) s

/-- Spindle n dies for a reason of Table 13.6; `alone`: its whole stack is lost, and it has no buddy. -/
def State.killSpindle (s : State) (n why : Nat) (alone : Bool) : State :=
  let p := s.spindle n
  if ¬ p.state = .alive then s
  else
    let b := buddyIx n
    let served := !alone && (s.spindle b).state == .alive
    let cmds := (p.run.toList ++ p.queue ++ p.backlog).filter (fun c => c.owner.all (fun o => (s.ctx o.1).closing.isNone))
    let s := s.setSpindle n { epoch := p.epoch + 1, state := if served then .deadServed else .deadUnserved }
    let r := s.rowOf (n / 256)
    let s := s.setRow (n / 256) { r with pend := r.pend.filter (fun q => !decide (q.spindle = some n)) }
    let s := if served then cmds.foldl (fun s c => s.reissue n c) s
      else
        let s := cmds.foldl (fun s c => match c.owner with
          | some o => s.failRequest o.1 o.2 (if alone then 0x03 else 0x0C)
          | none => s) s
        if (s.spindle b).state = .deadServed then s.setSpindle b { s.spindle b with state := .deadUnserved } else s
    let s := { s with
      rel := { s.rel with admits := nsDel s.rel.admits n }
      serve := { s.serve with plans := s.serve.plans.map (fun (q : ScanPlan) =>
        if q.bound.any (fun (e : Nat × Nat) => decide (e.1 = n)) then { q with bound := none } else q) } }
    let s := s.log { typ := 0x09, status := 0x0C, unit := n, info := why + 256 * (p.epoch + 1).toNat }
    let s := s.ctxs.foldl (fun s e => s.finishTeardown e.1) s
    if served || alone then s else (s.evacuate n).evacuate b

/-- SPINDLE_DECLARED_DEAD: the declaration takes effect. -/
def State.spindleDies (s : State) (n : Nat) : State :=
  let whys := s.rel.boundary.filterMap (fun b => match b with
    | .spindleDead m w => if m = n then some w else none
    | _ => none)
  match whys with
  | [] => s
  | w :: _ => (whys.foldl (fun s w => s.dropBoundary (.spindleDead n w)) s).killSpindle n w false

def execSpindleDeclaredDead (n : SpindleIx) (s : State) : Result := .next (s.whenServing (fun s => s.spindleDies n))

/-- SPD_CMD DECLARE (R382, R452). -/
def State.spdDeclare (s : State) (n : Nat) : State :=
  if !s.spdAlive n then s.logInvalid 0 Reg.spdCmd (n + 2 ^ 12) else s.atBoundary (.spindleDead n 6)

def execSpdCmdDeclare (n : SpindleIx) (s : State) : Result := .next (s.pfWrite (fun s => s.spdDeclare n))

/-- SPINDLE_CMD_TIMEOUT: a started command has not completed within 10,000 ticks. -/
def execSpindleCmdTimeout (n : SpindleIx) (s : State) : Result :=
  .next (s.whenServing (fun s => match (s.spindle n).run with
    | some c => if c.started + 10000 ≤ s.tick ∧ s.spdAlive n then s.atBoundary (.spindleDead n 5) else s
    | none => s))

/-- A FOREIGN command for bank group n is queued on or running in its buddy. -/
def State.foreignHeld (s : State) (n : Nat) : Bool :=
  let q := s.spindle (buddyIx n)
  (q.run.toList ++ q.queue ++ q.backlog).any (fun c => xForeign c.x)

/-- A re-admitted Spindle takes its bank group back; its buddy, if dead, is served by it from now on. -/
def State.takeBack (s : State) (n : Nat) : State :=
  let b := buddyIx n
  let s := s.setSpindle n { s.spindle n with state := .alive }
  let s := { s with rel := { s.rel with admits := nsDel s.rel.admits n } }
  let s := if (s.spindle b).state = .deadUnserved ∧ ¬ s.stackIsLost (n / 256)
    then s.setSpindle b { s.spindle b with state := .deadServed } else s
  { s with serve := { s.serve with evac := s.serve.evac.filter (fun h =>
      (s.spindle (s.blockSpindle (s.skein h).block)).state == .deadUnserved) } }

/-- Re-admitted Spindles whose buddies hold no FOREIGN command any more (R384). -/
def State.settleAdmits (s : State) : State :=
  s.rel.admits.foldl (fun s n => if s.foreignHeld n then s else s.takeBack n) s

/-- SPD_CMD ADMIT (R167, R384, R452): the bank group is taken back at a tick boundary. -/
def State.spdAdmit (s : State) (n : Nat) (ok : Bool) : State :=
  if s.spdAlive n then s.logInvalid 0 Reg.spdCmd (n + 2 ^ 13)
  else if !ok || decide ((s.spindle n).epoch = 255) || s.stackIsLost (n / 256) then
    s.log { typ := 0x0A, status := 0x0C, unit := n }
  else
    let s := s.log { typ := 0x0A, unit := n }
    { s with rel := { s.rel with admits := nsAdd s.rel.admits n } }

def execSpdCmdAdmit (n : SpindleIx) (selfTestOk : Bool) (s : State) : Result :=
  .next (s.pfWrite (fun s => s.spdAdmit n selfTestOk))

/-! ### Lost stacks (R379) -/

/-- Row requests with a pending step in the stack fail; its pending steps go. -/
def State.dropStackRows (s : State) (k : Nat) : State :=
  let r := s.rowOf k
  let s := r.pend.foldl (fun s q => match q.act with
    | .request c id => s.modRow c id (fun x => { x with fail := some 0x03 })
    | _ => s) s
  s.setRow k { r with pend := [] }

def State.lostCount (s : State) : Nat := ((List.range 8).filter (fun k => s.stackIsLost k)).length

/-- The Spindles of a lost stack die, and its bank groups are withheld. -/
def State.loseSpindles (s : State) (k : Nat) : State :=
  let s := (List.range 256).foldl (fun s i => s.killSpindle (256 * k + i) 7 true) s
  (List.range 256).foldl (fun s i => s.withholdGroup (256 * k + i)) s

/-- The stack's storage and units leave service. -/
def State.loseStack (s : State) (k : Nat) : State :=
  if s.stackIsLost k then s
  else
    let s := s.setReg Reg.stkLost (s.reg Reg.stkLost ||| BitVec.ofNat 32 (2 ^ k))
    let s := s.dropStackRows k
    let s := s.loseSpindles k
    let s : State := { s with mem := { s.mem with
        staging := s.mem.staging.filter (fun (e : Nat × List StagedLine) => !decide (e.1 / 20480 = k)) } }
    let s := s.setThread k ({} : ThreadPath)
    let s := s.log { typ := 0x09, status := 0x0C, unit := k, info := 7 }
    if 2 < s.lostCount then s.atBoundary (.safe 3) else s

def execStackLost (k : Stack) (s : State) : Result :=
  .next (s.whenServing (fun s =>
    if s.rel.boundary.contains (.stackLost k) then (s.dropBoundary (.stackLost k)).loseStack k else s))

/-- STK_CMD (R379, R452). -/
def State.stkCmd (s : State) (v : Word) : State :=
  let k := bitsAt v.toNat 3 0
  if 7 < k then s.logInvalid 0 Reg.stkCmd v.toNat
  else if !v.getLsbD 4 then s
  else if s.stackIsLost k then s.logInvalid 0 Reg.stkCmd v.toNat
  else s.atBoundary (.stackLost k)

def execStkCmdLost (v : Word) (s : State) : Result := .next (s.pfWrite (fun s => s.stkCmd v))

/-- STACK_UNANSWERED: the sixteenth consecutive command has gone unanswered. -/
def execStackUnanswered (k : Stack) (s : State) : Result :=
  .next (s.whenServing (fun s => if s.stackIsLost k then s else s.atBoundary (.stackLost k)))

/-! ### The split-write window (R380) -/

/-- The line the window names: in stacked memory, a scratchpad of a physical core, or an SSB. -/
inductive WinLine where
  | stack (rk line a : Nat)
  | spad (p line : Nat)
  | ssb (k off : Nat)
deriving DecidableEq, Repr

/-- A core runs a step or a stream. -/
def State.coreBusy (s : State) (c : Nat) : Bool :=
  (s.stream c).isSome || s.serve.steps.any (fun p => p.mask.getLsbD (c / 18) && !(s.serve.preempted.contains p.uid && p.switch.isNone))

/-- The window's line; none where the command is discarded. -/
def State.winLine (s : State) : Option WinLine :=
  let a := s.fld Reg.eccWinAddrLo 31 6 * 64 + s.fld Reg.eccWinAddrHi 9 0 * 2 ^ 32
  let ix := s.fld Reg.eccWinCtl 15 8
  let dom := s.fld Reg.eccWinCtl 1 0
  if dom = 0 then
    if memTop ≤ a ∨ isReserved a ∨ !s.bankAnswers (s.locate a) then none
    else some (.stack (s.rowKey (s.locate a)) (s.locate a).line a)
  else if dom = 1 then
    match (s.core ix).map.phys with
    | some p => if 2 ^ 21 ≤ a ∨ 144 ≤ ix ∨ s.coreBusy ix then none else some (.spad p (a / 64))
    | none => none
  else if 2 ^ 25 ≤ a ∨ 8 ≤ ix then none
  else some (.ssb ix a)

/-- Stored data and check symbols of a line: 64 bytes, and 4 symbols or 3 for each of two codewords. -/
def State.winRead (s : State) : WinLine → List Nat × List Nat
  | .stack rk i _ => (s.rawData rk i, s.rawChk rk i)
  | .spad p i => (s.spadBytes p (64 * i) 64, s.spadChk p (2 * i) ++ s.spadChk p (2 * i + 1))
  | .ssb k o => (s.ssbBytes k o 64, s.ssbCheck k o 6)

def State.winWrite (s : State) (l : WinLine) (d c : List Nat) : State :=
  match l with
  | .stack rk i a => (((s.setRawData rk i d).setRawChk rk i c)).unstage a
  | .spad p i =>
    let s := (s.setSpadUnit p (2 * i) (d.take 32) (c.take 3)).setSpadUnit p (2 * i + 1) (d.drop 32) (c.drop 3)
    { s with spads := { s.spads with written := nsAdd s.spads.written (spadKey p i) } }
  | .ssb k o => s.setSsbLine k o d c

/-- Data and check symbols in the window's registers. -/
def State.winData (s : State) : List Nat :=
  ((List.range 16).map (fun w => bytesOfNat 4 (s.reg (Reg.eccWinData w)).toNat)).flatten
def State.winCheck (s : State) : WinLine → List Nat
  | .stack _ _ _ => bytesOfNat 4 (s.reg Reg.eccWinCheckLo).toNat
  | _ => bytesOfNat 3 (s.fld Reg.eccWinCheckLo 23 0) ++ bytesOfNat 3 (s.fld Reg.eccWinCheckHi 23 0)

/-- The registers take a line. -/
def State.winLoad (s : State) (l : WinLine) : State :=
  let r := s.winRead l
  let s := (List.range 16).foldl (fun s w =>
    s.setReg (Reg.eccWinData w) (BitVec.ofNat 32 (natOfBytes ((r.1.drop (4 * w)).take 4)))) s
  match l with
  | .stack _ _ _ => s.setReg Reg.eccWinCheckLo (BitVec.ofNat 32 (natOfBytes r.2))
  | _ => (s.setReg Reg.eccWinCheckLo (BitVec.ofNat 32 (natOfBytes (r.2.take 3)))).setReg Reg.eccWinCheckHi
      (BitVec.ofNat 32 (natOfBytes (r.2.drop 3)))

/-- A window command: discarded and logged where the line may not be named. -/
def State.window (s : State) (cmd : Nat) (f : State → WinLine → State) : State :=
  match s.winLine with
  | none => s.logInvalid 0 Reg.eccWinCmd cmd
  | some l => f s l

/-- Each command invalidates the staged copy of a line of stacked memory (R61, R380). -/
def State.winUnstage (s : State) (l : WinLine) : State :=
  match l with
  | .stack _ _ a => s.unstage a
  | _ => s

def State.readRaw (s : State) : State := s.window 1 (fun s l => (s.winLoad l).winUnstage l)
def State.writeData (s : State) : State := s.window 2 (fun s l => s.winWrite l s.winData (s.winRead l).2)
def State.writeCheck (s : State) : State := s.window 3 (fun s l => s.winWrite l (s.winRead l).1 (s.winCheck l))
def State.writeBoth (s : State) : State := s.window 4 (fun s l => s.winWrite l s.winData (s.winCheck l))

def execReadRaw (s : State) : Result := .next (s.pfWrite State.readRaw)
def execWriteData (s : State) : Result := .next (s.pfWrite State.writeData)
def execWriteCheck (s : State) : Result := .next (s.pfWrite State.writeCheck)
def execWriteBoth (s : State) : Result := .next (s.pfWrite State.writeBoth)

/-! ### SAFE mode (R385 to R388) -/

/-- Everything stops, and what was under way never completes. -/
def State.stopWork (s : State) : State :=
  { s with
    cores := s.cores.map (fun (e : Nat × CoreSt) => (e.1, { e.2 with
      stream := none, fetches := [], puts := [], late := [], async := [] }))
    spindles := s.spindles.map (fun (e : Nat × Spindle) => (e.1, { e.2 with queue := [], backlog := [], run := none }))
    rowLogic := s.rowLogic.map (fun (e : Nat × StackRow) => (e.1, { e.2 with pend := [] }))
    serve := { s.serve with steps := [], preempted := [], plans := [], rows := [] }
    banks := []
    winder := {}
    twine := { s.twine with reqs := [], taken := [] }
    ctxs := s.ctxs.map (fun (e : Nat × Ctxs) => (e.1, { e.2 with
      rowQ := [], posts := [], flushes := [], closing := none, bells := [] }))
    txn := { last := s.txn.last } }

def State.enterSafe (s : State) (cause : Nat) : State :=
  let s := { s with
    pwr := { s.pwr with safe := some cause, drain := false, drained := false, smbAlert := true }
    rel := { s.rel with asked := [], boundary := [] } }
  ((s.disablePorts true).stopWork.log { typ := 0x0F, info := cause }).msix 0 2

/-- The causes that have arisen. -/
def State.safeCauses (s : State) : List Nat :=
  s.rel.boundary.filterMap (fun b => match b with
    | .safe c => some c
    | _ => none)

/-- SAFE_ENTRY: the first cause of Table 13.7 among those that have arisen. -/
def execSafeEntry (s : State) : Result :=
  .next (match s.safeCauses with
    | [] => s
    | c :: cs => if s.powered ∧ s.pwr.safe.isNone then s.enterSafe (cs.foldl min c) else s)

def execGlbSafeEnter (s : State) : Result := .next (s.pfWrite (fun s => s.atBoundary (.safe 6)))

/-- GOV_WATCHDOG_EXPIRY: the Busko has not serviced its watchdog for GOV_WDOG.TICKS. -/
def execGovWatchdogExpiry (s : State) : Result :=
  .next (s.whenServing (fun s =>
    if s.rel.wdogAt + s.fld Reg.govWdog 23 0 ≤ s.tick then s.atBoundary (.safe 5) else s))

end Sys2Proof.Machine
end

