-- ==== Sys2Proof/Machine/Winder.lean ====
section
/-!
DEFINITION. The commands of the Winder engines (spec/09_winder_layout.md R238 to R260): acceptance, dispatch, the wait, each
checked access, and completion.
-/

namespace Sys2Proof.Machine

/-- WINDER: the descriptor is queued (R238, R337). -/
def execWinder (x : Ctx) (rec : Record) (s : State) : Result :=
  .next (s.acceptRecord x rec 0x20 (s.winderBad x rec) 1 (recTag rec) (fun s =>
    { s with winder := { s.winder with
      queue := s.winder.queue ++ [(⟨x, recTag rec, BitVec.ofNat 1024 rec.toNat⟩ : WDesc)] } }))

/-! ### Dispatch (R240, R250) -/

/-- Descriptors of a context that engines run. -/
def State.winding (s : State) (c : Nat) : Nat :=
  ((List.range 16).filter (fun e => (s.engine e).desc.any (fun d => decide (d.ctx = c)))).length

/-- The next context in ascending rotation after the one last served that has a descriptor and an engine left. -/
def State.nextWinder (s : State) (last : Nat) : Option WDesc :=
  let order := (List.range 64).map (fun i => (last + 1 + i) % 64)
  (order.find? (fun c => (s.ctx c).closing.isNone && s.winder.queue.any (fun d => decide (d.ctx = c)) &&
      decide (s.winding c < s.fld (Reg.wndCtxLimit c) 4 0))).bind
    (fun c => s.winder.queue.find? (fun d => decide (d.ctx = c)))

def dropFirst (d : WDesc) : List WDesc → List WDesc
  | [] => []
  | x :: xs => if x = d then xs else x :: dropFirst d xs

/-- The copy runs against its addresses: a move whose destination lies above its source (R254). -/
def WDesc.descends (d : WDesc) : Bool :=
  decide ((d.sbase : Int) + d.org 0 * d.eb + d.org 1 * d.s 1 + d.org 2 * d.s 2 + d.org 3 * d.s 3 + d.org 4 * d.s 4 < d.dbase)

def State.winderDone (s : State) (e code addr : Nat) : State :=
  let x := s.engine e
  match x.desc with
  | none => s
  | some d =>
    let s := (s.idleEngine e).final d.ctx {
      rkind := 0x20, status := code, tag := d.tag, count := x.committed, addr := if code = 0x03 then addr else 0 }
    s.finishTeardown d.ctx

/-- Engines that make copies of the Governor's. -/
def State.governing (s : State) : Nat :=
  ((List.range 16).filter (fun e => (s.engine e).gov.any s.copyWanted)).length

/-- An idle engine takes a copy of the Governor's, while fewer than WND_GOV.ENGINES are running, or the next descriptor. A copy that
is not wanted any more leaves its engine idle. -/
def State.winderDispatch (s : State) (e : Nat) : State :=
  let last := (s.engine e).last
  if (s.engine e).desc.isSome || (s.engine e).gov.any s.copyWanted then s
  else
    match (if s.governing < s.fld Reg.wndGov 3 0 then s.nextCopy else none), s.nextWinder last with
    | some g, _ => s.setEngine e { last := last, gov := some g }
    | none, none => s
    | none, some d =>
      if s.pwr.drain then s else
      let s := { s with winder := { s.winder with queue := dropFirst d s.winder.queue } }
      let move := d.overlaps
      let s := s.setEngine e {
        desc := some d
        wait := if d.waitEn then some s.tick else none
        move := move
        down := move && d.descends
        last := d.ctx }
      if !d.aligned then s.winderDone e 0x02 0
      else if move && !d.movable then s.winderDone e 0x04 0
      else s

def execWinderDispatch (e : Engine) (s : State) : Result := .next (s.whenServing (fun s => s.winderDispatch e))

/-! ### The wait (R253) -/

def State.winderWaits (s : State) (e : Nat) (f : WEngine → WDesc → Nat → State) : State :=
  let x := s.engine e
  match x.desc, x.wait with
  | some d, some t => f x d t
  | _, _ => s

def State.winderReached (s : State) (d : WDesc) : Bool := tcReached (s.tcVal d.wtc) d.target

def execWinderWaitSatisfied (e : Engine) (s : State) : Result :=
  .next (s.whenServing (fun s => s.winderWaits e (fun x d _ =>
    if s.winderReached d then s.setEngine e { x with wait := none } else s)))

def execWinderWaitTimeout (e : Engine) (s : State) : Result :=
  .next (s.whenServing (fun s => s.winderWaits e (fun _ d t =>
    if !s.winderReached d && decide (t + s.fld Reg.wndHold 23 0 ≤ s.tick) then s.winderDone e 0x0F 0 else s)))

/-! ### Accesses (R254 to R257) -/

/-- Nothing is left to issue, nor to be written. -/
def WEngine.finished (x : WEngine) (d : WDesc) : Bool :=
  x.land.isEmpty && (decide (d.total ≤ x.pos) || (x.stop.isSome && decide (x.rpos ≤ x.pos)))

/-- The engine stops before the access at position `at_`. -/
def WEngine.halt (x : WEngine) (code addr at_ : Nat) : WEngine := { x with stop := some (code, addr), rpos := at_ }

def poisonCode (uns : Bool) : Nat := if uns then 0x0D else 0x07

/-- Read the list entry of the block in hand through the Thread path (R247, R248); its line is checked first (R255). It takes its
turn in the path before its bank (R124). -/
def State.readEntry (s : State) (e : Nat) (x : WEngine) (d : WDesc) : State :=
  let n := x.pos / d.block
  let a := d.list + 8 * n
  let stop (s : State) (code addr : Nat) : State := s.setEngine e (x.halt code addr x.pos)
  match s.winderRefusal d.ctx a false with
  | some code => stop s code (addr42 a)
  | none =>
    if ¬ placeOf a = .stacked then stop s 0x03 a
    else
      let l := s.placeFor x.at_ a
      let wait (s : State) (turn : Bool) : State := s.setEngine e { x with at_ := some (a / 64 * 64, l), turn := turn }
      let t := if x.turn then (true, s) else s.threadTurn l.stack (.winder e) 1
      let r := if t.1 then t.2.reach l (.winder e) else t
      if !t.1 then wait t.2 false
      else if !r.1 then wait r.2 true
      else
        let g := r.2.readMemAt a l .thread (some d.ctx)
        if g.1.poison then stop g.2 (poisonCode g.1.unsealed) a
        else
          let entry := BitVec.ofNat 64 (natOfBytes (((bytesOfLine g.1.data).drop (a % 64)).take 8))
          let y := { x with entry := some entry, at_ := none, turn := false }
          let skip := nullEntry entry && (decide (d.mode = 2) || d.skips (y.elt d (n * d.block)))
          g.2.setEngine e (if skip then { x with pos := (n + 1) * d.block, rpos := (n + 1) * d.block } else y)

/-- The next source unit to read before `seg`, passing over positions whose source is in hand. -/
def WEngine.fill (d : WDesc) (seg : Nat) : Nat → WEngine → WEngine × Option Int
  | 0, x => (x, none)
  | n + 1, x =>
    if seg ≤ x.rpos then (x, none)
    else
      let l := x.chunk d seg x.rpos
      match (d.units l).find? (fun u => (x.unitAt u).isNone) with
      | some u => (x, some u)
      | none => WEngine.fill d seg n { x with rpos := x.rpos + l.length }

/-- Read the source unit at `u` (R255, R257); without the answer of a host read, a unit of the host window waits. -/
def State.readUnitFor (s : State) (e : Nat) (x : WEngine) (d : WDesc) (seg : Nat) (u : Int) (host : Option HostRead) : State :=
  match s.winderRefusal d.ctx u false with
  | some code =>
    let before := ((x.chunk d seg x.rpos).takeWhile (fun p => !decide (p.src.map (fun a => a / (d.unit : Int) * d.unit) = some u))).length
    s.setEngine e (x.halt code (addr42 u) (if d.blocks then x.pos else x.rpos + before))
  | none =>
    let a := u.toNat
    let l := s.placeFor x.at_ a
    let t := (s.setEngine e { x with at_ := some (a / 64 * 64, l) }).accessTurn a l (.winder e)
    let absent := match placeOf a with
      | .window _ => host.isNone || !(s.ctx d.ctx).busMaster
      | _ => false
    if !t.1 || absent then t.2
    else
      let r := t.2.takeUnit e d a l (host.getD .failed)
      r.2.setEngine e { x with
        at_ := none
        got := x.got ++ [r.1]
        poison := if r.1.poison then some (x.poison.getD r.1.unsealed) else x.poison }

/-- The first poisoned source unit among a list of positions. -/
def WEngine.badUnit (x : WEngine) (d : WDesc) (l : List Elt) : Option SrcUnit :=
  ((d.units l).filterMap (fun u => x.unitAt u)).find? (fun u => u.poison)

/-- Positions written: on to the next part. -/
def WEngine.wrote (x : WEngine) (d : WDesc) (n seg : Nat) : WEngine :=
  let pos := x.pos + n
  { x with
    pos := pos
    rpos := max x.rpos pos
    at_ := none
    got := if seg ≤ pos then [] else x.got
    entry := if d.blocks ∧ pos % d.block = 0 then none else x.entry }

/-- Write a destination access locally. -/
def State.writeChunk (s : State) (e : Nat) (x : WEngine) (d : WDesc) (l : List Elt) (seg : Nat) : State :=
  let a := x.outStart l
  match s.winderRefusal d.ctx a true with
  | some code => s.setEngine e (x.halt code (addr42 a) x.pos)
  | none =>
    let at_ := s.placeFor x.at_ a.toNat
    let t := (s.setEngine e { x with at_ := some (a.toNat / 64 * 64, at_) }).accessTurn a.toNat at_ (.winder e)
    if !t.1 then t.2
    else
      let b := x.outBytes d l
      let s := t.2.winderPut d a.toNat at_ b (x.badUnit d l).isSome
      s.setEngine e { x.wrote d l.length seg with committed := x.committed + b.length }

/-- Does the engine have another request to spare (R312)? -/
def State.mayIssue (s : State) (e : Nat) : Bool :=
  decide ((s.twine.reqs.filter (fun r => decide (r.eng = e))).length < 256)

/-- A remote request, after which the engine goes on as `next` says unless it has failed. -/
def State.issueFor (s : State) (e : Nat) (x : WEngine) (d : WDesc) (r : RemReq) (data : List (BitVec 256))
    (next : WEngine → WEngine) : State :=
  if !s.mayIssue e then s
  else
    match (s.setEngine e x).issue r d.dtc d.dtcEn data with
    | none => s
    | some t =>
      let y := t.engine e
      (if y.stop.isSome then t else t.setEngine e (next y)).serveLoop e

/-- A WRITE of a destination access (R312, R363). -/
def State.writeRemote (s : State) (e : Nat) (x : WEngine) (d : WDesc) (l : List Elt) (seg : Nat) : State :=
  let a := x.outStart l
  match x.badUnit d l with
  | some u => s.setEngine e (x.halt (poisonCode u.unsealed) 0 x.pos)
  | none =>
    if a < 0 ∨ 2 ^ 42 ≤ a then s.setEngine e (x.halt 0x03 (addr42 a) x.pos)
    else
      let b := x.outBytes d l
      s.issueFor e x d {
        tag := 0, eng := e, serial := 0, node := d.dnode, write := true, addr := a.toNat, len := b.length, port := none
        at_ := s.tick, ctx := d.ctx, bytes := b.length } (runItems a.toNat b) (fun y => y.wrote d l.length seg)

/-- A local address for the data of a READ; one below 0 is refused when the data arrive. -/
def landAddr (a : Int) : Nat := if a < 0 then 2 ^ 42 + addr42 a else a.toNat

/-- A READ of the run of positions `l`, whose first is read from `a`. -/
def State.requestRun (s : State) (e : Nat) (x : WEngine) (d : WDesc) (l : List Elt) (a : Int) (into : Bool)
    (next : WEngine → WEngine) : State :=
  let whole := d.blocks || d.identity
  let base := if whole then a else a / (d.unit : Int) * d.unit
  if base < 0 ∨ 2 ^ 42 ≤ base then s.setEngine e (x.halt 0x03 (addr42 base) x.pos)
  else
    let n := l.length * d.eb
    s.issueFor e x d {
      tag := 0, eng := e, serial := 0, node := d.snode, write := false, addr := base.toNat
      len := if whole then n else d.unit
      port := none, at_ := s.tick, ctx := d.ctx
      into :=
        if !into then []
        else if whole then [(landAddr (l.headD ⟨none, 0, 0⟩).dst, 0, n)]
        else l.map (fun p => (landAddr p.dst, ((p.src.getD base) - base).toNat, d.eb)) } [] next

/-- A READ of a run of positions (R312), or pad written locally. -/
def State.readRemote (s : State) (e : Nat) (x : WEngine) (d : WDesc) (lim : Nat) : State :=
  match (x.elt d x.pos).src with
  | none =>
    let l := (x.chunk d lim x.pos).takeWhile (fun p => p.src.isNone)
    s.writeChunk e x d l (x.pos + l.length)
  | some a =>
    let l := x.run d lim d.readTogether x.pos
    s.requestRun e x d l a true (fun y => y.wrote d l.length (x.pos + l.length))

/-- A block of a remote source: its READs, and when all of its data are in hand, its writes (R249). -/
def State.remoteBlock (s : State) (e : Nat) (x : WEngine) (d : WDesc) (lim : Nat) : State :=
  let seg := min lim (x.segEnd d)
  match (x.elt d x.rpos).src with
  | some a =>
    if x.rpos < seg then
      let l := x.run d seg d.readTogether x.rpos
      s.requestRun e x d l a false (fun y => { y with rpos := y.rpos + l.length })
    else if s.twine.reqs.any (fun r => decide (r.eng = e)) then s
    else s.writeChunk e x d (x.chunk d seg x.pos) seg
  | none =>
    s.writeChunk e x d (x.chunk d seg x.pos) seg

/-- One access of an engine that runs (R254, R255). -/
def State.winderAccess (s : State) (e : Nat) (host : Option HostRead) : State :=
  let s := (s.serveLoop e).landPieces e ((s.engine e).land.length)
  let x := s.engine e
  match x.desc with
  | none => s
  | some d =>
    if x.wait.isSome || x.finished d then s
    else if d.blocks ∧ x.entry.isNone ∧ x.stop.isNone then s.readEntry e x d
    else
      let lim := if x.stop.isSome then x.rpos else d.total
      let pos := if d.blocks then x.pos else x.skipPads d lim lim x.pos
      let x := { x with pos := pos, rpos := max x.rpos pos }
      if lim ≤ pos then s.setEngine e x
      else if d.sremote && d.blocks then s.remoteBlock e x d lim
      else if d.sremote then s.readRemote e x d lim
      else
        let seg := min lim (x.segEnd d)
        let f : WEngine × Option Int := if x.stop.isSome then (x, none) else WEngine.fill d seg (seg + 1) x
        match f.2 with
        | some u =>
          if d.blocks && d.dremote && decide (d.dnode = s.nodeId) && s.twine.reqs.any (fun r => decide (r.eng = e)) then s
          else s.readUnitFor e f.1 d seg u host
        | none =>
          let y := f.1
          let l := y.chunk d (min seg y.rpos) y.pos
          if d.dremote then s.writeRemote e y d l seg else s.writeChunk e y d l seg

def execWinderAccess (e : Engine) (host : HostRead) (s : State) : Result :=
  .next (s.whenServing (fun s => s.winderAccess e (some host)))

/-! ### Completion (R238, R256, R314) -/

/-- Final code and refused address. -/
def WEngine.outcome (x : WEngine) : Nat × Nat :=
  match x.failed, x.stop, x.poison with
  | some f, _, _ => (f.2.1, f.2.2)
  | none, some t, _ => t
  | none, none, some u => (poisonCode u, 0)
  | none, none, none => (0, 0)

def State.winderComplete (s : State) (e : Nat) : State :=
  let x := s.engine e
  match x.desc with
  | none => s
  | some d =>
    if x.torn then s.finishTeardown d.ctx
    else if x.wait.isNone && x.finished d && !s.twine.reqs.any (fun r => decide (r.eng = e)) then
      s.winderDone e x.outcome.1 x.outcome.2
    else s

def execWinderComplete (e : Engine) (s : State) : Result := .next (s.whenServing (fun s => s.winderComplete e))

end Sys2Proof.Machine
end

