-- ==== Sys2Proof/Machine/Banks.lean ====
section
/-!
DEFINITION. What waits at a bank or in a stack's Thread path is served (spec/05_stack_memory.md R124,
spec/06_spindles_row_logic.md R161 to R165).
-/

namespace Sys2Proof.Machine

/-- A request that a Twine port, or an engine of this device, has had to hold goes on. -/
def State.serveHeld (s : State) (k : Nat) : State := if k < 8 then s.serveAll k else s.serveLoop (k - 8)

/-- An access whose turn has come at bank `l`. -/
def State.serveAccess (s : State) (l : Loc) (w : BankAcc) : State :=
  match w with
  | .read a path sector at_ => s.channelRead a path sector at_
  | .write a data mask poison at_ => s.channelWrite a data mask poison at_
  | .refresh => s.refreshBank l
  | .thread k q => s.threadDo k q
  | .bar4 id =>
    match s.mem.bar4s.find? (fun q => decide (q.id = id)) with
    | some q => s.bar4Go q.ctx s.mem.bar4s.length
    | none => s
  | .fetch core id line => s.fetchLines core id [line] .failed
  | .put core id line => s.putLines core id [line]
  | .words core => s.tqLineFetch core .failed
  | .winder e => if s.serving then s.winderAccess e none else s
  | .data e => s.landPieces e (s.engine e).land.length
  | .twine k => s.serveHeld k
  | .merge id =>
    match s.serve.rows.find? (fun r => decide (r.id = id) && r.left.isSome) with
    | some r => if (s.ctx r.ctx).closing.isSome then s else s.mergeOutput r
    | none => s
  | .carder n stuck => if s.serving then s.carderRun l.stack stuck n else s
  | .own a data mask poison at_ ctx => s.ownWrite a at_ data mask poison ctx

/-- It answers whoever made it. -/
def BankAcc.answers : BankAcc → Bool
  | .read _ _ _ _ => true
  | .thread _ q => q.wr.isNone
  | .bar4 _ => true
  | _ => false

/-- Up to `n` accesses that wait at a bank which no step holds are served in arrival order, up to one that is answered; one whose
agent has no more use for it goes. -/
def State.serveBank (s : State) (l : Loc) : Nat → State
  | 0 => s
  | n + 1 =>
    match (s.bankSt l).waits with
    | [] => s
    | w :: _ =>
      if s.bankBusy l then s
      else
        let t := s.serveAccess l w.2
        let b := t.bankSt l
        let still := b.waits.head? = some w ∧ b.waits.length = (s.bankSt l).waits.length
        let t := if still then t.setBankSt l b.pop else t
        if w.2.answers then t else t.serveBank l n

/-- Those that no further step may pass, and the sixteen that follow. -/
def State.serveWaiting (s : State) (l : Loc) : State := s.serveBank l ((s.bankSt l).first + 16)

/-- A doorbell that waited for earlier BAR4 writes is processed (R277, R345). -/
def State.ringBell (s : State) (cmd : Instr) : State :=
  match cmd with
  | .ctxDbSq x v => s.rung x false (fun s => s.dbSq x v)
  | .ctxDbCq x v => s.rung x false (fun s => s.dbCq x v)
  | .ctxDbEq x v => s.rung x false (fun s => s.dbEq x v)
  | .ctxDbTally x v => s.rung x true (fun s => s.dbTally x v)
  | .ctxDbTq x c v => s.rung x false (fun s => s.tqDoorbell x c v)
  | _ => s

/-- The doorbells of a context, oldest first, up to one that a BAR4 write still precedes. -/
def State.ringBells (s : State) (c : Nat) : Nat → State
  | 0 => s
  | n + 1 =>
    match (s.ctx c).bells with
    | [] => s
    | b :: rest =>
      if s.bar4Before c b.2 then s
      else ((s.modCtx c (fun x => { x with bells := rest })).ringBell b.1).ringBells c n

def State.ringAll (s : State) : State := s.ctxs.foldl (fun s e => s.ringBells e.1 (s.ctx e.1).bells.length) s

/-- BUSY_BANK_SERVE (R161 to R163), at SCLK g of the tick. -/
def execBusyBankServe (k : Stack) (d : Die) (b : Bank) (g : SclkInTick) (s : State) : Result :=
  .next (if s.domainOn (.stack k) then ((s.reachSclk k (750 * s.tick + g)).serveWaiting ⟨k, d, b, 0, 0⟩).ringAll else s)

/-- STEP_ABORT (R164, R165): the step that holds the bank is aborted, and the accesses are served. -/
def State.stepAbort (s : State) (l : Loc) : State :=
  let now := s.sclkNow l.stack
  match s.abortDue l now with
  | some q => (s.abortStep l now q).serveWaiting l
  | none => s

def execStepAbort (k : Stack) (d : Die) (b : Bank) (g : SclkInTick) (s : State) : Result :=
  .next (if s.domainOn (.stack k) then ((s.reachSclk k (750 * s.tick + g)).stepAbort ⟨k, d, b, 0, 0⟩).ringAll else s)

/-- What waits first in a stack's Thread path has its turn. -/
def State.serveThread (s : State) (k : Nat) (w : ThreadWait) : State :=
  match w with
  | .access q => (s.threadTurn k w 1).2.threadDo k q
  | .winder e => if s.serving then s.winderAccess e none else s
  | .twine p => s.serveHeld p

/-- As far as the tick's 1,500 accesses go; one whose agent has no more use for it goes. -/
def State.serveThreads (s : State) (k : Nat) : Nat → State
  | 0 => s
  | n + 1 =>
    match (s.threadOf k).waiting with
    | [] => s
    | w :: _ =>
      if 1500 ≤ s.threadUsed k then s
      else
        let t := s.serveThread k w
        let p := t.threadOf k
        let still := p.waiting.head? = some w ∧ t.threadUsed k = s.threadUsed k
        (if still then t.setThread k { p with waiting := p.waiting.drop 1 } else t).serveThreads k n

/-- THREAD_WINDOW_WAIT (R124). -/
def execThreadWindowWait (k : Stack) (s : State) : Result :=
  .next (if s.domainOn (.stack k) ∧ ¬ s.stackIsLost k then s.serveThreads k (s.threadOf k).waiting.length else s)

end Sys2Proof.Machine
end

