-- ==== Sys2Proof/Machine/Trust.lean ====
section
/-!
DEFINITION. The root of trust (spec/15_security.md): boot verification and firmware update (R425 to R431), SPDM (R432 to R434),
PCIe IDE (R436), and the debug lock (R437, R438). Signatures, hashes and MACs are not computed: whether one verifies comes
with the image or the request.
-/

namespace Sys2Proof

/-! ### Images (R426, R428) -/

def FlashSlot.f (x : FlashSlot) (hi lo : Nat) : Nat := bitsAt x.header.toNat hi lo
def FlashSlot.seq (x : FlashSlot) : Nat := x.f 95 64
def FlashSlot.svn (x : FlashSlot) : Nat := x.f 111 96
def FlashSlot.bodyLen (x : FlashSlot) : Nat := x.f 191 160

/-- R428 but for the signatures, with a body of at most `most` bytes. -/
def FlashSlot.headerOk (x : FlashSlot) (most : Nat) : Bool :=
  decide (x.f 31 0 = 0x58485A51 ∧ x.f 47 32 = 1 ∧ x.f 63 48 = 0 ∧ x.f 127 112 = 0 ∧ x.f 255 192 = 0 ∧ x.f 4095 3648 = 0 ∧
    x.f 16383 10240 = 0 ∧ x.bodyLen ≤ most ∧ x.f 3615 3584 = 65537)
def FlashSlot.formOk (x : FlashSlot) : Bool := x.headerOk 2097152

def FlashSlot.passes (x : FlashSlot) : Bool := x.formOk && x.sigOk

/-- The manufacturing record passes (R427 step 2). -/
def FlashSlot.recordOk (x : FlashSlot) : Bool := x.headerOk 129024 && x.sigOk && x.hashOk

end Sys2Proof

namespace Sys2Proof.Machine

/-! ### Boot (R427 to R429) -/

/-- The slots in the order they are tried: descending SEQ, slot A first among equals. -/
def bootOrder (a b : FlashSlot) : List (Bool × FlashSlot) :=
  (if a.seq < b.seq then [(true, b), (false, a)] else [(false, a), (true, b)]).filter (fun e => e.2.passes)

/-- Step 2 of start-up (R427): the identity, the record, and SEC_STATUS of the first candidate whose body passes; where none passes,
SEC_STATUS shows the identity alone, and no image is measured. -/
def State.bootVerify (s : State) (env : BootEnv) : Bool × State :=
  let fl := env.flash.getD (s.trust.slotA, s.trust.slotB)
  let record := env.record.getD s.trust.record
  let ident := if env.identityOk then 2 ^ 17 else 0
  let s := { s with trust := { s.trust with
      record := record
      slotA := fl.1
      slotB := fl.2
      root := if env.identityOk then some Config.pufRoot else none
      identityKey := if env.identityOk then some Config.identityKey else none
      image := 0
      slot := false
      fallback := false } }
  let cands := bootOrder fl.1 fl.2
  match (if record.recordOk then cands.find? (fun e => e.2.hashOk) else none) with
  | none => (false, s.setReg Reg.secStatusLo (BitVec.ofNat 32 ident))
  | some e =>
    let back := cands.any (fun c => decide (e.2.seq < c.2.seq))
    let lo := e.2.svn + (if e.1 then 2 ^ 16 else 0) + ident + (if back then 2 ^ 18 else 0)
    let s := { s with trust := { s.trust with image := e.2.header, slot := e.1, fallback := back } }
    (true, (s.setReg Reg.secStatusLo (BitVec.ofNat 32 lo)).setReg Reg.secStatusHi (BitVec.ofNat 32 e.2.seq))

/-! ### Firmware update (R430, R431) -/

/-- SEQ that the next image must carry. -/
def Trust.wantedSeq (t : Trust) : Nat :=
  ((([t.slotA, t.slotB].filter FlashSlot.passes).map (fun x => x.seq + 1)).foldl max 0) % 2 ^ 32

def Trust.nextSeqNow (t : Trust) : Nat := if t.fw = .busy then t.nextSeq else t.wantedSeq

/-- The SEC_ update registers answer also in SAFE mode (Table 16.10). -/
def State.secAnswers (s : State) : Bool :=
  s.powered && !(s.ctx 0).d3hot && s.ideAdmits &&
    (if s.pwr.safe.isSome then s.pwr.ready || s.pwr.bootFail else s.pwr.ready && !(s.pwr.state == .p3))

/-- A STAGE is taken up; while BUSY it is ignored and logged. -/
def State.askStage (s : State) : State :=
  if s.trust.fw = .busy then s.logInvalid 0 Reg.secFwupCmd 1
  else s.setTrust { s.trust with fw := .busy, reason := 0, asked := true, staged := none, nextSeq := s.trust.wantedSeq }

/-- The image read from host memory. -/
def imageOf (bytes : List Byte) (sigOk hashOk : Bool) : FlashSlot :=
  { header := BitVec.ofNat 16384 (natOfBytes ((bytes.take 2048).map BitVec.toNat)), body := bytes.drop 2048,
    sigOk := sigOk, hashOk := hashOk }

/-- Steps 1 to 5 of R430: the checks in their order, then the target slot is erased. -/
def State.stageImage (s : State) (x : FlashSlot) : State :=
  if ¬ x.formOk ∨ ¬ 2048 + x.bodyLen = s.fld Reg.secFwupLen 21 0 then s.failUpdate 2
  else if ¬ x.sigOk then s.failUpdate 3
  else if ¬ x.seq = s.trust.nextSeq then s.failUpdate 8
  else if x.svn < s.fld Reg.secStatusLo 15 0 then s.failUpdate 5
  else if ¬ x.hashOk then s.failUpdate 4
  else s.setTrust { (s.trust.setTarget s.trust.target.erased) with asked := false, staged := some x }

/-- STAGE (R430): the image is read with the PF's requester ID, snooped. -/
def State.stage (s : State) (host : HostRead) (sigOk hashOk : Bool) : State :=
  if !s.secAnswers then s
  else
    let s1 := if s.trust.asked then s else s.askStage
    if ¬ s1.trust.asked then s1
    else
      let s1 := s1.hostRead 0 (s1.pair Reg.secFwupAddrLo Reg.secFwupAddrHi) (s1.fld Reg.secFwupLen 21 0) false
      match host with
      | .failed => s1.failUpdate 1
      | .ok b => if !(s1.ctx 0).busMaster then s1.failUpdate 1 else s1.stageImage (imageOf b sigOk hashOk)

def execStage (host : HostRead) (sigOk hashOk : Bool) (s : State) : Result := .next (s.stage host sigOk hashOk)

def execAbort (s : State) : Result := .next (if s.secAnswers then s.dropUpdate else s)

/-- FWUP_DONE: steps 6 and 7. -/
def execFwupDone (flashOk : Bool) (s : State) : Result :=
  .next (match s.trust.staged with
    | none => s
    | some x =>
      if ¬ s.trust.fw = .busy ∨ !s.powered then s
      else if flashOk then
        s.setTrust { (s.trust.setTarget x) with fw := .done, reason := 0, staged := none }
      else s.failUpdate 6)

/-! ### SPDM (R432 to R434) -/

def State.identity (s : State) : Bool := decide (s.fld Reg.secStatusLo 17 17 = 1)

/-- The Distaff runs, and the requester's path to it is open. -/
def State.spdmServes (s : State) (r : SpdmReq) : Bool :=
  s.powered && s.pwr.started && !(s.pwr.state == .p3) && (s.pwr.ready || s.pwr.bootFail) &&
    (match r.peer with
      | .func _ => true
      | .port p => s.pwr.safe.isNone && (((s.port p).st == .auth) || (s.port p).st == .param || (s.port p).st.live))

def peerKey : SpdmPeer → Nat
  | .func c => c
  | .port p => 64 + p

def noConn (_ : Nat) : Nat := 0
def State.conn (s : State) (r : SpdmReq) : Nat := sget noConn s.trust.conn (peerKey r.peer)
def State.setConn (s : State) (r : SpdmReq) (n : Nat) : State :=
  s.setTrust { s.trust with conn := sset noConn s.trust.conn (peerKey r.peer) n }

def State.answer (s : State) (x : SpdmReply) : State := { s with reply := .spdm x }
def State.spdmError (s : State) (e : SpdmError) : State := s.answer (.error e)

/-- The answer to a request that came over a link goes out in a LINK SPDM packet; once it has been sent, the link's directions in
`rekey` have new keys unless it is an error (R295, R297). -/
def State.sendAnswer (s : State) (r : SpdmReq) (rekey : List LinkDir) : State :=
  match r.peer with
  | .func _ => s
  | .port p => s.queueSpdm p (match s.reply with
    | .spdm (.error _) => []
    | _ => rekey)

/-- A request is answered where the Distaff serves it: without an identity one that needs a signature or a session (`ident`) with
Unspecified (R424), and otherwise where the connection has come as far as `need`. -/
def State.spdmFor (s : State) (r : SpdmReq) (need : Nat) (ident : Bool) (rekey : List LinkDir) (f : State → State) : State :=
  if !s.spdmServes r then s
  else (if ident && !s.identity then s.spdmError .unspecified
    else if s.conn r < need then s.spdmError .unexpectedRequest else f s).sendAnswer r rekey
def State.spdm (s : State) (r : SpdmReq) (need : Nat) (f : State → State) : State := s.spdmFor r need false [] f
/-- One that needs a signature or a session. -/
def State.spdmIdent (s : State) (r : SpdmReq) (f : State → State) : State := s.spdmFor r 3 true [] f

/-- A signature by the identity key: the first `n` draws have been used. -/
def State.sign (s : State) (msg : List Byte) : BitVec 3072 × State :=
  (Config.identitySign s.trust.drbg msg, s.setTrust { s.trust with drbg := s.trust.drbg + 1 })
def State.random (s : State) : BitVec 256 × State :=
  (Config.drbg s.trust.drbg, s.setTrust { s.trust with drbg := s.trust.drbg + 1 })

def execGetVersion (r : SpdmReq) (s : State) : Result :=
  .next (s.spdm r 0 (fun s => (s.setConn r 1).answer .version))
def execGetCapabilities (r : SpdmReq) (s : State) : Result :=
  .next (s.spdm r 1 (fun s => (s.setConn r 2).answer (.capabilities [.cert, .chal, .measSig, .keyEx, .encrypt, .mac, .hbeat, .keyUpd])))
/-- An offer without the algorithms of R432 asks for what is not supported. -/
def execNegotiateAlgorithms (r : SpdmReq) (s : State) : Result :=
  .next (s.spdm r 2 (fun s => if r.valid then
      (s.setConn r 3).answer (.algorithms [.rsaPss3072, .sha256, .secp384r1, .aes256Gcm, .spdmKeySchedule]) else s.spdmError .unsupportedRequest))
def execGetDigests (r : SpdmReq) (s : State) : Result :=
  .next (s.spdm r 3 (fun s => s.answer (.digests Config.chainDigest)))

/-- Bytes i and i + 1 of a payload. -/
def payload16 (b : List Byte) (i : Nat) : Nat := natOfBytes (((b.drop i).take 2).map BitVec.toNat)

/-- GET_CERTIFICATE: slot in PARAM1, offset and length in the payload. -/
def execGetCertificate (r : SpdmReq) (s : State) : Result :=
  .next (s.spdm r 3 (fun s =>
    let off := payload16 r.payload 0
    if ¬ bitsAt r.param1.toNat 3 0 = 0 then s.spdmError .unsupportedRequest
    else if Config.certChain.length ≤ off then s.spdmError .invalidRequest
    else
      let part := (Config.certChain.drop off).take (payload16 r.payload 2)
      s.answer (.certificate part (Config.certChain.length - off - part.length))))

/-- CHALLENGE: slot in PARAM1. -/
def execChallenge (r : SpdmReq) (s : State) : Result :=
  .next (s.spdmIdent r (fun s =>
    if ¬ r.param1.toNat = 0 then s.spdmError .unsupportedRequest
    else
      let n := s.random
      let g := n.2.sign r.payload
      g.2.answer (.challengeAuth (n.1.setWidth 3072) g.1)))

def bytesLe (n v : Nat) : List Byte := (bytesOfNat n v).map (BitVec.ofNat 8)
def bit01 (b : Bool) : Nat := if b then 1 else 0

/-- Table 15.4. -/
def State.measurements (s : State) : List MeasBlock :=
  let h := s.trust.image.toNat
  let m := s.trust.record
  [⟨1, .immutableRom, false, bytesLe 32 Config.romDigest.toNat⟩,
    ⟨2, .firmwareConfig, false, bytesLe 32 (Config.mfgDigest m.header m.body).toNat⟩,
    ⟨3, .mutableFirmware, false, bytesLe 32 (bitsAt h 511 256)⟩,
    ⟨4, .firmwareVersion, true, bytesLe 4 (bitsAt h 159 128) ++ bytesLe 2 (bitsAt h 111 96) ++ bytesLe 1 (bit01 s.trust.slot) ++
      bytesLe 1 (bit01 s.trust.fallback)⟩,
    ⟨5, .securityState, true, bytesLe 1 (s.fld Reg.secStatusLo 19 19) ++ bytesLe 1 (bit01 s.identity) ++ bytesLe 1 (bit01 s.pwr.safe.isSome) ++
      bytesLe 1 (s.pwr.safe.getD 0) ++ bytesLe 1 (s.fld Reg.secIde 0 0) ++ bytesLe 3 0⟩]

/-- GET_MEASUREMENTS: bit 0 of PARAM1 asks for a signature; PARAM2 is a block, 0 for none, 0xFF for all. -/
def execGetMeasurements (r : SpdmReq) (s : State) : Result :=
  .next (s.spdmFor r 3 (r.param1.getLsbD 0) [] (fun s =>
    let ix := r.param2.toNat
    let blocks := s.measurements.filter (fun b => decide (ix = 255 ∨ b.index = ix))
    let n := s.random
    if ix ≠ 0 ∧ blocks = [] then s.spdmError .invalidRequest
    else if r.param1.getLsbD 0 then
      let g := n.2.sign ((blocks.map (fun b => b.value)).flatten)
      g.2.answer (.measurements n.1 blocks (some g.1))
    else n.2.answer (.measurements n.1 blocks none)))

/-- KEY_EXCHANGE (R423, R433): slot in PARAM2. An ephemeral key and a random value are drawn. -/
def State.openSession (s : State) (r : SpdmReq) : State :=
  let id : BitVec 32 := BitVec.ofNat 32 s.trust.nextSession
  let secret := s.trust.drbg
  let n := s.random.2.random
  let g := n.2.sign r.payload
  (g.2.setTrust { g.2.trust with
    sessions := g.2.trust.sessions ++ [{ id := id, peer := r.peer, secret := secret }]
    nextSession := g.2.trust.nextSession + 1 }).answer (.keyExchange id n.1 g.1)

def execKeyExchange (r : SpdmReq) (s : State) : Result :=
  .next (s.spdmIdent r (fun s =>
    if ¬ r.param2.toNat = 0 then s.spdmError .unsupportedRequest
    else if 16 ≤ s.trust.sessions.length then s.spdmError .sessionLimitExceeded
    else s.openSession r))

/-- The session that a request is carried in. -/
def State.sessionOf (s : State) (r : SpdmReq) : Option SpdmSession :=
  s.trust.sessions.find? (fun x => decide (some x.id = r.session ∧ x.peer = r.peer))

def State.endSession (s : State) (id : BitVec 32) : State :=
  s.setTrust { s.trust with sessions := s.trust.sessions.filter (fun x => !decide (x.id = id)) }
def State.modSession (s : State) (id : BitVec 32) (f : SpdmSession → SpdmSession) : State :=
  s.setTrust { s.trust with sessions := s.trust.sessions.map (fun x => if x.id = id then f x else x) }

/-- FINISH: a session whose FINISH fails is gone. -/
def execFinish (r : SpdmReq) (s : State) : Result :=
  .next (s.spdmIdent r (fun s =>
    match s.sessionOf r with
      | some x =>
        if x.ready then s.spdmError .unexpectedRequest
        else if r.valid then (s.modSession x.id (fun x => { x with ready := true })).answer .finish
        else (s.endSession x.id).spdmError .unspecified
      | none => s.spdmError .unexpectedRequest))

/-- A request that needs an established session and a message that passes its protection. -/
def State.inSession (s : State) (r : SpdmReq) (f : State → SpdmSession → State) : State :=
  match s.sessionOf r with
    | some x => if x.ready ∧ r.valid then f s x else s.spdmError .unexpectedRequest
    | none => s.spdmError .unexpectedRequest

def execHeartbeat (r : SpdmReq) (s : State) : Result :=
  .next (s.spdmIdent r (fun s => s.inSession r (fun s _ => s.answer .heartbeat)))

/-- The directions that a partner's KEY_UPDATE renews, by its key operation in PARAM1: 1 the partner's own, 2 both. -/
def renewed (r : SpdmReq) : List LinkDir :=
  if r.param1 = 1 then [.receive] else if r.param1 = 2 then [.receive, .transmit] else []

/-- KEY_UPDATE: on a link the new keys apply from the packet after its acknowledgement (R297). -/
def execKeyUpdate (r : SpdmReq) (s : State) : Result :=
  .next (s.spdmFor r 3 true (renewed r) (fun s => s.inSession r (fun s x =>
    (s.modSession x.id (fun x => { x with updates := x.updates + 1 })).answer .keyUpdate)))

def execEndSession (r : SpdmReq) (s : State) : Result :=
  .next (s.spdmIdent r (fun s => s.inSession r (fun s x => (s.endSession x.id).answer .endSession)))

/-! ### PCIe IDE (R436) -/

def noIde (_ : Nat) : IdeStream := {}

/-- A key takes its place. -/
def IdeStream.withKey (x : IdeStream) (at_ : IdeKeySlot) (key : BitVec 256) : IdeStream :=
  { x with keys := x.keys.filter (fun e => !decide (e.1 = at_)) ++ [(at_, key)] }

/-- IDE_KM: a key of a stream is programmed, and the stream is Secure. -/
def State.ideKey (s : State) (stream : Nat) (at_ : IdeKeySlot) (key : BitVec 256) : State :=
  let x := sget noIde s.trust.ide stream
  { s with
    trust := { s.trust with ide := sset noIde s.trust.ide stream { x.withKey at_ key with secure := true } }
    reply := .accepted }

/-- Only in a session of the PF, and with an identity (R424). -/
def execIdeKm (x : Ctx) (session : Option (BitVec 32)) (stream : Fin 9) (keySet : IdeKeySlot) (key : BitVec 256) (s : State) :
    Result :=
  let r : SpdmReq := { peer := .func x, session := session, param1 := 0, param2 := 0, payload := [], valid := true }
  .next (if !s.spdmServes r then s
    else if (x : Nat) = 0 ∧ s.identity ∧ (s.sessionOf r).any (fun y => y.ready) then s.ideKey stream keySet key
    else s.spdmError .unspecified)

def State.ideInsecure (s : State) (stream : Nat) : State :=
  s.setTrust { s.trust with ide := sset noIde s.trust.ide stream {} }

def execIdeIntegrityFail (stream : Fin 9) (s : State) : Result := .next (if s.powered then s.ideInsecure stream else s)

/-! ### The TAP and the debug lock (R437, R438) -/

/-- A public TAP instruction; `held`: only while PERST# is asserted. -/
def State.tapIr (s : State) (ir : TapIr) (held : Bool) (out : BitVec 512) : State :=
  if !s.pwr.railsOk then s
  else if held && !s.pwr.perst then { s with reply := .refused }
  else { s with trust := { s.trust with tap := ir }, reply := .tap out }

def execBypass (s : State) : Result := .next (s.tapIr .bypass false 0)
def execIdcode (s : State) : Result := .next (s.tapIr .idcode false (Config.idcode.setWidth 512))
/-- The pins' levels are captured into the boundary-scan register and shifted out. -/
def execSamplePreload (pins : BitVec 64) (s : State) : Result :=
  .next (if s.pwr.railsOk then
    ({ s with trust := { s.trust with boundary := pins } }).tapIr .sample false (pins.setWidth 512)
  else s)
def execExtest (s : State) : Result := .next (s.tapIr .extest true (s.trust.boundary.setWidth 512))
def execClamp (s : State) : Result := .next (s.tapIr .clamp true 0)
def execHighz (s : State) : Result := .next (s.tapIr .highz true 0)

def State.tapAlive (s : State) : Bool := s.powered && s.pwr.started

/-- DBG_CHAL: a fresh nonce, and the digest of the identity leaf certificate; refused after three failed responses. -/
def State.dbgChal (s : State) : State :=
  if !s.tapAlive then s
  else if 3 ≤ s.trust.fails then { s with reply := .refused }
  else
    let n := s.random
    { n.2 with
      trust := { n.2.trust with nonce := some (n.1, s.tick) }
      reply := .tap (n.1 ++ Config.leafDigest) }

def execDbgChal (s : State) : Result := .next s.dbgChal

def nonceLife : Nat := 10000000

/-- DBG_RESP: refused unchecked while PERMIT is 0 or TAINT is 1; otherwise it uses the nonce up. -/
def State.dbgResp (s : State) (verifies : Bool) : State :=
  if !s.tapAlive then s
  else if s.fld Reg.secDbg 0 0 = 0 ∨ s.fld Reg.secDbg 1 1 = 1 then { s with reply := .refused }
  else
    let live := s.trust.nonce.any (fun n => decide (s.tick < n.2 + nonceLife))
    if live && verifies then
      ({ s with trust := { s.trust with nonce := none, fails := 0 }, reply := .accepted }).atBoundary .unlock
    else { s with trust := { s.trust with nonce := none, fails := s.trust.fails + 1 }, reply := .refused }

def execDbgResp (_cert : List Byte) (_sig : List Byte) (verifies : Bool) (s : State) : Result := .next (s.dbgResp verifies)

/-- DEBUG_UNLOCK: the identity key and every session key are erased, every session ends, every IDE stream is Insecure, and the
Twine ports in use go to DOWN. -/
def State.debugUnlock (s : State) : State :=
  let s := (s.setFld Reg.secStatusLo 19 19 1).setFld Reg.secStatusLo 17 17 0
  let s := s.setTrust { s.trust with sessions := [], ide := [], identityKey := none }
  (List.range 8).foldl (fun s p =>
    if (s.port p).st = .disabled ∨ (s.port p).st = .down then s else s.portDown p) s

def execDebugUnlock (s : State) : Result :=
  .next (if s.rel.boundary.contains .unlock ∧ s.powered then (s.dropBoundary .unlock).debugUnlock else s)

def execNonceExpiry (s : State) : Result :=
  .next (match s.trust.nonce with
    | some n => if n.2 + nonceLife ≤ s.tick then s.setTrust { s.trust with nonce := none } else s
    | none => s)

end Sys2Proof.Machine
end

