-- ==== Sys2Proof/Machine/Power.lean ====
section
/-!
DEFINITION. Power states, thermal limits, resets, start-up and the tick (spec/14_power_clocks_events.md R392 to R421,
17_pins_package.md R459, R464 to R470).
-/

namespace Sys2Proof.Machine

/-! ### Pad hold (R411) -/

/-- Levels that the pins' own domains drive. -/
def State.pinLevels (s : State) : BitVec 9 :=
  BitVec.ofNat 9 ((if s.pwr.tripOut then 1 else 0) +
    ((List.range 8).map (fun p => if (s.port p).pauseOut then 2 ^ (p + 1) else 0)).sum)

/-- Hold pins at the levels they show. -/
def State.holdPads (s : State) (pins levels : BitVec 9) : State :=
  let now := (s.pwr.padLevel &&& s.pwr.padHold) ||| (levels &&& ~~~s.pwr.padHold)
  { s with pwr := { s.pwr with padHold := s.pwr.padHold ||| pins, padLevel := now } }

/-- Domains of the pins that are on: the trip pin's while any switched domain runs, a port's in P0 and P1. -/
def State.pinsDriven (s : State) : BitVec 9 :=
  if !s.powered || !s.pwr.started then 0
  else if s.pwr.state = .p2 ∨ s.pwr.hotOff ∨ s.pwr.bootFail then 1
  else BitVec.allOnes 9

/-- A hold ends at a boundary at which the driving domain is on and drives the held level. -/
def State.settlePads (s : State) : State :=
  let same := ~~~(s.pinLevels ^^^ s.pwr.padLevel)
  { s with pwr := { s.pwr with padHold := s.pwr.padHold &&& ~~~(s.pinsDriven &&& same) } }

/-- Before the ports' domains turn off, each pause output is driven asserted in PAUSE mode and deasserted otherwise. -/
def State.parkPauses (s : State) : State :=
  (List.range 8).foldl (fun s p => s.modPort p (fun x => { x with pauseOut := !s.creditMode p })) s

/-! ### Idleness (R405) -/

/-- One of the things that keep the device out of P1 is present. -/
def State.atWork (s : State) : Bool :=
  !s.serve.steps.isEmpty || s.serve.hanks.any (fun h => s.hankReady h) || !s.winder.queue.isEmpty ||
    s.winder.engines.any (fun e => e.2.desc.isSome || e.2.gov.any s.copyWanted) ||
    s.ctxs.any (fun e => !e.2.rowQ.isEmpty || (e.2.st == .running && !decide (e.2.sqHead = e.2.sqTail))) ||
    s.skeins.table.any (fun e => e.2.st == .moving || e.2.spillTo.isSome)

def State.idleEntry (s : State) : State :=
  let n := s.fld Reg.pwrIdle 19 0
  if s.serving ∧ s.pwr.state = .p0 ∧ ¬ s.pwr.drain ∧ ¬ n = 0 ∧ ¬ s.atWork ∧ s.pwr.busyAt + n ≤ s.tick then
    { s with pwr := { s.pwr with state := .p1, wakeAt := none } }
  else s

def execIdleEntry (s : State) : Result := .next s.idleEntry

/-- P1_WAKE: at the second boundary after the wake event. -/
def State.p1Wake (s : State) : State :=
  if s.pwr.state = .p1 ∧ s.pwr.wakeAt.any (fun t => decide (t + 2 ≤ s.tick)) then
    { s with pwr := { s.pwr with state := .p0, wakeAt := none, busyAt := s.tick } }
  else s

def execP1Wake (s : State) : Result := .next s.p1Wake

/-! ### P2 and P3 (R406 to R410) -/

/-- PWR_CTL.TARGET 0. -/
def State.targetRun (s : State) : State :=
  let s := s.setFld Reg.pwrCtl 1 0 0
  if s.pwr.state = .p2 then ({ s with pwr := { s.pwr with drain := false, drained := false } }).wakeFrom 3 else s.cancelDrain

/-- PWR_CTL.TARGET 2 or 3. -/
def State.targetLow (s : State) (t : Nat) : State :=
  if s.pwr.state = .p2 ∧ t = 2 then s
  else
    let ask := (s.input 0).taken 0 && !(s.input 0).stuck && decide (s.fld Reg.pwrWakeEn 0 0 = 1)
    let s := s.setFld Reg.pwrCtl 1 0 t
    { s with pwr := { s.pwr with drain := true, drained := s.pwr.drained || s.pwr.state == .p2, wakeReq := ask } }

def execPwrTargetRun (s : State) : Result := .next (s.pfWrite State.targetRun)
def execPwrTargetBobbin (s : State) : Result := .next (s.pfWrite (fun s => s.targetLow 2))
def execPwrTargetStandby (s : State) : Result := .next (s.pfWrite (fun s => s.targetLow 3))

/-- Work in flight has run to its end. -/
def State.inFlight (s : State) : Bool :=
  !s.serve.steps.isEmpty || s.winder.engines.any (fun e => e.2.desc.isSome || e.2.gov.any s.copyWanted) ||
    s.ctxs.any (fun e => e.2.rowQ.any (fun r => r.started)) ||
    s.spindles.any (fun e => e.2.run.isSome || !e.2.queue.isEmpty) ||
    s.skeins.table.any (fun e => e.2.st == .moving || e.2.spillTo.isSome) ||
    s.cores.any (fun e => e.2.stream.isSome || !e.2.fetches.isEmpty || !e.2.puts.isEmpty) || !s.twine.reqs.isEmpty

/-- Region j is kept in BOBBIN. -/
def State.retains (s : State) (j : Nat) : Bool :=
  if j < 32 then (s.reg Reg.pwrRegionLo).getLsbD j else (s.reg Reg.pwrRegionHi).getLsbD (j - 32)

/-- Step 3 of R406. Table lines have one copy in this model, which nothing needs to write back. -/
def State.drainEnd (s : State) : State :=
  let gone := (s.skeins.table.filter (fun e => e.2.st == .resident && !s.retains (e.2.block / 65536))).map Prod.fst
  let s := gone.foldl (fun s h => s.loseSkein h false) s
  let s := s.disablePorts true
  { s with pwr := { s.pwr with drained := true, lowAt := s.tick } }

/-- What the domains that turn off in P2 lose: all SRAM but what PWR_BOBBIN_SRAM retains. -/
def State.loseSram (s : State) : State :=
  let spad (p : Nat) : Bool := (s.reg Reg.pwrSram).getLsbD (8 + p / 19)
  let ssb (k : Nat) : Bool := (s.reg Reg.pwrSram).getLsbD k
  { s with
    spads := { s.spads with
      written := s.spads.written.filter (fun k => spad (k / 32768))
      poison := s.spads.poison.filter (fun k => spad (k / 32768))
      unsealed := s.spads.unsealed.filter (fun k => spad (k / 32768))
      acc := []
      vregs := [] }
    mem := { s.mem with staging := s.mem.staging.filter (fun (e : Nat × List StagedLine) => ssb (e.1 / 20480)), thread := [] }
    rel := { s.rel with
      ssb := s.rel.ssb.filter (fun c => ssb (c.1 / 2 ^ 25))
      ssbChk := s.rel.ssbChk.filter (fun c => ssb (c.1 / (3 * 2 ^ 20))) }
    cores := s.cores.map (fun (e : Nat × CoreSt) => (e.1, { e.2 with
      pipe := {}, async := [], farHeld := [], farBytes := []
      lastCtx := match e.2.map.phys with
        | some p => if spad p then e.2.lastCtx else none
        | none => none }))
    spindles := s.spindles.map (fun (e : Nat × Spindle) => (e.1, { e.2 with qb0 := none, qb1 := none, out := [] }))
    rowLogic := [] }

/-- The ports' pins are held. -/
def State.portsOff (s : State) : State := s.holdPads 0x1FE s.pinLevels

/-- Staged copies of lines of regions that `keep` does not name are gone (R61). -/
def State.unstageRegions (s : State) (keep : Nat → Bool) : State :=
  { s with mem := { s.mem with staging := s.mem.staging.map (fun (e : Nat × List StagedLine) =>
      (e.1, e.2.filter (fun x => keep (regionOf x.addr)))) } }

/-- BOBBIN_ENTRY: step 3 once work has drained, and step 4 at a later boundary. -/
def State.bobbinEntry (s : State) : State :=
  if ¬ s.serving ∨ ¬ s.pwr.drain ∨ ¬ s.fld Reg.pwrCtl 1 0 = 2 ∨ s.pwr.wakeSrc.isSome then s
  else if ¬ s.pwr.drained then (if s.inFlight then s else s.drainEnd)
  else if s.tick ≤ s.pwr.lowAt then s
  else if s.pwr.wakeReq then s.cancelDrain
  else
    let s := s.parkPauses.portsOff.loseSram
    { s with pwr := { s.pwr with state := .p2, drain := false, drained := false, lowAt := s.tick, wakeAt := none, heldReq := [] } }

def execBobbinEntry (s : State) : Result := .next s.bobbinEntry

/-- STANDBY_ENTRY: the link is in L2/L3 Ready. -/
def State.standbyEntry (s : State) : State :=
  if !s.powered || !s.pwr.ready || s.pwr.safe.isSome || !s.pwr.drain || !decide (s.fld Reg.pwrCtl 1 0 = 3) ||
      s.pwr.wakeSrc.isSome then s
  else if ¬ s.pwr.drained then (if s.inFlight then s else s.drainEnd)
  else if s.tick ≤ s.pwr.lowAt ∨ ¬ (s.ctx 0).d3hot then s
  else if s.pwr.wakeReq then s.cancelDrain
  else
    let s := s.parkPauses
    let s := s.holdPads 0x1FF s.pinLevels
    { s with pwr := { s.pwr with state := .p3, drain := false, drained := false, lowAt := s.tick, ready := false, smbOn := false, l1 := false } }

def execStandbyEntry (s : State) : Result := .next s.standbyEntry

/-- Region whose rows, or whose subarrays' spare rows, a row key names. -/
def keyRegion (rk : Nat) : Nat := if rk % 65792 < 65536 then rk % 65792 / 1024 else (rk % 65792 - 65536) / 4
def keyStack (rk : Nat) : Nat := rk / (1024 * 65792)

/-- Rows that `keep` does not name become zero and SEALED. -/
def State.zeroRows (s : State) (keep : Nat → Bool) : State :=
  { s with mem := { s.mem with
      data := s.mem.data.filter (fun c => keep (c.1 / 1024))
      chk := s.mem.chk.filter (fun c => keep (c.1 / 64))
      cls := s.mem.cls.filter (fun (e : Nat × RowClass) => keep e.1) } }

/-- A request that P2 held is answered. -/
def State.answerHeld (s : State) (q : Instr × Nat) : State :=
  match q.1 with
  | .ctxDbSq x v => nextOr (execCtxDbSq x v s) s
  | .ctxDbCq x v => nextOr (execCtxDbCq x v s) s
  | .ctxDbEq x v => nextOr (execCtxDbEq x v s) s
  | .ctxDbTally x v => nextOr (execCtxDbTally x v s) s
  | .ctxDbTq x c v => nextOr (execCtxDbTq x c v s) s
  | .bar4Read x o n =>
    let t := ({ s with reply := .none } : State).bar4 x o.toNat q.1 true (fun _ s => s.bar4ReadNow x o.toNat n q.2)
    match t.reply with
    | .data b ep => t.send (.bar4Read x (some (b, ep)))
    | .unsupportedRequest => t.send (.bar4Read x none)
    | _ => t
  | .bar4Write x o d => s.bar4 x o.toNat q.1 false (fun _ s => s.bar4WriteNow x o.toNat d q.2)
  | _ => s

/-- BOBBIN_WAKE: back to P0. -/
def State.bobbinWake (s : State) : State :=
  if ¬ s.pwr.state = .p2 ∨ s.pwr.wakeSrc.isNone ∨ ¬ s.powered then s
  else
    let s := (s.zeroRows (fun rk => s.retains (keyRegion rk))).unstageRegions s.retains
    let s := s.setFld Reg.pwrCtl 1 0 0
    let held := s.pwr.heldReq
    let s : State := { s with pwr := { s.pwr with
        state := .p0, wakeSrc := none, wakeReq := false, drain := false, drained := false, heldReq := [], busyAt := s.tick } }
    let s := (List.range 8).foldl (fun s p => if s.portEnabled p ∧ (s.port p).st = .disabled then s.trainPort p else s) s
    held.foldl (fun s c => s.answerHeld c) s.settlePads

def execBobbinWake (s : State) : Result := .next s.bobbinWake

/-- WAKE_TIMER_EXPIRY. -/
def State.wakeTimer (s : State) : State :=
  let n := (s.reg Reg.pwrWakeTimer).toNat
  if (s.pwr.state = .p2 ∨ s.pwr.state = .p3) ∧ s.fld Reg.pwrWakeEn 1 1 = 1 ∧ ¬ n = 0 ∧ s.pwr.lowAt + n ≤ s.tick then s.wakeFrom 4
  else s

def execWakeTimerExpiry (s : State) : Result := .next s.wakeTimer

/-! ### Thermal limits (R413 to R416); readings in units of 0.25 °C -/

/-- Throttled by a reading: it begins at the threshold and ends 5 °C below. -/
def throttles (was : Bool) (t thr : Int) : Bool := if thr ≤ t then true else if t ≤ thr - 20 then false else was

def setBit8 (m : BitVec 8) (k : Nat) (on : Bool) : BitVec 8 :=
  if on then m ||| BitVec.ofNat 8 (2 ^ k) else m &&& ~~~(BitVec.ofNat 8 (2 ^ k))

def noHot (_ : Nat) : Option Nat := none

/-- The reading of a stack: refresh rate, throttle, and since when it has been 5 °C above. -/
def State.stackReading (s : State) (k : Nat) (t thr : Int) : State :=
  let hot := throttles (s.pwr.stkHot.getLsbD k) t thr
  let since := if thr + 20 ≤ t then some ((sget noHot s.pwr.hotSince k).getD s.tick) else none
  let begins := hot && !s.pwr.stkHot.getLsbD k
  { s with pwr := { s.pwr with
      refresh2 := setBit8 s.pwr.refresh2 k (decide (340 < t))
      stkHot := setBit8 s.pwr.stkHot k hot
      hotSince := sset noHot s.pwr.hotSince k since
      deepHot := if hot then s.pwr.deepHot else setBit8 s.pwr.deepHot k false
      smbAlert := s.pwr.smbAlert || begins } }

def State.millReading (s : State) (t thr : Int) : State :=
  let hot := throttles s.pwr.millHot t thr
  { s with pwr := { s.pwr with millHot := hot, smbAlert := s.pwr.smbAlert || (hot && !s.millThrottled) } }

/-- A stack at or above its trip temperature is powered down, and its data are lost. -/
def State.tripStack (s : State) (k : Nat) : State :=
  let s := s.zeroRows (fun rk => !decide (keyStack rk = k))
  { s with
    pwr := { s.pwr with tripped := setBit8 s.pwr.tripped k true }
    mem := { s.mem with staging := s.mem.staging.filter (fun (e : Nat × List StagedLine) => !decide (e.1 / 20480 = k)) } }

/-- Every core, Winder engine, Twine port and Spindle domain is off (R416): what was under way there never completes, and their
SRAM is lost. -/
def State.millOff (s : State) : State :=
  let s := s.stopWork
  { s with
    pwr := { s.pwr with hotOff := true }
    spads := {}
    cores := s.cores.map (fun (e : Nat × CoreSt) => (e.1, { e.2 with pipe := {}, lastCtx := none, wordLoc := none }))
    spindles := s.spindles.map (fun (e : Nat × Spindle) => (e.1, { e.2 with qb0 := none, qb1 := none, out := [] })) }

/-- The trip of R416: SAFE mode at the next boundary, the ports' pins held. -/
def State.trip (s : State) (hot : List Nat) : State :=
  let s : State := { s with pwr := { s.pwr with tripOut := true, smbAlert := true } }
  let s := s.portsOff.millOff
  let s := hot.foldl (fun s k => s.tripStack k) s
  if s.pwr.safe.isNone then s.atBoundary (.safe 1) else s

/-- The critical reading: every switched domain is off. -/
def State.criticalOff (s : State) : State :=
  let s := s.zeroRows (fun _ => false)
  let s := s.holdPads 0x1FF s.pinLevels
  { s with pwr := { s.pwr with critical := true, smbOn := false, ready := false } }

/-- TEMP_REFRESH. -/
def State.tempRefresh (s : State) (mill : BitVec 16) (stk : List (BitVec 16)) : State :=
  if ¬ s.powered ∨ ¬ s.pwr.started ∨ ¬ s.tick % 100 = 0 then s
  else
    let t (k : Nat) : Int := (stk.getD k 0).toInt
    let m := mill.toInt
    let s := s.setReg Reg.pwrTempMill (mill.setWidth 32)
    let s := (List.range 8).foldl (fun s k => s.setReg (Reg.pwrTempStk k) ((stk.getD k 0).setWidth 32)) s
    let thrS : Int := 4 * (s.fld Reg.pwrTherm 7 0 : Int)
    let thrM : Int := 4 * (s.fld Reg.pwrTherm 15 8 : Int)
    let s := (List.range 8).foldl (fun s k => s.stackReading k (t k) thrS) (s.millReading m thrM)
    let hot := (List.range 8).filter (fun k => decide (420 ≤ t k))
    let s := if hot ≠ [] ∨ 440 ≤ m then s.trip hot else s
    if 480 ≤ m ∨ (List.range 8).any (fun k => decide (460 ≤ t k)) then s.criticalOff else s

def execTempRefresh (mill : BitVec 16) (stk : List (BitVec 16)) (s : State) : Result := .next (s.tempRefresh mill stk)

/-- THROTTLE_ESCALATE: 1,000 further ticks 5 °C above the threshold. -/
def execThrottleEscalate (k : Stack) (s : State) : Result :=
  .next (if s.powered ∧ s.pwr.stkHot.getLsbD k ∧ (sget noHot s.pwr.hotSince k).any (fun t => decide (t + 1000 ≤ s.tick)) then
    { s with pwr := { s.pwr with deepHot := setBit8 s.pwr.deepHot k true } }
  else s)

/-! ### The PCIe link (R412, R421) -/

def execL1Entry (s : State) : Result :=
  .next (if s.powered ∧ ¬ s.fld Reg.hifLink 3 0 = 0 then { s with pwr := { s.pwr with l1 := true } } else s)
def execAspmL1Exit (s : State) : Result :=
  .next (if s.powered then { s with pwr := { s.pwr with l1 := false } } else s)

/-- PCIE_LINK_UP; 64 GT/s runs in FLIT mode. -/
def execPcieLinkUp (speed : BitVec 4) (width : BitVec 5) (s : State) : Result :=
  .next (if s.powered ∧ s.pwr.started then
    (s.setReg Reg.hifLink (BitVec.ofNat 32 (speed.toNat + 16 * width.toNat + (if speed = 6 then 2 ^ 12 else 0))))
  else s)

/-- FUNCTION_D3HOT_CHANGE: a configuration write, answered from READY on, or after a failed boot (R421). -/
def execFunctionD3hotChange (x : Ctx) (d3hot : Bool) (s : State) : Result :=
  .next (s.cfgRequest (fun s => s.modCtx x (fun y => { y with d3hot := d3hot })))

/-! ### Resets (R417 to R419, Table 14.9) -/

/-- Stacks that a warm reset does not retain. -/
def State.stackHot (s : State) (k : Nat) : Bool :=
  s.pwr.tripped.getLsbD k || decide (420 ≤ ((s.reg (Reg.pwrTempStk k)).setWidth 16).toInt)
def State.stackFresh (s : State) (k : Nat) : Bool := s.stackIsLost k || s.stackHot k

/-- Registers that keep their values over a reset: the last-wake record but at power-on; over a warm reset also the region
modes, bank disables, PWR_BOBBIN_ fields, the log's tail, what boot verification loaded, and TAINT. -/
def keptReg (k : ResetKind) (off : Nat) : Bool :=
  match k with
  | .powerOn => false
  | .cold => decide (off = Reg.pwrLastWake0 ∨ off = Reg.pwrLastWake1)
  | .warm => decide (off = Reg.pwrLastWake0 ∨ off = Reg.pwrLastWake1 ∨ off = Reg.eccLogTail ∨ off = Reg.secStatusLo ∨
      off = Reg.secStatusHi ∨ off = Reg.pwrRegionLo ∨ off = Reg.pwrRegionHi ∨ off = Reg.pwrSram ∨
      (Reg.stkRmode 0 ≤ off ∧ off ≤ Reg.stkRmode 3) ∨ (Reg.eccBankDisLo 0 ≤ off ∧ off ≤ Reg.eccBankDisHi 127))

def State.keptRegs (s : State) (k : ResetKind) : Sparse Word :=
  let regs := s.regs.filter (fun e => keptReg k e.1)
  if k = .warm ∧ s.fld Reg.secDbg 1 1 = 1 then sset regReset regs Reg.secDbg 2 else regs

/-- Memory after a reset: zero and SEALED but for what a warm reset retains. -/
def State.keptMem (s : State) (k : ResetKind) : Mem :=
  if k = .warm then
    (let m := (s.zeroRows (fun rk => decide (keyRegion rk < 62) && !s.stackFresh (keyStack rk))).mem
     { data := m.data, chk := m.chk, cls := m.cls })
  else {}

/-- A bank of the group is disabled. -/
def State.groupDisabled (s : State) (n : Nat) : Bool :=
  (List.range 4).any (fun i => s.bankDisabled ⟨n / 256, n / 16 % 16, n % 16 * 4 + i, 0, 0⟩)

/-- The Skein machinery after a reset: empty; over a warm reset withheld and lost blocks of the stacks retained stay so, and
every block of a SKEIN region counts as not zeroed (R180, R364). -/
def State.keptSkeins (s : State) (k : ResetKind) : Skeins :=
  if k = .warm then
    (let old (b : Nat) : Bool := !s.stackFresh (s.blockSpindle b / 256)
     { regDirty := (List.range 62).filter (fun j => decide (s.rmode j = 2))
       withheld := s.skeins.withheld.filter old
       withheldBg := s.skeins.withheldBg.filter (fun n => !s.stackFresh (n / 256) || s.groupDisabled n)
       released := s.skeins.released.filter old
       lost := s.skeins.lost.filter old })
  else {}

/-- The root of trust after a reset: an update is given up, sessions, nonce and IDE keys are gone. -/
def State.keptTrust (s : State) (k : ResetKind) : Trust :=
  let t := s.dropUpdate.trust
  { t with
    fw := .idle
    reason := 0
    sessions := []
    conn := []
    ide := []
    nonce := none
    fails := if k = .warm then t.fails else 0
    tap := if k = .powerOn then .idcode else t.tap
    halted := false }

/-- What a reset of a kind leaves, before start-up. THERM_TRIP_OUT# stays asserted over a warm reset only (R416). The numbers of the
links' keys go on, so that no key is used again (R297). -/
def State.cleared (s : State) (k : ResetKind) : State :=
  let lv := s.pinLevels
  let held := s.holdPads 0x1FF lv
  let warm : Bool := k == .warm
  { ({} : State) with
    pending := s.pending
    tick := if k = .powerOn then 0 else s.tick
    regs := s.keptRegs k
    mem := s.keptMem k
    skeins := s.keptSkeins k
    rel := if warm then { log := s.rel.log, logHead := s.rel.logHead, logLost := s.rel.logLost, retire := s.rel.retire } else {}
    pwr := {
      inputs := if k = .powerOn then [] else s.pwr.inputs
      padHold := 0x1FF
      padLevel := if k = .powerOn then 0 else if warm then held.pwr.padLevel else held.pwr.padLevel &&& 0x1FE
      tripOut := warm && s.pwr.tripOut
      perst := s.pwr.perst
      railsOk := s.pwr.railsOk
      railsLow := s.pwr.railsLow
      aonOk := s.pwr.aonOk
      smbStraps := s.pwr.smbStraps }
    trust := s.keptTrust k
    twine := { ports := (List.range 8).foldl (fun t p =>
      sset noPort t p { txGen := (s.port p).txGen, rxGen := (s.port p).rxGen }) [] }
    toHost := s.toHost
    drawn := s.drawn }

/-! ### Start-up (Table 14.10) -/

/-- A decoder that failed the self-test is logged with the pattern it failed, and counted (R381). -/
def State.selfTestFail (s : State) (unit : Nat) : State :=
  let d := s.draw
  let s := d.2.log { typ := 0x0E, unit := unit, source := 9, info := d.1 % 82 }
  s.setFld Reg.eccSelftest 15 0 (s.fld Reg.eccSelftest 15 0 + 1)

/-- Steps 5 to 7: the maps, the stacks, the self-test. -/
def State.applyMaps (s : State) (env : BootEnv) : State :=
  let s := s.rebuildMap ((env.repairMap ++ env.coresFail).map Fin.val)
  let s := env.stacksFail.foldl (fun s k => s.loseStack k) s
  let s := env.coresFail.foldl (fun s p =>
    (s.selfTestFail p).log { typ := 0x09, status := 0x0C, unit := p, info := 1 }) s
  let s := env.spindlesFail.foldl (fun s n => (s.selfTestFail n).killSpindle n 1 false) s
  env.checkersFail.foldl (fun s (k : Stack) => (s.selfTestFail (k : Nat)).loseStack k) s

/-- The start-up sequence up to step 9; READY is a command of its own. With the production-test balls tied, the device stays
in reset (R459). -/
def State.startUp (s : State) (k : ResetKind) (env : BootEnv) : State :=
  if !env.testBallsOpen then s
  else
    let b := if k = .warm then (true, s) else s.bootVerify env
    let s := b.2.setFld Reg.clkStat 0 0 1
    let s : State := { s with pwr := { s.pwr with started := true } }
    if b.1 then
      (let s := s.applyMaps env
       let s : State := { s with pwr := { s.pwr with smbOn := true, busyAt := s.tick }, rel := { s.rel with wdogAt := s.tick } }
       s.settlePads)
    else ({ s with pwr := { s.pwr with bootFail := true } }).enterSafe 2

/-- Start-up runs while rails and AON_CLK hold and PERST# is released. -/
def State.startIfReleased (s : State) (k : ResetKind) (env : BootEnv) : State :=
  if s.pwr.railsOk ∧ s.pwr.aonOk ∧ ¬ s.pwr.perst then s.startUp k env else s

/-- POWER_ON_RESET: the rails have risen; the straps are sampled (R469). -/
def State.powerOn (s : State) (env : BootEnv) : State :=
  let s := s.cleared .powerOn
  let s : State := { s with pwr := { s.pwr with railsOk := true, railsLow := [], aonOk := env.aonClkOk, smbStraps := env.smbStraps } }
  s.startIfReleased .powerOn env

def execPowerOnReset (env : BootEnv) (s : State) : Result := .next (s.powerOn env)

/-- A reset that the rails and AON_CLK let run. -/
def State.deviceReset (s : State) (k : ResetKind) (env : BootEnv) : State := (s.cleared k).startIfReleased k env

/-- COLD_RESET: PERST#, GLB_RESET COLD, or a wake from P3. -/
def State.coldReset (s : State) (env : BootEnv) : State :=
  if s.pwr.railsOk ∧ s.pwr.aonOk ∧
      (s.pwr.perst ∨ s.pwr.resetReq = some true ∨ (s.pwr.state = .p3 ∧ s.pwr.wakeSrc.isSome)) then
    s.deviceReset .cold env
  else s

def execColdReset (env : BootEnv) (s : State) : Result := .next (s.coldReset env)

/-- WARM_RESET: GLB_RESET WARM or an event of the link. A cold trigger takes effect over it; after a failed boot it runs as a
cold reset (R420). -/
def State.warmReset (s : State) (env : BootEnv) : State :=
  if !s.powered || !s.pwr.started || decide (s.pwr.resetReq = some true) then s
  else if s.pwr.safe = some 2 then s.deviceReset .cold env
  else s.deviceReset .warm env

def execWarmReset (env : BootEnv) (s : State) : Result := .next (s.warmReset env)

/-- PERST_ASSERT: 25 AON cycles low (R401); it wakes the device from P2 and P3 (R410). -/
def State.perstAssert (s : State) (aonCycles : Nat) : State :=
  if aonCycles < 25 then s
  else if ¬ s.pwr.railsOk ∨ ¬ s.pwr.aonOk then { s with pwr := { s.pwr with perst := true } }
  else
    let s := if s.pwr.state = .p2 ∨ s.pwr.state = .p3 then s.recordWake 5 else s
    ({ s with pwr := { s.pwr with perst := true } }).cleared .cold

def execPerstAssert (aonCycles : Nat) (s : State) : Result := .next (s.perstAssert aonCycles)

/-- PERST_DEASSERT (R467). -/
def State.perstDeassert (s : State) (env : BootEnv) : State :=
  if !s.pwr.perst then s
  else ({ s with pwr := { s.pwr with perst := false, aonOk := s.pwr.aonOk && env.aonClkOk } }).startIfReleased .cold env

def execPerstDeassert (env : BootEnv) (s : State) : Result := .next (s.perstDeassert env)

/-- VDD_AON or VDD_IO18 is below its threshold: every OD-3V3 pin is high-impedance (R462). -/
def State.pinsFloat (s : State) : Bool := s.pwr.railsLow.any (fun r => r == .vddAon || r == .vddIo18)

/-- High-impedance pins are pulled up by the board: THERM_TRIP_OUT# and SMB_ALERT# are deasserted, every Tn_PAUSE_OUT is
asserted, and no pad hold drives them (R461, R462). -/
def State.floatPins (s : State) : State :=
  let s := (List.range 8).foldl (fun s p => s.modPort p (fun x => { x with pauseOut := true })) s
  { s with pwr := { s.pwr with tripOut := false, smbAlert := false, padHold := 0, padLevel := 0x1FE } }

/-- POWER_FAIL: a rail below its threshold for 2 µs (R465). The device stops; the pads keep their levels until the pins lose
their supply (R419, R462, R468). -/
def State.powerFail (s : State) (rail : Rail) : State :=
  let was := s.pinsFloat
  let s := if was then s else s.holdPads 0x1FF s.pinLevels
  let s := { s with pwr := { s.pwr with railsOk := false, railsLow := s.pwr.railsLow ++ [rail] } }
  if s.pinsFloat && !was then s.floatPins else s

def execPowerFail (f : RailFall) (s : State) : Result :=
  .next (if 2000 ≤ f.belowNs then s.powerFail f.rail else s)

/-- AON_CLK_LOSS and AON_CLK_RETURN (R464): the device is held in power-on reset meanwhile. -/
def execAonClkLoss (s : State) : Result := .next { s with pwr := { s.pwr with aonOk := false } }

def State.aonReturn (s : State) (env : BootEnv) : State :=
  if s.pwr.aonOk then s
  else
    let s := s.cleared .powerOn
    ({ s with pwr := { s.pwr with aonOk := true, smbStraps := env.smbStraps } }).startIfReleased .powerOn env

def execAonClkReturn (env : BootEnv) (s : State) : Result := .next (s.aonReturn env)

/-- READY: step 10; never after a failed boot (R421). -/
def execReady (s : State) : Result :=
  .next (if s.powered ∧ s.pwr.started ∧ ¬ s.pwr.bootFail then { s with pwr := { s.pwr with ready := true } } else s)

/-! ### The tick (R392, R397, R405, R411) -/

def popcount8 (m : BitVec 8) : Nat := ((List.range 8).filter (fun k => m.getLsbD k)).length

/-- Group-ticks of the steps that ran in this tick (R223). -/
def State.countGroupTicks (s : State) : State :=
  (s.serve.steps.filter (fun p => !s.serve.preempted.contains p.uid && p.waiting.isEmpty && p.switch.isNone)).foldl
    (fun s p =>
      let n := popcount8 p.mask
      let s := s.addStat p.ctx 1 n
      if p.lc then s else { s with serve := { s.serve with beTicks := s.serve.beTicks + n } }) s

/-- The next tick begins: its number, idleness, waiting Twine requests, units waiting to be re-admitted, pad holds, and a drain
that a doorbell has cancelled. -/
def State.tickBegins (s : State) : State :=
  let s := if s.serving then s.countGroupTicks else s
  let busy := s.atWork
  let t := s.tick + 1
  let s : State := { s with tick := t, pwr := { s.pwr with busyAt := if busy then t + 1 else s.pwr.busyAt } }
  let s := if s.pwr.drain ∧ s.pwr.wakeSrc.isSome ∧ ¬ s.pwr.state = .p2 then s.cancelDrain else s
  let s := (List.range 8).foldl (fun s p => if (s.port p).inReq = [] then s else s.serveAll p) s
  (if s.serving then s.settleAdmits else s).settlePads

end Sys2Proof.Machine
end

