-- ==== Sys2Proof/Machine/Registers.lean ====
section
/-!
DEFINITION. The register file as the host sees it (spec/00_scope.md R5 to R9, 12_host_interface.md R325 to R329, R352 to R356,
16_register_map.md): what a read returns, what a write does, configuration transactions, and the debug port of R437.
-/

namespace Sys2Proof.Machine

/-! ### Reads -/

def fwCode : FwSt → Nat
  | .idle => 0
  | .busy => 1
  | .done => 2
  | .failed => 3

def txnCode : TxnSt → Nat
  | .idle => 0
  | .open_ => 1
  | .committing => 2
  | .full => 3

/-- Start-up has passed step 5. -/
def State.mapped (s : State) : Bool := s.pwr.started && !s.pwr.bootFail

/-- GLB_CORE_MAP_c (R68, R442). -/
def State.coreMapReg (s : State) (c : Nat) : Nat :=
  let m := (s.core c).map
  if !s.mapped then 0
  else
    packFields [(0, 8, m.last.getD 255), (8, 4, match m.last with
      | some p => p / 19
      | none => c / 18), (16, 8, m.epoch.toNat), (24, 1, if m.phys.isSome then 0 else 1)]

/-- Counts of the core in GLB_CORE_SEL. -/
def State.coreCount (s : State) (i : Nat) : Nat :=
  let k := s.core (s.fld Reg.glbCoreSel 7 0)
  let t (f : Stream → Word) : Nat := match k.stream with
    | some x => (f x).toNat
    | none => 0
  match i with
  | 0 => t Stream.retired
  | 1 => t Stream.fetched
  | 2 => t Stream.produced
  | 3 => k.stall.toNat
  | 4 => k.insert.toNat
  | 5 => k.underrun.toNat
  | _ => k.holdCycles.toNat

def State.inputReg (s : State) (i : Nat) : Nat :=
  let x := s.input i
  packFields [(0, 1, if x.level then 1 else 0), (1, 1, if x.chatter then 1 else 0), (2, 1, if x.maskTo.isSome then 1 else 0),
    (3, 1, if x.stuck then 1 else 0)]

def State.portReg (s : State) (p : Nat) : Nat :=
  let x := s.port p
  let q := x.partner.getD (0, 0, false)
  packFields [(0, 3, x.st.code), (3, 1, if q.2.2 then 1 else 0), (4, 16, q.1), (20, 8, q.2.1)]

/-- SPD_MAP_n (R166 to R168, R452). -/
def State.spdMapReg (s : State) (n : Nat) : Nat :=
  let x := s.spindle n
  packFields [(0, 8, x.epoch.toNat), (8, 11, if x.state = .deadServed then buddyIx n else n), (20, 2, match x.state with
    | .alive => 0
    | .deadServed => 1
    | .deadUnserved => 2)]

/-- GOV_CTXn_STAT_i. -/
def State.statReg (s : State) (c i : Nat) : Nat :=
  let st (k : Nat) : Nat := (sget noStat s.serve.stats (8 * c + k)).toNat
  match i with
  | 0 => (sget noCharge s.serve.charged c).toNat
  | 1 => st 1 % 2 ^ 32
  | 2 => st 1 / 2 ^ 32
  | 6 => s.blocksHeld c
  | k => st k % 2 ^ 32

/-- Registers of the blocks from GLB_ to CLK_ that are computed. -/
def State.glbReg (s : State) (off : Nat) : Option Nat :=
  if off = Reg.glbStatus then some (if s.pwr.ready then 1 else 0)
  else if off = Reg.glbSafe then some (match s.pwr.safe with
    | some c => 1 + 16 * c
    | none => 0)
  else if off = Reg.glbCfgTxn then some (packFields [(4, 2, txnCode s.txn.st), (8, 2, s.txn.last), (16, 11, s.txn.count)])
  else if off = Reg.glbSpare then some (if s.mapped then s.spareCount else 0)
  else if inFamily off Reg.glbTqRetired 4 7 then some (s.coreCount ((off - Reg.glbTqRetired) / 4))
  else if inFamily off (Reg.glbCoreMap 0) 4 144 then some (s.coreMapReg ((off - Reg.glbCoreMap 0) / 4))
  else if off = Reg.clkTickLo then some s.tick32
  else if off = Reg.clkTickHi then some s.pwr.clkHi.toNat
  else none

/-- The same for the blocks from PWR_ to SKN_. -/
def State.midReg (s : State) (off : Nat) : Option Nat :=
  if off = Reg.pwrStat then some s.pwr.state.code
  else if off = Reg.pwrPadHold then some s.pwr.padHold.toNat
  else if inFamily off (Reg.pwrInStat 0) 4 10 then some (s.inputReg ((off - Reg.pwrInStat 0) / 4))
  else if off = Reg.secFwupStat then some (fwCode s.trust.fw + 16 * s.trust.reason)
  else if off = Reg.secFwupNextSeq then some s.trust.nextSeqNow
  else if off = Reg.eccLogHead then some s.rel.logHead.toNat
  else if off = Reg.eccLogLost then some s.rel.logLost.toNat
  else if off = Reg.eccRetData then
    some (sget (fun _ => (0 : Word)) s.rel.retire (s.fld Reg.eccRetIdx 11 8 * 256 + s.fld Reg.eccRetIdx 7 0)).toNat
  else if off = Reg.sknFree then some s.freeBlocks
  else none

/-- The same for the blocks from SPD_ up. -/
def State.highReg (s : State) (off : Nat) : Option Nat :=
  if inFamily off (Reg.spdBudgetHi 0) 8 8 then some (s.effectiveBudget ((off - Reg.spdBudgetHi 0) / 8))
  else if inFamily off (Reg.spdMap 0) 4 2048 then some (s.spdMapReg ((off - Reg.spdMap 0) / 4))
  else if off = Reg.twnRtData then some (sget noRoute s.twine.routes (s.fld Reg.twnRtIdx 15 0))
  else if off = Reg.twnPeerData then
    some (let x := s.peer (s.fld Reg.twnPeerIdx 15 0); x.epoch + (if x.dead then 256 else 0))
  else if inFamily off (Reg.twnPStat 0) 0x100 8 then some (s.portReg ((off - Reg.twnPStat 0) / 0x100))
  else if ctxBase 0 ≤ off ∧ off < ctxBase 64 then
    (let c := (off - ctxBase 0) / 0x10000
     let x := off % 0x10000
     if x = Reg.ringStat then some (s.ctx c).st.code
     else if inFamily x (Reg.govStat 0) 4 7 then some (s.statReg c ((x - Reg.govStat 0) / 4))
     else none)
  else none

/-- What a register reads as (R6, R8); an offset that no register occupies reads 0 (R325). -/
def State.readReg (s : State) (off : Nat) : Word :=
  let o : Option Nat := if off < pwrBase then s.glbReg off else if off < spdBase then s.midReg off else s.highReg off
  match o with
  | some v => BitVec.ofNat 32 v
  | none => if (regFields off).isSome then s.reg off else 0

/-! ### Configuration transactions (R352 to R356) -/

def State.setTxn (s : State) (t : Txn) : State := { s with txn := t }

def State.begin_ (s : State) : State :=
  if s.txn.st = .idle then s.setTxn { s.txn with st := .open_, count := 0, staged := [] } else s.logInvalid 0 Reg.glbCfgTxn 1

def State.commit (s : State) : State :=
  match s.txn.st with
  | .open_ => s.setTxn { s.txn with st := .committing, due := false }
  | .full => (s.setTxn { s.txn with st := .idle, count := 0, staged := [], last := 3 }).logInvalid 0 Reg.glbCfgTxn 2
  | _ => s.logInvalid 0 Reg.glbCfgTxn 2

def State.rollback (s : State) : State :=
  if s.txn.st = .open_ ∨ s.txn.st = .full then s.setTxn { s.txn with st := .idle, count := 0, staged := [], last := 2 }
  else s.logInvalid 0 Reg.glbCfgTxn 3

def execBegin (s : State) : Result := .next (s.pfWrite State.begin_)
def execCommit (s : State) : Result := .next (s.pfWrite State.commit)
def execRollback (s : State) : Result := .next (s.pfWrite State.rollback)

/-- Index in force of a window's data register (R445). -/
def State.windowIx (s : State) (off : Nat) : Nat :=
  if off = Reg.eccRetData then s.fld Reg.eccRetIdx 11 8 * 256 + s.fld Reg.eccRetIdx 7 0
  else if off = Reg.twnRtData then s.fld Reg.twnRtIdx 15 0
  else 0

def hasRwt (fs : List Field) : Bool := fs.any (fun f => f.ty == .rwt)

/-- The RWT fields of a write are staged, or form a one-write transaction (R7, R353). -/
def State.stageWrite (s : State) (off v : Nat) (fs : List Field) : State :=
  if !hasRwt fs then s
  else
    let mask := stagedMask v fs
    let bad := fs.any (fun f => f.ty == .rwt && !f.enc.admits (f.val v))
    let w : Staged := { off := off, idx := s.windowIx off, mask := mask, val := v }
    match s.txn.st with
    | .full => s
    | .committing => s.logInvalid 0 off v
    | .idle =>
      let s := if bad then s.logInvalid 0 off v else s
      if mask = 0 then s else s.setTxn { s.txn with fresh := s.txn.fresh ++ [w] }
    | .open_ =>
      let s := if bad then s.logInvalid 0 off v else s
      if mask = 0 then s
      else if s.txn.count = 1024 then s.setTxn { s.txn with st := .full }
      else s.setTxn { s.txn with count := s.txn.count + 1, staged := s.txn.staged ++ [w] }

/-! #### CFG_APPLY -/

/-- `old` with the bits of `mask` taken from `val`. -/
def mergeBits (old mask val : Nat) : Nat := Nat.xor old (Nat.land mask (Nat.xor old val))

def isWindow (off : Nat) : Bool := decide (off = Reg.eccRetData ∨ off = Reg.twnRtData)

/-- Every staged value in its register. -/
def State.putStaged (s : State) (ws : List Staged) : State :=
  ws.foldl (fun s w =>
    if isWindow w.off then s else s.setReg w.off (BitVec.ofNat 32 (mergeBits (s.reg w.off).toNat w.mask w.val))) s

/-- A register goes back to its value in `old`, and the failure is logged. -/
def State.revert (s old : State) (offs : List Nat) (at_ : Nat) : State :=
  let v := (s.reg at_).toNat
  (offs.foldl (fun s o => s.setReg o (old.reg o)) s).logInvalid 0 at_ v

/-- CTX_TC_RANGE (R270). -/
def State.checkRange (s old : State) (c : Nat) : State :=
  let lo := Reg.ctx c Reg.tcRangeLo
  let hi := Reg.ctx c Reg.tcRangeHi
  if s.reg lo = old.reg lo ∧ s.reg hi = old.reg hi then s
  else
    let base := s.fld lo 11 0
    let count := s.fld lo 28 16
    if 4096 < base + count ∨ count < s.fld hi 8 0 then s.revert old [lo, hi] lo else s

/-- TWN_Pn_PAUSE (R303). -/
def State.checkPause (s old : State) (p : Nat) : State :=
  let r := Reg.twnPPauseLo p
  if s.reg r = old.reg r ∨ s.fld r 31 16 + 1024 ≤ s.fld r 15 0 then s else s.revert old [r] r

/-- CTX_CTL.ENABLE while the device is unlocked for debug (R438). -/
def State.checkEnable (s old : State) (c : Nat) : State :=
  let r := Reg.ctx c Reg.ctxCtl
  if c = 0 ∨ old.enabled c ∨ ¬ s.enabled c ∨ ¬ s.fld Reg.secStatusLo 19 19 = 1 then s else s.revert old [r] r

/-- A region's mode (R112). -/
def State.checkMode (s old : State) (j : Nat) : State :=
  if s.rmode j = old.rmode j then s
  else if 62 ≤ j ∨ (old.rmode j = 2 ∧ s.skeins.owner.any (fun e => decide (e.1 / 65536 = j))) then
    (let q := Reg.stkRmode (j / 16)
     let v := (s.reg q).toNat
     (s.setFld q (2 * (j % 16) + 1) (2 * (j % 16)) (old.rmode j)).logInvalid 0 q v)
  else s

def noRetire (_ : Nat) : Word := 0
/-- Row that a retirement entry names. -/
def retireLoc (k : Nat) (e : Nat) : Loc := ⟨k, bitsAt e 5 2, bitsAt e 11 6, bitsAt e 27 12, 0⟩

/-- A retirement entry that R376 leaves unchanged: its row or its spare is another's, or a Skein lies there. -/
def State.retireBad (s : State) (t : Sparse Word) (i : Nat) : Bool :=
  let e := (sget noRetire t i).toNat
  let l := retireLoc (i / 256) e
  if !e.testBit 0 then false
  else
    t.any (fun o =>
      let x := o.2.toNat
      let m := retireLoc (i / 256) x
      decide (o.1 / 256 = i / 256 ∧ ¬ o.1 = i) && x.testBit 0 && decide (m.die = l.die ∧ m.bank = l.bank) &&
        (decide (m.row = l.row) || (decide (m.row / 512 = l.row / 512) && x.testBit 1 == e.testBit 1))) ||
    (decide (s.rmode (l.row / 1024) = 2) && (s.blockOwner (s.addrOf l / 2 ^ 17)).isSome)

/-- The staged retirement entries (R376): staged copies of the rows concerned are invalidated. -/
def State.applyRetire (s : State) (ws : List Staged) : State :=
  let mine := ws.filter (fun w => decide (w.off = Reg.eccRetData))
  let old := s.rel.retire
  let full := mine.foldl (fun (t : Sparse Word) w =>
    smod noRetire t w.idx (fun e => BitVec.ofNat 32 (mergeBits e.toNat w.mask w.val))) old
  ((mine.map Staged.idx).eraseDups).foldl (fun s i =>
    let v := sget noRetire full i
    let o := sget noRetire old i
    if v = o then s
    else if s.retireBad full i then s.logInvalid 0 Reg.eccRetData v.toNat
    else
      let s := (s.unstageRow (retireLoc (i / 256) o.toNat)).unstageRow (retireLoc (i / 256) v.toNat)
      { s with rel := { s.rel with retire := sset noRetire s.rel.retire i v } }) s

/-- The staged routes. -/
def State.applyRoutes (s : State) (ws : List Staged) : State :=
  (ws.filter (fun w => decide (w.off = Reg.twnRtData))).foldl (fun s w =>
    { s with twine := { s.twine with routes := smod noRoute s.twine.routes w.idx (fun e => mergeBits e w.mask w.val) } }) s

/-- A context is disabled: torn down if it holds work, then OFF (R328). -/
def State.disableCtx (s : State) (c : Nat) : State :=
  if (s.ctx c).closing.isSome then s.modCtx c (fun x => { x with closing := x.closing.map (fun k => { k with next := if k.next = 1 then 1 else 2 }) })
  else if (s.ctx c).st = .running ∨ (s.ctx c).st = .stopping then s.teardownFor c { cause := 0x06, next := 2 }
  else s.enter c .off

/-- A context is enabled or disabled (R328, R437). -/
def State.applyEnable (s old : State) (c : Nat) : State :=
  if old.enabled c = s.enabled c then s
  else if s.enabled c then
    (let s := if c = 0 then s else s.setFld Reg.secDbg 1 1 1
     (s.modCtx c Ctxs.fresh).enter c .idle)
  else s.disableCtx c

/-- A region takes its new mode: staged copies go, and on entry into SKEIN no block counts as zeroed (R111, R180). -/
def State.applyMode (s old : State) (j : Nat) : State :=
  if s.rmode j = old.rmode j then s
  else
    let s := { s with mem := { s.mem with staging := (s.mem.staging.map (fun (e : Nat × List StagedLine) =>
      (e.1, e.2.filter (fun x => !decide (regionOf x.addr = j))))).filter (fun e => !e.2.isEmpty) } }
    if s.rmode j = 2 then
      { s with skeins := { s.skeins with
          regDirty := nsAdd s.skeins.regDirty j
          clean := s.skeins.clean.filter (fun b => !decide (b / 65536 = j)) } }
    else s

/-- Banks newly disabled withhold their bank groups (R377). -/
def State.applyBanks (s old : State) (n : Nat) : State :=
  let was (b : Nat) : Bool := old.bankDisabled ⟨n / 16, n % 16, b, 0, 0⟩
  let is (b : Nat) : Bool := s.bankDisabled ⟨n / 16, n % 16, b, 0, 0⟩
  (List.range 16).foldl (fun s g =>
    if (List.range 4).any (fun i => is (4 * g + i) && !was (4 * g + i)) then s.withholdGroup (16 * n + g) else s) s

/-- A port's ENABLE and MODE (R303, R315): clearing ENABLE takes it to DISABLED; writing it as 1 gives a port that has spent its
retries a new set. PORT_ENABLE takes an enabled port from DISABLED to TRAIN. -/
def State.applyPort (s : State) (ws : List Staged) (p : Nat) : State :=
  if !ws.any (fun w => decide (w.off = Reg.twnPCtl p)) then s
  else
    let s := if ¬ s.portEnabled p ∧ ¬ (s.port p).st = .disabled then s.disablePort p true
      else if s.portEnabled p then s.modPort p (fun x => { x with spent := false, passes := 0 }) else s
    s.drivePause p

/-- Staged writes applied together, with the checks of R354 against the full set of new values. -/
def State.applyWrites (s : State) (ws : List Staged) : State :=
  let old := s
  let s := s.putStaged ws
  let s := (List.range 64).foldl (fun s c => (s.checkRange old c).checkEnable old c) s
  let s := (List.range 8).foldl (fun s p => s.checkPause old p) s
  let s := (List.range 64).foldl (fun s j => s.checkMode old j) s
  let s := (s.applyRetire ws).applyRoutes ws
  let s := (List.range 64).foldl (fun s j => s.applyMode old j) s
  let s := (List.range 128).foldl (fun s n =>
    if s.reg (Reg.eccBankDisLo n) = old.reg (Reg.eccBankDisLo n) ∧ s.reg (Reg.eccBankDisHi n) = old.reg (Reg.eccBankDisHi n) then s
    else s.applyBanks old n) s
  let s := (List.range 8).foldl (fun s p => s.applyPort ws p) s
  (List.range 64).foldl (fun s c => s.applyEnable old c) s

/-- CFG_APPLY: the one-write transactions of a tick and its COMMIT, together at the boundary after it (R354). -/
def State.cfgApply (s : State) : State :=
  let committing : Bool := s.txn.st == .committing && s.txn.due
  let ws := s.txn.single ++ (if committing then s.txn.staged else [])
  if ¬ committing ∧ ws = [] then s
  else
    let s := s.applyWrites ws
    let t : Txn := if committing then { fresh := s.txn.fresh } else s.txn
    (s.setTxn { t with single := [], last := 1 }).event 0 { ekind := 0x0B, aux := BitVec.ofNat 32 ws.length }

def execCfgApply (s : State) : Result := .next (if s.regAnswers then s.cfgApply else s)

/-! ### Captures (R176, R372, R392) -/

/-- Words of a captured structure, from a first register on. -/
def State.capture (s : State) (base v n : Nat) : State :=
  (List.range n).foldl (fun s w => s.setReg (base + 4 * w) (BitVec.ofNat 32 (v / 2 ^ (32 * w)))) s

def State.captureSkein (s : State) (v : Word) : State :=
  let h := bitsAt v.toNat 21 0
  (s.setReg Reg.sknRdHandle (BitVec.ofNat 32 h)).capture (Reg.sknRdData 0) (s.skein h).pack 4

def State.captureLog (s : State) (v : Word) : State :=
  (s.setReg Reg.eccLogSel v).capture (Reg.eccLogData 0) (sget noLog s.rel.log (v.toNat % 1024)).pack.toNat 8

def execSknRdHandle (v : Word) (s : State) : Result := .next (s.pfWrite (fun s => s.captureSkein v))

/-- BAR0 answers the PF, and in SAFE mode the registers of Table 16.10 (R387, R421). -/
def State.barAnswers (s : State) (func : Nat) : Bool :=
  s.powered && !(s.ctx func).d3hot && s.ideAdmits && (s.pwr.ready || (s.pwr.bootFail && s.pwr.safe.isSome))

def execEccLogSel (v : Word) (s : State) : Result := .next (if s.barAnswers 0 then s.touch.captureLog v else s)

/-- CLK_TICK_LO_READ: the high half is captured with the low (R392). -/
def execClkTickLoRead (s : State) : Result :=
  .next (if s.barAnswers 0 then
    (let s := s.touch
     { s with
       pwr := { s.pwr with clkHi := BitVec.ofNat 32 (s.tick / 2 ^ 32) }
       reply := .word (BitVec.ofNat 32 s.tick) })
  else { s with reply := .unsupportedRequest })

/-! ### Writes -/

/-- A WO field of the register is given a reserved encoding. -/
def woBad (v : Nat) (fs : List Field) : Bool := (writeFields (fun t => t == .wo) v fs 0).2

/-- ECC_LOG_TAIL: a value in [TAIL, HEAD] (R450). -/
def State.writeTail (s : State) (v : Nat) : State :=
  let t := s.logTail
  if (s.rel.logHead - t).toNat < (BitVec.ofNat 32 v - t).toNat then s.logInvalid 0 Reg.eccLogTail v
  else s.setReg Reg.eccLogTail (BitVec.ofNat 32 v)

/-- PWR_IN_STAT_i: CHATTER and STUCK clear unless their condition persists (R398, R448). -/
def State.clearInput (s : State) (i v : Nat) : State :=
  let x := s.input i
  s.setInput i { x with
    chatter := x.chatter && (!v.testBit 1 || x.maskTo.isSome)
    stuck := x.stuck && (!v.testBit 3 || x.taken i) }

/-- A self-test of a unit that the PF re-admits by a plain register write: what it finds is a free value. -/
def State.selfTest (s : State) : Bool × State :=
  let d := s.draw
  (d.1 % 2 == 0, d.2)

def State.coreCmd (s : State) (v : Nat) : State :=
  if bitsAt v 9 8 = 1 then s.coreDeclare (bitsAt v 7 0)
  else if bitsAt v 9 8 = 2 then (let t := s.selfTest; t.2.coreAdmit (bitsAt v 7 0) t.1)
  else s

def State.spdCmd (s : State) (v : Nat) : State :=
  if bitsAt v 13 12 = 1 then s.spdDeclare (bitsAt v 10 0)
  else if bitsAt v 13 12 = 2 then (let t := s.selfTest; t.2.spdAdmit (bitsAt v 10 0) t.1)
  else s

/-- ECC_WIN_CTL: the encodings of INDEX are those of the domain the write leaves (Table 16.4). -/
def State.writeWinCtl (s : State) (v : Nat) : State :=
  let off := Reg.eccWinCtl
  let domOk : Bool := decide (bitsAt v 1 0 ≤ 2)
  let dom := if domOk then bitsAt v 1 0 else s.fld off 1 0
  let ix := bitsAt v 15 8
  let ixOk : Bool := decide (dom = 0 ∨ (dom = 1 ∧ ix < 144) ∨ (dom = 2 ∧ ix < 8))
  let s := s.setFld off 1 0 dom
  let s := if ixOk then s.setFld off 15 8 ix else s
  if domOk && ixOk then s else s.logInvalid 0 off v

/-- What the WO fields of a BAR0 register below the context pages do. -/
def State.action (s : State) (off v : Nat) : State :=
  if off = Reg.glbReset then
    (if bitsAt v 1 0 = 1 then { s with pwr := { s.pwr with resetReq := some true } }
     else if bitsAt v 1 0 = 2 then { s with pwr := { s.pwr with resetReq := some (s.pwr.resetReq.getD false) } } else s)
  else if off = Reg.glbSafe then (if v.testBit 8 ∧ s.pwr.safe.isNone then s.atBoundary (.safe 6) else s)
  else if off = Reg.glbCfgTxn then
    (if bitsAt v 1 0 = 1 then s.begin_ else if bitsAt v 1 0 = 2 then s.commit else if bitsAt v 1 0 = 3 then s.rollback else s)
  else if off = Reg.glbCoreCmd then s.coreCmd v
  else if off = Reg.secFwupCmd then
    (if bitsAt v 1 0 = 1 then s.askStage else if bitsAt v 1 0 = 2 then s.dropUpdate else s)
  else if off = Reg.eccBlockRelease then s.blockRelease (BitVec.ofNat 32 v)
  else if off = Reg.eccWinCmd then
    (if bitsAt v 2 0 = 1 then s.readRaw else if bitsAt v 2 0 = 2 then s.writeData
     else if bitsAt v 2 0 = 3 then s.writeCheck else if bitsAt v 2 0 = 4 then s.writeBoth else s)
  else if off = Reg.stkCmd then s.stkCmd (BitVec.ofNat 32 v)
  else if off = Reg.spdCmd then s.spdCmd v
  else if off = Reg.twnXltCmd then
    (if bitsAt v 1 0 = 1 then s.xltRead else if bitsAt v 1 0 = 2 then s.xltWrite else s)
  else if off = Reg.twnPeerCmd then s.peerCmd v
  else s

/-- A write of a BAR0 register below the context pages. -/
def State.writeLow (s : State) (off v : Nat) (fs : List Field) : State :=
  if off = Reg.pwrCtl then
    (if bitsAt v 1 0 = 0 then s.targetRun else if bitsAt v 1 0 = 1 then s.logInvalid 0 off v else s.targetLow (bitsAt v 1 0))
  else if off = Reg.eccLogTail then s.writeTail v
  else if off = Reg.eccWinCtl then s.writeWinCtl v
  else if off = Reg.eccLogSel then s.captureLog (BitVec.ofNat 32 v)
  else if off = Reg.sknRdHandle then s.captureSkein (BitVec.ofNat 32 v)
  else if inFamily off (Reg.pwrInStat 0) 4 10 then s.clearInput ((off - Reg.pwrInStat 0) / 4) v
  else if woBad v fs then s.logInvalid 0 off v
  else ((s.writePlain 0 off off v).stageWrite off v fs).action off v

/-- A write into a context page, by function `func`; `page`: where the page lies in the BAR accessed (R326, R329, R345). -/
def State.writePage (s : State) (func page : Nat) (c : Ctx) (x v : Nat) : State :=
  let w : Word := BitVec.ofNat 32 v
  let ring : Bool := decide (0x100 ≤ x ∧ x < 0x12C)
  match regFields (ctxBase c + x) with
  | none => s.logInvalid func (page + x) v
  | some _ =>
    if x = 0x000 then nextOr (execCtxDbSq c w s) s
    else if x = 0x004 then nextOr (execCtxDbCq c w s) s
    else if x = 0x008 then nextOr (execCtxDbEq c w s) s
    else if x = 0x00C then nextOr (execCtxDbTally c w s) s
    else if 0x400 ≤ x then nextOr (execCtxDbTq c (Fin.ofNat 144 ((x - 0x400) / 4)) w s) s
    else if x = Reg.ringCtl then s.setRun func page c (v.testBit 0)
    else if x = Reg.tcSel then s.selectCounter func page c w
    else if ring && !((s.ctx c).st == .idle) then s.logInvalid func (page + x) v
    else s.writePlain func (page + x) (ctxBase c + x) v

/-- The MSI-X table and pending bits in a page (R343, Table 12.4): unmasking a pending vector sends it. -/
def State.writeMsix (s : State) (c x v : Nat) : State :=
  if 0x830 ≤ x then s
  else
    let o := x - 0x800
    let s := s.modCtx c (fun y => { y with msix := sset noMsix y.msix o (BitVec.ofNat 32 v) })
    if o % 16 = 12 ∧ ¬ v.testBit 0 ∧ (s.ctx c).pba.contains (o / 16) then
      (s.modCtx c (fun y => { y with pba := nsDel y.pba (o / 16) })).msix c (o / 16)
    else s

def isMsix (x : Nat) : Bool := decide ((0x800 ≤ x ∧ x < 0x830) ∨ (0xC00 ≤ x ∧ x < 0xC08))

/-- An aligned 32-bit write at a BAR0 offset. -/
def State.writeBar0 (s : State) (off v : Nat) : State :=
  if ctxBase 0 ≤ off ∧ off < ctxBase 64 ∧ off % 0x10000 < 0x1000 then
    (let c : Ctx := Fin.ofNat 64 ((off - ctxBase 0) / 0x10000)
     let x := off % 0x10000
     if isMsix x then s.writeMsix c x v else s.writePage 0 (ctxBase c) c x v)
  else
    match regFields off with
    | none => s.logInvalid 0 off v
    | some fs =>
      if ctxBase 0 ≤ off then
        (let s := s.stageWrite off v fs
         if off % 0x10000 = Reg.ctxCtl ∧ v.testBit 1 then s.resetCtx ((off - ctxBase 0) / 0x10000) else s)
      else s.writeLow off v fs

/-- Registers whose writes take effect in SAFE mode (Table 16.10). -/
def safeWrite (off : Nat) : Bool :=
  decide (off = Reg.glbReset ∨ off = Reg.secFwupAddrLo ∨ off = Reg.secFwupAddrHi ∨ off = Reg.secFwupLen ∨ off = Reg.secFwupCmd ∨
    off = Reg.eccLogTail ∨ off = Reg.eccLogSel) || inFamily off (Reg.pwrInStat 0) 4 10 || inFamily off (Reg.eccCeStat 0) 4 9

/-- Registers that answer reads in SAFE mode (Table 16.10). -/
def safeRead (off : Nat) : Bool :=
  safeWrite off ||
  decide (off = Reg.glbId ∨ off = Reg.glbCap ∨ off = Reg.glbStatus ∨ off = Reg.glbSafe ∨ off = Reg.glbSpare ∨
    off = Reg.glbStaleDrops ∨ off = Reg.hifLink ∨ off = Reg.clkTickLo ∨ off = Reg.clkTickHi ∨ off = Reg.clkStat ∨
    off = Reg.pwrStat ∨ off = Reg.pwrPower ∨ off = Reg.pwrPadHold ∨ off = Reg.secStatusLo ∨ off = Reg.secStatusHi ∨
    off = Reg.secFwupStat ∨ off = Reg.secFwupNextSeq ∨ off = Reg.eccLogHead ∨ off = Reg.eccLogLost ∨
    off = Reg.eccSelftest ∨ off = Reg.stkLost) ||
  inFamily off (Reg.glbCoreMap 0) 4 144 || inFamily off Reg.pwrTempMill 4 9 || inFamily off Reg.pwrLastWake0 4 2 ||
  inFamily off (Reg.eccLogData 0) 4 8 || inFamily off (Reg.eccCeCount 0) 4 9 || inFamily off (Reg.eccCarderPos 0) 16 8 ||
  inFamily off (Reg.eccCarderPass 0) 16 8

/-- A register write as it arrives: `func`'s own page, or BAR0. -/
def State.barWrite (s : State) (bar : BarAccess) (off size v : Nat) : State :=
  let func : Nat := match bar with
    | .bar0 => 0
    | .bar2 c => c
  if !s.barAnswers func then s
  else if s.pwr.safe.isSome then
    (match bar with
     | .bar0 =>
       if ¬ size = 4 ∨ ¬ off % 4 = 0 then (if safeRead (off / 4 * 4) then s.logInvalid 0 off v else s)
       else if safeWrite off then s.writeBar0 off v else s
     | .bar2 _ => s)
  else
    let s := s.touch
    match bar with
    | .bar0 => if ¬ size = 4 ∨ ¬ off % 4 = 0 then s.logInvalid 0 off v else s.writeBar0 off v
    | .bar2 c =>
      if 0x1000 ≤ off then s
      else if ¬ size = 4 ∨ ¬ off % 4 = 0 then s.logInvalid c off v
      else if (s.ctx c).st = .off then (if 0x100 ≤ off ∧ off < 0x12C then s.logInvalid c off v else s)
      else if isMsix off then s.writeMsix c off v
      else s.writePage c 0 c off v

/-- A register read as the bus makes it: CLK_TICK_LO captures the other half (R392). -/
def State.readCaptured (s : State) (off : Nat) : Word × State :=
  (s.readReg off, if off = Reg.clkTickLo then { s with pwr := { s.pwr with clkHi := BitVec.ofNat 32 (s.tick / 2 ^ 32) } } else s)

/-! ### Reads over the bus

No row of the opcode table is a register read, so nothing in `exec` calls these: they say what the host sees. -/

/-- A word of a context page, the MSI-X structures included (R343, Table 12.4). -/
def State.readPage (s : State) (c x : Nat) : Word :=
  if 0x800 ≤ x ∧ x < 0x830 then sget noMsix (s.ctx c).msix (x - 0x800)
  else if x = 0xC00 then BitVec.ofNat 32 ((List.range 3).map (fun v => if (s.ctx c).pba.contains v then 2 ^ v else 0)).sum
  else s.readReg (ctxBase c + x)

/-- A register read as it arrives: the answer, `none` for Unsupported Request, and what the read logs (R5, R325, R387). -/
def State.barRead (s : State) (bar : BarAccess) (off size : Nat) : Option Word × State :=
  let func : Nat := match bar with
    | .bar0 => 0
    | .bar2 c => c
  let ok : Bool := decide (size = 4 ∧ off % 4 = 0)
  if !s.barAnswers func then (none, s)
  else if s.pwr.safe.isSome then
    (match bar with
     | .bar0 =>
       if ok then (if safeRead off then (some (s.readCaptured off).1, (s.readCaptured off).2) else (some 0xFFFFFFFF, s))
       else (some 0xFFFFFFFF, if safeRead (off / 4 * 4) then s.logInvalid 0 off 0 else s)
     | .bar2 _ => (some 0xFFFFFFFF, s))
  else
    let s := s.touch
    match bar with
    | .bar0 =>
      if !ok then (some 0xFFFFFFFF, s.logInvalid 0 off 0)
      else if ctxBase 0 ≤ off ∧ off < ctxBase 64 ∧ off % 0x10000 < 0x1000 then
        (some (s.readPage ((off - ctxBase 0) / 0x10000) (off % 0x10000)), s)
      else (some (s.readCaptured off).1, (s.readCaptured off).2)
    | .bar2 c =>
      if !ok then (some 0xFFFFFFFF, s.logInvalid c off 0)
      else if 0x1000 ≤ off then (some 0, s)
      else (some (s.readPage c off), s)

def execRegisterWrite (bar : BarAccess) (off : BitVec 26) (size : Nat) (v : BitVec 64) (s : State) : Result :=
  .next (s.barWrite bar off.toNat size (v.toNat % 2 ^ (if size = 4 then 32 else 64)))

/-- RWT_WRITE: the write of a BAR0 register that holds RWT fields. -/
def execRwtWrite (off : BitVec 26) (v : Word) (s : State) : Result :=
  .next (if (regFields off.toNat).any hasRwt then s.barWrite .bar0 off.toNat 4 v.toNat else s)

/-! ### RECORD_ACCEPT (R334, R336) -/

/-- The record at the front of a ring is accepted, or refused, by its kind. -/
def State.takeAny (s : State) (x : Ctx) (r : Record) : State :=
  let k := recKind r
  if k = 0x01 then nextOr (execBarrier x r s) s
  else if k = 0x10 then nextOr (execHank x r s) s
  else if k = 0x11 then nextOr (execCancel x r s) s
  else if k = 0x12 then nextOr (execSeqRelease x r s) s
  else if k = 0x13 then nextOr (execSeqCompact x r s) s
  else if k = 0x20 then nextOr (execWinder x r s) s
  else if k = 0x30 then nextOr (execRowreq x r s) s
  else if k = 0x40 then nextOr (execStream x r s) s
  else if k = 0x50 then nextOr (execModelLoad x r s) s
  else if k = 0x51 then nextOr (execModelUnload x r s) s
  else if s.mayAccept x 1 then s.refuseRecord x k 0 (recTag r)
  else s

def execRecordAccept (x : Ctx) (rec : Record) (s : State) : Result := .next (s.takeAny x rec)

/-! ### DBG_ACCESS (R437) -/

/-- A 32-bit access at a device address, the reserved area included; the host window is the PF's. -/
def State.dbgMem (s : State) (a : Nat) (wr : Option Word) : State :=
  let there : Bool := match placeOf a with
    | .stacked => s.lineAnswers a (s.locate a)
    | .scratch c _ => (s.core c).map.phys.isSome
    | .window _ => true
    | .reserved => false
  if !there || decide (a % 4 ≠ 0) then { s with reply := .refused }
  else
    match wr with
    | some v => { s.govWrite 0 a (bytesOfNat 4 v.toNat) false with reply := .accepted }
    | none =>
      let r := s.govRead 0 a 4
      { r.2.2 with reply := .data (r.1.map (BitVec.ofNat 8)) (r.2.1.any id) }

def State.dbgAccess (s : State) (op : DbgOp) : State :=
  if !s.tapAlive then s
  else if ¬ s.fld Reg.secStatusLo 19 19 = 1 then { s with reply := .refused }
  else
    match op with
    | .reg off none =>
      if off.toNat % 4 = 0 then { (s.readCaptured off.toNat).2 with reply := .word (s.readCaptured off.toNat).1 }
      else { s.logInvalid 0 off.toNat 0 with reply := .word 0xFFFFFFFF }
    | .reg off (some v) =>
      { (if off.toNat % 4 = 0 then s.writeBar0 off.toNat v.toNat else s.logInvalid 0 off.toNat v.toNat) with reply := .accepted }
    | .mem a wr => s.dbgMem a.toNat wr
    | .halt => { s with trust := { s.trust with halted := true }, reply := .accepted }
    | .step => { s with reply := .accepted }
    | .resume => { s with trust := { s.trust with halted := false }, reply := .accepted }

def execDbgAccess (op : DbgOp) (s : State) : Result := .next (s.dbgAccess op)

end Sys2Proof.Machine
end

