-- ==== Sys2Proof/Machine/Sideband.lean ====
section
/-!
DEFINITION. SMBus telemetry (spec/17_pins_package.md R469, R470).
-/

namespace Sys2Proof.Machine

/-- The target acknowledges its address: from step 5 of start-up on, in P0, P1, P2 and SAFE mode. -/
def State.smbAnswers (s : State) : Bool := s.powered && s.pwr.smbOn

def State.smbAddress (s : State) : Nat := 0x58 + s.pwr.smbStraps.toNat

/-- A Block Read of `n` bytes. -/
def State.smbRead (s : State) (n v : Nat) : State :=
  if s.smbAnswers then { s with reply := .bytes ((bytesOfNat n v).map (BitVec.ofNat 8)) } else { s with reply := .nack }

/-- Table 17.7, command 0x01. -/
def State.smbStatusValue (s : State) : Nat :=
  packFields [(0, 8, s.pwr.state.code), (8, 1, if s.pwr.safe.isSome then 1 else 0), (12, 4, s.pwr.safe.getD 0),
    (16, 1, if s.pwr.ready then 1 else 0), (24, 1, if s.millThrottled then 1 else 0), (25, 8, s.pwr.stkHot.toNat)]

/-- Table 17.7, command 0x02. -/
def State.smbTempsValue (s : State) : Nat :=
  s.fld Reg.pwrTempMill 15 0 + ((List.range 8).map (fun k => s.fld (Reg.pwrTempStk k) 15 0 * 2 ^ (16 * (k + 1)))).sum

def execSmbStatus (s : State) : Result := .next (s.smbRead 5 s.smbStatusValue)
def execSmbTemps (s : State) : Result := .next (s.smbRead 18 s.smbTempsValue)
def execSmbPower (s : State) : Result := .next (s.smbRead 2 (s.fld Reg.pwrPower 15 0))
def execSmbId (s : State) : Result := .next (s.smbRead 4 (s.reg Reg.glbId).toNat)

/-- SMB_ALERT_RESPONSE: the device's own address in the upper seven bits. -/
def execSmbAlertResponse (s : State) : Result :=
  .next (if s.smbAnswers ∧ s.pwr.smbAlert then
    { s with pwr := { s.pwr with smbAlert := false }, reply := .bytes [BitVec.ofNat 8 (2 * s.smbAddress)] }
  else { s with reply := .nack })

/-- SMB_CLOCK_LOW_TIMEOUT: the target releases the bus, and what it was answering is lost. -/
def execSmbClockLowTimeout (ms : Nat) (s : State) : Result :=
  .next (if s.smbAnswers ∧ 25 + Config.smbSlack % 11 ≤ ms then { s with reply := .none } else s)

end Sys2Proof.Machine
end

