-- ==== Sys2Proof/Machine/Dispatch.lean ====
section
/-!
DEFINITION. The dispatch: one arm per command, each a direct call of its meaning.
-/

namespace Sys2Proof.Machine

def exec (i : Instr) (s : State) : Host.Outcome State Fault Refusal :=
  match i with
  | .exec c => Sys2Proof.Machine.execExec c s
  | .fetchLand c q host => Sys2Proof.Machine.execFetchLand c q host s
  | .putCommit c q => Sys2Proof.Machine.execPutCommit c q s
  | .agLocal c => Sys2Proof.Machine.execAgLocal c s
  | .agDev c => Sys2Proof.Machine.execAgDev c s
  | .waitSet c => Sys2Proof.Machine.execWaitSet c s
  | .srIndex c => Sys2Proof.Machine.execSrIndex c s
  | .endStream c => Sys2Proof.Machine.execEndStream c s
  | .waitSatisfied c cycles => Sys2Proof.Machine.execWaitSatisfied c cycles s
  | .fenceComplete c cycles => Sys2Proof.Machine.execFenceComplete c cycles s
  | .signal c => Sys2Proof.Machine.execSignal c s
  | .fetchHazardRelease c => Sys2Proof.Machine.execFetchHazardRelease c s
  | .fetchLimitRelease c cycles => Sys2Proof.Machine.execFetchLimitRelease c cycles s
  | .underrunResume c cycles => Sys2Proof.Machine.execUnderrunResume c cycles s
  | .holdLimitExpiry c => Sys2Proof.Machine.execHoldLimitExpiry c s
  | .asyncPortInsert c => Sys2Proof.Machine.execAsyncPortInsert c s
  | .niWrite c item slotFree => Sys2Proof.Machine.execNiWrite c item slotFree s
  | .xoRead c addr slotFree => Sys2Proof.Machine.execXoRead c addr slotFree s
  | .tqLineFetch c host => Sys2Proof.Machine.execTqLineFetch c host s
  | .ctxDbTq x c produced => Sys2Proof.Machine.execCtxDbTq x c produced s
  | .channelRead r path => Sys2Proof.Machine.execChannelRead r path s
  | .channelWrite addr data mask poison => Sys2Proof.Machine.execChannelWrite addr data mask poison s
  | .threadAccess k addr wr => Sys2Proof.Machine.execThreadAccess k addr wr s
  | .threadWindowWait k => Sys2Proof.Machine.execThreadWindowWait k s
  | .refresh k d b => Sys2Proof.Machine.execRefresh k d b s
  | .bar4Read x off len => Sys2Proof.Machine.execBar4Read x off len s
  | .bar4Write x off data => Sys2Proof.Machine.execBar4Write x off data s
  | .qload k ch x query => Sys2Proof.Machine.execQload k ch x query s
  | .scan k ch x => Sys2Proof.Machine.execScan k ch x s
  | .scanComplete e => Sys2Proof.Machine.execScanComplete e s
  | .scopy k ch x => Sys2Proof.Machine.execScopy k ch x s
  | .reseal k ch x => Sys2Proof.Machine.execReseal k ch x s
  | .mkraw k ch x => Sys2Proof.Machine.execMkraw k ch x s
  | .pread k ch x => Sys2Proof.Machine.execPread k ch x s
  | .rowCopy k ch x => Sys2Proof.Machine.execRowCopy k ch x s
  | .zero k ch x => Sys2Proof.Machine.execZero k ch x s
  | .notRow k ch x => Sys2Proof.Machine.execNotRow k ch x s
  | .andRow k ch x => Sys2Proof.Machine.execAndRow k ch x s
  | .orRow k ch x => Sys2Proof.Machine.execOrRow k ch x s
  | .xorRow k ch x => Sys2Proof.Machine.execXorRow k ch x s
  | .maj3 k ch x => Sys2Proof.Machine.execMaj3 k ch x s
  | .spindleCmdStart n => Sys2Proof.Machine.execSpindleCmdStart n s
  | .stepGrant k g => Sys2Proof.Machine.execStepGrant k g s
  | .budgetWindow k => Sys2Proof.Machine.execBudgetWindow k s
  | .busyBankServe k d b g => Sys2Proof.Machine.execBusyBankServe k d b g s
  | .stepAbort k d b g => Sys2Proof.Machine.execStepAbort k d b g s
  | .rowreq x rec => Sys2Proof.Machine.execRowreq x rec s
  | .rowreqComplete x => Sys2Proof.Machine.execRowreqComplete x s
  | .spindleDeclaredDead n => Sys2Proof.Machine.execSpindleDeclaredDead n s
  | .spdCmdDeclare n => Sys2Proof.Machine.execSpdCmdDeclare n s
  | .spdCmdAdmit n selfTestOk => Sys2Proof.Machine.execSpdCmdAdmit n selfTestOk s
  | .blockZero b stuck => Sys2Proof.Machine.execBlockZero b stuck s
  | .skeinRelocateStart h dest => Sys2Proof.Machine.execSkeinRelocateStart h dest s
  | .relocateComplete h => Sys2Proof.Machine.execRelocateComplete h s
  | .spillComplete h => Sys2Proof.Machine.execSpillComplete h s
  | .restoreComplete h block host => Sys2Proof.Machine.execRestoreComplete h block host s
  | .skeinTableLost line => Sys2Proof.Machine.execSkeinTableLost line s
  | .modelLoad x rec => Sys2Proof.Machine.execModelLoad x rec s
  | .modelUnload x rec => Sys2Proof.Machine.execModelUnload x rec s
  | .hank x rec => Sys2Proof.Machine.execHank x rec s
  | .cancel x rec => Sys2Proof.Machine.execCancel x rec s
  | .seqRelease x rec => Sys2Proof.Machine.execSeqRelease x rec s
  | .seqCompact x rec => Sys2Proof.Machine.execSeqCompact x rec s
  | .barrier x rec => Sys2Proof.Machine.execBarrier x rec s
  | .stream x rec => Sys2Proof.Machine.execStream x rec s
  | .selectionPass => Sys2Proof.Machine.execSelectionPass s
  | .phaseEnd step => Sys2Proof.Machine.execPhaseEnd step s
  | .attentionBegin step sub => Sys2Proof.Machine.execAttentionBegin step sub s
  | .prefillAppend step sub => Sys2Proof.Machine.execPrefillAppend step sub s
  | .mergeSlotReserve k => Sys2Proof.Machine.execMergeSlotReserve k s
  | .partialArrive k row pos check => Sys2Proof.Machine.execPartialArrive k row pos check s
  | .preemptSwitchEnd step => Sys2Proof.Machine.execPreemptSwitchEnd step s
  | .kvRetry => Sys2Proof.Machine.execKvRetry s
  | .kvWaitExpiry hank slot => Sys2Proof.Machine.execKvWaitExpiry hank slot s
  | .budgetWindowStart => Sys2Proof.Machine.execBudgetWindowStart s
  | .governorThrottle watts => Sys2Proof.Machine.execGovernorThrottle watts s
  | .quarantine m => Sys2Proof.Machine.execQuarantine m s
  | .mirrorRepair m stuck => Sys2Proof.Machine.execMirrorRepair m stuck s
  | .deadCoreStepRestart step => Sys2Proof.Machine.execDeadCoreStepRestart step s
  | .winder x rec => Sys2Proof.Machine.execWinder x rec s
  | .winderDispatch e => Sys2Proof.Machine.execWinderDispatch e s
  | .winderWaitSatisfied e => Sys2Proof.Machine.execWinderWaitSatisfied e s
  | .winderWaitTimeout e => Sys2Proof.Machine.execWinderWaitTimeout e s
  | .winderAccess e host => Sys2Proof.Machine.execWinderAccess e host s
  | .winderComplete e => Sys2Proof.Machine.execWinderComplete e s
  | .ctxDbTally x v => Sys2Proof.Machine.execCtxDbTally x v s
  | .ctxTcSel x v => Sys2Proof.Machine.execCtxTcSel x v s
  | .write p pkt => Sys2Proof.Machine.execWrite p pkt s
  | .read p pkt => Sys2Proof.Machine.execRead p pkt s
  | .rdata p pkt => Sys2Proof.Machine.execRdata p pkt s
  | .cack p pkt => Sys2Proof.Machine.execCack p pkt s
  | .nack p pkt => Sys2Proof.Machine.execNack p pkt s
  | .param p pkt => Sys2Proof.Machine.execParam p pkt s
  | .credit p pkt => Sys2Proof.Machine.execCredit p pkt s
  | .spdm p pkt => Sys2Proof.Machine.execSpdm p pkt s
  | .down p pkt => Sys2Proof.Machine.execDown p pkt s
  | .idle p item => Sys2Proof.Machine.execIdle p item s
  | .fill p item => Sys2Proof.Machine.execFill p item s
  | .egressPacketStart x => Sys2Proof.Machine.execEgressPacketStart x s
  | .creditReturnTimer p => Sys2Proof.Machine.execCreditReturnTimer p s
  | .creditWaitExpiry p cls => Sys2Proof.Machine.execCreditWaitExpiry p cls s
  | .keyUpdateStart p dir => Sys2Proof.Machine.execKeyUpdateStart p dir s
  | .keyUpdateExpiry p dir => Sys2Proof.Machine.execKeyUpdateExpiry p dir s
  | .requestTimeout tag => Sys2Proof.Machine.execRequestTimeout tag s
  | .tagFree tag => Sys2Proof.Machine.execTagFree tag s
  | .portEnable p => Sys2Proof.Machine.execPortEnable p s
  | .trainDone p => Sys2Proof.Machine.execTrainDone p s
  | .alignDone p skewNs => Sys2Proof.Machine.execAlignDone p skewNs s
  | .authDone p chainOk => Sys2Proof.Machine.execAuthDone p chainOk s
  | .portStateLimit p => Sys2Proof.Machine.execPortStateLimit p s
  | .linkFailure p why => Sys2Proof.Machine.execLinkFailure p why s
  | .downRetrain p => Sys2Proof.Machine.execDownRetrain p s
  | .pauseStuck p => Sys2Proof.Machine.execPauseStuck p s
  | .pauseInAccept p prev cur => Sys2Proof.Machine.execPauseInAccept p prev cur s
  | .alternateFailover node => Sys2Proof.Machine.execAlternateFailover node s
  | .twnPeerDeclare => Sys2Proof.Machine.execTwnPeerDeclare s
  | .twnPeerAdmit => Sys2Proof.Machine.execTwnPeerAdmit s
  | .twnXltRead => Sys2Proof.Machine.execTwnXltRead s
  | .twnXltWrite => Sys2Proof.Machine.execTwnXltWrite s
  | .ctxDbSq x tail => Sys2Proof.Machine.execCtxDbSq x tail s
  | .recordAccept x rec => Sys2Proof.Machine.execRecordAccept x rec s
  | .ringReadError x => Sys2Proof.Machine.execRingReadError x s
  | .ctxDbCq x head => Sys2Proof.Machine.execCtxDbCq x head s
  | .ctxDbEq x head => Sys2Proof.Machine.execCtxDbEq x head s
  | .flushReadComplete x ok => Sys2Proof.Machine.execFlushReadComplete x ok s
  | .irqDelayExpiry x => Sys2Proof.Machine.execIrqDelayExpiry x s
  | .ringStatusWrite x => Sys2Proof.Machine.execRingStatusWrite x s
  | .hostReadError x who bus => Sys2Proof.Machine.execHostReadError x who bus s
  | .ringCtlRun x run => Sys2Proof.Machine.execRingCtlRun x run s
  | .stoppingDone x => Sys2Proof.Machine.execStoppingDone x s
  | .ctxReset x => Sys2Proof.Machine.execCtxReset x s
  | .vfFlr x => Sys2Proof.Machine.execVfFlr x s
  | .pfFlr => Sys2Proof.Machine.execPfFlr s
  | .busMasterClear x => Sys2Proof.Machine.execBusMasterClear x s
  | .begin_ => Sys2Proof.Machine.execBegin s
  | .commit => Sys2Proof.Machine.execCommit s
  | .rollback => Sys2Proof.Machine.execRollback s
  | .rwtWrite off v => Sys2Proof.Machine.execRwtWrite off v s
  | .cfgApply => Sys2Proof.Machine.execCfgApply s
  | .registerWrite bar off size v => Sys2Proof.Machine.execRegisterWrite bar off size v s
  | .clkTickLoRead => Sys2Proof.Machine.execClkTickLoRead s
  | .sknRdHandle v => Sys2Proof.Machine.execSknRdHandle v s
  | .eccLogSel v => Sys2Proof.Machine.execEccLogSel v s
  | .ceLeak bucket => Sys2Proof.Machine.execCeLeak bucket s
  | .carderVisit k stuck => Sys2Proof.Machine.execCarderVisit k stuck s
  | .eccBlockRelease v => Sys2Proof.Machine.execEccBlockRelease v s
  | .readRaw => Sys2Proof.Machine.execReadRaw s
  | .writeData => Sys2Proof.Machine.execWriteData s
  | .writeCheck => Sys2Proof.Machine.execWriteCheck s
  | .writeBoth => Sys2Proof.Machine.execWriteBoth s
  | .coreDeclare p => Sys2Proof.Machine.execCoreDeclare p s
  | .coreAdmit p selfTestOk => Sys2Proof.Machine.execCoreAdmit p selfTestOk s
  | .coreDeclaredDead p => Sys2Proof.Machine.execCoreDeclaredDead p s
  | .coreStopTimeout c => Sys2Proof.Machine.execCoreStopTimeout c s
  | .spindleCmdTimeout n => Sys2Proof.Machine.execSpindleCmdTimeout n s
  | .stkCmdLost v => Sys2Proof.Machine.execStkCmdLost v s
  | .stackLost k => Sys2Proof.Machine.execStackLost k s
  | .stackUnanswered k => Sys2Proof.Machine.execStackUnanswered k s
  | .safeEntry => Sys2Proof.Machine.execSafeEntry s
  | .glbSafeEnter => Sys2Proof.Machine.execGlbSafeEnter s
  | .govWatchdogExpiry => Sys2Proof.Machine.execGovWatchdogExpiry s
  | .idleEntry => Sys2Proof.Machine.execIdleEntry s
  | .p1Wake => Sys2Proof.Machine.execP1Wake s
  | .pwrTargetRun => Sys2Proof.Machine.execPwrTargetRun s
  | .pwrTargetBobbin => Sys2Proof.Machine.execPwrTargetBobbin s
  | .pwrTargetStandby => Sys2Proof.Machine.execPwrTargetStandby s
  | .bobbinEntry => Sys2Proof.Machine.execBobbinEntry s
  | .standbyEntry => Sys2Proof.Machine.execStandbyEntry s
  | .bobbinWake => Sys2Proof.Machine.execBobbinWake s
  | .wakeTimerExpiry => Sys2Proof.Machine.execWakeTimerExpiry s
  | .wakeInAccept prev cur => Sys2Proof.Machine.execWakeInAccept prev cur s
  | .thermAlertAccept prev cur => Sys2Proof.Machine.execThermAlertAccept prev cur s
  | .chatterMaskExpiry pin prev cur => Sys2Proof.Machine.execChatterMaskExpiry pin prev cur s
  | .inputStuck pin => Sys2Proof.Machine.execInputStuck pin s
  | .tempRefresh mill stk => Sys2Proof.Machine.execTempRefresh mill stk s
  | .throttleEscalate k => Sys2Proof.Machine.execThrottleEscalate k s
  | .l1Entry => Sys2Proof.Machine.execL1Entry s
  | .powerOnReset env => Sys2Proof.Machine.execPowerOnReset env s
  | .coldReset env => Sys2Proof.Machine.execColdReset env s
  | .warmReset env => Sys2Proof.Machine.execWarmReset env s
  | .perstAssert aonCycles => Sys2Proof.Machine.execPerstAssert aonCycles s
  | .powerFail f => Sys2Proof.Machine.execPowerFail f s
  | .ready => Sys2Proof.Machine.execReady s
  | .stage host sigOk hashOk => Sys2Proof.Machine.execStage host sigOk hashOk s
  | .abort => Sys2Proof.Machine.execAbort s
  | .fwupDone flashOk => Sys2Proof.Machine.execFwupDone flashOk s
  | .getVersion r => Sys2Proof.Machine.execGetVersion r s
  | .getCapabilities r => Sys2Proof.Machine.execGetCapabilities r s
  | .negotiateAlgorithms r => Sys2Proof.Machine.execNegotiateAlgorithms r s
  | .getDigests r => Sys2Proof.Machine.execGetDigests r s
  | .getCertificate r => Sys2Proof.Machine.execGetCertificate r s
  | .challenge r => Sys2Proof.Machine.execChallenge r s
  | .getMeasurements r => Sys2Proof.Machine.execGetMeasurements r s
  | .keyExchange r => Sys2Proof.Machine.execKeyExchange r s
  | .finish r => Sys2Proof.Machine.execFinish r s
  | .heartbeat r => Sys2Proof.Machine.execHeartbeat r s
  | .keyUpdate r => Sys2Proof.Machine.execKeyUpdate r s
  | .endSession r => Sys2Proof.Machine.execEndSession r s
  | .ideKm x session stream keySet key => Sys2Proof.Machine.execIdeKm x session stream keySet key s
  | .ideIntegrityFail stream => Sys2Proof.Machine.execIdeIntegrityFail stream s
  | .bypass => Sys2Proof.Machine.execBypass s
  | .idcode => Sys2Proof.Machine.execIdcode s
  | .samplePreload pins => Sys2Proof.Machine.execSamplePreload pins s
  | .extest => Sys2Proof.Machine.execExtest s
  | .clamp => Sys2Proof.Machine.execClamp s
  | .highz => Sys2Proof.Machine.execHighz s
  | .dbgAccess op => Sys2Proof.Machine.execDbgAccess op s
  | .dbgChal => Sys2Proof.Machine.execDbgChal s
  | .dbgResp cert sig verifies => Sys2Proof.Machine.execDbgResp cert sig verifies s
  | .debugUnlock => Sys2Proof.Machine.execDebugUnlock s
  | .nonceExpiry => Sys2Proof.Machine.execNonceExpiry s
  | .smbStatus => Sys2Proof.Machine.execSmbStatus s
  | .smbTemps => Sys2Proof.Machine.execSmbTemps s
  | .smbPower => Sys2Proof.Machine.execSmbPower s
  | .smbId => Sys2Proof.Machine.execSmbId s
  | .smbAlertResponse => Sys2Proof.Machine.execSmbAlertResponse s
  | .farStackShareTick => Sys2Proof.Machine.execFarStackShareTick s
  | .perstDeassert env => Sys2Proof.Machine.execPerstDeassert env s
  | .aonClkLoss => Sys2Proof.Machine.execAonClkLoss s
  | .aonClkReturn env => Sys2Proof.Machine.execAonClkReturn env s
  | .pcieLinkUp speed width => Sys2Proof.Machine.execPcieLinkUp speed width s
  | .aspmL1Exit => Sys2Proof.Machine.execAspmL1Exit s
  | .functionD3hotChange x d3hot => Sys2Proof.Machine.execFunctionD3hotChange x d3hot s
  | .smbClockLowTimeout ms => Sys2Proof.Machine.execSmbClockLowTimeout ms s

end Sys2Proof.Machine
end

