-- ==== Sys2Proof/Machine/Tick.lean ====
section
/-!
DEFINITION. A tick boundary (spec/14_power_clocks_events.md R394 to R396): the requests stamped with the tick that ends are
resolved in the order of Table 14.2. Those that have a command of their own (CFG_APPLY, CORE_DECLARED_DEAD, SAFE_ENTRY and
others) are resolved by it: the commands are put on the queue, which is empty, so that nothing comes before them. Where one has
none, all of them take effect here (notes/assumptions/13.md).
-/

namespace Sys2Proof.Machine

/-- A request takes effect. -/
def State.resolve (s : State) (b : Boundary) : State :=
  match b with
  | .coreDead p _ => s.whenServing (fun s => s.coreDies p)
  | .spindleDead n _ => s.whenServing (fun s => s.spindleDies n)
  | .stackLost k => s.whenServing (fun s => (s.dropBoundary (.stackLost k)).loseStack k)
  | .safe _ => nextOr (execSafeEntry s) s
  | .quarantine m _ => if s.serving then s.quarantineModel m else s
  | .peerDead _ => s.whenServing (fun s => s.applyPeers true)
  | .peerAlive _ => s.whenServing (fun s => s.applyPeers false)
  | .unlock => nextOr (execDebugUnlock s) s
  | .restored m => (s.dropBoundary b).restoreModel m
  | .load m => ((s.dropBoundary b).applyLoads m).noteReady
  | .coreAlive p => (s.dropBoundary b).coreJoins p
  | .seqEnds h i code => (s.dropBoundary b).seqEnds h i code
  | .heldEnds c id => (s.dropBoundary b).freeHeldWhere (fun x => decide (x.ctx = c ∧ x.seqid = id)) 0x03
  | .teardown c cause mute => (s.dropBoundary b).teardown c cause mute

/-- Context of a request, plus one; 0: device-wide. -/
def State.boundaryCtx (s : State) (b : Boundary) : Nat :=
  match b with
  | .seqEnds h _ _ => ((s.hankOf h).map (fun h => h.ctx + 1)).getD 0
  | .heldEnds c _ => c + 1
  | .teardown c _ _ => c + 1
  | _ => 0

/-- Requests in the order of R395: by rank, in one rank device-wide ones first and then by context, in one context in the order
of their arrival. -/
def State.byRank (s : State) (bs : List Boundary) : List Boundary :=
  ((List.range 10).map (fun r => ((List.range 65).map (fun c =>
    bs.filter (fun b => decide (b.rank = r ∧ s.boundaryCtx b = c)))).flatten)).flatten

/-- Staged values are due at this boundary (R354). -/
def State.applyDue (s : State) : Bool := !s.txn.single.isEmpty || (s.txn.st == .committing && s.txn.due)

/-- Every request that is due takes effect, unless an earlier one has ended it; the staged values are applied as the first event
of rank 7 (notes/assumptions/13.md). -/
def State.resolveAll (s : State) : State :=
  let bs := s.byRank s.rel.boundary
  let go (s : State) (bs : List Boundary) : State :=
    bs.foldl (fun s b => if s.rel.boundary.contains b then s.resolve b else s) s
  let s := go s (bs.filter (fun b => decide (b.rank < 7)))
  let s := if s.regAnswers && s.applyDue then s.cfgApply else s
  go s (bs.filter (fun b => !decide (b.rank < 7)))

/-- The requests of the tick that ends are due. -/
def State.fallDue (s : State) : State :=
  let asked := s.rel.asked
  let s := { s with
    rel := { s.rel with boundary := asked, asked := [] }
    txn := { s.txn with single := s.txn.fresh, fresh := [], due := s.txn.st == .committing } }
  if asked.all Boundary.hasRow then s else s.resolveAll

/-- The commands by which what is due takes effect, in the order of R395. -/
def State.dueCommands (s : State) : List Instr :=
  let bs := s.byRank s.rel.boundary
  let cmds (bs : List Boundary) : List Instr := (bs.filterMap Boundary.cmd).eraseDups
  cmds (bs.filter (fun b => decide (b.rank < 7))) ++ (if s.applyDue then [.cfgApply] else []) ++
    cmds (bs.filter (fun b => !decide (b.rank < 7)))

/-- The next tick, with the requests that were due resolved or about to be. -/
def State.tickOver (s : State) : State := s.tickBegins.fallDue

/-- The next tick: the commands of its boundary come first. -/
def State.nextTick (s : State) : State :=
  let t := s.tickOver
  { t with pending := t.pending ++ t.dueCommands }

end Sys2Proof.Machine
end

