-- ==== Sys2Proof/Safety.lean ====
section
/-!
DEFINITION. What claims use to speak of a sound state: the canonical form of stacked memory, which every command keeps, and the
outcome of a command as a state.
-/

namespace Sys2Proof.Machine

/-- Stacked memory is in canonical form: data, check symbols and class tags are listed by strictly rising key, and nothing is
listed that equals what an unlisted key reads as. Equal memories are then equal data. -/
abbrev Memory.wf (m : Mem) : Prop :=
  SparseWf noByte m.data ∧ SparseWf noByte m.chk ∧ SparseWf noClass m.cls

/-- The invariant of the machine. -/
abbrev State.Inv (s : State) : Prop := Memory.wf s.mem

/-- A command runs: it ends in a next state. -/
def Completes (c : Instr) (s : State) : Prop := ∃ t, exec c s = .next t

/-- Records of a context are written at once, and nothing besides: its rings run, no teardown of it is under way, none is waiting,
no host-window write is unflushed, and no BARRIER is outstanding (R337, R348). -/
structure State.PostsNow (s : State) (c : Nat) : Prop where
  can : s.canPost c
  stays : (s.ctx c).closing = none
  empty : (s.ctx c).posts = []
  flushed : (s.ctx c).writes ≤ (s.ctx c).flushed
  noBarrier : (s.ctx c).barrier = none

/-- The completion record as it is written in the next slot of the completion ring. -/
def State.cqRecord (s : State) (c : Nat) (r : Completion) : HostMsg :=
  let i := (s.ctx c).cqTail.toNat
  .record c (s.ringAddr c Reg.cqBaseLo (s.cqSize c) i 32) (r.pack (phaseOf i (s.cqSize c)))

/-- From `s` to `t` the completion `r` of context `c` has been written, as the first message sent but for the reads of further
records of the submission ring. -/
structure Posted (s t : State) (c : Nat) (r : Completion) : Prop where
  tail : (t.ctx c).cqTail = (s.ctx c).cqTail + 1
  sent : ∃ reads rest, t.toHost = s.toHost ++ reads ++ s.cqRecord c r :: rest ∧ ∀ m ∈ reads, ∃ a, m = .read c a 256 false

/-- A doorbell of the context's function is taken when it arrives (R277, R345, R386): the function answers, no drain is under way, and no
earlier doorbell or BAR4 write of it still waits. -/
structure State.DoorbellTaken (s : State) (c : Nat) : Prop where
  powered : s.powered
  ready : s.pwr.ready
  safe : s.pwr.safe = none
  on : ¬ (s.ctx c).d3hot
  admitted : s.ideAdmits
  noDrain : ¬ s.pwr.drain
  first : (s.ctx c).bells = []
  behind : ¬ s.bar4Before c s.mem.nextBar4

/-- A teardown of the context comes to its end at once (R330): its streams, engines and Spindle steps have stopped, no saved stream is
left to end, nothing waits to be posted and no host-window write is unflushed. -/
structure State.TearsNow (s : State) (c : Nat) : Prop where
  stopped : s.stopped c
  saved : ∀ p ∈ s.serve.steps, p.ctx = c → p.saved = []
  empty : (s.ctx c).posts = []
  flushed : (s.ctx c).writes ≤ (s.ctx c).flushed

/-- No step holds the bank, and nothing waits at it. -/
structure State.BankIdle (s : State) (l : Loc) : Prop where
  free : s.bankBusy l = false
  first : (s.bankSt l).waits = []

/-- A port takes in a packet: it is powered, receives with a key installed, and has room for the packet (R296, R302). -/
structure State.Receives (s : State) (p : Port) (pkt : Packet) : Prop where
  powered : s.powered
  safe : s.pwr.safe = none
  awake : s.pwr.state = .p0
  state : (s.port p).st.receives
  key : (s.port p).rxKey
  fits : ¬ s.overflows p (hClass pkt.header) (2 + pkt.data.length)

/-- The packet's data once its seal has been opened with the port's key; none: the seal does not open (R294, R296). -/
def State.opened (s : State) (p : Port) (pkt : Packet) : Option (List (BitVec 256)) :=
  let x := s.port p
  gcmOpen (Config.linkKey p false x.rxGen) (Config.linkIv p false x.rxGen ^^^ BitVec.ofNat 96 x.rxSeq)
    (BitVec.ofNat 384 (pkt.header.toNat + 2 ^ 256 * bitsAt pkt.trailer.toNat 255 128)) pkt.data
    (pkt.trailer.extractLsb' 0 128)

/-- The packet carries the sender's and this node's epochs, comes from a peer that is not dead, and is for this node (R306). -/
structure State.AddressedHere (s : State) (h : BitVec 256) : Prop where
  source : hField h 63 56 = (s.peer (hSnode h)).epoch
  alive : ¬ (s.peer (hSnode h)).dead
  epoch : hField h 55 48 = s.nodeEpoch
  node : hDnode h = s.nodeId

/-- The stream goes on behind its front word: no stop is asked of it, the front word is not a program's last, and the word behind
it has been delivered and can be run. -/
structure Stream.GoesOn (t : Stream) : Prop where
  noHalt : t.halt = none
  more : ∃ q rest, t.queue.tail = q :: rest ∧ q.poison = false ∧ q.refused = none
  notLast : ∀ a n, t.src = .program a n → (t.retired + 1).toNat ≠ n

end Sys2Proof.Machine
end

