-- ==== Sys2Proof/Certificates/Slice0/Obligations.lean ====
section
/-!
DEFINITION. The statements for the provers. Each says what a command does to the state: what it changes, where, and what it leaves
as it was.
-/

open Sys2Proof Sys2Proof.Machine

/-! ### The queue, the tick, the invariant -/

/-- O1. A step takes the command at the front of the queue and carries it out on the state with the queue's rest. -/
def Obligations.StepRunsFront : Prop :=
  ∀ (s : State) (c : Instr) (q : List Instr), s.pending = c :: q → step s = exec c { s with pending := q }

/-- O2. With no command waiting a step begins the next tick (that a step on an empty queue is the tick is the model's
choice, notes/assumptions/1.md): while no hank step runs, no re-admission is pending, no drain is under way, no Twine
request waits, and nothing that fell due at the boundary before is still to take effect, the time moves by one and the
requests made in the tick that ends become the ones that are due. The commands by which they take effect, and
CFG_APPLY where staged values are due, are put on the queue, and no others; only the power controller's own state
changes besides. -/
def Obligations.EmptyQueueTicks : Prop :=
  ∀ s : State, s.pending = [] → s.serve.steps = [] → s.rel.admits = [] → ¬ s.pwr.drain → (∀ p, (s.port p).inReq = []) →
    s.rel.asked.all Boundary.hasRow →
    ∃ t, step s = .next t ∧
      t = { s with
        tick := s.tick + 1
        pwr := t.pwr
        rel := { s.rel with boundary := s.rel.asked, asked := [] }
        txn := { s.txn with single := s.txn.fresh, fresh := [], due := s.txn.st == .committing }
        pending := t.pending } ∧
      (∀ c, c ∈ t.pending ↔ (∃ b ∈ s.rel.asked, b.cmd = some c) ∨
        (c = .cfgApply ∧ (s.txn.fresh ≠ [] ∨ s.txn.st = .committing))) ∧
      t.pwr.state = s.pwr.state ∧ t.pwr.safe = s.pwr.safe ∧ t.pwr.inputs = s.pwr.inputs

/-- O3. At reset the stacked memory is in canonical form and every byte of it reads zero (R152), nothing is queued and
nothing has been sent. -/
def Obligations.ResetIsSound : Prop :=
  State.reset.Inv ∧ State.reset.pending = [] ∧ State.reset.toHost = [] ∧ State.reset.tick = 0 ∧
    ∀ k, sget noByte State.reset.mem.data k = 0

/-- O4. Every step keeps stacked memory in canonical form. -/
def Obligations.StepKeepsMemoryForm : Prop :=
  ∀ s t : State, s.Inv → step s = .next t → t.Inv

/-- O5. Every misuse has an outcome: no command, in any state, stops the machine. No command touches the queue of waiting
commands, and what has been sent to the host is never taken back or changed. -/
def Obligations.CommandsComplete : Prop :=
  (∀ (c : Instr) (s : State), ∃ t, exec c s = .next t) ∧
  (∀ (c : Instr) (s t : State), s.Inv → exec c s = .next t → t.pending = s.pending ∧ s.toHost <+: t.toHost)

/-! ### Stack interfaces (05) -/

/-- O6. A channel read at an idle bank answers a line's 64 stored bytes, or the addressed 32-B sector of them, unpoisoned,
from a RAW row, unchecked, and from a SEALED row whose check symbols are those of its data; and nothing but the answer
changes. A read of a line in an UNSEALED row answers the stored bytes poisoned on every path, and what is logged
changes no byte, check symbol or class tag of memory. Completion: CHANNEL_READ. -/
def Obligations.ChannelReads : Prop :=
  (∀ (s : State) (a : DevAddr) (path : Path) (sector : Bool),
      s.powered → a.toNat < memTop → ¬ isContent a.toNat → s.bankAnswers (s.locate a.toNat) →
      s.BankIdle (s.locate a.toNat) →
      let l := s.locate a.toNat
      let rk := s.rowKey l
      let bytes := sgetMany noByte s.mem.data (rk * 1024 + 64 * l.line) 64
      (s.rowClass rk = .raw ∨ s.rowClass rk = .sealed ∧
        classifyLine (s.rawData rk l.line ++ s.rawChk rk l.line) = .clean) →
      exec (.channelRead ⟨a, sector⟩ path) s = .next { s with
        reply := .data (if sector then (bytes.drop (a.toNat % 64 / 32 * 32)).take 32 else bytes) false }) ∧
  (∀ (s : State) (a : DevAddr) (path : Path),
      s.powered → a.toNat < memTop → ¬ isContent a.toNat → s.bankAnswers (s.locate a.toNat) →
      s.BankIdle (s.locate a.toNat) →
      let l := s.locate a.toNat
      let rk := s.rowKey l
      s.rowClass rk = .unsealed →
      ∃ t, exec (.channelRead ⟨a, false⟩ path) s = .next t ∧ t.mem = s.mem ∧ t.spads = s.spads ∧ t.tally = s.tally ∧
        t.reply = .data (sgetMany noByte s.mem.data (rk * 1024 + 64 * l.line) 64) true)

/-- O7. A channel write of a whole line at an idle bank stores it at the line's place in its row and nowhere else: every
other byte of stacked memory reads as before, no class tag changes, and nothing outside stacked memory changes. At a
busy bank the write waits, behind what waits there, and stores nothing. Completion: CHANNEL_WRITE. -/
def Obligations.ChannelWriteStoresOneLine : Prop :=
  ∀ (s : State) (a : DevAddr) (data : Line) (poison : Bool),
    s.powered → a.toNat < memTop → ¬ isContent a.toNat → s.bankAnswers (s.locate a.toNat) →
    let l := s.locate a.toNat
    let base := s.rowKey l * 1024 + 64 * l.line
    (s.BankIdle l →
      ∃ t, exec (.channelWrite a data fullMask poison) s = .next t ∧ t = { s with mem := t.mem } ∧
        t.mem.cls = s.mem.cls ∧ t.mem.thread = s.mem.thread ∧ t.mem.refresh = s.mem.refresh ∧
        (∀ i : Nat, i < 64 → sget noByte t.mem.data (base + i) = data.extractLsb' (8 * i) 8) ∧
        (∀ k : Nat, k < base ∨ base + 64 ≤ k → sget noByte t.mem.data k = sget noByte s.mem.data k)) ∧
    (s.bankBusy l →
      exec (.channelWrite a data fullMask poison) s = .next (s.setBankSt l { s.bankSt l with
        waits := (s.bankSt l).waits ++ [(s.sclkNow l.stack, .write a.toNat data fullMask poison l)] }))

/-- O8. A Thread-path access within the tick's 1,500, at an idle bank and to a RAW row: a read answers its 8 bytes and
stores nothing; a write replaces them in their line and leaves every other byte. Each counts one access of the tick.
Completion: THREAD_ACCESS. An access beyond the 1,500 of a tick waits, behind those already waiting, with no other
effect; and in a new tick the accesses that waited are served in arrival order: two reads of RAW rows, each where its
address lay when it was issued, are both performed, and the later one's answer is the last given. Completion:
THREAD_WINDOW_WAIT. -/
def Obligations.ThreadPathWindow : Prop :=
  (∀ (s : State) (k : Stack) (a : DevAddr),
      s.threadTakes k ⟨a, none, s.locate a.toNat⟩ → ¬ isContent a.toNat → s.threadUsed k < 1500 → (s.threadOf k).waiting = [] →
      s.BankIdle (s.locate a.toNat) →
      let l := s.locate a.toNat
      let base := s.rowKey l * 1024 + 64 * l.line + a.toNat % 64
      s.rowClass (s.rowKey l) = .raw →
      (∃ t, exec (.threadAccess k a none) s = .next t ∧ t = { s with mem := t.mem, reply := t.reply } ∧
        t.mem.data = s.mem.data ∧ t.mem.chk = s.mem.chk ∧ t.mem.cls = s.mem.cls ∧
        t.reply = .data (sgetMany noByte s.mem.data base 8) false ∧ t.threadUsed k = s.threadUsed k + 1) ∧
      ∀ v : BitVec 64, ∃ t, exec (.threadAccess k a (some v)) s = .next t ∧ t = { s with mem := t.mem } ∧
        t.mem.cls = s.mem.cls ∧ t.threadUsed k = s.threadUsed k + 1 ∧
        (∀ i : Nat, i < 8 → sget noByte t.mem.data (base + i) = v.extractLsb' (8 * i) 8) ∧
        (∀ j : Nat, j < base ∨ base + 8 ≤ j → sget noByte t.mem.data j = sget noByte s.mem.data j)) ∧
  ((∀ (s : State) (k : Stack) (a : DevAddr) (wr : Option (BitVec 64)),
      s.threadTakes k ⟨a, wr, s.locate a.toNat⟩ → 1500 ≤ s.threadUsed k →
      ∃ t, exec (.threadAccess k a wr) s = .next t ∧ t = { s with mem := { s.mem with thread := t.mem.thread } } ∧
        (t.threadOf k).waiting = (s.threadOf k).waiting ++ [.access ⟨a, wr, s.locate a.toNat⟩] ∧
        (∀ j, j ≠ k.toNat → t.threadOf j = s.threadOf j)) ∧
    (∀ (s : State) (k : Stack) (a b : DevAddr) (la lb : Loc),
      s.domainOn (.stack k) → ¬ s.stackIsLost k.toNat →
      (s.threadOf k).waiting = [.access ⟨a, none, la⟩, .access ⟨b, none, lb⟩] → s.threadUsed k + 1 < 1500 →
      ¬ isContent a.toNat → ¬ isContent b.toNat → b.toNat % 8 = 0 → s.BankIdle la → s.BankIdle lb →
      s.rowClass (s.rowKey la) = .raw → s.rowClass (s.rowKey lb) = .raw →
      ∃ t, exec (.threadWindowWait k) s = .next t ∧ t = { s with mem := { s.mem with thread := t.mem.thread }, reply := t.reply } ∧
        (t.threadOf k).waiting = [] ∧ t.threadUsed k = s.threadUsed k + 2 ∧
        t.reply = .data (sgetMany noByte s.mem.data
          (s.rowKey lb * 1024 + 64 * lb.line + b.toNat % 64) 8) false))

/-- O9. BAR4, with no earlier request of it waiting. A read of bytes within one line of an idle bank that passes the
context's check completes with them; a read with a line that fails completes as an unsupported request and returns no
data; a write of a whole line stores it and leaves every other byte; a write with a line that fails is discarded
whole. A refusal is counted, and the context stays up. Completion: BAR4_READ, BAR4_WRITE. -/
def Obligations.Bar4OneLine : Prop :=
  ∀ (s : State) (x : Ctx) (off : BitVec 36),
    s.powered → s.pwr.ready → ¬ (s.ctx x).d3hot → s.ideAdmits → (s.ctx x).st ≠ .off → s.pwr.state = .p0 → s.pwr.safe = none →
    s.mem.bar4s = [] → (s.ctx x).closing = none →
    let a := s.bar4Addr x off.toNat
    let l := s.locate a
    let row := s.rowKey l * 1024 + 64 * l.line
    (∀ n : Nat, 0 < n → a % 64 + n ≤ 64 → off.toNat + n ≤ 2 ^ 36 → s.bar4Ok x a n false → ¬ isContent a → s.BankIdle l →
      s.rowClass (s.rowKey l) = .raw →
      exec (.bar4Read x off n) s = .next { s with
        mem := { s.mem with nextBar4 := s.mem.nextBar4 + 1 }
        reply := .data (sgetMany noByte s.mem.data (row + a % 64) n) false }) ∧
    (∀ n : Nat, 0 < n → off.toNat + n ≤ 2 ^ 36 → ¬ s.bar4Ok x a n false →
      ∃ t, exec (.bar4Read x off n) s = .next t ∧ t.reply = .unsupportedRequest ∧ t.mem = s.mem ∧ t.tally = s.tally ∧
        (t.ctx x).bar4Refused = (s.ctx x).bar4Refused + 1) ∧
    (∀ data : List Byte, data.length = 64 → a % 64 = 0 → off.toNat + 64 ≤ 2 ^ 36 → s.bar4Ok x a 64 true → ¬ isContent a →
      s.BankIdle l →
      ∃ t, exec (.bar4Write x off (data.map some)) s = .next t ∧ t = { s with mem := t.mem } ∧ t.mem.cls = s.mem.cls ∧
        sgetMany noByte t.mem.data row 64 = data ∧
        (∀ k : Nat, k < row ∨ row + 64 ≤ k → sget noByte t.mem.data k = sget noByte s.mem.data k)) ∧
    (∀ data : List (Option Byte), data ≠ [] → off.toNat + data.length ≤ 2 ^ 36 → ¬ s.bar4Ok x a data.length true →
      ∃ t, exec (.bar4Write x off data) s = .next t ∧ t.mem = s.mem ∧ t.tally = s.tally ∧
        (t.ctx x).bar4Refused = (s.ctx x).bar4Refused + 1)

/-! ### Treadle streams (04), cores (03) -/

/-- O10. SETUP words. In its one stream cycle AG_LOCAL loads the local fields of generator IDX and sets its indices and
its scale count to 0, AG_DEV loads the device fields and sets the indices to 0, WAIT_SET loads wait register IDX,
SR_INDEX the element index. The word retires; no memory, tally counter or register of the map changes. Completion:
AG_LOCAL, AG_DEV, WAIT_SET, SR_INDEX. END retires. While signals of earlier words are still to be made, or fetches of
its context are outstanding (Table 10.4), the stream stays on its core, ending, and runs no further word; once neither
is left, the stream ends: its core carries no stream. Completion: END. -/
def Obligations.StreamSetupAndEnd : Prop :=
  (∀ (s : State) (c : Core) (t : Stream) (w : TreadleWord) (p : Nat),
      s.frontWord c = some (t, w, p) → t.GoesOn → ¬ s.wordIllegal t.ctx w → (s.pipe c).scales.owed = [] →
      let i := twIdx w
      let gens := (s.pipe c).ags
      let keeps (u : State) (v : Stream) : Prop := u.stream c = some v ∧ v.retired = t.retired + 1 ∧ v.queue = t.queue.tail ∧
        u.mem = s.mem ∧ u.tally = s.tally ∧ u.regs = s.regs ∧ ∀ d : Core, d ≠ c → u.core d = s.core d
      (wordRow w = 0 → ∃ u v, exec (.agLocal c) s = .next u ∧ keeps u v ∧ v.wts = t.wts ∧ v.elem = t.elem ∧
        (u.pipe c).ags = gens.modify i (fun g => { g with
          lbase := BitVec.ofNat 21 (twField w 84 64), ls0 := BitVec.ofNat 22 (twField w 106 85),
          ls1 := BitVec.ofNat 22 (twField w 128 107), ls2 := BitVec.ofNat 22 (twField w 150 129),
          n0 := BitVec.ofNat 16 (twField w 166 151), n1 := BitVec.ofNat 16 (twField w 182 167),
          n2 := BitVec.ofNat 16 (twField w 198 183), sbase := BitVec.ofNat 21 (twField w 219 199),
          sbs := BitVec.ofNat 22 (twField w 241 220), i0 := 0, i1 := 0, i2 := 0, n := 0 })) ∧
      (wordRow w = 1 → ∃ u v, exec (.agDev c) s = .next u ∧ keeps u v ∧ v.wts = t.wts ∧ v.elem = t.elem ∧
        (u.pipe c).ags = gens.modify i (fun g => { g with
          dbase := BitVec.ofNat 42 (twField w 105 64), ds0 := BitVec.ofNat 40 (twField w 145 106),
          ds1 := BitVec.ofNat 40 (twField w 185 146), ds2 := BitVec.ofNat 40 (twField w 225 186),
          i0 := 0, i1 := 0, i2 := 0 })) ∧
      (wordRow w = 2 → ∃ u v, exec (.waitSet c) s = .next u ∧ keeps u v ∧ (u.pipe c).ags = gens ∧ v.elem = t.elem ∧
        v.wts = t.wts.modify i (fun _ => ⟨BitVec.ofNat 12 (twField w 75 64), BitVec.ofNat 48 (twField w 123 76),
          BitVec.ofNat 32 (twField w 155 124)⟩)) ∧
      (wordRow w = 3 → ∃ u v, exec (.srIndex c) s = .next u ∧ keeps u v ∧ (u.pipe c).ags = gens ∧ v.wts = t.wts ∧
        v.elem = BitVec.ofNat 40 (twField w 103 64))) ∧
  (∀ (s : State) (c : Core) (t : Stream) (w : TreadleWord) (p : Nat),
      s.frontWord c = some (t, w, p) → wordRow w = 4 → ¬ s.wordIllegal t.ctx w → (s.pipe c).scales.owed = [] → t.halt = none →
      (s.ctx t.ctx).closing = none → (s.core c).late = [] →
      ((t.sigs ≠ [] ∨ ∃ f ∈ (s.core c).fetches, f.ctx = t.ctx) →
        ∃ u v, exec (.endStream c) s = .next u ∧ u.stream c = some v ∧ v.ending ∧ v.queue = [] ∧ v.sigs = t.sigs ∧
        v.retired = t.retired + 1 ∧ u.mem = s.mem ∧ u.tally = s.tally) ∧
      (t.sigs = [] → (∀ f ∈ (s.core c).fetches, f.ctx ≠ t.ctx) →
        ∃ u, exec (.endStream c) s = .next u ∧ u.stream c = none ∧ u.mem = s.mem))

/-- O11. An EXEC word of one stream cycle whose only active unit is the network port, on a FETCH: it puts one request
outstanding with the addresses its generator gives, its line count and its counter, queues its signal, takes STEP to
the wait register it waited on, and retires; memory, scratchpads and counters do not change yet. Completion: EXEC. An
EXEC word of one stream cycle whose only active unit is the vector unit puts its result in flight, to land after the
operation's latency; the register is not written yet. -/
def Obligations.ExecWords : Prop :=
  (∀ (s : State) (c : Core) (t : Stream) (w : TreadleWord) (p : Nat),
      s.frontWord c = some (t, w, p) → wordRow w = 5 → twKind w = 0 → t.GoesOn → t.pos = 0 → t.passed = false → t.primed = false →
      ¬ s.wordIllegal t.ctx w → (s.pipe c).scales.owed = [] → (s.pipe c).flight = [] →
      twRepeat w = 0 → twNetOp w = 1 → twMxOp w = 0 → twVop w = 0 → ¬ twVlEn w → ¬ twVsEn w → twXferOp w = 0 → ¬ twSr w →
      s.fenceDone c w → (twWaitEn w → s.waitDone t w) → s.cycleGate c w 0 = .go →
      let g := s.gen c (twNetAg w)
      let id := (s.core c).nextId
      ∃ u v, exec (.exec c) s = .next u ∧ u.stream c = some v ∧ v.retired = t.retired + 1 ∧ v.queue = t.queue.tail ∧
        (u.core c).fetches = (s.core c).fetches ++ [⟨id, t.ctx, t.bank, g.device / 64 * 64, g.local_ / 64 * 64, twNetLines w,
          twNetStage w, if twNetTcEn w then some (twNetTc w) else none, s.arrangement, List.range (twNetLines w)⟩] ∧
        v.sigs = t.sigs ++ (if twSigEn w then [⟨twSigTc w, twSigInc w, id + 1⟩] else []) ∧
        v.wts = (if twWaitEn w then t.wts.modify (twWaitReg w) (fun r => { r with target := r.target + r.step.setWidth 48 })
          else t.wts) ∧
        (u.core c).puts = (s.core c).puts ∧ u.mem = s.mem ∧ u.tally = s.tally ∧ u.spads = s.spads ∧ u.regs = s.regs) ∧
  (∀ (s : State) (c : Core) (t : Stream) (w : TreadleWord) (p : Nat) (x : VReg),
      s.frontWord c = some (t, w, p) → wordRow w = 5 → twKind w = 0 → t.GoesOn → t.pos = 0 → t.passed = false → t.primed = false →
      ¬ s.wordIllegal t.ctx w → (s.pipe c).scales.owed = [] → (s.pipe c).flight = [] →
      twRepeat w = 0 → twNetOp w = 0 → twMxOp w = 0 → ¬ twVlEn w → ¬ twVsEn w → twXferOp w = 0 → ¬ twSr w → vopRow (twVop w) ≠ 4 →
      s.fenceDone c w → ¬ twWaitEn w → s.cycleGate c w 0 = .go →
      (vectorOp (twVop w) (s.vreg p (twVa w)) (s.vreg p (twVb w)) (s.vreg p (twVc w)) (twVb w) (twVfmt w) (twSat w) none).vd =
        some x →
      ∃ u v, exec (.exec c) s = .next u ∧ u.stream c = some v ∧ v.retired = t.retired + 1 ∧ v.queue = t.queue.tail ∧
        (u.pipe c).cycle = (s.pipe c).cycle + 1 ∧
        .vreg ((s.pipe c).cycle + vopLatency (twVop w)) 2 (twVd w) x ∈ (u.pipe c).flight ∧
        (u.core c).fetches = (s.core c).fetches ∧ u.mem = s.mem ∧ u.tally = s.tally ∧ u.spads = s.spads ∧ u.regs = s.regs)

/-- O12. The end of a hold. When what the front word waits for has come (its wait register satisfied, its fence complete,
no line of its own fetches in the way, room for its request) the word goes on exactly as EXEC carries it on with the
hold gone, and the ACLK cycles held are counted for a wait, a fence and the fetch limit; until then nothing changes.
After an underrun the word is not run by the same command. Completion: WAIT_SATISFIED, FENCE_COMPLETE,
FETCH_HAZARD_RELEASE, FETCH_LIMIT_RELEASE, UNDERRUN_RESUME. A stream that has been held for CTX_TQ_HOLD ticks, and for
which what it waits for has still not come, stops on its core with final code 0x0F; before that the command changes
nothing. Completion: HOLD_LIMIT_EXPIRY. -/
def Obligations.HoldsEndOrStop : Prop :=
  (∀ (s : State) (c : Core) (t : Stream) (w : TreadleWord) (k : HoldKind) (since : Nat) (n : BitVec 32),
      s.heldWord c = some (t, w) → t.hold = some (k, since) →
      let free := s.putStream c t { t with hold := none, state := .run }
      let counted := free.modCore c (fun x => { x with holdCycles := x.holdCycles + n })
      (k = .wait → s.waitDone t w → ∃ u, exec (.waitSatisfied c n) s = .next u ∧ exec (.exec c) counted = .next u) ∧
      (k = .wait → ¬ s.waitDone t w → exec (.waitSatisfied c n) s = .next s) ∧
      (k = .fence → s.fenceDone c w → ∃ u, exec (.fenceComplete c n) s = .next u ∧ exec (.exec c) counted = .next u) ∧
      (k = .fence → ¬ s.fenceDone c w → exec (.fenceComplete c n) s = .next s) ∧
      (k = .hazard → s.hazardOver c t w →
        ∃ u, exec (.fetchHazardRelease c) s = .next u ∧ exec (.exec c) (free.modCore c id) = .next u) ∧
      (k = .hazard → ¬ s.hazardOver c t w → exec (.fetchHazardRelease c) s = .next s) ∧
      (k = .limit → s.cycleGate c w t.pos ≠ .hold .limit →
        ∃ u, exec (.fetchLimitRelease c n) s = .next u ∧ exec (.exec c) counted = .next u) ∧
      (k = .limit → s.cycleGate c w t.pos = .hold .limit → exec (.fetchLimitRelease c n) s = .next s) ∧
      (k = .underrun → exec (.underrunResume c n) s =
        .next (free.modCore c (fun x => { x with underrun := x.underrun + n })))) ∧
  (∀ (s : State) (c : Core) (t : Stream) (k : HoldKind) (since : Nat),
      s.stream c = some t → t.hold = some (k, since) → (s.ctx t.ctx).closing = none →
      (since + s.cfld t.ctx Reg.tqHold 23 0 ≤ s.tick → s.stillHeld c t k →
        ∃ u, exec (.holdLimitExpiry c) s = .next u ∧ u.stream c = none ∧ u.mem = s.mem ∧ u.spads = s.spads ∧
          ∀ q, s.stepOf t.work = some q → q.phase ≠ .stream →
            ∃ q', u.stepOf t.work = some q' ∧ q'.ends = q.ends ++ [(c.val, 0x0F, s.tick)]) ∧
      (s.tick < since + s.cfld t.ctx Reg.tqHold 23 0 → exec (.holdLimitExpiry c) s = .next s))

/-- O13. A landing line of a fetch, from a RAW row at an idle bank: exactly that line of the core's scratchpad is written,
and every other scratchpad byte and all of stacked memory stay. While another line of the fetch is out the request
stays on the port and no counter changes; with the last one it leaves the port and its counter increases by 64 for
each of its lines. Completion: FETCH_LAND. A line of a put is performed at an idle bank: the line of stacked memory is
stored, and every other byte reads as before. While another line of the put is out it stays on the port and no counter
changes; with the last one it leaves the port, and its counter increases by 64 for each of its lines. Completion:
PUT_COMMIT. -/
def Obligations.FetchesAndPuts : Prop :=
  (∀ (s : State) (c : Core) (i j : Nat) (host : HostRead) (f : FetchReq) (p tc : Nat),
      s.powered → (s.core c).fetches[i]? = some f → (s.core c).fetchNo f.id = some f → (s.core c).map.phys = some p →
      j ∈ f.left → ¬ s.fetchBehind c f j → ¬ s.farBlocked c f → f.stage = false → f.tc = some tc →
      (s.core c).lastCtx = some f.ctx → (∀ t, s.stream c = some t → ¬ t.ending) →
      let a := lineAt f.addr j
      a < memTop → ¬ isContent a →
      let l := locateIn f.arr a
      let at_ := p * 2 ^ 21 + 64 * f.localLine j
      let key := s.tcKey f.ctx f.bank tc
      s.BankIdle l → s.rowClass (s.rowKey l) = .raw →
      ∃ u, exec (.fetchLand c ⟨i, [j]⟩ host) s = .next u ∧ u.mem = s.mem ∧ u.regs = s.regs ∧ u.ctxs = s.ctxs ∧
        (u.core c).stream = (s.core c).stream ∧
        sgetMany noByte u.spads.data at_ 64 = sgetMany noByte s.mem.data (s.rowKey l * 1024 + 64 * l.line) 64 ∧
        (∀ k : Nat, k < at_ ∨ at_ + 64 ≤ k → sget noByte u.spads.data k = sget noByte s.spads.data k) ∧
        (∀ k, k ≠ key → u.tcVal k = s.tcVal k) ∧
        (f.left = [j] → (u.core c).fetches = (s.core c).fetches.filter (fun x => !decide (x.id = f.id)) ∧
          u.tcVal key = s.tcVal key + BitVec.ofNat 48 (64 * f.lines)) ∧
        ((∃ k ∈ f.left, k ≠ j) → u.tcVal key = s.tcVal key ∧
          (u.core c).fetchNo f.id = some { f with left := f.left.filter (fun k => !decide (k = j)) })) ∧
  (∀ (s : State) (c : Core) (i j : Nat) (q : PutReq) (data : Line) (poison : Bool) (tc : Nat),
      s.powered → (s.core c).puts[i]? = some q → (s.core c).putNo q.id = some q → q.sent = none → ¬ s.putBehind c q j →
      j ∈ q.left → q.data[j]? = some (data, poison) → q.tc = some tc → q.addr < memTop →
      let a := lineAt q.addr j
      a < memTop → ¬ isContent a →
      let l := locateIn q.arr a
      let base := s.rowKey l * 1024 + 64 * l.line
      let key := s.tcKey q.ctx q.bank tc
      s.BankIdle l →
      ∃ u, exec (.putCommit c ⟨i, [j]⟩) s = .next u ∧ u = { s with mem := u.mem, cores := u.cores, tally := u.tally } ∧
        u.mem.cls = s.mem.cls ∧
        (∀ i : Nat, i < 64 → sget noByte u.mem.data (base + i) = data.extractLsb' (8 * i) 8) ∧
        (∀ k : Nat, k < base ∨ base + 64 ≤ k → sget noByte u.mem.data k = sget noByte s.mem.data k) ∧
        (∀ k, k ≠ key → u.tcVal k = s.tcVal k) ∧
        (q.left = [j] → (u.core c).puts = (s.core c).puts.filter (fun x => !decide (x.id = q.id)) ∧
          u.tcVal key = s.tcVal key + BitVec.ofNat 48 (64 * q.data.length)) ∧
        ((∃ k ∈ q.left, k ≠ j) → u.tcVal key = s.tcVal key ∧
          (u.core c).putNo q.id = some { q with left := q.left.filter (fun k => !decide (k = j)) }))

/-- O14. A signal whose effects before it have all been performed adds SIG_INC to SIG_TC modulo 2^48 and is taken off the
stream; no other counter, no byte of memory or of a scratchpad changes. One whose effects have not all been performed
waits. Completion: SIGNAL. The tally doorbell, in a context that runs, stops or is idle, adds its amount to a counter
of the context's range, modulo 2^48, and to no other; a counter outside the range is refused and reported. Completion:
CTX_DB_TALLY. -/
def Obligations.TallyIncrements : Prop :=
  (∀ (s : State) (c : Core) (t : Stream) (g : SigReq) (gs : List SigReq),
      s.stream c = some t → t.sigs = g :: gs → (s.core c).late = [] →
      let key := s.tcKey t.ctx t.bank g.tc
      (s.sigReady c g.mark → ¬ (t.ending ∧ gs = []) →
        ∃ u, exec (.signal c) s = .next u ∧ u = { s with tally := u.tally, cores := u.cores } ∧
          u.stream c = some { t with sigs := gs } ∧ u.tcVal key = s.tcVal key + BitVec.ofNat 48 g.inc ∧
          ∀ k, k ≠ key → u.tcVal k = s.tcVal k) ∧
      (¬ s.sigReady c g.mark → exec (.signal c) s = .next s)) ∧
  (∀ (s : State) (x : Ctx) (v : Word), s.DoorbellTaken x → s.pwr.state = .p0 → (s.ctx x).closing = none →
      (s.ctx x).st = .running ∨ (s.ctx x).st = .stopping ∨ (s.ctx x).st = .idle →
      let tc := bitsAt v.toNat 11 0
      (s.tcInRange x tc → ∃ u, exec (.ctxDbTally x v) s = .next u ∧ u = { s with tally := u.tally } ∧
        u.tcVal tc = s.tcVal tc + BitVec.ofNat 48 (bitsAt v.toNat 31 12) ∧ ∀ k, k ≠ tc → u.tcVal k = s.tcVal k) ∧
      (¬ s.tcInRange x tc → ∃ u, exec (.ctxDbTally x v) s = .next u ∧ u.tally = s.tally ∧ u.mem = s.mem ∧
        (u.ctx x).dbRefused = (s.ctx x).dbRefused + 1))

/-- O15. The fetcher: a line read of a HOST stream is asked for at the ring slot of its first word, and what it returns
brings the words of the line into the queue, in order, and counts them. Completion: TQ_LINE_FETCH. A treadle doorbell
of a running HOST stream: a value that credits new words within 4,096 of those retired becomes PRODUCED; one that
credits none is ignored. Completion: CTX_DB_TQ. -/
def Obligations.QueueFilling : Prop :=
  (∀ (s : State) (c : Core) (t : Stream) (bytes : List Byte) (ring status : BitVec 64),
      s.powered → s.stream c = some t → t.src = .host ring status → ¬ t.endFetched → t.halt = none → bytes.length = 64 →
      (∀ q ∈ t.queue, q.poison = false ∧ q.refused = none) → ¬ s.lineBlocked c [] → (s.ctx t.ctx).busMaster →
      let k := t.nextLine.1
      let n := t.nextLine.2
      0 < n →
      ∃ u v ws, exec (.tqLineFetch c (.ok bytes)) s = .next u ∧
        u = { s with cores := u.cores, toHost := s.toHost ++ [.read t.ctx (ring + BitVec.ofNat 64 (k % 4096 * 32)) (32 * n) false] } ∧
        u.stream c = some v ∧
        v.queue = t.queue ++ ws ∧ ws.length = n ∧ v.fetched = t.fetched + BitVec.ofNat 32 n ∧ v.retired = t.retired ∧
        ∀ i (h : i < ws.length), (ws[i]'h).w.toNat = natOfBytes (((bytes.drop (32 * ((k + i) % 2))).take 32).map BitVec.toNat)) ∧
  (∀ (s : State) (x : Ctx) (c : Core) (t : Stream) (v : Word) (ring status : BitVec 64),
      s.DoorbellTaken x → s.pwr.state = .p0 → (s.ctx x).st = .running → (s.ctx x).closing = none → s.stream c = some t → t.ctx = x.val → t.src = .host ring status → t.halt = none →
      (creditOf t.produced t.retired v = .taken → ∃ u, exec (.ctxDbTq x c v) s = .next u ∧ u = { s with cores := u.cores } ∧
        u.stream c = some { t with produced := v }) ∧
      (creditOf t.produced t.retired v = .ignored → ∃ u, exec (.ctxDbTq x c v) s = .next u ∧ u = { s with cores := u.cores } ∧
        u.stream c = some t))

/-- O16. Asynchronous ports of a core that is on. An NI write or an XO read that finds a slot free is made at once, behind
any access that already waits there: the access that has waited longest is the one performed (one order for both ports
is the model's choice, notes/assumptions/152.md). One that finds no slot waits behind those waiting. The port
insertion performs the access that has waited longest and counts one inserted cycle. An NI write replaces the 32-B
units of its line that have an enabled byte, clears the other unit of a line never written, and leaves every other
byte; an XO read is answered with the line, zeros where it was never written, and stores nothing. Completion:
NI_WRITE, XO_READ, ASYNC_PORT_INSERT. At the far-stack share tick every far stack's share of the tick is whole again
for every core, and nothing else of a core changes. Completion: FAR_STACK_SHARE_TICK. -/
def Obligations.CorePorts : Prop :=
  (∀ (s : State) (c : Core) (p : Nat), (s.core c).map.phys = some p →
      let performed (u : State) (acc : AsyncAcc) (rest : List AsyncAcc) : Prop :=
        (u.core c).async = rest ∧ u.mem = s.mem ∧ u.tally = s.tally ∧ u.ctxs = s.ctxs ∧
        match acc with
        | .ni item =>
          let line := item.addr.toNat / 64
          let base := p * 2 ^ 21 + 64 * line
          let enabled (half : Nat) : Prop := bitsAt item.mask.toNat (32 * half + 31) (32 * half) ≠ 0
          u = { s with spads := u.spads, cores := u.cores } ∧
          (∀ i : Nat, i < 64 → enabled (i / 32) →
            sget noByte u.spads.data (base + i) = BitVec.ofNat 8 ((bytesOfLine item.data).getD i 0)) ∧
          (∀ i : Nat, i < 64 → ¬ enabled (i / 32) → item.mask ≠ 0 → ¬ s.spads.written.contains (spadKey p line) →
            sget noByte u.spads.data (base + i) = 0) ∧
          (∀ i : Nat, i < 64 → ¬ enabled (i / 32) → item.mask = 0 ∨ s.spads.written.contains (spadKey p line) →
            sget noByte u.spads.data (base + i) = sget noByte s.spads.data (base + i)) ∧
          ∀ k : Nat, k < base ∨ base + 64 ≤ k → sget noByte u.spads.data k = sget noByte s.spads.data k
        | .xo addr =>
          let line := addr.toNat / 64
          let clean (unit : Nat) : Prop := classifySram (s.spadBytes p (32 * unit) 32 ++ s.spadChk p unit) = .clean
          u.spads = s.spads ∧ (∃ d poison, u.reply = .data d poison) ∧
          (¬ s.spads.written.contains (spadKey p line) → u.reply = .data (List.replicate 64 0) false) ∧
          (s.spads.written.contains (spadKey p line) → clean (2 * line) → clean (2 * line + 1) →
            u.reply = .data (sgetMany noByte s.spads.data (p * 2 ^ 21 + 64 * line) 64)
              (s.spads.poison.contains (spadKey p line)))
      (∀ item : NiItem, s.domainOn (.core p) → ∃ u, exec (.niWrite c item true) s = .next u ∧
        ∃ acc rest, (s.core c).async ++ [.ni item] = acc :: rest ∧ performed u acc rest) ∧
      (∀ item : NiItem, s.domainOn (.core p) → ∃ u, exec (.niWrite c item false) s = .next u ∧
        u = { s with cores := u.cores } ∧ (u.core c).async = (s.core c).async ++ [.ni item]) ∧
      (∀ addr : BitVec 21, s.domainOn (.core p) → ∃ u, exec (.xoRead c addr true) s = .next u ∧
        ∃ acc rest, (s.core c).async ++ [.xo addr] = acc :: rest ∧ performed u acc rest) ∧
      (∀ addr : BitVec 21, s.domainOn (.core p) → ∃ u, exec (.xoRead c addr false) s = .next u ∧
        u = { s with cores := u.cores } ∧ (u.core c).async = (s.core c).async ++ [.xo addr]) ∧
      (∀ acc rest, (s.core c).async = acc :: rest → ∃ u, exec (.asyncPortInsert c) s = .next u ∧
        performed u acc rest ∧ (u.core c).insert = (s.core c).insert + 1)) ∧
  (∀ s : State, ∃ u, exec .farStackShareTick s = .next u ∧ u = { s with cores := u.cores } ∧
      ∀ c, (u.core c).stream = (s.core c).stream ∧ (u.core c).fetches = (s.core c).fetches ∧
        ((s.core c).farTick ≠ s.tick → ∀ k, u.farUsed c k = 0))

/-- O17. A write of a counter's index within the context's range to CTX_TC_SEL captures that counter: CTX_TC_SEL reads the
index, and CTX_TC_VAL_LO and CTX_TC_VAL_HI read bits 31:0 and 47:32 of the value as it stood, whatever is added later.
An index at or above COUNT is a reserved encoding: the write is logged, and no register changes. A write to the page
of a context that is OFF is discarded. Completion: CTX_TC_SEL. -/
def Obligations.CounterCapture : Prop :=
  ∀ (s : State) (x : Ctx) (v : Word), s.regAnswers → s.pwr.state = .p0 → ¬ (s.ctx x).d3hot →
    let i := bitsAt v.toNat 12 0
    let val := s.tcVal (s.cfld x Reg.tcRangeLo 11 0 + i)
    ((s.ctx x).st = .off → exec (.ctxTcSel x v) s = .next s) ∧
    ((s.ctx x).st ≠ .off → i < s.cfld x Reg.tcRangeLo 28 16 → ∃ u, exec (.ctxTcSel x v) s = .next u ∧ u = { s with regs := u.regs } ∧
      u.readReg (Reg.ctx x Reg.tcSel) = BitVec.ofNat 32 i ∧ u.readReg (Reg.ctx x Reg.tcValLo) = val.extractLsb' 0 32 ∧
      u.readReg (Reg.ctx x Reg.tcValHi) = (val.extractLsb' 32 16).setWidth 32 ∧
      (∀ key n, (u.tcAdd key n).readReg (Reg.ctx x Reg.tcValLo) = u.readReg (Reg.ctx x Reg.tcValLo) ∧
        (u.tcAdd key n).readReg (Reg.ctx x Reg.tcValHi) = u.readReg (Reg.ctx x Reg.tcValHi)) ∧
      ∀ o, o ≠ Reg.ctx x Reg.tcSel → o ≠ Reg.ctx x Reg.tcValLo → o ≠ Reg.ctx x Reg.tcValHi → u.reg o = s.reg o) ∧
    ((s.ctx x).st ≠ .off → s.cfld x Reg.tcRangeLo 28 16 ≤ i → exec (.ctxTcSel x v) s = .next (s.logInvalid x Reg.tcSel v.toNat) ∧
      ((s.ctx 0).closing = none → (s.logInvalid x Reg.tcSel v.toNat).regs = s.regs))

/-! ### Spindles and row logic (06) -/

/-- O18. The seven ROWOP commands, in a stack where row logic runs and no step is pending. One that the budget, the die's
cap and the bank allow is granted at once, and gives every data bit and every check cell of its destination row the
function of its source rows, and the destination its class: that of the source for ROW-COPY, SEALED for ZERO, RAW for
the logic operations if every source row is RAW and UNSEALED otherwise; no byte outside the destination row changes.
One that they do not allow becomes a pending step, and nothing else changes. Completion: ROW_COPY, ZERO, NOT, AND, OR,
XOR, MAJ3. MKRAW, where its first row's step is granted at once: that row becomes RAW and keeps its data and check
cells, every other row keeps its class, and the steps of the rows that follow are pending, in order. Completion:
MKRAW. -/
def Obligations.RowOperations : Prop :=
  (∀ (s : State) (k : Stack) (ch : Channel) (x : Xcmd),
      s.rowLogicRuns k → (s.rowOf k).pend = [] → xop x = 5 → ¬ xFormBad x → s.xAddressOk k ch x (xBg x) → ¬ rowopSplit x →
      let row (r : Nat) : Loc := rowAt k x (xf x 36 35) r
      s.bankAnswers (row (xf x 55 40)) →
      let d := s.rowKey (row (xf x 55 40))
      let a := s.rowKey (row (xf x 71 56))
      let b := s.rowKey (row (xf x 87 72))
      let c := s.rowKey (row (xf x 103 88))
      let byte (u : State) (r i : Nat) : Byte := sget noByte u.mem.data (r * 1024 + i)
      let chk (u : State) (r i : Nat) : Byte := sget noByte u.mem.chk (r * 64 + i)
      let logic (l : List Nat) : RowClass := if l.all (fun r => s.rowClass r == .raw) then .raw else .unsealed
      let op := xf x 34 32
      let q := s.opStep op (row (xf x 55 40)) (.op op (row (xf x 55 40)) (row (xf x 71 56)) (row (xf x 87 72)) (row (xf x 103 88)))
      let granted : Prop := q.ready (s.rowOf k) (s.sclkNow k) ∧ s.fitsBudget k (s.sclkNow k) q
      let outcome (u : State) (f : Byte → Byte → Byte → Byte) (cls : RowClass) : Prop :=
        (granted → u = { s with mem := u.mem, rowLogic := u.rowLogic } ∧ u.rowClass d = cls ∧
          (∀ i : Nat, i < 1024 → byte u d i = f (byte s a i) (byte s b i) (byte s c i)) ∧
          (∀ i : Nat, i < 64 → chk u d i = f (chk s a i) (chk s b i) (chk s c i)) ∧
          (∀ j : Nat, j < d * 1024 ∨ d * 1024 + 1024 ≤ j → sget noByte u.mem.data j = sget noByte s.mem.data j) ∧
          ∀ r, r ≠ d → u.rowClass r = s.rowClass r) ∧
        (¬ granted → u = s.pushStep k q)
      (op = 0 → ∃ u, exec (.rowCopy k ch x) s = .next u ∧ outcome u (fun p _ _ => p) (s.rowClass a)) ∧
      (op = 1 → ∃ u, exec (.zero k ch x) s = .next u ∧ outcome u (fun _ _ _ => 0) .sealed) ∧
      (op = 2 → ∃ u, exec (.notRow k ch x) s = .next u ∧ outcome u (fun p _ _ => ~~~p) (logic [a])) ∧
      (op = 3 → ∃ u, exec (.andRow k ch x) s = .next u ∧ outcome u (fun p q _ => p &&& q) (logic [a, b])) ∧
      (op = 4 → ∃ u, exec (.orRow k ch x) s = .next u ∧ outcome u (fun p q _ => p ||| q) (logic [a, b])) ∧
      (op = 5 → ∃ u, exec (.xorRow k ch x) s = .next u ∧ outcome u (fun p q _ => p ^^^ q) (logic [a, b])) ∧
      (op = 6 → ∃ u, exec (.maj3 k ch x) s = .next u ∧
        outcome u (fun p q r => (p &&& q) ||| (q &&& r) ||| (p &&& r)) (logic [a, b, c]))) ∧
  (∀ (s : State) (k : Stack) (ch : Channel) (x : Xcmd),
      s.rowLogicRuns k → (s.rowOf k).pend = [] → xop x = 6 → ¬ xFormBad x → s.xAddressOk k ch x (xBg x) →
      xf x 47 32 + xf x 61 50 ≤ 65535 →
      let row (i : Nat) : Loc := rowAt k x (xf x 49 48) (xf x 47 32 + i)
      let q (i : Nat) : PStep := s.opStep 8 (row i) (.op 8 (row i) (row i) (row i) (row i))
      s.bankAnswers (row 0) → (q 0).ready (s.rowOf k) (s.sclkNow k) → s.fitsBudget k (s.sclkNow k) (q 0) →
      ∃ u, exec (.mkraw k ch x) s = .next u ∧ u = { s with mem := u.mem, rowLogic := u.rowLogic } ∧
        u.rowClass (s.rowKey (row 0)) = .raw ∧ (∀ r, r ≠ s.rowKey (row 0) → u.rowClass r = s.rowClass r) ∧
        (u.rowOf k).pend = (List.range (xf x 61 50)).map (fun i => q (i + 1)) ∧
        (∀ j, sget noByte u.mem.data j = sget noByte s.mem.data j) ∧ ∀ j, sget noByte u.mem.chk j = sget noByte s.mem.chk j)

/-- O19. A command that a Spindle cannot take (a reserved bit or operation, a pseudo-channel or an epoch that does not
match) is discarded and logged as XCMD_FAULT: no memory, Spindle, row or counter changes. QLOAD writes the query
buffer it names in the Spindle of every bank group of BGMASK, and changes nothing else. Completion: QLOAD. SCAN, SCOPY
and RESEAL join their Spindle's queue, a SCAN with the query it names; while four commands are queued, or others wait
before it, the controller holds the command back, in order. Completion: SCAN, SCOPY, RESEAL. -/
def Obligations.SpindleCommandsTaken : Prop :=
  (∀ (s : State) (k : Stack) (ch : Channel) (x : Xcmd),
      s.serving →
      let dropped (u : State) : Prop := u.mem = s.mem ∧ u.spindles = s.spindles ∧ u.rowLogic = s.rowLogic ∧ u.tally = s.tally ∧
        u.serve = s.serve ∧ ((∃ i, (sget noLog u.rel.log i).typ = 0x06) ∨ u.rel.logLost = s.rel.logLost + 1)
      let unfit : Prop := xFormBad x ∨ ¬ s.xAddressOk k ch x (xBg x)
      let reserved : Prop := xop x = 0 ∨ 8 ≤ xop x
      (reserved ∨ xop x = 2 ∧ unfit → ∃ u, exec (.scan k ch x) s = .next u ∧ dropped u) ∧
      (reserved ∨ xop x = 3 ∧ unfit → ∃ u, exec (.scopy k ch x) s = .next u ∧ dropped u) ∧
      (reserved ∨ xop x = 4 ∧ unfit → ∃ u, exec (.reseal k ch x) s = .next u ∧ dropped u) ∧
      (reserved ∨ xop x = 6 ∧ unfit → ∃ u, exec (.mkraw k ch x) s = .next u ∧ dropped u) ∧
      (reserved ∨ xop x = 7 ∧ unfit → ∃ u, exec (.pread k ch x) s = .next u ∧ dropped u) ∧
      (reserved ∨ xop x = 5 ∧ xf x 34 32 = 5 ∧ unfit → ∃ u, exec (.xorRow k ch x) s = .next u ∧ dropped u)) ∧
  (∀ (s : State) (k : Stack) (ch : Channel) (x : Xcmd) (query : List (BitVec 16)),
      s.serving → xop x = 1 → ¬ xFormBad x →
      let bg (i : Nat) : Nat := 8 * (ch.val % 2) + i
      let n (i : Nat) : Nat := execSpindle k (xDie x) (bg i) (xForeign x)
      let named (i : Nat) : Prop := i < 8 ∧ x.getLsbD (32 + i) = true
      let d := 32 * (xf x 46 44 + 1)
      let q : QBuf := { d := d, rows := queryRows d query (xf x 43 41 + 1), sigma := BitVec.ofNat 32 (xf x 79 48) }
      (∀ i, named i → s.xAddressOk k ch x (bg i) ∧ s.spdAlive (n i) ∧ ¬ (s.spindle (n i)).bufBusy (x.getLsbD 40)) →
      ∃ u, exec (.qload k ch x query) s = .next u ∧ u = { s with spindles := u.spindles } ∧
        (∀ i, named i → u.spindle (n i) =
          if x.getLsbD 40 then { s.spindle (n i) with qb1 := some q } else { s.spindle (n i) with qb0 := some q }) ∧
        ∀ m, (∀ i, named i → m ≠ n i) → u.spindle m = s.spindle m) ∧
  (∀ (s : State) (k : Stack) (ch : Channel) (x : Xcmd),
      s.serving → ¬ xFormBad x → s.xAddressOk k ch x (xBg x) →
      let n := execSpindle k (xDie x) (xBg x) (xForeign x)
      let p := s.spindle n
      s.spdAlive n →
      let joins (u : State) (q : Option QBuf) : Prop :=
        u = { s with spindles := u.spindles, serve := { s.serve with plans := u.serve.plans } } ∧
        (p.queue.length < 4 ∧ p.backlog = [] → u.spindle n = { p with queue := p.queue ++ [{ x := x, q := q }] }) ∧
        (¬ (p.queue.length < 4 ∧ p.backlog = []) → u.spindle n = { p with backlog := p.backlog ++ [{ x := x, q := q }] }) ∧
        ∀ m, m ≠ n → u.spindle m = s.spindle m
      (xop x = 2 → ∀ q, (if x.getLsbD 61 then p.qb1 else p.qb0) = some q →
        ∃ u, exec (.scan k ch x) s = .next u ∧ joins u (some q)) ∧
      (xop x = 3 → max (xf x 47 32) (xf x 65 50) + xf x 79 68 ≤ 65535 →
        ∃ u, exec (.scopy k ch x) s = .next u ∧ joins u none) ∧
      (xop x = 4 → xf x 47 32 + xf x 61 50 ≤ 65535 → ∃ u, exec (.reseal k ch x) s = .next u ∧ joins u none))

/-- O20. A Spindle with no command running starts the next of its queue, latency-critical ones first: it leaves the queue,
whose place the oldest command held back takes, runs with all its row steps to be granted, and its first step becomes
pending in its stack. When every row step of a SCAN has been granted and its records are ready, its completion writes
them to the output buffer and leaves the Spindle free; a completion stamped with another epoch is dropped and counted.
Completion: SPINDLE_CMD_START, SCAN_COMPLETE. PREAD reads out every record held for its CTAG, in order, stamped with
the Spindle's epoch, and the records leave the output buffer; the others stay. Completion: PREAD. -/
def Obligations.SpindleRuns : Prop :=
  ((∀ (s : State) (n : SpindleIx) (c : SpdCmd),
      s.serving → s.spdAlive n → (s.spindle n).run = none → (s.spindle n).nextCmd = some c → (s.spindle n).room c →
      let p := s.spindle n
      let c1 : SpdCmd := { c with steps := cmdSteps c, total := cmdSteps c, started := s.tick }
      ∃ u, exec (.spindleCmdStart n) s = .next u ∧ u = { s with spindles := u.spindles, rowLogic := u.rowLogic } ∧
        u.spindle n = { p with run := some c1, queue := removeFirst c p.queue ++ p.backlog.take 1, backlog := p.backlog.drop 1 } ∧
        (u.rowOf (n / 256)).pend = (s.rowOf (n / 256)).pend ++ [s.stepOfCmd n c1 0]) ∧
    (∀ (s : State) (n : SpindleIx) (c : SpdCmd) (epoch : BitVec 8) (g : SclkInTick),
      s.serving → (s.spindle n).run = some c → xop c.x = 2 → c.steps = 0 →
      c.endAt ≤ max (s.sclkNow (n / 256)) (750 * s.tick + g) →
      (epoch = (s.spindle n).epoch →
        ∃ u, exec (.scanComplete ⟨n, epoch, g⟩) s = .next u ∧ u = { s with spindles := u.spindles, rowLogic := u.rowLogic } ∧
          u.spindle n = { s.spindle n with run := none, out := (s.spindle n).out ++ c.records }) ∧
      (epoch ≠ (s.spindle n).epoch → exec (.scanComplete ⟨n, epoch, g⟩) s = .next (s.bumpReg Reg.glbStaleDrops 1)))) ∧
  (∀ (s : State) (k : Stack) (ch : Channel) (x : Xcmd),
      s.serving → xop x = 7 → ¬ xFormBad x → s.xAddressOk k ch x (xBg x) →
      let n := execSpindle k (xDie x) (xBg x) (xForeign x)
      let out := (s.spindle n).out
      let mine := out.filter (fun r => decide (r.ctag = xTag x))
      s.spdAlive n → s.serve.plans.find? (planOf n (xTag x)) = none →
      ∃ u, exec (.pread k ch x) s = .next u ∧ u = { s with spindles := u.spindles, reply := u.reply } ∧
        u.reply = .pread (s.spindle n).epoch ((mine.map PartialRec.bytes).flatten.map (BitVec.ofNat 8)) ∧
        u.spindle n = { s.spindle n with out := out.filter (fun r => ¬ r.ctag = xTag x) } ∧
        ∀ m, m ≠ n → u.spindle m = s.spindle m)

/-- O21. The activation budget, with one step pending in a stack whose bank lets it start. It is granted when the window's
used units and its own stay within the effective budget and its die is below the cap in every cycle of the step: its
units are charged, it is pending no more, its banks are taken, and what it does follows. Past the budget it stays
pending, is counted as refused, and nothing else changes. A new window begins with nothing used. Completion:
STEP_GRANT, BUDGET_WINDOW. A busy bank's step is over: a whole-line write that waited there is performed and stores
its line and no other byte, and a read that waited behind it is answered; nothing waits any more. While the step goes
on nothing is served. Completion: BUSY_BANK_SERVE. A row request's step aborted because an access, a read, has waited
1,500 SCLK at its bank: the destination rows become UNSEALED, the request fails with 0x0F, its pending steps go, no
stored byte changes, and the bank is busy no more. Completion: STEP_ABORT. In P0 and P1 the refresh of a bank that
answers, that no step holds and where nothing waits is recorded for that bank alone; while a step holds the bank it
waits, behind what waits there. Completion: REFRESH. -/
def Obligations.RowStepBudget : Prop :=
  (∀ (s : State) (k : Stack) (g : SclkInTick) (q : PStep),
      let s1 := s.reachSclk k (750 * s.tick + g.val)
      let now := s1.sclkNow k
      let r := s1.rowOf k
      let used := if r.window = s.tick then r.used else 0
      (s.rowLogicRuns k → (s.rowOf k).pend = [q] → q.bg < 256 → q.ready r now →
        (used + q.units ≤ s.effectiveBudget k →
          (∀ i, i < q.len → occupied r.booked (q.bg / 16) (q.start now + i) < s.fld Reg.spdDieCap 3 0) →
          ∃ v : State, exec (.stepGrant k g) s = .next (v.stepEffect k now q) ∧ v = { s with rowLogic := v.rowLogic } ∧
            (v.rowOf k).pend = [] ∧ (v.rowOf k).used = used + q.units ∧ (v.rowOf k).window = s.tick ∧
            ∀ e ∈ busyUntil q now, (sget noBank (v.rowOf k).banks e.1).step = some q) ∧
        (s.effectiveBudget k < used + q.units →
          exec (.stepGrant k g) s = .next (s1.bumpReg (Reg.spdPerfDeny k) 1))) ∧
      (∃ u, exec (.budgetWindow k) s = .next u ∧ u = { s with rowLogic := u.rowLogic } ∧ (u.rowOf k).window = s.tick ∧
        (u.rowOf k).used = (if (s.rowOf k).window = s.tick then (s.rowOf k).used else 0) ∧ (u.rowOf k).pend = (s.rowOf k).pend)) ∧
  (∀ (s : State) (k : Stack) (d : Die) (b : Bank) (g : SclkInTick),
      let l : Loc := ⟨k.toNat, d.toNat, b.toNat, 0, 0⟩
      let s1 := s.reachSclk k (750 * s.tick + g.val)
      s.domainOn (.stack k) → (∀ c, (s.ctx c).bells = []) →
      (∀ (a1 a2 t1 t2 : Nat) (l1 l2 : Loc) (data : Line) (path : Path),
        ¬ s1.bankBusy l → (s1.bankSt l).waits = [(t1, .write a1 data fullMask false l1), (t2, .read a2 path false l2)] →
        l1.stack = k.toNat → l1.die = d.toNat → l1.bank = b.toNat → l2.stack = k.toNat → l2.die = d.toNat → l2.bank = b.toNat →
        a1 < memTop → ¬ isContent a1 → a2 < memTop → ¬ isContent a2 → s.bankAnswers l →
        s.rowClass (s.rowKey l2) = .raw →
        let base := s.rowKey l1 * 1024 + 64 * l1.line
        ∃ u, exec (.busyBankServe k d b g) s = .next u ∧
          u = { s with mem := u.mem, rowLogic := u.rowLogic, reply := u.reply } ∧ (u.bankSt l).waits = [] ∧
          (∀ i : Nat, i < 64 → sget noByte u.mem.data (base + i) = data.extractLsb' (8 * i) 8) ∧
          (∀ j : Nat, j < base ∨ base + 64 ≤ j → sget noByte u.mem.data j = sget noByte s.mem.data j) ∧
          u.reply = .data (sgetMany noByte u.mem.data (s.rowKey l2 * 1024 + 64 * l2.line) 64) false) ∧
      (s1.bankBusy l → exec (.busyBankServe k d b g) s = .next s1)) ∧
  (∀ (s : State) (k : Stack) (d : Die) (b : Bank) (g : SclkInTick) (q : PStep) (c : Nat) (r : RowReq) (rs : List RowReq)
      (t a : Nat) (path : Path) (la : Loc), ¬ isContent a →
      let l : Loc := ⟨k.toNat, d.toNat, b.toNat, 0, 0⟩
      let s1 := s.reachSclk k (750 * s.tick + g.val)
      let now := s1.sclkNow k
      s.domainOn (.stack k) → (∀ c, (s.ctx c).bells = []) → (s1.bankSt l).held = some q → q.spindle = none → q.kind = .rowop → q.act = .request c r.id →
      q.banks = [64 * d.toNat + b.toNat] → (s.ctx c).rowQ = r :: rs → (∀ x ∈ rs, x.id ≠ r.id) →
      (s1.bankSt l).waits = [(t, .read a path false la)] → t + 1500 ≤ now →
      la.stack = k.toNat → la.die = d.toNat → la.bank = b.toNat →
      (s.ctx 0).closing = none →
      ∃ u, exec (.stepAbort k d b g) s = .next u ∧ u.mem.data = s.mem.data ∧ u.mem.chk = s.mem.chk ∧
        (∀ rk ∈ q.dest, u.rowClass rk = .unsealed) ∧ (∀ rk, rk ∉ q.dest → u.rowClass rk = s.rowClass rk) ∧
        (u.ctx c).rowQ = { r with fail := some 0x0F } :: rs ∧ ¬ u.bankBusy l ∧
        (u.rowOf k).pend = (s.rowOf k).pend.filter (fun p => !(p.act == .request c r.id)) ∧ u.tally = s.tally) ∧
  (∀ (s : State) (k : Stack) (d : Die) (b : Bank), s.powered → s.pwr.state = .p0 ∨ s.pwr.state = .p1 →
      let l : Loc := ⟨k.toNat, d.toNat, b.toNat, 0, 0⟩
      s.bankAnswers l →
      (s.BankIdle l → ∃ t, exec (.refresh k d b) s = .next t ∧ t = { s with mem := { s.mem with refresh := t.mem.refresh } } ∧
        ∀ j, sget noRefresh t.mem.refresh j =
          if j = (k.toNat * 16 + d.toNat) * 64 + b.toNat then s.tick else sget noRefresh s.mem.refresh j) ∧
      (s.bankBusy l → exec (.refresh k d b) s = .next (s.setBankSt l { s.bankSt l with
        waits := (s.bankSt l).waits ++ [(s.sclkNow l.stack, .refresh)] })))

/-- O22. ROWREQ: an acceptable record is taken from the ring, reserves its completion slot and joins the context's row
requests with its body and tag. A request that has failed, or has performed its last step and whose bank is free
again, leaves the queue and its completion is written, with its status and its count of steps. Completion: ROWREQ,
ROWREQ_COMPLETE. The last step of a ROWREQ ZERO: granted, it clears the row, counts the step, adds 1,024 to its
counter, and leaves every other row. -/
def Obligations.RowRequests : Prop :=
  ((∀ (s : State) (x : Ctx) (rec : Record),
      recKind rec = 0x30 → s.rowreqBad x rec = none → s.mayAccept x 1 →
      ∃ u l r, exec (.rowreq x rec) s = .next u ∧ (u.ctx x).sqHead = (s.ctx x).sqHead + 1 ∧
        (u.ctx x).reserved = (s.ctx x).reserved + 1 ∧ (u.ctx x).rowQ = l ++ [r] ∧ l.length = (s.ctx x).rowQ.length ∧
        r.tag = recTag rec ∧ r.body = BitVec.ofNat 512 (recField rec 1023 512) ∧ u.mem = s.mem ∧ u.tally = s.tally) ∧
    (∀ (s : State) (x : Ctx) (r : RowReq),
      s.PostsNow x → (s.ctx x).rowQ = [r] → s.rowOver r →
      ∃ u, exec (.rowreqComplete x) s = .next u ∧ (u.ctx x).rowQ = [] ∧ u.mem = s.mem ∧
        Posted s u x { rkind := 0x30, status := r.fail.getD 0, tag := r.tag, count := r.done })) ∧
  (∀ (s : State) (k : Stack) (g : SclkInTick) (q : PStep) (c : Nat) (r : RowReq),
      let s1 := s.reachSclk k (750 * s.tick + g.val)
      let now := s1.sclkNow k
      let w := s1.rowOf k
      let used := if w.window = s.tick then w.used else 0
      s.rowLogicRuns k → (s.rowOf k).pend = [q] → q.bg < 256 → q.spindle = none → q.kind = .rowop → q.act = .request c r.id →
      q.ready w now → (s.ctx c).rowQ = [r] → RowBody.op r.body = 1 → RowBody.count r.body = r.done → RowBody.tcEn r.body →
      let l := s.locate (RowBody.dst r.body + 1024 * r.done)
      let d := s.rowKey l
      s.bankAnswers l → used + q.units ≤ s.effectiveBudget k →
      (∀ i, i < q.len → occupied w.booked (q.bg / 16) (now + i) < s.fld Reg.spdDieCap 3 0) →
      ∃ u, exec (.stepGrant k g) s = .next u ∧ (u.ctx c).rowQ = [{ r with done := r.done + 1, endAt := (now + q.busy, k.toNat) }] ∧
        u.tcVal (RowBody.tc r.body) = s.tcVal (RowBody.tc r.body) + 1024 ∧
        (∀ i : Nat, i < 1024 → sget noByte u.mem.data (d * 1024 + i) = 0) ∧ u.rowClass d = .sealed ∧
        (∀ j : Nat, j < d * 1024 ∨ d * 1024 + 1024 ≤ j → sget noByte u.mem.data j = sget noByte s.mem.data j) ∧
        u = { s with mem := u.mem, ctxs := u.ctxs, tally := u.tally, rowLogic := u.rowLogic })

/-- O23. The life of a Spindle. A declaration of an alive Spindle is asked for, to fall due at the next tick boundary;
once due it takes effect: the Spindle is dead, with its epoch increased, its queue and buffers gone. A dead one of a
stack that is not lost, whose epoch is not exhausted and which passes its self-test, is admitted and logged; one that
fails it is not. It is alive from the first tick boundary at which its buddy holds no FOREIGN command. Completion:
SPD_CMD_DECLARE, SPINDLE_DECLARED_DEAD, SPD_CMD_ADMIT. -/
def Obligations.SpindleLifecycle : Prop :=
  (∀ (s : State) (n : SpindleIx), s.regAnswers → ¬ (s.ctx 0).d3hot → s.spdAlive n →
    ∃ u, exec (.spdCmdDeclare n) s = .next u ∧ u = { s with pwr := u.pwr, rel := { s.rel with asked := u.rel.asked } } ∧
      (.spindleDead n.val 6 ∈ u.rel.asked ∨ .spindleDead n.val 6 ∈ s.rel.boundary) ∧ s.rel.asked <+: u.rel.asked) ∧
  (∀ (s : State) (n : SpindleIx) (why : Nat), s.serving → .spindleDead n.val why ∈ s.rel.boundary → s.spdAlive n →
    ∃ u, exec (.spindleDeclaredDead n) s = .next u ∧ (∀ w, .spindleDead n.val w ∉ u.rel.boundary) ∧ ¬ u.spdAlive n ∧
      (u.spindle n).epoch = (s.spindle n).epoch + 1 ∧ (u.spindle n).queue = [] ∧ (u.spindle n).run = none ∧
      (u.spindle n).qb0 = none ∧ (u.spindle n).qb1 = none ∧
      (s.skeins.table = [] → (∀ c, (s.ctx c).closing = none) → u.mem = s.mem)) ∧
  (∀ (s : State) (n : SpindleIx) (ok : Bool), s.regAnswers → ¬ (s.ctx 0).d3hot → ¬ s.spdAlive n →
    (s.spindle n).epoch ≠ 255 → ¬ s.stackIsLost (n / 256) →
    ∃ u, exec (.spdCmdAdmit n ok) s = .next u ∧ u.spindles = s.spindles ∧ u.mem = s.mem ∧ u.tally = s.tally ∧
      (∀ m, m ∈ u.rel.admits ↔ m ∈ s.rel.admits ∨ (ok = true ∧ m = n.val)) ∧
      ((∃ i, (sget noLog u.rel.log i).typ = 0x0A ∧ (sget noLog u.rel.log i).unit = n.val) ∨ u.rel.logLost = s.rel.logLost + 1)) ∧
  (∀ (s : State) (n : SpindleIx), s.pending = [] → s.serving → s.serve.steps = [] → ¬ s.pwr.drain →
    (∀ p, (s.port p).inReq = []) → s.rel.asked = [] → n.val ∈ s.rel.admits → ¬ s.foreignHeld n →
    ∃ u, step s = .next u ∧ u.spdAlive n ∧ (u.spindle n).epoch = (s.spindle n).epoch ∧ u.mem = s.mem)

/-! ### Skeins (07) -/

/-- O24. The Governor ZEROes a freed block: every byte of its 128 rows reads 0, the rows are SEALED, the block may be
allocated again, and no byte of any other row changes; nothing may wait at the block's banks. A block that held an
uncorrectable line of a lost Skein is withheld when a line of it still fails afterwards, and its owner entry stays as
it was. The row steps are charged to the stack's budget. Completion: BLOCK_ZERO. -/
def Obligations.BlockZeroClears : Prop :=
  ∀ (s : State) (b : BitVec 22),
    let n := b.toNat
    let row (q : Nat) : Nat := s.rowKey (decodeLoc 2 (n * 2 ^ 17 + 1024 * q))
    s.serving → ¬ s.blockZeroed n → n < 62 * 65536 → s.rmode (n / 65536) = 2 → sget noOwner s.skeins.owner n = 0 →
    ¬ s.blockWithheld n → ¬ s.skeins.lost.contains n → s.blockAnswers n → s.blockQuiet n →
    (¬ s.skeins.reseal.contains n →
      ∃ u, exec (.blockZero b []) s = .next u ∧ u = { s with mem := u.mem, skeins := u.skeins, rowLogic := u.rowLogic } ∧
        u.blockZeroed n ∧
        u.skeins.table = s.skeins.table ∧ u.skeins.owner = s.skeins.owner ∧
        (∀ q i : Nat, q < 128 → i < 1024 → sget noByte u.mem.data (row q * 1024 + i) = 0) ∧
        (∀ q, q < 128 → u.rowClass (row q) = .sealed) ∧
        ∀ r i : Nat, i < 1024 → (∀ q, q < 128 → r ≠ row q) →
          sget noByte u.mem.data (r * 1024 + i) = sget noByte s.mem.data (r * 1024 + i)) ∧
    (∀ i, s.skeins.reseal.contains n → i < 2048 →
      (let l := decodeLoc 2 (n * 2 ^ 17 + 64 * i)
       classifyLine (s.rawData (s.rowKey l) l.line ++ s.rawChk (s.rowKey l) l.line) = .uncorrectable) →
      ∃ u, exec (.blockZero b [i]) s = .next u ∧ u.blockWithheld n ∧ ¬ u.skeins.reseal.contains n ∧
        u.skeins.table = s.skeins.table ∧ u.skeins.owner = s.skeins.owner)

/-- O25. Relocation, spill and restore as the Skein table shows them. A relocation starts, into a block apart from its
chain neighbours' bank groups where there is a choice: the entry is MOVING and owns both blocks. It completes, across
stacks once an engine has made the copy: the entry is RESIDENT at its new block and the old block is free and not
zeroed. A spill that an engine has copied completes: the entry is SPILLED at its slot and its block is free and not
zeroed, and 16 host-window writes have been made for each data row. A restore completes: the entry is RESIDENT at the
block given, which it owns, its spill slot is free, and the slot's lines have been read from the host window. Nothing
may wait at the banks of a block that a copy reads or writes. Completion: SKEIN_RELOCATE_START, RELOCATE_COMPLETE,
SPILL_COMPLETE, RESTORE_COMPLETE. A line of the Skein table lost in every copy: the block of each resident Skein of
its four entries stays out of use. A line of the block map lost: the blocks whose entries it held stay out of use.
What was out of use stays so, and no stored byte changes. Completion: SKEIN_TABLE_LOST. -/
def Obligations.SkeinMoves : Prop :=
  (∀ (s : State) (h : BitVec 22),
      let n := h.toNat
      let e := s.skein n
      let owner (u : State) (b : Nat) : Nat := sget noOwner u.skeins.owner b
      s.serving →
      (∀ dest : BitVec 22, e.st = .resident → e.spillTo = none → s.skeinIdle n → s.blockFree dest.toNat →
        s.wellPlaced n dest.toNat →
        ∃ u, exec (.skeinRelocateStart h dest) s = .next u ∧ u = { s with mem := u.mem, skeins := u.skeins } ∧
          u.skein n = { e with st := .moving, dest := dest.toNat } ∧ owner u dest.toNat = n + 1 ∧
          (∀ m, m ≠ n → u.skein m = s.skein m) ∧ ∀ b, b ≠ dest.toNat → owner u b = owner s b) ∧
      (e.st = .moving → e.dest ≠ e.block → e.refs ≠ 0 → ¬ s.across e ∨ s.copying (.relocate n) →
        s.blockQuiet e.block → s.blockQuiet e.dest →
        ∃ u, exec (.relocateComplete h) s = .next u ∧
          u.skein n = { e with st := .resident, block := e.dest, dest := 0 } ∧ owner u e.block = 0 ∧ ¬ u.blockZeroed e.block ∧
          (∀ m, m ≠ n → u.skein m = s.skein m) ∧ u.tally = s.tally) ∧
      (∀ slot, e.st = .resident → e.spillTo = some slot → s.skeinIdle n → s.copying (.spill n) → (s.ctx e.ctx).busMaster →
        s.blockQuiet e.block →
        ∃ u, exec (.spillComplete h) s = .next u ∧ u.skein n = { e with st := .spilled, block := slot, spillTo := none } ∧
          owner u e.block = 0 ∧ ¬ u.blockZeroed e.block ∧ (u.ctx e.ctx).writes = (s.ctx e.ctx).writes + 16 * e.dataRows ∧
          u.mem.cls = s.mem.cls ∧ u.tally = s.tally ∧ u.cores = s.cores ∧ ∀ m, m ≠ n → u.skein m = s.skein m) ∧
      (∀ (b : BitVec 22) (bytes : List Byte), e.st = .spilled → s.restoring n → s.copying (.restore n) → s.blockFree b.toNat →
        ¬ s.atCeiling e.ctx → s.blockQuiet b.toNat → s.wellPlaced n b.toNat →
        ∃ u, exec (.restoreComplete h b (.ok bytes)) s = .next u ∧ u.skein n = { e with st := .resident, block := b.toNat } ∧
          owner u b.toNat = n + 1 ∧ sget noSpill u.serve.spill (e.ctx * 2 ^ 24 + e.block) = 0 ∧
          (∀ m, m ≠ n → u.skein m = s.skein m) ∧ u.tally = s.tally ∧
          ((s.ctx e.ctx).busMaster → s.toHost ++ (List.range (16 * e.dataRows)).map (fun i =>
            .read e.ctx (BitVec.ofNat 64 (s.winAddr e.ctx (s.spillOff e.ctx e.block + 64 * i))) 64 (s.ctx e.ctx).noSnoop) <+: u.toHost))) ∧
  (∀ s : State, s.powered →
      (∀ line : BitVec 20, ∃ u, exec (.skeinTableLost (.table line)) s = .next u ∧ u.mem.data = s.mem.data ∧
        (∀ i, i < 4 → (s.skein (4 * line.toNat + i)).st = .resident → (s.skein (4 * line.toNat + i)).block ∈ u.skeins.lost) ∧
        ∀ b ∈ s.skeins.lost, b ∈ u.skeins.lost) ∧
      (∀ (a : DevAddr) (blocks : List (BitVec 22)), ∃ u, exec (.skeinTableLost (.map a blocks)) s = .next u ∧
        u.mem.data = s.mem.data ∧ (∀ b ∈ blocks, b.toNat ∈ u.skeins.lost) ∧ ∀ b ∈ s.skeins.lost, b ∈ u.skeins.lost))

/-! ### Submission records (08, 12) -/

/-- O26. A malformed record, of whatever kind, does nothing but receive its completion: it is taken from the ring and
completed with status BOUNDS (0x03), the byte offset of the first failing condition, and the refused mark. -/
def Obligations.MalformedRecordsRefused : Prop :=
  ∀ (s : State) (x : Ctx) (rec : Record) (off : Nat), s.mayAccept x 1 → s.PostsNow x →
    let refused (u : State) (kind : Nat) (tag : Word) : Prop :=
      u = { s with ctxs := u.ctxs, toHost := u.toHost } ∧
        (u.ctx x).sqHead = (s.ctx x).sqHead + 1 ∧ (u.ctx x).reserved = (s.ctx x).reserved ∧
        Posted s u x { rkind := kind, status := 0x03, erroff := off, tag := tag, refused := true }
    let tag := recTag rec
    (recKind rec = 0x30 → s.rowreqBad x rec = some off → ∃ u, exec (.rowreq x rec) s = .next u ∧ refused u 0x30 tag) ∧
    (recKind rec = 0x50 → s.loadBad x rec = some off → ∃ u, exec (.modelLoad x rec) s = .next u ∧ refused u 0x50 tag) ∧
    (recKind rec = 0x10 → s.hankBad x rec = some off →
      ∃ u, exec (.hank x rec) s = .next u ∧ refused u 0x10 (BitVec.ofNat 32 (recField rec 63 32))) ∧
    (recKind rec = 0x12 → seqRecordBad rec = some off → ∃ u, exec (.seqRelease x rec) s = .next u ∧ refused u 0x12 tag) ∧
    (recKind rec = 0x13 → seqRecordBad rec = some off → ∃ u, exec (.seqCompact x rec) s = .next u ∧ refused u 0x13 tag)

/-- O27. An acceptable HANK record reserves NSEQ + 2 completion slots and becomes the last hank of the device, QUEUED,
with the latency-critical class only where the context may have it; a class denied is counted as demoted. An
acceptable STREAM record becomes a best-effort hank of one step. Nothing runs yet. Completion: HANK, STREAM. In a
device that holds no work, MODEL_LOAD into a slot with no model puts the record's model into the slot and completes.
Into a slot that has one it asks for the next tick boundary, where the model is replaced, which ends its quarantine,
and the load completes. MODEL_UNLOAD of a slot with no hank empties it and completes. Every other slot stays.
Completion: MODEL_LOAD, MODEL_UNLOAD. -/
def Obligations.HanksAndModels : Prop :=
  (∀ (s : State) (x : Ctx) (rec : Record),
      (recKind rec = 0x10 → s.hankBad x rec = none → s.mayAccept x (recField rec 73 64 + 2) →
        ∃ u h, exec (.hank x rec) s = .next u ∧
          u.serve = { s.serve with hanks := s.serve.hanks ++ [h], nextUid := s.serve.nextUid + 1, vt := u.serve.vt, had := u.serve.had } ∧
          h.uid = s.serve.nextUid ∧ h.ctx = x.val ∧ h.stream = false ∧ h.desc = rec ∧ h.st = .queued ∧ h.model = recField rec 23 16 ∧
          h.lc = (recField rec 8 8 == 1 && s.cfld x Reg.govShare 0 0 == 1) ∧
          (u.ctx x).sqHead = (s.ctx x).sqHead + 1 ∧ (u.ctx x).reserved = (s.ctx x).reserved + recField rec 73 64 + 2 ∧
          (u.ctx x).demoted = (s.ctx x).demoted + (if recField rec 8 8 = 1 ∧ s.cfld x Reg.govShare 0 0 ≠ 1 then 1 else 0) ∧
          u.mem = s.mem ∧ u.cores = s.cores ∧ u.tally = s.tally) ∧
      (recKind rec = 0x40 → lowestOutside rec.toNat (spans [(0, 15), (64, 105), (1984, 2015)]) 0 2047 = none →
        recField rec 69 64 = 0 → s.mayAccept x 1 →
        ∃ u h, exec (.stream x rec) s = .next u ∧ u = { s with serve := u.serve, ctxs := u.ctxs, toHost := u.toHost } ∧
          u.serve = { s.serve with hanks := s.serve.hanks ++ [h], nextUid := s.serve.nextUid + 1, vt := u.serve.vt, had := u.serve.had } ∧
          h.uid = s.serve.nextUid ∧ h.ctx = x.val ∧ h.stream = true ∧ h.lc = false ∧ h.desc = rec ∧ h.st = .queued ∧
          h.mask = BitVec.ofNat 8 (recField rec 15 8) ∧ (u.ctx x).sqHead = (s.ctx x).sqHead + 1 ∧
          (u.ctx x).reserved = (s.ctx x).reserved + 1)) ∧
  (∀ (s : State) (rec : Record), s.PostsNow 0 → s.mayAccept 0 1 → s.serve.hanks = [] → s.serve.steps = [] → s.serve.loads = [] →
      s.serve.held = [] → (∀ e ∈ s.serve.models, ∀ m, e.2 = some m → m.unload = none) →
      (recKind rec = 0x50 → s.loadBad 0 rec = none → s.model (recField rec 519 512) = none →
        ∃ u, exec (.modelLoad 0 rec) s = .next u ∧ u.model (recField rec 519 512) = some { rec_ := BitVec.ofNat 1024 (recField rec 1535 512) } ∧
          (∀ m, m ≠ recField rec 519 512 → u.model m = s.model m) ∧ u.serve.loads = [] ∧ u.mem = s.mem ∧
          Posted s u 0 { rkind := 0x50, tag := recTag rec }) ∧
      (∀ o, recKind rec = 0x50 → s.loadBad 0 rec = none → s.model (recField rec 519 512) = some o →
        let q : LoadReq := ⟨recField rec 519 512, BitVec.ofNat 1024 (recField rec 1535 512), recTag rec⟩
        (∃ u, exec (.modelLoad 0 rec) s = .next u ∧ u.serve.models = s.serve.models ∧ u.serve.loads = [q] ∧
          (.load q.slot ∈ u.rel.asked ∨ .load q.slot ∈ s.rel.boundary) ∧ (u.ctx 0).reserved = (s.ctx 0).reserved + 1) ∧
        let t : State := { s with serve := { s.serve with loads := [q] } }
        (t.resolve (.load q.slot)).model q.slot = some { rec_ := q.rec_, unload := o.unload } ∧
          (∀ m, m ≠ q.slot → (t.resolve (.load q.slot)).model m = s.model m) ∧ (t.resolve (.load q.slot)).serve.loads = [] ∧
          (¬ o.quarantined → Posted t (t.resolve (.load q.slot)) 0 { rkind := 0x50, tag := q.tag })) ∧
      (recKind rec = 0x51 → lowestOutside rec.toNat (spans [(0, 7), (16, 23), (1984, 2015)]) 0 2047 = none →
        s.loaded (recField rec 23 16) →
        ∃ u, exec (.modelUnload 0 rec) s = .next u ∧ u.model (recField rec 23 16) = none ∧
          (∀ m, m ≠ recField rec 23 16 → u.model m = s.model m) ∧ u.mem = s.mem ∧
          Posted s u 0 { rkind := 0x51, tag := recTag rec }))

/-- O28. Records about sequences. CANCEL marks the stepping sequence it names, to end with its step, asks for the end of
one that is not stepping at the next tick boundary, and completes with the count of sequences named. SEQ_RELEASE of a
HELD sequence frees it and completes with status 0; of one not held, with BOUNDS. SEQ_COMPACT of a stepping sequence
of an ACTIVE hank is owed until the step ends; of a sequence that is nowhere it completes with BOUNDS. BARRIER
completes at once when no earlier record is outstanding, and otherwise waits. Completion: CANCEL, SEQ_RELEASE,
SEQ_COMPACT, BARRIER. -/
def Obligations.SequenceRecords : Prop :=
  ∀ (s : State) (x : Ctx) (rec : Record), s.PostsNow x → s.mayAccept x 1 →
    let id := recField rec 51 32
    (∀ (h : Hank) (q : Seq) (i : Nat), recKind rec = 0x11 →
      lowestOutside rec.toNat (spans [(0, 8), (16, 25), (32, 63), (1984, 2015)]) 0 2047 = none → recField rec 8 8 = 0 →
      s.serve.hanks = [h] → h.ctx = x.val → h.stream = false → h.tag = BitVec.ofNat 32 (recField rec 63 32) →
      i = recField rec 25 16 → h.seqs[i]? = some q → ¬ q.st.final →
      ∃ u, exec (.cancel x rec) s = .next u ∧ u.mem = s.mem ∧ Posted s u x { rkind := 0x11, tag := recTag rec, aux := 1 } ∧
        (q.st = .stepping → u.seq h.uid i = { q with cancel := true }) ∧
        (q.st ≠ .stepping → u.seq h.uid i = q ∧
          (.seqEnds h.uid i 0x01 ∈ u.rel.asked ∨ .seqEnds h.uid i 0x01 ∈ s.rel.boundary))) ∧
    (∀ y : Held, recKind rec = 0x12 → seqRecordBad rec = none → s.serve.held = [y] → y.ctx = x.val → y.compact = none →
      (y.seqid = id → ∃ u, exec (.seqRelease x rec) s = .next u ∧ u.serve.held = [] ∧ u.tally = s.tally ∧
        Posted s u x { rkind := 0x12, tag := recTag rec }) ∧
      (y.seqid ≠ id → ∃ u, exec (.seqRelease x rec) s = .next u ∧ u.serve = s.serve ∧ u.skeins = s.skeins ∧ u.mem = s.mem ∧
        Posted s u x { rkind := 0x12, tag := recTag rec, status := 0x03 })) ∧
    (recKind rec = 0x13 → seqRecordBad rec = none → s.serve.held = [] →
      (s.serve.hanks = [] → ∃ u, exec (.seqCompact x rec) s = .next u ∧ u.serve = s.serve ∧ u.mem = s.mem ∧
        Posted s u x { rkind := 0x13, status := 0x03, tag := recTag rec }) ∧
      (∀ (h : Hank) (q : Seq), s.serve.hanks = [h] → h.ctx = x.val → h.st = .active → h.seqs = [q] → q.seqid = id →
        q.st = .stepping → q.compact = none → ∃ u, exec (.seqCompact x rec) s = .next u ∧
          u.seq h.uid 0 = { q with compact := some (recTag rec) } ∧ (u.ctx x).reserved = (s.ctx x).reserved + 1 ∧ u.mem = s.mem)) ∧
    (recKind rec = 0x01 → lowestOutside rec.toNat (spans [(0, 7), (1984, 2015)]) 0 2047 = none →
      ((s.ctx x).reserved = 0 → ∃ u, exec (.barrier x rec) s = .next u ∧ u = { s with ctxs := u.ctxs, toHost := u.toHost } ∧
        (u.ctx x).barrier = none ∧ Posted s u x { rkind := 0x01, tag := recTag rec }) ∧
      ((s.ctx x).reserved ≠ 0 → ∃ u, exec (.barrier x rec) s = .next u ∧ u = { s with ctxs := u.ctxs, toHost := u.toHost } ∧
        (u.ctx x).barrier = some (recTag rec) ∧ (u.ctx x).reserved = (s.ctx x).reserved + 1))

/-! ### The Governor's steps (07, 08) -/

/-- O29. A selection pass, with no hank ready, resumes a pre-empted step whose core groups are free: its restore begins. A
halted Busko runs no pass. Completion: SELECTION_PASS. The end of a phase that a core's failure ended: the step is
gone, its counter bank is free, and each sequence that was stepping in it is final or its hank is gone. A switch under
way ends: one that saves a step with no core to save leaves it pre-empted and at rest; one that restores a step, whose
cores are its context's still, leaves it running, its hank STEPPING. Completion: PHASE_END, PREEMPT_SWITCH_END. -/
def Obligations.StepsEndAndResume : Prop :=
  (∀ (s : State) (p : StepSt),
      (s.trust.halted → exec .selectionPass s = .next s) ∧
      (¬ s.trust.halted → s.serving → s.pwr.state = .p0 → ¬ s.pwr.drain → s.serve.held = [] → s.serve.hanks = [] →
        s.serve.steps = [p] → s.serve.preempted = [p.uid] → p.switch = none → (s.ctx p.ctx).closing = none →
        ∃ u, exec .selectionPass s = .next u ∧ u.serve.steps = [{ p with switch := some false }] ∧ u.serve.preempted = [] ∧
          u.rel.wdogAt = s.tick ∧ u.mem = s.mem ∧ u.cores = s.cores ∧ u.tally = s.tally)) ∧
  (∀ (s : State) (p : StepSt) (h : Hank), s.serving → s.stepOf p.uid = some p → s.hankOf p.hank = some h →
      (∀ code, phaseCode p.ends = some code → (p.phase = .main ∨ p.phase = .prefill ∨ p.phase = .draft) →
        s.cores.all (fun e => !(e.2.stream.any (fun t => t.work = p.uid))) → p.preAt = none → p.switch = none → p.waiting = [] →
        p.restart = false → (s.ctx p.ctx).closing = none → h.seqs.length = h.nseq →
        ∃ u, exec (.phaseEnd p.uid) s = .next u ∧ u.stepOf p.uid = none ∧ p.bank ∉ u.banks ∧
          ∀ w ∈ p.slots, (h.seq w.slot).st = .stepping → ∀ k, u.hankOf p.hank = some k → (k.seq w.slot).st.final) ∧
      (p.switch = some true → s.settled p → p.saved = [] →
        ∃ u, exec (.preemptSwitchEnd p.uid) s = .next u ∧ u.stepOf p.uid = some { p with switch := none } ∧
          u = { s with serve := { s.serve with steps := u.serve.steps } }) ∧
      (p.switch = some false → p.saved = [] → p.phase = .main → p.ends = [] → s.serve.rows = [] → (s.ctx p.ctx).closing = none →
        (∀ c ∈ coresOf p.mask, (s.core c).lastCtx = some p.ctx) →
        ∃ u, exec (.preemptSwitchEnd p.uid) s = .next u ∧
          u.stepOf p.uid = some { p with switch := none, preAt := none, saved := [], away := p.away + (s.tick - p.preAt.getD s.tick) } ∧
          (u.hankOf p.hank).any (fun k => k.st == .stepping) ∧ u.mem = s.mem ∧ u.cores = s.cores ∧ u.tally = s.tally))

/-- O30. When a sub-batch's trigger counter has reached a layer, its attention begins, once: the layer is counted as
begun. A prefill layer's append writes count the sub-batch's bytes on its counter. Completion: ATTENTION_BEGIN,
PREFILL_APPEND. The merge units. The oldest row of an SSB that waits for its slots gets them if the region has room,
and otherwise goes on waiting. A partial that arrives in its turn, with others still to come, is added to the row's
accumulator, and the turn passes on. Codewords corrected in its slot are counted in bucket 8. A partial whose slot
fails its check is taken as NaN in every element, and the row's sequence will end with WEIGHT_POISON. Completion:
MERGE_SLOT_RESERVE, PARTIAL_ARRIVE. -/
def Obligations.LayersAndMerges : Prop :=
  (∀ (s : State) (p : StepSt) (h : Hank) (m : Model) (sub : Bool),
      s.serving → s.stepOf p.uid = some p → s.hankOf p.hank = some h → s.modelOf h = some m → p.restart = false →
      s.layerDue p h m sub →
      (p.phase = .main → ¬ h.train → ∃ u q, exec (.attentionBegin p.uid sub) s = .next u ∧ u.stepOf p.uid = some q ∧
        q.layer sub = p.layer sub + 1 ∧ q.layer (!sub) = p.layer (!sub)) ∧
      (p.phase = .prefill → ∃ u q, exec (.prefillAppend p.uid sub) s = .next u ∧ u.stepOf p.uid = some q ∧
        q.layer sub = p.layer sub + 1 ∧
        (let key := s.tcKey p.ctx (some p.bank) (h.ytc sub)
         u.tcVal key = s.tcVal key + BitVec.ofNat 48 (h.subSize sub * h.rows .prefill * m.nkv * m.carrier) ∧
         ∀ k, k ≠ key → u.tcVal k = s.tcVal k))) ∧
  ((∀ (s : State) (k : Stack) (r : MergeRow), s.domainOn (.ssb k) →
      s.serve.rows.find? (fun r => decide (r.ssb = k.val) && !r.reserved) = some r →
      (s.mergeUsed k + r.bytes ≤ s.mergeRoom k → ∃ u, exec (.mergeSlotReserve k) s = .next u ∧
        u = { s with serve := { s.serve with rows := s.serve.rows.map (fun x => if x.id = r.id then { x with reserved := true } else x) } }) ∧
      (s.mergeRoom k < s.mergeUsed k + r.bytes → exec (.mergeSlotReserve k) s = .next s)) ∧
    (∀ (s : State) (k : Stack) (r : MergeRow) (pr : PartialRec),
      s.serve.rows.find? (fun x => decide (x.id = r.id ∧ x.ssb = k.val) && x.reserved) = some r →
      r.inbox.find? (fun e => decide (e.1 = r.next)) = some (r.next, pr) → r.slots = [] → r.next + 1 < r.nslots →
      (s.ctx r.ctx).closing = none →
      let after (p : Partial) : List MergeRow := s.serve.rows.map (fun x => if x.id = r.id then
        { r with acc := mergeAdd r.acc p, next := r.next + 1, slots := [], inbox := r.inbox.filter (fun e => !decide (e.1 = r.next)) }
        else x)
      exec (.partialArrive k r.id r.next .clean) s = .next { s with serve := { s.serve with rows := after pr.part } } ∧
      (∀ n, ∃ u, exec (.partialArrive k r.id r.next (.corrected n)) s = .next u ∧ u.serve.rows = after pr.part ∧ u.mem = s.mem ∧
        u.reg (Reg.eccCeCount 8) = s.reg (Reg.eccCeCount 8) + BitVec.ofNat 32 n) ∧
      (∀ off, ∃ u, exec (.partialArrive k r.id r.next (.failed off)) s = .next u ∧ u.serve.rows = after (Partial.nan r.d) ∧ u.mem = s.mem ∧
        ∀ p h, s.stepOf r.step = some p → s.hankOf p.hank = some h → r.slot < h.seqs.length → (u.seq p.hank r.slot).fate = some 0x07)))

/-- O31. Sequences that wait for Skeins. A parked sequence whose Skeins are all resident and that lacked no block rejoins
its hank at a retry. One whose wait bound has passed ends with KV_EXHAUSTED (0x06), and its completion is written.
Completion: KV_RETRY, KV_WAIT_EXPIRY. The Governor's windows and limits. A new budget window forgets the charges of
the last. The throttle, 1,000 ticks after the last comparison, takes one eighth more from every stack's budget while
the power is above CAP_W, gives one back below 95 % of it; the power read always shows. Completion:
BUDGET_WINDOW_START, GOVERNOR_THROTTLE. -/
def Obligations.GovernorLimits : Prop :=
  (∀ (s : State) (h : Hank) (q : Seq), s.serving → s.serve.hanks = [h] → h.seqs = [q] → h.stream = false → q.st = .parked →
      (∀ m, s.modelOf h = some m → s.seqResident q.chains → q.kvSince = none →
        ∃ u, exec .kvRetry s = .next u ∧ u = { s with serve := { s.serve with hanks := u.serve.hanks, vt := u.serve.vt, had := u.serve.had } } ∧
          u.seq h.uid 0 = { q with st := if q.hasPrompt then .prefill else .decode, restore := false }) ∧
      (∀ since, q.kvSince = some since → since + s.fld Reg.govKvWait 23 0 ≤ s.tick → s.PostsNow h.ctx → q.compact = none → q.errs = [] →
        ∃ u, exec (.kvWaitExpiry h.uid 0) s = .next u ∧ (∀ k, u.hankOf h.uid = some k → (k.seq 0).st = .done) ∧ u.tally = s.tally ∧
          s.toHost ++ [s.cqRecord h.ctx { ckind := 2, rkind := 0x10, status := 0x06, tag := h.tag, aux := q.tag, slot := 0, count := q.out }]
            <+: u.toHost)) ∧
  ((∀ s : State,
      let start := s.tick / s.fld Reg.govWindow 23 0 * s.fld Reg.govWindow 23 0
      (start ≠ s.serve.windowStart → ∃ u, exec .budgetWindowStart s = .next u ∧
        u = { s with serve := { s.serve with windowStart := start, charged := [], beTicks := 0 } }) ∧
      (start = s.serve.windowStart → exec .budgetWindowStart s = .next s)) ∧
    (∀ (s : State) (watts : BitVec 16), s.serving →
      let cap := s.fld Reg.govThrottle 28 18
      (s.serve.throttleAt + 1000 ≤ s.tick → ∃ u, exec (.governorThrottle watts) s = .next u ∧
        u = { s with regs := u.regs, serve := { s.serve with throttle := u.serve.throttle, throttleAt := s.tick, holdBe := u.serve.holdBe } } ∧
        u.reg Reg.pwrPower = watts.setWidth 32 ∧
        (cap < watts.toNat → ¬ s.throttledOut → s.serve.throttle < 8 → u.serve.throttle = s.serve.throttle + 1) ∧
        (100 * watts.toNat < 95 * cap → u.serve.throttle = s.serve.throttle - 1) ∧
        (95 * cap ≤ 100 * watts.toNat → watts.toNat ≤ cap → u.serve.throttle = s.serve.throttle)) ∧
      (s.tick < s.serve.throttleAt + 1000 →
        exec (.governorThrottle watts) s = .next (s.setReg Reg.pwrPower (watts.setWidth 32)))))

/-- O32. Quarantine and repair. A quarantine that is due takes effect: the slot's model, which has weights on the line, is
quarantined with the line on its repair list. A mirrored model of which no step runs has the one line on its list
repaired, once an engine makes the copy: the line's bytes are those of its mirror line, no other byte changes, the
list is empty, and the end of the quarantine is asked for at the next tick boundary. A step given up for a dead core
restarts once nothing of the attempt is under way: no scan plan and no merge row of the attempt remains, and the
restart is no longer owed. Completion: QUARANTINE, MIRROR_REPAIR, DEAD_CORE_STEP_RESTART. -/
def Obligations.QuarantineAndRestart : Prop :=
  (∀ (s : State) (m : ModelSlot) (o : Model) (line : Nat), s.serving → s.rel.boundary = [.quarantine m.val line] →
    s.model m = some o → o.hasWeight line → o.repair = [] →
    ∃ u o', exec (.quarantine m) s = .next u ∧ u.model m = some o' ∧ o'.quarantined ∧ o'.repair = [line] ∧ o'.rec_ = o.rec_ ∧
      u.rel.boundary = [] ∧ u.mem = s.mem ∧ ∀ k, k ≠ m.val → u.model k = s.model k) ∧
  (∀ (s : State) (m : ModelSlot) (o : Model) (a b : Nat), s.serving → s.model m = some o → o.mirror → o.quarantined → ¬ o.full →
    ¬ s.modelStepping m → s.rel.mirrorBad = [] → o.repair = [a] → o.mirrorOf a = some b → s.copying (.mirror m.val) →
    a < memTop → a % 64 = 0 → ¬ isContent a → b < memTop → b % 64 = 0 → ¬ isContent b →
    let la := s.locate a
    let lb := s.locate b
    s.bankAnswers la → s.bankAnswers lb → s.rowClass (s.rowKey la) = .raw → s.rowClass (s.rowKey lb) = .raw →
    let base := s.rowKey la * 1024 + 64 * la.line
    ∃ u, exec (.mirrorRepair m []) s = .next u ∧ u.model m = some { o with repair := [] } ∧
      (.restored m.val ∈ u.rel.asked ∨ .restored m.val ∈ s.rel.boundary) ∧
      sgetMany noByte u.mem.data base 64 = sgetMany noByte s.mem.data (s.rowKey lb * 1024 + 64 * lb.line) 64 ∧
      (∀ j : Nat, j < base ∨ base + 64 ≤ j → sget noByte u.mem.data j = sget noByte s.mem.data j) ∧
      ∀ k, k ≠ m.val → u.model k = s.model k) ∧
  (∀ (s : State) (p : StepSt) (h : Hank), s.serving → s.stepOf p.uid = some p → s.hankOf p.hank = some h → p.restart →
    s.cores.all (fun e => !(e.2.stream.any (fun t => t.work = p.uid))) → p.preAt = none → p.switch = none → p.waiting = [] →
    s.serve.rows = [] → ¬ s.bankOwed p.bank → (s.ctx p.ctx).closing = none →
    ∃ u, exec (.deadCoreStepRestart p.uid) s = .next u ∧ (∀ q ∈ u.serve.plans, q.step ≠ p.uid) ∧
      (∀ r ∈ u.serve.rows, r.step ≠ p.uid) ∧ ∀ q, u.stepOf p.uid = some q → q.restart = false)

/-! ### The Winder (09) -/

/-- O33. WINDER records. An acceptable record joins the queue. While none of the Governor's copies waits, a free engine
takes a descriptor whose turn it is: one that is aligned and does not overlap itself, or overlaps as a move, is held
by the engine, waiting if it asks to; one that is not aligned completes with ALIGN (0x02), one that overlaps otherwise
with OVERLAP (0x04), and both leave the engine free. A copy of the Governor's that waits is taken first, while fewer
than WND_GOV.ENGINES are running. Nothing is copied yet. Completion: WINDER, WINDER_DISPATCH. An engine's wait ends
when its counter has reached its target; when it has lasted WND_HOLD ticks without that, the descriptor completes with
TIMEOUT (0x0F) and the engine is free. An engine with nothing left to issue or write and nothing outstanding completes
its descriptor with its outcome and the bytes committed. Completion: WINDER_WAIT_SATISFIED, WINDER_WAIT_TIMEOUT,
WINDER_COMPLETE. -/
def Obligations.WinderDescriptors : Prop :=
  ((∀ (s : State) (x : Ctx) (rec : Record), recKind rec = 0x20 → s.winderBad x rec = none → s.mayAccept x 1 →
      ∃ u, exec (.winder x rec) s = .next u ∧ u = { s with winder := u.winder, ctxs := u.ctxs, toHost := u.toHost } ∧
        u.winder = { s.winder with queue := s.winder.queue ++ [⟨x.val, recTag rec, BitVec.ofNat 1024 rec.toNat⟩] } ∧
        (u.ctx x).sqHead = (s.ctx x).sqHead + 1 ∧ (u.ctx x).reserved = (s.ctx x).reserved + 1) ∧
    (∀ (s : State) (e : Engine), s.serving → ¬ s.pwr.drain → (s.engine e).desc = none → ¬ (s.engine e).gov.any s.copyWanted →
      let last := (s.engine e).last
      (∀ d, s.nextCopy = none → s.nextWinder last = some d →
        (d.aligned → (d.overlaps → d.movable) →
          ∃ u, exec (.winderDispatch e) s = .next u ∧ u = { s with winder := u.winder } ∧
            u.winder.queue = dropFirst d s.winder.queue ∧
            u.engine e = { desc := some d, wait := if d.waitEn then some s.tick else none, move := d.overlaps
                           down := d.overlaps && d.descends, last := d.ctx } ∧
            ∀ f, f ≠ e.val → u.engine f = s.engine f) ∧
        (s.PostsNow d.ctx → ¬ d.aligned ∨ d.overlaps ∧ ¬ d.movable →
          ∃ u, exec (.winderDispatch e) s = .next u ∧ (u.engine e).desc = none ∧ u.mem = s.mem ∧ u.tally = s.tally ∧
            Posted s u d.ctx { rkind := 0x20, status := if d.aligned then 0x04 else 0x02, tag := d.tag })) ∧
      (∀ g, s.nextCopy = some g → s.governing < s.fld Reg.wndGov 3 0 →
        ∃ u, exec (.winderDispatch e) s = .next u ∧ u = { s with winder := u.winder } ∧ u.winder.queue = s.winder.queue ∧
          u.engine e = { gov := some g, last := last } ∧ ∀ f, f ≠ e.val → u.engine f = s.engine f))) ∧
  (∀ (s : State) (e : Engine) (d : WDesc), s.serving → (s.engine e).desc = some d →
      (∀ t, (s.engine e).wait = some t →
        (s.winderReached d → ∃ u, exec (.winderWaitSatisfied e) s = .next u ∧ u = { s with winder := u.winder } ∧
          u.engine e = { s.engine e with wait := none } ∧ ∀ f, f ≠ e.val → u.engine f = s.engine f) ∧
        (¬ s.winderReached d → exec (.winderWaitSatisfied e) s = .next s) ∧
        (¬ s.winderReached d → t + s.fld Reg.wndHold 23 0 ≤ s.tick → s.PostsNow d.ctx →
          ∃ u, exec (.winderWaitTimeout e) s = .next u ∧ (u.engine e).desc = none ∧ u.mem = s.mem ∧
            Posted s u d.ctx { rkind := 0x20, status := 0x0F, tag := d.tag, count := (s.engine e).committed })) ∧
      ((s.engine e).wait = none → (s.engine e).torn = false → (s.engine e).finished d → (s.twine.reqs.all (fun r => r.eng != e.val)) → s.PostsNow d.ctx →
        ∃ u, exec (.winderComplete e) s = .next u ∧ (u.engine e).desc = none ∧ u.mem = s.mem ∧
          Posted s u d.ctx { rkind := 0x20, status := (s.engine e).outcome.1, tag := d.tag, count := (s.engine e).committed
                             addr := if (s.engine e).outcome.1 = 0x03 then (s.engine e).outcome.2 else 0 }))

/-- O34. One access of a DENSE copy within the device, at an idle bank. If a source unit is still to be read, the engine
reads it: its bytes are in hand as the row holds them, and memory and counters stay. If all are in hand, the engine
writes its destination access: the bytes stored are those of the positions it walks, every other byte of memory reads
as before, and it moves on. Completion: WINDER_ACCESS. -/
def Obligations.WinderCopies : Prop :=
  ∀ (s : State) (e : Engine) (host : HostRead) (d : WDesc),
    let x := s.engine e
    s.serving → x.desc = some d → x.wait = none → x.stop = none → x.land = [] → x.loop = [] → x.at_ = none → d.mode = 0 → ¬ d.sremote →
    ¬ d.dremote → x.pos < d.total → x.rpos = x.pos → x.skipPads d d.total d.total x.pos = x.pos →
    let seg := min d.total (x.segEnd d)
    let f := WEngine.fill d seg (seg + 1) x
    (∀ a : Nat, f.2 = some (a : Int) → s.winderRefusal d.ctx a false = none → a < memTop → ¬ isContent a → s.BankIdle (s.locate a) →
      let l := s.locate a
      s.rowClass (s.rowKey l) = .raw → a % 64 + d.unit ≤ 64 →
      ∃ u g, exec (.winderAccess e host) s = .next u ∧ u = { s with winder := u.winder } ∧
        (u.engine e).got = f.1.got ++ [g] ∧ g.addr = a ∧ g.poison = false ∧
        g.data = (sgetMany noByte s.mem.data (s.rowKey l * 1024 + 64 * l.line + a % 64) d.unit).map BitVec.toNat ∧
        (u.engine e).pos = x.pos ∧ (u.engine e).committed = x.committed) ∧
    (∀ a : Nat, f.2 = none →
      let y := f.1
      let l := y.chunk d (min seg y.rpos) y.pos
      let b := y.outBytes d l
      let at_ := s.locate a
      let base := s.rowKey at_ * 1024 + 64 * at_.line + a % 64
      y.outStart l = (a : Int) → s.winderRefusal d.ctx a true = none → a < memTop → ¬ isContent a → s.BankIdle at_ →
      s.rowClass (s.rowKey at_) = .raw → a % 64 + b.length ≤ 64 → b ≠ [] → ¬ d.dtcEn → y.badUnit d l = none →
      ∃ u, exec (.winderAccess e host) s = .next u ∧ u = { s with winder := u.winder, mem := u.mem } ∧
        (∀ i (h : i < b.length), sget noByte u.mem.data (base + i) = BitVec.ofNat 8 (b[i]'h)) ∧
        (∀ k, k < base ∨ base + b.length ≤ k → sget noByte u.mem.data k = sget noByte s.mem.data k) ∧
        (u.engine e).pos = x.pos + l.length ∧ (u.engine e).committed = x.committed + b.length)

/-! ### The Twine fabric (11) -/

/-- O35. Inbound requests. A WRITE or READ whose seal opens, that passes the checks of epochs, node and form, and that the
translation its port holds grants, is served: the bytes of a WRITE within one line of a RAW row at an idle bank are
stored and no other byte changes, and its CACK is queued; a READ of one such line changes no byte and its RDATA is
queued with the line's bytes. A request that is not granted stores nothing and its NACK is queued. A packet whose seal
does not open takes the port DOWN and stores nothing. Completion: WRITE, READ. -/
def Obligations.InboundRequests : Prop :=
  ∀ (s : State) (p : Port) (pkt : Packet) (opened : Option (List (BitVec 256))) (e : BitVec 128),
    let h := pkt.header
    let n := hBytes h + 1
    s.Receives p pkt → s.opened p pkt = opened → s.AddressedHere h → (s.port p).inReq = [] → (s.port p).st.live →
    (s.port p).egress + responseItems h ≤ 8192 → s.takenOf p = {} →
    (s.port p).cache.find? (fun x => decide (x.1 = hAddr h / 2 ^ 21)) = some (hAddr h / 2 ^ 21, e) →
    let rsp (u : State) (a : Answer) : Prop := (u.port p).rsp = (s.port p).rsp ++ [s.responsePkt h (hSnode h) a]
    let refused : Prop := s.grant e h (hSnode h) = none
    let granted (a : Nat) : Prop := s.grant e h (hSnode h) = some a ∧ a % 64 + n ≤ 64 ∧ s.BankIdle (s.locate (a / 64 * 64)) ∧
      s.rowClass (s.rowKey (s.locate (a / 64 * 64))) = .raw
    let line (a : Nat) : Nat := s.rowKey (s.locate (a / 64 * 64)) * 1024 + 64 * (s.locate (a / 64 * 64)).line
    (isKind 1 0 h → ∃ u, exec (.write p pkt) s = .next u ∧ match opened with
      | none => (u.port p).st = .down ∧ u.mem = s.mem
      | some data => pktOk h data pkt.trailer → (refused → rsp u .nack ∧ u.mem.data = s.mem.data) ∧
        ∀ a, granted a → rsp u .cack ∧
          (∀ i, i < n → sget noByte u.mem.data (line a + a % 64 + i) =
            BitVec.ofNat 8 ((itemBytes data).getD (hAddr h % 64 + i) 0)) ∧
          ∀ k, k < line a + a % 64 ∨ line a + a % 64 + n ≤ k → sget noByte u.mem.data k = sget noByte s.mem.data k) ∧
    (isKind 2 0 h → ∃ u, exec (.read p pkt) s = .next u ∧ match opened with
      | none => (u.port p).st = .down ∧ u.mem = s.mem
      | some data => pktOk h data pkt.trailer → (refused → rsp u .nack ∧ u.mem.data = s.mem.data) ∧
        ∀ a, granted a → u.mem.data = s.mem.data ∧
          rsp u (.rdata ((sgetMany noByte s.mem.data (line a) 64).map BitVec.toNat) 0))

/-- O36. Responses. A CACK, a NACK or an RDATA that names an outstanding request resolves it: the request is outstanding
no more; a CACK counts its bytes as committed; a NACK stops the engine that issued it with the refused address; the
data of an RDATA are in the engine's hand as source of its block, or are written to the destination the request named,
at an idle bank, and counted. One that names no outstanding request is counted as LATE. Completion: CACK, NACK, RDATA.
A request unanswered for TWN_REQ_TO ticks resolves with TIMEOUT, and its tag is held back for 16 times as long; then
the tag is free. Completion: REQUEST_TIMEOUT, TAG_FREE. -/
def Obligations.ResponsesAndTimers : Prop :=
  (∀ (s : State) (p : Port) (pkt : Packet) (opened : Option (List (BitVec 256))),
      let h := pkt.header
      s.Receives p pkt → s.opened p pkt = opened → s.AddressedHere h → (s.port p).inReq = [] →
      let named (r : RemReq) : Prop := s.twine.reqs = [r] ∧ r.tag = hTag h ∧ r.node = hSnode h ∧ r.sent
      let late (u : State) : Prop := u.reg (Reg.twnPCount p 5) = s.reg (Reg.twnPCount p 5) + 1 ∧ u.mem = s.mem
      (isKind 4 0 h → ∃ u, exec (.cack p pkt) s = .next u ∧ match opened with
        | none => (u.port p).st = .down ∧ u.mem = s.mem
        | some data => pktOk h data pkt.trailer → (s.twine.reqs = [] → late u) ∧
          ∀ r, named r → r.write → u.twine.reqs = [] ∧ (u.engine r.eng).committed = (s.engine r.eng).committed + r.bytes ∧
            u.mem = s.mem) ∧
      (isKind 5 0 h → ∃ u, exec (.nack p pkt) s = .next u ∧ match opened with
        | none => (u.port p).st = .down ∧ u.mem = s.mem
        | some data => pktOk h data pkt.trailer → (s.twine.reqs = [] → late u) ∧
          ∀ r, named r → (s.engine r.eng).desc.isSome → (s.engine r.eng).failed = none →
            u.twine.reqs = [] ∧ (u.engine r.eng).failed = some (r.serial, 0x03, r.addr) ∧ (u.engine r.eng).stop.isSome ∧
            u.mem = s.mem) ∧
      (isKind 3 0 h → ∃ u, exec (.rdata p pkt) s = .next u ∧ match opened with
        | none => (u.port p).st = .down ∧ u.mem = s.mem
        | some data => pktOk h data pkt.trailer → (s.twine.reqs = [] → late u) ∧
          ∀ r d, named r → ¬ r.write → r.addr = hAddr h → r.len = hBytes h + 1 → (s.engine r.eng).desc = some d →
            let x := s.engine r.eng
            u.twine.reqs = [] ∧
            (r.into = [] → u.mem = s.mem ∧ (u.engine r.eng).got = x.got ++ unitsOf r d.unit (itemBytes data) (hPoison h)) ∧
            (∀ a, r.into = [(a, 0, r.len)] → hPoison h = 0 → x.land = [] → x.landAt = none → x.failed = none → a % d.unit + r.len ≤ d.unit →
              s.winderRefusal d.ctx a true = none → a < memTop → ¬ isContent a → s.BankIdle (s.locate a) →
              s.rowClass (s.rowKey (s.locate a)) = .raw → ¬ d.dtcEn →
              let base := s.rowKey (s.locate a) * 1024 + 64 * (s.locate a).line + a % 64
              (u.engine r.eng).committed = x.committed + r.len ∧
              (∀ i, i < r.len → sget noByte u.mem.data (base + i) = BitVec.ofNat 8 ((itemBytes data).getD (r.addr % 64 + i) 0)) ∧
              ∀ k, k < base ∨ base + r.len ≤ k → sget noByte u.mem.data k = sget noByte s.mem.data k))) ∧
  ((∀ (s : State) (tag : BitVec 16) (r : RemReq), s.twine.reqs = [r] → r.tag = tag.toNat →
      r.at_ + s.fld Reg.twnReqTo 19 0 ≤ s.tick → (s.engine r.eng).desc.isSome → (s.engine r.eng).failed = none →
      ∃ u, exec (.requestTimeout tag) s = .next u ∧ u = { s with twine := u.twine, winder := u.winder } ∧ u.twine.reqs = [] ∧
        u.twine.late = s.twine.late ++ [(r.tag, s.tick + 16 * s.fld Reg.twnReqTo 19 0)] ∧
        (u.engine r.eng).failed = some (r.serial, 0x0F, r.addr)) ∧
    (∀ (s : State) (tag : BitVec 16) (t : Nat), s.twine.late = [(tag.toNat, t)] →
      ∃ u, exec (.tagFree tag) s = .next u ∧ u = { s with twine := u.twine } ∧ u.twine.late = if t ≤ s.tick then [] else [(tag.toNat, t)]))

/-- O37. Link packets and control items. LINK PARAM from a partner in the same mode, and not a dead node, brings the port
UP and records the partner; any other takes it DOWN. LINK CREDIT returns credit in its trailer. LINK SPDM hands its
message to the Distaff, and the acknowledgement of a key update gives its direction the next key. LINK DOWN takes a
live port DOWN. An IDLE or FILL item is discarded, and an item of a reserved kind is counted as malformed. Completion:
PARAM, CREDIT, SPDM, DOWN, IDLE, FILL. The transmitter. A packet at the head of the link class leaves the egress FIFO
and is sent with its header, when nothing holds the port; FILL items within a packet of more than CUT items are
counted. Credit that has built up is returned in a LINK CREDIT, which as any link packet joins the port's queue,
waiting where the FIFO has no room. A class head that has waited 1,000 ticks for credit takes the port DOWN. A
direction's key update starts after 2^40 packets with a message of the Distaff's to the partner and, unfinished after
2^41, takes the port DOWN. Completion: EGRESS_PACKET_START, CREDIT_RETURN_TIMER, CREDIT_WAIT_EXPIRY, KEY_UPDATE_START,
KEY_UPDATE_EXPIRY. -/
def Obligations.LinkTraffic : Prop :=
  (∀ (s : State) (p : Port) (pkt : Packet) (opened : Option (List (BitVec 256))),
      let h := pkt.header
      let t := pkt.trailer.toNat
      (s.Receives p pkt → s.opened p pkt = opened → (s.port p).inReq = [] →
        (isKind 6 1 h → (s.port p).st = .param → ∃ u, exec (.param p pkt) s = .next u ∧ u.mem = s.mem ∧ match opened with
          | none => (u.port p).st = .down
          | some data => pktOk h data pkt.trailer →
            let v := (data.getD 0 0).toNat
            if s.creditMode p = !v.testBit 25 ∧ (v.testBit 24 ∨ ¬ (s.peer (bitsAt v 15 0)).dead) then
              (u.port p).st = .up ∧ (u.port p).partner = some (bitsAt v 15 0, bitsAt v 23 16, v.testBit 24) ∧ (u.port p).passes = 0
            else (u.port p).st = .down) ∧
        (isKind 6 2 h → ∃ u, exec (.credit p pkt) s = .next u ∧ u.mem = s.mem ∧ match opened with
          | none => (u.port p).st = .down
          | some data => pktOk h data pkt.trailer → s.creditMode p → (u.port p).credit =
            { lnk := (s.port p).credit.lnk + bitsAt t 175 160, rsp := (s.port p).credit.rsp + bitsAt t 159 144
              req := (s.port p).credit.req + bitsAt t 143 128 }) ∧
        (isKind 6 3 h → ∃ u, exec (.spdm p pkt) s = .next u ∧ u.mem = s.mem ∧ match opened with
          | none => (u.port p).st = .down
          | some data => pktOk h data pkt.trailer → (u.port p).spdmIn = (s.port p).spdmIn ++ [data] ∧
            ∀ dir, (s.port p).st.live → (s.port p).updates = [dir] →
              (Config.linkAck data → (u.port p).updates = [] ∧ (u.port p).seq dir = 0) ∧
              (¬ Config.linkAck data → (u.port p).updates = [dir])) ∧
        (isKind 6 4 h → (s.port p).st.live → ∃ u, exec (.down p pkt) s = .next u ∧ u.mem = s.mem ∧ match opened with
          | none => (u.port p).st = .down
          | some data => pktOk h data pkt.trailer → (u.port p).st = .down)) ∧
      (∀ (item : BitVec 256) (fec : Nat), s.powered → (s.port p).st.receives →
        let u := if hField item 7 0 ≤ 1 then s.countFec p fec else (s.countFec p fec).countPort p 0
        exec (.idle p ⟨item, fec⟩) s = .next u ∧ exec (.fill p ⟨item, fec⟩) s = .next u)) ∧
  (∀ (s : State) (p : Port),
      (∀ k rest fills, s.powered → s.pwr.safe = none → (s.port p).st = .up → ¬ s.paused p → (s.port p).inReq = [] →
        (s.port p).lnk = k :: rest → (s.port p).lnkWait = [] →
        k.items ≤ (s.port p).credit.lnk →
        ∃ u pkt, exec (.egressPacketStart ⟨p, fills⟩) s = .next u ∧ u = { s with twine := u.twine, regs := u.regs } ∧
          (u.port p).lnk = rest ∧ u.twine.sent = s.twine.sent ++ [(p.val, pkt)] ∧ pkt.header = k.header ∧ (u.port p).st = .up ∧
          u.reg (Reg.twnPCount p 3) = s.reg (Reg.twnPCount p 3) +
            (if s.fld (Reg.twnPCtl p) 15 8 < k.items then BitVec.ofNat 32 fills else 0)) ∧
      (s.creditMode p → (s.port p).st = .up → 256 ≤ (s.port p).owed.lnk + (s.port p).owed.rsp + (s.port p).owed.req →
        (s.port p).lnk = [] → (s.port p).lnkWait = [] → ∃ u, exec (.creditReturnTimer p) s = .next u ∧ u = { s with twine := u.twine } ∧
          (u.port p).lnk ++ (u.port p).lnkWait = [{ header := s.linkHeader p 2, data := [] }]) ∧
      (∀ cls t, (s.port p).st = .up → (classCode cls, t) ∈ (s.port p).heads → t + 1000 ≤ s.tick →
        ∃ u, exec (.creditWaitExpiry p cls) s = .next u ∧ (u.port p).st = .down ∧ u.mem = s.mem) ∧
      (∀ dir, (s.port p).st.live → 2 ^ 40 ≤ (s.port p).seq dir → dir ∉ (s.port p).updates → (s.port p).txKey →
        ∃ u, exec (.keyUpdateStart p dir) s = .next u ∧ u = { s with twine := u.twine, drawn := u.drawn } ∧
          (u.port p).updates = (s.port p).updates ++ [dir] ∧ (u.port p).seq dir = (s.port p).seq dir ∧
          (u.port p).lnk ++ (u.port p).lnkWait = (s.port p).lnk ++ (s.port p).lnkWait ++
            [{ header := s.linkHeader p 3, data := Config.linkMessage p s.drawn }]) ∧
      (∀ dir, (s.port p).st.live → 2 ^ 41 ≤ (s.port p).seq dir → ∃ u, exec (.keyUpdateExpiry p dir) s = .next u ∧
        (u.port p).st = .down ∧ u.mem = s.mem))

/-- O38. Bring-up. An enabled DISABLED port trains; trained, it aligns; aligned with a skew of at most 20 ns, it
authenticates, the requester of the link sending the session's first message; authenticated with a chain that passes
while the device's own identity is provisioned and the session is established, it has keys in both directions and
sends its parameters; a chain that does not verify, or a sled's that no SEC_TWN_ROOT register names, brings nothing. A
state that outlasts its limit takes the port DOWN. A DOWN port with retries left trains again after 100,000 ticks,
counting the pass. Completion: PORT_ENABLE, TRAIN_DONE, ALIGN_DONE, AUTH_DONE, PORT_STATE_LIMIT, DOWN_RETRAIN. A live
port that loses its link goes DOWN without keys, credits or queued responses, and every request sent on it resolves.
When all that was sent to a node on its primary port has resolved, its queued requests move to the alternate, which
has room for them. Completion: LINK_FAILURE, ALTERNATE_FAILOVER. -/
def Obligations.PortStates : Prop :=
  (∀ (s : State) (p : Port), s.serving →
      let x := s.port p
      let goes (u : State) (st : PortSt) : Prop := (u.port p).st = st ∧ (u.port p).since = s.tick ∧
        u.mem = s.mem ∧ u.tally = s.tally ∧ ∀ q, q ≠ p.val → u.port q = s.port q
      (s.portEnabled p → x.st = .disabled → ¬ s.pwr.drained → ∃ u, exec (.portEnable p) s = .next u ∧ goes u .train) ∧
      (x.st = .train → ∃ u, exec (.trainDone p) s = .next u ∧ goes u .align ∧ (u.port p).lnk = x.lnk) ∧
      (∀ skew, x.st = .align → skew ≤ 20 → x.txKey = false → ∃ u, exec (.alignDone p skew) s = .next u ∧ goes u .auth ∧
        (u.port p).lnk ++ (u.port p).lnkWait = x.lnk ++ x.lnkWait ++
          if s.requester p then [{ header := bareSpdm, data := Config.linkMessage p s.drawn }] else []) ∧
      (∀ skew, x.st = .align → 20 < skew → exec (.alignDone p skew) s = .next s) ∧
      (∀ chain, x.st = .auth → s.chainPasses chain → s.fld Reg.secStatusLo 17 17 = 1 → s.linkAgreed p →
        ∃ u, exec (.authDone p chain) s = .next u ∧
        goes u .param ∧ (u.port p).txKey ∧ (u.port p).rxKey ∧ (u.port p).txSeq = 0 ∧ (u.port p).rxSeq = 0 ∧
        (u.port p).lnk ++ (u.port p).lnkWait = x.lnk ++ x.lnkWait ++ [{ header := s.linkHeader p 1, data := s.paramItems p }]) ∧
      (∀ chain : PartnerChain, ¬ chain.verifies ∨ (∃ d, chain.sled = some d ∧ ∀ r, r < 4 → s.twnRoot r ≠ d.toNat) →
        exec (.authDone p chain) s = .next s) ∧
      (∀ n, x.st.limit = some n → x.since + n ≤ s.tick → ∃ u, exec (.portStateLimit p) s = .next u ∧ (u.port p).st = .down ∧
        u.mem = s.mem) ∧
      (x.st = .down → ¬ x.spent → x.since + 100000 ≤ s.tick → ∃ u, exec (.downRetrain p) s = .next u ∧ goes u .train ∧
        (u.port p).passes = x.passes + 1)) ∧
  ((∀ (s : State) (p : Port) (why : LinkFailReason), (s.port p).st.live →
      ∃ u, exec (.linkFailure p why) s = .next u ∧ (u.port p).st = .down ∧ ¬ (u.port p).txKey ∧ ¬ (u.port p).rxKey ∧
        (u.port p).rsp = [] ∧ (u.port p).credit = {} ∧ (∀ r ∈ u.twine.reqs, ¬ (r.sent ∧ r.port = some p.val)) ∧ u.mem = s.mem ∧
        u.tally = s.tally) ∧
    (∀ (s : State) (node : BitVec 16) (r : RemReq) (k : TxPkt), s.serving →
      let t := s.route node.toNat
      t.1 < 8 → t.1 ≠ t.2 → ¬ s.portUp t.1 → s.portUp t.2 → s.twine.reqs = [r] → r.node = node.toNat → r.sent = false →
      r.port = some t.1 → (s.port t.1).req = [k] → k.own = some r.tag → (s.port t.2).egress + k.items ≤ 8192 →
      ∃ u, exec (.alternateFailover node) s = .next u ∧ u = { s with twine := u.twine } ∧ u.twine.reqs = [{ r with port := some t.2 }] ∧
        (u.port t.1).req = [] ∧ (u.port t.2).req = (s.port t.2).req ++ [k]))

/-- O39. Peers and translations. At the boundary a declared peer is dead, with its epoch increased up to 255, and an
admitted one is alive again. TWN_XLT_CMD WRITE stores the entry in DATA_0 to DATA_3 as 16 bytes of the reserved area's
copies, and no port holds the page's translation any more; READ brings the 16 bytes of an entry back; an entry with a
reserved bit is not stored. Completion: TWN_PEER_DECLARE, TWN_PEER_ADMIT, TWN_XLT_READ, TWN_XLT_WRITE. -/
def Obligations.PeersAndTranslations : Prop :=
  (∀ (s : State) (n : Nat), s.serving → s.rel.boundary = [.peerDead n] → s.twine.reqs = [] → s.twine.ports = [] →
    ∃ u, exec .twnPeerDeclare s = .next u ∧ u.peer n = { epoch := min 255 ((s.peer n).epoch + 1), dead := true } ∧
      u.rel.boundary = [] ∧ u.mem = s.mem ∧ ∀ m, m ≠ n → u.peer m = s.peer m) ∧
  (∀ (s : State) (n : Nat), s.serving → s.rel.boundary = [.peerAlive n] →
    ∃ u, exec .twnPeerAdmit s = .next u ∧ u.peer n = { s.peer n with dead := false } ∧ u.rel.boundary = [] ∧ u.mem = s.mem ∧
      ∀ m, m ≠ n → u.peer m = s.peer m) ∧
  (∀ s : State, s.regAnswers → ¬ (s.ctx 0).d3hot → s.pwr.state = .p0 →
    let page := s.fld Reg.twnXltIdx 17 0
    let a := xltAddr page
    let data (u : State) (w : Nat) : Nat := (u.reg (Reg.twnXltData w)).toNat
    let row (b : Nat) : Nat := s.rowKey (s.locate b) * 1024 + 64 * (s.locate b).line + b % 64
    (∀ b, b ∈ copiesOf a → s.bankAnswers (s.locate b) ∧ s.rowClass (s.rowKey (s.locate b)) = .raw) →
    (∃ u, exec .twnXltRead s = .next u ∧ u.mem.data = s.mem.data ∧ ∀ w, w < 4 →
      data u w = natOfBytes ((sgetMany noByte s.mem.data (row a + 4 * w) 4).map BitVec.toNat)) ∧
    (bitsAt (data s 0) 31 10 = 0 → bitsAt (data s 1) 31 18 = 0 → bitsAt (data s 3) 31 0 = 0 → bitsAt (data s 1) 17 12 < 62 →
      ∃ u, exec .twnXltWrite s = .next u ∧ u = { s with mem := u.mem, twine := u.twine } ∧
        (∀ q, (u.port q).cache.all (fun x => x.1 != page)) ∧
        ∀ b ∈ copiesOf a, ∀ w, w < 4 →
          natOfBytes ((sgetMany noByte u.mem.data (row b + 4 * w) 4).map BitVec.toNat) = data s w) ∧
    (bitsAt (data s 0) 31 10 ≠ 0 → ∃ u, exec .twnXltWrite s = .next u ∧ u.mem = s.mem))

/-! ### Rings, contexts, registers (12, 16) -/

/-- O40. Doorbells. A submission doorbell ahead of the ring's tail, within the ring, moves the tail, and records up to 32
ahead of acceptance are read from their slots of the ring, in order, by snooped requests; one beyond the ring tears
the context down; one that is not ahead is ignored. A completion or event doorbell ahead of its head and not ahead of
its tail moves that head and nothing else; any other is refused and counted. The doorbells of a context that does not
run are discarded. In P2 a doorbell is held. Completion: CTX_DB_SQ, CTX_DB_CQ, CTX_DB_EQ. -/
def Obligations.HostDoorbells : Prop :=
  ∀ (s : State) (x : Ctx) (v : Word), s.DoorbellTaken x →
    let y := s.ctx x
    let refused (u : State) : Prop := (u.ctx x).dbRefused = y.dbRefused + 1 ∧ (u.ctx x).cqHead = y.cqHead ∧
      (u.ctx x).eqHead = y.eqHead ∧ u.mem = s.mem ∧ u.tally = s.tally ∧ u.cores = s.cores
    (s.pwr.state = .p0 → y.st = .running ∨ y.st = .stopping → y.closing = none →
      (ahead v y.sqTail → (v - y.sqHead).toNat ≤ s.sqSize x →
        let n := min (v - y.sqHead).toNat 32 - (y.sqRead - y.sqHead).toNat
        let slot (i : Nat) : BitVec 64 := s.ringAddr x Reg.sqBaseLo (s.sqSize x) ((y.sqRead.toNat + i) % 2 ^ 32) 256
        ∃ u, exec (.ctxDbSq x v) s = .next u ∧
          u = { s with ctxs := u.ctxs, pwr := { s.pwr with busyAt := s.tick + 1 }, toHost := u.toHost } ∧
          u.ctx x = { y with sqTail := v, sqRead := y.sqRead + BitVec.ofNat 32 n } ∧
          u.toHost = s.toHost ++ (if y.busMaster then (List.range n).map (fun i => .read x (slot i) 256 false) else []) ∧
          ∀ c, c ≠ x.val → u.ctx c = s.ctx c) ∧
      (ahead v y.sqTail → s.sqSize x < (v - y.sqHead).toNat → s.TearsNow x → ∃ u, exec (.ctxDbSq x v) s = .next u ∧
        (u.ctx x).st = .faulted ∧ (u.ctx x).sqTail = y.sqTail ∧ (u.ctx x).rowQ = []) ∧
      (¬ ahead v y.sqTail → exec (.ctxDbSq x v) s = .next s) ∧
      (ahead v y.cqHead → ¬ ahead v y.cqTail → exec (.ctxDbCq x v) s = .next (s.setCtx x { y with cqHead := v })) ∧
      (¬ ahead v y.cqHead ∨ ahead v y.cqTail → ∃ u, exec (.ctxDbCq x v) s = .next u ∧ refused u) ∧
      (ahead v y.eqHead → ¬ ahead v y.eqTail → exec (.ctxDbEq x v) s = .next (s.setCtx x { y with eqHead := v })) ∧
      (¬ ahead v y.eqHead ∨ ahead v y.eqTail → ∃ u, exec (.ctxDbEq x v) s = .next u ∧ refused u)) ∧
    (s.pwr.state = .p0 → y.st ≠ .running → y.st ≠ .stopping →
      exec (.ctxDbSq x v) s = .next s ∧ exec (.ctxDbCq x v) s = .next s ∧ exec (.ctxDbEq x v) s = .next s) ∧
    (s.pwr.state = .p2 → s.fld Reg.pwrWakeEn 2 2 ≠ 1 →
      let held (c : Instr) : State := { s with pwr := { s.pwr with heldReq := s.pwr.heldReq ++ [(c, 0)] } }
      exec (.ctxDbSq x v) s = .next (held (.ctxDbSq x v)) ∧ exec (.ctxDbCq x v) s = .next (held (.ctxDbCq x v)) ∧
        exec (.ctxDbEq x v) s = .next (held (.ctxDbEq x v)))

/-- O41. The record at the front of a ring: one of an unknown kind completes with BOUNDS (0x03) at offset 0 and does
nothing else; one of a kind that the opcode table names is accepted as that kind's command accepts it. A failed read
of a waiting record tears the context down. Completion: RECORD_ACCEPT, RING_READ_ERROR. A flush read's completion
counts the writes it covers as flushed, and a record that waited for it is written. The completion interrupt is sent
when its delay has passed. The ring status block shows the context's indices, state and counts. A failed read of host
memory is counted, and moves no ring index of the host's; a read for a stepping sequence's prompt makes the sequence
end with BOUNDS (0x03). Completion: FLUSH_READ_COMPLETE, IRQ_DELAY_EXPIRY, RING_STATUS_WRITE, HOST_READ_ERROR. -/
def Obligations.RecordsAndInterrupts : Prop :=
  (∀ (s : State) (x : Ctx) (rec : Record),
      (recKind rec ∉ [0x01, 0x10, 0x11, 0x12, 0x13, 0x20, 0x30, 0x40, 0x50, 0x51] → s.mayAccept x 1 → s.PostsNow x →
        ∃ u, exec (.recordAccept x rec) s = .next u ∧ u = { s with ctxs := u.ctxs, toHost := u.toHost } ∧
          (u.ctx x).sqHead = (s.ctx x).sqHead + 1 ∧
          Posted s u x { rkind := recKind rec, status := 0x03, erroff := 0, tag := recTag rec, refused := true }) ∧
      (recKind rec = 0x01 → ∃ u, exec (.recordAccept x rec) s = .next u ∧ exec (.barrier x rec) s = .next u) ∧
      (recKind rec = 0x10 → ∃ u, exec (.recordAccept x rec) s = .next u ∧ exec (.hank x rec) s = .next u) ∧
      (recKind rec = 0x11 → ∃ u, exec (.recordAccept x rec) s = .next u ∧ exec (.cancel x rec) s = .next u) ∧
      (recKind rec = 0x12 → ∃ u, exec (.recordAccept x rec) s = .next u ∧ exec (.seqRelease x rec) s = .next u) ∧
      (recKind rec = 0x13 → ∃ u, exec (.recordAccept x rec) s = .next u ∧ exec (.seqCompact x rec) s = .next u) ∧
      (recKind rec = 0x20 → ∃ u, exec (.recordAccept x rec) s = .next u ∧ exec (.winder x rec) s = .next u) ∧
      (recKind rec = 0x30 → ∃ u, exec (.recordAccept x rec) s = .next u ∧ exec (.rowreq x rec) s = .next u) ∧
      (recKind rec = 0x40 → ∃ u, exec (.recordAccept x rec) s = .next u ∧ exec (.stream x rec) s = .next u) ∧
      (recKind rec = 0x50 → ∃ u, exec (.recordAccept x rec) s = .next u ∧ exec (.modelLoad x rec) s = .next u) ∧
      (recKind rec = 0x51 → ∃ u, exec (.recordAccept x rec) s = .next u ∧ exec (.modelUnload x rec) s = .next u) ∧
      (s.serving → (s.ctx x).st = .running ∨ (s.ctx x).st = .stopping →
        ((s.ctx x).sqHead ≠ (s.ctx x).sqRead → (s.ctx x).closing = none → s.TearsNow x →
          ∃ u, exec (.ringReadError x) s = .next u ∧ (u.ctx x).st = .faulted ∧ (u.ctx x).sqHead = (s.ctx x).sqHead ∧
            (u.ctx x).rowQ = []) ∧
        ((s.ctx x).sqHead = (s.ctx x).sqRead → exec (.ringReadError x) s = .next s))) ∧
  (∀ (s : State) (x : Ctx),
      let y := s.ctx x
      (∀ m ms, s.powered → y.flushes = m :: ms → y.closing = none → y.barrier = none → y.st = .running →
        (y.posts = [] → ∃ u, exec (.flushReadComplete x true) s = .next u ∧ u = { s with ctxs := u.ctxs, cores := u.cores } ∧
          (u.ctx x).flushed = max y.flushed m ∧ (u.ctx x).flushes = ms) ∧
        (∀ need r, y.posts = [⟨.final r, need⟩] → need ≤ max y.flushed m → s.canPost x →
          ∃ u, exec (.flushReadComplete x true) s = .next u ∧ (u.ctx x).posts = [] ∧ u.mem = s.mem ∧ Posted s u x r)) ∧
      (s.canSend x → 0 < y.unsignalled → y.firstUnsig + s.cfld x Reg.irq 25 16 ≤ s.tick → ¬ y.d3hot →
        (sget noMsix y.msix 12).getLsbD 0 = false →
        ∃ u, exec (.irqDelayExpiry x) s = .next u ∧ u = { s with ctxs := u.ctxs, toHost := s.toHost ++ [.msix x 0] } ∧
          u.ctx x = { y with unsignalled := 0 }) ∧
      (s.canSend x → y.dirty → s.pair (Reg.ctx x Reg.rsbLo) (Reg.ctx x Reg.rsbHi) ≠ 0 →
        ∃ u b, exec (.ringStatusWrite x) s = .next u ∧ u = { s with ctxs := u.ctxs, toHost := s.toHost ++
            [.ringStatus x (BitVec.ofNat 64 (s.pair (Reg.ctx x Reg.rsbLo) (Reg.ctx x Reg.rsbHi))) b] } ∧
          u.ctx x = { y with dirty := false } ∧
          b.extractLsb' 0 32 = y.sqHead ∧ b.extractLsb' 32 32 = y.cqTail ∧ b.extractLsb' 64 32 = y.eqTail ∧
          b.extractLsb' 96 32 = y.eqLost ∧ b.extractLsb' 128 32 = y.stepLost ∧ b.extractLsb' 160 8 = BitVec.ofNat 8 y.st.code ∧
          b.extractLsb' 192 32 = y.parked ∧ b.extractLsb' 224 32 = y.preempted ∧ b.extractLsb' 256 32 = y.demoted ∧
          b.extractLsb' 288 32 = y.bar4Refused ∧ b.extractLsb' 320 32 = y.dbRefused ∧ b.extractLsb' 352 32 = y.hostErrors) ∧
      (∀ bus : BitVec 64, s.serving → y.closing = none →
        let counted (u : State) : Prop := (u.ctx x).hostErrors = y.hostErrors + 1 ∧ (u.ctx x).sqHead = y.sqHead ∧
          (u.ctx x).cqHead = y.cqHead ∧ (u.ctx x).eqHead = y.eqHead ∧ u.mem = s.mem ∧ u.tally = s.tally
        (∃ u, exec (.hostReadError x .ring bus) s = .next u ∧ counted u) ∧
        (∀ c, ∃ u, exec (.hostReadError x (.core c) bus) s = .next u ∧ counted u) ∧
        (∀ e, ∃ u, exec (.hostReadError x (.winder e) bus) s = .next u ∧ counted u) ∧
        ∀ uid slot h, s.hankOf uid = some h → h.ctx = x.val → (s.seq uid slot).st = .stepping → (s.seq uid slot).fate = none →
          ∃ u, exec (.hostReadError x (.prompt uid slot) bus) s = .next u ∧ counted u ∧ (u.seq uid slot).fate = some 0x03))

/-- O42. The RUN bit. An IDLE context whose function is a bus master and that has a ring status block becomes RUNNING with
every ring index and count 0. Without them it stays IDLE. RUN 0 takes a RUNNING context to IDLE when nothing is
outstanding, and otherwise to STOPPING, which ends when the last outstanding record has been written. Completion:
RING_CTL_RUN, STOPPING_DONE. Resets of contexts. A function-level reset, and a context reset where nothing is left to
post, leave the context IDLE where it is enabled and otherwise OFF, with every ring index and count 0 and every
register of its page at its reset value; a context reset that meets a teardown under way takes effect at its end. A
reset of the PF's function leaves every context OFF, no model loaded and nothing staged. Losing bus mastership asks
for a running context's teardown at the next tick boundary; of one that does not run it changes nothing but that.
Completion: CTX_RESET, VF_FLR, PF_FLR, BUS_MASTER_CLEAR. -/
def Obligations.RunAndResets : Prop :=
  (∀ (s : State) (x : Ctx), s.regAnswers → s.pwr.state = .p0 → ¬ (s.ctx x).d3hot → (s.ctx x).closing = none →
      let y := s.ctx x
      let off := Reg.ctx x Reg.ringCtl
      let rsb := s.pair (Reg.ctx x Reg.rsbLo) (Reg.ctx x Reg.rsbHi)
      (y.st = .idle → y.busMaster → rsb ≠ 0 →
        ∃ u, exec (.ringCtlRun x true) s = .next u ∧ u = { s with ctxs := u.ctxs, regs := u.regs, toHost := u.toHost } ∧
          u.ctx x = { y.fresh with st := .running } ∧ u.reg off = 1 ∧ (∀ o, o ≠ off → u.reg o = s.reg o) ∧
          ∀ c, c ≠ x.val → u.ctx c = s.ctx c) ∧
      (y.st = .idle → (¬ y.busMaster ∨ rsb = 0) → (s.ctx 0).closing = none → ∃ u, exec (.ringCtlRun x true) s = .next u ∧
        (u.ctx x).st = .idle ∧ u.regs = s.regs ∧ u.mem = s.mem ∧ u.cores = s.cores) ∧
      (y.st = .running → y.barrier = none → ∃ u, exec (.ringCtlRun x false) s = .next u ∧
        u = { s with ctxs := u.ctxs, regs := u.regs, toHost := u.toHost } ∧ u.reg off = 0 ∧ (∀ o, o ≠ off → u.reg o = s.reg o) ∧
        (u.ctx x).st = (if y.reserved = 0 ∧ y.posts = [] then .idle else .stopping) ∧ ∀ c, c ≠ x.val → u.ctx c = s.ctx c) ∧
      (y.st = .stopping → y.barrier = none →
        (y.reserved = 0 → y.posts = [] → ∃ u, exec (.stoppingDone x) s = .next u ∧
          u = { s with ctxs := u.ctxs, toHost := u.toHost } ∧ u.ctx x = { y with st := .idle, dirty := false }) ∧
        (y.reserved ≠ 0 → exec (.stoppingDone x) s = .next s))) ∧
  (∀ (s : State) (x : Ctx), s.powered → s.pwr.ready →
      let y := s.ctx x
      let after (u : State) : Prop := (u.ctx x).st = (if s.enabled x then .idle else .off) ∧ (u.ctx x).closing = none ∧
        (u.ctx x).sqHead = 0 ∧ (u.ctx x).sqTail = 0 ∧ (u.ctx x).cqHead = 0 ∧ (u.ctx x).cqTail = 0 ∧ (u.ctx x).eqHead = 0 ∧
        (u.ctx x).eqTail = 0 ∧ (u.ctx x).reserved = 0 ∧ (u.ctx x).posts = [] ∧ (u.ctx x).rowQ = [] ∧
        ∀ o, o < 0x1000 → u.reg (ctxBase x + o) = regReset (ctxBase x + o)
      (s.regAnswers → s.pwr.state = .p0 → ¬ (s.ctx 0).d3hot →
        (y.closing = none → y.st ≠ .running → y.st ≠ .stopping → y.posts = [] → ∃ u, exec (.ctxReset x) s = .next u ∧ after u) ∧
        (∀ k, y.closing = some k → exec (.ctxReset x) s = .next (s.setCtx x { y with closing := some { k with next := 1 } }))) ∧
      (x.val ≠ 0 → ∃ u, exec (.vfFlr x) s = .next u ∧ after u ∧ (u.ctx x).d3hot = false ∧ (u.ctx x).msix = []) ∧
      (x.val = 0 → exec (.vfFlr x) s = .next s) ∧
      (∃ u, exec .pfFlr s = .next u ∧ u.ctx x = {} ∧ (∀ o, o < 0x1000 → u.reg (ctxBase x + o) = regReset (ctxBase x + o)) ∧
        (∀ m, u.model m = none) ∧ u.txn.staged = [] ∧ u.serve.loads = []) ∧
      (y.st = .running ∨ y.st = .stopping → ∃ u, exec (.busMasterClear x) s = .next u ∧ u = { s with ctxs := u.ctxs, rel := u.rel } ∧
        u.ctx x = { y with busMaster := false } ∧ u.rel.boundary = s.rel.boundary ∧
        (.teardown x 0x04 true ∈ u.rel.asked ∨ .teardown x 0x04 true ∈ u.rel.boundary)) ∧
      (y.st ≠ .running → y.st ≠ .stopping → exec (.busMasterClear x) s = .next (s.setCtx x { y with busMaster := false })))

/-! ### Filtered inputs (14) -/

/-- O43. Filtered inputs. Two samples that show a new level are accepted as the level; one that comes within three ticks
of another edge also sets CHATTER and a mask of 1000 ticks. Two samples that differ, or that show the old level,
change nothing. While masked the input takes its masked value (deasserted for WAKE_IN#, asserted for the others) and
no sample is accepted. A mask that has run out ends with the level the samples show, if they agree; that is no
accepted edge. An asserted WAKE_IN# that is enabled wakes the device from P2, and is recorded. Completion:
WAKE_IN_ACCEPT, THERM_ALERT_ACCEPT, PAUSE_IN_ACCEPT, CHATTER_MASK_EXPIRY. -/
def Obligations.InputsFilter : Prop :=
  ∀ (s : State) (prev cur : Bool),
    let edge (i : Nat) : Prop := s.filters i ∧ (s.input i).maskTo = none ∧ prev = cur ∧ cur ≠ (s.input i).level
    let none_ (i : Nat) : Prop := (s.input i).maskTo = none ∧ (prev ≠ cur ∨ cur = (s.input i).level) ∨ (s.input i).maskTo.isSome
    let taken (i : Nat) (u : State) : Prop := (u.input i).level = cur ∧ (u.input i).lastEdge = some s.tick ∧ u.mem = s.mem ∧
      u.tally = s.tally ∧ (∀ j, j ≠ i → u.input j = s.input j) ∧
      (∀ e, (s.input i).lastEdge = some e → e < s.tick → s.tick ≤ e + 3 →
        (u.input i).chatter ∧ (u.input i).maskTo = some (s.tick + 1000)) ∧
      ((s.input i).lastEdge = none → (u.input i).chatter = (s.input i).chatter ∧ (u.input i).maskTo = none)
    (edge 0 → ∃ u, exec (.wakeInAccept prev cur) s = .next u ∧ taken 0 u) ∧
    (edge 1 → ∃ u, exec (.thermAlertAccept prev cur) s = .next u ∧ taken 1 u) ∧
    (∀ p : Port, edge (2 + p) → ∃ u, exec (.pauseInAccept p prev cur) s = .next u ∧ taken (2 + p) u) ∧
    (none_ 0 → exec (.wakeInAccept prev cur) s = .next s) ∧
    (none_ 1 → exec (.thermAlertAccept prev cur) s = .next s) ∧
    (∀ p : Port, none_ (2 + p) → exec (.pauseInAccept p prev cur) s = .next s) ∧
    (∀ (pin : PinInput) (m : Nat), let i := inputIx pin; let x := s.input i
      x.maskTo = some m → x.taken i = decide (i ≠ 0) ∧
      (s.filters i → m ≤ s.tick → prev = cur → ∃ u, exec (.chatterMaskExpiry pin prev cur) s = .next u ∧
        (u.input i).level = cur ∧ (u.input i).maskTo = none ∧ (u.input i).chatter = x.chatter ∧ (u.input i).lastEdge = x.lastEdge ∧
        u.mem = s.mem ∧ ∀ j, j ≠ i → u.input j = s.input j) ∧
      (s.tick < m ∨ prev ≠ cur → exec (.chatterMaskExpiry pin prev cur) s = .next s)) ∧
    (s.filters 0 → (s.input 0).maskTo = none → (s.input 0).lastEdge = none → (s.input 0).level = false → s.fld Reg.pwrWakeEn 0 0 = 1 →
      s.pwr.state = .p2 → s.pwr.wakeSrc = none → ∃ u, exec (.wakeInAccept true true) s = .next u ∧ u.pwr.wakeSrc = some 1 ∧
        u.reg Reg.pwrLastWake0 = BitVec.ofNat 32 (1 + 16 * 2) ∧ u.reg Reg.pwrLastWake1 = BitVec.ofNat 32 s.tick32)

/-- O44. Inputs asserted for longer than their bound. A port in service whose pause input is stuck becomes STALLED, and
its input is marked STUCK; a stuck THERM_ALERT_IN# is marked; a stuck WAKE_IN# is marked and recorded once. One not
asserted for so long changes nothing. Completion: PAUSE_STUCK, INPUT_STUCK. -/
def Obligations.InputsStuck : Prop :=
  ∀ (s : State) (p : Port),
    let bound := s.fld (Reg.twnPPauseHi p) 23 0
    let stalled (u : State) : Prop := u.input (2 + p) = { s.input (2 + p) with stuck := true } ∧
      ((s.port p).st = .up → (u.port p).st = .stalled) ∧ ((s.port p).st ≠ .up → (u.port p).st = (s.port p).st) ∧
      u.mem = s.mem ∧ u.tally = s.tally ∧ ∀ q : Port, q ≠ p → (u.port q).st = (s.port q).st
    (s.assertedFor (2 + p) bound → (∃ u, exec (.pauseStuck p) s = .next u ∧ stalled u) ∧
      ∃ u, exec (.inputStuck (.pauseIn p)) s = .next u ∧ stalled u) ∧
    (¬ s.assertedFor (2 + p) bound → exec (.pauseStuck p) s = .next s ∧ exec (.inputStuck (.pauseIn p)) s = .next s) ∧
    (s.assertedFor 1 (s.fld Reg.pwrInCfgHi 23 0) → exec (.inputStuck .thermAlertIn) s =
      .next (s.setInput 1 { s.input 1 with stuck := true })) ∧
    (s.assertedFor 0 (s.fld Reg.pwrInCfgLo 23 0) →
      ((s.input 0).stuck = false → ∃ u, exec (.inputStuck .wakeIn) s = .next u ∧ u = { s with pwr := u.pwr, regs := u.regs } ∧
        u.input 0 = { s.input 0 with stuck := true } ∧ u.reg Reg.pwrLastWake0 = BitVec.ofNat 32 (1 + 16 * s.pwr.state.code) ∧
        u.reg Reg.pwrLastWake1 = BitVec.ofNat 32 s.tick32) ∧
      ((s.input 0).stuck = true → exec (.inputStuck .wakeIn) s = .next s))

/-! ### Transactions and register accesses (12, 16) -/

/-- O45. Configuration transactions. BEGIN opens a transaction with nothing staged; BEGIN in an open one is logged and
changes nothing of it. COMMIT of an open transaction has it wait for the next tick boundary; of one that ran over, it
ends with result 3. ROLLBACK ends a transaction with result 2. No register takes a staged value before CFG_APPLY.
Completion: BEGIN, COMMIT, ROLLBACK. A write of an RWT register in an open transaction is staged: its register keeps
its value, and the transaction counts it; the 1025th write leaves the transaction FULL. Outside a transaction it is
one of its own, which waits for the next boundary. CFG_APPLY with nothing due does nothing; a transaction whose
boundary has come and whose one write is a context's Governor share gives the register its value, leaves every other
register, and ends with result 1. Completion: RWT_WRITE, CFG_APPLY. -/
def Obligations.ConfigurationTransactions : Prop :=
  (∀ s : State, s.regAnswers → s.pwr.state = .p0 → ¬ (s.ctx 0).d3hot → (s.ctx 0).closing = none →
      let t := s.txn
      let closed (u : State) (last : Nat) : Prop :=
        u.txn = { t with st := .idle, count := 0, staged := [], last := last } ∧ u.regs = s.regs ∧ u.mem = s.mem ∧ u.tally = s.tally
      let logged (u : State) : Prop := u.txn = t ∧ u.regs = s.regs ∧ u.mem = s.mem ∧ u.tally = s.tally
      (t.st = .idle → exec .begin_ s = .next { s with txn := { t with st := .open_, count := 0, staged := [] } }) ∧
      (t.st ≠ .idle → ∃ u, exec .begin_ s = .next u ∧ logged u) ∧
      (t.st = .open_ → exec .commit s = .next { s with txn := { t with st := .committing, due := false } }) ∧
      (t.st = .full → ∃ u, exec .commit s = .next u ∧ closed u 3) ∧
      (t.st = .idle ∨ t.st = .committing → (∃ u, exec .commit s = .next u ∧ logged u) ∧ ∃ u, exec .rollback s = .next u ∧ logged u) ∧
      (t.st = .open_ ∨ t.st = .full → ∃ u, exec .rollback s = .next u ∧ closed u 2)) ∧
  (∀ (s : State) (x : Ctx) (v : Word), s.regAnswers → s.pwr.state = .p0 → ¬ (s.ctx 0).d3hot → (s.ctx 0).closing = none →
      let off := Reg.ctx x Reg.govShare
      let fs := (regFields off).getD []
      let w : Staged := { off := off, idx := 0, mask := stagedMask v.toNat fs, val := v.toNat }
      w.mask ≠ 0 → (∀ f ∈ fs, f.ty = .rwt → f.enc.admits (f.val v.toNat)) →
      let applied (u : State) : Prop := u.reg off = BitVec.ofNat 32 (mergeBits (s.reg off).toNat w.mask v.toNat) ∧
        (∀ o, o ≠ off → u.reg o = s.reg o) ∧ u.mem = s.mem ∧ u.tally = s.tally
      (s.txn.st = .open_ → s.txn.count < 1024 → exec (.rwtWrite (BitVec.ofNat 26 off) v) s =
        .next { s with txn := { s.txn with count := s.txn.count + 1, staged := s.txn.staged ++ [w] } }) ∧
      (s.txn.st = .open_ → s.txn.count = 1024 → exec (.rwtWrite (BitVec.ofNat 26 off) v) s = .next { s with txn := { s.txn with st := .full } }) ∧
      (s.txn.st = .full → exec (.rwtWrite (BitVec.ofNat 26 off) v) s = .next s) ∧
      (s.txn.st = .idle → exec (.rwtWrite (BitVec.ofNat 26 off) v) s =
        .next { s with txn := { s.txn with fresh := s.txn.fresh ++ [w] } }) ∧
      (s.txn.st ≠ .committing ∨ s.txn.due = false → s.txn.single = [] → exec .cfgApply s = .next s) ∧
      (s.txn.st ≠ .committing → s.txn.single = [w] → ∃ u, exec .cfgApply s = .next u ∧ applied u ∧
        u.txn = { s.txn with single := [], last := 1 }) ∧
      (s.txn.st = .committing → s.txn.due → s.txn.single = [] → s.txn.staged = [w] → ∃ u, exec .cfgApply s = .next u ∧ applied u ∧
        u.txn = { fresh := s.txn.fresh, last := 1 }))

/-- O46. A reset of the PF's function, and every device reset, discard an open, full or committing transaction: no staged
write is left, no register has taken one, and nothing staged survives a loss of power. -/
def Obligations.TransactionsDiscarded : Prop :=
  ∀ (s : State) (env : BootEnv),
    let gone (u : State) : Prop := u.txn.st = .idle ∧ u.txn.staged = [] ∧ u.txn.single = [] ∧ u.txn.fresh = [] ∧ u.txn.count = 0
    let kept (u : State) (i : Nat) : Prop := u.reg (Reg.stkRmode i) = s.reg (Reg.stkRmode i)
    (s.powered → s.pwr.ready → ∃ u, exec .pfFlr s = .next u ∧ gone u) ∧
    (∃ u, exec (.powerOnReset env) s = .next u ∧ gone u) ∧
    (¬ s.pwr.aonOk → ∃ u, exec (.aonClkReturn env) s = .next u ∧ gone u) ∧
    (s.pwr.railsOk → s.pwr.aonOk → s.pwr.resetReq = some true → ∃ u, exec (.coldReset env) s = .next u ∧ gone u) ∧
    (s.powered → s.pwr.started → s.pwr.resetReq ≠ some true → ∃ u, exec (.warmReset env) s = .next u ∧ gone u ∧
      (s.pwr.safe ≠ some 2 → ∀ i, i < 4 → kept u i)) ∧
    (s.pwr.railsOk → s.pwr.aonOk → ∃ u, exec (.perstAssert 25) s = .next u ∧ gone u) ∧
    (∀ rail n, 2000 ≤ n → ∃ t, exec (.powerFail ⟨rail, n⟩) s = .next t ∧ ¬ t.powered ∧ t.txn = s.txn ∧
      ∃ u, exec (.powerOnReset env) t = .next u ∧ gone u)

/-- O47. Register accesses. A read of CLK_TICK_LO captures the high half with the low. SKN_RD_HANDLE captures the
Skein-table entry it names, ECC_LOG_SEL the log entry. A ring register of an IDLE context takes the value written; in
a RUNNING or an OFF one the write is logged and no register changes; an OFF context's page discards every other write
of 32 aligned bits. An access of another form is logged, whatever the context's state, and changes no register. A COLD
request in GLB_RESET is held for the next boundary. Completion: CLK_TICK_LO_READ, SKN_RD_HANDLE, ECC_LOG_SEL,
REGISTER_WRITE. -/
def Obligations.RegisterAccesses : Prop :=
  ∀ (s : State) (x : Ctx) (v : Word) (d : BitVec 64), s.regAnswers → s.pwr.state = .p0 → (s.ctx 0).closing = none →
    let ring := Reg.ctx x Reg.sqBaseHi
    let kept (u : State) : Prop := u.regs = s.regs ∧ u.mem = s.mem ∧ (u.ctx x).st = (s.ctx x).st
    (¬ (s.ctx 0).d3hot →
      exec .clkTickLoRead s = .next { s with
        pwr := { s.pwr with clkHi := BitVec.ofNat 32 (s.tick / 2 ^ 32) }, reply := .word (BitVec.ofNat 32 s.tick) } ∧
      (∃ u, exec (.sknRdHandle v) s = .next u ∧ u = { s with regs := u.regs } ∧
        u.reg Reg.sknRdHandle = BitVec.ofNat 32 (bitsAt v.toNat 21 0) ∧
        (∀ w, w < 4 → u.reg (Reg.sknRdData w) = BitVec.ofNat 32 ((s.skein (bitsAt v.toNat 21 0)).pack / 2 ^ (32 * w)))) ∧
      (∃ u, exec (.eccLogSel v) s = .next u ∧ u = { s with regs := u.regs } ∧ u.reg Reg.eccLogSel = v ∧
        (∀ w, w < 8 → u.reg (Reg.eccLogData w) =
          BitVec.ofNat 32 ((sget noLog s.rel.log (v.toNat % 1024)).pack.toNat / 2 ^ (32 * w)))) ∧
      (∃ u, exec (.registerWrite .bar0 (BitVec.ofNat 26 Reg.glbReset) 4 1) s = .next u ∧ u = { s with regs := u.regs, pwr := u.pwr } ∧
        u.pwr = { s.pwr with resetReq := some true } ∧ ∀ o, u.reg o = s.reg o)) ∧
    ((s.ctx 0).d3hot → exec .clkTickLoRead s = .next { s with reply := .unsupportedRequest }) ∧
    (¬ (s.ctx x).d3hot →
      ((s.ctx x).st = .idle → ∃ u, exec (.registerWrite (.bar2 x) (BitVec.ofNat 26 Reg.sqBaseHi) 4 d) s = .next u ∧
        u = { s with regs := u.regs } ∧ u.reg ring = d.setWidth 32 ∧ ∀ o, o ≠ ring → u.reg o = s.reg o) ∧
      ((s.ctx x).st = .running ∨ (s.ctx x).st = .off →
        ∃ u, exec (.registerWrite (.bar2 x) (BitVec.ofNat 26 Reg.sqBaseHi) 4 d) s = .next u ∧ kept u) ∧
      (∀ off, off < 0x1000 → off % 4 = 0 → (s.ctx x).st = .off → off < 0x100 ∨ 0x12C ≤ off →
        exec (.registerWrite (.bar2 x) (BitVec.ofNat 26 off) 4 d) s = .next s) ∧
      (∀ off size, off < 0x1000 → (size ≠ 4 ∨ off % 4 ≠ 0) → (s.ctx x).st ≠ .stopping →
        ∃ u, exec (.registerWrite (.bar2 x) (BitVec.ofNat 26 off) size d) s = .next u ∧ kept u))

/-! ### Errors, repair and degraded operation (13) -/

/-- O48. Correctable-error buckets leak one at each leak period. The Carder reads the line at its position: a RAW line
stays as it is; a SEALED line with one wrong symbol is written back corrected; either way the position moves to the
next line and no byte of another line changes. A line whose failing symbol does not take the corrected value keeps its
bytes, and HARD is logged with the symbol's position. A Carder that is off, or not due, does nothing, and one whose
line's bank is busy waits. Completion: CE_LEAK, CARDER_VISIT. -/
def Obligations.CarderAndBuckets : Prop :=
  (∀ (s : State) (b : Fin 9), s.powered → s.tick % s.fld (Reg.eccCeCfgHi b) 23 0 = 0 →
    (0 < s.fld (Reg.eccCeStat b) 15 0 → ∃ u, exec (.ceLeak b) s = .next u ∧ u = { s with regs := u.regs } ∧
      u.fld (Reg.eccCeStat b) 15 0 = s.fld (Reg.eccCeStat b) 15 0 - 1 ∧ (∀ o, o ≠ Reg.eccCeStat b → u.reg o = s.reg o)) ∧
    (s.fld (Reg.eccCeStat b) 15 0 = 0 → exec (.ceLeak b) s = .next s)) ∧
  (∀ (s : State) (k : Stack) (stuck : List Nat),
    let c := Reg.eccCarder k
    let n := s.fld (Reg.eccCarderPos k) 29 0
    let l := carderLoc k n
    let rk := s.rowKey l
    let bytes := s.rawData rk l.line
    (¬ (s.fld c 24 24 = 1) ∨ s.tick % s.fld c 23 8 ≠ 0 → exec (.carderVisit k stuck) s = .next s) ∧
    (s.serving → s.fld c 24 24 = 1 → s.tick % s.fld c 23 8 = 0 → ¬ s.stackIsLost k → ¬ s.pwr.tripped.getLsbD k → s.fld c 7 0 = 0 →
      s.bankAnswers l →
      (s.bankBusy l → exec (.carderVisit k stuck) s = .next (s.reach l (.carder 1 stuck)).2) ∧
      (s.BankIdle l → s.rowClass rk = .raw → ∃ u, exec (.carderVisit k stuck) s = .next u ∧ u = { s with regs := u.regs, rel := u.rel } ∧
        u.fld (Reg.eccCarderPos k) 29 0 = (n + 1) % 2 ^ 30) ∧
      (∀ p v, s.BankIdle l → s.rowClass rk = .sealed → classifyLine (bytes ++ s.rawChk rk l.line) = .correctable p v →
        (¬ stuck.contains n → ∃ u, exec (.carderVisit k stuck) s = .next u ∧ u.fld (Reg.eccCarderPos k) 29 0 = (n + 1) % 2 ^ 30 ∧
          (∀ i, i < 64 → sget noByte u.mem.data (rk * 1024 + 64 * l.line + i) = BitVec.ofNat 8 ((xorAt bytes p v).getD i 0)) ∧
          ∀ a, a < rk * 1024 + 64 * l.line ∨ rk * 1024 + 64 * l.line + 64 ≤ a → sget noByte u.mem.data a = sget noByte s.mem.data a) ∧
        (stuck.contains n → n + 1 < 2 ^ 30 → exec (.carderVisit k stuck) s = .next
          ((((s.countCe k).unstage (s.addrOf l)).logAt { typ := 0x03, source := 3, symbol := p } (s.addrOf l) l).setFld
            (Reg.eccCarderPos k) 29 0 (n + 1))))))

/-- O49. The split-write window. READ_RAW puts the line's stored data into the window's registers, unchecked; WRITE_DATA
stores the registers' data and leaves the check symbols, WRITE_CHECK stores the check symbols and leaves the data, and
WRITE_BOTH stores both, in stacked memory, a scratchpad or an SSB alike. No other line of stacked memory changes. A
window that names no line it may reach changes no memory. A withheld block is released by its register. Completion:
READ_RAW, WRITE_DATA, WRITE_CHECK, WRITE_BOTH, ECC_BLOCK_RELEASE. -/
def Obligations.SplitWriteWindow : Prop :=
  ∀ s : State, s.regAnswers → s.pwr.state = .p0 → ¬ (s.ctx 0).d3hot → (s.ctx 0).closing = none →
    let kept (u : State) : Prop := u.mem = s.mem ∧ u.spads = s.spads ∧ u.regs = s.regs ∧ u.rel.ssb = s.rel.ssb
    (∀ l, s.winLine = some l →
      let stored (u : State) (data chk : List Nat) : Prop := u.winRead l = (data, chk) ∧
        u = { s with mem := u.mem, spads := u.spads, rel := u.rel } ∧
        (∀ rk i a, l = .stack rk i a → u.spads = s.spads ∧ u.rel = s.rel ∧ u.mem.cls = s.mem.cls ∧
          ∀ k, k < rk * 1024 + 64 * i ∨ rk * 1024 + 64 * i + 64 ≤ k → sget noByte u.mem.data k = sget noByte s.mem.data k) ∧
        ((∀ rk i a, l ≠ .stack rk i a) → u.mem = s.mem)
      (∃ u, exec .readRaw s = .next u ∧
        u = { s with regs := u.regs, mem := { s.mem with staging := u.mem.staging } } ∧ (∀ w, w < 16 → u.reg (Reg.eccWinData w) =
        BitVec.ofNat 32 (natOfBytes (((s.winRead l).1.drop (4 * w)).take 4)))) ∧
      (∃ u, exec .writeData s = .next u ∧ stored u s.winData (s.winRead l).2) ∧
      (∃ u, exec .writeCheck s = .next u ∧ stored u (s.winRead l).1 (s.winCheck l)) ∧
      (∃ u, exec .writeBoth s = .next u ∧ stored u s.winData (s.winCheck l))) ∧
    (s.winLine = none → (∃ u, exec .readRaw s = .next u ∧ kept u) ∧ (∃ u, exec .writeData s = .next u ∧ kept u) ∧
      (∃ u, exec .writeCheck s = .next u ∧ kept u) ∧ ∃ u, exec .writeBoth s = .next u ∧ kept u) ∧
    (∀ v : Word, let b := bitsAt v.toNat 21 0
      (s.blockWithheld b → ∃ u, exec (.eccBlockRelease v) s = .next u ∧ u = { s with skeins := u.skeins } ∧ ¬ u.blockWithheld b ∧
        u.skeins.table = s.skeins.table ∧ u.skeins.owner = s.skeins.owner) ∧
      (¬ s.blockWithheld b → ∃ u, exec (.eccBlockRelease v) s = .next u ∧ u.skeins = s.skeins ∧ u.mem = s.mem))

/-- O50. Commands in GLB_CORE_CMD. A DECLARE that names a physical core carrying no logical number, and an ADMIT that
names one not declared dead, are ignored and logged as invalid register writes. A DECLARE of a core in use changes
nothing but what waits for the next boundary; once that has come the core is dead, and its number carries no work.
Completion: CORE_DECLARE. -/
def Obligations.CoreCommands : Prop :=
  ∀ (s : State) (p : BitVec 8), s.regAnswers → s.pwr.state = .p0 → ¬ (s.ctx 0).d3hot →
    let y := s.physOf p.toNat
    let logged (v : Nat) : State := s.logInvalid 0 Reg.glbCoreCmd v
    let kept (u : State) : Prop := u.phys = s.phys ∧ u.cores = s.cores ∧ u.rel.boundary = s.rel.boundary ∧
      u.rel.asked = s.rel.asked ∧ u.mem = s.mem
    (151 < p.toNat ∨ y.dead ∨ y.logical = none → exec (.coreDeclare p) s = .next (logged (p.toNat + 256)) ∧ kept (logged (p.toNat + 256))) ∧
    (∀ ok, 151 < p.toNat ∨ ¬ y.dead → exec (.coreAdmit p ok) s = .next (logged (p.toNat + 512)) ∧ kept (logged (p.toNat + 512))) ∧
    (∀ c, p.toNat ≤ 151 → ¬ y.dead → y.logical = some c → ∃ u, exec (.coreDeclare p) s = .next u ∧
      u = { s with rel := { s.rel with asked := u.rel.asked } } ∧
      (.coreDead p.toNat 6 ∈ u.rel.asked ∨ .coreDead p.toNat 6 ∈ s.rel.boundary) ∧ s.rel.asked <+: u.rel.asked) ∧
    (∀ (q : PCore) c w, q.val = p.toNat → .coreDead p.toNat w ∈ s.rel.boundary → ¬ y.dead → y.logical = some c →
      ∃ u, exec (.coreDeclaredDead q) s = .next u ∧ (u.physOf p.toNat).dead ∧ u.stream c = none ∧
        (u.core c).map.phys ≠ some p.toNat ∧ ∀ w', .coreDead p.toNat w' ∉ u.rel.boundary)

/-- O51. Cores that die and return. A stop that has lasted 100 ticks asks for the core to be declared dead at the next
boundary, and a Spindle's command that has lasted 10,000 asks the same for the Spindle. Once due the core is dead, its
logical core's epoch has risen by one, its stream is gone, and another core carries the number if one is to be had. A
dead core that passes its self-test is to join again at the next boundary; one that fails stays dead. Completion:
CORE_ADMIT, CORE_DECLARED_DEAD, CORE_STOP_TIMEOUT, SPINDLE_CMD_TIMEOUT. -/
def Obligations.CoresDieAndReturn : Prop :=
  (∀ (s : State) (p : BitVec 8), s.regAnswers → s.pwr.state = .p0 → ¬ (s.ctx 0).d3hot → p.toNat ≤ 151 → (s.physOf p.toNat).dead →
    (∃ u, exec (.coreAdmit p false) s = .next u ∧ u.phys = s.phys ∧ u.cores = s.cores ∧ u.mem = s.mem) ∧
    exec (.coreAdmit p true) s = .next (s.atBoundary (.coreAlive p.toNat))) ∧
  (∀ (s : State) (p : PCore) (c w : Nat), s.serving → s.rel.boundary = [.coreDead p.val w] → ¬ (s.physOf p).dead →
    (s.physOf p).logical = some c → (s.core c).map.epoch ≠ 255 →
    ∃ u, exec (.coreDeclaredDead p) s = .next u ∧ (u.physOf p).dead ∧ (u.core c).map.epoch = (s.core c).map.epoch + 1 ∧
      (u.core c).map.phys ≠ some p.val ∧ u.stream c = none ∧ .coreDead p.val w ∉ u.rel.boundary ∧
      (s.serve.steps = [] → (∀ x, (s.ctx x).closing = none) → s.stream c = none → u.mem = s.mem ∧ u.tally = s.tally)) ∧
  (∀ (s : State) (c : Core) (t p : Nat), s.serving → (s.core c).stopReq = some t → (s.core c).map.phys = some p → s.stopping c →
    (t + 100 ≤ s.tick → exec (.coreStopTimeout c) s = .next (s.atBoundary (.coreDead p 3))) ∧
    (s.tick < t + 100 → exec (.coreStopTimeout c) s = .next s)) ∧
  (∀ (s : State) (n : SpindleIx) (c : SpdCmd), s.serving → (s.spindle n).run = some c → s.spdAlive n →
    (c.started + 10000 ≤ s.tick → exec (.spindleCmdTimeout n) s = .next (s.atBoundary (.spindleDead n 5))) ∧
    (s.tick < c.started + 10000 → exec (.spindleCmdTimeout n) s = .next s))

/-- O52. Lost stacks. STK_CMD with its key bit, and a stack that does not answer, ask for the stack's loss at the next
boundary. Once due the stack is lost and none of its Spindles is alive; every other stack's state of loss stays, and
where no Skein is stored and no teardown is under way no stored byte changes. Completion: STK_CMD_LOST,
STACK_UNANSWERED, STACK_LOST. SAFE mode. Its causes, the PF's own request and the Governor's watchdog among them, wait
for the next boundary. Once due the device enters SAFE mode with the first cause of Table 13.7: every stream, step,
Winder descriptor and row request has stopped, nothing is served, and no byte of memory changes. Completion:
GLB_SAFE_ENTER, GOV_WATCHDOG_EXPIRY, SAFE_ENTRY. -/
def Obligations.LostStacksAndSafeMode : Prop :=
  ((∀ (s : State) (v : Word), s.regAnswers → s.pwr.state = .p0 → ¬ (s.ctx 0).d3hot → (s.ctx 0).closing = none →
      bitsAt v.toNat 3 0 ≤ 7 →
      (v.getLsbD 4 → ¬ s.stackIsLost (bitsAt v.toNat 3 0) → exec (.stkCmdLost v) s = .next (s.atBoundary (.stackLost (bitsAt v.toNat 3 0)))) ∧
      (¬ v.getLsbD 4 → exec (.stkCmdLost v) s = .next s) ∧
      (v.getLsbD 4 → s.stackIsLost (bitsAt v.toNat 3 0) → ∃ u, exec (.stkCmdLost v) s = .next u ∧ u.rel.boundary = s.rel.boundary ∧
        u.rel.asked = s.rel.asked ∧ u.regs = s.regs ∧ u.mem = s.mem)) ∧
    (∀ (s : State) (k : Stack), s.serving →
      (¬ s.stackIsLost k → exec (.stackUnanswered k) s = .next (s.atBoundary (.stackLost k))) ∧
      (s.stackIsLost k → exec (.stackUnanswered k) s = .next s) ∧
      (s.rel.boundary = [.stackLost k.val] → ¬ s.stackIsLost k → ∃ u, exec (.stackLost k) s = .next u ∧ u.stackIsLost k ∧
        (∀ i, i < 256 → (u.spindle (256 * k + i)).state ≠ .alive) ∧ (∀ j, j ≠ k.val → u.stackIsLost j = s.stackIsLost j) ∧
        (s.skeins.table = [] → (∀ x, (s.ctx x).closing = none) → u.mem.data = s.mem.data ∧ u.spads = s.spads ∧ u.tally = s.tally)))) ∧
  ((∀ s : State, s.regAnswers → s.pwr.state = .p0 → ¬ (s.ctx 0).d3hot → exec .glbSafeEnter s = .next (s.atBoundary (.safe 6))) ∧
    (∀ s : State, s.serving →
      (s.rel.wdogAt + s.fld Reg.govWdog 23 0 ≤ s.tick → exec .govWatchdogExpiry s = .next (s.atBoundary (.safe 5))) ∧
      (s.tick < s.rel.wdogAt + s.fld Reg.govWdog 23 0 → exec .govWatchdogExpiry s = .next s)) ∧
    (∀ (s : State) (c : Nat) (cs : List Nat), s.safeCauses = c :: cs → s.powered → s.pwr.safe = none →
      ∃ u, exec .safeEntry s = .next u ∧ u.pwr.safe = some (cs.foldl min c) ∧ ¬ u.serving ∧ (∀ k, u.stream k = none) ∧
        u.serve.steps = [] ∧ u.winder.queue = [] ∧ (∀ e, (u.engine e).desc = none) ∧ (∀ x, (u.ctx x).rowQ = []) ∧ u.rel.boundary = [] ∧
        u.mem = s.mem ∧ u.spads = s.spads ∧ u.tally = s.tally) ∧
    (∀ s : State, s.safeCauses = [] → exec .safeEntry s = .next s))

/-! ### Power, clocks and resets (14, 17) -/

/-- O53. Idleness. A device with nothing at work for PWR_IDLE ticks enters P1, and one at work does not; two ticks after a
wake event it is back in P0. Nothing but the power controller's state changes. Completion: IDLE_ENTRY, P1_WAKE. The
PCI Express link. The link's speed and width are shown as it comes up, FLIT mode with 64 GT/s; L1 is entered and left,
and a function enters and leaves D3hot. Nothing else changes. Completion: L1_ENTRY, ASPM_L1_EXIT,
FUNCTION_D3HOT_CHANGE, PCIE_LINK_UP. -/
def Obligations.IdleAndLink : Prop :=
  (∀ s : State,
      (s.serving → s.pwr.state = .p0 → ¬ s.pwr.drain → s.fld Reg.pwrIdle 19 0 ≠ 0 → ¬ s.atWork →
        (s.pwr.busyAt + s.fld Reg.pwrIdle 19 0 ≤ s.tick → exec .idleEntry s =
          .next { s with pwr := { s.pwr with state := .p1, wakeAt := none } }) ∧
        (s.tick < s.pwr.busyAt + s.fld Reg.pwrIdle 19 0 → exec .idleEntry s = .next s)) ∧
      (s.atWork → exec .idleEntry s = .next s) ∧
      (∀ t, s.pwr.state = .p1 → s.pwr.wakeAt = some t →
        (t + 2 ≤ s.tick → exec .p1Wake s = .next { s with pwr := { s.pwr with state := .p0, wakeAt := none, busyAt := s.tick } }) ∧
        (s.tick < t + 2 → exec .p1Wake s = .next s))) ∧
  (∀ (s : State) (x : Ctx) (on : Bool) (speed : BitVec 4) (width : BitVec 5), s.powered → s.pwr.started → s.pwr.ready →
      (s.fld Reg.hifLink 3 0 ≠ 0 → exec .l1Entry s = .next { s with pwr := { s.pwr with l1 := true } }) ∧
      exec .aspmL1Exit s = .next { s with pwr := { s.pwr with l1 := false } } ∧
      exec (.functionD3hotChange x on) s = .next (s.setCtx x { s.ctx x with d3hot := on }) ∧
      (∃ u, exec (.pcieLinkUp speed width) s = .next u ∧ u = { s with regs := u.regs } ∧ u.fld Reg.hifLink 3 0 = speed.toNat ∧
        u.fld Reg.hifLink 8 4 = width.toNat ∧ u.fld Reg.hifLink 12 12 = (if speed = 6 then 1 else 0) ∧
        ∀ o, o ≠ Reg.hifLink → u.reg o = s.reg o))

/-- O54. BOBBIN and STANDBY. A request for either begins a drain, and a request to run ends it. Entry waits while work is
in flight; after the drain, at a later boundary, the device is in P2, every stacked byte as before, and the
scratchpads that are not retained have no written line; or, with the link down, in P3, where nothing answers. The wake
timer wakes and is recorded. On the wake from P2 the device is in P0, retained regions as before and every other byte
zero. Completion: PWR_TARGET_RUN, PWR_TARGET_BOBBIN, PWR_TARGET_STANDBY, BOBBIN_ENTRY, STANDBY_ENTRY,
WAKE_TIMER_EXPIRY, BOBBIN_WAKE. -/
def Obligations.LowPower : Prop :=
  ∀ s : State,
    (s.regAnswers → s.pwr.state = .p0 → ¬ (s.ctx 0).d3hot →
      (∃ u, exec .pwrTargetBobbin s = .next u ∧ u = { s with regs := u.regs, pwr := u.pwr } ∧ u.pwr.drain ∧ u.fld Reg.pwrCtl 1 0 = 2 ∧
        u.pwr.state = .p0) ∧
      (∃ u, exec .pwrTargetStandby s = .next u ∧ u = { s with regs := u.regs, pwr := u.pwr } ∧ u.pwr.drain ∧
        u.fld Reg.pwrCtl 1 0 = 3 ∧ u.pwr.state = .p0) ∧
      (∃ u, exec .pwrTargetRun s = .next u ∧ ¬ u.pwr.drain ∧ u.fld Reg.pwrCtl 1 0 = 0 ∧ u.pwr.state = .p0 ∧ u.mem = s.mem ∧
        u.spads = s.spads ∧ u.tally = s.tally)) ∧
    (s.serving → s.pwr.drain → s.pwr.wakeSrc = none → s.fld Reg.pwrCtl 1 0 = 2 →
      (¬ s.pwr.drained → s.inFlight → exec .bobbinEntry s = .next s) ∧
      (¬ s.pwr.drained → ¬ s.inFlight → ∃ u, exec .bobbinEntry s = .next u ∧ u.pwr.drained ∧ u.pwr.lowAt = s.tick ∧
        u.spads = s.spads ∧ (s.skeins.table = [] → u.mem = s.mem)) ∧
      (s.pwr.drained → s.pwr.lowAt < s.tick → ¬ s.pwr.wakeReq → ∃ u, exec .bobbinEntry s = .next u ∧ u.pwr.state = .p2 ∧
        u.mem.data = s.mem.data ∧ u.mem.chk = s.mem.chk ∧ u.mem.cls = s.mem.cls ∧ u.tally = s.tally ∧ u.skeins = s.skeins ∧
        u.ctxs = s.ctxs ∧ ∀ k, ((s.reg Reg.pwrSram).getLsbD (8 + k / 32768 / 19) = false → k ∉ u.spads.written) ∧
          ((s.reg Reg.pwrSram).getLsbD (8 + k / 32768 / 19) = true → (k ∈ u.spads.written ↔ k ∈ s.spads.written)))) ∧
    (s.powered → s.pwr.ready → s.pwr.safe = none → s.pwr.drain → s.fld Reg.pwrCtl 1 0 = 3 → s.pwr.wakeSrc = none → s.pwr.drained →
      s.pwr.lowAt < s.tick → ¬ s.pwr.wakeReq →
      ((s.ctx 0).d3hot → ∃ u, exec .standbyEntry s = .next u ∧ u.pwr.state = .p3 ∧ ¬ u.powered ∧ ¬ u.pwr.ready ∧ u.pwr.padHold = 0x1FF) ∧
      (¬ (s.ctx 0).d3hot → exec .standbyEntry s = .next s)) ∧
    (s.pwr.state = .p2 → s.fld Reg.pwrWakeEn 1 1 = 1 → s.reg Reg.pwrWakeTimer ≠ 0 → s.pwr.lowAt + (s.reg Reg.pwrWakeTimer).toNat ≤ s.tick →
      s.pwr.wakeSrc = none → ∃ u, exec .wakeTimerExpiry s = .next u ∧ u = { s with pwr := { s.pwr with wakeSrc := some 4 }, regs := u.regs } ∧
        u.reg Reg.pwrLastWake0 = BitVec.ofNat 32 (4 + 16 * 2) ∧ u.reg Reg.pwrLastWake1 = BitVec.ofNat 32 s.tick32) ∧
    (s.pwr.state = .p2 → s.pwr.wakeSrc.isSome → s.powered → s.pwr.heldReq = [] → ∃ u, exec .bobbinWake s = .next u ∧ u.pwr.state = .p0 ∧
      u.pwr.wakeSrc = none ∧ u.fld Reg.pwrCtl 1 0 = 0 ∧ u.tally = s.tally ∧
      ∀ k, sget noByte u.mem.data k = if s.retains (keyRegion (k / 1024)) then sget noByte s.mem.data k else 0)

/-- O55. Temperatures. A refresh at a tick that is a multiple of 100 shows the readings. Below every limit no stored byte
changes, and a stack is throttled from its threshold on until 5 °C below. A stack at 105 °C trips: its bytes are lost
and no other stack's, SAFE mode is asked for, and with the cores, engines, ports and Spindles off no work is left; a
Mill at 110 °C does the same but for the stacks. At the critical reading the device is off and every stored byte is
lost. A stack that stays hot is throttled further. Completion: TEMP_REFRESH, THROTTLE_ESCALATE. -/
def Obligations.Temperatures : Prop :=
  (∀ (s : State) (mill : BitVec 16) (stk : List (BitVec 16)), s.powered → s.pwr.started →
    let t (k : Nat) : Int := (stk.getD k 0).toInt
    let thr : Int := 4 * (s.fld Reg.pwrTherm 7 0 : Int)
    (s.tick % 100 ≠ 0 → exec (.tempRefresh mill stk) s = .next s) ∧
    (s.tick % 100 = 0 → ∃ u, exec (.tempRefresh mill stk) s = .next u ∧ u.reg Reg.pwrTempMill = mill.setWidth 32 ∧
      (∀ k, k < 8 → u.reg (Reg.pwrTempStk k) = (stk.getD k 0).setWidth 32) ∧ u.tally = s.tally ∧
      (mill.toInt < 440 → (∀ k, k < 8 → t k < 420) → u = { s with regs := u.regs, pwr := u.pwr } ∧ u.pwr.state = s.pwr.state ∧
        ∀ k, k < 8 → u.pwr.stkHot.getLsbD k = (if thr ≤ t k then true else if t k ≤ thr - 20 then false else s.pwr.stkHot.getLsbD k)) ∧
      (440 ≤ mill.toInt ∨ (∃ k, k < 8 ∧ 420 ≤ t k) → u.pwr.hotOff ∧ (∀ c, u.stream c = none) ∧ u.serve.steps = [] ∧ u.winder = {}) ∧
      (mill.toInt < 480 → (∀ k, k < 8 → t k < 460) →
        (∀ k, k < 8 → 420 ≤ t k → u.pwr.tripOut ∧ u.pwr.tripped.getLsbD k ∧ (s.pwr.safe = none → .safe 1 ∈ u.rel.asked ∨ .safe 1 ∈ s.rel.boundary) ∧
          ∀ j, keyStack (j / 1024) = k → sget noByte u.mem.data j = 0) ∧
        (∀ j, ¬ (keyStack (j / 1024) < 8 ∧ 420 ≤ t (keyStack (j / 1024))) → sget noByte u.mem.data j = sget noByte s.mem.data j)) ∧
      (480 ≤ mill.toInt ∨ (∃ k, k < 8 ∧ 460 ≤ t k) → u.pwr.critical ∧ ¬ u.powered ∧ ∀ j, sget noByte u.mem.data j = 0))) ∧
  (∀ (s : State) (k : Stack) (since : Nat), s.powered → s.pwr.stkHot.getLsbD k → sget noHot s.pwr.hotSince k = some since →
    (since + 1000 ≤ s.tick → ∃ u, exec (.throttleEscalate k) s = .next u ∧ u = { s with pwr := { s.pwr with deepHot := u.pwr.deepHot } } ∧
      ∀ j : Stack, u.pwr.deepHot.getLsbD j = (j == k || s.pwr.deepHot.getLsbD j)) ∧
    (s.tick < since + 1000 → exec (.throttleEscalate k) s = .next s))

/-- O56. Resets. A power-on reset and a cold reset leave every byte of stacked memory zero, every context OFF, every core
without a stream and the device not READY. A warm reset keeps the bytes of the regions below 62 of every stack that is
neither lost nor too hot, and clears the rest. A rail that fails stops the device; where it is VDD_AON or VDD_IO18 the
pins lose their drive (R462). READY follows a start-up whose boot has passed, and never one that has failed.
Completion: POWER_ON_RESET, COLD_RESET, WARM_RESET, PERST_ASSERT, PERST_DEASSERT, POWER_FAIL, AON_CLK_LOSS,
AON_CLK_RETURN, READY. -/
def Obligations.Resets : Prop :=
  ∀ (s : State) (env : BootEnv),
    let clean (u : State) : Prop := (∀ c, (u.ctx c).st = .off) ∧ (∀ c, u.stream c = none) ∧ ¬ u.pwr.ready ∧ u.serve.hanks = [] ∧
      u.serve.steps = [] ∧ u.winder = {} ∧ u.pending = s.pending
    let blank (u : State) : Prop := clean u ∧ ∀ k, sget noByte u.mem.data k = 0
    (∃ u, exec (.powerOnReset env) s = .next u ∧ blank u ∧ u.tick = 0 ∧ (env.testBallsOpen → env.aonClkOk → ¬ s.pwr.perst → u.pwr.started)) ∧
    (s.pwr.railsOk → s.pwr.aonOk → (s.pwr.perst ∨ s.pwr.resetReq = some true ∨ s.pwr.state = .p3 ∧ s.pwr.wakeSrc.isSome) →
      ∃ u, exec (.coldReset env) s = .next u ∧ blank u ∧ u.tick = s.tick) ∧
    (¬ s.pwr.perst → s.pwr.resetReq ≠ some true → s.pwr.state ≠ .p3 → exec (.coldReset env) s = .next s) ∧
    (s.powered → s.pwr.started → s.pwr.resetReq ≠ some true → s.pwr.safe ≠ some 2 →
      ∃ u, exec (.warmReset env) s = .next u ∧ clean u ∧ u.tick = s.tick ∧ (∀ i, i < 4 → u.reg (Reg.stkRmode i) = s.reg (Reg.stkRmode i)) ∧
        ∀ k, sget noByte u.mem.data k =
          if keyRegion (k / 1024) < 62 ∧ ¬ s.stackFresh (keyStack (k / 1024)) then sget noByte s.mem.data k else 0) ∧
    (∀ n, 25 ≤ n → s.pwr.railsOk → s.pwr.aonOk → ∃ u, exec (.perstAssert n) s = .next u ∧ blank u ∧ u.pwr.perst ∧ ¬ u.powered) ∧
    (∀ n, n < 25 → exec (.perstAssert n) s = .next s) ∧
    (s.pwr.perst → ∃ u, exec (.perstDeassert env) s = .next u ∧ ¬ u.pwr.perst ∧ u.tick = s.tick ∧
      (s.skeins.table = [] → u.mem.data = s.mem.data) ∧
      (env.testBallsOpen → env.aonClkOk → s.pwr.railsOk → s.pwr.aonOk → u.pwr.started)) ∧
    (¬ s.pwr.perst → exec (.perstDeassert env) s = .next s) ∧
    (∀ rail n, 2000 ≤ n → ∃ u, exec (.powerFail ⟨rail, n⟩) s = .next u ∧ u = { s with pwr := u.pwr, twine := u.twine } ∧ ¬ u.powered ∧
      (rail = .vddAon ∨ rail = .vddIo18 → ¬ s.pinsFloat → u.pwr.tripOut = false ∧ u.pwr.smbAlert = false ∧ u.pwr.padHold = 0 ∧
        ∀ p, p < 8 → (u.port p).pauseOut)) ∧
    (∀ rail n, n < 2000 → exec (.powerFail ⟨rail, n⟩) s = .next s) ∧
    (∃ u, exec .aonClkLoss s = .next u ∧ u = { s with pwr := u.pwr } ∧ ¬ u.powered) ∧
    (¬ s.pwr.aonOk → ∃ u, exec (.aonClkReturn env) s = .next u ∧ blank u ∧ u.pwr.aonOk ∧ u.tick = 0) ∧
    (s.pwr.aonOk → exec (.aonClkReturn env) s = .next s) ∧
    (s.powered → s.pwr.started → (¬ s.pwr.bootFail → exec .ready s = .next { s with pwr := { s.pwr with ready := true } }) ∧
      (s.pwr.bootFail → exec .ready s = .next s))

/-! ### The root of trust and the sideband (15, 17) -/

/-- O57. Firmware updates. STAGE has the PF read the image at SEC_FWUP_ADDR and makes its checks in their order: the first
that fails ends the update with its reason and leaves both slots as they are; an image that passes all is staged, the
slot not booted is erased, and the other stays. FWUP_DONE puts the image into that slot, or ends the update with
reason 6. ABORT of an update ends it with reason 7 and leaves an erased header; STAGE while one is under way changes
nothing of it. Completion: STAGE, FWUP_DONE, ABORT. -/
def Obligations.FirmwareUpdate : Prop :=
  ∀ s : State, s.secAnswers →
    let t := s.trust
    let read : HostMsg := .read 0 (BitVec.ofNat 64 (s.pair Reg.secFwupAddrLo Reg.secFwupAddrHi)) (s.fld Reg.secFwupLen 21 0) false
    (∀ (b : List Byte) (sigOk hashOk : Bool), t.fw ≠ .busy → ¬ t.asked → (s.ctx 0).busMaster →
      let x := imageOf b sigOk hashOk
      let why := if ¬ x.formOk ∨ 2048 + x.bodyLen ≠ s.fld Reg.secFwupLen 21 0 then 2 else if ¬ sigOk then 3
        else if x.seq ≠ t.wantedSeq then 8 else if x.svn < s.fld Reg.secStatusLo 15 0 then 5 else if ¬ hashOk then 4 else 0
      ∃ u, exec (.stage (.ok b) sigOk hashOk) s = .next u ∧ u = { s with trust := u.trust, toHost := s.toHost ++ [read] } ∧
        (why ≠ 0 → u.trust.fw = .failed ∧ u.trust.reason = why ∧ u.trust.staged = none ∧ u.trust.slotA = t.slotA ∧ u.trust.slotB = t.slotB) ∧
        (why = 0 → u.trust.fw = .busy ∧ u.trust.staged = some x ∧ u.trust.target = t.target.erased ∧
          (if t.slot then u.trust.slotB = t.slotB else u.trust.slotA = t.slotA))) ∧
    (t.fw ≠ .busy → ¬ t.asked → ∃ u, exec (.stage .failed true true) s = .next u ∧
      u = { s with trust := u.trust, toHost := s.toHost ++ if (s.ctx 0).busMaster then [read] else [] } ∧ u.trust.fw = .failed ∧
      u.trust.reason = 1 ∧ u.trust.slotA = t.slotA ∧ u.trust.slotB = t.slotB) ∧
    (∀ host a b, t.fw = .busy → ¬ t.asked → ∃ u, exec (.stage host a b) s = .next u ∧ u.trust = t ∧ u.mem = s.mem) ∧
    (t.fw = .busy → ∃ u, exec .abort s = .next u ∧ u = { s with trust := u.trust } ∧ u.trust.fw = .failed ∧ u.trust.reason = 7 ∧
      u.trust.target = t.target.erased) ∧
    (t.fw ≠ .busy → exec .abort s = .next s) ∧
    (∀ x, t.fw = .busy → t.staged = some x → s.powered →
      (∃ u, exec (.fwupDone true) s = .next u ∧ u = { s with trust := u.trust } ∧ u.trust.fw = .done ∧ u.trust.reason = 0 ∧
        u.trust.target = x ∧ (if t.slot then u.trust.slotB = t.slotB else u.trust.slotA = t.slotA)) ∧
      (∃ u, exec (.fwupDone false) s = .next u ∧ u = { s with trust := u.trust } ∧ u.trust.fw = .failed ∧ u.trust.reason = 6))

/-- O58. SPDM before a session. A request that comes before its turn is answered with UnexpectedRequest and changes
nothing else; without an identity one that needs a signature or a session is answered with Unspecified, whenever it
comes. GET_VERSION, GET_CAPABILITIES and NEGOTIATE_ALGORITHMS each bring the connection one step further; the chain's
digest, its parts, a signed challenge with a fresh nonce, and the measurements are answered as asked. An answer over a
link is queued there. Completion: GET_VERSION, GET_CAPABILITIES, NEGOTIATE_ALGORITHMS, GET_DIGESTS, GET_CERTIFICATE,
CHALLENGE, GET_MEASUREMENTS. SPDM sessions and IDE. KEY_EXCHANGE opens a session, of at most sixteen; a FINISH that
verifies establishes it and one that does not ends it. In an established session HEARTBEAT and KEY_UPDATE are
answered, END_SESSION ends it, and outside one they are refused; the answer to a link's KEY_UPDATE is followed by the
new keys. IDE_KM in a session of the PF puts its key in the place it names, leaves every other key, and makes its
stream Secure; a failed integrity check makes it Insecure again. Completion: KEY_EXCHANGE, FINISH, HEARTBEAT,
KEY_UPDATE, END_SESSION, IDE_KM, IDE_INTEGRITY_FAIL. -/
def Obligations.SpdmRequestsAndSessions : Prop :=
  (∀ (s : State) (r : SpdmReq), s.spdmServes r →
      let n := s.conn r
      let said (x : SpdmReply) : State := (s.answer x).sendAnswer r []
      let early := said (.error .unexpectedRequest)
      let moved (u : State) (k : Nat) (x : SpdmReply) : Prop := u = { s with trust := u.trust, reply := .spdm x } ∧
        u.conn r = k ∧ u.trust = { s.trust with conn := u.trust.conn }
      (n < 1 → exec (.getCapabilities r) s = .next early) ∧ (n < 2 → exec (.negotiateAlgorithms r) s = .next early) ∧
      let sealed_ (u : State) : Prop := exec (.challenge r) s = .next u ∧ exec (.keyExchange r) s = .next u ∧ exec (.finish r) s = .next u ∧
        exec (.heartbeat r) s = .next u ∧ exec (.keyUpdate r) s = .next u ∧ exec (.endSession r) s = .next u
      (n < 3 → exec (.getDigests r) s = .next early ∧ exec (.getCertificate r) s = .next early ∧
        (s.identity → sealed_ early ∧ exec (.getMeasurements r) s = .next early) ∧
        (r.param1.getLsbD 0 = false → exec (.getMeasurements r) s = .next early)) ∧
      (¬ s.identity → sealed_ (said (.error .unspecified)) ∧
        (r.param1.getLsbD 0 = true → exec (.getMeasurements r) s = .next (said (.error .unspecified)))) ∧
      (∃ u : State, exec (.getVersion r) s = .next (u.sendAnswer r []) ∧ moved u 1 .version) ∧
      (1 ≤ n → ∃ u : State, exec (.getCapabilities r) s = .next (u.sendAnswer r []) ∧ moved u 2
        (.capabilities [.cert, .chal, .measSig, .keyEx, .encrypt, .mac, .hbeat, .keyUpd])) ∧
      (2 ≤ n → (r.valid → ∃ u : State, exec (.negotiateAlgorithms r) s = .next (u.sendAnswer r []) ∧ moved u 3
          (.algorithms [.rsaPss3072, .sha256, .secp384r1, .aes256Gcm, .spdmKeySchedule])) ∧
        (¬ r.valid → exec (.negotiateAlgorithms r) s = .next (said (.error .unsupportedRequest)))) ∧
      (3 ≤ n → exec (.getDigests r) s = .next (said (.digests Config.chainDigest)) ∧
        (let off := payload16 r.payload 0
         let part := (Config.certChain.drop off).take (payload16 r.payload 2)
         (bitsAt r.param1.toNat 3 0 = 0 → off < Config.certChain.length → exec (.getCertificate r) s =
           .next (said (.certificate part (Config.certChain.length - off - part.length)))) ∧
         (bitsAt r.param1.toNat 3 0 = 0 → Config.certChain.length ≤ off → exec (.getCertificate r) s =
           .next (said (.error .invalidRequest)))) ∧
        (r.param1 = 0 → s.identity → exec (.challenge r) s = .next (({ s with
          trust := { s.trust with drbg := s.trust.drbg + 2 }
          reply := .spdm (.challengeAuth ((Config.drbg s.trust.drbg).setWidth 3072)
            (Config.identitySign (s.trust.drbg + 1) r.payload)) } : State).sendAnswer r [])) ∧
        (r.param1.getLsbD 0 = false → r.param2 = 255 → exec (.getMeasurements r) s = .next (({ s with
          trust := { s.trust with drbg := s.trust.drbg + 1 }
          reply := .spdm (.measurements (Config.drbg s.trust.drbg) s.measurements none) } : State).sendAnswer r [])) ∧
        (r.param1.getLsbD 0 = true → r.param2 = 255 → s.identity → ∃ sig, exec (.getMeasurements r) s = .next (({ s with
          trust := { s.trust with drbg := s.trust.drbg + 2 }
          reply := .spdm (.measurements (Config.drbg s.trust.drbg) s.measurements (some sig)) } : State).sendAnswer r [])) ∧
        (r.param2.toNat = 200 → r.param1.getLsbD 0 = false → exec (.getMeasurements r) s = .next (said (.error .invalidRequest))))) ∧
  (∀ (s : State) (r : SpdmReq), s.spdmServes r → 3 ≤ s.conn r → s.identity →
      let t := s.trust
      let said (x : SpdmReply) : State := (s.answer x).sendAnswer r []
      (r.param2 = 0 → t.sessions.length < 16 → ∃ (u : State) (sig : BitVec 3072), exec (.keyExchange r) s = .next (u.sendAnswer r []) ∧
        u = { s with trust := u.trust, reply := .spdm (.keyExchange (BitVec.ofNat 32 t.nextSession) (Config.drbg (t.drbg + 1)) sig) } ∧
        u.trust = { t with drbg := t.drbg + 3, nextSession := t.nextSession + 1
                           sessions := t.sessions ++ [{ id := BitVec.ofNat 32 t.nextSession, peer := r.peer, secret := t.drbg }] }) ∧
      (r.param2 = 0 → 16 ≤ t.sessions.length → exec (.keyExchange r) s = .next (said (.error .sessionLimitExceeded))) ∧
      (s.sessionOf r = none → let early := said (.error .unexpectedRequest)
        exec (.finish r) s = .next early ∧ exec (.heartbeat r) s = .next early ∧ exec (.keyUpdate r) s = .next early ∧
        exec (.endSession r) s = .next early) ∧
      (∀ x, s.sessionOf r = some x →
        (¬ x.ready → r.valid → ∃ u : State, exec (.finish r) s = .next (u.sendAnswer r []) ∧ u = { s with trust := u.trust, reply := .spdm .finish } ∧
          u.sessionOf r = some { x with ready := true }) ∧
        (¬ x.ready → ¬ r.valid → ∃ u : State, exec (.finish r) s = .next (u.sendAnswer r []) ∧
          u = { s with trust := u.trust, reply := .spdm (.error .unspecified) } ∧ ∀ y ∈ u.trust.sessions, y.id ≠ x.id) ∧
        (x.ready → r.valid → exec (.heartbeat r) s = .next (said .heartbeat) ∧
          (∃ u : State, exec (.keyUpdate r) s = .next (u.sendAnswer r (renewed r)) ∧ u = { s with trust := u.trust, reply := .spdm .keyUpdate } ∧
            u.sessionOf r = some { x with updates := x.updates + 1 } ∧
            ∀ p, r.peer = .port p → ∃ k, ((u.sendAnswer r (renewed r)).port p).lnk ++ ((u.sendAnswer r (renewed r)).port p).lnkWait =
              (s.port p).lnk ++ (s.port p).lnkWait ++ [k] ∧ k.rekey = renewed r) ∧
          (∃ u : State, exec (.endSession r) s = .next (u.sendAnswer r []) ∧ u = { s with trust := u.trust, reply := .spdm .endSession } ∧
            u.sessionOf r = none)) ∧
        (∀ (stream : Fin 9) (at_ : IdeKeySlot) (key : BitVec 256), x.ready → r.peer = .func 0 →
          ∃ u, exec (.ideKm 0 r.session stream at_ key) s = .next u ∧
          u = { s with trust := u.trust, reply := .accepted } ∧
          (let y := sget noIde u.trust.ide stream
           y.secure ∧ (at_, key) ∈ y.keys ∧ (∀ e ∈ y.keys, e.1 = at_ → e.2 = key) ∧
           ∀ e, e.1 ≠ at_ → (e ∈ y.keys ↔ e ∈ (sget noIde t.ide stream).keys)) ∧
          ∀ k, k ≠ stream.val → sget noIde u.trust.ide k = sget noIde t.ide k)) ∧
      (∀ stream : Fin 9, ∃ u, exec (.ideIntegrityFail stream) s = .next u ∧ u = { s with trust := u.trust } ∧
        sget noIde u.trust.ide stream = {} ∧ ∀ k, k ≠ stream.val → sget noIde u.trust.ide k = sget noIde t.ide k))

/-- O59. The test port and the debug lock. BYPASS, IDCODE and SAMPLE run at any time, EXTEST, CLAMP and HIGHZ only while
PERST# is asserted. A challenge gives a fresh nonce, and none after three failures. A response is refused unchecked
while PERMIT is 0 or TAINT is 1; one that verifies a live nonce asks for the unlock, any other counts as a failure;
either way the nonce is used up. The unlock erases every session and the identity, and takes the ports in use to DOWN.
A locked device refuses debug accesses. Completion: BYPASS, IDCODE, SAMPLE_PRELOAD, EXTEST, CLAMP, HIGHZ, DBG_CHAL,
DBG_RESP, DEBUG_UNLOCK, DBG_ACCESS, NONCE_EXPIRY. -/
def Obligations.DebugLock : Prop :=
  ∀ s : State, s.pwr.railsOk →
    let t := s.trust
    let tap (ir : TapIr) (out : BitVec 512) : State := { s with trust := { t with tap := ir }, reply := .tap out }
    let refused : State := { s with reply := .refused }
    exec .bypass s = .next (tap .bypass 0) ∧ exec .idcode s = .next (tap .idcode (Config.idcode.setWidth 512)) ∧
    (∀ pins, exec (.samplePreload pins) s = .next { s with trust := { t with tap := .sample, boundary := pins }, reply := .tap (pins.setWidth 512) }) ∧
    (s.pwr.perst → exec .extest s = .next (tap .extest (t.boundary.setWidth 512)) ∧ exec .clamp s = .next (tap .clamp 0) ∧
      exec .highz s = .next (tap .highz 0)) ∧
    (¬ s.pwr.perst → exec .extest s = .next refused ∧ exec .clamp s = .next refused ∧ exec .highz s = .next refused) ∧
    (s.powered → s.pwr.started →
      (t.fails < 3 → exec .dbgChal s = .next { s with
        trust := { t with drbg := t.drbg + 1, nonce := some (Config.drbg t.drbg, s.tick) }, reply := .tap (Config.drbg t.drbg ++ Config.leafDigest) }) ∧
      (3 ≤ t.fails → exec .dbgChal s = .next refused) ∧
      (∀ cert sig (ok : Bool), (s.fld Reg.secDbg 0 0 = 0 ∨ s.fld Reg.secDbg 1 1 = 1) → exec (.dbgResp cert sig ok) s = .next refused) ∧
      (∀ cert sig (ok : Bool), s.fld Reg.secDbg 0 0 ≠ 0 → s.fld Reg.secDbg 1 1 ≠ 1 →
        (∀ n, t.nonce = some n → s.tick < n.2 + nonceLife → ok → ∃ u, exec (.dbgResp cert sig ok) s = .next u ∧ (.unlock ∈ u.rel.asked ∨ .unlock ∈ s.rel.boundary) ∧
          u = { s with trust := { t with nonce := none, fails := 0 }, reply := .accepted, rel := u.rel }) ∧
        ((t.nonce = none ∨ ¬ ok) → exec (.dbgResp cert sig ok) s =
          .next { s with trust := { t with nonce := none, fails := t.fails + 1 }, reply := .refused })) ∧
      (.unlock ∈ s.rel.boundary → ∃ u, exec .debugUnlock s = .next u ∧ u.fld Reg.secStatusLo 19 19 = 1 ∧ u.fld Reg.secStatusLo 17 17 = 0 ∧
        u.trust.sessions = [] ∧ u.trust.ide = [] ∧ u.trust.identityKey = none ∧ (∀ p : Port, (u.port p).st = .disabled ∨ (u.port p).st = .down) ∧ u.mem = s.mem ∧
        .unlock ∉ u.rel.boundary) ∧
      (∀ op, s.fld Reg.secStatusLo 19 19 ≠ 1 → exec (.dbgAccess op) s = .next refused) ∧
      (s.fld Reg.secStatusLo 19 19 = 1 →
        (∀ off, off.toNat % 4 = 0 → off.toNat ≠ Reg.clkTickLo →
          exec (.dbgAccess (.reg off none)) s = .next { s with reply := .word (s.readReg off.toNat) }) ∧
        exec (.dbgAccess (.reg (BitVec.ofNat 26 Reg.clkTickLo) none)) s = .next { s with
          pwr := { s.pwr with clkHi := BitVec.ofNat 32 (s.tick / 2 ^ 32) }, reply := .word (BitVec.ofNat 32 s.tick) } ∧
        exec (.dbgAccess .halt) s = .next { s with trust := { t with halted := true }, reply := .accepted } ∧
        exec (.dbgAccess .resume) s = .next { s with trust := { t with halted := false }, reply := .accepted } ∧
        exec (.dbgAccess .step) s = .next { s with reply := .accepted } ∧
        ∀ a wr, a.toNat % 4 ≠ 0 → exec (.dbgAccess (.mem a wr)) s = .next refused)) ∧
    (∀ n, t.nonce = some n →
      (n.2 + nonceLife ≤ s.tick → exec .nonceExpiry s = .next { s with trust := { t with nonce := none } }) ∧
      (s.tick < n.2 + nonceLife → exec .nonceExpiry s = .next s))

/-- O60. SMBus. A target that answers gives the status, the temperatures of the Mill die and the stacks, the power and the
ID as Table 17.7 lays them out, and changes nothing; one that does not, acknowledges nothing. An alert response names
the device once. A clock held low for 35 ms ends the transfer, and one of less than 25 ms does not. Completion:
SMB_STATUS, SMB_TEMPS, SMB_POWER, SMB_ID, SMB_ALERT_RESPONSE, SMB_CLOCK_LOW_TIMEOUT. -/
def Obligations.SmbusTelemetry : Prop :=
  ∀ s : State,
    (s.smbAnswers →
      let value (b : List Byte) : Nat := natOfBytes (b.map BitVec.toNat)
      (∃ b, exec .smbStatus s = .next { s with reply := .bytes b } ∧ b.length = 5 ∧ let v := value b; bitsAt v 7 0 = s.pwr.state.code ∧ bitsAt v 8 8 = (if s.pwr.safe.isSome then 1 else 0) ∧
        (∀ cause, s.pwr.safe = some cause → cause < 16 → bitsAt v 15 12 = cause) ∧ bitsAt v 16 16 = (if s.pwr.ready then 1 else 0) ∧
        bitsAt v 24 24 = (if s.millThrottled then 1 else 0) ∧ bitsAt v 32 25 = s.pwr.stkHot.toNat) ∧
      (∃ b, exec .smbTemps s = .next { s with reply := .bytes b } ∧ b.length = 18 ∧ let v := value b; bitsAt v 15 0 = s.fld Reg.pwrTempMill 15 0 ∧
        ∀ k, k < 8 → bitsAt v (16 * (k + 1) + 15) (16 * (k + 1)) = s.fld (Reg.pwrTempStk k) 15 0) ∧
      (∃ b, exec .smbPower s = .next { s with reply := .bytes b } ∧ b.length = 2 ∧ value b = s.fld Reg.pwrPower 15 0) ∧
      (∃ b, exec .smbId s = .next { s with reply := .bytes b } ∧ b.length = 4 ∧ value b = (s.reg Reg.glbId).toNat) ∧
      (s.pwr.smbAlert → exec .smbAlertResponse s = .next { s with
        pwr := { s.pwr with smbAlert := false }, reply := .bytes [BitVec.ofNat 8 (2 * s.smbAddress)] }) ∧
      (∀ ms, 35 ≤ ms → exec (.smbClockLowTimeout ms) s = .next { s with reply := .none })) ∧
    (¬ s.smbAnswers → let t : State := { s with reply := .nack }
      exec .smbStatus s = .next t ∧ exec .smbTemps s = .next t ∧ exec .smbPower s = .next t ∧ exec .smbId s = .next t ∧
        exec .smbAlertResponse s = .next t) ∧
    (¬ s.pwr.smbAlert → exec .smbAlertResponse s = .next { s with reply := .nack }) ∧
    ∀ ms, ms < 25 → exec (.smbClockLowTimeout ms) s = .next s
end

