-- ==== Sys2Proof/Laws/Sparse.lean ====
section
/-!
SUPPORT. What the sparse tables do, once: a read after a write, and that every write keeps the
canonical form.
-/

namespace Sys2Proof

variable {α : Type}

theorem sget_sput_same (d : Nat → α) (m : Sparse α) (k : Nat) (v : α) :
    sget d (sput m k v) k = v := by
  induction m with
  | nil => simp [sput, sget]
  | cons e m ih =>
    obtain ⟨j, w⟩ := e
    by_cases h1 : k < j
    · simp [sput, sget, h1]
    · by_cases h2 : k = j
      · simp [sput, sget, h2]
      · simp [sput, sget, h1, h2, ih]

theorem sget_sput_other (d : Nat → α) (m : Sparse α) {k j : Nat} (v : α) (h : j ≠ k) :
    sget d (sput m k v) j = sget d m j := by
  induction m with
  | nil => simp [sput, sget, h]
  | cons e m ih =>
    obtain ⟨i, w⟩ := e
    by_cases h1 : k < i
    · simp [sput, sget, h1, h]
    · by_cases h2 : k = i
      · subst h2; simp [sput, sget, h]
      · simp [sput, sget, h1, h2, ih]

theorem sget_sdel_same (d : Nat → α) (m : Sparse α) (k : Nat) : sget d (sdel m k) k = d k := by
  induction m with
  | nil => simp [sdel, sget]
  | cons e m ih =>
    obtain ⟨j, w⟩ := e
    by_cases h : k = j
    · subst h; simpa [sdel] using ih
    · simp [sdel, sget, h, ih]

theorem sget_sdel_other (d : Nat → α) (m : Sparse α) {k j : Nat} (h : j ≠ k) :
    sget d (sdel m k) j = sget d m j := by
  induction m with
  | nil => simp [sdel]
  | cons e m ih =>
    obtain ⟨i, w⟩ := e
    by_cases h2 : k = i
    · subst h2; simp [sdel, sget, h, ih]
    · simp [sdel, sget, h2, ih]

@[simp] theorem sget_sset_same [DecidableEq α] (d : Nat → α) (m : Sparse α) (k : Nat) (v : α) :
    sget d (sset d m k v) k = v := by
  by_cases h : v = d k
  · simp [sset, h, sget_sdel_same]
  · simp [sset, h, sget_sput_same]

theorem sget_sset_other [DecidableEq α] (d : Nat → α) (m : Sparse α) {k j : Nat} (v : α)
    (h : j ≠ k) : sget d (sset d m k v) j = sget d m j := by
  by_cases h2 : v = d k
  · simp [sset, h2, sget_sdel_other d m h]
  · simp [sset, h2, sget_sput_other d m v h]

theorem sget_sset [DecidableEq α] (d : Nat → α) (m : Sparse α) (k j : Nat) (v : α) :
    sget d (sset d m k v) j = if j = k then v else sget d m j := by
  by_cases h : j = k
  · subst h; simp
  · simp [h, sget_sset_other d m v h]

@[simp] theorem sget_nil (d : Nat → α) (k : Nat) : sget d [] k = d k := rfl

theorem mem_sput {m : Sparse α} {k : Nat} {v : α} {e : Nat × α} (h : e ∈ sput m k v) :
    e = (k, v) ∨ e ∈ m := by
  induction m with
  | nil => simp [sput] at h; exact .inl h
  | cons f m ih =>
    obtain ⟨j, w⟩ := f
    by_cases h1 : k < j
    · simp [sput, h1] at h
      rcases h with h | h | h <;> simp [h]
    · by_cases h2 : k = j
      · simp [sput, h2] at h
        rcases h with h | h <;> simp [h, h2]
      · simp [sput, h1, h2] at h
        rcases h with h | h
        · simp [h]
        · rcases ih h with h | h <;> simp [h]

theorem mem_sdel {m : Sparse α} {k : Nat} {e : Nat × α} (h : e ∈ sdel m k) : e ∈ m := by
  induction m with
  | nil => simp [sdel] at h
  | cons f m ih =>
    obtain ⟨j, w⟩ := f
    by_cases h2 : k = j
    · simp [sdel, h2] at h; exact List.mem_cons_of_mem _ (ih (by simpa [h2] using h))
    · simp [sdel, h2] at h
      rcases h with h | h
      · simp [h]
      · exact List.mem_cons_of_mem _ (ih h)

theorem sput_keys_rising {m : Sparse α} (h : m.Pairwise (fun a b => a.1 < b.1)) (k : Nat) (v : α) :
    (sput m k v).Pairwise (fun a b => a.1 < b.1) := by
  induction m with
  | nil => simp [sput]
  | cons f m ih =>
    obtain ⟨j, w⟩ := f
    rw [List.pairwise_cons] at h
    obtain ⟨h1, h2⟩ := h
    by_cases c1 : k < j
    · simp only [sput, c1, ↓reduceIte, List.pairwise_cons]
      refine ⟨?_, h1, h2⟩
      intro e he
      rcases List.mem_cons.1 he with rfl | he
      · exact c1
      · exact Nat.lt_trans c1 (h1 e he)
    · by_cases c2 : k = j
      · subst c2
        simp only [sput, Nat.lt_irrefl, ↓reduceIte, List.pairwise_cons]
        exact ⟨h1, h2⟩
      · simp only [sput, c1, c2, ↓reduceIte, List.pairwise_cons]
        refine ⟨?_, ih h2⟩
        intro e he
        rcases mem_sput he with rfl | he
        · show j < k; omega
        · exact h1 e he

theorem sdel_keys_rising {m : Sparse α} (h : m.Pairwise (fun a b => a.1 < b.1)) (k : Nat) :
    (sdel m k).Pairwise (fun a b => a.1 < b.1) := by
  induction m with
  | nil => simp [sdel]
  | cons f m ih =>
    obtain ⟨j, w⟩ := f
    rw [List.pairwise_cons] at h
    by_cases c2 : k = j
    · simpa [sdel, c2] using ih h.2
    · simp only [sdel, c2, ↓reduceIte, List.pairwise_cons]
      exact ⟨fun e he => h.1 e (mem_sdel he), ih h.2⟩

theorem sset_wf [DecidableEq α] (d : Nat → α) {m : Sparse α} (h : SparseWf d m) (k : Nat) (v : α) :
    SparseWf d (sset d m k v) := by
  by_cases c : v = d k
  · simp only [sset, c, ↓reduceIte]
    exact ⟨sdel_keys_rising h.1 k, fun e he => h.2 e (mem_sdel he)⟩
  · simp only [sset, c, ↓reduceIte]
    refine ⟨sput_keys_rising h.1 k v, fun e he => ?_⟩
    rcases mem_sput he with rfl | he
    · exact c
    · exact h.2 e he

theorem smod_wf [DecidableEq α] (d : Nat → α) {m : Sparse α} (h : SparseWf d m) (k : Nat)
    (f : α → α) : SparseWf d (smod d m k f) := sset_wf d h k _

theorem ssetMany_wf [DecidableEq α] (d : Nat → α) (vs : List α) :
    ∀ {m : Sparse α} (k : Nat), SparseWf d m → SparseWf d (ssetMany d m k vs) := by
  induction vs with
  | nil => intro m k h; exact h
  | cons v vs ih => intro m k h; exact ih (k + 1) (sset_wf d h k v)

theorem ssetAll_wf [DecidableEq α] (d : Nat → α) (es : List (Nat × α)) :
    ∀ {m : Sparse α}, SparseWf d m → SparseWf d (ssetAll d m es) := by
  induction es with
  | nil => intro m h; exact h
  | cons e es ih => intro m h; exact ih (sset_wf d h e.1 e.2)

theorem sparse_filter_wf {d : Nat → α} {m : Sparse α} (h : SparseWf d m) (p : Nat × α → Bool) :
    SparseWf d (m.filter p) :=
  ⟨h.1.filter p, fun e he => h.2 e (List.mem_filter.1 he).1⟩

theorem sparse_nil_wf (d : Nat → α) : SparseWf d ([] : Sparse α) := by simp [SparseWf]

theorem sget_ssetMany_below [DecidableEq α] (d : Nat → α) (vs : List α) :
    ∀ (m : Sparse α) {k j : Nat}, j < k → sget d (ssetMany d m k vs) j = sget d m j := by
  induction vs with
  | nil => intro m k j _; rfl
  | cons v vs ih =>
    intro m k j h
    rw [ssetMany, ih _ (Nat.lt_succ_of_lt h), sget_sset_other d m v (by omega)]

theorem sget_ssetMany_above [DecidableEq α] (d : Nat → α) (vs : List α) :
    ∀ (m : Sparse α) {k j : Nat}, k + vs.length ≤ j → sget d (ssetMany d m k vs) j = sget d m j := by
  induction vs with
  | nil => intro m k j _; rfl
  | cons v vs ih =>
    intro m k j h
    simp only [List.length_cons] at h
    rw [ssetMany, ih _ (by omega), sget_sset_other d m v (by omega)]

end Sys2Proof
end

