-- ==== Sys2Proof/Laws/Bytes.lean ====
section
/-!
SUPPORT. Bytes of lines and runs of stored bytes: what was written reads back, and nothing else moves.
-/

namespace Sys2Proof

variable {α : Type}

theorem sget_ssetMany_in [DecidableEq α] (d : Nat → α) (vs : List α) :
    ∀ (m : Sparse α) (k i : Nat) (h : i < vs.length), sget d (ssetMany d m k vs) (k + i) = vs[i] := by
  induction vs with
  | nil => intro m k i h; simp at h
  | cons v vs ih =>
    intro m k i h
    cases i with
    | zero => rw [ssetMany, sget_ssetMany_below d vs _ (by omega)]; simp
    | succ i =>
      have := ih (sset d m k v) (k + 1) i (by simpa using h)
      rw [ssetMany, show k + (i + 1) = k + 1 + i by omega, this]
      simp

@[simp] theorem sgetMany_length (d : Nat → α) (m : Sparse α) : ∀ n k, (sgetMany d m k n).length = n := by
  intro n
  induction n with
  | zero => intro k; rfl
  | succ n ih => intro k; simp [sgetMany, ih]

theorem sgetMany_getElem (d : Nat → α) (m : Sparse α) :
    ∀ n k i (h : i < (sgetMany d m k n).length), (sgetMany d m k n)[i] = sget d m (k + i) := by
  intro n
  induction n with
  | zero => intro k i h; simp at h
  | succ n ih =>
    intro k i h
    cases i with
    | zero => simp [sgetMany]
    | succ i => simp only [sgetMany, List.getElem_cons_succ]; rw [ih]; congr 1; omega

theorem sgetMany_ssetMany [DecidableEq α] (d : Nat → α) (m : Sparse α) (k : Nat) (vs : List α) :
    sgetMany d (ssetMany d m k vs) k vs.length = vs := by
  apply List.ext_getElem
  · simp
  · intro i h1 h2
    rw [sgetMany_getElem, sget_ssetMany_in d vs m k i h2]

theorem sgetMany_congr (d : Nat → α) {m n : Sparse α} (w : Nat) :
    ∀ {k : Nat}, (∀ j, k ≤ j → j < k + w → sget d m j = sget d n j) → sgetMany d m k w = sgetMany d n k w := by
  induction w with
  | zero => intro k _; rfl
  | succ w ih =>
    intro k h
    simp only [sgetMany]
    rw [h k (by omega) (by omega), ih (fun j h1 h2 => h j (by omega) (by omega))]

/-- A run of stored bytes read from the middle. -/
theorem sgetMany_drop_take (d : Nat → α) (m : Sparse α) (k w i n : Nat) (h : i + n ≤ w) :
    ((sgetMany d m k w).drop i).take n = sgetMany d m (k + i) n := by
  apply List.ext_getElem
  · simp; omega
  · intro j h1 h2
    simp only [List.getElem_take, List.getElem_drop, sgetMany_getElem]
    congr 1; omega

@[simp] theorem bytesOfNat_length : ∀ n v, (bytesOfNat n v).length = n := by
  intro n
  induction n with
  | zero => intro v; rfl
  | succ n ih => intro v; simp [bytesOfNat, ih]

theorem natOfBytes_lt : ∀ l : List Nat, natOfBytes l < 256 ^ l.length := by
  intro l
  induction l with
  | nil => simp [natOfBytes]
  | cons b bs ih => simp only [natOfBytes, List.length_cons, Nat.pow_succ]; omega

theorem bytesOfNat_natOfBytes : ∀ l : List Nat, (∀ b ∈ l, b < 256) → bytesOfNat l.length (natOfBytes l) = l := by
  intro l
  induction l with
  | nil => intro _; rfl
  | cons b bs ih =>
    intro h
    have hb : b < 256 := h b (by simp)
    simp only [natOfBytes, List.length_cons, bytesOfNat]
    rw [show (b % 256 + 256 * natOfBytes bs) % 256 = b by omega,
      show (b % 256 + 256 * natOfBytes bs) / 256 = natOfBytes bs by omega, ih (fun x hx => h x (by simp [hx]))]

theorem natOfBytes_bytesOfNat : ∀ n v, v < 256 ^ n → natOfBytes (bytesOfNat n v) = v := by
  intro n
  induction n with
  | zero => intro v h; simp at h; simp [bytesOfNat, natOfBytes, h]
  | succ n ih =>
    intro v h
    simp only [bytesOfNat, natOfBytes]
    rw [ih _ (by rw [Nat.pow_succ] at h; omega)]
    omega

theorem bytesOfNat_getElem : ∀ n v i (h : i < (bytesOfNat n v).length), (bytesOfNat n v)[i] = v / 2 ^ (8 * i) % 256 := by
  intro n
  induction n with
  | zero => intro v i h; simp at h
  | succ n ih =>
    intro v i h
    cases i with
    | zero => simp [bytesOfNat]
    | succ i =>
      simp only [bytesOfNat, List.getElem_cons_succ]
      rw [ih, Nat.div_div_eq_div_mul, show 256 * 2 ^ (8 * i) = 2 ^ (8 * (i + 1)) by rw [Nat.mul_add, Nat.pow_add]; omega]

namespace Machine

theorem pow_512 : (256 : Nat) ^ 64 = 2 ^ 512 := by
  rw [show (256 : Nat) = 2 ^ 8 by rfl, ← Nat.pow_mul]

theorem bytesOfLine_lineOf (d : List Nat) (hl : d.length = 64) (h : ∀ b ∈ d, b < 256) : bytesOfLine (lineOf d) = d := by
  have h1 : natOfBytes d < 2 ^ 512 := by
    have := natOfBytes_lt d
    rwa [hl, pow_512] at this
  unfold bytesOfLine lineOf
  rw [BitVec.toNat_ofNat, Nat.mod_eq_of_lt h1, ← hl]
  exact bytesOfNat_natOfBytes d h

theorem lineOf_bytesOfLine (x : Line) : lineOf (bytesOfLine x) = x := by
  unfold bytesOfLine lineOf
  rw [natOfBytes_bytesOfNat 64 x.toNat (by rw [pow_512]; exact x.isLt), BitVec.ofNat_toNat]
  simp

/-- Stored bytes, as the numbers that checks and lines are made from, are bytes. -/
theorem map_toNat_lt (l : List Byte) : ∀ b ∈ l.map BitVec.toNat, b < 256 := by
  intro b h
  obtain ⟨x, -, rfl⟩ := List.mem_map.mp h
  exact x.isLt

@[simp] theorem map_ofNat_toNat (l : List Byte) : (l.map BitVec.toNat).map (BitVec.ofNat 8) = l := by
  induction l with
  | nil => rfl
  | cons x l ih => simp only [List.map_cons, ih, BitVec.ofNat_toNat]; simp

/-- The stored bytes of a line, as they are delivered. -/
theorem line_of_stored (m : List Host.Cell) (k : Nat) :
    (bytesOfLine (lineOf ((sgetMany noByte m k 64).map BitVec.toNat))).map (BitVec.ofNat 8) = sgetMany noByte m k 64 := by
  rw [bytesOfLine_lineOf _ (by simp) (map_toNat_lt _), map_ofNat_toNat]

/-- The bytes of a line, one by one. -/
theorem bytesOfLine_getElem (x : Line) (i : Nat) (h : i < ((bytesOfLine x).map (BitVec.ofNat 8)).length) :
    ((bytesOfLine x).map (BitVec.ofNat 8))[i] = x.extractLsb' (8 * i) 8 := by
  simp only [List.getElem_map, bytesOfLine, bytesOfNat_getElem]
  apply BitVec.eq_of_toNat_eq
  simp [BitVec.extractLsb'_toNat, Nat.shiftRight_eq_div_pow]

end Machine
end Sys2Proof
end

