-- ==== Sys2Proof/Laws/Gcm.lean ====
section
/-!
SUPPORT. Opening what was sealed with the same key, nonce and AAD gives the data back (R294).
-/

namespace Sys2Proof.Machine

/-- Every element is a byte. -/
abbrev AllBytes (l : List Nat) : Prop := ∀ b ∈ l, b < 256

theorem xor_byte (a b : Nat) (ha : a < 256) (hb : b < 256) : Nat.xor a b < 256 := Nat.xor_lt_two_pow (n := 8) ha hb

@[simp] theorem xorBytes_length (a b : List Nat) : (xorBytes a b).length = min a.length b.length := by simp [xorBytes]

theorem xorBytes_bytes (a b : List Nat) (ha : AllBytes a) (hb : AllBytes b) : AllBytes (xorBytes a b) := by
  intro x hx
  simp only [xorBytes, List.mem_map] at hx
  obtain ⟨⟨p, q⟩, h, rfl⟩ := hx
  exact xor_byte p q (ha p (List.of_mem_zip h).1) (hb q (List.of_mem_zip h).2)

/-- Twice the same stream is none. -/
theorem xorBytes_twice (a b : List Nat) (h : a.length ≤ b.length) : xorBytes (xorBytes a b) b = a := by
  apply List.ext_getElem
  · simp; omega
  · intro i h1 h2
    simp only [xorBytes, List.getElem_map, List.getElem_zip]
    show (a[i] ^^^ b[i]) ^^^ b[i] = a[i]
    rw [Nat.xor_assoc, Nat.xor_self, Nat.xor_zero]

theorem flatten_length (n : Nat) : ∀ ls : List (List Nat), (∀ l ∈ ls, l.length = n) → ls.flatten.length = n * ls.length
  | [], _ => by simp
  | l :: ls, h => by
    rw [List.flatten_cons, List.length_append, flatten_length n ls (fun x hx => h x (List.mem_cons_of_mem _ hx)),
      h l (List.mem_cons_self ..), List.length_cons, Nat.mul_succ, Nat.add_comm]

theorem getD_byte (l : List Nat) (h : AllBytes l) (i : Nat) : l.getD i 0 < 256 := by
  rw [List.getD_eq_getElem?_getD]
  cases e : l[i]? with
  | none => decide
  | some y => exact h y (List.mem_of_getElem? e)

theorem shiftRows_bytes (b : List Nat) (h : AllBytes b) : AllBytes (shiftRows b) := by
  intro x hx
  obtain ⟨i, -, rfl⟩ := List.mem_map.mp hx
  exact getD_byte b h _

theorem subByte_lt (b : Nat) : subByte b < 256 := Nat.mod_lt _ (by decide)

theorem timesX_lt (b : Nat) (h : b < 256) : timesX b < 256 := by
  unfold timesX
  split
  · exact xor_byte _ _ (by omega) (by decide)
  · omega

theorem roundConst_lt : ∀ n, roundConst n < 256
  | 0 => by decide
  | n + 1 => timesX_lt _ (roundConst_lt n)

/-- Words of four bytes. -/
abbrev AllWords (ws : List (List Nat)) : Prop := ∀ w ∈ ws, w.length = 4 ∧ AllBytes w

theorem nextKeyWord_word (i : Nat) (ws : List (List Nat)) (n : 8 ≤ ws.length) (h : AllWords ws) :
    (nextKeyWord i ws).length = 4 ∧ AllBytes (nextKeyWord i ws) := by
  have get (k : Nat) (hk : k < 8) : (ws.getD k []).length = 4 ∧ AllBytes (ws.getD k []) := by
    rw [List.getD_eq_getElem?_getD, List.getElem?_eq_getElem (by omega)]
    exact h _ (List.getElem_mem _)
  have map4 (l : List Nat) : AllBytes (l.map subByte) := by
    intro x hx
    obtain ⟨y, -, rfl⟩ := List.mem_map.mp hx
    exact subByte_lt y
  have w0 := get 0 (by decide)
  have w7 := get 7 (by decide)
  unfold nextKeyWord
  generalize ws.getD 0 [] = a at w0 ⊢
  generalize ws.getD 7 [] = b at w7 ⊢
  dsimp only
  split
  · refine ⟨by simp [w0.1, w7.1], xorBytes_bytes _ _ w7.2 (xorBytes_bytes _ _ (map4 _) ?_)⟩
    intro x hx
    simp only [List.mem_cons, List.not_mem_nil, or_false] at hx
    rcases hx with rfl | rfl | rfl | rfl
    · exact roundConst_lt _
    all_goals decide
  · split
    · exact ⟨by simp [w0.1, w7.1], xorBytes_bytes _ _ w7.2 (map4 _)⟩
    · exact ⟨by simp [w0.1, w7.1], xorBytes_bytes _ _ w7.2 w0.2⟩

theorem schedule_words (l : List Nat) : ∀ ws : List (List Nat), 8 ≤ ws.length → AllWords ws →
    (l.foldl (fun ws i => nextKeyWord (i + 8) ws :: ws) ws).length = ws.length + l.length ∧
    AllWords (l.foldl (fun ws i => nextKeyWord (i + 8) ws :: ws) ws) := by
  induction l with
  | nil => intro ws _ h; exact ⟨by simp, h⟩
  | cons i l ih =>
    intro ws n h
    have := ih (nextKeyWord (i + 8) ws :: ws) (by simp; omega) (by
      intro w hw
      rcases List.mem_cons.mp hw with rfl | hw
      · exact nextKeyWord_word _ _ n h
      · exact h w hw)
    exact ⟨by simp only [List.foldl_cons, this.1, List.length_cons]; omega, this.2⟩

/-- The last round key of a 32-byte key is 16 bytes. -/
theorem roundKeys_last (key : List Nat) (n : key.length = 32) (h : AllBytes key) :
    ((roundKeys key).getD 14 []).length = 16 ∧ AllBytes ((roundKeys key).getD 14 []) := by
  have first : AllWords ((List.range 8).map (fun i => (key.drop (4 * i)).take 4)) := by
    intro w hw
    obtain ⟨i, hi, rfl⟩ := List.mem_map.mp hw
    have := List.mem_range.mp hi
    exact ⟨by simp [n]; omega, fun b hb => h b (List.mem_of_mem_drop (List.mem_of_mem_take hb))⟩
  have ws := schedule_words (List.range 52) ((List.range 8).map (fun i => (key.drop (4 * i)).take 4)).reverse
    (by simp) (fun w hw => first w (List.mem_reverse.mp hw))
  generalize hw : (List.range 52).foldl (fun ws i => nextKeyWord (i + 8) ws :: ws)
    ((List.range 8).map (fun i => (key.drop (4 * i)).take 4)).reverse = all at ws
  have len : all.reverse.length = 60 := by simp [ws.1]
  have four : AllWords ((all.reverse.drop 56).take 4) := fun w hm =>
    ws.2 w (List.mem_reverse.mp (List.mem_of_mem_drop (List.mem_of_mem_take hm)))
  have eq : (roundKeys key).getD 14 [] = ((all.reverse.drop 56).take 4).flatten := by
    simp only [roundKeys, hw]
    simp
  rw [eq]
  constructor
  · rw [flatten_length 4 _ (fun w hm => (four w hm).1)]
    simp only [List.length_take, List.length_drop, len]
    rfl
  · intro b hb
    obtain ⟨w, hm, hb⟩ := List.mem_flatten.mp hb
    exact (four w hm).2 b hb

/-- The last round. -/
theorem lastRound_bytes (mid last : List Nat) (h : last.length = 16 ∧ AllBytes last) :
    (xorBytes (shiftRows (mid.map subByte)) last).length = 16 ∧ AllBytes (xorBytes (shiftRows (mid.map subByte)) last) := by
  constructor
  · rw [xorBytes_length, h.1]
    simp [shiftRows]
  · refine xorBytes_bytes (shiftRows (mid.map subByte)) last (shiftRows_bytes _ (fun x hx => ?_)) h.2
    obtain ⟨y, -, rfl⟩ := List.mem_map.mp hx
    exact subByte_lt y

theorem aesBlock_bytes (key block : List Nat) (n : key.length = 32) (h : AllBytes key) :
    (aesBlock (roundKeys key) block).length = 16 ∧ AllBytes (aesBlock (roundKeys key) block) :=
  lastRound_bytes _ _ (roundKeys_last key n h)

/-! ### Items -/

theorem bytesOfNat_bytes (n v : Nat) : AllBytes (bytesOfNat n v) := by
  induction n generalizing v with
  | zero => intro b hb; simp [bytesOfNat] at hb
  | succ n ih =>
    intro b hb
    rcases List.mem_cons.mp (by simpa [bytesOfNat] using hb : b ∈ v % 256 :: bytesOfNat n (v / 256)) with rfl | hb
    · exact Nat.mod_lt _ (by decide)
    · exact ih _ b hb

@[simp] theorem itemBytes_length (l : List (BitVec 256)) : (itemBytes l).length = 32 * l.length := by
  induction l with
  | nil => rfl
  | cons x l ih => simp only [itemBytes, List.map_cons, List.flatten_cons, List.length_append, bytesOfNat_length] at ih ⊢
                   simp only [List.length_cons, ih]; omega

theorem itemBytes_bytes (l : List (BitVec 256)) : AllBytes (itemBytes l) := by
  intro b hb
  obtain ⟨x, hx, hb⟩ := List.mem_flatten.mp hb
  obtain ⟨i, -, rfl⟩ := List.mem_map.mp hx
  exact bytesOfNat_bytes 32 _ b hb

@[simp] theorem itemsOf_length (n : Nat) (b : List Nat) : (itemsOf n b).length = n := by simp [itemsOf]

theorem itemsOf_succ (n : Nat) (b : List Nat) :
    itemsOf (n + 1) b = BitVec.ofNat 256 (natOfBytes (b.take 32)) :: itemsOf n (b.drop 32) := by
  simp only [itemsOf, List.range_succ_eq_map, List.map_cons, List.map_map]
  congr 1
  apply List.map_congr_left
  intro i _
  simp [List.drop_drop, Nat.mul_add, Nat.add_comm]

theorem itemBytes_itemsOf : ∀ (n : Nat) (b : List Nat), b.length = 32 * n → AllBytes b → itemBytes (itemsOf n b) = b
  | 0, b, h, _ => by simp at h; simp [h, itemsOf, itemBytes]
  | n + 1, b, h, hb => by
    have ih := itemBytes_itemsOf n (b.drop 32) (by simp; omega) (fun x hx => hb x (List.mem_of_mem_drop hx))
    have len : (b.take 32).length = 32 := by simp; omega
    have lt : natOfBytes (b.take 32) < 2 ^ 256 := by
      have := natOfBytes_lt (b.take 32)
      rw [len] at this
      exact lt_of_lt_of_eq this (by decide)
    have one : bytesOfNat 32 (natOfBytes (b.take 32)) = b.take 32 := by
      have := bytesOfNat_natOfBytes (b.take 32) (fun x hx => hb x (List.mem_of_mem_take hx))
      rwa [len] at this
    rw [itemsOf_succ]
    simp only [itemBytes, List.map_cons, List.flatten_cons, BitVec.toNat_ofNat, Nat.mod_eq_of_lt lt, one] at ih ⊢
    rw [ih, List.take_append_drop]

theorem itemsOf_itemBytes : ∀ l : List (BitVec 256), itemsOf l.length (itemBytes l) = l
  | [] => rfl
  | x :: l => by
    have ih := itemsOf_itemBytes l
    rw [List.length_cons, itemsOf_succ]
    have t : (itemBytes (x :: l)).take 32 = bytesOfNat 32 x.toNat := by
      simp only [itemBytes, List.map_cons, List.flatten_cons]
      rw [List.take_append_of_le_length (by simp), List.take_of_length_le (by simp)]
    have d : (itemBytes (x :: l)).drop 32 = itemBytes l := by
      simp only [itemBytes, List.map_cons, List.flatten_cons]
      rw [List.drop_append_of_le_length (by simp), List.drop_of_length_le (by simp)]
      rfl
    rw [t, d, ih, natOfBytes_bytesOfNat 32 x.toNat (lt_of_lt_of_eq x.isLt (by decide)), BitVec.ofNat_toNat]
    simp

/-! ### The mode -/

/-- The cipher's stream for so many bytes. -/
theorem gcmStream_eq (key nonce : List Nat) (n : key.length = 32) (h : AllBytes key) (len : Nat) :
    ∃ st : List Nat, len ≤ st.length ∧ AllBytes st ∧ ∀ data : List Nat, data.length = len → gcmStream (roundKeys key) nonce data = xorBytes data st := by
  refine ⟨((List.range ((len + 15) / 16)).map (fun i => aesBlock (roundKeys key) (counterBlock nonce (i + 2)))).flatten, ?_, ?_, ?_⟩
  · rw [flatten_length 16]
    · simp
      omega
    · intro l hl
      obtain ⟨i, -, rfl⟩ := List.mem_map.mp hl
      exact (aesBlock_bytes key _ n h).1
  · intro b hb
    obtain ⟨x, hx, hb⟩ := List.mem_flatten.mp hb
    obtain ⟨i, -, rfl⟩ := List.mem_map.mp hx
    exact (aesBlock_bytes key _ n h).2 b hb
  · rintro data rfl
    rfl

@[simp] theorem gcmSeal_length (key : BitVec 256) (nonce : BitVec 96) (aad : BitVec 384) (data : List (BitVec 256)) :
    (gcmSeal key nonce aad data).1.length = data.length := by simp [gcmSeal]

/-- What was sealed opens, with the same key, nonce and AAD, to the data. -/
theorem gcmOpen_gcmSeal (key : BitVec 256) (nonce : BitVec 96) (aad : BitVec 384) (data : List (BitVec 256)) :
    gcmOpen key nonce aad (gcmSeal key nonce aad data).1 (gcmSeal key nonce aad data).2 = some data := by
  obtain ⟨st, hl, hb, hs⟩ := gcmStream_eq (bytesOfNat 32 key.toNat) (bytesOfNat 12 nonce.toNat) (by simp) (bytesOfNat_bytes _ _)
    (32 * data.length)
  have hc : gcmStream (roundKeys (bytesOfNat 32 key.toNat)) (bytesOfNat 12 nonce.toNat) (itemBytes data) = xorBytes (itemBytes data) st :=
    hs _ (by simp)
  have len : (xorBytes (itemBytes data) st).length = 32 * data.length := by simp; omega
  have back : itemBytes (itemsOf data.length (xorBytes (itemBytes data) st)) = xorBytes (itemBytes data) st :=
    itemBytes_itemsOf _ _ len (xorBytes_bytes _ _ (itemBytes_bytes _) hb)
  simp only [gcmOpen, gcmSeal, hc, back, if_true, itemsOf_length]
  rw [hs _ len, xorBytes_twice _ _ (by simp; omega), itemsOf_itemBytes]

end Sys2Proof.Machine
end

