-- ==== Sys2Proof/Laws/Keeps.lean ====
section
/-!
SUPPORT. What no command disturbs: memory stays canonical, the queue of waiting commands stays as it is, what has been sent to
the host stays sent, and no free value is drawn twice. `Keeps q s` says all four of a state `s` reached from `q`; every operation
that answers a state has a lemma saying that it keeps them.
-/

namespace Sys2Proof.Machine

/-- A state that work on `q` may have led to, by commands that keep memory, queue, messages sent and draws. -/
structure Keeps (q : State) (s : State) : Prop where
  mem : Memory.wf s.mem
  queue : s.pending = q.pending
  sent : q.toHost <+: s.toHost
  drew : q.drawn ≤ s.drawn

theorem keeps_refl {s : State} (h : Memory.wf s.mem) : Keeps s s := ⟨h, rfl, List.prefix_refl _, Nat.le_refl _⟩

/-- The same of an outcome. -/
structure KeepsR (q : State) (r : Result) : Prop where
  out : ∀ t, r = .next t → Keeps q t

/-- A record update of anything else. -/
theorem keeps_mk {q : State} {s : State} {a1 a2 a3 a4 a5 a6 a7 a8 a9 a10 a11 a12 a13 a14 a15 a16 a17 a18 a19} :
    Keeps q (State.mk s.pending a1 a2 s.mem a3 a4 a5 a6 a7 a8 a9 a10 a11 a12 a13 a14 a15 a16 a17 a18 s.toHost a19 s.drawn) ↔
      Keeps q s := ⟨fun h => ⟨h.mem, h.queue, h.sent, h.drew⟩, fun h => ⟨h.mem, h.queue, h.sent, h.drew⟩⟩

/-- A record update of the memory that leaves the stored rows. -/
theorem keeps_mkm {q : State} {s : State} {a1 a2 a3 a4 a5 a6 a7 a8 a9 a10 a11 a12 a13 a14 a15 a16 a17 a18 a19 b1 b2 b3 b4 b5} :
    Keeps q (State.mk s.pending a1 a2 (Mem.mk s.mem.data s.mem.chk s.mem.cls b1 b2 b3 b4 b5) a3 a4 a5 a6 a7 a8 a9 a10 a11 a12 a13 a14
      a15 a16 a17 a18 s.toHost a19 s.drawn) ↔ Keeps q s :=
  ⟨fun h => ⟨h.mem, h.queue, h.sent, h.drew⟩, fun h => ⟨h.mem, h.queue, h.sent, h.drew⟩⟩

/-- An intermediate state, shown once to keep them. -/
theorem keeps_cut {q : State} {P : Prop} (s : State) (h : Keeps q s) (k : Keeps q s → P) : P := k h

theorem keepsR_next {q : State} {t : State} (h : Keeps q t) : KeepsR q (.next t) :=
  ⟨fun u e => by cases e; exact h⟩

theorem keeps_ite {q : State} {c : Prop} [Decidable c] {s t : State} (hs : Keeps q s) (ht : Keeps q t) :
    Keeps q (if c then s else t) := by split <;> assumption

theorem keeps_nextOr {q : State} {r : Result} {s : State} (hr : KeepsR q r) (h : Keeps q s) : Keeps q (nextOr r s) := by
  unfold nextOr
  split
  · next t => exact hr.out t rfl
  · exact h

theorem keeps_foldl {α : Type} {q : State} {s : State} {f : State → α → State} {l : List α} (h : Keeps q s)
    (H : ∀ s x, Keeps q s → Keeps q (f s x)) : Keeps q (l.foldl f s) := by
  induction l generalizing s with
  | nil => exact h
  | cons x l ih => exact ih (H s x h)

theorem keeps_foldl_snd {α β : Type} {q : State} {a : β × State} {f : β × State → α → β × State} {l : List α}
    (h : Keeps q a.2) (H : ∀ a x, Keeps q a.2 → Keeps q (f a x).2) : Keeps q (l.foldl f a).2 := by
  induction l generalizing a with
  | nil => exact h
  | cons x l ih => exact ih (H a x h)

theorem keeps_foldl_trd {α β γ : Type} {q : State} {a : β × γ × State} {f : β × γ × State → α → β × γ × State}
    {l : List α} (h : Keeps q a.2.2) (H : ∀ a x, Keeps q a.2.2 → Keeps q (f a x).2.2) : Keeps q (l.foldl f a).2.2 := by
  induction l generalizing a with
  | nil => exact h
  | cons x l ih => exact ih (H a x h)

theorem keeps_foldl_pass {α : Type} {q : State} {a : Pass} {f : Pass → α → Pass} {l : List α} (h : Keeps q a.s)
    (H : ∀ a x, Keeps q a.s → Keeps q (f a x).s) : Keeps q (l.foldl f a).s := by
  induction l generalizing a with
  | nil => exact h
  | cons x l ih => exact ih (H a x h)

/-! ### States inside pairs and optional answers -/

theorem keeps_pair {α : Type} {q : State} {r : α × State} {a : α} {t : State} (e : r = (a, t)) (h : Keeps q r.2) :
    Keeps q t := by rw [e] at h; exact h

theorem keeps_triple {α β : Type} {q : State} {r : α × β × State} {a : α} {b : β} {t : State} (e : r = (a, b, t))
    (h : Keeps q r.2.2) : Keeps q t := by rw [e] at h; exact h

/-- An optional answer, where there is one. -/
def KeepsO {α : Type} (q : State) (p : α → State) : Option α → Prop
  | none => True
  | some x => Keeps q (p x)

theorem keepsO_none {α : Type} {q : State} {p : α → State} : KeepsO q p none := trivial
theorem keepsO_some {α : Type} {q : State} {p : α → State} {x : α} (h : Keeps q (p x)) : KeepsO q p (some x) := h
theorem keepsO_id {q : State} {o : Option State} {t : State} (e : o = some t) (h : KeepsO q (fun t => t) o) :
    Keeps q t := by rw [e] at h; exact h
theorem keepsO_snd {α : Type} {q : State} {o : Option (α × State)} {t : α × State} (e : o = some t)
    (h : KeepsO q Prod.snd o) : Keeps q t.2 := by rw [e] at h; exact h
theorem keepsO_pair {α : Type} {q : State} {o : Option (α × State)} {a : α} {t : State} (e : o = some (a, t))
    (h : KeepsO q Prod.snd o) : Keeps q t := by rw [e] at h; exact h
theorem keepsO_map {α β : Type} {q : State} {o : Option (α × State)} {f : α × State → β × State}
    (h : KeepsO q Prod.snd o) (H : ∀ x, (f x).2 = x.2) : KeepsO q Prod.snd (o.map f) := by
  cases o with
  | none => trivial
  | some x => exact show Keeps q (f x).2 from (H x).symm ▸ h

/-- The same for a Skein operation that may find no room. -/
def KeepsG {α : Type} (q : State) (p : α → State) : Grow α → Prop
  | .done x => Keeps q (p x)
  | _ => True

theorem keepsG_lack {α : Type} {q : State} {p : α → State} : KeepsG q p .lack := trivial
theorem keepsG_limit {α : Type} {q : State} {p : α → State} : KeepsG q p .limit := trivial
theorem keepsG_done {α : Type} {q : State} {p : α → State} {x : α} (h : Keeps q (p x)) : KeepsG q p (.done x) := h
theorem keepsG_id {q : State} {o : Grow State} {t : State} (e : o = .done t) (h : KeepsG q (fun t => t) o) :
    Keeps q t := by rw [e] at h; exact h
theorem keepsG_snd {α : Type} {q : State} {o : Grow (α × State)} {t : α × State} (e : o = .done t)
    (h : KeepsG q Prod.snd o) : Keeps q t.2 := by rw [e] at h; exact h
theorem keepsG_pair {α : Type} {q : State} {o : Grow (α × State)} {a : α} {t : State} (e : o = .done (a, t))
    (h : KeepsG q Prod.snd o) : Keeps q t := by rw [e] at h; exact h

end Sys2Proof.Machine
end

