-- ==== Sys2Proof/Laws/KeepsOps.lean ====
section
/-!
SUPPORT. The operations of Machine/Ops.lean keep memory canonical and the queue as it is.
-/

namespace Sys2Proof.Machine

theorem State.setReg_keeps {pq : State} (s : State) (off : Nat) (v : Word) (hk : Keeps pq s) :
    Keeps pq (State.setReg s off v) := by
  unfold State.setReg
  repeat' (first
    | with_reducible assumption | (intro _) | (lift_lets) | (dsimp only) | (simp only [keeps_mk])
    | (dsimp +zetaDelta only))

theorem State.setFld_keeps {pq : State} (s : State) (off hi lo x : Nat) (hk : Keeps pq s) :
    Keeps pq (State.setFld s off hi lo x) := by
  unfold State.setFld
  repeat' (first
    | with_reducible assumption | (with_reducible apply State.setReg_keeps) | (dsimp only))

theorem State.bumpReg_keeps {pq : State} (s : State) (off n : Nat) (hk : Keeps pq s) :
    Keeps pq (State.bumpReg s off n) := by
  unfold State.bumpReg
  repeat' (first
    | with_reducible assumption | (with_reducible apply State.setReg_keeps) | (dsimp only))

theorem State.draw_keeps {pq : State} (s : State) (hk : Keeps pq s) :
    Keeps pq (State.draw s).2 := by
  exact ⟨hk.mem, hk.queue, hk.sent, Nat.le_succ_of_le hk.drew⟩


theorem State.setCtx_keeps {pq : State} (s : State) (c : Nat) (x : Ctxs) (hk : Keeps pq s) :
    Keeps pq (State.setCtx s c x) := by
  unfold State.setCtx
  repeat' (first
    | with_reducible assumption | (intro _) | (lift_lets) | (dsimp only) | (simp only [keeps_mk])
    | (dsimp +zetaDelta only))

theorem State.modCtx_keeps {pq : State} (s : State) (c : Nat) (f : Ctxs → Ctxs) (hk : Keeps pq s) :
    Keeps pq (State.modCtx s c f) := by
  unfold State.modCtx
  repeat' (first
    | with_reducible assumption | (with_reducible apply State.setCtx_keeps) | (dsimp only))

theorem State.setCore_keeps {pq : State} (s : State) (c : Nat) (x : CoreSt) (hk : Keeps pq s) :
    Keeps pq (State.setCore s c x) := by
  unfold State.setCore
  repeat' (first
    | with_reducible assumption | (intro _) | (lift_lets) | (dsimp only) | (simp only [keeps_mk])
    | (dsimp +zetaDelta only))

theorem State.modCore_keeps {pq : State} (s : State) (c : Nat) (f : CoreSt → CoreSt) (hk : Keeps pq s) :
    Keeps pq (State.modCore s c f) := by
  unfold State.modCore
  repeat' (first
    | with_reducible assumption | (with_reducible apply State.setCore_keeps) | (dsimp only))

theorem State.setStream_keeps {pq : State} (s : State) (c : Nat) (x : Option Stream) (hk : Keeps pq s) :
    Keeps pq (State.setStream s c x) := by
  unfold State.setStream
  repeat' (first
    | with_reducible assumption | (with_reducible apply State.modCore_keeps) | (intro _ (_ : Keeps _ _))
    | (intro _ _ (_ : Keeps _ _)) | (intro _) | (lift_lets) | (dsimp only) | (simp only [keeps_mk])
    | (dsimp +zetaDelta only))

theorem State.setPhys_keeps {pq : State} (s : State) (p : Nat) (x : Phys) (hk : Keeps pq s) :
    Keeps pq (State.setPhys s p x) := by
  unfold State.setPhys
  repeat' (first
    | with_reducible assumption | (intro _) | (lift_lets) | (dsimp only) | (simp only [keeps_mk])
    | (dsimp +zetaDelta only))

theorem State.setSpindle_keeps {pq : State} (s : State) (n : Nat) (x : Spindle) (hk : Keeps pq s) :
    Keeps pq (State.setSpindle s n x) := by
  unfold State.setSpindle
  repeat' (first
    | with_reducible assumption | (intro _) | (lift_lets) | (dsimp only) | (simp only [keeps_mk])
    | (dsimp +zetaDelta only))

theorem State.setRow_keeps {pq : State} (s : State) (k : Nat) (x : StackRow) (hk : Keeps pq s) :
    Keeps pq (State.setRow s k x) := by
  unfold State.setRow
  repeat' (first
    | with_reducible assumption | (intro _) | (lift_lets) | (dsimp only) | (simp only [keeps_mk])
    | (dsimp +zetaDelta only))

theorem State.whenServing_keeps {pq : State} (s : State) (f : State → State) (hk : Keeps pq s) (hf : ∀ x0, Keeps pq x0 → Keeps pq (f x0)) :
    Keeps pq (State.whenServing s f) := by
  unfold State.whenServing
  repeat' (first
    | with_reducible assumption | (with_reducible apply hf) | (with_reducible apply keeps_ite) | split | (dsimp only))

theorem State.tcAdd_keeps {pq : State} (s : State) (key amount : Nat) (hk : Keeps pq s) :
    Keeps pq (State.tcAdd s key amount) := by
  unfold State.tcAdd
  repeat' (first
    | with_reducible assumption | (intro _) | (lift_lets) | (dsimp only) | (simp only [keeps_mk])
    | (dsimp +zetaDelta only))

theorem State.closeStream_keeps {pq : State} (s : State) (c : Nat) (t : Stream) (hk : Keeps pq s) :
    Keeps pq (State.closeStream s c t) := by
  unfold State.closeStream
  repeat' (first
    | with_reducible assumption | (with_reducible apply State.modCore_keeps) | (intro _ (_ : Keeps _ _))
    | (intro _ _ (_ : Keeps _ _)) | (intro _) | (lift_lets) | (dsimp only) | (simp only [keeps_mk])
    | (dsimp +zetaDelta only))

theorem State.send_keeps {pq : State} (s : State) (m : HostMsg) (hk : Keeps pq s) :
    Keeps pq (State.send s m) := by
  unfold State.send
  exact ⟨hk.mem, hk.queue, hk.sent.trans (List.prefix_append _ _), hk.drew⟩


theorem State.msix_keeps {pq : State} (s : State) (c v : Nat) (hk : Keeps pq s) :
    Keeps pq (State.msix s c v) := by
  unfold State.msix
  repeat' (first
    | with_reducible assumption | (with_reducible apply State.send_keeps) | (with_reducible apply State.setCtx_keeps)
    | (intro w; refine @keeps_cut pq _ w ?_ ?_; unfold w) | (intro _) | (lift_lets) | (with_reducible apply keeps_ite)
    | split | (dsimp only) | (simp only [keeps_mk]) | (dsimp +zetaDelta only))

theorem State.markDirty_keeps {pq : State} (s : State) (c : Nat) (hk : Keeps pq s) :
    Keeps pq (State.markDirty s c) := by
  unfold State.markDirty
  repeat' (first
    | with_reducible assumption | (with_reducible apply State.modCtx_keeps) | (intro _ (_ : Keeps _ _))
    | (intro _ _ (_ : Keeps _ _)) | (intro _) | (lift_lets) | (dsimp only) | (simp only [keeps_mk])
    | (dsimp +zetaDelta only))

theorem State.putEvent_keeps {pq : State} (s : State) (c : Nat) (e : Event) (hk : Keeps pq s) :
    Keeps pq (State.putEvent s c e) := by
  unfold State.putEvent
  repeat' (first
    | with_reducible assumption | (with_reducible apply State.modCtx_keeps) | (with_reducible apply State.msix_keeps)
    | (with_reducible apply State.send_keeps) | (intro _ (_ : Keeps _ _)) | (intro _ _ (_ : Keeps _ _))
    | (intro w; refine @keeps_cut pq _ w ?_ ?_; unfold w) | (intro _) | (lift_lets) | (dsimp only)
    | (simp only [keeps_mk]) | (dsimp +zetaDelta only))

theorem State.eqFull_keeps {pq : State} (s : State) (c : Nat) (hk : Keeps pq s) :
    Keeps pq (State.eqFull s c) := by
  unfold State.eqFull
  repeat' (first
    | with_reducible assumption | (with_reducible apply State.putEvent_keeps) | (intro _) | (lift_lets)
    | (with_reducible apply keeps_ite) | split | (dsimp only) | (simp only [keeps_mk]) | (dsimp +zetaDelta only))

theorem State.writeEvent_keeps {pq : State} (s : State) (c : Nat) (e : Event) (hk : Keeps pq s) :
    Keeps pq (State.writeEvent s c e) := by
  unfold State.writeEvent
  repeat' (first
    | with_reducible assumption | (with_reducible apply State.eqFull_keeps) | (with_reducible apply State.modCtx_keeps)
    | (with_reducible apply State.putEvent_keeps) | (intro _ (_ : Keeps _ _)) | (intro _ _ (_ : Keeps _ _)) | (intro _)
    | (lift_lets) | (with_reducible apply keeps_ite) | split | (dsimp only) | (simp only [keeps_mk])
    | (dsimp +zetaDelta only))

theorem State.signalCompletion_keeps {pq : State} (s : State) (c : Nat) (hk : Keeps pq s) :
    Keeps pq (State.signalCompletion s c) := by
  unfold State.signalCompletion
  repeat' (first
    | with_reducible assumption | (with_reducible apply State.msix_keeps) | (with_reducible apply State.setCtx_keeps)
    | (intro w; refine @keeps_cut pq _ w ?_ ?_; unfold w) | (intro _) | (lift_lets) | (with_reducible apply keeps_ite)
    | split | (dsimp only) | (simp only [keeps_mk]) | (dsimp +zetaDelta only))

theorem State.putCompletion_keeps {pq : State} (s : State) (c : Nat) (r : Completion) (hk : Keeps pq s) :
    Keeps pq (State.putCompletion s c r) := by
  unfold State.putCompletion
  repeat' (first
    | with_reducible assumption | (with_reducible apply State.modCtx_keeps) | (with_reducible apply State.send_keeps)
    | (intro _ (_ : Keeps _ _)) | (intro _ _ (_ : Keeps _ _)) | (intro w; refine @keeps_cut pq _ w ?_ ?_; unfold w)
    | (intro _) | (lift_lets) | (dsimp only) | (simp only [keeps_mk]) | (dsimp +zetaDelta only))

theorem State.writeCompletion_keeps {pq : State} (s : State) (c : Nat) (r : Completion) (hk : Keeps pq s) :
    Keeps pq (State.writeCompletion s c r) := by
  unfold State.writeCompletion
  repeat' (first
    | with_reducible assumption | (with_reducible apply State.putCompletion_keeps)
    | (with_reducible apply State.signalCompletion_keeps) | (with_reducible apply keeps_ite) | split | (dsimp only))

theorem State.postBoth_keeps {pq : State} (s : State) (c : Nat) (r : Completion) (e : Event) (hk : Keeps pq s) :
    Keeps pq (State.postBoth s c r e) := by
  unfold State.postBoth
  repeat' (first
    | with_reducible assumption | (with_reducible apply State.putCompletion_keeps)
    | (with_reducible apply State.signalCompletion_keeps) | (with_reducible apply State.writeEvent_keeps)
    | (with_reducible apply keeps_ite) | split | (dsimp only))

theorem State.writePost_keeps {pq : State} (s : State) (c : Nat) (p : Post) (hk : Keeps pq s) :
    Keeps pq (State.writePost s c p) := by
  unfold State.writePost
  repeat' (first
    | with_reducible assumption | (with_reducible apply State.modCtx_keeps)
    | (with_reducible apply State.postBoth_keeps) | (with_reducible apply State.tcAdd_keeps)
    | (with_reducible apply State.writeCompletion_keeps) | (with_reducible apply State.writeEvent_keeps)
    | (intro _ (_ : Keeps _ _)) | (intro _ _ (_ : Keeps _ _)) | (intro _) | (lift_lets)
    | (with_reducible apply keeps_ite) | split | (dsimp only) | (simp only [keeps_mk]) | (dsimp +zetaDelta only))

theorem State.drainPosts_keeps {pq : State} (s : State) (c : Nat) (y0 : List Waiting) (hk : Keeps pq s) :
    Keeps pq (State.drainPosts s c y0) := by
  induction y0 generalizing s with
  | nil =>
    unfold State.drainPosts
    repeat' (first
      | with_reducible assumption | (with_reducible apply State.modCtx_keeps)
      | (with_reducible apply State.writePost_keeps) | (intro _ (_ : Keeps _ _)) | (intro _ _ (_ : Keeps _ _))
      | (intro _) | (lift_lets) | (with_reducible apply keeps_ite) | split | (dsimp only) | (simp only [keeps_mk])
      | (dsimp +zetaDelta only))
  | cons x l ih =>
    unfold State.drainPosts
    repeat' (first
      | with_reducible assumption | (with_reducible apply State.modCtx_keeps)
      | (with_reducible apply State.writePost_keeps) | (with_reducible apply ih) | (intro _ (_ : Keeps _ _))
      | (intro _ _ (_ : Keeps _ _)) | (intro _) | (lift_lets) | (with_reducible apply keeps_ite) | split | (dsimp only)
      | (simp only [keeps_mk]) | (dsimp +zetaDelta only))


theorem State.writeRsb_keeps {pq : State} (s : State) (c : Nat) (hk : Keeps pq s) :
    Keeps pq (State.writeRsb s c) := by
  unfold State.writeRsb
  repeat' (first
    | with_reducible assumption | (with_reducible apply State.send_keeps) | (with_reducible apply State.setCtx_keeps)
    | (intro w; refine @keeps_cut pq _ w ?_ ?_; unfold w) | (intro _) | (lift_lets) | (with_reducible apply keeps_ite)
    | split | (dsimp only) | (simp only [keeps_mk]) | (dsimp +zetaDelta only))

theorem State.enter_keeps {pq : State} (s : State) (c : Nat) (st : CtxSt) (hk : Keeps pq s) :
    Keeps pq (State.enter s c st) := by
  unfold State.enter
  repeat' (first
    | with_reducible assumption | (with_reducible apply State.modCtx_keeps)
    | (with_reducible apply State.writeRsb_keeps) | (intro _ (_ : Keeps _ _)) | (intro _ _ (_ : Keeps _ _)) | (intro _)
    | (lift_lets) | (dsimp only) | (simp only [keeps_mk]) | (dsimp +zetaDelta only))

theorem State.clearPage_keeps {pq : State} (s : State) (c : Nat) (hk : Keeps pq s) :
    Keeps pq (State.clearPage s c) := by
  unfold State.clearPage
  repeat' (first
    | with_reducible assumption | (intro _ (_ : Keeps _ _)) | (intro _ _ (_ : Keeps _ _)) | (intro _) | (lift_lets)
    | (dsimp only) | (simp only [keeps_mk]) | (dsimp +zetaDelta only))

theorem State.freshPage_keeps {pq : State} (s : State) (c : Nat) (hk : Keeps pq s) :
    Keeps pq (State.freshPage s c) := by
  unfold State.freshPage
  repeat' (first
    | with_reducible assumption | (with_reducible apply State.clearPage_keeps)
    | (with_reducible apply State.modCtx_keeps) | (intro _ (_ : Keeps _ _)) | (intro _ _ (_ : Keeps _ _))
    | (intro w; refine @keeps_cut pq _ w ?_ ?_; unfold w) | (intro _) | (lift_lets) | (with_reducible apply keeps_ite)
    | split | (dsimp only) | (simp only [keeps_mk]) | (dsimp +zetaDelta only))

theorem State.askFlush_keeps {pq : State} (s : State) (c need : Nat) (hk : Keeps pq s) :
    Keeps pq (State.askFlush s c need) := by
  unfold State.askFlush
  repeat' (first
    | with_reducible assumption | (with_reducible apply State.modCtx_keeps) | (with_reducible apply State.send_keeps)
    | (intro _ (_ : Keeps _ _)) | (intro _ _ (_ : Keeps _ _)) | (intro w; refine @keeps_cut pq _ w ?_ ?_; unfold w)
    | (intro _) | (lift_lets) | (with_reducible apply keeps_ite) | split | (dsimp only) | (simp only [keeps_mk])
    | (dsimp +zetaDelta only))

theorem State.mutePost_keeps {pq : State} (s : State) (c : Nat) (p : Post) (hk : Keeps pq s) :
    Keeps pq (State.mutePost s c p) := by
  unfold State.mutePost
  repeat' (first
    | with_reducible assumption | (with_reducible apply State.modCtx_keeps) | (with_reducible apply State.tcAdd_keeps)
    | (intro _ (_ : Keeps _ _)) | (intro _ _ (_ : Keeps _ _)) | (intro _) | (lift_lets) | split | (dsimp only)
    | (simp only [keeps_mk]) | (dsimp +zetaDelta only))

theorem State.give_keeps {pq : State} (s : State) (c : Nat) (p : Post) (hk : Keeps pq s) :
    Keeps pq (State.give s c p) := by
  unfold State.give
  repeat' (first
    | with_reducible assumption | (with_reducible apply State.askFlush_keeps)
    | (with_reducible apply State.mutePost_keeps) | (with_reducible apply State.setCtx_keeps)
    | (with_reducible apply State.writePost_keeps) | (intro w; refine @keeps_cut pq _ w ?_ ?_; unfold w) | (intro _)
    | (lift_lets) | (with_reducible apply keeps_ite) | split | (dsimp only) | (simp only [keeps_mk])
    | (dsimp +zetaDelta only))

theorem State.closed_keeps {pq : State} (s : State) (c : Nat) (hk : Keeps pq s) :
    Keeps pq (State.closed s c) := by
  unfold State.closed
  repeat' (first
    | with_reducible assumption | (with_reducible apply State.enter_keeps)
    | (with_reducible apply State.freshPage_keeps) | (with_reducible apply State.give_keeps)
    | (with_reducible apply State.modCtx_keeps) | (intro _ (_ : Keeps _ _)) | (intro _ _ (_ : Keeps _ _))
    | (intro w; refine @keeps_cut pq _ w ?_ ?_; unfold w) | (intro _) | (lift_lets) | (with_reducible apply keeps_ite)
    | split | (dsimp only) | (simp only [keeps_mk]) | (dsimp +zetaDelta only))

theorem State.settle_keeps {pq : State} (s : State) (c : Nat) (hk : Keeps pq s) :
    Keeps pq (State.settle s c) := by
  unfold State.settle
  repeat' (first
    | with_reducible assumption | (with_reducible apply State.closed_keeps) | (with_reducible apply State.enter_keeps)
    | (with_reducible apply State.modCtx_keeps) | (with_reducible apply State.writePost_keeps)
    | (intro _ (_ : Keeps _ _)) | (intro _ _ (_ : Keeps _ _)) | (intro w; refine @keeps_cut pq _ w ?_ ?_; unfold w)
    | (intro _) | (lift_lets) | (with_reducible apply keeps_ite) | split | (dsimp only) | (simp only [keeps_mk])
    | (dsimp +zetaDelta only))

theorem State.post_keeps {pq : State} (s : State) (c : Nat) (p : Post) (hk : Keeps pq s) :
    Keeps pq (State.post s c p) := by
  unfold State.post
  repeat' (first
    | with_reducible assumption | (with_reducible apply State.give_keeps) | (with_reducible apply State.settle_keeps)
    | (intro w; refine @keeps_cut pq _ w ?_ ?_; unfold w) | (intro _) | (lift_lets) | (with_reducible apply keeps_ite)
    | split | (dsimp only) | (dsimp +zetaDelta only))

theorem State.final_keeps {pq : State} (s : State) (c : Nat) (r : Completion) (hk : Keeps pq s) :
    Keeps pq (State.final s c r) := by
  unfold State.final
  repeat' (first
    | with_reducible assumption | (with_reducible apply State.post_keeps) | (dsimp only))

theorem State.event_keeps {pq : State} (s : State) (c : Nat) (e : Event) (hk : Keeps pq s) :
    Keeps pq (State.event s c e) := by
  unfold State.event
  repeat' (first
    | with_reducible assumption | (with_reducible apply State.post_keeps) | (intro _) | (lift_lets) | (dsimp only)
    | (simp only [keeps_mk]) | (dsimp +zetaDelta only))

theorem State.countError_keeps {pq : State} (s : State) (c : Nat) (hk : Keeps pq s) :
    Keeps pq (State.countError s c) := by
  unfold State.countError
  repeat' (first
    | with_reducible assumption | (with_reducible apply State.modCtx_keeps) | (intro _ (_ : Keeps _ _))
    | (intro _ _ (_ : Keeps _ _)) | (intro _) | (lift_lets) | (dsimp only) | (simp only [keeps_mk])
    | (dsimp +zetaDelta only))

theorem State.hostError_keeps {pq : State} (s : State) (c : Nat) (bus : BitVec 64) (tag : Word := 0) (hk : Keeps pq s) :
    Keeps pq (State.hostError s c bus tag) := by
  unfold State.hostError
  repeat' (first
    | with_reducible assumption | (with_reducible apply State.countError_keeps)
    | (with_reducible apply State.event_keeps) | (dsimp only))

theorem State.readFailed_keeps {pq : State} (s : State) (c who : Nat) (tag : Word) (bus : Nat) (hk : Keeps pq s) :
    Keeps pq (State.readFailed s c who tag bus) := by
  unfold State.readFailed
  repeat' (first
    | with_reducible assumption | (with_reducible apply State.hostError_keeps)
    | (with_reducible apply State.modCtx_keeps) | (intro _ (_ : Keeps _ _)) | (intro _ _ (_ : Keeps _ _)) | (intro _)
    | (lift_lets) | (with_reducible apply keeps_ite) | split | (dsimp only) | (simp only [keeps_mk])
    | (dsimp +zetaDelta only))

theorem State.hostRead_keeps {pq : State} (s : State) (c addr len : Nat) (window : Bool) (hk : Keeps pq s) :
    Keeps pq (State.hostRead s c addr len window) := by
  unfold State.hostRead
  repeat' (first
    | with_reducible assumption | (with_reducible apply State.send_keeps)
    | (intro w; refine @keeps_cut pq _ w ?_ ?_; unfold w) | (intro _) | (lift_lets) | (with_reducible apply keeps_ite)
    | split | (dsimp only) | (dsimp +zetaDelta only))

theorem State.hostWrite_keeps {pq : State} (s : State) (c addr : Nat) (data : List Byte) (poison : Bool) (hk : Keeps pq s) :
    Keeps pq (State.hostWrite s c addr data poison) := by
  unfold State.hostWrite
  repeat' (first
    | with_reducible assumption | (with_reducible apply State.send_keeps) | (with_reducible apply State.setCtx_keeps)
    | (intro w; refine @keeps_cut pq _ w ?_ ?_; unfold w) | (intro _) | (lift_lets) | (with_reducible apply keeps_ite)
    | split | (dsimp only) | (simp only [keeps_mk]) | (dsimp +zetaDelta only))

theorem State.readAhead_keeps {pq : State} (s : State) (c : Nat) (hk : Keeps pq s) :
    Keeps pq (State.readAhead s c) := by
  unfold State.readAhead
  repeat' (first
    | with_reducible assumption | (with_reducible apply keeps_foldl) | (with_reducible apply State.hostRead_keeps)
    | (with_reducible apply State.setCtx_keeps) | (intro _ (_ : Keeps _ _)) | (intro _ _ (_ : Keeps _ _))
    | (intro w; refine @keeps_cut pq _ w ?_ ?_; unfold w) | (intro _) | (lift_lets) | (dsimp only)
    | (simp only [keeps_mk]) | (dsimp +zetaDelta only))

theorem State.touch_keeps {pq : State} (s : State) (hk : Keeps pq s) :
    Keeps pq (State.touch s) := by
  unfold State.touch
  repeat' (first
    | with_reducible assumption | (intro _) | (lift_lets) | (with_reducible apply keeps_ite) | split | (dsimp only)
    | (simp only [keeps_mk]) | (dsimp +zetaDelta only))

theorem State.recordWake_keeps {pq : State} (s : State) (src : Nat) (hk : Keeps pq s) :
    Keeps pq (State.recordWake s src) := by
  unfold State.recordWake
  repeat' (first
    | with_reducible assumption | (with_reducible apply State.setReg_keeps) | (dsimp only))

theorem State.wakeFrom_keeps {pq : State} (s : State) (src : Nat) (hk : Keeps pq s) :
    Keeps pq (State.wakeFrom s src) := by
  unfold State.wakeFrom
  repeat' (first
    | with_reducible assumption | (with_reducible apply State.recordWake_keeps)
    | (intro w; refine @keeps_cut pq _ w ?_ ?_; unfold w) | (intro _) | (lift_lets) | (with_reducible apply keeps_ite)
    | split | (dsimp only) | (simp only [keeps_mk]) | (dsimp +zetaDelta only))

theorem State.doorbellWake_keeps {pq : State} (s : State) (cmd : Instr) (hk : Keeps pq s) :
    Keeps pq (State.doorbellWake s cmd) := by
  unfold State.doorbellWake
  repeat' (first
    | with_reducible assumption | (with_reducible apply State.wakeFrom_keeps)
    | (intro w; refine @keeps_cut pq _ w ?_ ?_; unfold w) | (intro _) | (lift_lets) | (with_reducible apply keeps_ite)
    | split | (dsimp only) | (dsimp +zetaDelta only))

theorem State.rung_keeps {pq : State} (s : State) (c : Nat) (idleToo : Bool) (f : State → State) (hk : Keeps pq s) (hf : ∀ x0, Keeps pq x0 → Keeps pq (f x0)) :
    Keeps pq (State.rung s c idleToo f) := by
  unfold State.rung
  repeat' (first
    | with_reducible assumption | (with_reducible apply hf) | (intro w; refine @keeps_cut pq _ w ?_ ?_; unfold w)
    | (intro _) | (lift_lets) | (with_reducible apply keeps_ite) | split | (dsimp only) | (dsimp +zetaDelta only))

theorem State.doorbell_keeps {pq : State} (s : State) (c : Nat) (cmd : Instr) (idleToo : Bool) (f : State → State) (hk : Keeps pq s) (hf : ∀ x0, Keeps pq x0 → Keeps pq (f x0)) :
    Keeps pq (State.doorbell s c cmd idleToo f) := by
  unfold State.doorbell
  repeat' (first
    | with_reducible assumption | (with_reducible apply hf) | (with_reducible apply State.doorbellWake_keeps)
    | (with_reducible apply State.modCtx_keeps) | (with_reducible apply State.rung_keeps)
    | (with_reducible apply State.touch_keeps) | (intro _ (_ : Keeps _ _)) | (intro _ _ (_ : Keeps _ _))
    | (intro w; refine @keeps_cut pq _ w ?_ ?_; unfold w) | (intro _) | (lift_lets) | (with_reducible apply keeps_ite)
    | split | (dsimp only) | (simp only [keeps_mk]) | (dsimp +zetaDelta only))

theorem State.refuseDoorbell_keeps {pq : State} (s : State) (c off : Nat) (v : Word) (hk : Keeps pq s) :
    Keeps pq (State.refuseDoorbell s c off v) := by
  unfold State.refuseDoorbell
  repeat' (first
    | with_reducible assumption | (with_reducible apply State.event_keeps) | (with_reducible apply State.modCtx_keeps)
    | (intro _ (_ : Keeps _ _)) | (intro _ _ (_ : Keeps _ _)) | (intro _) | (lift_lets) | (dsimp only)
    | (simp only [keeps_mk]) | (dsimp +zetaDelta only))

theorem State.log_keeps {pq : State} (s : State) (e : LogEntry) (hk : Keeps pq s) :
    Keeps pq (State.log s e) := by
  unfold State.log
  repeat' (first
    | with_reducible assumption | (with_reducible apply State.event_keeps)
    | (intro w; refine @keeps_cut pq _ w ?_ ?_; unfold w) | (intro _) | (lift_lets) | (with_reducible apply keeps_ite)
    | split | (dsimp only) | (simp only [keeps_mk]) | (dsimp +zetaDelta only))

theorem State.logInvalid_keeps {pq : State} (s : State) (func off v : Nat) (hk : Keeps pq s) :
    Keeps pq (State.logInvalid s func off v) := by
  unfold State.logInvalid
  repeat' (first
    | with_reducible assumption | (with_reducible apply State.log_keeps) | (intro _ (_ : Keeps _ _))
    | (intro _ _ (_ : Keeps _ _)) | (intro _) | (lift_lets) | (dsimp only) | (simp only [keeps_mk])
    | (dsimp +zetaDelta only))

theorem State.atBoundary_keeps {pq : State} (s : State) (b : Boundary) (hk : Keeps pq s) :
    Keeps pq (State.atBoundary s b) := by
  unfold State.atBoundary
  repeat' (first
    | with_reducible assumption | (intro _) | (lift_lets) | (with_reducible apply keeps_ite) | split | (dsimp only)
    | (simp only [keeps_mk]) | (dsimp +zetaDelta only))

theorem State.dropBoundary_keeps {pq : State} (s : State) (b : Boundary) (hk : Keeps pq s) :
    Keeps pq (State.dropBoundary s b) := by
  unfold State.dropBoundary
  repeat' (first
    | with_reducible assumption | (intro _ (_ : Keeps _ _)) | (intro _ _ (_ : Keeps _ _)) | (intro _) | (lift_lets)
    | (dsimp only) | (simp only [keeps_mk]) | (dsimp +zetaDelta only))

end Sys2Proof.Machine
end

