-- ==== Sys2Proof/Laws/KeepsMemory.lean ====
section
/-!
SUPPORT. The operations of Machine/Memory.lean keep memory canonical and the queue as it is.
-/

namespace Sys2Proof.Machine

theorem State.setRowClass_keeps {pq : State} (s : State) (rk : Nat) (c : RowClass) (hk : Keeps pq s) :
    Keeps pq (State.setRowClass s rk c) := by
  unfold State.setRowClass
  exact ⟨⟨hk.mem.1, hk.mem.2.1, sset_wf _ hk.mem.2.2 _ _⟩, hk.queue, hk.sent, hk.drew⟩


theorem State.setRawData_keeps {pq : State} (s : State) (rk i : Nat) (d : List Nat) (hk : Keeps pq s) :
    Keeps pq (State.setRawData s rk i d) := by
  unfold State.setRawData
  exact ⟨⟨ssetMany_wf _ _ _ hk.mem.1, hk.mem.2.1, hk.mem.2.2⟩, hk.queue, hk.sent, hk.drew⟩


theorem State.setRawChk_keeps {pq : State} (s : State) (rk i : Nat) (d : List Nat) (hk : Keeps pq s) :
    Keeps pq (State.setRawChk s rk i d) := by
  unfold State.setRawChk
  exact ⟨⟨hk.mem.1, ssetMany_wf _ _ _ hk.mem.2.1, hk.mem.2.2⟩, hk.queue, hk.sent, hk.drew⟩


theorem State.storeLine_keeps {pq : State} (s : State) (rk i : Nat) (d : List Nat) (poison : Bool) (hk : Keeps pq s) :
    Keeps pq (State.storeLine s rk i d poison) := by
  unfold State.storeLine
  repeat' (first
    | with_reducible assumption | (with_reducible apply State.setRawChk_keeps)
    | (with_reducible apply State.setRawData_keeps) | (intro w; refine @keeps_cut pq _ w ?_ ?_; unfold w) | (intro _)
    | (lift_lets) | (with_reducible apply keeps_ite) | split | (dsimp only) | (dsimp +zetaDelta only))

theorem State.logAt_keeps {pq : State} (s : State) (e : LogEntry) (addr : Nat) (l : Loc) (hk : Keeps pq s) :
    Keeps pq (State.logAt s e addr l) := by
  unfold State.logAt
  repeat' (first
    | with_reducible assumption | (with_reducible apply State.log_keeps) | (intro _) | (lift_lets) | (dsimp only)
    | (simp only [keeps_mk]) | (dsimp +zetaDelta only))

theorem State.countCe_keeps {pq : State} (s : State) (n : Nat) (hk : Keeps pq s) :
    Keeps pq (State.countCe s n) := by
  unfold State.countCe
  repeat' (first
    | with_reducible assumption | (with_reducible apply State.bumpReg_keeps) | (with_reducible apply State.log_keeps)
    | (with_reducible apply State.setFld_keeps) | (intro w; refine @keeps_cut pq _ w ?_ ?_; unfold w) | (intro _)
    | (lift_lets) | (with_reducible apply keeps_ite) | split | (dsimp only) | (simp only [keeps_mk])
    | (dsimp +zetaDelta only))

theorem State.setModel_keeps {pq : State} (s : State) (m : Nat) (x : Option Model) (hk : Keeps pq s) :
    Keeps pq (State.setModel s m x) := by
  unfold State.setModel
  repeat' (first
    | with_reducible assumption | (intro _) | (lift_lets) | (dsimp only) | (simp only [keeps_mk])
    | (dsimp +zetaDelta only))

theorem State.quarantineLine_keeps {pq : State} (s : State) (a : Nat) (hk : Keeps pq s) :
    Keeps pq (State.quarantineLine s a) := by
  unfold State.quarantineLine
  repeat' (first
    | with_reducible assumption | (with_reducible apply keeps_foldl) | (with_reducible apply keeps_foldl_snd)
    | (with_reducible apply State.atBoundary_keeps) | (intro _ (_ : Keeps _ _)) | (intro _ _ (_ : Keeps _ _))
    | (intro _) | (lift_lets) | (with_reducible apply keeps_ite) | split | (dsimp only))

theorem State.noteMirror_keeps {pq : State} (s : State) (a : Nat) (hk : Keeps pq s) :
    Keeps pq (State.noteMirror s a) := by
  unfold State.noteMirror
  repeat' (first
    | with_reducible assumption | (with_reducible apply keeps_foldl) | (with_reducible apply keeps_foldl_snd)
    | (intro _ (_ : Keeps _ _)) | (intro _ _ (_ : Keeps _ _)) | (intro _) | (lift_lets) | split | (dsimp only)
    | (simp only [keeps_mk]) | (dsimp +zetaDelta only))

theorem State.foundUe_keeps {pq : State} (s : State) (a : Nat) (l : Loc) (path : Path) (ctx : Option Nat) (hk : Keeps pq s) :
    Keeps pq (State.foundUe s a l path ctx) := by
  unfold State.foundUe
  repeat' (first
    | with_reducible assumption | (with_reducible apply State.atBoundary_keeps)
    | (with_reducible apply State.logAt_keeps) | (with_reducible apply State.noteMirror_keeps)
    | (with_reducible apply State.quarantineLine_keeps) | (intro _ (_ : Keeps _ _)) | (intro _ _ (_ : Keeps _ _))
    | (intro w; refine @keeps_cut pq _ w ?_ ?_; unfold w) | (intro _) | (lift_lets) | (with_reducible apply keeps_ite)
    | split | (dsimp only) | (simp only [keeps_mk]) | (dsimp +zetaDelta only))

theorem State.readLoc_keeps {pq : State} (s : State) (a : Nat) (l : Loc) (path : Path) (ctx : Option Nat) (hk : Keeps pq s) :
    Keeps pq (State.readLoc s a l path ctx).2 := by
  unfold State.readLoc
  repeat' (first
    | with_reducible assumption | (with_reducible apply State.countCe_keeps)
    | (with_reducible apply State.foundUe_keeps) | (with_reducible apply State.logAt_keeps)
    | (intro w; refine @keeps_cut pq _ w ?_ ?_; unfold w) | (intro _) | (lift_lets) | split | (dsimp only)
    | (simp only [keeps_mk]) | (dsimp +zetaDelta only))

theorem State.writeLoc_keeps {pq : State} (s : State) (a : Nat) (l : Loc) (data : Line) (mask : LineMask) (poison : Bool) (path : Path := .busko) (ctx : Option Nat := none) (hk : Keeps pq s) :
    Keeps pq (State.writeLoc s a l data mask poison path ctx) := by
  unfold State.writeLoc
  repeat' (first
    | with_reducible assumption | (with_reducible apply State.countCe_keeps)
    | (with_reducible apply State.foundUe_keeps) | (with_reducible apply State.storeLine_keeps)
    | (intro w; refine @keeps_cut pq _ w ?_ ?_; unfold w) | (intro _) | (lift_lets) | (with_reducible apply keeps_ite)
    | split | (dsimp only) | (dsimp +zetaDelta only))

theorem State.setStage_keeps {pq : State} (s : State) (k : Nat) (l : List StagedLine) (hk : Keeps pq s) :
    Keeps pq (State.setStage s k l) := by
  unfold State.setStage
  exact ⟨⟨hk.mem.1, hk.mem.2.1, hk.mem.2.2⟩, hk.queue, hk.sent, hk.drew⟩


theorem State.unstage_keeps {pq : State} (s : State) (a : Nat) (hk : Keeps pq s) :
    Keeps pq (State.unstage s a) := by
  unfold State.unstage
  repeat' (first
    | with_reducible assumption | (with_reducible apply State.setStage_keeps) | (intro _ (_ : Keeps _ _))
    | (intro _ _ (_ : Keeps _ _)) | (intro w; refine @keeps_cut pq _ w ?_ ?_; unfold w) | (intro _) | (lift_lets)
    | (dsimp only) | (dsimp +zetaDelta only))

theorem State.unstageRow_keeps {pq : State} (s : State) (l : Loc) (hk : Keeps pq s) :
    Keeps pq (State.unstageRow s l) := by
  unfold State.unstageRow
  repeat' (first
    | with_reducible assumption | (with_reducible apply keeps_foldl) | (with_reducible apply State.unstage_keeps)
    | (intro _ (_ : Keeps _ _)) | (intro _ _ (_ : Keeps _ _)) | (intro _) | (lift_lets) | (dsimp only)
    | (simp only [keeps_mk]) | (dsimp +zetaDelta only))

theorem State.setSsbLine_keeps {pq : State} (s : State) (b off : Nat) (d chk : List Nat) (hk : Keeps pq s) :
    Keeps pq (State.setSsbLine s b off d chk) := by
  unfold State.setSsbLine
  repeat' (first
    | with_reducible assumption | (intro _) | (lift_lets) | (dsimp only) | (simp only [keeps_mk])
    | (dsimp +zetaDelta only))

theorem State.ssbFailed_keeps {pq : State} (s : State) (b off : Nat) (hk : Keeps pq s) :
    Keeps pq (State.ssbFailed s b off).2 := by
  unfold State.ssbFailed
  repeat' (first
    | with_reducible assumption | (with_reducible apply State.log_keeps) | (intro _ (_ : Keeps _ _))
    | (intro _ _ (_ : Keeps _ _)) | (intro w; refine @keeps_cut pq _ w ?_ ?_; unfold w) | (intro _) | (lift_lets)
    | (with_reducible apply keeps_ite) | split | (dsimp only) | (simp only [keeps_mk]) | (dsimp +zetaDelta only))

theorem State.readSsbUnit_keeps {pq : State} (s : State) (b off : Nat) (hk : Keeps pq s) :
    Keeps pq (State.readSsbUnit s b off).2.2.2 := by
  unfold State.readSsbUnit
  repeat' (first
    | with_reducible assumption | (with_reducible apply State.countCe_keeps)
    | (with_reducible apply State.ssbFailed_keeps) | (intro w; refine @keeps_cut pq _ w ?_ ?_; unfold w) | (intro _)
    | (lift_lets) | split | (dsimp only) | (dsimp +zetaDelta only) | (refine keeps_pair (by assumption) ?_)
    | (refine keeps_triple (by assumption) ?_))

theorem State.readStagedLine_keeps {pq : State} (s : State) (k : Nat) (x : StagedLine) (hk : Keeps pq s) :
    Keeps pq (State.readStagedLine s k x).2 := by
  unfold State.readStagedLine
  repeat' (first
    | with_reducible assumption | (with_reducible apply State.readSsbUnit_keeps)
    | (with_reducible apply State.setStage_keeps) | (intro _ (_ : Keeps _ _)) | (intro _ _ (_ : Keeps _ _))
    | (intro w; refine @keeps_cut pq _ w ?_ ?_; unfold w) | (intro _) | (lift_lets) | (with_reducible apply keeps_ite)
    | split | (dsimp only) | (simp only [keeps_mk]) | (dsimp +zetaDelta only) | (refine keeps_pair (by assumption) ?_)
    | (refine keeps_triple (by assumption) ?_))

theorem State.placeStaged_keeps {pq : State} (s : State) (k a : Nat) (g : Got) (hk : Keeps pq s) :
    Keeps pq (State.placeStaged s k a g) := by
  unfold State.placeStaged
  repeat' (first
    | with_reducible assumption | (with_reducible apply State.setSsbLine_keeps)
    | (with_reducible apply State.setStage_keeps) | (intro _ (_ : Keeps _ _)) | (intro _ _ (_ : Keeps _ _))
    | (intro w; refine @keeps_cut pq _ w ?_ ?_; unfold w) | (intro _) | (lift_lets) | split | (dsimp only)
    | (dsimp +zetaDelta only))

theorem State.readCopies_keeps {pq : State} (s : State) (path : Path) (y0 : List Nat) (y1 : List Nat) (y2 : Got) (hk : Keeps pq s) :
    Keeps pq (State.readCopies s path y0 y1 y2).2 := by
  induction y0 generalizing s y1 y2 with
  | nil =>
    unfold State.readCopies
    repeat' (first
      | with_reducible assumption | (with_reducible apply keeps_foldl) | (with_reducible apply keeps_foldl_snd)
      | (with_reducible apply State.readLoc_keeps) | (with_reducible apply State.writeLoc_keeps)
      | (intro _ (_ : Keeps _ _)) | (intro _ _ (_ : Keeps _ _)) | (intro w; refine @keeps_cut pq _ w ?_ ?_; unfold w)
      | (intro _) | (lift_lets) | (with_reducible apply keeps_ite) | split | (dsimp only) | (simp only [keeps_mk])
      | (dsimp +zetaDelta only) | (refine keeps_pair (by assumption) ?_) | (refine keeps_triple (by assumption) ?_))
  | cons a l ih =>
    unfold State.readCopies
    repeat' (first
      | with_reducible assumption | (with_reducible apply keeps_foldl) | (with_reducible apply keeps_foldl_snd)
      | (with_reducible apply State.readLoc_keeps) | (with_reducible apply State.writeLoc_keeps)
      | (with_reducible apply ih) | (intro _ (_ : Keeps _ _)) | (intro _ _ (_ : Keeps _ _))
      | (intro w; refine @keeps_cut pq _ w ?_ ?_; unfold w) | (intro _) | (lift_lets) | (with_reducible apply keeps_ite)
      | split | (dsimp only) | (simp only [keeps_mk]) | (dsimp +zetaDelta only) | (refine keeps_pair (by assumption) ?_)
      | (refine keeps_triple (by assumption) ?_))


theorem State.readMem_keeps {pq : State} (s : State) (a : Nat) (path : Path) (ctx : Option Nat) (hk : Keeps pq s) :
    Keeps pq (State.readMem s a path ctx).2 := by
  unfold State.readMem
  repeat' (first
    | with_reducible assumption | (with_reducible apply State.atBoundary_keeps)
    | (with_reducible apply State.readCopies_keeps) | (with_reducible apply State.readLoc_keeps)
    | (intro w; refine @keeps_cut pq _ w ?_ ?_; unfold w) | (intro _) | (lift_lets) | (with_reducible apply keeps_ite)
    | split | (dsimp only) | (simp only [keeps_mk]) | (dsimp +zetaDelta only) | (refine keeps_pair (by assumption) ?_)
    | (refine keeps_triple (by assumption) ?_))

theorem State.readMemAt_keeps {pq : State} (s : State) (a : Nat) (l : Loc) (path : Path) (ctx : Option Nat) (hk : Keeps pq s) :
    Keeps pq (State.readMemAt s a l path ctx).2 := by
  unfold State.readMemAt
  repeat' (first
    | with_reducible assumption | (with_reducible apply State.readLoc_keeps)
    | (with_reducible apply State.readMem_keeps) | (with_reducible apply keeps_ite) | split | (dsimp only)
    | (refine keeps_pair (by assumption) ?_) | (refine keeps_triple (by assumption) ?_))

theorem State.writeCopies_keeps {pq : State} (s : State) (a : Nat) (data : Line) (mask : LineMask) (poison : Bool) (path : Path) (hk : Keeps pq s) :
    Keeps pq (State.writeCopies s a data mask poison path) := by
  unfold State.writeCopies
  repeat' (first
    | with_reducible assumption | (with_reducible apply keeps_foldl) | (with_reducible apply State.writeLoc_keeps)
    | (intro _ (_ : Keeps _ _)) | (intro _ _ (_ : Keeps _ _)) | (intro _) | (lift_lets)
    | (with_reducible apply keeps_ite) | split | (dsimp only))

theorem State.syncTable_keeps {pq : State} (s : State) (a : Nat) (hk : Keeps pq s) :
    Keeps pq (State.syncTable s a) := by
  unfold State.syncTable
  repeat' (first
    | with_reducible assumption | (with_reducible apply keeps_foldl) | (intro _ (_ : Keeps _ _))
    | (intro _ _ (_ : Keeps _ _)) | (intro w; refine @keeps_cut pq _ w ?_ ?_; unfold w) | (intro _) | (lift_lets)
    | (with_reducible apply keeps_ite) | split | (dsimp only) | (simp only [keeps_mk]) | (dsimp +zetaDelta only))

theorem State.writeMem_keeps {pq : State} (s : State) (a : Nat) (data : Line) (mask : LineMask) (poison : Bool) (path : Path := .busko) (ctx : Option Nat := none) (hk : Keeps pq s) :
    Keeps pq (State.writeMem s a data mask poison path ctx) := by
  unfold State.writeMem
  repeat' (first
    | with_reducible assumption | (with_reducible apply State.syncTable_keeps)
    | (with_reducible apply State.unstage_keeps) | (with_reducible apply State.writeCopies_keeps)
    | (with_reducible apply State.writeLoc_keeps) | (intro w; refine @keeps_cut pq _ w ?_ ?_; unfold w) | (intro _)
    | (lift_lets) | (with_reducible apply keeps_ite) | split | (dsimp only) | (dsimp +zetaDelta only))

theorem State.writeMemAt_keeps {pq : State} (s : State) (a : Nat) (l : Loc) (data : Line) (mask : LineMask) (poison : Bool) (path : Path) (ctx : Option Nat) (hk : Keeps pq s) :
    Keeps pq (State.writeMemAt s a l data mask poison path ctx) := by
  unfold State.writeMemAt
  repeat' (first
    | with_reducible assumption | (with_reducible apply State.unstage_keeps)
    | (with_reducible apply State.writeLoc_keeps) | (with_reducible apply State.writeMem_keeps)
    | (with_reducible apply keeps_ite) | split | (dsimp only))

theorem State.readStaged_keeps {pq : State} (s : State) (a : Nat) (l : Loc) (ctx : Option Nat) (hk : Keeps pq s) :
    Keeps pq (State.readStaged s a l ctx).2 := by
  unfold State.readStaged
  repeat' (first
    | with_reducible assumption | (with_reducible apply State.placeStaged_keeps)
    | (with_reducible apply State.readMem_keeps) | (with_reducible apply State.readMemAt_keeps)
    | (with_reducible apply State.readStagedLine_keeps) | (intro _ (_ : Keeps _ _)) | (intro _ _ (_ : Keeps _ _))
    | (intro w; refine @keeps_cut pq _ w ?_ ?_; unfold w) | (intro _) | (lift_lets) | (with_reducible apply keeps_ite)
    | split | (dsimp only) | (dsimp +zetaDelta only) | (refine keeps_pair (by assumption) ?_)
    | (refine keeps_triple (by assumption) ?_))

theorem State.readBytes_keeps {pq : State} (s : State) (a n : Nat) (hk : Keeps pq s) :
    Keeps pq (State.readBytes s a n).2.2 := by
  unfold State.readBytes
  repeat' (first
    | with_reducible assumption | (with_reducible apply keeps_foldl) | (with_reducible apply keeps_foldl_snd)
    | (with_reducible apply keeps_foldl_trd) | (with_reducible apply State.readMem_keeps) | (intro _ (_ : Keeps _ _))
    | (intro _ _ (_ : Keeps _ _)) | (intro w; refine @keeps_cut pq _ w ?_ ?_; unfold w) | (intro _) | (lift_lets)
    | (with_reducible apply keeps_ite) | split | (dsimp only) | (dsimp +zetaDelta only)
    | (refine keeps_pair (by assumption) ?_) | (refine keeps_triple (by assumption) ?_))

theorem State.writeBytes_keeps {pq : State} (s : State) (a : Nat) (b : List Nat) (poison : Bool) (hk : Keeps pq s) :
    Keeps pq (State.writeBytes s a b poison) := by
  unfold State.writeBytes
  repeat' (first
    | with_reducible assumption | (with_reducible apply keeps_foldl) | (with_reducible apply keeps_foldl_snd)
    | (with_reducible apply State.writeMem_keeps) | (intro _ (_ : Keeps _ _)) | (intro _ _ (_ : Keeps _ _))
    | (intro w; refine @keeps_cut pq _ w ?_ ?_; unfold w) | (intro _) | (lift_lets) | (with_reducible apply keeps_ite)
    | split | (dsimp only) | (dsimp +zetaDelta only))

theorem State.setSpadUnit_keeps {pq : State} (s : State) (p unit : Nat) (d chk : List Nat) (hk : Keeps pq s) :
    Keeps pq (State.setSpadUnit s p unit d chk) := by
  unfold State.setSpadUnit
  repeat' (first
    | with_reducible assumption | (intro _) | (lift_lets) | (dsimp only) | (simp only [keeps_mk])
    | (dsimp +zetaDelta only))

theorem State.sramFailed_keeps {pq : State} (s : State) (p unit : Nat) (core : Nat) (hk : Keeps pq s) :
    Keeps pq (State.sramFailed s p unit core) := by
  unfold State.sramFailed
  repeat' (first
    | with_reducible assumption | (with_reducible apply State.atBoundary_keeps)
    | (with_reducible apply State.log_keeps) | (intro _ (_ : Keeps _ _)) | (intro _ _ (_ : Keeps _ _))
    | (intro w; refine @keeps_cut pq _ w ?_ ?_; unfold w) | (intro _) | (lift_lets) | (with_reducible apply keeps_ite)
    | split | (dsimp only) | (simp only [keeps_mk]) | (dsimp +zetaDelta only))

theorem State.readUnit_keeps {pq : State} (s : State) (p unit core : Nat) (hk : Keeps pq s) :
    Keeps pq (State.readUnit s p unit core).2.2 := by
  unfold State.readUnit
  repeat' (first
    | with_reducible assumption | (with_reducible apply State.countCe_keeps) | (with_reducible apply State.log_keeps)
    | (with_reducible apply State.sramFailed_keeps) | (intro w; refine @keeps_cut pq _ w ?_ ?_; unfold w) | (intro _)
    | (lift_lets) | split | (dsimp only) | (simp only [keeps_mk]) | (dsimp +zetaDelta only))

theorem State.readSpad_keeps {pq : State} (s : State) (core p line : Nat) (hk : Keeps pq s) :
    Keeps pq (State.readSpad s core p line).2 := by
  unfold State.readSpad
  repeat' (first
    | with_reducible assumption | (with_reducible apply State.readUnit_keeps)
    | (intro w; refine @keeps_cut pq _ w ?_ ?_; unfold w) | (intro _) | (lift_lets) | (with_reducible apply keeps_ite)
    | split | (dsimp only) | (simp only [keeps_mk]) | (dsimp +zetaDelta only) | (refine keeps_pair (by assumption) ?_)
    | (refine keeps_triple (by assumption) ?_))

theorem State.putSpadUnit_keeps {pq : State} (s : State) (p unit : Nat) (on fresh : Bool) (x : List Nat) (hk : Keeps pq s) :
    Keeps pq (State.putSpadUnit s p unit on fresh x) := by
  unfold State.putSpadUnit
  repeat' (first
    | with_reducible assumption | (with_reducible apply State.setSpadUnit_keeps) | (with_reducible apply keeps_ite)
    | split | (dsimp only))

theorem State.writeSpad_keeps {pq : State} (s : State) (p line : Nat) (data : Line) (mask : LineMask) (poison unsealed : Bool) (hk : Keeps pq s) :
    Keeps pq (State.writeSpad s p line data mask poison unsealed) := by
  unfold State.writeSpad
  repeat' (first
    | with_reducible assumption | (with_reducible apply State.putSpadUnit_keeps)
    | (intro w; refine @keeps_cut pq _ w ?_ ?_; unfold w) | (intro _) | (lift_lets) | (with_reducible apply keeps_ite)
    | split | (dsimp only) | (simp only [keeps_mk]) | (dsimp +zetaDelta only))

theorem State.clearCore_keeps {pq : State} (s : State) (p : Nat) (hk : Keeps pq s) :
    Keeps pq (State.clearCore s p) := by
  unfold State.clearCore
  repeat' (first
    | with_reducible assumption | (intro _ (_ : Keeps _ _)) | (intro _ _ (_ : Keeps _ _))
    | (intro w; refine @keeps_cut pq _ w ?_ ?_; unfold w) | (intro _) | (lift_lets) | (dsimp only)
    | (simp only [keeps_mk]) | (dsimp +zetaDelta only))

theorem State.asyncFirst_keeps {pq : State} (s : State) (core : Nat) (hk : Keeps pq s) :
    Keeps pq (State.asyncFirst s core) := by
  unfold State.asyncFirst
  repeat' (first
    | with_reducible assumption | (with_reducible apply State.readSpad_keeps)
    | (with_reducible apply State.setCore_keeps) | (with_reducible apply State.writeSpad_keeps)
    | (intro w; refine @keeps_cut pq _ w ?_ ?_; unfold w) | (intro _) | (lift_lets) | split | (dsimp only)
    | (simp only [keeps_mk]) | (dsimp +zetaDelta only) | (refine keeps_pair (by assumption) ?_)
    | (refine keeps_triple (by assumption) ?_))

theorem State.asyncAll_keeps {pq : State} (s : State) (core : Nat) (hk : Keeps pq s) :
    Keeps pq (State.asyncAll s core) := by
  unfold State.asyncAll
  repeat' (first
    | with_reducible assumption | (with_reducible apply keeps_foldl) | (with_reducible apply State.asyncFirst_keeps)
    | (intro _ (_ : Keeps _ _)) | (intro _ _ (_ : Keeps _ _)) | (intro _) | (lift_lets) | (dsimp only))

theorem State.fetchLineAt_keeps {pq : State} (s : State) (a : Nat) (l : Loc) (stage : Bool) (ctx : Nat) (host : Option Line) (who : Nat := 0) (tag : Word := 0) (hk : Keeps pq s) :
    Keeps pq (State.fetchLineAt s a l stage ctx host who tag).2 := by
  unfold State.fetchLineAt
  repeat' (first
    | with_reducible assumption | (with_reducible apply State.hostRead_keeps)
    | (with_reducible apply State.readFailed_keeps) | (with_reducible apply State.readMemAt_keeps)
    | (with_reducible apply State.readSpad_keeps) | (with_reducible apply State.readStaged_keeps)
    | (intro w; refine @keeps_cut pq _ w ?_ ?_; unfold w) | (intro _) | (lift_lets) | (with_reducible apply keeps_ite)
    | split | (dsimp only) | (simp only [keeps_mk]) | (dsimp +zetaDelta only) | (refine keeps_pair (by assumption) ?_)
    | (refine keeps_triple (by assumption) ?_))

theorem State.fetchLine_keeps {pq : State} (s : State) (a : Nat) (stage : Bool) (ctx : Nat) (host : Option Line) (hk : Keeps pq s) :
    Keeps pq (State.fetchLine s a stage ctx host).2 := by
  unfold State.fetchLine
  repeat' (first
    | with_reducible assumption | (with_reducible apply State.fetchLineAt_keeps) | (dsimp only)
    | (refine keeps_pair (by assumption) ?_) | (refine keeps_triple (by assumption) ?_))

theorem State.placeLineAt_keeps {pq : State} (s : State) (a : Nat) (l : Loc) (data : Line) (mask : LineMask) (poison : Bool) (ctx : Nat) (hk : Keeps pq s) :
    Keeps pq (State.placeLineAt s a l data mask poison ctx) := by
  unfold State.placeLineAt
  repeat' (first
    | with_reducible assumption | (with_reducible apply keeps_foldl) | (with_reducible apply keeps_foldl_snd)
    | (with_reducible apply State.hostWrite_keeps) | (with_reducible apply State.writeMemAt_keeps)
    | (with_reducible apply State.writeSpad_keeps) | (intro _ (_ : Keeps _ _)) | (intro _ _ (_ : Keeps _ _))
    | (intro _) | (lift_lets) | split | (dsimp only))

theorem State.placeLine_keeps {pq : State} (s : State) (a : Nat) (data : Line) (mask : LineMask) (poison : Bool) (ctx : Nat) (hk : Keeps pq s) :
    Keeps pq (State.placeLine s a data mask poison ctx) := by
  unfold State.placeLine
  repeat' (first
    | with_reducible assumption | (with_reducible apply State.placeLineAt_keeps) | (dsimp only))

theorem State.setBankSt_keeps {pq : State} (s : State) (l : Loc) (b : BankSt) (hk : Keeps pq s) :
    Keeps pq (State.setBankSt s l b) := by
  unfold State.setBankSt
  repeat' (first
    | with_reducible assumption | (with_reducible apply State.setRow_keeps)
    | (intro w; refine @keeps_cut pq _ w ?_ ?_; unfold w) | (intro _) | (lift_lets) | (dsimp only)
    | (simp only [keeps_mk]) | (dsimp +zetaDelta only))

theorem State.reach_keeps {pq : State} (s : State) (l : Loc) (x : BankAcc) (hk : Keeps pq s) :
    Keeps pq (State.reach s l x).2 := by
  unfold State.reach
  repeat' (first
    | with_reducible assumption | (with_reducible apply State.setBankSt_keeps) | (intro _ (_ : Keeps _ _))
    | (intro _ _ (_ : Keeps _ _)) | (intro w; refine @keeps_cut pq _ w ?_ ?_; unfold w) | (intro _) | (lift_lets)
    | (with_reducible apply keeps_ite) | split | (dsimp only) | (simp only [keeps_mk]) | (dsimp +zetaDelta only))

theorem State.ownWrite_keeps {pq : State} (s : State) (a : Nat) (l : Loc) (data : Line) (mask : LineMask) (poison : Bool) (ctx : Option Nat) (hk : Keeps pq s) :
    Keeps pq (State.ownWrite s a l data mask poison ctx) := by
  unfold State.ownWrite
  repeat' (first
    | with_reducible assumption | (with_reducible apply State.reach_keeps)
    | (with_reducible apply State.writeMemAt_keeps) | (intro w; refine @keeps_cut pq _ w ?_ ?_; unfold w) | (intro _)
    | (lift_lets) | (with_reducible apply keeps_ite) | split | (dsimp only) | (dsimp +zetaDelta only)
    | (refine keeps_pair (by assumption) ?_) | (refine keeps_triple (by assumption) ?_))

theorem State.performOwn_keeps {pq : State} (s : State) (x : BankAcc) (hk : Keeps pq s) :
    Keeps pq (State.performOwn s x) := by
  unfold State.performOwn
  repeat' (first
    | with_reducible assumption | (with_reducible apply State.writeMemAt_keeps) | split | (dsimp only))

theorem State.flushRow_keeps {pq : State} (s : State) (l : Loc) (hk : Keeps pq s) :
    Keeps pq (State.flushRow s l) := by
  unfold State.flushRow
  repeat' (first
    | with_reducible assumption | (with_reducible apply keeps_foldl) | (with_reducible apply keeps_foldl_snd)
    | (with_reducible apply State.performOwn_keeps) | (with_reducible apply State.setBankSt_keeps)
    | (intro _ (_ : Keeps _ _)) | (intro _ _ (_ : Keeps _ _)) | (intro w; refine @keeps_cut pq _ w ?_ ?_; unfold w)
    | (intro _) | (lift_lets) | (with_reducible apply keeps_ite) | split | (dsimp only) | (simp only [keeps_mk])
    | (dsimp +zetaDelta only))

theorem State.govLine_keeps {pq : State} (s : State) (c a : Nat) (hk : Keeps pq s) :
    Keeps pq (State.govLine s c a).2 := by
  unfold State.govLine
  dsimp only
  split
  · exact State.fetchLine_keeps _ _ _ _ _
      ⟨hk.mem, hk.queue, hk.sent, Nat.le_trans hk.drew (Nat.le_add_right _ _)⟩
  · exact State.fetchLine_keeps _ _ _ _ _ (State.flushRow_keeps _ _ hk)
  · exact State.fetchLine_keeps _ _ _ _ _ (State.asyncAll_keeps _ _ hk)
  · exact State.fetchLine_keeps _ _ _ _ _ hk


theorem State.govRead_keeps {pq : State} (s : State) (c a n : Nat) (hk : Keeps pq s) :
    Keeps pq (State.govRead s c a n).2.2 := by
  unfold State.govRead
  repeat' (first
    | with_reducible assumption | (with_reducible apply keeps_foldl) | (with_reducible apply keeps_foldl_snd)
    | (with_reducible apply keeps_foldl_trd) | (with_reducible apply State.govLine_keeps) | (intro _ (_ : Keeps _ _))
    | (intro _ _ (_ : Keeps _ _)) | (intro w; refine @keeps_cut pq _ w ?_ ?_; unfold w) | (intro _) | (lift_lets)
    | (dsimp only) | (dsimp +zetaDelta only) | (refine keeps_pair (by assumption) ?_)
    | (refine keeps_triple (by assumption) ?_))

theorem State.govWrite_keeps {pq : State} (s : State) (c a : Nat) (b : List Nat) (poison : Bool) (hk : Keeps pq s) :
    Keeps pq (State.govWrite s c a b poison) := by
  unfold State.govWrite
  repeat' (first
    | with_reducible assumption | (with_reducible apply keeps_foldl) | (with_reducible apply keeps_foldl_snd)
    | (with_reducible apply State.asyncAll_keeps) | (with_reducible apply State.ownWrite_keeps)
    | (with_reducible apply State.placeLine_keeps) | (intro _ (_ : Keeps _ _)) | (intro _ _ (_ : Keeps _ _))
    | (intro w; refine @keeps_cut pq _ w ?_ ?_; unfold w) | (intro _) | (lift_lets) | (with_reducible apply keeps_ite)
    | split | (dsimp only) | (dsimp +zetaDelta only))

end Sys2Proof.Machine
end

