-- ==== Sys2Proof/Laws/KeepsSkeinOps.lean ====
section
/-!
SUPPORT. The operations of Machine/SkeinOps.lean keep memory canonical and the queue as it is.
-/

namespace Sys2Proof.Machine

theorem State.putSkein_keeps {pq : State} (s : State) (h : Nat) (e : Skein) (hk : Keeps pq s) :
    Keeps pq (State.putSkein s h e) := by
  unfold State.putSkein
  repeat' (first
    | with_reducible assumption | (intro _) | (lift_lets) | (dsimp only) | (simp only [keeps_mk])
    | (dsimp +zetaDelta only))

theorem State.setSkein_keeps {pq : State} (s : State) (h : Nat) (e : Skein) (hk : Keeps pq s) :
    Keeps pq (State.setSkein s h e) := by
  unfold State.setSkein
  repeat' (first
    | with_reducible assumption | (with_reducible apply State.putSkein_keeps)
    | (with_reducible apply State.writeCopies_keeps) | (intro w; refine @keeps_cut pq _ w ?_ ?_; unfold w) | (intro _)
    | (lift_lets) | (with_reducible apply keeps_ite) | split | (dsimp only) | (dsimp +zetaDelta only))

theorem State.setOwner_keeps {pq : State} (s : State) (b v : Nat) (hk : Keeps pq s) :
    Keeps pq (State.setOwner s b v) := by
  unfold State.setOwner
  repeat' (first
    | with_reducible assumption | (intro _) | (lift_lets) | (dsimp only) | (simp only [keeps_mk])
    | (dsimp +zetaDelta only))

theorem State.setDirty_keeps {pq : State} (s : State) (b : Nat) (hk : Keeps pq s) :
    Keeps pq (State.setDirty s b) := by
  unfold State.setDirty
  repeat' (first
    | with_reducible assumption | (intro _) | (lift_lets) | (dsimp only) | (simp only [keeps_mk])
    | (dsimp +zetaDelta only))

theorem State.chooseBlock_keeps {pq : State} (s : State) (last : Option Nat) (hk : Keeps pq s) :
    Keeps pq (State.chooseBlock s last).2 := by
  unfold State.chooseBlock
  repeat' (first
    | with_reducible assumption | (with_reducible apply State.draw_keeps) | (intro _ (_ : Keeps _ _))
    | (intro _ _ (_ : Keeps _ _)) | (intro w; refine @keeps_cut pq _ w ?_ ?_; unfold w) | (intro _) | (lift_lets)
    | (with_reducible apply keeps_ite) | split | (dsimp only) | (dsimp +zetaDelta only)
    | (refine keeps_pair (by assumption) ?_) | (refine keeps_triple (by assumption) ?_))

theorem State.allocSkein_keeps {pq : State} (s : State) (c : Nat) (fmt : Bool) (hd basepos : Nat) (prev : Option Nat) (hk : Keeps pq s) :
    Keeps pq (State.allocSkein s c fmt hd basepos prev).2 := by
  unfold State.allocSkein
  repeat' (first
    | with_reducible assumption | (with_reducible apply State.chooseBlock_keeps)
    | (with_reducible apply State.draw_keeps) | (with_reducible apply State.setOwner_keeps)
    | (with_reducible apply State.setSkein_keeps) | (intro _ (_ : Keeps _ _)) | (intro _ _ (_ : Keeps _ _))
    | (intro w; refine @keeps_cut pq _ w ?_ ?_; unfold w) | (intro _) | (lift_lets) | (with_reducible apply keeps_ite)
    | split | (dsimp only) | (simp only [keeps_mk]) | (dsimp +zetaDelta only) | (refine keeps_pair (by assumption) ?_)
    | (refine keeps_triple (by assumption) ?_))

theorem State.setSpill_keeps {pq : State} (s : State) (c slot v : Nat) (hk : Keeps pq s) :
    Keeps pq (State.setSpill s c slot v) := by
  unfold State.setSpill
  repeat' (first
    | with_reducible assumption | (intro _) | (lift_lets) | (dsimp only) | (simp only [keeps_mk])
    | (dsimp +zetaDelta only))

theorem State.noteReseal_keeps {pq : State} (s : State) (lost : Bool) (b : Nat) (hk : Keeps pq s) :
    Keeps pq (State.noteReseal s lost b) := by
  unfold State.noteReseal
  repeat' (first
    | with_reducible assumption | (intro _) | (lift_lets) | (with_reducible apply keeps_ite) | split | (dsimp only)
    | (simp only [keeps_mk]) | (dsimp +zetaDelta only))

theorem State.endEvac_keeps {pq : State} (s : State) (h : Nat) (hk : Keeps pq s) :
    Keeps pq (State.endEvac s h) := by
  unfold State.endEvac
  repeat' (first
    | with_reducible assumption | (intro _) | (lift_lets) | (dsimp only) | (simp only [keeps_mk])
    | (dsimp +zetaDelta only))

theorem State.freeSkein_keeps {pq : State} (s : State) (h : Nat) (hk : Keeps pq s) :
    Keeps pq (State.freeSkein s h) := by
  unfold State.freeSkein
  repeat' (first
    | with_reducible assumption | (with_reducible apply State.endEvac_keeps)
    | (with_reducible apply State.noteReseal_keeps) | (with_reducible apply State.setDirty_keeps)
    | (with_reducible apply State.setOwner_keeps) | (with_reducible apply State.setSkein_keeps)
    | (with_reducible apply State.setSpill_keeps) | (intro w; refine @keeps_cut pq _ w ?_ ?_; unfold w) | (intro _)
    | (lift_lets) | split | (dsimp only) | (dsimp +zetaDelta only))

theorem State.dropRef_keeps {pq : State} (s : State) (h : Nat) (hk : Keeps pq s) :
    Keeps pq (State.dropRef s h) := by
  unfold State.dropRef
  repeat' (first
    | with_reducible assumption | (with_reducible apply State.freeSkein_keeps)
    | (with_reducible apply State.setSkein_keeps) | (intro w; refine @keeps_cut pq _ w ?_ ?_; unfold w) | (intro _)
    | (lift_lets) | (with_reducible apply keeps_ite) | split | (dsimp only) | (simp only [keeps_mk])
    | (dsimp +zetaDelta only))

theorem State.releaseChains_keeps {pq : State} (s : State) (ch : Sparse (List Nat)) (hk : Keeps pq s) :
    Keeps pq (State.releaseChains s ch) := by
  unfold State.releaseChains
  repeat' (first
    | with_reducible assumption | (with_reducible apply keeps_foldl) | (with_reducible apply State.dropRef_keeps)
    | (intro _ (_ : Keeps _ _)) | (intro _ _ (_ : Keeps _ _)) | (intro _) | (lift_lets) | (dsimp only))

theorem State.spindleLine_keeps {pq : State} (s : State) (a : Nat) (l : Loc) (f : ScanFlags) (hk : Keeps pq s) :
    Keeps pq (State.spindleLine s a l f).2.2 := by
  have h := State.readLoc_keeps s a l .spindle none hk
  unfold State.spindleLine
  dsimp only
  split
  · dsimp only
    split
    · exact ⟨h.mem, h.queue, hk.sent, h.drew⟩
    · exact h
  · exact h


theorem State.scanRowBytes_keeps {pq : State} (s : State) (blk q b d k : Nat) (f : ScanFlags) (hk : Keeps pq s) :
    Keeps pq (State.scanRowBytes s blk q b d k f).2.2 := by
  unfold State.scanRowBytes
  repeat' (first
    | with_reducible assumption | (with_reducible apply keeps_foldl) | (with_reducible apply keeps_foldl_snd)
    | (with_reducible apply keeps_foldl_trd) | (with_reducible apply State.spindleLine_keeps)
    | (intro _ (_ : Keeps _ _)) | (intro _ _ (_ : Keeps _ _)) | (intro w; refine @keeps_cut pq _ w ?_ ?_; unfold w)
    | (intro _) | (lift_lets) | (with_reducible apply keeps_ite) | split | (dsimp only) | (dsimp +zetaDelta only)
    | (refine keeps_pair (by assumption) ?_) | (refine keeps_triple (by assumption) ?_))

end Sys2Proof.Machine
end

