-- ==== Sys2Proof/Laws/KeepsWork.lean ====
section
/-!
SUPPORT. The operations of Machine/Work.lean keep memory canonical and the queue as it is.
-/

namespace Sys2Proof.Machine

theorem State.modHank_keeps {pq : State} (s : State) (uid : Nat) (f : Hank → Hank) (hk : Keeps pq s) :
    Keeps pq (State.modHank s uid f) := by
  unfold State.modHank
  repeat' (first
    | with_reducible assumption | (intro _ (_ : Keeps _ _)) | (intro _ _ (_ : Keeps _ _)) | (intro _) | (lift_lets)
    | (with_reducible apply keeps_ite) | split | (dsimp only) | (simp only [keeps_mk]) | (dsimp +zetaDelta only))

theorem State.modStep_keeps {pq : State} (s : State) (uid : Nat) (f : StepSt → StepSt) (hk : Keeps pq s) :
    Keeps pq (State.modStep s uid f) := by
  unfold State.modStep
  repeat' (first
    | with_reducible assumption | (intro _ (_ : Keeps _ _)) | (intro _ _ (_ : Keeps _ _)) | (intro _) | (lift_lets)
    | (with_reducible apply keeps_ite) | split | (dsimp only) | (simp only [keeps_mk]) | (dsimp +zetaDelta only))

theorem State.dropStep_keeps {pq : State} (s : State) (uid : Nat) (hk : Keeps pq s) :
    Keeps pq (State.dropStep s uid) := by
  unfold State.dropStep
  repeat' (first
    | with_reducible assumption | (intro _ (_ : Keeps _ _)) | (intro _ _ (_ : Keeps _ _)) | (intro _) | (lift_lets)
    | (dsimp only) | (simp only [keeps_mk]) | (dsimp +zetaDelta only))

theorem State.dropHank_keeps {pq : State} (s : State) (uid : Nat) (hk : Keeps pq s) :
    Keeps pq (State.dropHank s uid) := by
  unfold State.dropHank
  repeat' (first
    | with_reducible assumption | (intro _ (_ : Keeps _ _)) | (intro _ _ (_ : Keeps _ _)) | (intro _) | (lift_lets)
    | (dsimp only) | (simp only [keeps_mk]) | (dsimp +zetaDelta only))

theorem State.dropLoad_keeps {pq : State} (s : State) (q : LoadReq) (hk : Keeps pq s) :
    Keeps pq (State.dropLoad s q) := by
  unfold State.dropLoad
  repeat' (first
    | with_reducible assumption | (intro _ (_ : Keeps _ _)) | (intro _ _ (_ : Keeps _ _)) | (intro _) | (lift_lets)
    | (dsimp only) | (simp only [keeps_mk]) | (dsimp +zetaDelta only))

theorem State.modSeq_keeps {pq : State} (s : State) (uid i : Nat) (f : Seq → Seq) (hk : Keeps pq s) :
    Keeps pq (State.modSeq s uid i f) := by
  unfold State.modSeq
  repeat' (first
    | with_reducible assumption | (with_reducible apply State.modHank_keeps) | (intro _ (_ : Keeps _ _))
    | (intro _ _ (_ : Keeps _ _)) | (intro _) | (lift_lets) | (dsimp only) | (simp only [keeps_mk])
    | (dsimp +zetaDelta only))

theorem State.readTable_keeps {pq : State} (s : State) (uid : Nat) (early : Bool) (hk : Keeps pq s) :
    Keeps pq (State.readTable s uid early) := by
  unfold State.readTable
  repeat' (first
    | with_reducible assumption | (with_reducible apply State.govRead_keeps)
    | (with_reducible apply State.modHank_keeps) | (intro _ (_ : Keeps _ _)) | (intro _ _ (_ : Keeps _ _))
    | (intro w; refine @keeps_cut pq _ w ?_ ?_; unfold w) | (intro _) | (lift_lets) | (with_reducible apply keeps_ite)
    | split | (dsimp only) | (simp only [keeps_mk]) | (dsimp +zetaDelta only) | (refine keeps_pair (by assumption) ?_)
    | (refine keeps_triple (by assumption) ?_))

theorem State.trimChains_keeps {pq : State} (s : State) (ch : Sparse (List Nat)) (hk : Keeps pq s) :
    Keeps pq (State.trimChains s ch) := by
  unfold State.trimChains
  repeat' (first
    | with_reducible assumption | (with_reducible apply keeps_foldl) | (with_reducible apply State.setSkein_keeps)
    | (intro _ (_ : Keeps _ _)) | (intro _ _ (_ : Keeps _ _)) | (intro w; refine @keeps_cut pq _ w ?_ ?_; unfold w)
    | (intro _) | (lift_lets) | (with_reducible apply keeps_ite) | split | (dsimp only) | (simp only [keeps_mk])
    | (dsimp +zetaDelta only))

theorem State.freeHeld_keeps {pq : State} (s : State) (x : Held) (code : Nat) (hk : Keeps pq s) :
    Keeps pq (State.freeHeld s x code) := by
  unfold State.freeHeld
  repeat' (first
    | with_reducible assumption | (with_reducible apply State.final_keeps)
    | (with_reducible apply State.releaseChains_keeps) | (intro _ (_ : Keeps _ _)) | (intro _ _ (_ : Keeps _ _))
    | (intro w; refine @keeps_cut pq _ w ?_ ?_; unfold w) | (intro _) | (lift_lets) | split | (dsimp only)
    | (simp only [keeps_mk]) | (dsimp +zetaDelta only))

theorem State.freeHeldWhere_keeps {pq : State} (s : State) (p : Held → Bool) (code : Nat) (hk : Keeps pq s) :
    Keeps pq (State.freeHeldWhere s p code) := by
  unfold State.freeHeldWhere
  repeat' (first
    | with_reducible assumption | (with_reducible apply keeps_foldl) | (with_reducible apply State.freeHeld_keeps)
    | (intro _ (_ : Keeps _ _)) | (intro _ _ (_ : Keeps _ _)) | (intro _) | (lift_lets) | (dsimp only))

theorem State.applyLoad_keeps {pq : State} (s : State) (q : LoadReq) (hk : Keeps pq s) :
    Keeps pq (State.applyLoad s q) := by
  unfold State.applyLoad
  repeat' (first
    | with_reducible assumption | (with_reducible apply State.dropLoad_keeps)
    | (with_reducible apply State.final_keeps) | (with_reducible apply State.freeHeldWhere_keeps)
    | (with_reducible apply State.post_keeps) | (with_reducible apply State.setModel_keeps) | (intro _ (_ : Keeps _ _))
    | (intro _ _ (_ : Keeps _ _)) | (intro w; refine @keeps_cut pq _ w ?_ ?_; unfold w) | (intro _) | (lift_lets)
    | (with_reducible apply keeps_ite) | split | (dsimp only) | (simp only [keeps_mk]) | (dsimp +zetaDelta only))

theorem State.applyLoads_keeps {pq : State} (s : State) (m : Nat) (hk : Keeps pq s) :
    Keeps pq (State.applyLoads s m) := by
  unfold State.applyLoads
  repeat' (first
    | with_reducible assumption | (with_reducible apply keeps_foldl) | (with_reducible apply State.applyLoad_keeps)
    | (intro _ (_ : Keeps _ _)) | (intro _ _ (_ : Keeps _ _)) | (intro _) | (lift_lets)
    | (with_reducible apply keeps_ite) | split | (dsimp only))

theorem State.settleModels_keeps {pq : State} (s : State) (hk : Keeps pq s) :
    Keeps pq (State.settleModels s) := by
  unfold State.settleModels
  repeat' (first
    | with_reducible assumption | (with_reducible apply keeps_foldl) | (with_reducible apply keeps_foldl_snd)
    | (with_reducible apply State.applyLoad_keeps) | (with_reducible apply State.atBoundary_keeps)
    | (with_reducible apply State.final_keeps) | (with_reducible apply State.freeHeldWhere_keeps)
    | (with_reducible apply State.setModel_keeps) | (intro _ (_ : Keeps _ _)) | (intro _ _ (_ : Keeps _ _))
    | (intro w; refine @keeps_cut pq _ w ?_ ?_; unfold w) | (intro _) | (lift_lets) | (with_reducible apply keeps_ite)
    | split | (dsimp only) | (simp only [keeps_mk]) | (dsimp +zetaDelta only))

theorem State.freeBank_keeps {pq : State} (s : State) (b : Nat) (hk : Keeps pq s) :
    Keeps pq (State.freeBank s b) := by
  unfold State.freeBank
  repeat' (first
    | with_reducible assumption | (with_reducible apply keeps_foldl) | (with_reducible apply State.event_keeps)
    | (with_reducible apply State.final_keeps) | (with_reducible apply State.modCore_keeps)
    | (with_reducible apply State.modCtx_keeps) | (with_reducible apply State.post_keeps) | (intro _ (_ : Keeps _ _))
    | (intro _ _ (_ : Keeps _ _)) | (intro w; refine @keeps_cut pq _ w ?_ ?_; unfold w) | (intro _) | (lift_lets)
    | (with_reducible apply keeps_ite) | split | (dsimp only) | (simp only [keeps_mk]) | (dsimp +zetaDelta only))

theorem State.catchUp_keeps {pq : State} (s : State) (lc : Bool) (hk : Keeps pq s) :
    Keeps pq (State.catchUp s lc) := by
  unfold State.catchUp
  repeat' (first
    | with_reducible assumption | (with_reducible apply keeps_foldl) | (intro _ (_ : Keeps _ _))
    | (intro _ _ (_ : Keeps _ _)) | (intro w; refine @keeps_cut pq _ w ?_ ?_; unfold w) | (intro _) | (lift_lets)
    | split | (dsimp only) | (simp only [keeps_mk]) | (dsimp +zetaDelta only))

theorem State.noteReady_keeps {pq : State} (s : State) (hk : Keeps pq s) :
    Keeps pq (State.noteReady s) := by
  unfold State.noteReady
  repeat' (first
    | with_reducible assumption | (with_reducible apply State.catchUp_keeps) | (dsimp only))

theorem State.settleHank_keeps {pq : State} (s : State) (uid : Nat) (status : Nat) (hk : Keeps pq s) :
    Keeps pq (State.settleHank s uid status) := by
  unfold State.settleHank
  repeat' (first
    | with_reducible assumption | (with_reducible apply State.dropHank_keeps)
    | (with_reducible apply State.final_keeps) | (with_reducible apply State.settleModels_keeps)
    | (intro _ (_ : Keeps _ _)) | (intro _ _ (_ : Keeps _ _)) | (intro w; refine @keeps_cut pq _ w ?_ ?_; unfold w)
    | (intro _) | (lift_lets) | (with_reducible apply keeps_ite) | split | (dsimp only) | (simp only [keeps_mk])
    | (dsimp +zetaDelta only))

theorem State.endSeq_keeps {pq : State} (s : State) (uid i code : Nat) (hk : Keeps pq s) :
    Keeps pq (State.endSeq s uid i code) := by
  unfold State.endSeq
  repeat' (first
    | with_reducible assumption | (with_reducible apply keeps_foldl) | (with_reducible apply keeps_foldl_snd)
    | (with_reducible apply State.event_keeps) | (with_reducible apply State.final_keeps)
    | (with_reducible apply State.modHank_keeps) | (with_reducible apply State.post_keeps)
    | (with_reducible apply State.releaseChains_keeps) | (with_reducible apply State.trimChains_keeps)
    | (intro _ (_ : Keeps _ _)) | (intro _ _ (_ : Keeps _ _)) | (intro w; refine @keeps_cut pq _ w ?_ ?_; unfold w)
    | (intro _) | (lift_lets) | (with_reducible apply keeps_ite) | split | (dsimp only) | (simp only [keeps_mk])
    | (dsimp +zetaDelta only))

theorem State.endAllSeqs_keeps {pq : State} (s : State) (uid code : Nat) (hk : Keeps pq s) :
    Keeps pq (State.endAllSeqs s uid code) := by
  unfold State.endAllSeqs
  repeat' (first
    | with_reducible assumption | (with_reducible apply keeps_foldl) | (with_reducible apply State.endSeq_keeps)
    | (intro _ (_ : Keeps _ _)) | (intro _ _ (_ : Keeps _ _)) | (intro _) | (lift_lets) | split | (dsimp only))

theorem State.endAtMax_keeps {pq : State} (s : State) (uid : Nat) (hk : Keeps pq s) :
    Keeps pq (State.endAtMax s uid) := by
  unfold State.endAtMax
  repeat' (first
    | with_reducible assumption | (with_reducible apply keeps_foldl) | (with_reducible apply State.endSeq_keeps)
    | (intro _ (_ : Keeps _ _)) | (intro _ _ (_ : Keeps _ _)) | (intro _) | (lift_lets) | split | (dsimp only))

theorem State.endHank_keeps {pq : State} (s : State) (uid code status : Nat) (hk : Keeps pq s) :
    Keeps pq (State.endHank s uid code status) := by
  unfold State.endHank
  repeat' (first
    | with_reducible assumption | (with_reducible apply State.endAllSeqs_keeps)
    | (with_reducible apply State.settleHank_keeps) | (dsimp only))

theorem State.seqEnds_keeps {pq : State} (s : State) (uid i code : Nat) (hk : Keeps pq s) :
    Keeps pq (State.seqEnds s uid i code) := by
  unfold State.seqEnds
  repeat' (first
    | with_reducible assumption | (with_reducible apply State.endSeq_keeps) | (with_reducible apply State.modSeq_keeps)
    | (with_reducible apply State.settleHank_keeps) | (intro _ (_ : Keeps _ _)) | (intro _ _ (_ : Keeps _ _))
    | (intro w; refine @keeps_cut pq _ w ?_ ?_; unfold w) | (intro _) | (lift_lets) | (with_reducible apply keeps_ite)
    | split | (dsimp only) | (simp only [keeps_mk]) | (dsimp +zetaDelta only))

theorem State.askEnd_keeps {pq : State} (s : State) (uid i code : Nat) (hk : Keeps pq s) :
    Keeps pq (State.askEnd s uid i code) := by
  unfold State.askEnd
  repeat' (first
    | with_reducible assumption | (with_reducible apply State.atBoundary_keeps)
    | (with_reducible apply State.final_keeps) | (with_reducible apply State.seqEnds_keeps)
    | (with_reducible apply keeps_ite) | split | (dsimp only))

theorem State.endNaming_keeps {pq : State} (s : State) (handle code : Nat) (hk : Keeps pq s) :
    Keeps pq (State.endNaming s handle code) := by
  unfold State.endNaming
  repeat' (first
    | with_reducible assumption | (with_reducible apply keeps_foldl) | (with_reducible apply State.askEnd_keeps)
    | (with_reducible apply State.atBoundary_keeps) | (intro _ (_ : Keeps _ _)) | (intro _ _ (_ : Keeps _ _))
    | (intro w; refine @keeps_cut pq _ w ?_ ?_; unfold w) | (intro _) | (lift_lets) | (with_reducible apply keeps_ite)
    | split | (dsimp only) | (dsimp +zetaDelta only))

theorem State.loseSkein_keeps {pq : State} (s : State) (handle : Nat) (uns : Bool) (hk : Keeps pq s) :
    Keeps pq (State.loseSkein s handle uns) := by
  unfold State.loseSkein
  repeat' (first
    | with_reducible assumption | (with_reducible apply State.endNaming_keeps)
    | (with_reducible apply State.setSkein_keeps) | (intro w; refine @keeps_cut pq _ w ?_ ?_; unfold w) | (intro _)
    | (lift_lets) | (with_reducible apply keeps_ite) | split | (dsimp only) | (simp only [keeps_mk])
    | (dsimp +zetaDelta only))

theorem State.restoreFailed_keeps {pq : State} (s : State) (c handle : Nat) (bus : BitVec 64) (hk : Keeps pq s) :
    Keeps pq (State.restoreFailed s c handle bus) := by
  unfold State.restoreFailed
  repeat' (first
    | with_reducible assumption | (with_reducible apply State.countError_keeps)
    | (with_reducible apply State.hostError_keeps) | (with_reducible apply State.loseSkein_keeps)
    | (with_reducible apply State.modSeq_keeps) | (intro _ (_ : Keeps _ _)) | (intro _ _ (_ : Keeps _ _))
    | (intro w; refine @keeps_cut pq _ w ?_ ?_; unfold w) | (intro _) | (lift_lets) | split | (dsimp only)
    | (simp only [keeps_mk]) | (dsimp +zetaDelta only))

theorem State.statusRecord_keeps {pq : State} (s : State) (core : Nat) (t : Stream) (hk : Keeps pq s) :
    Keeps pq (State.statusRecord s core t) := by
  unfold State.statusRecord
  repeat' (first
    | with_reducible assumption | (with_reducible apply State.modCtx_keeps) | (with_reducible apply State.send_keeps)
    | (intro _ (_ : Keeps _ _)) | (intro _ _ (_ : Keeps _ _)) | (intro _) | (lift_lets)
    | (with_reducible apply keeps_ite) | split | (dsimp only) | (simp only [keeps_mk]) | (dsimp +zetaDelta only))

theorem State.putStream_keeps {pq : State} (s : State) (core : Nat) (old new : Stream) (hk : Keeps pq s) :
    Keeps pq (State.putStream s core old new) := by
  unfold State.putStream
  repeat' (first
    | with_reducible assumption | (with_reducible apply State.setStream_keeps)
    | (with_reducible apply State.statusRecord_keeps) | (intro w; refine @keeps_cut pq _ w ?_ ?_; unfold w) | (intro _)
    | (lift_lets) | (with_reducible apply keeps_ite) | split | (dsimp only) | (dsimp +zetaDelta only))

theorem State.countHold_keeps {pq : State} (s : State) (core : Nat) (hk : Keeps pq s) :
    Keeps pq (State.countHold s core) := by
  unfold State.countHold
  repeat' (first
    | with_reducible assumption | (with_reducible apply State.draw_keeps) | (with_reducible apply State.modCore_keeps)
    | (intro _ (_ : Keeps _ _)) | (intro _ _ (_ : Keeps _ _)) | (intro w; refine @keeps_cut pq _ w ?_ ?_; unfold w)
    | (intro _) | (lift_lets) | (with_reducible apply keeps_ite) | split | (dsimp only) | (simp only [keeps_mk])
    | (dsimp +zetaDelta only) | (refine keeps_pair (by assumption) ?_) | (refine keeps_triple (by assumption) ?_))

theorem State.chargeTime_keeps {pq : State} (s : State) (p : StepSt) (hk : Keeps pq s) :
    Keeps pq (State.chargeTime s p) := by
  unfold State.chargeTime
  repeat' (first
    | with_reducible assumption | (intro w; refine @keeps_cut pq _ w ?_ ?_; unfold w) | (intro _) | (lift_lets)
    | (dsimp only) | (simp only [keeps_mk]) | (dsimp +zetaDelta only))

theorem State.settleStream_keeps {pq : State} (s : State) (uid : Nat) (hk : Keeps pq s) :
    Keeps pq (State.settleStream s uid) := by
  unfold State.settleStream
  repeat' (first
    | with_reducible assumption | (with_reducible apply keeps_foldl) | (with_reducible apply keeps_foldl_snd)
    | (with_reducible apply State.chargeTime_keeps) | (with_reducible apply State.dropHank_keeps)
    | (with_reducible apply State.dropStep_keeps) | (with_reducible apply State.final_keeps)
    | (with_reducible apply State.noteReady_keeps) | (intro _ (_ : Keeps _ _)) | (intro _ _ (_ : Keeps _ _))
    | (intro w; refine @keeps_cut pq _ w ?_ ?_; unfold w) | (intro _) | (lift_lets) | (with_reducible apply keeps_ite)
    | split | (dsimp only) | (dsimp +zetaDelta only))

theorem State.setEngine_keeps {pq : State} (s : State) (e : Nat) (x : WEngine) (hk : Keeps pq s) :
    Keeps pq (State.setEngine s e x) := by
  unfold State.setEngine
  repeat' (first
    | with_reducible assumption | (intro _) | (lift_lets) | (dsimp only) | (simp only [keeps_mk])
    | (dsimp +zetaDelta only))

theorem State.setTaken_keeps {pq : State} (s : State) (k : Nat) (t : Taken) (hk : Keeps pq s) :
    Keeps pq (State.setTaken s k t) := by
  unfold State.setTaken
  repeat' (first
    | with_reducible assumption | (intro _) | (lift_lets) | (dsimp only) | (simp only [keeps_mk])
    | (dsimp +zetaDelta only))

theorem State.idleEngine_keeps {pq : State} (s : State) (e : Nat) (hk : Keeps pq s) :
    Keeps pq (State.idleEngine s e) := by
  unfold State.idleEngine
  repeat' (first
    | with_reducible assumption | (with_reducible apply State.setEngine_keeps)
    | (with_reducible apply State.setTaken_keeps) | (intro _) | (lift_lets) | (dsimp only) | (simp only [keeps_mk])
    | (dsimp +zetaDelta only))

theorem State.setPort_keeps {pq : State} (s : State) (p : Nat) (x : TPort) (hk : Keeps pq s) :
    Keeps pq (State.setPort s p x) := by
  unfold State.setPort
  repeat' (first
    | with_reducible assumption | (intro _) | (lift_lets) | (dsimp only) | (simp only [keeps_mk])
    | (dsimp +zetaDelta only))

theorem State.modPort_keeps {pq : State} (s : State) (p : Nat) (f : TPort → TPort) (hk : Keeps pq s) :
    Keeps pq (State.modPort s p f) := by
  unfold State.modPort
  repeat' (first
    | with_reducible assumption | (with_reducible apply State.setPort_keeps) | (dsimp only))

theorem State.watchCredit_keeps {pq : State} (s : State) (p : Nat) (hk : Keeps pq s) :
    Keeps pq (State.watchCredit s p) := by
  unfold State.watchCredit
  repeat' (first
    | with_reducible assumption | (with_reducible apply State.setPort_keeps) | (intro _ (_ : Keeps _ _))
    | (intro _ _ (_ : Keeps _ _)) | (intro w; refine @keeps_cut pq _ w ?_ ?_; unfold w) | (intro _) | (lift_lets)
    | (with_reducible apply keeps_ite) | split | (dsimp only) | (simp only [keeps_mk]) | (dsimp +zetaDelta only))

theorem State.dropReq_keeps {pq : State} (s : State) (tag : Nat) (hk : Keeps pq s) :
    Keeps pq (State.dropReq s tag) := by
  unfold State.dropReq
  repeat' (first
    | with_reducible assumption | (with_reducible apply keeps_foldl) | (with_reducible apply keeps_foldl_snd)
    | (with_reducible apply State.watchCredit_keeps) | (intro _ (_ : Keeps _ _)) | (intro _ _ (_ : Keeps _ _))
    | (intro w; refine @keeps_cut pq _ w ?_ ?_; unfold w) | (intro _) | (lift_lets) | (with_reducible apply keeps_ite)
    | split | (dsimp only) | (simp only [keeps_mk]) | (dsimp +zetaDelta only))

theorem State.abandon_keeps {pq : State} (s : State) (e : Nat) (hk : Keeps pq s) :
    Keeps pq (State.abandon s e) := by
  unfold State.abandon
  repeat' (first
    | with_reducible assumption | (with_reducible apply keeps_foldl) | (with_reducible apply State.dropReq_keeps)
    | (intro _ (_ : Keeps _ _)) | (intro _ _ (_ : Keeps _ _)) | (intro w; refine @keeps_cut pq _ w ?_ ?_; unfold w)
    | (intro _) | (lift_lets) | (dsimp only) | (simp only [keeps_mk]) | (dsimp +zetaDelta only))

theorem State.stopEngine_keeps {pq : State} (s : State) (c e : Nat) (flr : Bool) (hk : Keeps pq s) :
    Keeps pq (State.stopEngine s c e flr) := by
  unfold State.stopEngine
  repeat' (first
    | with_reducible assumption | (with_reducible apply State.abandon_keeps)
    | (with_reducible apply State.setEngine_keeps) | (intro _ (_ : Keeps _ _)) | (intro _ _ (_ : Keeps _ _))
    | (intro w; refine @keeps_cut pq _ w ?_ ?_; unfold w) | (intro _) | (lift_lets) | (with_reducible apply keeps_ite)
    | split | (dsimp only) | (simp only [keeps_mk]) | (dsimp +zetaDelta only))

theorem State.stopWinder_keeps {pq : State} (s : State) (c : Nat) (flr : Bool) (hk : Keeps pq s) :
    Keeps pq (State.stopWinder s c flr) := by
  unfold State.stopWinder
  repeat' (first
    | with_reducible assumption | (with_reducible apply keeps_foldl) | (with_reducible apply State.stopEngine_keeps)
    | (intro _ (_ : Keeps _ _)) | (intro _ _ (_ : Keeps _ _)) | (intro _) | (lift_lets) | (dsimp only))

theorem State.tearWinder_keeps {pq : State} (s : State) (c : Nat) (hk : Keeps pq s) :
    Keeps pq (State.tearWinder s c) := by
  unfold State.tearWinder
  repeat' (first
    | with_reducible assumption | (with_reducible apply keeps_foldl) | (with_reducible apply State.final_keeps)
    | (with_reducible apply State.idleEngine_keeps) | (intro _ (_ : Keeps _ _)) | (intro _ _ (_ : Keeps _ _))
    | (intro w; refine @keeps_cut pq _ w ?_ ?_; unfold w) | (intro _) | (lift_lets) | (with_reducible apply keeps_ite)
    | split | (dsimp only) | (simp only [keeps_mk]) | (dsimp +zetaDelta only))

theorem State.stopStream_keeps {pq : State} (s : State) (core : Nat) (t : Stream) (mute : Bool) (hk : Keeps pq s) :
    Keeps pq (State.stopStream s core t mute) := by
  unfold State.stopStream
  repeat' (first
    | with_reducible assumption | (with_reducible apply State.closeStream_keeps)
    | (with_reducible apply State.countHold_keeps) | (with_reducible apply State.statusRecord_keeps)
    | (intro w; refine @keeps_cut pq _ w ?_ ?_; unfold w) | (intro _) | (lift_lets) | (with_reducible apply keeps_ite)
    | split | (dsimp only) | (simp only [keeps_mk]) | (dsimp +zetaDelta only))

theorem State.stopStreams_keeps {pq : State} (s : State) (c : Nat) (mute flr : Bool) (hk : Keeps pq s) :
    Keeps pq (State.stopStreams s c mute flr) := by
  unfold State.stopStreams
  repeat' (first
    | with_reducible assumption | (with_reducible apply keeps_foldl) | (with_reducible apply State.modCore_keeps)
    | (with_reducible apply State.setStream_keeps) | (with_reducible apply State.stopStream_keeps)
    | (intro _ (_ : Keeps _ _)) | (intro _ _ (_ : Keeps _ _)) | (intro w; refine @keeps_cut pq _ w ?_ ?_; unfold w)
    | (intro _) | (lift_lets) | (with_reducible apply keeps_ite) | split | (dsimp only) | (simp only [keeps_mk])
    | (dsimp +zetaDelta only))

theorem State.tearHank_keeps {pq : State} (s : State) (h : Hank) (hk : Keeps pq s) :
    Keeps pq (State.tearHank s h) := by
  unfold State.tearHank
  repeat' (first
    | with_reducible assumption | (with_reducible apply State.dropHank_keeps)
    | (with_reducible apply State.endAllSeqs_keeps) | (with_reducible apply State.final_keeps)
    | (with_reducible apply State.readTable_keeps) | (with_reducible apply State.settleHank_keeps) | (intro _)
    | (lift_lets) | (with_reducible apply keeps_ite) | split | (dsimp only) | (simp only [keeps_mk])
    | (dsimp +zetaDelta only))

theorem State.endSaved_keeps {pq : State} (s : State) (c : Nat) (hk : Keeps pq s) :
    Keeps pq (State.endSaved s c) := by
  unfold State.endSaved
  repeat' (first
    | with_reducible assumption | (with_reducible apply keeps_foldl) | (with_reducible apply State.statusRecord_keeps)
    | (intro _ (_ : Keeps _ _)) | (intro _ _ (_ : Keeps _ _)) | (intro _) | (lift_lets) | split | (dsimp only)
    | (simp only [keeps_mk]) | (dsimp +zetaDelta only))

theorem State.dropWork_keeps {pq : State} (s : State) (c : Nat) (gone : List Nat) (hk : Keeps pq s) :
    Keeps pq (State.dropWork s c gone) := by
  unfold State.dropWork
  repeat' (first
    | with_reducible assumption | (with_reducible apply keeps_foldl) | (with_reducible apply State.freeBank_keeps)
    | (intro _ (_ : Keeps _ _)) | (intro _ _ (_ : Keeps _ _)) | (intro w; refine @keeps_cut pq _ w ?_ ?_; unfold w)
    | (intro _) | (lift_lets) | (dsimp only) | (simp only [keeps_mk]) | (dsimp +zetaDelta only))

theorem State.dropRowSteps_keeps {pq : State} (s : State) (c : Nat) (hk : Keeps pq s) :
    Keeps pq (State.dropRowSteps s c) := by
  unfold State.dropRowSteps
  repeat' (first
    | with_reducible assumption | (with_reducible apply keeps_foldl) | (with_reducible apply State.setRow_keeps)
    | (with_reducible apply State.setSpindle_keeps) | (intro _ (_ : Keeps _ _)) | (intro _ _ (_ : Keeps _ _))
    | (intro w; refine @keeps_cut pq _ w ?_ ?_; unfold w) | (intro _) | (lift_lets) | (dsimp only)
    | (simp only [keeps_mk]) | (dsimp +zetaDelta only))

theorem State.dropPuts_keeps {pq : State} (s : State) (hk : Keeps pq s) :
    Keeps pq (State.dropPuts s) := by
  unfold State.dropPuts
  repeat' (first
    | with_reducible assumption | (with_reducible apply keeps_foldl) | (with_reducible apply State.setCore_keeps)
    | (intro _ (_ : Keeps _ _)) | (intro _ _ (_ : Keeps _ _)) | (intro w; refine @keeps_cut pq _ w ?_ ?_; unfold w)
    | (intro _) | (lift_lets) | (with_reducible apply keeps_ite) | split | (dsimp only) | (simp only [keeps_mk])
    | (dsimp +zetaDelta only))

theorem State.tearModels_keeps {pq : State} (s : State) (hk : Keeps pq s) :
    Keeps pq (State.tearModels s) := by
  unfold State.tearModels
  repeat' (first
    | with_reducible assumption | (with_reducible apply keeps_foldl) | (with_reducible apply keeps_foldl_snd)
    | (with_reducible apply State.dropLoad_keeps) | (with_reducible apply State.final_keeps)
    | (with_reducible apply State.setModel_keeps) | (intro _ (_ : Keeps _ _)) | (intro _ _ (_ : Keeps _ _))
    | (intro w; refine @keeps_cut pq _ w ?_ ?_; unfold w) | (intro _) | (lift_lets) | split | (dsimp only)
    | (simp only [keeps_mk]) | (dsimp +zetaDelta only))

theorem State.muteSteps_keeps {pq : State} (s : State) (c : Nat) (hk : Keeps pq s) :
    Keeps pq (State.muteSteps s c) := by
  unfold State.muteSteps
  repeat' (first
    | with_reducible assumption | (intro _ (_ : Keeps _ _)) | (intro _ _ (_ : Keeps _ _))
    | (intro w; refine @keeps_cut pq _ w ?_ ?_; unfold w) | (intro _) | (lift_lets) | (dsimp only)
    | (simp only [keeps_mk]) | (dsimp +zetaDelta only))

theorem State.tearRecords_keeps {pq : State} (s : State) (c : Nat) (hk : Keeps pq s) :
    Keeps pq (State.tearRecords s c) := by
  unfold State.tearRecords
  repeat' (first
    | with_reducible assumption | (with_reducible apply keeps_foldl) | (with_reducible apply State.dropWork_keeps)
    | (with_reducible apply State.endSaved_keeps) | (with_reducible apply State.final_keeps)
    | (with_reducible apply State.freeHeldWhere_keeps) | (with_reducible apply State.modCtx_keeps)
    | (with_reducible apply State.tearHank_keeps) | (with_reducible apply State.tearModels_keeps)
    | (with_reducible apply State.tearWinder_keeps) | (intro _ (_ : Keeps _ _)) | (intro _ _ (_ : Keeps _ _))
    | (intro w; refine @keeps_cut pq _ w ?_ ?_; unfold w) | (intro _) | (lift_lets) | (with_reducible apply keeps_ite)
    | split | (dsimp only) | (simp only [keeps_mk]) | (dsimp +zetaDelta only))

theorem State.finishTeardown_keeps {pq : State} (s : State) (c : Nat) (hk : Keeps pq s) :
    Keeps pq (State.finishTeardown s c) := by
  unfold State.finishTeardown
  repeat' (first
    | with_reducible assumption | (with_reducible apply State.closed_keeps) | (with_reducible apply State.event_keeps)
    | (with_reducible apply State.modCtx_keeps) | (with_reducible apply State.tearRecords_keeps)
    | (intro _ (_ : Keeps _ _)) | (intro _ _ (_ : Keeps _ _)) | (intro w; refine @keeps_cut pq _ w ?_ ?_; unfold w)
    | (intro _) | (lift_lets) | (with_reducible apply keeps_ite) | split | (dsimp only) | (simp only [keeps_mk])
    | (dsimp +zetaDelta only))

theorem State.orphans_keeps {pq : State} (s : State) (c : Nat) (hk : Keeps pq s) :
    Keeps pq (State.orphans s c) := by
  unfold State.orphans
  repeat' (first
    | with_reducible assumption | (with_reducible apply keeps_foldl) | (with_reducible apply State.modCtx_keeps)
    | (with_reducible apply State.mutePost_keeps) | (with_reducible apply State.post_keeps) | (intro _ (_ : Keeps _ _))
    | (intro _ _ (_ : Keeps _ _)) | (intro w; refine @keeps_cut pq _ w ?_ ?_; unfold w) | (intro _) | (lift_lets)
    | (with_reducible apply keeps_ite) | split | (dsimp only) | (simp only [keeps_mk]) | (dsimp +zetaDelta only))

theorem State.dropPosts_keeps {pq : State} (s : State) (c : Nat) (hk : Keeps pq s) :
    Keeps pq (State.dropPosts s c) := by
  unfold State.dropPosts
  repeat' (first
    | with_reducible assumption | (with_reducible apply keeps_foldl) | (with_reducible apply State.dropPuts_keeps)
    | (with_reducible apply State.modCtx_keeps) | (with_reducible apply State.mutePost_keeps)
    | (with_reducible apply State.post_keeps) | (intro _ (_ : Keeps _ _)) | (intro _ _ (_ : Keeps _ _))
    | (intro w; refine @keeps_cut pq _ w ?_ ?_; unfold w) | (intro _) | (lift_lets) | (dsimp only)
    | (simp only [keeps_mk]) | (dsimp +zetaDelta only))

theorem State.mutePosts_keeps {pq : State} (s : State) (c : Nat) (hk : Keeps pq s) :
    Keeps pq (State.mutePosts s c) := by
  unfold State.mutePosts
  repeat' (first
    | with_reducible assumption | (with_reducible apply State.modCtx_keeps)
    | (with_reducible apply State.orphans_keeps) | (with_reducible apply State.post_keeps) | (intro _ (_ : Keeps _ _))
    | (intro _ _ (_ : Keeps _ _)) | (intro _) | (lift_lets) | (dsimp only) | (simp only [keeps_mk])
    | (dsimp +zetaDelta only))

theorem State.teardownFor_keeps {pq : State} (s : State) (c : Nat) (k : Closing) (hk : Keeps pq s) :
    Keeps pq (State.teardownFor s c k) := by
  unfold State.teardownFor
  repeat' (first
    | with_reducible assumption | (with_reducible apply State.dropPuts_keeps)
    | (with_reducible apply State.dropRowSteps_keeps) | (with_reducible apply State.finishTeardown_keeps)
    | (with_reducible apply State.modCtx_keeps) | (with_reducible apply State.mutePosts_keeps)
    | (with_reducible apply State.muteSteps_keeps) | (with_reducible apply State.stopStreams_keeps)
    | (with_reducible apply State.stopWinder_keeps) | (intro _ (_ : Keeps _ _)) | (intro _ _ (_ : Keeps _ _))
    | (intro w; refine @keeps_cut pq _ w ?_ ?_; unfold w) | (intro _) | (lift_lets) | (with_reducible apply keeps_ite)
    | split | (dsimp only) | (simp only [keeps_mk]) | (dsimp +zetaDelta only))

theorem State.teardown_keeps {pq : State} (s : State) (c cause : Nat) (mute : Bool) (hk : Keeps pq s) :
    Keeps pq (State.teardown s c cause mute) := by
  unfold State.teardown
  repeat' (first
    | with_reducible assumption | (with_reducible apply State.teardownFor_keeps) | (intro _) | (lift_lets)
    | (dsimp only) | (simp only [keeps_mk]) | (dsimp +zetaDelta only))

theorem State.haltStep_keeps {pq : State} (s : State) (uid : Nat) (hk : Keeps pq s) :
    Keeps pq (State.haltStep s uid) := by
  unfold State.haltStep
  repeat' (first
    | with_reducible assumption | (with_reducible apply keeps_foldl) | (with_reducible apply State.closeStream_keeps)
    | (with_reducible apply State.countHold_keeps) | (with_reducible apply State.modCore_keeps)
    | (with_reducible apply State.setStream_keeps) | (intro _ (_ : Keeps _ _)) | (intro _ _ (_ : Keeps _ _))
    | (intro _) | (lift_lets) | (with_reducible apply keeps_ite) | split | (dsimp only) | (simp only [keeps_mk])
    | (dsimp +zetaDelta only))

theorem State.endStream_keeps {pq : State} (s : State) (core code : Nat) (hk : Keeps pq s) :
    Keeps pq (State.endStream s core code) := by
  unfold State.endStream
  repeat' (first
    | with_reducible assumption | (with_reducible apply State.closeStream_keeps)
    | (with_reducible apply State.countHold_keeps) | (with_reducible apply State.finishTeardown_keeps)
    | (with_reducible apply State.haltStep_keeps) | (with_reducible apply State.modStep_keeps)
    | (with_reducible apply State.settleStream_keeps) | (with_reducible apply State.statusRecord_keeps)
    | (intro _ (_ : Keeps _ _)) | (intro _ _ (_ : Keeps _ _)) | (intro w; refine @keeps_cut pq _ w ?_ ?_; unfold w)
    | (intro _) | (lift_lets) | (with_reducible apply keeps_ite) | split | (dsimp only) | (simp only [keeps_mk])
    | (dsimp +zetaDelta only))

theorem State.tryEnd_keeps {pq : State} (s : State) (core : Nat) (hk : Keeps pq s) :
    Keeps pq (State.tryEnd s core) := by
  unfold State.tryEnd
  repeat' (first
    | with_reducible assumption | (with_reducible apply State.endStream_keeps) | (intro _ (_ : Keeps _ _))
    | (intro _ _ (_ : Keeps _ _)) | (intro w; refine @keeps_cut pq _ w ?_ ?_; unfold w) | (intro _) | (lift_lets)
    | (with_reducible apply keeps_ite) | split | (dsimp only) | (dsimp +zetaDelta only))

theorem State.lateSignal_keeps {pq : State} (s : State) (core : Nat) (hk : Keeps pq s) :
    Keeps pq (State.lateSignal s core) := by
  unfold State.lateSignal
  repeat' (first
    | with_reducible assumption | (with_reducible apply State.modCore_keeps) | (with_reducible apply State.tcAdd_keeps)
    | (with_reducible apply State.tryEnd_keeps) | (intro _ (_ : Keeps _ _)) | (intro _ _ (_ : Keeps _ _)) | (intro _)
    | (lift_lets) | (with_reducible apply keeps_ite) | split | (dsimp only) | (simp only [keeps_mk])
    | (dsimp +zetaDelta only))

end Sys2Proof.Machine
end

