-- ==== Sys2Proof/Laws/KeepsTreadle.lean ====
section
/-!
SUPPORT. The operations of Machine/Treadle.lean keep memory canonical and the queue as it is.
-/

namespace Sys2Proof.Machine

theorem State.readSpan_keeps {pq : State} (s : State) (core p a n : Nat) (hk : Keeps pq s) :
    Keeps pq (State.readSpan s core p a n).2.2 := by
  unfold State.readSpan
  repeat' (first
    | with_reducible assumption | (with_reducible apply keeps_foldl) | (with_reducible apply keeps_foldl_snd)
    | (with_reducible apply keeps_foldl_trd) | (with_reducible apply State.readSpad_keeps) | (intro _ (_ : Keeps _ _))
    | (intro _ _ (_ : Keeps _ _)) | (intro w; refine @keeps_cut pq _ w ?_ ?_; unfold w) | (intro _) | (lift_lets)
    | (with_reducible apply keeps_ite) | split | (dsimp only) | (dsimp +zetaDelta only)
    | (refine keeps_pair (by assumption) ?_) | (refine keeps_triple (by assumption) ?_))

theorem State.writeSpan_keeps {pq : State} (s : State) (p a : Nat) (b : List Nat) (hk : Keeps pq s) :
    Keeps pq (State.writeSpan s p a b) := by
  unfold State.writeSpan
  repeat' (first
    | with_reducible assumption | (with_reducible apply keeps_foldl) | (with_reducible apply keeps_foldl_snd)
    | (with_reducible apply State.writeSpad_keeps) | (intro _ (_ : Keeps _ _)) | (intro _ _ (_ : Keeps _ _))
    | (intro w; refine @keeps_cut pq _ w ?_ ?_; unfold w) | (intro _) | (lift_lets) | (with_reducible apply keeps_ite)
    | split | (dsimp only) | (dsimp +zetaDelta only))

theorem State.consume_keeps {pq : State} (s : State) (core : Nat) (q : Option Bool) (hk : Keeps pq s) :
    Keeps pq (State.consume s core q) := by
  unfold State.consume
  repeat' (first
    | with_reducible assumption | (with_reducible apply State.modStep_keeps)
    | (with_reducible apply State.setStream_keeps) | (intro _ (_ : Keeps _ _)) | (intro _ _ (_ : Keeps _ _))
    | (intro _) | (lift_lets) | split | (dsimp only) | (simp only [keeps_mk]) | (dsimp +zetaDelta only))

theorem State.setVreg_keeps {pq : State} (s : State) (p v : Nat) (x : VReg) (hk : Keeps pq s) :
    Keeps pq (State.setVreg s p v x) := by
  unfold State.setVreg
  repeat' (first
    | with_reducible assumption | (intro _) | (lift_lets) | (dsimp only) | (simp only [keeps_mk])
    | (dsimp +zetaDelta only))

theorem State.setAccRow_keeps {pq : State} (s : State) (p set row : Nat) (x : BitVec 6144) (hk : Keeps pq s) :
    Keeps pq (State.setAccRow s p set row x) := by
  unfold State.setAccRow
  repeat' (first
    | with_reducible assumption | (intro _) | (lift_lets) | (dsimp only) | (simp only [keeps_mk])
    | (dsimp +zetaDelta only))

theorem State.applyK_keeps {pq : State} (s : State) (p set : Nat) (a b : List (List FVal)) (hk : Keeps pq s) :
    Keeps pq (State.applyK s p set a b) := by
  unfold State.applyK
  repeat' (first
    | with_reducible assumption | (with_reducible apply keeps_foldl) | (with_reducible apply State.setAccRow_keeps)
    | (intro _ (_ : Keeps _ _)) | (intro _ _ (_ : Keeps _ _)) | (intro w; refine @keeps_cut pq _ w ?_ ?_; unfold w)
    | (intro _) | (lift_lets) | (dsimp only) | (dsimp +zetaDelta only))

theorem State.setChunk_keeps {pq : State} (s : State) (p set pos : Nat) (v : BitVec 2048) (hk : Keeps pq s) :
    Keeps pq (State.setChunk s p set pos v) := by
  unfold State.setChunk
  repeat' (first
    | with_reducible assumption | (with_reducible apply State.setAccRow_keeps) | (dsimp only))

theorem State.setPipe_keeps {pq : State} (s : State) (core : Nat) (x : Pipe) (hk : Keeps pq s) :
    Keeps pq (State.setPipe s core x) := by
  unfold State.setPipe
  repeat' (first
    | with_reducible assumption | (with_reducible apply State.modCore_keeps) | (intro _ (_ : Keeps _ _))
    | (intro _ _ (_ : Keeps _ _)) | (intro _) | (lift_lets) | (dsimp only) | (simp only [keeps_mk])
    | (dsimp +zetaDelta only))

theorem State.perform_keeps {pq : State} (s : State) (p : Nat) (f : Flight) (hk : Keeps pq s) :
    Keeps pq (State.perform s p f) := by
  unfold State.perform
  repeat' (first
    | with_reducible assumption | (with_reducible apply keeps_foldl) | (with_reducible apply State.applyK_keeps)
    | (with_reducible apply State.setAccRow_keeps) | (with_reducible apply State.setChunk_keeps)
    | (with_reducible apply State.setVreg_keeps) | (intro _ (_ : Keeps _ _)) | (intro _ _ (_ : Keeps _ _)) | (intro _)
    | (lift_lets) | split | (dsimp only))

theorem State.land_keeps {pq : State} (s : State) (core p : Nat) (hk : Keeps pq s) :
    Keeps pq (State.land s core p) := by
  unfold State.land
  repeat' (first
    | with_reducible assumption | (with_reducible apply keeps_foldl) | (with_reducible apply keeps_foldl_snd)
    | (with_reducible apply State.perform_keeps) | (with_reducible apply State.setPipe_keeps)
    | (intro _ (_ : Keeps _ _)) | (intro _ _ (_ : Keeps _ _)) | (intro w; refine @keeps_cut pq _ w ?_ ?_; unfold w)
    | (intro _) | (lift_lets) | (dsimp only) | (simp only [keeps_mk]) | (dsimp +zetaDelta only))

theorem State.idleCycles_keeps {pq : State} (s : State) (core p : Nat) (y0 : Nat) (hk : Keeps pq s) :
    Keeps pq (State.idleCycles s core p y0) := by
  induction y0 generalizing s with
  | zero =>
    unfold State.idleCycles
    repeat' (first
      | with_reducible assumption | (with_reducible apply State.land_keeps) | (with_reducible apply State.setPipe_keeps)
      | (intro w; refine @keeps_cut pq _ w ?_ ?_; unfold w) | (intro _) | (lift_lets) | (dsimp only)
      | (simp only [keeps_mk]) | (dsimp +zetaDelta only))
  | succ n ih =>
    unfold State.idleCycles
    repeat' (first
      | with_reducible assumption | (with_reducible apply State.land_keeps) | (with_reducible apply State.setPipe_keeps)
      | (with_reducible apply ih) | (intro w; refine @keeps_cut pq _ w ?_ ?_; unfold w) | (intro _) | (lift_lets)
      | (dsimp only) | (simp only [keeps_mk]) | (dsimp +zetaDelta only))


theorem State.readScale_keeps {pq : State} (s : State) (core p g : Nat) (kept : List (Nat × Line × Bool × Bool)) (hk : Keeps pq s) :
    Keeps pq (State.readScale s core p g kept).2 := by
  unfold State.readScale
  repeat' (first
    | with_reducible assumption | (with_reducible apply State.consume_keeps)
    | (with_reducible apply State.readSpad_keeps) | (with_reducible apply State.setPipe_keeps)
    | (intro _ (_ : Keeps _ _)) | (intro _ _ (_ : Keeps _ _)) | (intro w; refine @keeps_cut pq _ w ?_ ?_; unfold w)
    | (intro _) | (lift_lets) | (with_reducible apply keeps_ite) | split | (dsimp only) | (simp only [keeps_mk])
    | (dsimp +zetaDelta only) | (refine keeps_pair (by assumption) ?_) | (refine keeps_triple (by assumption) ?_))

theorem State.readScales_keeps {pq : State} (s : State) (core p gA gB : Nat) (now : Bool) (kept : List (Nat × Line × Bool × Bool)) (hk : Keeps pq s) :
    Keeps pq (State.readScales s core p gA gB now kept) := by
  unfold State.readScales
  repeat' (first
    | with_reducible assumption | (with_reducible apply State.readScale_keeps)
    | (with_reducible apply State.setPipe_keeps) | (intro w; refine @keeps_cut pq _ w ?_ ?_; unfold w) | (intro _)
    | (lift_lets) | (with_reducible apply keeps_ite) | split | (dsimp only) | (simp only [keeps_mk])
    | (dsimp +zetaDelta only) | (refine keeps_pair (by assumption) ?_) | (refine keeps_triple (by assumption) ?_))

theorem State.matrixCycle_keeps {pq : State} (s : State) (core : Nat) (w : TreadleWord) (k : Nat) (ma mb : List Nat) (hk : Keeps pq s) :
    Keeps pq (State.matrixCycle s core w k ma mb) := by
  unfold State.matrixCycle
  repeat' (first
    | with_reducible assumption | (with_reducible apply State.setPipe_keeps)
    | (with_reducible apply State.setStream_keeps) | (intro w; refine @keeps_cut pq _ w ?_ ?_; unfold w) | (intro _)
    | (lift_lets) | (with_reducible apply keeps_ite) | split | (dsimp only) | (simp only [keeps_mk])
    | (dsimp +zetaDelta only))

theorem State.vectorCycle_keeps {pq : State} (s : State) (core p : Nat) (w : TreadleWord) (k : Nat) (vl : List Nat) (hk : Keeps pq s) :
    Keeps pq (State.vectorCycle s core p w k vl) := by
  unfold State.vectorCycle
  repeat' (first
    | with_reducible assumption | (with_reducible apply State.setPipe_keeps)
    | (with_reducible apply State.setStream_keeps) | (intro _ (_ : Keeps _ _)) | (intro _ _ (_ : Keeps _ _))
    | (intro w; refine @keeps_cut pq _ w ?_ ?_; unfold w) | (intro _) | (lift_lets) | (with_reducible apply keeps_ite)
    | split | (dsimp only) | (simp only [keeps_mk]) | (dsimp +zetaDelta only))

theorem State.keepOwed_keeps {pq : State} (s : State) (core p id : Nat) (lines : List Nat) (hk : Keeps pq s) :
    Keeps pq (State.keepOwed s core p id lines) := by
  unfold State.keepOwed
  repeat' (first
    | with_reducible assumption | (with_reducible apply keeps_foldl) | (with_reducible apply State.readSpad_keeps)
    | (with_reducible apply State.setPipe_keeps) | (intro _ (_ : Keeps _ _)) | (intro _ _ (_ : Keeps _ _))
    | (intro w; refine @keeps_cut pq _ w ?_ ?_; unfold w) | (intro _) | (lift_lets) | (with_reducible apply keeps_ite)
    | split | (dsimp only) | (simp only [keeps_mk]) | (dsimp +zetaDelta only) | (refine keeps_pair (by assumption) ?_)
    | (refine keeps_triple (by assumption) ?_))

theorem State.storeCycle_keeps {pq : State} (s : State) (core p : Nat) (w : TreadleWord) (k : Nat) (hk : Keeps pq s) :
    Keeps pq (State.storeCycle s core p w k) := by
  unfold State.storeCycle
  repeat' (first
    | with_reducible assumption | (with_reducible apply State.keepOwed_keeps)
    | (with_reducible apply State.writeSpan_keeps) | (intro w; refine @keeps_cut pq _ w ?_ ?_; unfold w) | (intro _)
    | (lift_lets) | (with_reducible apply keeps_ite) | split | (dsimp only) | (dsimp +zetaDelta only))

theorem State.netCycle_keeps {pq : State} (s : State) (core : Nat) (w : TreadleWord) (so : List (Line × Bool)) (hk : Keeps pq s) :
    Keeps pq (State.netCycle s core w so) := by
  unfold State.netCycle
  repeat' (first
    | with_reducible assumption | (with_reducible apply State.modCore_keeps) | (intro _ (_ : Keeps _ _))
    | (intro _ _ (_ : Keeps _ _)) | (intro w; refine @keeps_cut pq _ w ?_ ?_; unfold w) | (intro _) | (lift_lets)
    | (with_reducible apply keeps_ite) | split | (dsimp only) | (simp only [keeps_mk]) | (dsimp +zetaDelta only))

theorem State.scaleCycle_keeps {pq : State} (s : State) (core p : Nat) (w : TreadleWord) (k : Nat) (reads writes : List Nat) (hk : Keeps pq s) :
    Keeps pq (State.scaleCycle s core p w k reads writes) := by
  unfold State.scaleCycle
  repeat' (first
    | with_reducible assumption | (with_reducible apply State.readScales_keeps)
    | (with_reducible apply State.setPipe_keeps) | (intro w; refine @keeps_cut pq _ w ?_ ?_; unfold w) | (intro _)
    | (lift_lets) | (with_reducible apply keeps_ite) | split | (dsimp only) | (simp only [keeps_mk])
    | (dsimp +zetaDelta only))

theorem State.stretch_keeps {pq : State} (s : State) (core n : Nat) (hk : Keeps pq s) :
    Keeps pq (State.stretch s core n) := by
  unfold State.stretch
  repeat' (first
    | with_reducible assumption | (with_reducible apply State.modCore_keeps) | (intro _ (_ : Keeps _ _))
    | (intro _ _ (_ : Keeps _ _)) | (intro _) | (lift_lets) | (dsimp only) | (simp only [keeps_mk])
    | (dsimp +zetaDelta only))

theorem State.payScale_keeps {pq : State} (s : State) (core p : Nat) (now : Bool) (o : OwedScale × Nat × Nat) (hk : Keeps pq s) :
    Keeps pq (State.payScale s core p now o) := by
  unfold State.payScale
  repeat' (first
    | with_reducible assumption | (with_reducible apply State.modCore_keeps)
    | (with_reducible apply State.readScales_keeps) | (with_reducible apply State.stretch_keeps)
    | (intro _ (_ : Keeps _ _)) | (intro _ _ (_ : Keeps _ _)) | (intro w; refine @keeps_cut pq _ w ?_ ?_; unfold w)
    | (intro _) | (lift_lets) | (with_reducible apply keeps_ite) | split | (dsimp only) | (simp only [keeps_mk])
    | (dsimp +zetaDelta only))

theorem State.payOwn_keeps {pq : State} (s : State) (core p : Nat) (now : Bool) (hk : Keeps pq s) :
    Keeps pq (State.payOwn s core p now) := by
  unfold State.payOwn
  repeat' (first
    | with_reducible assumption | (with_reducible apply keeps_foldl) | (with_reducible apply State.payScale_keeps)
    | (with_reducible apply State.setPipe_keeps) | (intro _ (_ : Keeps _ _)) | (intro _ _ (_ : Keeps _ _))
    | (intro w; refine @keeps_cut pq _ w ?_ ?_; unfold w) | (intro _) | (lift_lets) | (dsimp only)
    | (simp only [keeps_mk]) | (dsimp +zetaDelta only))

theorem State.runCycle_keeps {pq : State} (s : State) (core p : Nat) (w : TreadleWord) (k : Nat) (hk : Keeps pq s) :
    Keeps pq (State.runCycle s core p w k) := by
  unfold State.runCycle
  repeat' (first
    | with_reducible assumption | (with_reducible apply keeps_foldl) | (with_reducible apply keeps_foldl_snd)
    | (with_reducible apply keeps_foldl_trd) | (with_reducible apply State.consume_keeps)
    | (with_reducible apply State.idleCycles_keeps) | (with_reducible apply State.land_keeps)
    | (with_reducible apply State.matrixCycle_keeps) | (with_reducible apply State.modCore_keeps)
    | (with_reducible apply State.netCycle_keeps) | (with_reducible apply State.payOwn_keeps)
    | (with_reducible apply State.readSpad_keeps) | (with_reducible apply State.readSpan_keeps)
    | (with_reducible apply State.scaleCycle_keeps) | (with_reducible apply State.setStream_keeps)
    | (with_reducible apply State.storeCycle_keeps) | (with_reducible apply State.vectorCycle_keeps)
    | (intro _ (_ : Keeps _ _)) | (intro _ _ (_ : Keeps _ _)) | (intro w; refine @keeps_cut pq _ w ?_ ?_; unfold w)
    | (intro _) | (lift_lets) | (with_reducible apply keeps_ite) | split | (dsimp only) | (simp only [keeps_mk])
    | (dsimp +zetaDelta only) | (refine keeps_pair (by assumption) ?_) | (refine keeps_triple (by assumption) ?_))

theorem State.insertCycle_keeps {pq : State} (s : State) (core p : Nat) (w : TreadleWord) (hk : Keeps pq s) :
    Keeps pq (State.insertCycle s core p w) := by
  unfold State.insertCycle
  repeat' (first
    | with_reducible assumption | (with_reducible apply State.land_keeps) | (with_reducible apply State.modCore_keeps)
    | (with_reducible apply State.readScales_keeps) | (with_reducible apply State.stretch_keeps)
    | (intro _ (_ : Keeps _ _)) | (intro _ _ (_ : Keeps _ _)) | (intro w; refine @keeps_cut pq _ w ?_ ?_; unfold w)
    | (intro _) | (lift_lets) | (with_reducible apply keeps_ite) | split | (dsimp only) | (simp only [keeps_mk])
    | (dsimp +zetaDelta only))

theorem State.modScales_keeps {pq : State} (s : State) (core : Nat) (f : ScaleState → ScaleState) (hk : Keeps pq s) :
    Keeps pq (State.modScales s core f) := by
  unfold State.modScales
  repeat' (first
    | with_reducible assumption | (with_reducible apply State.setPipe_keeps) | (intro _) | (lift_lets) | (dsimp only)
    | (simp only [keeps_mk]) | (dsimp +zetaDelta only))

theorem State.primeWord_keeps {pq : State} (s : State) (core p : Nat) (w : TreadleWord) (hk : Keeps pq s) :
    Keeps pq (State.primeWord s core p w) := by
  unfold State.primeWord
  repeat' (first
    | with_reducible assumption | (with_reducible apply keeps_foldl) | (with_reducible apply keeps_foldl_snd)
    | (with_reducible apply State.insertCycle_keeps) | (with_reducible apply State.modScales_keeps)
    | (with_reducible apply State.payScale_keeps) | (intro _ (_ : Keeps _ _)) | (intro _ _ (_ : Keeps _ _))
    | (intro w; refine @keeps_cut pq _ w ?_ ?_; unfold w) | (intro _) | (lift_lets) | (with_reducible apply keeps_ite)
    | split | (dsimp only) | (simp only [keeps_mk]) | (dsimp +zetaDelta only))

theorem State.closeScales_keeps {pq : State} (s : State) (core : Nat) (w : TreadleWord) (hk : Keeps pq s) :
    Keeps pq (State.closeScales s core w) := by
  unfold State.closeScales
  repeat' (first
    | with_reducible assumption | (with_reducible apply State.modScales_keeps) | (intro _ (_ : Keeps _ _))
    | (intro _ _ (_ : Keeps _ _)) | (intro w; refine @keeps_cut pq _ w ?_ ?_; unfold w) | (intro _) | (lift_lets)
    | (with_reducible apply keeps_ite) | split | (dsimp only) | (simp only [keeps_mk]) | (dsimp +zetaDelta only))

theorem State.checkFront_keeps {pq : State} (s : State) (core : Nat) (hk : Keeps pq s) :
    Keeps pq (State.checkFront s core) := by
  unfold State.checkFront
  repeat' (first
    | with_reducible assumption | (with_reducible apply State.endStream_keeps) | (intro _ (_ : Keeps _ _))
    | (intro _ _ (_ : Keeps _ _)) | (intro w; refine @keeps_cut pq _ w ?_ ?_; unfold w) | (intro _) | (lift_lets)
    | (with_reducible apply keeps_ite) | split | (dsimp only) | (dsimp +zetaDelta only))

theorem State.retire_keeps {pq : State} (s : State) (core : Nat) (w : TreadleWord) (hk : Keeps pq s) :
    Keeps pq (State.retire s core w) := by
  unfold State.retire
  repeat' (first
    | with_reducible assumption | (with_reducible apply State.checkFront_keeps)
    | (with_reducible apply State.closeScales_keeps) | (with_reducible apply State.closeStream_keeps)
    | (with_reducible apply State.endStream_keeps) | (with_reducible apply State.payOwn_keeps)
    | (with_reducible apply State.setStream_keeps) | (with_reducible apply State.statusRecord_keeps)
    | (with_reducible apply State.tryEnd_keeps) | (intro w; refine @keeps_cut pq _ w ?_ ?_; unfold w) | (intro _)
    | (lift_lets) | (with_reducible apply keeps_ite) | split | (dsimp only) | (simp only [keeps_mk])
    | (dsimp +zetaDelta only))

theorem State.holdAt_keeps {pq : State} (s : State) (core : Nat) (k : HoldKind) (hk : Keeps pq s) :
    Keeps pq (State.holdAt s core k) := by
  unfold State.holdAt
  repeat' (first
    | with_reducible assumption | (with_reducible apply State.putStream_keeps) | (intro _) | (lift_lets)
    | (with_reducible apply keeps_ite) | split | (dsimp only) | (simp only [keeps_mk]) | (dsimp +zetaDelta only))

theorem State.cycles_keeps {pq : State} (s : State) (core p : Nat) (w : TreadleWord) (y0 : Nat) (hk : Keeps pq s) :
    Keeps pq (State.cycles s core p w y0) := by
  induction y0 generalizing s with
  | zero =>
    unfold State.cycles
    repeat' (first
      | with_reducible assumption | (with_reducible apply State.endStream_keeps)
      | (with_reducible apply State.holdAt_keeps) | (with_reducible apply State.retire_keeps)
      | (with_reducible apply State.runCycle_keeps) | (intro w; refine @keeps_cut pq _ w ?_ ?_; unfold w) | (intro _)
      | (lift_lets) | split | (dsimp only) | (dsimp +zetaDelta only))
  | succ n ih =>
    unfold State.cycles
    repeat' (first
      | with_reducible assumption | (with_reducible apply State.endStream_keeps)
      | (with_reducible apply State.holdAt_keeps) | (with_reducible apply State.retire_keeps)
      | (with_reducible apply State.runCycle_keeps) | (with_reducible apply ih)
      | (intro w; refine @keeps_cut pq _ w ?_ ?_; unfold w) | (intro _) | (lift_lets) | split | (dsimp only)
      | (dsimp +zetaDelta only))


theorem State.runWord_keeps {pq : State} (s : State) (core p : Nat) (w : TreadleWord) (hk : Keeps pq s) :
    Keeps pq (State.runWord s core p w) := by
  unfold State.runWord
  repeat' (first
    | with_reducible assumption | (with_reducible apply State.cycles_keeps)
    | (with_reducible apply State.endStream_keeps) | (with_reducible apply State.holdAt_keeps)
    | (with_reducible apply State.primeWord_keeps) | (with_reducible apply State.setStream_keeps)
    | (intro w; refine @keeps_cut pq _ w ?_ ?_; unfold w) | (intro _) | (lift_lets) | (with_reducible apply keeps_ite)
    | split | (dsimp only) | (simp only [keeps_mk]) | (dsimp +zetaDelta only))

theorem State.illegalWord_keeps {pq : State} (s : State) (core : Nat) (t : Stream) (hk : Keeps pq s) :
    Keeps pq (State.illegalWord s core t) := by
  unfold State.illegalWord
  repeat' (first
    | with_reducible assumption | (with_reducible apply State.teardownFor_keeps) | (intro _) | (lift_lets)
    | (dsimp only) | (simp only [keeps_mk]) | (dsimp +zetaDelta only))

end Sys2Proof.Machine
end

