-- ==== Sys2Proof/Laws/KeepsStreams.lean ====
section
/-!
SUPPORT. The operations of Machine/Streams.lean keep memory canonical and the queue as it is.
-/

namespace Sys2Proof.Machine

theorem State.execWord_keeps {pq : State} (s : State) (core : Nat) (hk : Keeps pq s) :
    Keeps pq (State.execWord s core) := by
  unfold State.execWord
  repeat' (first
    | with_reducible assumption | (with_reducible apply State.illegalWord_keeps)
    | (with_reducible apply State.runWord_keeps) | (with_reducible apply keeps_ite) | split | (dsimp only))

theorem execExec_keeps {pq : State} (c : Core) (s : State) (hk : Keeps pq s) :
    KeepsR pq (execExec c s) := by
  unfold execExec
  repeat' (first
    | with_reducible assumption | (with_reducible apply keepsR_next) | (with_reducible apply State.execWord_keeps)
    | (dsimp only))

theorem State.setupWord_keeps {pq : State} (s : State) (core sop : Nat) (f : TreadleWord → Stream → Pipe → Stream × Pipe) (hk : Keeps pq s) :
    Keeps pq (State.setupWord s core sop f) := by
  unfold State.setupWord
  repeat' (first
    | with_reducible assumption | (with_reducible apply State.holdAt_keeps)
    | (with_reducible apply State.idleCycles_keeps) | (with_reducible apply State.illegalWord_keeps)
    | (with_reducible apply State.modCore_keeps) | (with_reducible apply State.primeWord_keeps)
    | (with_reducible apply State.retire_keeps) | (with_reducible apply State.setPipe_keeps)
    | (with_reducible apply State.setStream_keeps) | (intro _ (_ : Keeps _ _)) | (intro _ _ (_ : Keeps _ _))
    | (intro w; refine @keeps_cut pq _ w ?_ ?_; unfold w) | (intro _) | (lift_lets) | (with_reducible apply keeps_ite)
    | split | (dsimp only) | (simp only [keeps_mk]) | (dsimp +zetaDelta only))

theorem execAgLocal_keeps {pq : State} (c : Core) (s : State) (hk : Keeps pq s) :
    KeepsR pq (execAgLocal c s) := by
  unfold execAgLocal
  repeat' (first
    | with_reducible assumption | (with_reducible apply keepsR_next) | (with_reducible apply State.setupWord_keeps)
    | (intro _ (_ : Keeps _ _)) | (intro _ _ (_ : Keeps _ _)) | (intro _) | (lift_lets) | (dsimp only))

theorem execAgDev_keeps {pq : State} (c : Core) (s : State) (hk : Keeps pq s) :
    KeepsR pq (execAgDev c s) := by
  unfold execAgDev
  repeat' (first
    | with_reducible assumption | (with_reducible apply keepsR_next) | (with_reducible apply State.setupWord_keeps)
    | (intro _ (_ : Keeps _ _)) | (intro _ _ (_ : Keeps _ _)) | (intro _) | (lift_lets) | (dsimp only))

theorem execWaitSet_keeps {pq : State} (c : Core) (s : State) (hk : Keeps pq s) :
    KeepsR pq (execWaitSet c s) := by
  unfold execWaitSet
  repeat' (first
    | with_reducible assumption | (with_reducible apply keepsR_next) | (with_reducible apply State.setupWord_keeps)
    | (intro _ (_ : Keeps _ _)) | (intro _ _ (_ : Keeps _ _)) | (intro _) | (lift_lets) | (dsimp only))

theorem execSrIndex_keeps {pq : State} (c : Core) (s : State) (hk : Keeps pq s) :
    KeepsR pq (execSrIndex c s) := by
  unfold execSrIndex
  repeat' (first
    | with_reducible assumption | (with_reducible apply keepsR_next) | (with_reducible apply State.setupWord_keeps)
    | (intro _ (_ : Keeps _ _)) | (intro _ _ (_ : Keeps _ _)) | (intro _) | (lift_lets) | (dsimp only)
    | (simp only [keeps_mk]) | (dsimp +zetaDelta only))

theorem execEndStream_keeps {pq : State} (c : Core) (s : State) (hk : Keeps pq s) :
    KeepsR pq (execEndStream c s) := by
  unfold execEndStream
  repeat' (first
    | with_reducible assumption | (with_reducible apply keepsR_next) | (with_reducible apply State.setupWord_keeps)
    | (intro _ (_ : Keeps _ _)) | (intro _ _ (_ : Keeps _ _)) | (intro _) | (lift_lets) | (dsimp only))

theorem State.release_keeps {pq : State} (s : State) (core : Nat) (k : HoldKind) (cycles : Word) (hk : Keeps pq s) :
    Keeps pq (State.release s core k cycles) := by
  unfold State.release
  repeat' (first
    | with_reducible assumption | (with_reducible apply State.cycles_keeps)
    | (with_reducible apply State.execWord_keeps) | (with_reducible apply State.modCore_keeps)
    | (with_reducible apply State.putStream_keeps) | (intro _ (_ : Keeps _ _)) | (intro _ _ (_ : Keeps _ _))
    | (intro w; refine @keeps_cut pq _ w ?_ ?_; unfold w) | (intro _) | (lift_lets) | (with_reducible apply keeps_ite)
    | split | (dsimp only) | (simp only [keeps_mk]) | (dsimp +zetaDelta only))

theorem execWaitSatisfied_keeps {pq : State} (c : Core) (cycles : BitVec 32) (s : State) (hk : Keeps pq s) :
    KeepsR pq (execWaitSatisfied c cycles s) := by
  unfold execWaitSatisfied
  repeat' (first
    | with_reducible assumption | (with_reducible apply keepsR_next) | (with_reducible apply State.cycles_keeps)
    | (with_reducible apply State.release_keeps) | (with_reducible apply keeps_ite) | split | (dsimp only))

theorem execFenceComplete_keeps {pq : State} (c : Core) (cycles : BitVec 32) (s : State) (hk : Keeps pq s) :
    KeepsR pq (execFenceComplete c cycles s) := by
  unfold execFenceComplete
  repeat' (first
    | with_reducible assumption | (with_reducible apply keepsR_next) | (with_reducible apply State.cycles_keeps)
    | (with_reducible apply State.release_keeps) | (with_reducible apply keeps_ite) | split | (dsimp only))

theorem execFetchHazardRelease_keeps {pq : State} (c : Core) (s : State) (hk : Keeps pq s) :
    KeepsR pq (execFetchHazardRelease c s) := by
  unfold execFetchHazardRelease
  repeat' (first
    | with_reducible assumption | (with_reducible apply keepsR_next) | (with_reducible apply State.release_keeps)
    | (with_reducible apply keeps_ite) | split | (dsimp only))

theorem execFetchLimitRelease_keeps {pq : State} (c : Core) (cycles : BitVec 32) (s : State) (hk : Keeps pq s) :
    KeepsR pq (execFetchLimitRelease c cycles s) := by
  unfold execFetchLimitRelease
  repeat' (first
    | with_reducible assumption | (with_reducible apply keepsR_next) | (with_reducible apply State.cycles_keeps)
    | (with_reducible apply State.release_keeps) | (with_reducible apply keeps_ite) | split | (dsimp only))

theorem execUnderrunResume_keeps {pq : State} (c : Core) (cycles : BitVec 32) (s : State) (hk : Keeps pq s) :
    KeepsR pq (execUnderrunResume c cycles s) := by
  unfold execUnderrunResume
  repeat' (first
    | with_reducible assumption | (with_reducible apply keepsR_next) | (with_reducible apply State.cycles_keeps)
    | (with_reducible apply State.release_keeps) | split | (dsimp only))

theorem execHoldLimitExpiry_keeps {pq : State} (c : Core) (s : State) (hk : Keeps pq s) :
    KeepsR pq (execHoldLimitExpiry c s) := by
  unfold execHoldLimitExpiry
  repeat' (first
    | with_reducible assumption | (with_reducible apply keepsR_next) | (with_reducible apply State.endStream_keeps)
    | (with_reducible apply keeps_ite) | split | (dsimp only))

theorem State.reachLine_keeps {pq : State} (s : State) (a : Nat) (l : Loc) (x : BankAcc) (hk : Keeps pq s) :
    Keeps pq (State.reachLine s a l x).2 := by
  unfold State.reachLine
  repeat' (first
    | with_reducible assumption | (with_reducible apply State.reach_keeps) | (with_reducible apply keeps_ite) | split
    | (dsimp only) | (refine keeps_pair (by assumption) ?_) | (refine keeps_triple (by assumption) ?_))

theorem State.landLine_keeps {pq : State} (s : State) (core p : Nat) (f : FetchReq) (keep : Bool) (host : HostRead) (j : Nat) (hk : Keeps pq s) :
    Keeps pq (State.landLine s core p f keep host j) := by
  unfold State.landLine
  repeat' (first
    | with_reducible assumption | (with_reducible apply State.fetchLineAt_keeps)
    | (with_reducible apply State.keepOwed_keeps) | (with_reducible apply State.quarantineLine_keeps)
    | (with_reducible apply State.writeSpad_keeps) | (intro w; refine @keeps_cut pq _ w ?_ ?_; unfold w) | (intro _)
    | (lift_lets) | (with_reducible apply keeps_ite) | split | (dsimp only) | (dsimp +zetaDelta only)
    | (refine keeps_pair (by assumption) ?_) | (refine keeps_triple (by assumption) ?_))

theorem State.takeShare_keeps {pq : State} (s : State) (core : Nat) (far : List Nat) (n : Nat) (hk : Keeps pq s) :
    Keeps pq (State.takeShare s core far n) := by
  unfold State.takeShare
  repeat' (first
    | with_reducible assumption | (with_reducible apply State.modCore_keeps) | (intro _ (_ : Keeps _ _))
    | (intro _ _ (_ : Keeps _ _)) | (intro w; refine @keeps_cut pq _ w ?_ ?_; unfold w) | (intro _) | (lift_lets)
    | (dsimp only) | (simp only [keeps_mk]) | (dsimp +zetaDelta only))

theorem State.fetchOne_keeps {pq : State} (s : State) (core id : Nat) (host : HostRead) (j : Nat) (hk : Keeps pq s) :
    Keeps pq (State.fetchOne s core id host j) := by
  unfold State.fetchOne
  repeat' (first
    | with_reducible assumption | (with_reducible apply State.landLine_keeps)
    | (with_reducible apply State.modCore_keeps) | (with_reducible apply State.reachLine_keeps)
    | (with_reducible apply State.takeShare_keeps) | (intro _ (_ : Keeps _ _)) | (intro _ _ (_ : Keeps _ _))
    | (intro w; refine @keeps_cut pq _ w ?_ ?_; unfold w) | (intro _) | (lift_lets) | (with_reducible apply keeps_ite)
    | split | (dsimp only) | (simp only [keeps_mk]) | (dsimp +zetaDelta only) | (refine keeps_pair (by assumption) ?_)
    | (refine keeps_triple (by assumption) ?_))

theorem State.fetchEnd_keeps {pq : State} (s : State) (core id : Nat) (hk : Keeps pq s) :
    Keeps pq (State.fetchEnd s core id) := by
  unfold State.fetchEnd
  repeat' (first
    | with_reducible assumption | (with_reducible apply State.modCore_keeps) | (with_reducible apply State.tcAdd_keeps)
    | (with_reducible apply State.tryEnd_keeps) | (intro _ (_ : Keeps _ _)) | (intro _ _ (_ : Keeps _ _))
    | (intro w; refine @keeps_cut pq _ w ?_ ?_; unfold w) | (intro _) | (lift_lets) | (with_reducible apply keeps_ite)
    | split | (dsimp only) | (simp only [keeps_mk]) | (dsimp +zetaDelta only))

theorem State.fetchLines_keeps {pq : State} (s : State) (core id : Nat) (lines : List Nat) (host : HostRead) (hk : Keeps pq s) :
    Keeps pq (State.fetchLines s core id lines host) := by
  unfold State.fetchLines
  repeat' (first
    | with_reducible assumption | (with_reducible apply keeps_foldl) | (with_reducible apply State.fetchEnd_keeps)
    | (with_reducible apply State.fetchOne_keeps) | (with_reducible apply State.setCore_keeps)
    | (intro _ (_ : Keeps _ _)) | (intro _ _ (_ : Keeps _ _)) | (intro w; refine @keeps_cut pq _ w ?_ ?_; unfold w)
    | (intro _) | (lift_lets) | (with_reducible apply keeps_ite) | split | (dsimp only) | (simp only [keeps_mk])
    | (dsimp +zetaDelta only))

theorem State.fetchLand_keeps {pq : State} (s : State) (core i : Nat) (lines : List Nat) (host : HostRead) (hk : Keeps pq s) :
    Keeps pq (State.fetchLand s core i lines host) := by
  unfold State.fetchLand
  repeat' (first
    | with_reducible assumption | (with_reducible apply State.fetchLines_keeps) | split | (dsimp only))

theorem execFetchLand_keeps {pq : State} (c : Core) (q : ReqLines) (host : HostRead) (s : State) (hk : Keeps pq s) :
    KeepsR pq (execFetchLand c q host s) := by
  unfold execFetchLand
  repeat' (first
    | with_reducible assumption | (with_reducible apply keepsR_next) | (with_reducible apply State.fetchLand_keeps)
    | (with_reducible apply keeps_ite) | split | (dsimp only))

theorem State.putOne_keeps {pq : State} (s : State) (core id j : Nat) (hk : Keeps pq s) :
    Keeps pq (State.putOne s core id j) := by
  unfold State.putOne
  repeat' (first
    | with_reducible assumption | (with_reducible apply State.modCore_keeps)
    | (with_reducible apply State.placeLineAt_keeps) | (with_reducible apply State.reachLine_keeps)
    | (intro _ (_ : Keeps _ _)) | (intro _ _ (_ : Keeps _ _)) | (intro w; refine @keeps_cut pq _ w ?_ ?_; unfold w)
    | (intro _) | (lift_lets) | (with_reducible apply keeps_ite) | split | (dsimp only) | (simp only [keeps_mk])
    | (dsimp +zetaDelta only) | (refine keeps_pair (by assumption) ?_) | (refine keeps_triple (by assumption) ?_))

theorem State.putEnd_keeps {pq : State} (s : State) (core id : Nat) (hk : Keeps pq s) :
    Keeps pq (State.putEnd s core id) := by
  unfold State.putEnd
  repeat' (first
    | with_reducible assumption | (with_reducible apply State.askFlush_keeps)
    | (with_reducible apply State.dropPuts_keeps) | (with_reducible apply State.modCore_keeps)
    | (with_reducible apply State.post_keeps) | (with_reducible apply State.tcAdd_keeps) | (intro _ (_ : Keeps _ _))
    | (intro _ _ (_ : Keeps _ _)) | (intro w; refine @keeps_cut pq _ w ?_ ?_; unfold w) | (intro _) | (lift_lets)
    | (with_reducible apply keeps_ite) | split | (dsimp only) | (simp only [keeps_mk]) | (dsimp +zetaDelta only))

theorem State.putLines_keeps {pq : State} (s : State) (core id : Nat) (lines : List Nat) (hk : Keeps pq s) :
    Keeps pq (State.putLines s core id lines) := by
  unfold State.putLines
  repeat' (first
    | with_reducible assumption | (with_reducible apply keeps_foldl) | (with_reducible apply State.putEnd_keeps)
    | (with_reducible apply State.putOne_keeps) | (intro _ (_ : Keeps _ _)) | (intro _ _ (_ : Keeps _ _)) | (intro _)
    | (lift_lets) | (dsimp only))

theorem State.putCommit_keeps {pq : State} (s : State) (core i : Nat) (lines : List Nat) (hk : Keeps pq s) :
    Keeps pq (State.putCommit s core i lines) := by
  unfold State.putCommit
  repeat' (first
    | with_reducible assumption | (with_reducible apply State.putLines_keeps) | split | (dsimp only))

theorem execPutCommit_keeps {pq : State} (c : Core) (q : ReqLines) (s : State) (hk : Keeps pq s) :
    KeepsR pq (execPutCommit c q s) := by
  unfold execPutCommit
  repeat' (first
    | with_reducible assumption | (with_reducible apply keepsR_next) | (with_reducible apply State.putCommit_keeps)
    | (with_reducible apply keeps_ite) | split | (dsimp only))

theorem State.streamSignal_keeps {pq : State} (s : State) (core : Nat) (hk : Keeps pq s) :
    Keeps pq (State.streamSignal s core) := by
  unfold State.streamSignal
  repeat' (first
    | with_reducible assumption | (with_reducible apply State.setStream_keeps)
    | (with_reducible apply State.tcAdd_keeps) | (with_reducible apply State.tryEnd_keeps) | (intro _ (_ : Keeps _ _))
    | (intro _ _ (_ : Keeps _ _)) | (intro _) | (lift_lets) | (with_reducible apply keeps_ite) | split | (dsimp only)
    | (simp only [keeps_mk]) | (dsimp +zetaDelta only))

theorem execSignal_keeps {pq : State} (c : Core) (s : State) (hk : Keeps pq s) :
    KeepsR pq (execSignal c s) := by
  unfold execSignal
  repeat' (first
    | with_reducible assumption | (with_reducible apply keepsR_next) | (with_reducible apply State.lateSignal_keeps)
    | (with_reducible apply State.streamSignal_keeps) | (dsimp only))

theorem execFarStackShareTick_keeps {pq : State} (s : State) (hk : Keeps pq s) :
    KeepsR pq (execFarStackShareTick s) := by
  unfold execFarStackShareTick
  repeat' (first
    | with_reducible assumption | (with_reducible apply keeps_foldl) | (with_reducible apply keepsR_next)
    | (with_reducible apply State.setCore_keeps) | (intro _ (_ : Keeps _ _)) | (intro _ _ (_ : Keeps _ _))
    | (intro w; refine @keeps_cut pq _ w ?_ ?_; unfold w) | (intro _) | (lift_lets) | (with_reducible apply keeps_ite)
    | split | (dsimp only) | (simp only [keeps_mk]) | (dsimp +zetaDelta only))

theorem State.asyncArrive_keeps {pq : State} (s : State) (core : Nat) (a : AsyncAcc) (slotFree : Bool) (hk : Keeps pq s) :
    Keeps pq (State.asyncArrive s core a slotFree) := by
  unfold State.asyncArrive
  repeat' (first
    | with_reducible assumption | (with_reducible apply State.asyncFirst_keeps)
    | (with_reducible apply State.modCore_keeps) | (intro _ (_ : Keeps _ _)) | (intro _ _ (_ : Keeps _ _))
    | (intro w; refine @keeps_cut pq _ w ?_ ?_; unfold w) | (intro _) | (lift_lets) | (with_reducible apply keeps_ite)
    | split | (dsimp only) | (simp only [keeps_mk]) | (dsimp +zetaDelta only))

theorem execNiWrite_keeps {pq : State} (c : Core) (item : NiItem) (slotFree : Bool) (s : State) (hk : Keeps pq s) :
    KeepsR pq (execNiWrite c item slotFree s) := by
  unfold execNiWrite
  repeat' (first
    | with_reducible assumption | (with_reducible apply keepsR_next) | (with_reducible apply State.asyncArrive_keeps)
    | (dsimp only))

theorem execXoRead_keeps {pq : State} (c : Core) (addr : BitVec 21) (slotFree : Bool) (s : State) (hk : Keeps pq s) :
    KeepsR pq (execXoRead c addr slotFree s) := by
  unfold execXoRead
  repeat' (first
    | with_reducible assumption | (with_reducible apply keepsR_next) | (with_reducible apply State.asyncArrive_keeps)
    | (dsimp only))

theorem execAsyncPortInsert_keeps {pq : State} (c : Core) (s : State) (hk : Keeps pq s) :
    KeepsR pq (execAsyncPortInsert c s) := by
  unfold execAsyncPortInsert
  repeat' (first
    | with_reducible assumption | (with_reducible apply keepsR_next) | (with_reducible apply State.asyncFirst_keeps)
    | (with_reducible apply State.modCore_keeps) | (intro _ (_ : Keeps _ _)) | (intro _ _ (_ : Keeps _ _)) | (intro _)
    | (lift_lets) | (with_reducible apply keeps_ite) | split | (dsimp only) | (simp only [keeps_mk])
    | (dsimp +zetaDelta only))

theorem State.treadleLine_keeps {pq : State} (s : State) (core : Nat) (t : Stream) (l : Loc) (host : HostRead) (k n : Nat) (hk : Keeps pq s) :
    Keeps pq (State.treadleLine s core t l host k n).2 := by
  unfold State.treadleLine
  repeat' (first
    | with_reducible assumption | (with_reducible apply State.fetchLineAt_keeps)
    | (with_reducible apply State.hostRead_keeps) | (with_reducible apply State.quarantineLine_keeps)
    | (intro w; refine @keeps_cut pq _ w ?_ ?_; unfold w) | (intro _) | (lift_lets) | (with_reducible apply keeps_ite)
    | split | (dsimp only) | (dsimp +zetaDelta only) | (refine keeps_pair (by assumption) ?_)
    | (refine keeps_triple (by assumption) ?_))

theorem State.lineReach_keeps {pq : State} (s : State) (core : Nat) (t : Stream) (k : Nat) (hk : Keeps pq s) :
    Keeps pq (State.lineReach s core t k).2 := by
  unfold State.lineReach
  repeat' (first
    | with_reducible assumption | (with_reducible apply State.modCore_keeps)
    | (with_reducible apply State.reachLine_keeps) | (intro _ (_ : Keeps _ _)) | (intro _ _ (_ : Keeps _ _))
    | (intro w; refine @keeps_cut pq _ w ?_ ?_; unfold w) | (intro _) | (lift_lets) | (with_reducible apply keeps_ite)
    | split | (dsimp only) | (simp only [keeps_mk]) | (dsimp +zetaDelta only) | (refine keeps_pair (by assumption) ?_)
    | (refine keeps_triple (by assumption) ?_))

theorem State.tqLineFetch_keeps {pq : State} (s : State) (core : Nat) (host : HostRead) (hk : Keeps pq s) :
    Keeps pq (State.tqLineFetch s core host) := by
  unfold State.tqLineFetch
  repeat' (first
    | with_reducible assumption | (with_reducible apply State.checkFront_keeps)
    | (with_reducible apply State.lineReach_keeps) | (with_reducible apply State.modCore_keeps)
    | (with_reducible apply State.setStream_keeps) | (with_reducible apply State.takeShare_keeps)
    | (with_reducible apply State.treadleLine_keeps) | (intro _ (_ : Keeps _ _)) | (intro _ _ (_ : Keeps _ _))
    | (intro w; refine @keeps_cut pq _ w ?_ ?_; unfold w) | (intro _) | (lift_lets) | (with_reducible apply keeps_ite)
    | split | (dsimp only) | (simp only [keeps_mk]) | (dsimp +zetaDelta only) | (refine keeps_pair (by assumption) ?_)
    | (refine keeps_triple (by assumption) ?_))

theorem execTqLineFetch_keeps {pq : State} (c : Core) (host : HostRead) (s : State) (hk : Keeps pq s) :
    KeepsR pq (execTqLineFetch c host s) := by
  unfold execTqLineFetch
  repeat' (first
    | with_reducible assumption | (with_reducible apply keepsR_next) | (with_reducible apply State.tqLineFetch_keeps)
    | (dsimp only))

theorem State.tqDoorbell_keeps {pq : State} (s : State) (c core : Nat) (v : Word) (hk : Keeps pq s) :
    Keeps pq (State.tqDoorbell s c core v) := by
  unfold State.tqDoorbell
  repeat' (first
    | with_reducible assumption | (with_reducible apply State.doorbell_keeps)
    | (with_reducible apply State.endStream_keeps) | (with_reducible apply State.modCtx_keeps)
    | (with_reducible apply State.modStep_keeps) | (with_reducible apply State.refuseDoorbell_keeps)
    | (with_reducible apply State.setStream_keeps) | (intro _ (_ : Keeps _ _)) | (intro _ _ (_ : Keeps _ _))
    | (intro w; refine @keeps_cut pq _ w ?_ ?_; unfold w) | (intro _) | (lift_lets) | (with_reducible apply keeps_ite)
    | split | (dsimp only) | (simp only [keeps_mk]) | (dsimp +zetaDelta only))

theorem execCtxDbTq_keeps {pq : State} (x : Ctx) (c : Core) (produced : Word) (s : State) (hk : Keeps pq s) :
    KeepsR pq (execCtxDbTq x c produced s) := by
  unfold execCtxDbTq
  repeat' (first
    | with_reducible assumption | (with_reducible apply keepsR_next) | (with_reducible apply State.doorbell_keeps)
    | (with_reducible apply State.tqDoorbell_keeps) | (intro _ (_ : Keeps _ _)) | (intro _ _ (_ : Keeps _ _))
    | (intro _) | (lift_lets) | (dsimp only))

end Sys2Proof.Machine
end

