-- ==== Sys2Proof/Laws/KeepsMemoryCmds.lean ====
section
/-!
SUPPORT. The operations of Machine/MemoryCmds.lean keep memory canonical and the queue as it is.
-/

namespace Sys2Proof.Machine

theorem State.channelRead_keeps {pq : State} (s : State) (a : Nat) (path : Path) (sector : Bool) (l : Loc) (hk : Keeps pq s) :
    Keeps pq (State.channelRead s a path sector l) := by
  unfold State.channelRead
  repeat' (first
    | with_reducible assumption | (with_reducible apply State.reach_keeps)
    | (with_reducible apply State.readMemAt_keeps) | (intro w; refine @keeps_cut pq _ w ?_ ?_; unfold w) | (intro _)
    | (lift_lets) | (with_reducible apply keeps_ite) | split | (dsimp only) | (simp only [keeps_mk])
    | (dsimp +zetaDelta only) | (refine keeps_pair (by assumption) ?_) | (refine keeps_triple (by assumption) ?_))

theorem execChannelRead_keeps {pq : State} (r : ReadAt) (path : Path) (s : State) (hk : Keeps pq s) :
    KeepsR pq (execChannelRead r path s) := by
  unfold execChannelRead
  repeat' (first
    | with_reducible assumption | (with_reducible apply keepsR_next) | (with_reducible apply State.channelRead_keeps)
    | (dsimp only))

theorem State.channelWrite_keeps {pq : State} (s : State) (a : Nat) (data : Line) (mask : LineMask) (poison : Bool) (l : Loc) (hk : Keeps pq s) :
    Keeps pq (State.channelWrite s a data mask poison l) := by
  unfold State.channelWrite
  repeat' (first
    | with_reducible assumption | (with_reducible apply State.reach_keeps)
    | (with_reducible apply State.writeMemAt_keeps) | (intro w; refine @keeps_cut pq _ w ?_ ?_; unfold w) | (intro _)
    | (lift_lets) | (with_reducible apply keeps_ite) | split | (dsimp only) | (dsimp +zetaDelta only)
    | (refine keeps_pair (by assumption) ?_) | (refine keeps_triple (by assumption) ?_))

theorem execChannelWrite_keeps {pq : State} (addr : DevAddr) (data : Line) (mask : LineMask) (poison : Bool) (s : State) (hk : Keeps pq s) :
    KeepsR pq (execChannelWrite addr data mask poison s) := by
  unfold execChannelWrite
  repeat' (first
    | with_reducible assumption | (with_reducible apply keepsR_next) | (with_reducible apply State.channelWrite_keeps)
    | (dsimp only))

theorem State.setThread_keeps {pq : State} (s : State) (k : Nat) (t : ThreadPath) (hk : Keeps pq s) :
    Keeps pq (State.setThread s k t) := by
  unfold State.setThread
  repeat' (first
    | with_reducible assumption | (intro _) | (lift_lets) | (dsimp only) | (simp only [keeps_mk])
    | (simp only [keeps_mkm]) | (dsimp +zetaDelta only))

theorem State.threadTurn_keeps {pq : State} (s : State) (k : Nat) (x : ThreadWait) (n : Nat) (hk : Keeps pq s) :
    Keeps pq (State.threadTurn s k x n).2 := by
  unfold State.threadTurn
  repeat' (first
    | with_reducible assumption | (with_reducible apply State.setThread_keeps)
    | (intro w; refine @keeps_cut pq _ w ?_ ?_; unfold w) | (intro _) | (lift_lets) | (with_reducible apply keeps_ite)
    | split | (dsimp only) | (simp only [keeps_mk]) | (dsimp +zetaDelta only))

theorem State.threadDo_keeps {pq : State} (s : State) (k : Nat) (q : ThreadReq) (hk : Keeps pq s) :
    Keeps pq (State.threadDo s k q) := by
  unfold State.threadDo
  repeat' (first
    | with_reducible assumption | (with_reducible apply State.reach_keeps)
    | (with_reducible apply State.readMemAt_keeps) | (with_reducible apply State.writeMemAt_keeps)
    | (intro w; refine @keeps_cut pq _ w ?_ ?_; unfold w) | (intro _) | (lift_lets) | (with_reducible apply keeps_ite)
    | split | (dsimp only) | (simp only [keeps_mk]) | (dsimp +zetaDelta only) | (refine keeps_pair (by assumption) ?_)
    | (refine keeps_triple (by assumption) ?_))

theorem State.threadAccess_keeps {pq : State} (s : State) (k : Nat) (q : ThreadReq) (hk : Keeps pq s) :
    Keeps pq (State.threadAccess s k q) := by
  unfold State.threadAccess
  repeat' (first
    | with_reducible assumption | (with_reducible apply State.threadDo_keeps)
    | (with_reducible apply State.threadTurn_keeps) | (intro w; refine @keeps_cut pq _ w ?_ ?_; unfold w) | (intro _)
    | (lift_lets) | (with_reducible apply keeps_ite) | split | (dsimp only) | (dsimp +zetaDelta only)
    | (refine keeps_pair (by assumption) ?_) | (refine keeps_triple (by assumption) ?_))

theorem execThreadAccess_keeps {pq : State} (k : Stack) (addr : DevAddr) (wr : Option (BitVec 64)) (s : State) (hk : Keeps pq s) :
    KeepsR pq (execThreadAccess k addr wr s) := by
  unfold execThreadAccess
  repeat' (first
    | with_reducible assumption | (with_reducible apply keepsR_next) | (with_reducible apply State.threadAccess_keeps)
    | (dsimp only))

theorem State.refreshBank_keeps {pq : State} (s : State) (l : Loc) (hk : Keeps pq s) :
    Keeps pq (State.refreshBank s l) := by
  unfold State.refreshBank
  repeat' (first
    | with_reducible assumption | (with_reducible apply State.reach_keeps)
    | (intro w; refine @keeps_cut pq _ w ?_ ?_; unfold w) | (intro _) | (lift_lets) | (with_reducible apply keeps_ite)
    | split | (dsimp only) | (simp only [keeps_mk]) | (simp only [keeps_mkm]) | (dsimp +zetaDelta only)
    | (refine keeps_pair (by assumption) ?_) | (refine keeps_triple (by assumption) ?_))

theorem execRefresh_keeps {pq : State} (k : Stack) (d : Die) (b : Bank) (s : State) (hk : Keeps pq s) :
    KeepsR pq (execRefresh k d b s) := by
  unfold execRefresh
  repeat' (first
    | with_reducible assumption | (with_reducible apply keepsR_next) | (with_reducible apply State.refreshBank_keeps)
    | (dsimp only))

theorem State.refuseBar4_keeps {pq : State} (s : State) (c off : Nat) (hk : Keeps pq s) :
    Keeps pq (State.refuseBar4 s c off) := by
  unfold State.refuseBar4
  repeat' (first
    | with_reducible assumption | (with_reducible apply State.event_keeps) | (with_reducible apply State.modCtx_keeps)
    | (intro _ (_ : Keeps _ _)) | (intro _ _ (_ : Keeps _ _)) | (intro _) | (lift_lets)
    | (with_reducible apply keeps_ite) | split | (dsimp only) | (simp only [keeps_mk]) | (dsimp +zetaDelta only))

theorem State.bar4Lines_keeps {pq : State} (s : State) (y0 : Nat) (y1 : Bar4Req) (hk : Keeps pq s) :
    Keeps pq (State.bar4Lines s y0 y1).2 := by
  induction y0 generalizing s y1 with
  | zero =>
    unfold State.bar4Lines
    repeat' (first
      | with_reducible assumption | (with_reducible apply State.reach_keeps)
      | (with_reducible apply State.readMemAt_keeps) | (with_reducible apply State.writeMemAt_keeps)
      | (intro w; refine @keeps_cut pq _ w ?_ ?_; unfold w) | (intro _) | (lift_lets) | (with_reducible apply keeps_ite)
      | split | (dsimp only) | (simp only [keeps_mk]) | (dsimp +zetaDelta only) | (refine keeps_pair (by assumption) ?_)
      | (refine keeps_triple (by assumption) ?_))
  | succ n ih =>
    unfold State.bar4Lines
    repeat' (first
      | with_reducible assumption | (with_reducible apply State.reach_keeps)
      | (with_reducible apply State.readMemAt_keeps) | (with_reducible apply State.writeMemAt_keeps)
      | (with_reducible apply ih) | (intro w; refine @keeps_cut pq _ w ?_ ?_; unfold w) | (intro _) | (lift_lets)
      | (with_reducible apply keeps_ite) | split | (dsimp only) | (simp only [keeps_mk]) | (dsimp +zetaDelta only)
      | (refine keeps_pair (by assumption) ?_) | (refine keeps_triple (by assumption) ?_))


theorem State.bar4Step_keeps {pq : State} (s : State) (q : Bar4Req) (hk : Keeps pq s) :
    Keeps pq (State.bar4Step s q) := by
  unfold State.bar4Step
  repeat' (first
    | with_reducible assumption | (with_reducible apply State.bar4Lines_keeps) | (intro _ (_ : Keeps _ _))
    | (intro _ _ (_ : Keeps _ _)) | (intro w; refine @keeps_cut pq _ w ?_ ?_; unfold w) | (intro _) | (lift_lets)
    | (with_reducible apply keeps_ite) | split | (dsimp only) | (simp only [keeps_mk]) | (simp only [keeps_mkm])
    | (dsimp +zetaDelta only) | (refine keeps_pair (by assumption) ?_) | (refine keeps_triple (by assumption) ?_))

theorem State.bar4Go_keeps {pq : State} (s : State) (c : Nat) (y0 : Nat) (hk : Keeps pq s) :
    Keeps pq (State.bar4Go s c y0) := by
  induction y0 generalizing s with
  | zero =>
    unfold State.bar4Go
    repeat' (first
      | with_reducible assumption | (with_reducible apply State.bar4Step_keeps) | (intro _ (_ : Keeps _ _))
      | (intro _ _ (_ : Keeps _ _)) | (intro w; refine @keeps_cut pq _ w ?_ ?_; unfold w) | (intro _) | (lift_lets)
      | (with_reducible apply keeps_ite) | split | (dsimp only) | (dsimp +zetaDelta only))
  | succ n ih =>
    unfold State.bar4Go
    repeat' (first
      | with_reducible assumption | (with_reducible apply State.bar4Step_keeps) | (with_reducible apply ih)
      | (intro _ (_ : Keeps _ _)) | (intro _ _ (_ : Keeps _ _)) | (intro w; refine @keeps_cut pq _ w ?_ ?_; unfold w)
      | (intro _) | (lift_lets) | (with_reducible apply keeps_ite) | split | (dsimp only) | (dsimp +zetaDelta only))


theorem State.bar4Accept_keeps {pq : State} (s : State) (c a n : Nat) (data : Option (List (Option Byte))) (hk : Keeps pq s) :
    Keeps pq (State.bar4Accept s c a n data) := by
  unfold State.bar4Accept
  repeat' (first
    | with_reducible assumption | (with_reducible apply State.bar4Go_keeps) | (intro _ (_ : Keeps _ _))
    | (intro _ _ (_ : Keeps _ _)) | (intro w; refine @keeps_cut pq _ w ?_ ?_; unfold w) | (intro _) | (lift_lets)
    | (dsimp only) | (simp only [keeps_mk]) | (simp only [keeps_mkm]) | (dsimp +zetaDelta only))

theorem State.bar4ReadNow_keeps {pq : State} (s : State) (c off n a : Nat) (hk : Keeps pq s) :
    Keeps pq (State.bar4ReadNow s c off n a) := by
  unfold State.bar4ReadNow
  repeat' (first
    | with_reducible assumption | (with_reducible apply State.bar4Accept_keeps)
    | (with_reducible apply State.refuseBar4_keeps) | (intro _) | (lift_lets) | (with_reducible apply keeps_ite)
    | split | (dsimp only) | (simp only [keeps_mk]) | (dsimp +zetaDelta only))

theorem State.bar4WriteNow_keeps {pq : State} (s : State) (c off : Nat) (data : List (Option Byte)) (a : Nat) (hk : Keeps pq s) :
    Keeps pq (State.bar4WriteNow s c off data a) := by
  unfold State.bar4WriteNow
  repeat' (first
    | with_reducible assumption | (with_reducible apply State.bar4Accept_keeps)
    | (with_reducible apply State.refuseBar4_keeps) | (intro w; refine @keeps_cut pq _ w ?_ ?_; unfold w) | (intro _)
    | (lift_lets) | (with_reducible apply keeps_ite) | split | (dsimp only) | (dsimp +zetaDelta only))

theorem State.bar4_keeps {pq : State} (s : State) (c off : Nat) (cmd : Instr) (read : Bool) (f : Nat → State → State) (hk : Keeps pq s) (hf : ∀ x0 x1, Keeps pq x1 → Keeps pq (f x0 x1)) :
    Keeps pq (State.bar4 s c off cmd read f) := by
  unfold State.bar4
  repeat' (first
    | with_reducible assumption | (with_reducible apply hf) | (with_reducible apply State.touch_keeps)
    | (intro w; refine @keeps_cut pq _ w ?_ ?_; unfold w) | (intro _) | (lift_lets) | (with_reducible apply keeps_ite)
    | split | (dsimp only) | (simp only [keeps_mk]) | (dsimp +zetaDelta only))

theorem execBar4Read_keeps {pq : State} (x : Ctx) (off : BitVec 36) (len : Nat) (s : State) (hk : Keeps pq s) :
    KeepsR pq (execBar4Read x off len s) := by
  unfold execBar4Read
  repeat' (first
    | with_reducible assumption | (with_reducible apply keepsR_next) | (with_reducible apply State.bar4_keeps)
    | (with_reducible apply State.bar4ReadNow_keeps) | (intro _ (_ : Keeps _ _)) | (intro _ _ (_ : Keeps _ _))
    | (intro _) | (lift_lets) | (dsimp only))

theorem execBar4Write_keeps {pq : State} (x : Ctx) (off : BitVec 36) (data : List (Option Byte)) (s : State) (hk : Keeps pq s) :
    KeepsR pq (execBar4Write x off data s) := by
  unfold execBar4Write
  repeat' (first
    | with_reducible assumption | (with_reducible apply keepsR_next) | (with_reducible apply State.bar4_keeps)
    | (with_reducible apply State.bar4WriteNow_keeps) | (intro _ (_ : Keeps _ _)) | (intro _ _ (_ : Keeps _ _))
    | (intro _) | (lift_lets) | (dsimp only))

end Sys2Proof.Machine
end

