-- ==== Sys2Proof/Laws/KeepsRecords.lean ====
section
/-!
SUPPORT. The operations of Machine/Records.lean keep memory canonical and the queue as it is.
-/

namespace Sys2Proof.Machine

theorem State.takeRecord_keeps {pq : State} (s : State) (c n : Nat) (hk : Keeps pq s) :
    Keeps pq (State.takeRecord s c n) := by
  unfold State.takeRecord
  repeat' (first
    | with_reducible assumption | (with_reducible apply State.modCtx_keeps)
    | (with_reducible apply State.readAhead_keeps) | (intro _ (_ : Keeps _ _)) | (intro _ _ (_ : Keeps _ _))
    | (intro _) | (lift_lets) | (dsimp only) | (simp only [keeps_mk]) | (dsimp +zetaDelta only))

theorem State.refuseRecord_keeps {pq : State} (s : State) (c kind off : Nat) (tag : Word) (hk : Keeps pq s) :
    Keeps pq (State.refuseRecord s c kind off tag) := by
  unfold State.refuseRecord
  repeat' (first
    | with_reducible assumption | (with_reducible apply State.final_keeps)
    | (with_reducible apply State.takeRecord_keeps) | (intro _) | (lift_lets) | (dsimp only) | (simp only [keeps_mk])
    | (dsimp +zetaDelta only))

theorem State.acceptRecord_keeps {pq : State} (s : State) (c : Nat) (rec_ : Record) (kind : Nat) (bad : Option Nat) (n : Nat) (tag : Word) (f : State → State) (hk : Keeps pq s) (hf : ∀ x0, Keeps pq x0 → Keeps pq (f x0)) :
    Keeps pq (State.acceptRecord s c rec_ kind bad n tag f) := by
  unfold State.acceptRecord
  repeat' (first
    | with_reducible assumption | (with_reducible apply hf) | (with_reducible apply State.refuseRecord_keeps)
    | (with_reducible apply State.takeRecord_keeps) | (with_reducible apply keeps_ite) | split | (dsimp only))

end Sys2Proof.Machine
end

