-- ==== Sys2Proof/Laws/KeepsWinderOps.lean ====
section
/-!
SUPPORT. The operations of Machine/WinderOps.lean keep memory canonical and the queue as it is.
-/

namespace Sys2Proof.Machine

theorem State.accessTurn_keeps {pq : State} (s : State) (a : Nat) (l : Loc) (x : BankAcc) (hk : Keeps pq s) :
    Keeps pq (State.accessTurn s a l x).2 := by
  unfold State.accessTurn
  repeat' (first
    | with_reducible assumption | (with_reducible apply State.reach_keeps) | split | (dsimp only)
    | (refine keeps_pair (by assumption) ?_) | (refine keeps_triple (by assumption) ?_))

theorem State.takeUnit_keeps {pq : State} (s : State) (e : Nat) (d : WDesc) (a : Nat) (l : Loc) (host : HostRead) (hk : Keeps pq s) :
    Keeps pq (State.takeUnit s e d a l host).2 := by
  unfold State.takeUnit
  repeat' (first
    | with_reducible assumption | (with_reducible apply State.fetchLineAt_keeps)
    | (with_reducible apply State.hostRead_keeps) | (with_reducible apply State.readFailed_keeps)
    | (intro w; refine @keeps_cut pq _ w ?_ ?_; unfold w) | (intro _) | (lift_lets) | split | (dsimp only)
    | (dsimp +zetaDelta only) | (refine keeps_pair (by assumption) ?_) | (refine keeps_triple (by assumption) ?_))

theorem State.winderPut_keeps {pq : State} (s : State) (d : WDesc) (a : Nat) (l : Loc) (b : List Nat) (poison : Bool) (hk : Keeps pq s) :
    Keeps pq (State.winderPut s d a l b poison) := by
  unfold State.winderPut
  repeat' (first
    | with_reducible assumption | (with_reducible apply State.placeLineAt_keeps)
    | (with_reducible apply State.post_keeps) | (with_reducible apply State.tcAdd_keeps)
    | (intro w; refine @keeps_cut pq _ w ?_ ?_; unfold w) | (intro _) | (lift_lets) | (with_reducible apply keeps_ite)
    | split | (dsimp only) | (dsimp +zetaDelta only))

end Sys2Proof.Machine
end

