-- ==== Sys2Proof/Laws/KeepsTwineOps.lean ====
section
/-!
SUPPORT. The operations of Machine/TwineOps.lean keep memory canonical and the queue as it is.
-/

namespace Sys2Proof.Machine

theorem State.countPort_keeps {pq : State} (s : State) (p m : Nat) (hk : Keeps pq s) :
    Keeps pq (State.countPort s p m) := by
  unfold State.countPort
  repeat' (first
    | with_reducible assumption | (with_reducible apply State.bumpReg_keeps) | (dsimp only))

theorem State.setPeer_keeps {pq : State} (s : State) (n : Nat) (x : Peer) (hk : Keeps pq s) :
    Keeps pq (State.setPeer s n x) := by
  unfold State.setPeer
  repeat' (first
    | with_reducible assumption | (intro _) | (lift_lets) | (dsimp only) | (simp only [keeps_mk])
    | (dsimp +zetaDelta only))

theorem State.drivePause_keeps {pq : State} (s : State) (p : Nat) (hk : Keeps pq s) :
    Keeps pq (State.drivePause s p) := by
  unfold State.drivePause
  repeat' (first
    | with_reducible assumption | (with_reducible apply State.setPort_keeps)
    | (intro w; refine @keeps_cut pq _ w ?_ ?_; unfold w) | (intro _) | (lift_lets) | (dsimp only)
    | (simp only [keeps_mk]) | (dsimp +zetaDelta only))

theorem State.portState_keeps {pq : State} (s : State) (p : Nat) (st : PortSt) (hk : Keeps pq s) :
    Keeps pq (State.portState s p st) := by
  unfold State.portState
  repeat' (first
    | with_reducible assumption | (with_reducible apply State.event_keeps) | (with_reducible apply State.modPort_keeps)
    | (intro _ (_ : Keeps _ _)) | (intro _ _ (_ : Keeps _ _)) | (intro _) | (lift_lets)
    | (with_reducible apply keeps_ite) | split | (dsimp only) | (simp only [keeps_mk]) | (dsimp +zetaDelta only))

theorem State.failEngine_keeps {pq : State} (s : State) (e serial code addr : Nat) (hk : Keeps pq s) :
    Keeps pq (State.failEngine s e serial code addr) := by
  unfold State.failEngine
  repeat' (first
    | with_reducible assumption | (with_reducible apply State.setEngine_keeps)
    | (intro w; refine @keeps_cut pq _ w ?_ ?_; unfold w) | (intro _) | (lift_lets) | (with_reducible apply keeps_ite)
    | split | (dsimp only) | (simp only [keeps_mk]) | (dsimp +zetaDelta only))

theorem State.resolveFail_keeps {pq : State} (s : State) (r : RemReq) (code : Nat) (hk : Keeps pq s) :
    Keeps pq (State.resolveFail s r code) := by
  unfold State.resolveFail
  repeat' (first
    | with_reducible assumption | (with_reducible apply State.dropReq_keeps)
    | (with_reducible apply State.failEngine_keeps) | (dsimp only))

theorem State.resolveWrite_keeps {pq : State} (s : State) (r : RemReq) (hk : Keeps pq s) :
    Keeps pq (State.resolveWrite s r) := by
  unfold State.resolveWrite
  repeat' (first
    | with_reducible assumption | (with_reducible apply State.dropReq_keeps)
    | (with_reducible apply State.setEngine_keeps) | (intro w; refine @keeps_cut pq _ w ?_ ?_; unfold w) | (intro _)
    | (lift_lets) | (dsimp only) | (simp only [keeps_mk]) | (dsimp +zetaDelta only))

theorem State.landPieces_keeps {pq : State} (s : State) (e : Nat) (y0 : Nat) (hk : Keeps pq s) :
    Keeps pq (State.landPieces s e y0) := by
  induction y0 generalizing s with
  | zero =>
    unfold State.landPieces
    repeat' (first
      | with_reducible assumption | (with_reducible apply State.accessTurn_keeps)
      | (with_reducible apply State.failEngine_keeps) | (with_reducible apply State.land_keeps)
      | (with_reducible apply State.setEngine_keeps) | (with_reducible apply State.winderPut_keeps)
      | (intro _ (_ : Keeps _ _)) | (intro _ _ (_ : Keeps _ _)) | (intro w; refine @keeps_cut pq _ w ?_ ?_; unfold w)
      | (intro _) | (lift_lets) | (with_reducible apply keeps_ite) | split | (dsimp only) | (simp only [keeps_mk])
      | (dsimp +zetaDelta only) | (refine keeps_pair (by assumption) ?_) | (refine keeps_triple (by assumption) ?_))
  | succ n ih =>
    unfold State.landPieces
    repeat' (first
      | with_reducible assumption | (with_reducible apply State.accessTurn_keeps)
      | (with_reducible apply State.failEngine_keeps) | (with_reducible apply State.land_keeps)
      | (with_reducible apply State.setEngine_keeps) | (with_reducible apply State.winderPut_keeps)
      | (with_reducible apply ih) | (intro _ (_ : Keeps _ _)) | (intro _ _ (_ : Keeps _ _))
      | (intro w; refine @keeps_cut pq _ w ?_ ?_; unfold w) | (intro _) | (lift_lets) | (with_reducible apply keeps_ite)
      | split | (dsimp only) | (simp only [keeps_mk]) | (dsimp +zetaDelta only) | (refine keeps_pair (by assumption) ?_)
      | (refine keeps_triple (by assumption) ?_))


theorem State.landData_keeps {pq : State} (s : State) (r : RemReq) (bytes : List Nat) (poison : Nat) (hk : Keeps pq s) :
    Keeps pq (State.landData s r bytes poison) := by
  unfold State.landData
  repeat' (first
    | with_reducible assumption | (with_reducible apply State.dropReq_keeps) | (with_reducible apply State.land_keeps)
    | (with_reducible apply State.landPieces_keeps) | (with_reducible apply State.setEngine_keeps)
    | (intro _ (_ : Keeps _ _)) | (intro _ _ (_ : Keeps _ _)) | (intro w; refine @keeps_cut pq _ w ?_ ?_; unfold w)
    | (intro _) | (lift_lets) | (with_reducible apply keeps_ite) | split | (dsimp only) | (simp only [keeps_mk])
    | (dsimp +zetaDelta only))

theorem State.settleRoutes_keeps {pq : State} (s : State) (hk : Keeps pq s) :
    Keeps pq (State.settleRoutes s) := by
  unfold State.settleRoutes
  repeat' (first
    | with_reducible assumption | (with_reducible apply keeps_foldl) | (with_reducible apply State.resolveFail_keeps)
    | (intro _ (_ : Keeps _ _)) | (intro _ _ (_ : Keeps _ _)) | (intro _) | (lift_lets)
    | (with_reducible apply keeps_ite) | split | (dsimp only))

theorem State.failSent_keeps {pq : State} (s : State) (p : Nat) (hk : Keeps pq s) :
    Keeps pq (State.failSent s p) := by
  unfold State.failSent
  repeat' (first
    | with_reducible assumption | (with_reducible apply keeps_foldl) | (with_reducible apply State.resolveFail_keeps)
    | (intro _ (_ : Keeps _ _)) | (intro _ _ (_ : Keeps _ _)) | (intro _) | (lift_lets)
    | (with_reducible apply keeps_ite) | split | (dsimp only))

theorem State.portOut_keeps {pq : State} (s : State) (p : Nat) (st : PortSt) (hk : Keeps pq s) :
    Keeps pq (State.portOut s p st) := by
  unfold State.portOut
  repeat' (first
    | with_reducible assumption | (with_reducible apply State.failSent_keeps)
    | (with_reducible apply State.portState_keeps) | (with_reducible apply State.setPort_keeps)
    | (with_reducible apply State.settleRoutes_keeps) | (intro _ (_ : Keeps _ _)) | (intro _ _ (_ : Keeps _ _))
    | (intro w; refine @keeps_cut pq _ w ?_ ?_; unfold w) | (intro _) | (lift_lets) | (with_reducible apply keeps_ite)
    | split | (dsimp only) | (simp only [keeps_mk]) | (dsimp +zetaDelta only))

theorem State.portDown_keeps {pq : State} (s : State) (p : Nat) (hk : Keeps pq s) :
    Keeps pq (State.portDown s p) := by
  unfold State.portDown
  repeat' (first
    | with_reducible assumption | (with_reducible apply State.portOut_keeps) | (dsimp only))

theorem State.transmit_keeps {pq : State} (s : State) (p : Nat) (k : TxPkt) (hk : Keeps pq s) :
    Keeps pq (State.transmit s p k) := by
  unfold State.transmit
  repeat' (first
    | with_reducible assumption | (with_reducible apply keeps_foldl) | (with_reducible apply keeps_foldl_snd)
    | (with_reducible apply State.modPort_keeps) | (with_reducible apply State.setPort_keeps)
    | (intro _ (_ : Keeps _ _)) | (intro _ _ (_ : Keeps _ _)) | (intro w; refine @keeps_cut pq _ w ?_ ?_; unfold w)
    | (intro _) | (lift_lets) | (with_reducible apply keeps_ite) | split | (dsimp only) | (simp only [keeps_mk])
    | (dsimp +zetaDelta only))

theorem State.disablePort_keeps {pq : State} (s : State) (p : Nat) (announce : Bool) (hk : Keeps pq s) :
    Keeps pq (State.disablePort s p announce) := by
  unfold State.disablePort
  repeat' (first
    | with_reducible assumption | (with_reducible apply State.portOut_keeps)
    | (with_reducible apply State.transmit_keeps) | (intro w; refine @keeps_cut pq _ w ?_ ?_; unfold w) | (intro _)
    | (lift_lets) | (with_reducible apply keeps_ite) | split | (dsimp only) | (simp only [keeps_mk])
    | (dsimp +zetaDelta only))

theorem State.disablePorts_keeps {pq : State} (s : State) (announce : Bool) (hk : Keeps pq s) :
    Keeps pq (State.disablePorts s announce) := by
  unfold State.disablePorts
  repeat' (first
    | with_reducible assumption | (with_reducible apply keeps_foldl) | (with_reducible apply State.disablePort_keeps)
    | (intro _ (_ : Keeps _ _)) | (intro _ _ (_ : Keeps _ _)) | (intro _) | (lift_lets) | (dsimp only))

theorem State.trainPort_keeps {pq : State} (s : State) (p : Nat) (hk : Keeps pq s) :
    Keeps pq (State.trainPort s p) := by
  unfold State.trainPort
  repeat' (first
    | with_reducible assumption | (with_reducible apply State.modPort_keeps)
    | (with_reducible apply State.portState_keeps) | (intro _ (_ : Keeps _ _)) | (intro _ _ (_ : Keeps _ _))
    | (intro _) | (lift_lets) | (dsimp only) | (simp only [keeps_mk]) | (dsimp +zetaDelta only))

theorem State.queueLnk_keeps {pq : State} (s : State) (p : Nat) (k : TxPkt) (hk : Keeps pq s) :
    Keeps pq (State.queueLnk s p k) := by
  unfold State.queueLnk
  repeat' (first
    | with_reducible assumption | (with_reducible apply State.modPort_keeps)
    | (with_reducible apply State.watchCredit_keeps) | (intro _ (_ : Keeps _ _)) | (intro _ _ (_ : Keeps _ _))
    | (intro _) | (lift_lets) | (dsimp only) | (simp only [keeps_mk]) | (dsimp +zetaDelta only))

theorem State.queueSpdm_keeps {pq : State} (s : State) (p : Nat) (rekey : List LinkDir) (hk : Keeps pq s) :
    Keeps pq (State.queueSpdm s p rekey) := by
  unfold State.queueSpdm
  exact State.watchCredit_keeps _ _ (State.setPort_keeps _ _ _
    ⟨hk.mem, hk.queue, hk.sent, Nat.le_succ_of_le hk.drew⟩)


theorem State.walkOn_keeps {pq : State} (s : State) (k page : Nat) (y0 : Nat) (y1 : Taken) (hk : Keeps pq s) :
    Keeps pq (State.walkOn s k page y0 y1).2.2 := by
  induction y0 generalizing s y1 with
  | zero =>
    unfold State.walkOn
    repeat' (first
      | with_reducible assumption | (with_reducible apply State.reach_keeps) | (with_reducible apply State.readMem_keeps)
      | (with_reducible apply State.threadTurn_keeps) | (intro w; refine @keeps_cut pq _ w ?_ ?_; unfold w) | (intro _)
      | (lift_lets) | (with_reducible apply keeps_ite) | split | (dsimp only) | (simp only [keeps_mk])
      | (dsimp +zetaDelta only) | (refine keeps_pair (by assumption) ?_) | (refine keeps_triple (by assumption) ?_))
  | succ n ih =>
    unfold State.walkOn
    repeat' (first
      | with_reducible assumption | (with_reducible apply State.reach_keeps) | (with_reducible apply State.readMem_keeps)
      | (with_reducible apply State.threadTurn_keeps) | (with_reducible apply ih)
      | (intro w; refine @keeps_cut pq _ w ?_ ?_; unfold w) | (intro _) | (lift_lets) | (with_reducible apply keeps_ite)
      | split | (dsimp only) | (simp only [keeps_mk]) | (dsimp +zetaDelta only) | (refine keeps_pair (by assumption) ?_)
      | (refine keeps_triple (by assumption) ?_))


theorem State.translate_keeps {pq : State} (s : State) (k page : Nat) (hk : Keeps pq s) :
    Keeps pq (State.translate s k page).2 := by
  unfold State.translate
  repeat' (first
    | with_reducible assumption | (with_reducible apply State.modPort_keeps)
    | (with_reducible apply State.setTaken_keeps) | (with_reducible apply State.walkOn_keeps)
    | (intro _ (_ : Keeps _ _)) | (intro _ _ (_ : Keeps _ _)) | (intro w; refine @keeps_cut pq _ w ?_ ?_; unfold w)
    | (intro _) | (lift_lets) | (with_reducible apply keeps_ite) | split | (dsimp only) | (simp only [keeps_mk])
    | (dsimp +zetaDelta only) | (refine keeps_pair (by assumption) ?_) | (refine keeps_triple (by assumption) ?_))

theorem State.serveLines_keeps {pq : State} (s : State) (k : Nat) (h : BitVec 256) (data : List Nat) (y0 : Nat) (y1 : Taken) (hk : Keeps pq s) :
    Keeps pq (State.serveLines s k h data y0 y1).2 := by
  induction y0 generalizing s y1 with
  | zero =>
    unfold State.serveLines
    repeat' (first
      | with_reducible assumption | (with_reducible apply State.reach_keeps)
      | (with_reducible apply State.readMemAt_keeps) | (with_reducible apply State.writeMemAt_keeps)
      | (intro _ (_ : Keeps _ _)) | (intro _ _ (_ : Keeps _ _)) | (intro w; refine @keeps_cut pq _ w ?_ ?_; unfold w)
      | (intro _) | (lift_lets) | (with_reducible apply keeps_ite) | split | (dsimp only) | (simp only [keeps_mk])
      | (dsimp +zetaDelta only) | (refine keeps_pair (by assumption) ?_) | (refine keeps_triple (by assumption) ?_))
  | succ n ih =>
    unfold State.serveLines
    repeat' (first
      | with_reducible assumption | (with_reducible apply State.reach_keeps)
      | (with_reducible apply State.readMemAt_keeps) | (with_reducible apply State.writeMemAt_keeps)
      | (with_reducible apply ih) | (intro _ (_ : Keeps _ _)) | (intro _ _ (_ : Keeps _ _))
      | (intro w; refine @keeps_cut pq _ w ?_ ?_; unfold w) | (intro _) | (lift_lets) | (with_reducible apply keeps_ite)
      | split | (dsimp only) | (simp only [keeps_mk]) | (dsimp +zetaDelta only) | (refine keeps_pair (by assumption) ?_)
      | (refine keeps_triple (by assumption) ?_))


theorem State.judge_keeps {pq : State} (s : State) (k : Nat) (h : BitVec 256) (src : Nat) (hk : Keeps pq s) :
    Keeps pq (State.judge s k h src) := by
  unfold State.judge
  repeat' (first
    | with_reducible assumption | (with_reducible apply State.setTaken_keeps) | (intro _ (_ : Keeps _ _))
    | (intro _ _ (_ : Keeps _ _)) | (intro w; refine @keeps_cut pq _ w ?_ ?_; unfold w) | (intro _) | (lift_lets)
    | (with_reducible apply keeps_ite) | split | (dsimp only) | (simp only [keeps_mk]) | (dsimp +zetaDelta only))

theorem State.serveReq_keeps {pq : State} (s : State) (k : Nat) (h : BitVec 256) (data : List (BitVec 256)) (src : Nat) (hk : Keeps pq s) :
    Keeps pq (State.serveReq s k h data src).2 := by
  unfold State.serveReq
  repeat' (first
    | with_reducible assumption | (with_reducible apply State.judge_keeps)
    | (with_reducible apply State.serveLines_keeps) | (with_reducible apply State.setTaken_keeps)
    | (with_reducible apply State.tcAdd_keeps) | (with_reducible apply State.translate_keeps)
    | (intro w; refine @keeps_cut pq _ w ?_ ?_; unfold w) | (intro _) | (lift_lets) | (with_reducible apply keeps_ite)
    | split | (dsimp only) | (dsimp +zetaDelta only) | (refine keeps_pair (by assumption) ?_)
    | (refine keeps_triple (by assumption) ?_))

theorem State.freeIngress_keeps {pq : State} (s : State) (p cls n : Nat) (hk : Keeps pq s) :
    Keeps pq (State.freeIngress s p cls n) := by
  unfold State.freeIngress
  repeat' (first
    | with_reducible assumption | (with_reducible apply State.modPort_keeps) | (intro _ (_ : Keeps _ _))
    | (intro _ _ (_ : Keeps _ _)) | (intro _) | (lift_lets) | (with_reducible apply keeps_ite) | split | (dsimp only)
    | (simp only [keeps_mk]) | (dsimp +zetaDelta only))

theorem State.serveIngress_keeps {pq : State} (s : State) (p : Nat) (y0 : Nat) (hk : Keeps pq s) :
    Keeps pq (State.serveIngress s p y0) := by
  induction y0 generalizing s with
  | zero =>
    unfold State.serveIngress
    repeat' (first
      | with_reducible assumption | (with_reducible apply State.drivePause_keeps)
      | (with_reducible apply State.freeIngress_keeps) | (with_reducible apply State.modPort_keeps)
      | (with_reducible apply State.serveReq_keeps) | (intro _ (_ : Keeps _ _)) | (intro _ _ (_ : Keeps _ _))
      | (intro w; refine @keeps_cut pq _ w ?_ ?_; unfold w) | (intro _) | (lift_lets) | (with_reducible apply keeps_ite)
      | split | (dsimp only) | (simp only [keeps_mk]) | (dsimp +zetaDelta only) | (refine keeps_pair (by assumption) ?_)
      | (refine keeps_triple (by assumption) ?_))
  | succ n ih =>
    unfold State.serveIngress
    repeat' (first
      | with_reducible assumption | (with_reducible apply State.drivePause_keeps)
      | (with_reducible apply State.freeIngress_keeps) | (with_reducible apply State.modPort_keeps)
      | (with_reducible apply State.serveReq_keeps) | (with_reducible apply ih) | (intro _ (_ : Keeps _ _))
      | (intro _ _ (_ : Keeps _ _)) | (intro w; refine @keeps_cut pq _ w ?_ ?_; unfold w) | (intro _) | (lift_lets)
      | (with_reducible apply keeps_ite) | split | (dsimp only) | (simp only [keeps_mk]) | (dsimp +zetaDelta only)
      | (refine keeps_pair (by assumption) ?_) | (refine keeps_triple (by assumption) ?_))


theorem State.serveAll_keeps {pq : State} (s : State) (p : Nat) (hk : Keeps pq s) :
    Keeps pq (State.serveAll s p) := by
  unfold State.serveAll
  repeat' (first
    | with_reducible assumption | (with_reducible apply State.drivePause_keeps)
    | (with_reducible apply State.serveIngress_keeps) | (with_reducible apply State.watchCredit_keeps)
    | (with_reducible apply keeps_ite) | split | (dsimp only))

theorem State.serveLoopN_keeps {pq : State} (s : State) (e : Nat) (y0 : Nat) (hk : Keeps pq s) :
    Keeps pq (State.serveLoopN s e y0) := by
  induction y0 generalizing s with
  | zero =>
    unfold State.serveLoopN
    repeat' (first
      | with_reducible assumption | (with_reducible apply State.landData_keeps)
      | (with_reducible apply State.resolveFail_keeps) | (with_reducible apply State.resolveWrite_keeps)
      | (with_reducible apply State.serveReq_keeps) | (with_reducible apply State.setEngine_keeps)
      | (intro _ (_ : Keeps _ _)) | (intro _ _ (_ : Keeps _ _)) | (intro w; refine @keeps_cut pq _ w ?_ ?_; unfold w)
      | (intro _) | (lift_lets) | split | (dsimp only) | (simp only [keeps_mk]) | (dsimp +zetaDelta only)
      | (refine keeps_pair (by assumption) ?_) | (refine keeps_triple (by assumption) ?_))
  | succ n ih =>
    unfold State.serveLoopN
    repeat' (first
      | with_reducible assumption | (with_reducible apply State.landData_keeps)
      | (with_reducible apply State.resolveFail_keeps) | (with_reducible apply State.resolveWrite_keeps)
      | (with_reducible apply State.serveReq_keeps) | (with_reducible apply State.setEngine_keeps)
      | (with_reducible apply ih) | (intro _ (_ : Keeps _ _)) | (intro _ _ (_ : Keeps _ _))
      | (intro w; refine @keeps_cut pq _ w ?_ ?_; unfold w) | (intro _) | (lift_lets) | split | (dsimp only)
      | (simp only [keeps_mk]) | (dsimp +zetaDelta only) | (refine keeps_pair (by assumption) ?_)
      | (refine keeps_triple (by assumption) ?_))


theorem State.serveLoop_keeps {pq : State} (s : State) (e : Nat) (hk : Keeps pq s) :
    Keeps pq (State.serveLoop s e) := by
  unfold State.serveLoop
  repeat' (first
    | with_reducible assumption | (with_reducible apply State.serveLoopN_keeps) | (dsimp only))

theorem State.issue_keeps {pq : State} (s : State) (r : RemReq) (tc : Nat) (tcEn : Bool) (data : List (BitVec 256)) (hk : Keeps pq s) :
    KeepsO pq (fun t => t) (State.issue s r tc tcEn data) := by
  unfold State.issue
  repeat' (first
    | with_reducible assumption | (with_reducible apply State.failEngine_keeps)
    | (with_reducible apply State.modPort_keeps) | (with_reducible apply State.setEngine_keeps)
    | (with_reducible apply State.watchCredit_keeps) | (intro _ (_ : Keeps _ _)) | (intro _ _ (_ : Keeps _ _))
    | exact keepsO_none | (with_reducible apply keepsO_some) | (intro w; refine @keeps_cut pq _ w ?_ ?_; unfold w)
    | (intro _) | (lift_lets) | (with_reducible apply keeps_ite) | split | (dsimp only) | (simp only [keeps_mk])
    | (dsimp +zetaDelta only) | (refine keepsO_map ?_ (fun _ => rfl)) | (refine keepsO_pair (by assumption) ?_)
    | (refine keepsO_snd (by assumption) ?_) | (refine keepsO_id (by assumption) ?_))

end Sys2Proof.Machine
end

