-- ==== Sys2Proof/Laws/KeepsRowOps.lean ====
section
/-!
SUPPORT. The operations of Machine/RowOps.lean keep memory canonical and the queue as it is.
-/

namespace Sys2Proof.Machine

theorem State.writeRow_keeps {pq : State} (s : State) (l : Loc) (r : RowImg) (hk : Keeps pq s) :
    Keeps pq (State.writeRow s l r) := by
  unfold State.writeRow
  exact State.unstageRow_keeps _ _ (State.setRowClass_keeps _ _ _
    ⟨⟨ssetMany_wf _ _ _ hk.mem.1, ssetMany_wf _ _ _ hk.mem.2.1, hk.mem.2.2⟩, hk.queue, hk.sent, hk.drew⟩)


theorem State.spindlePass_keeps {pq : State} (s : State) (l : Loc) (r : RowImg) (fresh : Bool) (i : Nat) (hk : Keeps pq s) :
    Keeps pq (State.spindlePass s l r fresh i).2.2 := by
  unfold State.spindlePass
  repeat' (first
    | with_reducible assumption | (with_reducible apply State.countCe_keeps)
    | (with_reducible apply State.foundUe_keeps) | (intro w; refine @keeps_cut pq _ w ?_ ?_; unfold w) | (intro _)
    | (lift_lets) | (with_reducible apply keeps_ite) | split | (dsimp only) | (simp only [keeps_mk])
    | (dsimp +zetaDelta only))

theorem State.throughSpindle_keeps {pq : State} (s : State) (src dst : Loc) (fresh : Bool) (cls : RowClass) (hk : Keeps pq s) :
    Keeps pq (State.throughSpindle s src dst fresh cls) := by
  unfold State.throughSpindle
  repeat' (first
    | with_reducible assumption | (with_reducible apply keeps_foldl) | (with_reducible apply keeps_foldl_snd)
    | (with_reducible apply keeps_foldl_trd) | (with_reducible apply State.spindlePass_keeps)
    | (with_reducible apply State.writeRow_keeps) | (intro _ (_ : Keeps _ _)) | (intro _ _ (_ : Keeps _ _))
    | (intro w; refine @keeps_cut pq _ w ?_ ?_; unfold w) | (intro _) | (lift_lets) | (dsimp only)
    | (dsimp +zetaDelta only) | (refine keeps_pair (by assumption) ?_) | (refine keeps_triple (by assumption) ?_))

theorem State.resealRow_keeps {pq : State} (s : State) (l : Loc) (hk : Keeps pq s) :
    Keeps pq (State.resealRow s l) := by
  unfold State.resealRow
  repeat' (first
    | with_reducible assumption | (with_reducible apply State.throughSpindle_keeps) | (dsimp only))

theorem State.scopyRow_keeps {pq : State} (s : State) (src dst : Loc) (hk : Keeps pq s) :
    Keeps pq (State.scopyRow s src dst) := by
  unfold State.scopyRow
  repeat' (first
    | with_reducible assumption | (with_reducible apply State.throughSpindle_keeps) | (dsimp only))

theorem State.markRaw_keeps {pq : State} (s : State) (l : Loc) (hk : Keeps pq s) :
    Keeps pq (State.markRaw s l) := by
  unfold State.markRaw
  repeat' (first
    | with_reducible assumption | (with_reducible apply State.writeRow_keeps) | (intro _) | (lift_lets) | (dsimp only)
    | (simp only [keeps_mk]) | (dsimp +zetaDelta only))

theorem State.rowOperation_keeps {pq : State} (s : State) (op : Nat) (dst a b c : Loc) (hk : Keeps pq s) :
    Keeps pq (State.rowOperation s op dst a b c) := by
  unfold State.rowOperation
  repeat' (first
    | with_reducible assumption | (with_reducible apply State.markRaw_keeps)
    | (with_reducible apply State.resealRow_keeps) | (with_reducible apply State.scopyRow_keeps)
    | (with_reducible apply State.writeRow_keeps) | split | (dsimp only))

theorem State.zeroBlock_keeps {pq : State} (s : State) (b : Nat) (hk : Keeps pq s) :
    Keeps pq (State.zeroBlock s b) := by
  unfold State.zeroBlock
  repeat' (first
    | with_reducible assumption | (with_reducible apply keeps_foldl) | (with_reducible apply keeps_foldl_snd)
    | (with_reducible apply State.writeRow_keeps) | (intro _ (_ : Keeps _ _)) | (intro _ _ (_ : Keeps _ _)) | (intro _)
    | (lift_lets) | (dsimp only))

theorem State.resealBlock_keeps {pq : State} (s : State) (b : Nat) (hk : Keeps pq s) :
    Keeps pq (State.resealBlock s b) := by
  unfold State.resealBlock
  repeat' (first
    | with_reducible assumption | (with_reducible apply keeps_foldl) | (with_reducible apply keeps_foldl_snd)
    | (with_reducible apply State.resealRow_keeps) | (intro _ (_ : Keeps _ _)) | (intro _ _ (_ : Keeps _ _))
    | (intro _) | (lift_lets) | (dsimp only))

end Sys2Proof.Machine
end

