-- ==== Sys2Proof/Laws/KeepsSpindles.lean ====
section
/-!
SUPPORT. The operations of Machine/Spindles.lean keep memory canonical and the queue as it is.
-/

namespace Sys2Proof.Machine

theorem State.pushStep_keeps {pq : State} (s : State) (k : Nat) (q : PStep) (hk : Keeps pq s) :
    Keeps pq (State.pushStep s k q) := by
  unfold State.pushStep
  repeat' (first
    | with_reducible assumption | (with_reducible apply State.setRow_keeps)
    | (intro w; refine @keeps_cut pq _ w ?_ ?_; unfold w) | (intro _) | (lift_lets) | (dsimp only)
    | (simp only [keeps_mk]) | (dsimp +zetaDelta only))

theorem State.enqueueSpd_keeps {pq : State} (s : State) (n : Nat) (c : SpdCmd) (hk : Keeps pq s) :
    Keeps pq (State.enqueueSpd s n c) := by
  unfold State.enqueueSpd
  repeat' (first
    | with_reducible assumption | (with_reducible apply State.setSpindle_keeps)
    | (intro w; refine @keeps_cut pq _ w ?_ ?_; unfold w) | (intro _) | (lift_lets) | (with_reducible apply keeps_ite)
    | split | (dsimp only) | (simp only [keeps_mk]) | (dsimp +zetaDelta only))

theorem State.modRow_keeps {pq : State} (s : State) (c id : Nat) (f : RowReq → RowReq) (hk : Keeps pq s) :
    Keeps pq (State.modRow s c id f) := by
  unfold State.modRow
  repeat' (first
    | with_reducible assumption | (with_reducible apply State.modCtx_keeps) | (intro _ (_ : Keeps _ _))
    | (intro _ _ (_ : Keeps _ _)) | (intro _) | (lift_lets) | (with_reducible apply keeps_ite) | split | (dsimp only)
    | (simp only [keeps_mk]) | (dsimp +zetaDelta only))

theorem State.sendRowStep_keeps {pq : State} (s : State) (c id : Nat) (b : BitVec 512) (k : Nat) (hk : Keeps pq s) :
    Keeps pq (State.sendRowStep s c id b k) := by
  unfold State.sendRowStep
  repeat' (first
    | with_reducible assumption | (with_reducible apply State.enqueueSpd_keeps)
    | (with_reducible apply State.pushStep_keeps) | (intro w; refine @keeps_cut pq _ w ?_ ?_; unfold w) | (intro _)
    | (lift_lets) | (with_reducible apply keeps_ite) | split | (dsimp only) | (simp only [keeps_mk])
    | (dsimp +zetaDelta only))

theorem State.startRow_keeps {pq : State} (s : State) (c : Nat) (hk : Keeps pq s) :
    Keeps pq (State.startRow s c) := by
  unfold State.startRow
  repeat' (first
    | with_reducible assumption | (with_reducible apply State.modRow_keeps)
    | (with_reducible apply State.sendRowStep_keeps) | (intro _ (_ : Keeps _ _)) | (intro _ _ (_ : Keeps _ _))
    | (intro _) | (lift_lets) | (with_reducible apply keeps_ite) | split | (dsimp only) | (simp only [keeps_mk])
    | (dsimp +zetaDelta only))

theorem State.rowStepDone_keeps {pq : State} (s : State) (c : Nat) (r : RowReq) (k endAt : Nat) (hk : Keeps pq s) :
    Keeps pq (State.rowStepDone s c r k endAt) := by
  unfold State.rowStepDone
  repeat' (first
    | with_reducible assumption | (with_reducible apply State.modRow_keeps)
    | (with_reducible apply State.sendRowStep_keeps) | (with_reducible apply State.tcAdd_keeps)
    | (intro _ (_ : Keeps _ _)) | (intro _ _ (_ : Keeps _ _)) | (intro w; refine @keeps_cut pq _ w ?_ ?_; unfold w)
    | (intro _) | (lift_lets) | (with_reducible apply keeps_ite) | split | (dsimp only) | (simp only [keeps_mk])
    | (dsimp +zetaDelta only))

theorem State.requestStep_keeps {pq : State} (s : State) (k g : Nat) (q : PStep) (c id : Nat) (hk : Keeps pq s) :
    Keeps pq (State.requestStep s k g q c id) := by
  unfold State.requestStep
  repeat' (first
    | with_reducible assumption | (with_reducible apply State.modRow_keeps)
    | (with_reducible apply State.rowOperation_keeps) | (with_reducible apply State.rowStepDone_keeps)
    | (intro _ (_ : Keeps _ _)) | (intro _ _ (_ : Keeps _ _)) | (intro w; refine @keeps_cut pq _ w ?_ ?_; unfold w)
    | (intro _) | (lift_lets) | (with_reducible apply keeps_ite) | split | (dsimp only) | (simp only [keeps_mk])
    | (dsimp +zetaDelta only))

theorem execRowreq_keeps {pq : State} (x : Ctx) (rec : Record) (s : State) (hk : Keeps pq s) :
    KeepsR pq (execRowreq x rec s) := by
  unfold execRowreq
  repeat' (first
    | with_reducible assumption | (with_reducible apply keepsR_next) | (with_reducible apply State.acceptRecord_keeps)
    | (with_reducible apply State.modCtx_keeps) | (with_reducible apply State.startRow_keeps)
    | (intro _ (_ : Keeps _ _)) | (intro _ _ (_ : Keeps _ _)) | (intro _) | (lift_lets) | (dsimp only)
    | (simp only [keeps_mk]) | (dsimp +zetaDelta only))

theorem State.rowreqComplete_keeps {pq : State} (s : State) (c : Nat) (hk : Keeps pq s) :
    Keeps pq (State.rowreqComplete s c) := by
  unfold State.rowreqComplete
  repeat' (first
    | with_reducible assumption | (with_reducible apply State.final_keeps) | (with_reducible apply State.modCtx_keeps)
    | (with_reducible apply State.startRow_keeps) | (intro _ (_ : Keeps _ _)) | (intro _ _ (_ : Keeps _ _)) | (intro _)
    | (lift_lets) | (with_reducible apply keeps_ite) | split | (dsimp only) | (simp only [keeps_mk])
    | (dsimp +zetaDelta only))

theorem execRowreqComplete_keeps {pq : State} (x : Ctx) (s : State) (hk : Keeps pq s) :
    KeepsR pq (execRowreqComplete x s) := by
  unfold execRowreqComplete
  repeat' (first
    | with_reducible assumption | (with_reducible apply keepsR_next)
    | (with_reducible apply State.rowreqComplete_keeps) | (dsimp only))

theorem State.readMask_keeps {pq : State} (s : State) (k : Nat) (c : SpdCmd) (hk : Keeps pq s) :
    Keeps pq (State.readMask s k c).2 := by
  unfold State.readMask
  repeat' (first
    | with_reducible assumption | (with_reducible apply State.spindleLine_keeps)
    | (intro w; refine @keeps_cut pq _ w ?_ ?_; unfold w) | (intro _) | (lift_lets) | (dsimp only)
    | (simp only [keeps_mk]) | (dsimp +zetaDelta only) | (refine keeps_pair (by assumption) ?_)
    | (refine keeps_triple (by assumption) ?_))

theorem State.readScanRow_keeps {pq : State} (s : State) (k : Nat) (c : SpdCmd) (i : Nat) (hk : Keeps pq s) :
    Keeps pq (State.readScanRow s k c i).2 := by
  unfold State.readScanRow
  repeat' (first
    | with_reducible assumption | (with_reducible apply State.scanRowBytes_keeps)
    | (intro w; refine @keeps_cut pq _ w ?_ ?_; unfold w) | (intro _) | (lift_lets) | (dsimp only)
    | (simp only [keeps_mk]) | (dsimp +zetaDelta only) | (refine keeps_pair (by assumption) ?_)
    | (refine keeps_triple (by assumption) ?_))

theorem State.commandData_keeps {pq : State} (s : State) (k : Nat) (c : SpdCmd) (i : Nat) (hk : Keeps pq s) :
    Keeps pq (State.commandData s k c i).2 := by
  unfold State.commandData
  repeat' (first
    | with_reducible assumption | (with_reducible apply State.readMask_keeps)
    | (with_reducible apply State.readScanRow_keeps) | (with_reducible apply State.resealRow_keeps)
    | (with_reducible apply State.scopyRow_keeps) | (intro w; refine @keeps_cut pq _ w ?_ ?_; unfold w) | (intro _)
    | (lift_lets) | (with_reducible apply keeps_ite) | split | (dsimp only) | (dsimp +zetaDelta only)
    | (refine keeps_pair (by assumption) ?_) | (refine keeps_triple (by assumption) ?_))

theorem State.ownerStep_keeps {pq : State} (s : State) (k endAt : Nat) (c : SpdCmd) (hk : Keeps pq s) :
    Keeps pq (State.ownerStep s k endAt c) := by
  unfold State.ownerStep
  repeat' (first
    | with_reducible assumption | (with_reducible apply State.finishTeardown_keeps)
    | (with_reducible apply State.rowStepDone_keeps) | split | (dsimp only))

theorem State.commandStep_keeps {pq : State} (s : State) (g n : Nat) (q : PStep) (hk : Keeps pq s) :
    Keeps pq (State.commandStep s g n q) := by
  unfold State.commandStep
  repeat' (first
    | with_reducible assumption | (with_reducible apply State.commandData_keeps)
    | (with_reducible apply State.ownerStep_keeps) | (with_reducible apply State.pushStep_keeps)
    | (with_reducible apply State.setSpindle_keeps) | (intro w; refine @keeps_cut pq _ w ?_ ?_; unfold w) | (intro _)
    | (lift_lets) | (with_reducible apply keeps_ite) | split | (dsimp only) | (simp only [keeps_mk])
    | (dsimp +zetaDelta only) | (refine keeps_pair (by assumption) ?_) | (refine keeps_triple (by assumption) ?_))

theorem State.stepEffect_keeps {pq : State} (s : State) (k g : Nat) (q : PStep) (hk : Keeps pq s) :
    Keeps pq (State.stepEffect s k g q) := by
  unfold State.stepEffect
  repeat' (first
    | with_reducible assumption | (with_reducible apply State.commandStep_keeps)
    | (with_reducible apply State.requestStep_keeps) | (with_reducible apply State.rowOperation_keeps)
    | (with_reducible apply keeps_ite) | split | (dsimp only))

theorem State.grantStep_keeps {pq : State} (s : State) (k now : Nat) (q : PStep) (hk : Keeps pq s) :
    Keeps pq (State.grantStep s k now q) := by
  unfold State.grantStep
  repeat' (first
    | with_reducible assumption | (with_reducible apply keeps_foldl) | (with_reducible apply keeps_foldl_snd)
    | (with_reducible apply keeps_foldl_trd) | (with_reducible apply State.setRow_keeps)
    | (with_reducible apply State.settle_keeps) | (with_reducible apply State.stepEffect_keeps)
    | (intro _ (_ : Keeps _ _)) | (intro _ _ (_ : Keeps _ _)) | (intro w; refine @keeps_cut pq _ w ?_ ?_; unfold w)
    | (intro _) | (lift_lets) | (with_reducible apply keeps_ite) | split | (dsimp only) | (simp only [keeps_mk])
    | (dsimp +zetaDelta only))

theorem State.tryGrant_keeps {pq : State} (s : State) (k now : Nat) (acc : Bool) (q : PStep) (hk : Keeps pq s) :
    Keeps pq (State.tryGrant s k now acc q).2 := by
  unfold State.tryGrant
  repeat' (first
    | with_reducible assumption | (with_reducible apply State.grantStep_keeps) | (with_reducible apply keeps_ite)
    | split | (dsimp only))

theorem State.reachSclk_keeps {pq : State} (s : State) (k now : Nat) (hk : Keeps pq s) :
    Keeps pq (State.reachSclk s k now) := by
  unfold State.reachSclk
  repeat' (first
    | with_reducible assumption | (with_reducible apply State.setRow_keeps)
    | (intro w; refine @keeps_cut pq _ w ?_ ?_; unfold w) | (intro _) | (lift_lets) | (dsimp only)
    | (simp only [keeps_mk]) | (dsimp +zetaDelta only))

theorem State.stepGrant_keeps {pq : State} (s : State) (k g : Nat) (hk : Keeps pq s) :
    Keeps pq (State.stepGrant s k g) := by
  unfold State.stepGrant
  repeat' (first
    | with_reducible assumption | (with_reducible apply keeps_foldl) | (with_reducible apply keeps_foldl_snd)
    | (with_reducible apply State.bumpReg_keeps) | (with_reducible apply State.reachSclk_keeps)
    | (with_reducible apply State.tryGrant_keeps) | (intro _ (_ : Keeps _ _)) | (intro _ _ (_ : Keeps _ _))
    | (intro w; refine @keeps_cut pq _ w ?_ ?_; unfold w) | (intro _) | (lift_lets) | (with_reducible apply keeps_ite)
    | split | (dsimp only) | (dsimp +zetaDelta only) | (refine keeps_pair (by assumption) ?_)
    | (refine keeps_triple (by assumption) ?_))

theorem execStepGrant_keeps {pq : State} (k : Stack) (g : SclkInTick) (s : State) (hk : Keeps pq s) :
    KeepsR pq (execStepGrant k g s) := by
  unfold execStepGrant
  repeat' (first
    | with_reducible assumption | (with_reducible apply keepsR_next) | (with_reducible apply State.stepGrant_keeps)
    | (dsimp only))

theorem State.offerStep_keeps {pq : State} (s : State) (k : Nat) (q : PStep) (hk : Keeps pq s) :
    Keeps pq (State.offerStep s k q) := by
  unfold State.offerStep
  repeat' (first
    | with_reducible assumption | (with_reducible apply State.grantStep_keeps)
    | (with_reducible apply State.pushStep_keeps) | (intro w; refine @keeps_cut pq _ w ?_ ?_; unfold w) | (intro _)
    | (lift_lets) | (with_reducible apply keeps_ite) | split | (dsimp only) | (dsimp +zetaDelta only))

theorem execBudgetWindow_keeps {pq : State} (k : Stack) (s : State) (hk : Keeps pq s) :
    KeepsR pq (execBudgetWindow k s) := by
  unfold execBudgetWindow
  repeat' (first
    | with_reducible assumption | (with_reducible apply keepsR_next) | (with_reducible apply State.setRow_keeps)
    | (intro w; refine @keeps_cut pq _ w ?_ ?_; unfold w) | (intro _) | (lift_lets) | (with_reducible apply keeps_ite)
    | split | (dsimp only) | (simp only [keeps_mk]) | (dsimp +zetaDelta only))

theorem State.xcmdFault_keeps {pq : State} (s : State) (n : Nat) (x : Xcmd) (hk : Keeps pq s) :
    Keeps pq (State.xcmdFault s n x) := by
  unfold State.xcmdFault
  repeat' (first
    | with_reducible assumption | (with_reducible apply State.log_keeps) | (intro _) | (lift_lets) | (dsimp only)
    | (simp only [keeps_mk]) | (dsimp +zetaDelta only))

theorem State.asXcmd_keeps {pq : State} (s : State) (op k : Nat) (x : Xcmd) (f : State → State) (hk : Keeps pq s) (hf : ∀ x0, Keeps pq x0 → Keeps pq (f x0)) :
    Keeps pq (State.asXcmd s op k x f) := by
  unfold State.asXcmd
  repeat' (first
    | with_reducible assumption | (with_reducible apply hf) | (with_reducible apply State.xcmdFault_keeps)
    | (with_reducible apply keeps_ite) | split | (dsimp only))

theorem State.qloadOne_keeps {pq : State} (s : State) (k ch : Nat) (x : Xcmd) (query : List (BitVec 16)) (i : Nat) (hk : Keeps pq s) :
    Keeps pq (State.qloadOne s k ch x query i) := by
  unfold State.qloadOne
  repeat' (first
    | with_reducible assumption | (with_reducible apply State.setSpindle_keeps)
    | (with_reducible apply State.xcmdFault_keeps) | (intro w; refine @keeps_cut pq _ w ?_ ?_; unfold w) | (intro _)
    | (lift_lets) | (with_reducible apply keeps_ite) | split | (dsimp only) | (simp only [keeps_mk])
    | (dsimp +zetaDelta only))

theorem execQload_keeps {pq : State} (k : Stack) (ch : Channel) (x : Xcmd) (query : List (BitVec 16)) (s : State) (hk : Keeps pq s) :
    KeepsR pq (execQload k ch x query s) := by
  unfold execQload
  repeat' (first
    | with_reducible assumption | (with_reducible apply keeps_foldl) | (with_reducible apply keepsR_next)
    | (with_reducible apply State.asXcmd_keeps) | (with_reducible apply State.qloadOne_keeps)
    | (intro _ (_ : Keeps _ _)) | (intro _ _ (_ : Keeps _ _)) | (intro _) | (lift_lets) | (dsimp only))

theorem State.scanCmd_keeps {pq : State} (s : State) (k ch : Nat) (x : Xcmd) (hk : Keeps pq s) :
    Keeps pq (State.scanCmd s k ch x) := by
  unfold State.scanCmd
  repeat' (first
    | with_reducible assumption | (with_reducible apply State.enqueueSpd_keeps)
    | (with_reducible apply State.xcmdFault_keeps) | (intro w; refine @keeps_cut pq _ w ?_ ?_; unfold w) | (intro _)
    | (lift_lets) | (with_reducible apply keeps_ite) | split | (dsimp only) | (simp only [keeps_mk])
    | (dsimp +zetaDelta only))

theorem execScan_keeps {pq : State} (k : Stack) (ch : Channel) (x : Xcmd) (s : State) (hk : Keeps pq s) :
    KeepsR pq (execScan k ch x s) := by
  unfold execScan
  repeat' (first
    | with_reducible assumption | (with_reducible apply keepsR_next) | (with_reducible apply State.asXcmd_keeps)
    | (with_reducible apply State.scanCmd_keeps) | (intro _ (_ : Keeps _ _)) | (intro _ _ (_ : Keeps _ _)) | (intro _)
    | (lift_lets) | (dsimp only))

theorem State.queuedCmd_keeps {pq : State} (s : State) (k ch : Nat) (x : Xcmd) (hk : Keeps pq s) :
    Keeps pq (State.queuedCmd s k ch x) := by
  unfold State.queuedCmd
  repeat' (first
    | with_reducible assumption | (with_reducible apply State.enqueueSpd_keeps)
    | (with_reducible apply State.xcmdFault_keeps) | (intro w; refine @keeps_cut pq _ w ?_ ?_; unfold w) | (intro _)
    | (lift_lets) | (with_reducible apply keeps_ite) | split | (dsimp only) | (simp only [keeps_mk])
    | (dsimp +zetaDelta only))

theorem execScopy_keeps {pq : State} (k : Stack) (ch : Channel) (x : Xcmd) (s : State) (hk : Keeps pq s) :
    KeepsR pq (execScopy k ch x s) := by
  unfold execScopy
  repeat' (first
    | with_reducible assumption | (with_reducible apply keepsR_next) | (with_reducible apply State.asXcmd_keeps)
    | (with_reducible apply State.queuedCmd_keeps) | (intro _ (_ : Keeps _ _)) | (intro _ _ (_ : Keeps _ _))
    | (intro _) | (lift_lets) | (dsimp only))

theorem execReseal_keeps {pq : State} (k : Stack) (ch : Channel) (x : Xcmd) (s : State) (hk : Keeps pq s) :
    KeepsR pq (execReseal k ch x s) := by
  unfold execReseal
  repeat' (first
    | with_reducible assumption | (with_reducible apply keepsR_next) | (with_reducible apply State.asXcmd_keeps)
    | (with_reducible apply State.queuedCmd_keeps) | (intro _ (_ : Keeps _ _)) | (intro _ _ (_ : Keeps _ _))
    | (intro _) | (lift_lets) | (dsimp only))

theorem State.mkrawCmd_keeps {pq : State} (s : State) (k ch : Nat) (x : Xcmd) (hk : Keeps pq s) :
    Keeps pq (State.mkrawCmd s k ch x) := by
  unfold State.mkrawCmd
  repeat' (first
    | with_reducible assumption | (with_reducible apply keeps_foldl) | (with_reducible apply State.offerStep_keeps)
    | (with_reducible apply State.xcmdFault_keeps) | (intro _ (_ : Keeps _ _)) | (intro _ _ (_ : Keeps _ _))
    | (intro w; refine @keeps_cut pq _ w ?_ ?_; unfold w) | (intro _) | (lift_lets) | (with_reducible apply keeps_ite)
    | split | (dsimp only) | (dsimp +zetaDelta only))

theorem execMkraw_keeps {pq : State} (k : Stack) (ch : Channel) (x : Xcmd) (s : State) (hk : Keeps pq s) :
    KeepsR pq (execMkraw k ch x s) := by
  unfold execMkraw
  repeat' (first
    | with_reducible assumption | (with_reducible apply keepsR_next) | (with_reducible apply State.asXcmd_keeps)
    | (with_reducible apply State.mkrawCmd_keeps) | (intro _ (_ : Keeps _ _)) | (intro _ _ (_ : Keeps _ _)) | (intro _)
    | (lift_lets) | (dsimp only))

theorem State.deliverPartial_keeps {pq : State} (s : State) (p : ScanPlan) (r : PartialRec) (hk : Keeps pq s) :
    Keeps pq (State.deliverPartial s p r) := by
  unfold State.deliverPartial
  repeat' (first
    | with_reducible assumption | (intro _ (_ : Keeps _ _)) | (intro _ _ (_ : Keeps _ _)) | (intro _) | (lift_lets)
    | (with_reducible apply keeps_ite) | split | (dsimp only) | (simp only [keeps_mk]) | (dsimp +zetaDelta only))

theorem State.preadCmd_keeps {pq : State} (s : State) (k ch : Nat) (x : Xcmd) (hk : Keeps pq s) :
    Keeps pq (State.preadCmd s k ch x) := by
  unfold State.preadCmd
  repeat' (first
    | with_reducible assumption | (with_reducible apply keeps_foldl)
    | (with_reducible apply State.deliverPartial_keeps) | (with_reducible apply State.loseSkein_keeps)
    | (with_reducible apply State.setSpindle_keeps) | (with_reducible apply State.xcmdFault_keeps)
    | (intro _ (_ : Keeps _ _)) | (intro _ _ (_ : Keeps _ _)) | (intro w; refine @keeps_cut pq _ w ?_ ?_; unfold w)
    | (intro _) | (lift_lets) | (with_reducible apply keeps_ite) | split | (dsimp only) | (simp only [keeps_mk])
    | (dsimp +zetaDelta only))

theorem execPread_keeps {pq : State} (k : Stack) (ch : Channel) (x : Xcmd) (s : State) (hk : Keeps pq s) :
    KeepsR pq (execPread k ch x s) := by
  unfold execPread
  repeat' (first
    | with_reducible assumption | (with_reducible apply keepsR_next) | (with_reducible apply State.asXcmd_keeps)
    | (with_reducible apply State.preadCmd_keeps) | (intro _ (_ : Keeps _ _)) | (intro _ _ (_ : Keeps _ _)) | (intro _)
    | (lift_lets) | (dsimp only))

theorem State.rowopCmd_keeps {pq : State} (s : State) (k ch : Nat) (x : Xcmd) (hk : Keeps pq s) :
    Keeps pq (State.rowopCmd s k ch x) := by
  unfold State.rowopCmd
  repeat' (first
    | with_reducible assumption | (with_reducible apply State.offerStep_keeps)
    | (with_reducible apply State.xcmdFault_keeps) | (intro w; refine @keeps_cut pq _ w ?_ ?_; unfold w) | (intro _)
    | (lift_lets) | (with_reducible apply keeps_ite) | split | (dsimp only) | (dsimp +zetaDelta only))

theorem State.rowop_keeps {pq : State} (s : State) (op k ch : Nat) (x : Xcmd) (hk : Keeps pq s) :
    Keeps pq (State.rowop s op k ch x) := by
  unfold State.rowop
  repeat' (first
    | with_reducible assumption | (with_reducible apply State.asXcmd_keeps)
    | (with_reducible apply State.rowopCmd_keeps) | (intro _ (_ : Keeps _ _)) | (intro _ _ (_ : Keeps _ _)) | (intro _)
    | (lift_lets) | (with_reducible apply keeps_ite) | split | (dsimp only))

theorem execRowCopy_keeps {pq : State} (k : Stack) (ch : Channel) (x : Xcmd) (s : State) (hk : Keeps pq s) :
    KeepsR pq (execRowCopy k ch x s) := by
  unfold execRowCopy
  repeat' (first
    | with_reducible assumption | (with_reducible apply keepsR_next) | (with_reducible apply State.rowop_keeps)
    | (dsimp only))

theorem execZero_keeps {pq : State} (k : Stack) (ch : Channel) (x : Xcmd) (s : State) (hk : Keeps pq s) :
    KeepsR pq (execZero k ch x s) := by
  unfold execZero
  repeat' (first
    | with_reducible assumption | (with_reducible apply keepsR_next) | (with_reducible apply State.rowop_keeps)
    | (dsimp only))

theorem execNotRow_keeps {pq : State} (k : Stack) (ch : Channel) (x : Xcmd) (s : State) (hk : Keeps pq s) :
    KeepsR pq (execNotRow k ch x s) := by
  unfold execNotRow
  repeat' (first
    | with_reducible assumption | (with_reducible apply keepsR_next) | (with_reducible apply State.rowop_keeps)
    | (dsimp only))

theorem execAndRow_keeps {pq : State} (k : Stack) (ch : Channel) (x : Xcmd) (s : State) (hk : Keeps pq s) :
    KeepsR pq (execAndRow k ch x s) := by
  unfold execAndRow
  repeat' (first
    | with_reducible assumption | (with_reducible apply keepsR_next) | (with_reducible apply State.rowop_keeps)
    | (dsimp only))

theorem execOrRow_keeps {pq : State} (k : Stack) (ch : Channel) (x : Xcmd) (s : State) (hk : Keeps pq s) :
    KeepsR pq (execOrRow k ch x s) := by
  unfold execOrRow
  repeat' (first
    | with_reducible assumption | (with_reducible apply keepsR_next) | (with_reducible apply State.rowop_keeps)
    | (dsimp only))

theorem execXorRow_keeps {pq : State} (k : Stack) (ch : Channel) (x : Xcmd) (s : State) (hk : Keeps pq s) :
    KeepsR pq (execXorRow k ch x s) := by
  unfold execXorRow
  repeat' (first
    | with_reducible assumption | (with_reducible apply keepsR_next) | (with_reducible apply State.rowop_keeps)
    | (dsimp only))

theorem execMaj3_keeps {pq : State} (k : Stack) (ch : Channel) (x : Xcmd) (s : State) (hk : Keeps pq s) :
    KeepsR pq (execMaj3 k ch x s) := by
  unfold execMaj3
  repeat' (first
    | with_reducible assumption | (with_reducible apply keepsR_next) | (with_reducible apply State.rowop_keeps)
    | (dsimp only))

theorem State.spindleStart_keeps {pq : State} (s : State) (n : Nat) (hk : Keeps pq s) :
    Keeps pq (State.spindleStart s n) := by
  unfold State.spindleStart
  repeat' (first
    | with_reducible assumption | (with_reducible apply State.pushStep_keeps)
    | (with_reducible apply State.setSpindle_keeps) | (intro w; refine @keeps_cut pq _ w ?_ ?_; unfold w) | (intro _)
    | (lift_lets) | (with_reducible apply keeps_ite) | split | (dsimp only) | (simp only [keeps_mk])
    | (dsimp +zetaDelta only))

theorem execSpindleCmdStart_keeps {pq : State} (n : SpindleIx) (s : State) (hk : Keeps pq s) :
    KeepsR pq (execSpindleCmdStart n s) := by
  unfold execSpindleCmdStart
  repeat' (first
    | with_reducible assumption | (with_reducible apply keepsR_next) | (with_reducible apply State.spindleStart_keeps)
    | (dsimp only))

theorem State.scanComplete_keeps {pq : State} (s : State) (n : Nat) (epoch : BitVec 8) (g : Nat) (hk : Keeps pq s) :
    Keeps pq (State.scanComplete s n epoch g) := by
  unfold State.scanComplete
  repeat' (first
    | with_reducible assumption | (with_reducible apply State.bumpReg_keeps)
    | (with_reducible apply State.reachSclk_keeps) | (with_reducible apply State.setSpindle_keeps)
    | (intro w; refine @keeps_cut pq _ w ?_ ?_; unfold w) | (intro _) | (lift_lets) | (with_reducible apply keeps_ite)
    | split | (dsimp only) | (simp only [keeps_mk]) | (dsimp +zetaDelta only))

theorem execScanComplete_keeps {pq : State} (e : ScanEnd) (s : State) (hk : Keeps pq s) :
    KeepsR pq (execScanComplete e s) := by
  unfold execScanComplete
  repeat' (first
    | with_reducible assumption | (with_reducible apply keepsR_next) | (with_reducible apply State.scanComplete_keeps)
    | (dsimp only))

theorem State.abortCommand_keeps {pq : State} (s : State) (n : Nat) (q : PStep) (hk : Keeps pq s) :
    Keeps pq (State.abortCommand s n q) := by
  unfold State.abortCommand
  repeat' (first
    | with_reducible assumption | (with_reducible apply State.setSpindle_keeps) | (intro _ (_ : Keeps _ _))
    | (intro _ _ (_ : Keeps _ _)) | (intro w; refine @keeps_cut pq _ w ?_ ?_; unfold w) | (intro _) | (lift_lets)
    | (with_reducible apply keeps_ite) | split | (dsimp only) | (simp only [keeps_mk]) | (dsimp +zetaDelta only))

theorem State.failRequest_keeps {pq : State} (s : State) (c id code : Nat) (hk : Keeps pq s) :
    Keeps pq (State.failRequest s c id code) := by
  unfold State.failRequest
  repeat' (first
    | with_reducible assumption | (with_reducible apply keeps_foldl) | (with_reducible apply State.modRow_keeps)
    | (with_reducible apply State.setRow_keeps) | (with_reducible apply State.setSpindle_keeps)
    | (intro _ (_ : Keeps _ _)) | (intro _ _ (_ : Keeps _ _)) | (intro w; refine @keeps_cut pq _ w ?_ ?_; unfold w)
    | (intro _) | (lift_lets) | (dsimp only) | (simp only [keeps_mk]) | (dsimp +zetaDelta only))

theorem State.freeBanks_keeps {pq : State} (s : State) (k now : Nat) (q : PStep) (hk : Keeps pq s) :
    Keeps pq (State.freeBanks s k now q) := by
  unfold State.freeBanks
  repeat' (first
    | with_reducible assumption | (with_reducible apply keeps_foldl) | (with_reducible apply State.setRow_keeps)
    | (intro _ (_ : Keeps _ _)) | (intro _ _ (_ : Keeps _ _)) | (intro w; refine @keeps_cut pq _ w ?_ ?_; unfold w)
    | (intro _) | (lift_lets) | (with_reducible apply keeps_ite) | split | (dsimp only) | (simp only [keeps_mk])
    | (dsimp +zetaDelta only))

theorem State.abortStep_keeps {pq : State} (s : State) (l : Loc) (now : Nat) (q : PStep) (hk : Keeps pq s) :
    Keeps pq (State.abortStep s l now q) := by
  unfold State.abortStep
  repeat' (first
    | with_reducible assumption | (with_reducible apply keeps_foldl) | (with_reducible apply keeps_foldl_snd)
    | (with_reducible apply State.abortCommand_keeps) | (with_reducible apply State.atBoundary_keeps)
    | (with_reducible apply State.failRequest_keeps) | (with_reducible apply State.freeBanks_keeps)
    | (with_reducible apply State.logAt_keeps) | (with_reducible apply State.rowop_keeps)
    | (with_reducible apply State.setRowClass_keeps) | (intro _ (_ : Keeps _ _)) | (intro _ _ (_ : Keeps _ _))
    | (intro w; refine @keeps_cut pq _ w ?_ ?_; unfold w) | (intro _) | (lift_lets) | (with_reducible apply keeps_ite)
    | split | (dsimp only) | (simp only [keeps_mk]) | (dsimp +zetaDelta only))

end Sys2Proof.Machine
end

