-- ==== Sys2Proof/Laws/KeepsServeOps.lean ====
section
/-!
SUPPORT. The operations of Machine/ServeOps.lean keep memory canonical and the queue as it is.
-/

namespace Sys2Proof.Machine

theorem State.flushRows_keeps {pq : State} (s : State) (blk rows : Nat) (hk : Keeps pq s) :
    Keeps pq (State.flushRows s blk rows) := by
  unfold State.flushRows
  repeat' (first
    | with_reducible assumption | (with_reducible apply keeps_foldl) | (with_reducible apply keeps_foldl_snd)
    | (with_reducible apply State.flushRow_keeps) | (intro _ (_ : Keeps _ _)) | (intro _ _ (_ : Keeps _ _)) | (intro _)
    | (lift_lets) | (dsimp only))

theorem State.copyRowOver_keeps {pq : State} (s : State) (src dst : Nat × Loc) (hk : Keeps pq s) :
    Keeps pq (State.copyRowOver s src dst) := by
  unfold State.copyRowOver
  repeat' (first
    | with_reducible assumption | (with_reducible apply keeps_foldl) | (with_reducible apply keeps_foldl_snd)
    | (with_reducible apply State.readLoc_keeps) | (with_reducible apply State.setRowClass_keeps)
    | (with_reducible apply State.unstageRow_keeps) | (with_reducible apply State.writeLoc_keeps)
    | (intro _ (_ : Keeps _ _)) | (intro _ _ (_ : Keeps _ _)) | (intro w; refine @keeps_cut pq _ w ?_ ?_; unfold w)
    | (intro _) | (lift_lets) | (dsimp only) | (simp only [keeps_mk]) | (dsimp +zetaDelta only)
    | (refine keeps_pair (by assumption) ?_) | (refine keeps_triple (by assumption) ?_))

theorem State.govStep_keeps {pq : State} (s : State) (op : Nat) (l : Loc) (hk : Keeps pq s) :
    Keeps pq (State.govStep s op l) := by
  unfold State.govStep
  repeat' (first
    | with_reducible assumption | (with_reducible apply State.pushStep_keeps) | (dsimp only))

theorem State.govCommand_keeps {pq : State} (s : State) (src : Loc) (dst : Option Loc) (n : Nat) (pri : Bool) (hk : Keeps pq s) :
    Keeps pq (State.govCommand s src dst n pri) := by
  unfold State.govCommand
  repeat' (first
    | with_reducible assumption | (with_reducible apply State.enqueueSpd_keeps) | (intro _) | (lift_lets)
    | (with_reducible apply keeps_ite) | split | (dsimp only) | (simp only [keeps_mk]) | (dsimp +zetaDelta only))

theorem State.copyBlock_keeps {pq : State} (s : State) (src dst rows : Nat) (pri : Bool) (hk : Keeps pq s) :
    Keeps pq (State.copyBlock s src dst rows pri) := by
  unfold State.copyBlock
  repeat' (first
    | with_reducible assumption | (with_reducible apply keeps_foldl) | (with_reducible apply keeps_foldl_snd)
    | (with_reducible apply State.copyRowOver_keeps) | (with_reducible apply State.flushRows_keeps)
    | (with_reducible apply State.govCommand_keeps) | (with_reducible apply State.govStep_keeps)
    | (with_reducible apply State.scopyRow_keeps) | (with_reducible apply State.writeRow_keeps)
    | (intro _ (_ : Keeps _ _)) | (intro _ _ (_ : Keeps _ _)) | (intro w; refine @keeps_cut pq _ w ?_ ?_; unfold w)
    | (intro _) | (lift_lets) | (with_reducible apply keeps_ite) | split | (dsimp only) | (dsimp +zetaDelta only))

theorem State.blockBytes_keeps {pq : State} (s : State) (blk off n : Nat) (hk : Keeps pq s) :
    Keeps pq (State.blockBytes s blk off n).2.2 := by
  unfold State.blockBytes
  repeat' (first
    | with_reducible assumption | (with_reducible apply keeps_foldl) | (with_reducible apply keeps_foldl_snd)
    | (with_reducible apply keeps_foldl_trd) | (with_reducible apply State.flushRow_keeps)
    | (with_reducible apply State.readLoc_keeps) | (intro _ (_ : Keeps _ _)) | (intro _ _ (_ : Keeps _ _))
    | (intro w; refine @keeps_cut pq _ w ?_ ?_; unfold w) | (intro _) | (lift_lets) | (dsimp only)
    | (dsimp +zetaDelta only) | (refine keeps_pair (by assumption) ?_) | (refine keeps_triple (by assumption) ?_))

theorem State.putBlock_keeps {pq : State} (s : State) (blk off : Nat) (b : List Nat) (poison : Bool) (hk : Keeps pq s) :
    Keeps pq (State.putBlock s blk off b poison) := by
  unfold State.putBlock
  repeat' (first
    | with_reducible assumption | (with_reducible apply keeps_foldl) | (with_reducible apply keeps_foldl_snd)
    | (with_reducible apply State.ownWrite_keeps) | (intro _ (_ : Keeps _ _)) | (intro _ _ (_ : Keeps _ _))
    | (intro w; refine @keeps_cut pq _ w ?_ ?_; unfold w) | (intro _) | (lift_lets) | (with_reducible apply keeps_ite)
    | split | (dsimp only) | (dsimp +zetaDelta only))

theorem State.makeMask_keeps {pq : State} (s : State) (b : Nat) (hk : Keeps pq s) :
    Keeps pq (State.makeMask s b) := by
  unfold State.makeMask
  repeat' (first
    | with_reducible assumption | (with_reducible apply State.flushRow_keeps)
    | (with_reducible apply State.govStep_keeps) | (with_reducible apply State.markRaw_keeps)
    | (with_reducible apply State.putBlock_keeps) | (intro w; refine @keeps_cut pq _ w ?_ ?_; unfold w) | (intro _)
    | (lift_lets) | (dsimp only) | (dsimp +zetaDelta only))

theorem State.setSpec_keeps {pq : State} (s : State) (h : Nat) (hk : Keeps pq s) :
    Keeps pq (State.setSpec s h) := by
  unfold State.setSpec
  repeat' (first
    | with_reducible assumption | (with_reducible apply State.makeMask_keeps)
    | (with_reducible apply State.setSkein_keeps) | (intro w; refine @keeps_cut pq _ w ?_ ?_; unfold w) | (intro _)
    | (lift_lets) | (with_reducible apply keeps_ite) | split | (dsimp only) | (simp only [keeps_mk])
    | (dsimp +zetaDelta only))

theorem State.clearSpec_keeps {pq : State} (s : State) (h : Nat) (hk : Keeps pq s) :
    Keeps pq (State.clearSpec s h) := by
  unfold State.clearSpec
  repeat' (first
    | with_reducible assumption | (with_reducible apply State.flushRow_keeps)
    | (with_reducible apply State.govStep_keeps) | (with_reducible apply State.setSkein_keeps)
    | (with_reducible apply State.writeRow_keeps) | (intro w; refine @keeps_cut pq _ w ?_ ?_; unfold w) | (intro _)
    | (lift_lets) | (with_reducible apply keeps_ite) | split | (dsimp only) | (simp only [keeps_mk])
    | (dsimp +zetaDelta only))

theorem State.copySlot_keeps {pq : State} (s : State) (e1 : Skein) (s1 : Nat) (e2 : Skein) (s2 : Nat) (hk : Keeps pq s) :
    Keeps pq (State.copySlot s e1 s1 e2 s2) := by
  unfold State.copySlot
  repeat' (first
    | with_reducible assumption | (with_reducible apply keeps_foldl) | (with_reducible apply keeps_foldl_snd)
    | (with_reducible apply keeps_foldl_trd) | (with_reducible apply State.blockBytes_keeps)
    | (with_reducible apply State.putBlock_keeps) | (intro _ (_ : Keeps _ _)) | (intro _ _ (_ : Keeps _ _))
    | (intro w; refine @keeps_cut pq _ w ?_ ?_; unfold w) | (intro _) | (lift_lets) | (dsimp only)
    | (dsimp +zetaDelta only) | (refine keeps_pair (by assumption) ?_) | (refine keeps_triple (by assumption) ?_))

theorem State.forkBlock_keeps {pq : State} (s : State) (src : Nat) (prev : Option Nat) (hk : Keeps pq s) :
    Keeps pq (State.forkBlock s src prev).2 := by
  unfold State.forkBlock
  repeat' (first
    | with_reducible assumption | (with_reducible apply State.chooseBlock_keeps) | (intro _ (_ : Keeps _ _))
    | (intro _ _ (_ : Keeps _ _)) | (intro _) | (lift_lets) | split | (dsimp only)
    | (refine keeps_pair (by assumption) ?_) | (refine keeps_triple (by assumption) ?_))

theorem State.forkSkein_keeps {pq : State} (s : State) (c h : Nat) (prev : Option Nat) (lc : Bool) (hk : Keeps pq s) :
    KeepsO pq Prod.snd (State.forkSkein s c h prev lc) := by
  unfold State.forkSkein
  repeat' (first
    | with_reducible assumption | (with_reducible apply State.copyBlock_keeps)
    | (with_reducible apply State.draw_keeps) | (with_reducible apply State.forkBlock_keeps)
    | (with_reducible apply State.setOwner_keeps) | (with_reducible apply State.setSkein_keeps) | exact keepsO_none
    | (with_reducible apply keepsO_some) | (intro w; refine @keeps_cut pq _ w ?_ ?_; unfold w) | (intro _)
    | (lift_lets) | (with_reducible apply keeps_ite) | split | (dsimp only) | (simp only [keeps_mk])
    | (dsimp +zetaDelta only) | (refine keepsO_map ?_ (fun _ => rfl)) | (refine keepsO_pair (by assumption) ?_)
    | (refine keepsO_snd (by assumption) ?_) | (refine keepsO_id (by assumption) ?_)
    | (refine keeps_pair (by assumption) ?_) | (refine keeps_triple (by assumption) ?_))

theorem State.extendChain_keeps {pq : State} (s : State) (c : Nat) (m : Model) (spec : Bool) (target : Nat) (y0 : Nat) (y1 : Nat) (y2 : List Nat) (hk : Keeps pq s) :
    KeepsG pq Prod.snd (State.extendChain s c m spec target y0 y1 y2) := by
  induction y0 generalizing s y1 y2 with
  | zero =>
    unfold State.extendChain
    repeat' (first
      | with_reducible assumption | (with_reducible apply State.allocSkein_keeps)
      | (with_reducible apply State.setSpec_keeps) | exact keepsG_lack | exact keepsG_limit
      | (with_reducible apply keepsG_done) | (intro w; refine @keeps_cut pq _ w ?_ ?_; unfold w) | (intro _)
      | (lift_lets) | (with_reducible apply keeps_ite) | split | (dsimp only) | (dsimp +zetaDelta only)
      | (refine keepsG_pair (by assumption) ?_) | (refine keepsG_snd (by assumption) ?_)
      | (refine keepsG_id (by assumption) ?_) | (refine keeps_pair (by assumption) ?_)
      | (refine keeps_triple (by assumption) ?_))
  | succ n ih =>
    unfold State.extendChain
    repeat' (first
      | with_reducible assumption | (with_reducible apply State.allocSkein_keeps)
      | (with_reducible apply State.setSpec_keeps) | (with_reducible apply ih) | exact keepsG_lack | exact keepsG_limit
      | (with_reducible apply keepsG_done) | (intro w; refine @keeps_cut pq _ w ?_ ?_; unfold w) | (intro _)
      | (lift_lets) | (with_reducible apply keeps_ite) | split | (dsimp only) | (dsimp +zetaDelta only)
      | (refine keepsG_pair (by assumption) ?_) | (refine keepsG_snd (by assumption) ?_)
      | (refine keepsG_id (by assumption) ?_) | (refine keeps_pair (by assumption) ?_)
      | (refine keeps_triple (by assumption) ?_))


theorem State.growChain_keeps {pq : State} (s : State) (c : Nat) (lc : Bool) (m : Model) (pos n : Nat) (spec : Bool) (chain : List Nat) (hk : Keeps pq s) :
    KeepsG pq Prod.snd (State.growChain s c lc m pos n spec chain) := by
  unfold State.growChain
  repeat' (first
    | with_reducible assumption | (with_reducible apply State.clearSpec_keeps)
    | (with_reducible apply State.extendChain_keeps) | (with_reducible apply State.forkSkein_keeps)
    | (with_reducible apply State.setSpec_keeps) | exact keepsO_none | (with_reducible apply keepsO_some)
    | exact keepsG_lack | exact keepsG_limit | (with_reducible apply keepsG_done)
    | (intro w; refine @keeps_cut pq _ w ?_ ?_; unfold w) | (intro _) | (lift_lets) | (with_reducible apply keeps_ite)
    | split | (dsimp only) | (dsimp +zetaDelta only) | (refine keepsO_map ?_ (fun _ => rfl))
    | (refine keepsO_pair (by assumption) ?_) | (refine keepsO_snd (by assumption) ?_)
    | (refine keepsO_id (by assumption) ?_) | (refine keepsG_pair (by assumption) ?_)
    | (refine keepsG_snd (by assumption) ?_) | (refine keepsG_id (by assumption) ?_))

theorem State.growSeq_keeps {pq : State} (s : State) (c : Nat) (lc : Bool) (m : Model) (pos n : Nat) (spec : Bool) (ch : Sparse (List Nat)) (y0 : List (Nat × Nat)) (hk : Keeps pq s) :
    KeepsG pq Prod.snd (State.growSeq s c lc m pos n spec ch y0) := by
  induction y0 generalizing s ch with
  | nil =>
    unfold State.growSeq
    repeat' (first
      | with_reducible assumption | (with_reducible apply State.growChain_keeps) | exact keepsG_lack | exact keepsG_limit
      | (with_reducible apply keepsG_done) | (intro w; refine @keeps_cut pq _ w ?_ ?_; unfold w) | (intro _)
      | (lift_lets) | split | (dsimp only) | (dsimp +zetaDelta only) | (refine keepsG_pair (by assumption) ?_)
      | (refine keepsG_snd (by assumption) ?_) | (refine keepsG_id (by assumption) ?_))
  | cons x l ih =>
    unfold State.growSeq
    repeat' (first
      | with_reducible assumption | (with_reducible apply State.growChain_keeps) | (with_reducible apply ih)
      | exact keepsG_lack | exact keepsG_limit | (with_reducible apply keepsG_done)
      | (intro w; refine @keeps_cut pq _ w ?_ ?_; unfold w) | (intro _) | (lift_lets) | split | (dsimp only)
      | (dsimp +zetaDelta only) | (refine keepsG_pair (by assumption) ?_) | (refine keepsG_snd (by assumption) ?_)
      | (refine keepsG_id (by assumption) ?_))


theorem State.raiseChain_keeps {pq : State} (s : State) (top com : Nat) (y0 : List Nat) (hk : Keeps pq s) :
    Keeps pq (State.raiseChain s top com y0) := by
  induction y0 generalizing s with
  | nil =>
    unfold State.raiseChain
    repeat' (first
      | with_reducible assumption | (with_reducible apply State.setSkein_keeps)
      | (intro w; refine @keeps_cut pq _ w ?_ ?_; unfold w) | (intro _) | (lift_lets) | split | (dsimp only)
      | (simp only [keeps_mk]) | (dsimp +zetaDelta only))
  | cons x l ih =>
    unfold State.raiseChain
    repeat' (first
      | with_reducible assumption | (with_reducible apply State.setSkein_keeps) | (with_reducible apply ih)
      | (intro w; refine @keeps_cut pq _ w ?_ ?_; unfold w) | (intro _) | (lift_lets) | split | (dsimp only)
      | (simp only [keeps_mk]) | (dsimp +zetaDelta only))


theorem State.raiseSeq_keeps {pq : State} (s : State) (ch : Sparse (List Nat)) (top com : Nat) (hk : Keeps pq s) :
    Keeps pq (State.raiseSeq s ch top com) := by
  unfold State.raiseSeq
  repeat' (first
    | with_reducible assumption | (with_reducible apply keeps_foldl) | (with_reducible apply keeps_foldl_snd)
    | (with_reducible apply State.raiseChain_keeps) | (intro _ (_ : Keeps _ _)) | (intro _ _ (_ : Keeps _ _))
    | (intro _) | (lift_lets) | (dsimp only))

theorem State.parkSeq_keeps {pq : State} (s : State) (uid i : Nat) (wanting : Bool) (hk : Keeps pq s) :
    Keeps pq (State.parkSeq s uid i wanting) := by
  unfold State.parkSeq
  repeat' (first
    | with_reducible assumption | (with_reducible apply State.event_keeps) | (with_reducible apply State.modCtx_keeps)
    | (with_reducible apply State.modSeq_keeps) | (intro _ (_ : Keeps _ _)) | (intro _ _ (_ : Keeps _ _))
    | (intro w; refine @keeps_cut pq _ w ?_ ?_; unfold w) | (intro _) | (lift_lets) | (with_reducible apply keeps_ite)
    | split | (dsimp only) | (simp only [keeps_mk]) | (dsimp +zetaDelta only))

theorem State.unparkSeq_keeps {pq : State} (s : State) (uid i : Nat) (hk : Keeps pq s) :
    Keeps pq (State.unparkSeq s uid i) := by
  unfold State.unparkSeq
  repeat' (first
    | with_reducible assumption | (with_reducible apply State.modSeq_keeps) | (intro _ (_ : Keeps _ _))
    | (intro _ _ (_ : Keeps _ _)) | (intro _) | (lift_lets) | (with_reducible apply keeps_ite) | split | (dsimp only)
    | (simp only [keeps_mk]) | (dsimp +zetaDelta only))

theorem State.addStat_keeps {pq : State} (s : State) (c i n : Nat) (hk : Keeps pq s) :
    Keeps pq (State.addStat s c i n) := by
  unfold State.addStat
  repeat' (first
    | with_reducible assumption | (intro _ (_ : Keeps _ _)) | (intro _ _ (_ : Keeps _ _)) | (intro _) | (lift_lets)
    | (dsimp only) | (simp only [keeps_mk]) | (dsimp +zetaDelta only))

theorem State.planSpill_keeps {pq : State} (s : State) (c : Nat) (y0 : List Nat) (hk : Keeps pq s) :
    KeepsO pq (fun t => t) (State.planSpill s c y0) := by
  induction y0 generalizing s with
  | nil =>
    unfold State.planSpill
    repeat' (first
      | with_reducible assumption | (with_reducible apply State.setSkein_keeps)
      | (with_reducible apply State.setSpill_keeps) | exact keepsO_none | (with_reducible apply keepsO_some) | (intro _)
      | (lift_lets) | (with_reducible apply keeps_ite) | split | (dsimp only) | (simp only [keeps_mk])
      | (dsimp +zetaDelta only) | (refine keepsO_map ?_ (fun _ => rfl)) | (refine keepsO_pair (by assumption) ?_)
      | (refine keepsO_snd (by assumption) ?_) | (refine keepsO_id (by assumption) ?_))
  | cons x l ih =>
    unfold State.planSpill
    repeat' (first
      | with_reducible assumption | (with_reducible apply State.setSkein_keeps)
      | (with_reducible apply State.setSpill_keeps) | (with_reducible apply ih) | exact keepsO_none
      | (with_reducible apply keepsO_some) | (intro _) | (lift_lets) | (with_reducible apply keeps_ite) | split
      | (dsimp only) | (simp only [keeps_mk]) | (dsimp +zetaDelta only) | (refine keepsO_map ?_ (fun _ => rfl))
      | (refine keepsO_pair (by assumption) ?_) | (refine keepsO_snd (by assumption) ?_)
      | (refine keepsO_id (by assumption) ?_))


theorem State.evict_keeps {pq : State} (s : State) (v : Victim) (hk : Keeps pq s) :
    Keeps pq (State.evict s v) := by
  unfold State.evict
  repeat' (first
    | with_reducible assumption | (with_reducible apply State.addStat_keeps)
    | (with_reducible apply State.endSeq_keeps) | (with_reducible apply State.freeHeldWhere_keeps)
    | (with_reducible apply State.parkSeq_keeps) | (with_reducible apply State.planSpill_keeps)
    | (with_reducible apply State.settleHank_keeps) | (intro _ (_ : Keeps _ _)) | (intro _ _ (_ : Keeps _ _))
    | exact keepsO_none | (with_reducible apply keepsO_some) | (intro w; refine @keeps_cut pq _ w ?_ ?_; unfold w)
    | (intro _) | (lift_lets) | (with_reducible apply keeps_ite) | split | (dsimp only) | (dsimp +zetaDelta only)
    | (refine keepsO_map ?_ (fun _ => rfl)) | (refine keepsO_pair (by assumption) ?_)
    | (refine keepsO_snd (by assumption) ?_) | (refine keepsO_id (by assumption) ?_))

theorem State.evictList_keeps {pq : State} (s : State) (c need : Nat) (donors : Bool) (y0 : List Victim) (hk : Keeps pq s) :
    Keeps pq (State.evictList s c need donors y0) := by
  induction y0 generalizing s with
  | nil =>
    unfold State.evictList
    repeat' (first
      | with_reducible assumption | (with_reducible apply State.evict_keeps)
      | (intro w; refine @keeps_cut pq _ w ?_ ?_; unfold w) | (intro _) | (lift_lets) | (with_reducible apply keeps_ite)
      | split | (dsimp only) | (dsimp +zetaDelta only))
  | cons x l ih =>
    unfold State.evictList
    repeat' (first
      | with_reducible assumption | (with_reducible apply State.evict_keeps) | (with_reducible apply ih)
      | (intro w; refine @keeps_cut pq _ w ?_ ?_; unfold w) | (intro _) | (lift_lets) | (with_reducible apply keeps_ite)
      | split | (dsimp only) | (dsimp +zetaDelta only))


theorem State.reclaim_keeps {pq : State} (s : State) (uid c need : Nat) (hk : Keeps pq s) :
    Keeps pq (State.reclaim s uid c need) := by
  unfold State.reclaim
  repeat' (first
    | with_reducible assumption | (with_reducible apply State.evictList_keeps) | (intro _ (_ : Keeps _ _))
    | (intro _ _ (_ : Keeps _ _)) | (intro w; refine @keeps_cut pq _ w ?_ ?_; unfold w) | (intro _) | (lift_lets)
    | (dsimp only) | (dsimp +zetaDelta only))

theorem State.obtain_keeps {pq : State} (s : State) (h : Hank) (m : Model) (i : Nat) (hk : Keeps pq s) :
    KeepsG pq (fun t => t) (State.obtain s h m i) := by
  unfold State.obtain
  repeat' (first
    | with_reducible assumption | (with_reducible apply State.growSeq_keeps)
    | (with_reducible apply State.modSeq_keeps) | (intro _ (_ : Keeps _ _)) | (intro _ _ (_ : Keeps _ _))
    | exact keepsG_lack | exact keepsG_limit | (with_reducible apply keepsG_done)
    | (intro w; refine @keeps_cut pq _ w ?_ ?_; unfold w) | (intro _) | (lift_lets) | split | (dsimp only)
    | (simp only [keeps_mk]) | (dsimp +zetaDelta only) | (refine keepsG_pair (by assumption) ?_)
    | (refine keepsG_snd (by assumption) ?_) | (refine keepsG_id (by assumption) ?_))

theorem State.retrySeq_keeps {pq : State} (s : State) (uid i : Nat) (hk : Keeps pq s) :
    Keeps pq (State.retrySeq s uid i) := by
  unfold State.retrySeq
  repeat' (first
    | with_reducible assumption | (with_reducible apply State.endSeq_keeps) | (with_reducible apply State.modSeq_keeps)
    | (with_reducible apply State.obtain_keeps) | (with_reducible apply State.reclaim_keeps)
    | (with_reducible apply State.settleHank_keeps) | (with_reducible apply State.unparkSeq_keeps)
    | (intro _ (_ : Keeps _ _)) | (intro _ _ (_ : Keeps _ _)) | exact keepsG_lack | exact keepsG_limit
    | (with_reducible apply keepsG_done) | (intro w; refine @keeps_cut pq _ w ?_ ?_; unfold w) | (intro _)
    | (lift_lets) | (with_reducible apply keeps_ite) | split | (dsimp only) | (simp only [keeps_mk])
    | (dsimp +zetaDelta only) | (refine keepsG_pair (by assumption) ?_) | (refine keepsG_snd (by assumption) ?_)
    | (refine keepsG_id (by assumption) ?_))

theorem State.rejoin_keeps {pq : State} (s : State) (handle : Nat) (hk : Keeps pq s) :
    Keeps pq (State.rejoin s handle) := by
  unfold State.rejoin
  repeat' (first
    | with_reducible assumption | (with_reducible apply keeps_foldl) | (with_reducible apply State.noteReady_keeps)
    | (with_reducible apply State.unparkSeq_keeps) | (intro _ (_ : Keeps _ _)) | (intro _ _ (_ : Keeps _ _))
    | (intro w; refine @keeps_cut pq _ w ?_ ?_; unfold w) | (intro _) | (lift_lets) | (with_reducible apply keeps_ite)
    | split | (dsimp only) | (dsimp +zetaDelta only))

end Sys2Proof.Machine
end

