-- ==== Sys2Proof/Laws/KeepsSkeinCmds.lean ====
section
/-!
SUPPORT. The operations of Machine/SkeinCmds.lean keep memory canonical and the queue as it is.
-/

namespace Sys2Proof.Machine

theorem State.setZeroed_keeps {pq : State} (s : State) (b : Nat) (hk : Keeps pq s) :
    Keeps pq (State.setZeroed s b) := by
  unfold State.setZeroed
  repeat' (first
    | with_reducible assumption | (intro _) | (lift_lets) | (with_reducible apply keeps_ite) | split | (dsimp only)
    | (simp only [keeps_mk]) | (dsimp +zetaDelta only))

theorem State.keepStuck_keeps {pq : State} (s : State) (x : List (Loc × List Nat × List Nat)) (hk : Keeps pq s) :
    Keeps pq (State.keepStuck s x) := by
  unfold State.keepStuck
  repeat' (first
    | with_reducible assumption | (with_reducible apply keeps_foldl) | (with_reducible apply keeps_foldl_snd)
    | (with_reducible apply keeps_foldl_trd) | (with_reducible apply State.setRawChk_keeps)
    | (with_reducible apply State.setRawData_keeps) | (intro _ (_ : Keeps _ _)) | (intro _ _ (_ : Keeps _ _))
    | (intro _) | (lift_lets) | (dsimp only))

theorem State.checkLost_keeps {pq : State} (s : State) (b : Nat) (kept : List (Loc × List Nat × List Nat)) (hk : Keeps pq s) :
    Keeps pq (State.checkLost s b kept) := by
  unfold State.checkLost
  repeat' (first
    | with_reducible assumption | (with_reducible apply keeps_foldl) | (with_reducible apply keeps_foldl_snd)
    | (with_reducible apply State.govCommand_keeps) | (with_reducible apply State.keepStuck_keeps)
    | (with_reducible apply State.log_keeps) | (with_reducible apply State.logAt_keeps)
    | (with_reducible apply State.resealBlock_keeps) | (intro _ (_ : Keeps _ _)) | (intro _ _ (_ : Keeps _ _))
    | (intro w; refine @keeps_cut pq _ w ?_ ?_; unfold w) | (intro _) | (lift_lets) | (with_reducible apply keeps_ite)
    | split | (dsimp only) | (simp only [keeps_mk]) | (dsimp +zetaDelta only))

theorem State.blockZero_keeps {pq : State} (s : State) (b : Nat) (stuck : List Nat) (hk : Keeps pq s) :
    Keeps pq (State.blockZero s b stuck) := by
  unfold State.blockZero
  repeat' (first
    | with_reducible assumption | (with_reducible apply keeps_foldl) | (with_reducible apply keeps_foldl_snd)
    | (with_reducible apply State.checkLost_keeps) | (with_reducible apply State.govStep_keeps)
    | (with_reducible apply State.setZeroed_keeps) | (with_reducible apply State.zeroBlock_keeps)
    | (intro _ (_ : Keeps _ _)) | (intro _ _ (_ : Keeps _ _)) | (intro w; refine @keeps_cut pq _ w ?_ ?_; unfold w)
    | (intro _) | (lift_lets) | (with_reducible apply keeps_ite) | split | (dsimp only) | (dsimp +zetaDelta only))

theorem execBlockZero_keeps {pq : State} (b : BitVec 22) (stuck : List Nat) (s : State) (hk : Keeps pq s) :
    KeepsR pq (execBlockZero b stuck s) := by
  unfold execBlockZero
  repeat' (first
    | with_reducible assumption | (with_reducible apply keepsR_next) | (with_reducible apply State.blockZero_keeps)
    | (dsimp only))

theorem State.copyDone_keeps {pq : State} (s : State) (g : GovCopy) (hk : Keeps pq s) :
    Keeps pq (State.copyDone s g) := by
  unfold State.copyDone
  repeat' (first
    | with_reducible assumption | (with_reducible apply keeps_foldl) | (with_reducible apply State.setEngine_keeps)
    | (intro _ (_ : Keeps _ _)) | (intro _ _ (_ : Keeps _ _)) | (intro _) | (lift_lets)
    | (with_reducible apply keeps_ite) | split | (dsimp only) | (simp only [keeps_mk]) | (dsimp +zetaDelta only))

theorem execSkeinRelocateStart_keeps {pq : State} (h : BitVec 22) (dest : BitVec 22) (s : State) (hk : Keeps pq s) :
    KeepsR pq (execSkeinRelocateStart h dest s) := by
  unfold execSkeinRelocateStart
  repeat' (first
    | with_reducible assumption | (with_reducible apply keepsR_next) | (with_reducible apply State.setOwner_keeps)
    | (with_reducible apply State.setSkein_keeps) | (intro w; refine @keeps_cut pq _ w ?_ ?_; unfold w) | (intro _)
    | (lift_lets) | (with_reducible apply keeps_ite) | split | (dsimp only) | (simp only [keeps_mk])
    | (dsimp +zetaDelta only))

theorem State.relocateComplete_keeps {pq : State} (s : State) (h : Nat) (hk : Keeps pq s) :
    Keeps pq (State.relocateComplete s h) := by
  unfold State.relocateComplete
  repeat' (first
    | with_reducible assumption | (with_reducible apply State.copyBlock_keeps)
    | (with_reducible apply State.copyDone_keeps) | (with_reducible apply State.endEvac_keeps)
    | (with_reducible apply State.freeSkein_keeps) | (with_reducible apply State.makeMask_keeps)
    | (with_reducible apply State.noteReseal_keeps) | (with_reducible apply State.rejoin_keeps)
    | (with_reducible apply State.setDirty_keeps) | (with_reducible apply State.setOwner_keeps)
    | (with_reducible apply State.setSkein_keeps) | (intro w; refine @keeps_cut pq _ w ?_ ?_; unfold w) | (intro _)
    | (lift_lets) | (with_reducible apply keeps_ite) | split | (dsimp only) | (simp only [keeps_mk])
    | (dsimp +zetaDelta only))

theorem execRelocateComplete_keeps {pq : State} (h : BitVec 22) (s : State) (hk : Keeps pq s) :
    KeepsR pq (execRelocateComplete h s) := by
  unfold execRelocateComplete
  repeat' (first
    | with_reducible assumption | (with_reducible apply keepsR_next)
    | (with_reducible apply State.relocateComplete_keeps) | (dsimp only))

theorem State.spillOut_keeps {pq : State} (s : State) (c blk n rows : Nat) (hk : Keeps pq s) :
    Keeps pq (State.spillOut s c blk n rows) := by
  unfold State.spillOut
  repeat' (first
    | with_reducible assumption | (with_reducible apply keeps_foldl) | (with_reducible apply keeps_foldl_snd)
    | (with_reducible apply State.hostWrite_keeps) | (with_reducible apply State.readLoc_keeps)
    | (intro _ (_ : Keeps _ _)) | (intro _ _ (_ : Keeps _ _)) | (intro w; refine @keeps_cut pq _ w ?_ ?_; unfold w)
    | (intro _) | (lift_lets) | (dsimp only) | (dsimp +zetaDelta only) | (refine keeps_pair (by assumption) ?_)
    | (refine keeps_triple (by assumption) ?_))

theorem State.spillComplete_keeps {pq : State} (s : State) (h : Nat) (hk : Keeps pq s) :
    Keeps pq (State.spillComplete s h) := by
  unfold State.spillComplete
  repeat' (first
    | with_reducible assumption | (with_reducible apply State.copyDone_keeps)
    | (with_reducible apply State.setDirty_keeps) | (with_reducible apply State.setOwner_keeps)
    | (with_reducible apply State.setSkein_keeps) | (with_reducible apply State.spillOut_keeps)
    | (intro w; refine @keeps_cut pq _ w ?_ ?_; unfold w) | (intro _) | (lift_lets) | (with_reducible apply keeps_ite)
    | split | (dsimp only) | (simp only [keeps_mk]) | (dsimp +zetaDelta only))

theorem execSpillComplete_keeps {pq : State} (h : BitVec 22) (s : State) (hk : Keeps pq s) :
    KeepsR pq (execSpillComplete h s) := by
  unfold execSpillComplete
  repeat' (first
    | with_reducible assumption | (with_reducible apply keepsR_next) | (with_reducible apply State.spillComplete_keeps)
    | (dsimp only))

theorem State.restoreReads_keeps {pq : State} (s : State) (c n rows : Nat) (hk : Keeps pq s) :
    Keeps pq (State.restoreReads s c n rows) := by
  unfold State.restoreReads
  repeat' (first
    | with_reducible assumption | (with_reducible apply keeps_foldl) | (with_reducible apply State.hostRead_keeps)
    | (intro _ (_ : Keeps _ _)) | (intro _ _ (_ : Keeps _ _)) | (intro _) | (lift_lets) | (dsimp only))

theorem State.restoreIn_keeps {pq : State} (s : State) (blk rows : Nat) (host : HostRead) (hk : Keeps pq s) :
    Keeps pq (State.restoreIn s blk rows host) := by
  unfold State.restoreIn
  repeat' (first
    | with_reducible assumption | (with_reducible apply keeps_foldl) | (with_reducible apply keeps_foldl_snd)
    | (with_reducible apply State.unstage_keeps) | (with_reducible apply State.writeLoc_keeps)
    | (intro _ (_ : Keeps _ _)) | (intro _ _ (_ : Keeps _ _)) | (intro w; refine @keeps_cut pq _ w ?_ ?_; unfold w)
    | (intro _) | (lift_lets) | (dsimp only) | (dsimp +zetaDelta only))

theorem State.restoreComplete_keeps {pq : State} (s : State) (h blk : Nat) (host : HostRead) (hk : Keeps pq s) :
    Keeps pq (State.restoreComplete s h blk host) := by
  unfold State.restoreComplete
  repeat' (first
    | with_reducible assumption | (with_reducible apply State.copyDone_keeps)
    | (with_reducible apply State.makeMask_keeps) | (with_reducible apply State.rejoin_keeps)
    | (with_reducible apply State.restoreFailed_keeps) | (with_reducible apply State.restoreIn_keeps)
    | (with_reducible apply State.restoreReads_keeps) | (with_reducible apply State.setOwner_keeps)
    | (with_reducible apply State.setSkein_keeps) | (with_reducible apply State.setSpill_keeps)
    | (intro w; refine @keeps_cut pq _ w ?_ ?_; unfold w) | (intro _) | (lift_lets) | (with_reducible apply keeps_ite)
    | split | (dsimp only) | (simp only [keeps_mk]) | (dsimp +zetaDelta only))

theorem execRestoreComplete_keeps {pq : State} (h : BitVec 22) (block : BitVec 22) (host : HostRead) (s : State) (hk : Keeps pq s) :
    KeepsR pq (execRestoreComplete h block host s) := by
  unfold execRestoreComplete
  repeat' (first
    | with_reducible assumption | (with_reducible apply keepsR_next)
    | (with_reducible apply State.restoreComplete_keeps) | (dsimp only))

theorem State.loseEntry_keeps {pq : State} (s : State) (h : Nat) (hk : Keeps pq s) :
    Keeps pq (State.loseEntry s h) := by
  unfold State.loseEntry
  repeat' (first
    | with_reducible assumption | (with_reducible apply keeps_foldl) | (with_reducible apply State.endNaming_keeps)
    | (intro w; refine @keeps_cut pq _ w ?_ ?_; unfold w) | (intro _) | (lift_lets) | (with_reducible apply keeps_ite)
    | split | (dsimp only) | (simp only [keeps_mk]) | (dsimp +zetaDelta only))

theorem State.logCopies_keeps {pq : State} (s : State) (a : Nat) (hk : Keeps pq s) :
    Keeps pq (State.logCopies s a) := by
  unfold State.logCopies
  repeat' (first
    | with_reducible assumption | (with_reducible apply keeps_foldl) | (with_reducible apply State.foundUe_keeps)
    | (intro _ (_ : Keeps _ _)) | (intro _ _ (_ : Keeps _ _)) | (intro w; refine @keeps_cut pq _ w ?_ ?_; unfold w)
    | (intro _) | (lift_lets) | (with_reducible apply keeps_ite) | split | (dsimp only) | (dsimp +zetaDelta only))

theorem State.tableLost_keeps {pq : State} (s : State) (line : Nat) (hk : Keeps pq s) :
    Keeps pq (State.tableLost s line) := by
  unfold State.tableLost
  repeat' (first
    | with_reducible assumption | (with_reducible apply keeps_foldl) | (with_reducible apply State.logCopies_keeps)
    | (with_reducible apply State.loseEntry_keeps) | (intro _ (_ : Keeps _ _)) | (intro _ _ (_ : Keeps _ _))
    | (intro w; refine @keeps_cut pq _ w ?_ ?_; unfold w) | (intro _) | (lift_lets) | (dsimp only)
    | (dsimp +zetaDelta only))

theorem State.mapLost_keeps {pq : State} (s : State) (a : Nat) (blocks : List Nat) (hk : Keeps pq s) :
    Keeps pq (State.mapLost s a blocks) := by
  unfold State.mapLost
  repeat' (first
    | with_reducible assumption | (with_reducible apply keeps_foldl) | (with_reducible apply State.logCopies_keeps)
    | (with_reducible apply State.loseEntry_keeps) | (intro _ (_ : Keeps _ _)) | (intro _ _ (_ : Keeps _ _))
    | (intro w; refine @keeps_cut pq _ w ?_ ?_; unfold w) | (intro _) | (lift_lets) | (with_reducible apply keeps_ite)
    | split | (dsimp only) | (simp only [keeps_mk]) | (dsimp +zetaDelta only))

theorem State.skeinLineLost_keeps {pq : State} (s : State) (line : TableLine) (hk : Keeps pq s) :
    Keeps pq (State.skeinLineLost s line) := by
  unfold State.skeinLineLost
  repeat' (first
    | with_reducible assumption | (with_reducible apply State.mapLost_keeps)
    | (with_reducible apply State.tableLost_keeps) | (with_reducible apply keeps_ite) | split | (dsimp only))

theorem execSkeinTableLost_keeps {pq : State} (line : TableLine) (s : State) (hk : Keeps pq s) :
    KeepsR pq (execSkeinTableLost line s) := by
  unfold execSkeinTableLost
  repeat' (first
    | with_reducible assumption | (with_reducible apply keepsR_next) | (with_reducible apply State.skeinLineLost_keeps)
    | (dsimp only))

end Sys2Proof.Machine
end

