-- ==== Sys2Proof/Laws/KeepsWinder.lean ====
section
/-!
SUPPORT. The operations of Machine/Winder.lean keep memory canonical and the queue as it is.
-/

namespace Sys2Proof.Machine

theorem execWinder_keeps {pq : State} (x : Ctx) (rec : Record) (s : State) (hk : Keeps pq s) :
    KeepsR pq (execWinder x rec s) := by
  unfold execWinder
  repeat' (first
    | with_reducible assumption | (with_reducible apply keepsR_next) | (with_reducible apply State.acceptRecord_keeps)
    | (intro _ (_ : Keeps _ _)) | (intro _ _ (_ : Keeps _ _)) | (intro _) | (lift_lets) | (dsimp only)
    | (simp only [keeps_mk]) | (dsimp +zetaDelta only))

theorem State.winderDone_keeps {pq : State} (s : State) (e code addr : Nat) (hk : Keeps pq s) :
    Keeps pq (State.winderDone s e code addr) := by
  unfold State.winderDone
  repeat' (first
    | with_reducible assumption | (with_reducible apply State.final_keeps)
    | (with_reducible apply State.finishTeardown_keeps) | (with_reducible apply State.idleEngine_keeps)
    | (intro w; refine @keeps_cut pq _ w ?_ ?_; unfold w) | (intro _) | (lift_lets) | (with_reducible apply keeps_ite)
    | split | (dsimp only) | (dsimp +zetaDelta only))

theorem State.winderDispatch_keeps {pq : State} (s : State) (e : Nat) (hk : Keeps pq s) :
    Keeps pq (State.winderDispatch s e) := by
  unfold State.winderDispatch
  repeat' (first
    | with_reducible assumption | (with_reducible apply State.setEngine_keeps)
    | (with_reducible apply State.winderDone_keeps) | (intro w; refine @keeps_cut pq _ w ?_ ?_; unfold w) | (intro _)
    | (lift_lets) | (with_reducible apply keeps_ite) | split | (dsimp only) | (simp only [keeps_mk])
    | (dsimp +zetaDelta only))

theorem execWinderDispatch_keeps {pq : State} (e : Engine) (s : State) (hk : Keeps pq s) :
    KeepsR pq (execWinderDispatch e s) := by
  unfold execWinderDispatch
  repeat' (first
    | with_reducible assumption | (with_reducible apply keepsR_next) | (with_reducible apply State.whenServing_keeps)
    | (with_reducible apply State.winderDispatch_keeps) | (intro _ (_ : Keeps _ _)) | (intro _ _ (_ : Keeps _ _))
    | (intro _) | (lift_lets) | (dsimp only))

theorem State.winderWaits_keeps {pq : State} (s : State) (e : Nat) (f : WEngine → WDesc → Nat → State) (hk : Keeps pq s) (hf : ∀ x0 x1 x2, Keeps pq (f x0 x1 x2)) :
    Keeps pq (State.winderWaits s e f) := by
  unfold State.winderWaits
  repeat' (first
    | with_reducible assumption | (with_reducible apply hf) | (intro w; refine @keeps_cut pq _ w ?_ ?_; unfold w)
    | (intro _) | (lift_lets) | split | (dsimp only) | (dsimp +zetaDelta only))

theorem execWinderWaitSatisfied_keeps {pq : State} (e : Engine) (s : State) (hk : Keeps pq s) :
    KeepsR pq (execWinderWaitSatisfied e s) := by
  unfold execWinderWaitSatisfied
  repeat' (first
    | with_reducible assumption | (with_reducible apply keepsR_next) | (with_reducible apply State.setEngine_keeps)
    | (with_reducible apply State.whenServing_keeps) | (with_reducible apply State.winderWaits_keeps)
    | (intro _ (_ : Keeps _ _)) | (intro _ _ (_ : Keeps _ _)) | (intro _) | (lift_lets)
    | (with_reducible apply keeps_ite) | split | (dsimp only) | (simp only [keeps_mk]) | (dsimp +zetaDelta only))

theorem execWinderWaitTimeout_keeps {pq : State} (e : Engine) (s : State) (hk : Keeps pq s) :
    KeepsR pq (execWinderWaitTimeout e s) := by
  unfold execWinderWaitTimeout
  repeat' (first
    | with_reducible assumption | (with_reducible apply keepsR_next) | (with_reducible apply State.whenServing_keeps)
    | (with_reducible apply State.winderDone_keeps) | (with_reducible apply State.winderWaits_keeps)
    | (intro _ (_ : Keeps _ _)) | (intro _ _ (_ : Keeps _ _)) | (intro _) | (lift_lets)
    | (with_reducible apply keeps_ite) | split | (dsimp only))

theorem State.readEntry_keeps {pq : State} (s : State) (e : Nat) (x : WEngine) (d : WDesc) (hk : Keeps pq s) :
    Keeps pq (State.readEntry s e x d) := by
  unfold State.readEntry
  repeat' (first
    | with_reducible assumption | (with_reducible apply State.reach_keeps)
    | (with_reducible apply State.readMemAt_keeps) | (with_reducible apply State.setEngine_keeps)
    | (with_reducible apply State.threadTurn_keeps) | (intro w; refine @keeps_cut pq _ w ?_ ?_; unfold w) | (intro _)
    | (lift_lets) | (with_reducible apply keeps_ite) | split | (dsimp only) | (simp only [keeps_mk])
    | (dsimp +zetaDelta only) | (refine keeps_pair (by assumption) ?_) | (refine keeps_triple (by assumption) ?_))

theorem State.readUnitFor_keeps {pq : State} (s : State) (e : Nat) (x : WEngine) (d : WDesc) (seg : Nat) (u : Int) (host : Option HostRead) (hk : Keeps pq s) :
    Keeps pq (State.readUnitFor s e x d seg u host) := by
  unfold State.readUnitFor
  repeat' (first
    | with_reducible assumption | (with_reducible apply State.accessTurn_keeps)
    | (with_reducible apply State.setEngine_keeps) | (with_reducible apply State.takeUnit_keeps)
    | (intro _ (_ : Keeps _ _)) | (intro _ _ (_ : Keeps _ _)) | (intro w; refine @keeps_cut pq _ w ?_ ?_; unfold w)
    | (intro _) | (lift_lets) | (with_reducible apply keeps_ite) | split | (dsimp only) | (simp only [keeps_mk])
    | (dsimp +zetaDelta only) | (refine keeps_pair (by assumption) ?_) | (refine keeps_triple (by assumption) ?_))

theorem State.writeChunk_keeps {pq : State} (s : State) (e : Nat) (x : WEngine) (d : WDesc) (l : List Elt) (seg : Nat) (hk : Keeps pq s) :
    Keeps pq (State.writeChunk s e x d l seg) := by
  unfold State.writeChunk
  repeat' (first
    | with_reducible assumption | (with_reducible apply State.accessTurn_keeps)
    | (with_reducible apply State.setEngine_keeps) | (with_reducible apply State.winderPut_keeps)
    | (intro w; refine @keeps_cut pq _ w ?_ ?_; unfold w) | (intro _) | (lift_lets) | (with_reducible apply keeps_ite)
    | split | (dsimp only) | (simp only [keeps_mk]) | (dsimp +zetaDelta only) | (refine keeps_pair (by assumption) ?_)
    | (refine keeps_triple (by assumption) ?_))

theorem State.issueFor_keeps {pq : State} (s : State) (e : Nat) (x : WEngine) (d : WDesc) (r : RemReq) (data : List (BitVec 256)) (next : WEngine → WEngine) (hk : Keeps pq s) :
    Keeps pq (State.issueFor s e x d r data next) := by
  unfold State.issueFor
  repeat' (first
    | with_reducible assumption | (with_reducible apply State.issue_keeps)
    | (with_reducible apply State.serveLoop_keeps) | (with_reducible apply State.setEngine_keeps) | exact keepsO_none
    | (with_reducible apply keepsO_some) | (intro w; refine @keeps_cut pq _ w ?_ ?_; unfold w) | (intro _)
    | (lift_lets) | (with_reducible apply keeps_ite) | split | (dsimp only) | (dsimp +zetaDelta only)
    | (refine keepsO_map ?_ (fun _ => rfl)) | (refine keepsO_pair (by assumption) ?_)
    | (refine keepsO_snd (by assumption) ?_) | (refine keepsO_id (by assumption) ?_))

theorem State.writeRemote_keeps {pq : State} (s : State) (e : Nat) (x : WEngine) (d : WDesc) (l : List Elt) (seg : Nat) (hk : Keeps pq s) :
    Keeps pq (State.writeRemote s e x d l seg) := by
  unfold State.writeRemote
  repeat' (first
    | with_reducible assumption | (with_reducible apply State.issueFor_keeps)
    | (with_reducible apply State.setEngine_keeps) | (intro _ (_ : Keeps _ _)) | (intro _ _ (_ : Keeps _ _))
    | (intro w; refine @keeps_cut pq _ w ?_ ?_; unfold w) | (intro _) | (lift_lets) | (with_reducible apply keeps_ite)
    | split | (dsimp only) | (dsimp +zetaDelta only))

theorem State.requestRun_keeps {pq : State} (s : State) (e : Nat) (x : WEngine) (d : WDesc) (l : List Elt) (a : Int) (into : Bool) (next : WEngine → WEngine) (hk : Keeps pq s) :
    Keeps pq (State.requestRun s e x d l a into next) := by
  unfold State.requestRun
  repeat' (first
    | with_reducible assumption | (with_reducible apply State.issueFor_keeps)
    | (with_reducible apply State.setEngine_keeps) | (intro _ (_ : Keeps _ _)) | (intro _ _ (_ : Keeps _ _))
    | (intro w; refine @keeps_cut pq _ w ?_ ?_; unfold w) | (intro _) | (lift_lets) | (with_reducible apply keeps_ite)
    | split | (dsimp only) | (dsimp +zetaDelta only))

theorem State.readRemote_keeps {pq : State} (s : State) (e : Nat) (x : WEngine) (d : WDesc) (lim : Nat) (hk : Keeps pq s) :
    Keeps pq (State.readRemote s e x d lim) := by
  unfold State.readRemote
  repeat' (first
    | with_reducible assumption | (with_reducible apply State.requestRun_keeps)
    | (with_reducible apply State.writeChunk_keeps) | (intro _ (_ : Keeps _ _)) | (intro _ _ (_ : Keeps _ _))
    | (intro w; refine @keeps_cut pq _ w ?_ ?_; unfold w) | (intro _) | (lift_lets) | split | (dsimp only)
    | (dsimp +zetaDelta only))

theorem State.remoteBlock_keeps {pq : State} (s : State) (e : Nat) (x : WEngine) (d : WDesc) (lim : Nat) (hk : Keeps pq s) :
    Keeps pq (State.remoteBlock s e x d lim) := by
  unfold State.remoteBlock
  repeat' (first
    | with_reducible assumption | (with_reducible apply State.requestRun_keeps)
    | (with_reducible apply State.writeChunk_keeps) | (intro _ (_ : Keeps _ _)) | (intro _ _ (_ : Keeps _ _))
    | (intro w; refine @keeps_cut pq _ w ?_ ?_; unfold w) | (intro _) | (lift_lets) | (with_reducible apply keeps_ite)
    | split | (dsimp only) | (simp only [keeps_mk]) | (dsimp +zetaDelta only))

theorem State.winderAccess_keeps {pq : State} (s : State) (e : Nat) (host : Option HostRead) (hk : Keeps pq s) :
    Keeps pq (State.winderAccess s e host) := by
  unfold State.winderAccess
  repeat' (first
    | with_reducible assumption | (with_reducible apply State.land_keeps)
    | (with_reducible apply State.landPieces_keeps) | (with_reducible apply State.readEntry_keeps)
    | (with_reducible apply State.readRemote_keeps) | (with_reducible apply State.readUnitFor_keeps)
    | (with_reducible apply State.remoteBlock_keeps) | (with_reducible apply State.serveLoop_keeps)
    | (with_reducible apply State.setEngine_keeps) | (with_reducible apply State.writeChunk_keeps)
    | (with_reducible apply State.writeRemote_keeps) | (intro _ (_ : Keeps _ _)) | (intro _ _ (_ : Keeps _ _))
    | (intro w; refine @keeps_cut pq _ w ?_ ?_; unfold w) | (intro _) | (lift_lets) | (with_reducible apply keeps_ite)
    | split | (dsimp only) | (simp only [keeps_mk]) | (dsimp +zetaDelta only))

theorem execWinderAccess_keeps {pq : State} (e : Engine) (host : HostRead) (s : State) (hk : Keeps pq s) :
    KeepsR pq (execWinderAccess e host s) := by
  unfold execWinderAccess
  repeat' (first
    | with_reducible assumption | (with_reducible apply keepsR_next) | (with_reducible apply State.whenServing_keeps)
    | (with_reducible apply State.winderAccess_keeps) | (intro _ (_ : Keeps _ _)) | (intro _ _ (_ : Keeps _ _))
    | (intro _) | (lift_lets) | (dsimp only))

theorem State.winderComplete_keeps {pq : State} (s : State) (e : Nat) (hk : Keeps pq s) :
    Keeps pq (State.winderComplete s e) := by
  unfold State.winderComplete
  repeat' (first
    | with_reducible assumption | (with_reducible apply State.finishTeardown_keeps)
    | (with_reducible apply State.winderDone_keeps) | (intro _ (_ : Keeps _ _)) | (intro _ _ (_ : Keeps _ _))
    | (intro w; refine @keeps_cut pq _ w ?_ ?_; unfold w) | (intro _) | (lift_lets) | (with_reducible apply keeps_ite)
    | split | (dsimp only) | (dsimp +zetaDelta only))

theorem execWinderComplete_keeps {pq : State} (e : Engine) (s : State) (hk : Keeps pq s) :
    KeepsR pq (execWinderComplete e s) := by
  unfold execWinderComplete
  repeat' (first
    | with_reducible assumption | (with_reducible apply keepsR_next) | (with_reducible apply State.whenServing_keeps)
    | (with_reducible apply State.winderComplete_keeps) | (intro _ (_ : Keeps _ _)) | (intro _ _ (_ : Keeps _ _))
    | (intro _) | (lift_lets) | (dsimp only))

end Sys2Proof.Machine
end

