-- ==== Sys2Proof/Laws/KeepsHostOps.lean ====
section
/-!
SUPPORT. The operations of Machine/HostOps.lean keep memory canonical and the queue as it is.
-/

namespace Sys2Proof.Machine

theorem State.cfgRequest_keeps {pq : State} (s : State) (f : State → State) (hk : Keeps pq s) (hf : ∀ x0, Keeps pq x0 → Keeps pq (f x0)) :
    Keeps pq (State.cfgRequest s f) := by
  unfold State.cfgRequest
  repeat' (first
    | with_reducible assumption | (with_reducible apply hf) | (intro _) | (lift_lets)
    | (with_reducible apply keeps_ite) | split | (dsimp only) | (simp only [keeps_mk]) | (dsimp +zetaDelta only))

theorem State.writePlain_keeps {pq : State} (s : State) (func at_ off v : Nat) (hk : Keeps pq s) :
    Keeps pq (State.writePlain s func at_ off v) := by
  unfold State.writePlain
  repeat' (first
    | with_reducible assumption | (with_reducible apply State.logInvalid_keeps)
    | (with_reducible apply State.setReg_keeps) | (intro _ (_ : Keeps _ _)) | (intro _ _ (_ : Keeps _ _))
    | (intro w; refine @keeps_cut pq _ w ?_ ?_; unfold w) | (intro _) | (lift_lets) | (with_reducible apply keeps_ite)
    | split | (dsimp only) | (dsimp +zetaDelta only))

theorem State.pfWrite_keeps {pq : State} (s : State) (f : State → State) (hk : Keeps pq s) (hf : ∀ x0, Keeps pq x0 → Keeps pq (f x0)) :
    Keeps pq (State.pfWrite s f) := by
  unfold State.pfWrite
  repeat' (first
    | with_reducible assumption | (with_reducible apply hf) | (with_reducible apply State.touch_keeps)
    | (with_reducible apply keeps_ite) | split | (dsimp only))

theorem State.pageWrite_keeps {pq : State} (s : State) (c : Nat) (f : State → State) (hk : Keeps pq s) (hf : ∀ x0, Keeps pq x0 → Keeps pq (f x0)) :
    Keeps pq (State.pageWrite s c f) := by
  unfold State.pageWrite
  repeat' (first
    | with_reducible assumption | (with_reducible apply hf) | (with_reducible apply State.touch_keeps)
    | (with_reducible apply keeps_ite) | split | (dsimp only))

theorem State.setTrust_keeps {pq : State} (s : State) (t : Trust) (hk : Keeps pq s) :
    Keeps pq (State.setTrust s t) := by
  unfold State.setTrust
  repeat' (first
    | with_reducible assumption | (intro _) | (lift_lets) | (dsimp only) | (simp only [keeps_mk])
    | (dsimp +zetaDelta only))

theorem State.failUpdate_keeps {pq : State} (s : State) (reason : Nat) (hk : Keeps pq s) :
    Keeps pq (State.failUpdate s reason) := by
  unfold State.failUpdate
  repeat' (first
    | with_reducible assumption | (with_reducible apply State.setTrust_keeps) | (intro _) | (lift_lets) | (dsimp only)
    | (simp only [keeps_mk]) | (dsimp +zetaDelta only))

theorem State.dropUpdate_keeps {pq : State} (s : State) (hk : Keeps pq s) :
    Keeps pq (State.dropUpdate s) := by
  unfold State.dropUpdate
  repeat' (first
    | with_reducible assumption | (with_reducible apply State.failUpdate_keeps)
    | (with_reducible apply State.setTrust_keeps) | (intro w; refine @keeps_cut pq _ w ?_ ?_; unfold w) | (intro _)
    | (lift_lets) | (with_reducible apply keeps_ite) | split | (dsimp only) | (dsimp +zetaDelta only))

theorem State.dbTally_keeps {pq : State} (s : State) (c : Nat) (v : Word) (hk : Keeps pq s) :
    Keeps pq (State.dbTally s c v) := by
  unfold State.dbTally
  repeat' (first
    | with_reducible assumption | (with_reducible apply State.refuseDoorbell_keeps)
    | (with_reducible apply State.tcAdd_keeps) | (intro w; refine @keeps_cut pq _ w ?_ ?_; unfold w) | (intro _)
    | (lift_lets) | (with_reducible apply keeps_ite) | split | (dsimp only) | (dsimp +zetaDelta only))

theorem execCtxDbTally_keeps {pq : State} (x : Ctx) (v : Word) (s : State) (hk : Keeps pq s) :
    KeepsR pq (execCtxDbTally x v s) := by
  unfold execCtxDbTally
  repeat' (first
    | with_reducible assumption | (with_reducible apply keepsR_next) | (with_reducible apply State.dbTally_keeps)
    | (with_reducible apply State.doorbell_keeps) | (intro _ (_ : Keeps _ _)) | (intro _ _ (_ : Keeps _ _)) | (intro _)
    | (lift_lets) | (dsimp only))

theorem State.selectCounter_keeps {pq : State} (s : State) (func page c : Nat) (v : Word) (hk : Keeps pq s) :
    Keeps pq (State.selectCounter s func page c v) := by
  unfold State.selectCounter
  repeat' (first
    | with_reducible assumption | (with_reducible apply State.logInvalid_keeps)
    | (with_reducible apply State.setReg_keeps) | (intro _ (_ : Keeps _ _)) | (intro _ _ (_ : Keeps _ _))
    | (intro w; refine @keeps_cut pq _ w ?_ ?_; unfold w) | (intro _) | (lift_lets) | (with_reducible apply keeps_ite)
    | split | (dsimp only) | (dsimp +zetaDelta only))

theorem execCtxTcSel_keeps {pq : State} (x : Ctx) (v : Word) (s : State) (hk : Keeps pq s) :
    KeepsR pq (execCtxTcSel x v s) := by
  unfold execCtxTcSel
  repeat' (first
    | with_reducible assumption | (with_reducible apply keepsR_next) | (with_reducible apply State.pageWrite_keeps)
    | (with_reducible apply State.selectCounter_keeps) | (intro _ (_ : Keeps _ _)) | (intro _ _ (_ : Keeps _ _))
    | (intro _) | (lift_lets) | (dsimp only))

end Sys2Proof.Machine
end

