-- ==== Sys2Proof/Laws/KeepsTwine.lean ====
section
/-!
SUPPORT. The operations of Machine/Twine.lean keep memory canonical and the queue as it is.
-/

namespace Sys2Proof.Machine

theorem State.takeCredit_keeps {pq : State} (s : State) (p : Nat) (trailer : BitVec 256) (hk : Keeps pq s) :
    Keeps pq (State.takeCredit s p trailer) := by
  unfold State.takeCredit
  repeat' (first
    | with_reducible assumption | (with_reducible apply State.modPort_keeps) | (intro _ (_ : Keeps _ _))
    | (intro _ _ (_ : Keeps _ _)) | (intro _) | (lift_lets) | (with_reducible apply keeps_ite) | split | (dsimp only)
    | (simp only [keeps_mk]) | (dsimp +zetaDelta only))

theorem State.checkPacket_keeps {pq : State} (s : State) (p : Nat) (k : TxPkt) (trailer : BitVec 256) (act : State → TxPkt → State) (hk : Keeps pq s) (hact : ∀ x0 x1, Keeps pq x0 → Keeps pq (act x0 x1)) :
    Keeps pq (State.checkPacket s p k trailer act) := by
  unfold State.checkPacket
  repeat' (first
    | with_reducible assumption | (with_reducible apply hact) | (with_reducible apply State.bumpReg_keeps)
    | (with_reducible apply State.countPort_keeps) | (with_reducible apply State.freeIngress_keeps)
    | (intro w; refine @keeps_cut pq _ w ?_ ?_; unfold w) | (intro _) | (lift_lets) | (with_reducible apply keeps_ite)
    | split | (dsimp only) | (dsimp +zetaDelta only))

theorem State.countFec_keeps {pq : State} (s : State) (p n : Nat) (hk : Keeps pq s) :
    Keeps pq (State.countFec s p n) := by
  unfold State.countFec
  repeat' (first
    | with_reducible assumption | (with_reducible apply State.bumpReg_keeps) | (with_reducible apply keeps_ite) | split
    | (dsimp only))

theorem State.receive_keeps {pq : State} (s : State) (p : Nat) (pkt : Packet) (mine : BitVec 256 → Bool) (act : State → TxPkt → State) (hk : Keeps pq s) (hact : ∀ x0 x1, Keeps pq x0 → Keeps pq (act x0 x1)) :
    Keeps pq (State.receive s p pkt mine act) := by
  unfold State.receive
  repeat' (first
    | with_reducible assumption | (with_reducible apply hact) | (with_reducible apply State.checkPacket_keeps)
    | (with_reducible apply State.countFec_keeps) | (with_reducible apply State.countPort_keeps)
    | (with_reducible apply State.modPort_keeps) | (with_reducible apply State.portDown_keeps)
    | (with_reducible apply State.serveAll_keeps) | (with_reducible apply State.takeCredit_keeps)
    | (with_reducible apply State.touch_keeps) | (intro _ (_ : Keeps _ _)) | (intro _ _ (_ : Keeps _ _))
    | (intro w; refine @keeps_cut pq _ w ?_ ?_; unfold w) | (intro _) | (lift_lets) | (with_reducible apply keeps_ite)
    | split | (dsimp only) | (simp only [keeps_mk]) | (dsimp +zetaDelta only))

theorem State.arrive_keeps {pq : State} (s : State) (p : Nat) (k : TxPkt) (hk : Keeps pq s) :
    Keeps pq (State.arrive s p k) := by
  unfold State.arrive
  repeat' (first
    | with_reducible assumption | (with_reducible apply State.modPort_keeps) | (intro _ (_ : Keeps _ _))
    | (intro _ _ (_ : Keeps _ _)) | (intro _) | (lift_lets) | (dsimp only) | (simp only [keeps_mk])
    | (dsimp +zetaDelta only))

theorem execWrite_keeps {pq : State} (p : Port) (pkt : Packet) (s : State) (hk : Keeps pq s) :
    KeepsR pq (execWrite p pkt s) := by
  unfold execWrite
  repeat' (first
    | with_reducible assumption | (with_reducible apply keepsR_next) | (with_reducible apply State.arrive_keeps)
    | (with_reducible apply State.receive_keeps) | (intro _ (_ : Keeps _ _)) | (intro _ _ (_ : Keeps _ _)) | (intro _)
    | (lift_lets) | (dsimp only))

theorem execRead_keeps {pq : State} (p : Port) (pkt : Packet) (s : State) (hk : Keeps pq s) :
    KeepsR pq (execRead p pkt s) := by
  unfold execRead
  repeat' (first
    | with_reducible assumption | (with_reducible apply keepsR_next) | (with_reducible apply State.arrive_keeps)
    | (with_reducible apply State.receive_keeps) | (intro _ (_ : Keeps _ _)) | (intro _ _ (_ : Keeps _ _)) | (intro _)
    | (lift_lets) | (dsimp only))

theorem State.matchReq_keeps {pq : State} (s : State) (p : Nat) (h : BitVec 256) (ok : RemReq → Bool) (f : State → RemReq → State) (hk : Keeps pq s) (hf : ∀ x0 x1, Keeps pq x0 → Keeps pq (f x0 x1)) :
    Keeps pq (State.matchReq s p h ok f) := by
  unfold State.matchReq
  repeat' (first
    | with_reducible assumption | (with_reducible apply hf) | (with_reducible apply State.countPort_keeps)
    | (intro _ (_ : Keeps _ _)) | (intro _ _ (_ : Keeps _ _)) | (intro _) | (lift_lets) | split | (dsimp only))

theorem execRdata_keeps {pq : State} (p : Port) (pkt : Packet) (s : State) (hk : Keeps pq s) :
    KeepsR pq (execRdata p pkt s) := by
  unfold execRdata
  repeat' (first
    | with_reducible assumption | (with_reducible apply keepsR_next) | (with_reducible apply State.landData_keeps)
    | (with_reducible apply State.matchReq_keeps) | (with_reducible apply State.receive_keeps)
    | (intro _ (_ : Keeps _ _)) | (intro _ _ (_ : Keeps _ _)) | (intro _) | (lift_lets) | (dsimp only))

theorem execCack_keeps {pq : State} (p : Port) (pkt : Packet) (s : State) (hk : Keeps pq s) :
    KeepsR pq (execCack p pkt s) := by
  unfold execCack
  repeat' (first
    | with_reducible assumption | (with_reducible apply keepsR_next) | (with_reducible apply State.matchReq_keeps)
    | (with_reducible apply State.receive_keeps) | (with_reducible apply State.resolveWrite_keeps)
    | (intro _ (_ : Keeps _ _)) | (intro _ _ (_ : Keeps _ _)) | (intro _) | (lift_lets) | (dsimp only))

theorem execNack_keeps {pq : State} (p : Port) (pkt : Packet) (s : State) (hk : Keeps pq s) :
    KeepsR pq (execNack p pkt s) := by
  unfold execNack
  repeat' (first
    | with_reducible assumption | (with_reducible apply keepsR_next) | (with_reducible apply State.matchReq_keeps)
    | (with_reducible apply State.receive_keeps) | (with_reducible apply State.resolveFail_keeps)
    | (intro _ (_ : Keeps _ _)) | (intro _ _ (_ : Keeps _ _)) | (intro _) | (lift_lets) | (dsimp only))

theorem State.param_keeps {pq : State} (s : State) (p : Nat) (k : TxPkt) (hk : Keeps pq s) :
    Keeps pq (State.param s p k) := by
  unfold State.param
  repeat' (first
    | with_reducible assumption | (with_reducible apply State.modPort_keeps)
    | (with_reducible apply State.portDown_keeps) | (with_reducible apply State.portState_keeps)
    | (with_reducible apply State.settleRoutes_keeps) | (intro _ (_ : Keeps _ _)) | (intro _ _ (_ : Keeps _ _))
    | (intro w; refine @keeps_cut pq _ w ?_ ?_; unfold w) | (intro _) | (lift_lets) | (with_reducible apply keeps_ite)
    | split | (dsimp only) | (simp only [keeps_mk]) | (dsimp +zetaDelta only))

theorem execParam_keeps {pq : State} (p : Port) (pkt : Packet) (s : State) (hk : Keeps pq s) :
    KeepsR pq (execParam p pkt s) := by
  unfold execParam
  repeat' (first
    | with_reducible assumption | (with_reducible apply keepsR_next) | (with_reducible apply State.param_keeps)
    | (with_reducible apply State.receive_keeps) | (intro _ (_ : Keeps _ _)) | (intro _ _ (_ : Keeps _ _)) | (intro _)
    | (lift_lets) | (dsimp only))

theorem execCredit_keeps {pq : State} (p : Port) (pkt : Packet) (s : State) (hk : Keeps pq s) :
    KeepsR pq (execCredit p pkt s) := by
  unfold execCredit
  repeat' (first
    | with_reducible assumption | (with_reducible apply keepsR_next) | (with_reducible apply State.receive_keeps)
    | (intro _ (_ : Keeps _ _)) | (intro _ _ (_ : Keeps _ _)) | (intro _) | (lift_lets) | (dsimp only))

theorem State.takeSpdm_keeps {pq : State} (s : State) (p : Nat) (k : TxPkt) (hk : Keeps pq s) :
    Keeps pq (State.takeSpdm s p k) := by
  unfold State.takeSpdm
  repeat' (first
    | with_reducible assumption | (with_reducible apply State.modPort_keeps)
    | (with_reducible apply State.queueSpdm_keeps) | (with_reducible apply State.setPort_keeps)
    | (intro _ (_ : Keeps _ _)) | (intro _ _ (_ : Keeps _ _)) | (intro w; refine @keeps_cut pq _ w ?_ ?_; unfold w)
    | (intro _) | (lift_lets) | (with_reducible apply keeps_ite) | split | (dsimp only) | (simp only [keeps_mk])
    | (dsimp +zetaDelta only))

theorem execSpdm_keeps {pq : State} (p : Port) (pkt : Packet) (s : State) (hk : Keeps pq s) :
    KeepsR pq (execSpdm p pkt s) := by
  unfold execSpdm
  repeat' (first
    | with_reducible assumption | (with_reducible apply keepsR_next) | (with_reducible apply State.receive_keeps)
    | (with_reducible apply State.takeSpdm_keeps) | (intro _ (_ : Keeps _ _)) | (intro _ _ (_ : Keeps _ _)) | (intro _)
    | (lift_lets) | (dsimp only))

theorem execDown_keeps {pq : State} (p : Port) (pkt : Packet) (s : State) (hk : Keeps pq s) :
    KeepsR pq (execDown p pkt s) := by
  unfold execDown
  repeat' (first
    | with_reducible assumption | (with_reducible apply keepsR_next) | (with_reducible apply State.portDown_keeps)
    | (with_reducible apply State.receive_keeps) | (intro _ (_ : Keeps _ _)) | (intro _ _ (_ : Keeps _ _)) | (intro _)
    | (lift_lets) | (with_reducible apply keeps_ite) | split | (dsimp only))

theorem State.control_keeps {pq : State} (s : State) (p : Nat) (item : BitVec 256) (fec : Nat) (hk : Keeps pq s) :
    Keeps pq (State.control s p item fec) := by
  unfold State.control
  repeat' (first
    | with_reducible assumption | (with_reducible apply State.countFec_keeps)
    | (with_reducible apply State.countPort_keeps) | (intro w; refine @keeps_cut pq _ w ?_ ?_; unfold w) | (intro _)
    | (lift_lets) | (with_reducible apply keeps_ite) | split | (dsimp only) | (dsimp +zetaDelta only))

theorem execIdle_keeps {pq : State} (p : Port) (item : RxItem) (s : State) (hk : Keeps pq s) :
    KeepsR pq (execIdle p item s) := by
  unfold execIdle
  repeat' (first
    | with_reducible assumption | (with_reducible apply keepsR_next) | (with_reducible apply State.control_keeps)
    | (dsimp only))

theorem execFill_keeps {pq : State} (p : Port) (item : RxItem) (s : State) (hk : Keeps pq s) :
    KeepsR pq (execFill p item s) := by
  unfold execFill
  repeat' (first
    | with_reducible assumption | (with_reducible apply keepsR_next) | (with_reducible apply State.control_keeps)
    | (dsimp only))

theorem State.spend_keeps {pq : State} (s : State) (p n : Nat) (f : TPort → Nat → TPort) (hk : Keeps pq s) :
    Keeps pq (State.spend s p n f) := by
  unfold State.spend
  repeat' (first
    | with_reducible assumption | (with_reducible apply State.modPort_keeps) | (intro _ (_ : Keeps _ _))
    | (intro _ _ (_ : Keeps _ _)) | (intro _) | (lift_lets) | (with_reducible apply keeps_ite) | split | (dsimp only))

theorem State.sendHead_keeps {pq : State} (s : State) (p : Nat) (k : TxPkt) (fills : Nat) (hk : Keeps pq s) :
    Keeps pq (State.sendHead s p k fills) := by
  unfold State.sendHead
  repeat' (first
    | with_reducible assumption | (with_reducible apply State.bumpReg_keeps)
    | (with_reducible apply State.serveAll_keeps) | (with_reducible apply State.transmit_keeps)
    | (intro w; refine @keeps_cut pq _ w ?_ ?_; unfold w) | (intro _) | (lift_lets) | (with_reducible apply keeps_ite)
    | split | (dsimp only) | (dsimp +zetaDelta only))

theorem State.egressStart_keeps {pq : State} (s : State) (p fills : Nat) (hk : Keeps pq s) :
    Keeps pq (State.egressStart s p fills) := by
  unfold State.egressStart
  repeat' (first
    | with_reducible assumption | (with_reducible apply State.modPort_keeps) | (with_reducible apply State.param_keeps)
    | (with_reducible apply State.sendHead_keeps) | (with_reducible apply State.serveAll_keeps)
    | (with_reducible apply State.spend_keeps) | (intro _ (_ : Keeps _ _)) | (intro _ _ (_ : Keeps _ _))
    | (intro w; refine @keeps_cut pq _ w ?_ ?_; unfold w) | (intro _) | (lift_lets) | (with_reducible apply keeps_ite)
    | split | (dsimp only) | (simp only [keeps_mk]) | (dsimp +zetaDelta only))

theorem execEgressPacketStart_keeps {pq : State} (x : TxStart) (s : State) (hk : Keeps pq s) :
    KeepsR pq (execEgressPacketStart x s) := by
  unfold execEgressPacketStart
  repeat' (first
    | with_reducible assumption | (with_reducible apply keepsR_next) | (with_reducible apply State.egressStart_keeps)
    | (dsimp only))

theorem execCreditReturnTimer_keeps {pq : State} (p : Port) (s : State) (hk : Keeps pq s) :
    KeepsR pq (execCreditReturnTimer p s) := by
  unfold execCreditReturnTimer
  repeat' (first
    | with_reducible assumption | (with_reducible apply keepsR_next) | (with_reducible apply State.queueLnk_keeps)
    | (intro _ (_ : Keeps _ _)) | (intro _ _ (_ : Keeps _ _)) | (intro w; refine @keeps_cut pq _ w ?_ ?_; unfold w)
    | (intro _) | (lift_lets) | (with_reducible apply keeps_ite) | split | (dsimp only) | (simp only [keeps_mk])
    | (dsimp +zetaDelta only))

theorem execCreditWaitExpiry_keeps {pq : State} (p : Port) (cls : PktClass) (s : State) (hk : Keeps pq s) :
    KeepsR pq (execCreditWaitExpiry p cls s) := by
  unfold execCreditWaitExpiry
  repeat' (first
    | with_reducible assumption | (with_reducible apply keepsR_next) | (with_reducible apply State.portDown_keeps)
    | (intro _ (_ : Keeps _ _)) | (intro _ _ (_ : Keeps _ _)) | (intro w; refine @keeps_cut pq _ w ?_ ?_; unfold w)
    | (intro _) | (lift_lets) | (with_reducible apply keeps_ite) | split | (dsimp only) | (dsimp +zetaDelta only))

theorem State.keyUpdateStart_keeps {pq : State} (s : State) (p : Nat) (dir : LinkDir) (hk : Keeps pq s) :
    Keeps pq (State.keyUpdateStart s p dir) := by
  unfold State.keyUpdateStart
  repeat' (first
    | with_reducible assumption | (with_reducible apply State.queueSpdm_keeps)
    | (with_reducible apply State.setPort_keeps) | (intro w; refine @keeps_cut pq _ w ?_ ?_; unfold w) | (intro _)
    | (lift_lets) | (with_reducible apply keeps_ite) | split | (dsimp only) | (simp only [keeps_mk])
    | (dsimp +zetaDelta only))

theorem execKeyUpdateStart_keeps {pq : State} (p : Port) (dir : LinkDir) (s : State) (hk : Keeps pq s) :
    KeepsR pq (execKeyUpdateStart p dir s) := by
  unfold execKeyUpdateStart
  repeat' (first
    | with_reducible assumption | (with_reducible apply keepsR_next)
    | (with_reducible apply State.keyUpdateStart_keeps) | (dsimp only))

theorem execKeyUpdateExpiry_keeps {pq : State} (p : Port) (dir : LinkDir) (s : State) (hk : Keeps pq s) :
    KeepsR pq (execKeyUpdateExpiry p dir s) := by
  unfold execKeyUpdateExpiry
  repeat' (first
    | with_reducible assumption | (with_reducible apply keepsR_next) | (with_reducible apply State.portDown_keeps)
    | (intro w; refine @keeps_cut pq _ w ?_ ?_; unfold w) | (intro _) | (lift_lets) | (with_reducible apply keeps_ite)
    | split | (dsimp only) | (dsimp +zetaDelta only))

theorem execRequestTimeout_keeps {pq : State} (tag : BitVec 16) (s : State) (hk : Keeps pq s) :
    KeepsR pq (execRequestTimeout tag s) := by
  unfold execRequestTimeout
  repeat' (first
    | with_reducible assumption | (with_reducible apply keepsR_next) | (with_reducible apply State.resolveFail_keeps)
    | (intro _ (_ : Keeps _ _)) | (intro _ _ (_ : Keeps _ _)) | (intro w; refine @keeps_cut pq _ w ?_ ?_; unfold w)
    | (intro _) | (lift_lets) | (with_reducible apply keeps_ite) | split | (dsimp only) | (simp only [keeps_mk])
    | (dsimp +zetaDelta only))

theorem execTagFree_keeps {pq : State} (tag : BitVec 16) (s : State) (hk : Keeps pq s) :
    KeepsR pq (execTagFree tag s) := by
  unfold execTagFree
  repeat' (first
    | with_reducible assumption | (with_reducible apply keepsR_next) | (intro _ (_ : Keeps _ _))
    | (intro _ _ (_ : Keeps _ _)) | (intro _) | (lift_lets) | (dsimp only) | (simp only [keeps_mk])
    | (dsimp +zetaDelta only))

theorem execPortEnable_keeps {pq : State} (p : Port) (s : State) (hk : Keeps pq s) :
    KeepsR pq (execPortEnable p s) := by
  unfold execPortEnable
  repeat' (first
    | with_reducible assumption | (with_reducible apply keepsR_next) | (with_reducible apply State.trainPort_keeps)
    | (with_reducible apply State.whenServing_keeps) | (intro _ (_ : Keeps _ _)) | (intro _ _ (_ : Keeps _ _))
    | (intro _) | (lift_lets) | (with_reducible apply keeps_ite) | split | (dsimp only))

theorem execTrainDone_keeps {pq : State} (p : Port) (s : State) (hk : Keeps pq s) :
    KeepsR pq (execTrainDone p s) := by
  unfold execTrainDone
  repeat' (first
    | with_reducible assumption | (with_reducible apply keepsR_next) | (with_reducible apply State.portState_keeps)
    | (with_reducible apply State.whenServing_keeps) | (intro _ (_ : Keeps _ _)) | (intro _ _ (_ : Keeps _ _))
    | (intro _) | (lift_lets) | (with_reducible apply keeps_ite) | split | (dsimp only))

theorem execAlignDone_keeps {pq : State} (p : Port) (skewNs : Nat) (s : State) (hk : Keeps pq s) :
    KeepsR pq (execAlignDone p skewNs s) := by
  unfold execAlignDone
  repeat' (first
    | with_reducible assumption | (with_reducible apply keepsR_next) | (with_reducible apply State.portState_keeps)
    | (with_reducible apply State.queueSpdm_keeps) | (with_reducible apply State.whenServing_keeps)
    | (intro _ (_ : Keeps _ _)) | (intro _ _ (_ : Keeps _ _)) | (intro w; refine @keeps_cut pq _ w ?_ ?_; unfold w)
    | (intro _) | (lift_lets) | (with_reducible apply keeps_ite) | split | (dsimp only) | (dsimp +zetaDelta only))

theorem State.portSession_keeps {pq : State} (s : State) (p : Port) (hk : Keeps pq s) :
    Keeps pq (State.portSession s p) := by
  unfold State.portSession
  repeat' (first
    | with_reducible assumption | (intro _) | (lift_lets) | (with_reducible apply keeps_ite) | split | (dsimp only)
    | (simp only [keeps_mk]) | (dsimp +zetaDelta only))

theorem execAuthDone_keeps {pq : State} (p : Port) (chainOk : PartnerChain) (s : State) (hk : Keeps pq s) :
    KeepsR pq (execAuthDone p chainOk s) := by
  unfold execAuthDone
  repeat' (first
    | with_reducible assumption | (with_reducible apply keepsR_next) | (with_reducible apply State.modPort_keeps)
    | (with_reducible apply State.param_keeps) | (with_reducible apply State.portSession_keeps)
    | (with_reducible apply State.portState_keeps) | (with_reducible apply State.queueLnk_keeps)
    | (with_reducible apply State.whenServing_keeps) | (intro _ (_ : Keeps _ _)) | (intro _ _ (_ : Keeps _ _))
    | (intro w; refine @keeps_cut pq _ w ?_ ?_; unfold w) | (intro _) | (lift_lets) | (with_reducible apply keeps_ite)
    | split | (dsimp only) | (simp only [keeps_mk]) | (dsimp +zetaDelta only))

theorem execPortStateLimit_keeps {pq : State} (p : Port) (s : State) (hk : Keeps pq s) :
    KeepsR pq (execPortStateLimit p s) := by
  unfold execPortStateLimit
  repeat' (first
    | with_reducible assumption | (with_reducible apply keepsR_next) | (with_reducible apply State.portDown_keeps)
    | (intro w; refine @keeps_cut pq _ w ?_ ?_; unfold w) | (intro _) | (lift_lets) | (with_reducible apply keeps_ite)
    | split | (dsimp only) | (dsimp +zetaDelta only))

theorem execLinkFailure_keeps {pq : State} (p : Port) (why : LinkFailReason) (s : State) (hk : Keeps pq s) :
    KeepsR pq (execLinkFailure p why s) := by
  unfold execLinkFailure
  repeat' (first
    | with_reducible assumption | (with_reducible apply keepsR_next) | (with_reducible apply State.countPort_keeps)
    | (with_reducible apply State.portDown_keeps) | (with_reducible apply keeps_ite) | split | (dsimp only))

theorem execDownRetrain_keeps {pq : State} (p : Port) (s : State) (hk : Keeps pq s) :
    KeepsR pq (execDownRetrain p s) := by
  unfold execDownRetrain
  repeat' (first
    | with_reducible assumption | (with_reducible apply keepsR_next) | (with_reducible apply State.setPort_keeps)
    | (with_reducible apply State.trainPort_keeps) | (with_reducible apply State.whenServing_keeps)
    | (intro _ (_ : Keeps _ _)) | (intro _ _ (_ : Keeps _ _)) | (intro w; refine @keeps_cut pq _ w ?_ ?_; unfold w)
    | (intro _) | (lift_lets) | (with_reducible apply keeps_ite) | split | (dsimp only) | (simp only [keeps_mk])
    | (dsimp +zetaDelta only))

theorem State.failover_keeps {pq : State} (s : State) (node : Nat) (hk : Keeps pq s) :
    Keeps pq (State.failover s node) := by
  unfold State.failover
  repeat' (first
    | with_reducible assumption | (with_reducible apply State.modPort_keeps)
    | (with_reducible apply State.watchCredit_keeps) | (intro _ (_ : Keeps _ _)) | (intro _ _ (_ : Keeps _ _))
    | (intro w; refine @keeps_cut pq _ w ?_ ?_; unfold w) | (intro _) | (lift_lets) | (with_reducible apply keeps_ite)
    | split | (dsimp only) | (simp only [keeps_mk]) | (dsimp +zetaDelta only))

theorem execAlternateFailover_keeps {pq : State} (node : BitVec 16) (s : State) (hk : Keeps pq s) :
    KeepsR pq (execAlternateFailover node s) := by
  unfold execAlternateFailover
  repeat' (first
    | with_reducible assumption | (with_reducible apply keepsR_next) | (with_reducible apply State.failover_keeps)
    | (with_reducible apply State.whenServing_keeps) | (intro _ (_ : Keeps _ _)) | (intro _ _ (_ : Keeps _ _))
    | (intro _) | (lift_lets) | (dsimp only))

theorem State.peerDead_keeps {pq : State} (s : State) (n : Nat) (hk : Keeps pq s) :
    Keeps pq (State.peerDead s n) := by
  unfold State.peerDead
  repeat' (first
    | with_reducible assumption | (with_reducible apply keeps_foldl) | (with_reducible apply State.portOut_keeps)
    | (with_reducible apply State.resolveFail_keeps) | (with_reducible apply State.setPeer_keeps)
    | (intro _ (_ : Keeps _ _)) | (intro _ _ (_ : Keeps _ _)) | (intro w; refine @keeps_cut pq _ w ?_ ?_; unfold w)
    | (intro _) | (lift_lets) | (with_reducible apply keeps_ite) | split | (dsimp only) | (simp only [keeps_mk])
    | (dsimp +zetaDelta only))

theorem State.applyPeers_keeps {pq : State} (s : State) (dead : Bool) (hk : Keeps pq s) :
    Keeps pq (State.applyPeers s dead) := by
  unfold State.applyPeers
  repeat' (first
    | with_reducible assumption | (with_reducible apply keeps_foldl) | (with_reducible apply State.dropBoundary_keeps)
    | (with_reducible apply State.peerDead_keeps) | (with_reducible apply State.setPeer_keeps)
    | (intro _ (_ : Keeps _ _)) | (intro _ _ (_ : Keeps _ _)) | (intro _) | (lift_lets)
    | (with_reducible apply keeps_ite) | split | (dsimp only) | (simp only [keeps_mk]) | (dsimp +zetaDelta only))

theorem execTwnPeerDeclare_keeps {pq : State} (s : State) (hk : Keeps pq s) :
    KeepsR pq (execTwnPeerDeclare s) := by
  unfold execTwnPeerDeclare
  repeat' (first
    | with_reducible assumption | (with_reducible apply keepsR_next) | (with_reducible apply State.applyPeers_keeps)
    | (with_reducible apply State.whenServing_keeps) | (intro _ (_ : Keeps _ _)) | (intro _ _ (_ : Keeps _ _))
    | (intro _) | (lift_lets) | (dsimp only))

theorem execTwnPeerAdmit_keeps {pq : State} (s : State) (hk : Keeps pq s) :
    KeepsR pq (execTwnPeerAdmit s) := by
  unfold execTwnPeerAdmit
  repeat' (first
    | with_reducible assumption | (with_reducible apply keepsR_next) | (with_reducible apply State.applyPeers_keeps)
    | (with_reducible apply State.whenServing_keeps) | (intro _ (_ : Keeps _ _)) | (intro _ _ (_ : Keeps _ _))
    | (intro _) | (lift_lets) | (dsimp only))

theorem State.peerCmd_keeps {pq : State} (s : State) (v : Nat) (hk : Keeps pq s) :
    Keeps pq (State.peerCmd s v) := by
  unfold State.peerCmd
  repeat' (first
    | with_reducible assumption | (with_reducible apply State.atBoundary_keeps)
    | (with_reducible apply State.logInvalid_keeps) | (with_reducible apply State.peerDead_keeps)
    | (intro w; refine @keeps_cut pq _ w ?_ ?_; unfold w) | (intro _) | (lift_lets) | (with_reducible apply keeps_ite)
    | split | (dsimp only) | (dsimp +zetaDelta only))

theorem State.xltRead_keeps {pq : State} (s : State) (hk : Keeps pq s) :
    Keeps pq (State.xltRead s) := by
  unfold State.xltRead
  repeat' (first
    | with_reducible assumption | (with_reducible apply keeps_foldl) | (with_reducible apply keeps_foldl_snd)
    | (with_reducible apply State.readMem_keeps) | (with_reducible apply State.setReg_keeps)
    | (intro _ (_ : Keeps _ _)) | (intro _ _ (_ : Keeps _ _)) | (intro w; refine @keeps_cut pq _ w ?_ ?_; unfold w)
    | (intro _) | (lift_lets) | (dsimp only) | (dsimp +zetaDelta only) | (refine keeps_pair (by assumption) ?_)
    | (refine keeps_triple (by assumption) ?_))

theorem State.forget_keeps {pq : State} (s : State) (page : Nat) (hk : Keeps pq s) :
    Keeps pq (State.forget s page) := by
  unfold State.forget
  repeat' (first
    | with_reducible assumption | (intro _ (_ : Keeps _ _)) | (intro _ _ (_ : Keeps _ _)) | (intro _) | (lift_lets)
    | (dsimp only) | (simp only [keeps_mk]) | (dsimp +zetaDelta only))

theorem State.xltWrite_keeps {pq : State} (s : State) (hk : Keeps pq s) :
    Keeps pq (State.xltWrite s) := by
  unfold State.xltWrite
  repeat' (first
    | with_reducible assumption | (with_reducible apply keeps_foldl) | (with_reducible apply State.forget_keeps)
    | (with_reducible apply State.logInvalid_keeps) | (with_reducible apply State.writeBytes_keeps)
    | (intro _ (_ : Keeps _ _)) | (intro _ _ (_ : Keeps _ _)) | (intro w; refine @keeps_cut pq _ w ?_ ?_; unfold w)
    | (intro _) | (lift_lets) | (with_reducible apply keeps_ite) | split | (dsimp only) | (dsimp +zetaDelta only))

theorem execTwnXltRead_keeps {pq : State} (s : State) (hk : Keeps pq s) :
    KeepsR pq (execTwnXltRead s) := by
  unfold execTwnXltRead
  repeat' (first
    | with_reducible assumption | (with_reducible apply keepsR_next) | (with_reducible apply State.pfWrite_keeps)
    | (with_reducible apply State.xltRead_keeps) | (intro _ (_ : Keeps _ _)) | (intro _ _ (_ : Keeps _ _)) | (intro _)
    | (lift_lets) | (dsimp only))

theorem execTwnXltWrite_keeps {pq : State} (s : State) (hk : Keeps pq s) :
    KeepsR pq (execTwnXltWrite s) := by
  unfold execTwnXltWrite
  repeat' (first
    | with_reducible assumption | (with_reducible apply keepsR_next) | (with_reducible apply State.pfWrite_keeps)
    | (with_reducible apply State.xltWrite_keeps) | (intro _ (_ : Keeps _ _)) | (intro _ _ (_ : Keeps _ _)) | (intro _)
    | (lift_lets) | (dsimp only))

end Sys2Proof.Machine
end

