-- ==== Sys2Proof/Laws/KeepsHostRings.lean ====
section
/-!
SUPPORT. The operations of Machine/HostRings.lean keep memory canonical and the queue as it is.
-/

namespace Sys2Proof.Machine

theorem State.dbSq_keeps {pq : State} (s : State) (c : Nat) (tail : Word) (hk : Keeps pq s) :
    Keeps pq (State.dbSq s c tail) := by
  unfold State.dbSq
  repeat' (first
    | with_reducible assumption | (with_reducible apply State.readAhead_keeps)
    | (with_reducible apply State.setCtx_keeps) | (with_reducible apply State.teardown_keeps)
    | (intro w; refine @keeps_cut pq _ w ?_ ?_; unfold w) | (intro _) | (lift_lets) | (with_reducible apply keeps_ite)
    | split | (dsimp only) | (simp only [keeps_mk]) | (dsimp +zetaDelta only))

theorem execCtxDbSq_keeps {pq : State} (x : Ctx) (tail : Word) (s : State) (hk : Keeps pq s) :
    KeepsR pq (execCtxDbSq x tail s) := by
  unfold execCtxDbSq
  repeat' (first
    | with_reducible assumption | (with_reducible apply keepsR_next) | (with_reducible apply State.dbSq_keeps)
    | (with_reducible apply State.doorbell_keeps) | (intro _ (_ : Keeps _ _)) | (intro _ _ (_ : Keeps _ _)) | (intro _)
    | (lift_lets) | (dsimp only))

theorem State.dbCq_keeps {pq : State} (s : State) (c : Nat) (head : Word) (hk : Keeps pq s) :
    Keeps pq (State.dbCq s c head) := by
  unfold State.dbCq
  repeat' (first
    | with_reducible assumption | (with_reducible apply State.refuseDoorbell_keeps)
    | (with_reducible apply State.setCtx_keeps) | (intro w; refine @keeps_cut pq _ w ?_ ?_; unfold w) | (intro _)
    | (lift_lets) | (with_reducible apply keeps_ite) | split | (dsimp only) | (simp only [keeps_mk])
    | (dsimp +zetaDelta only))

theorem execCtxDbCq_keeps {pq : State} (x : Ctx) (head : Word) (s : State) (hk : Keeps pq s) :
    KeepsR pq (execCtxDbCq x head s) := by
  unfold execCtxDbCq
  repeat' (first
    | with_reducible assumption | (with_reducible apply keepsR_next) | (with_reducible apply State.dbCq_keeps)
    | (with_reducible apply State.doorbell_keeps) | (intro _ (_ : Keeps _ _)) | (intro _ _ (_ : Keeps _ _)) | (intro _)
    | (lift_lets) | (dsimp only))

theorem State.dbEq_keeps {pq : State} (s : State) (c : Nat) (head : Word) (hk : Keeps pq s) :
    Keeps pq (State.dbEq s c head) := by
  unfold State.dbEq
  repeat' (first
    | with_reducible assumption | (with_reducible apply State.refuseDoorbell_keeps)
    | (with_reducible apply State.setCtx_keeps) | (intro w; refine @keeps_cut pq _ w ?_ ?_; unfold w) | (intro _)
    | (lift_lets) | (with_reducible apply keeps_ite) | split | (dsimp only) | (simp only [keeps_mk])
    | (dsimp +zetaDelta only))

theorem execCtxDbEq_keeps {pq : State} (x : Ctx) (head : Word) (s : State) (hk : Keeps pq s) :
    KeepsR pq (execCtxDbEq x head s) := by
  unfold execCtxDbEq
  repeat' (first
    | with_reducible assumption | (with_reducible apply keepsR_next) | (with_reducible apply State.dbEq_keeps)
    | (with_reducible apply State.doorbell_keeps) | (intro _ (_ : Keeps _ _)) | (intro _ _ (_ : Keeps _ _)) | (intro _)
    | (lift_lets) | (dsimp only))

theorem execRingReadError_keeps {pq : State} (x : Ctx) (s : State) (hk : Keeps pq s) :
    KeepsR pq (execRingReadError x s) := by
  unfold execRingReadError
  repeat' (first
    | with_reducible assumption | (with_reducible apply keepsR_next) | (with_reducible apply State.teardown_keeps)
    | (with_reducible apply State.whenServing_keeps) | (intro _ (_ : Keeps _ _)) | (intro _ _ (_ : Keeps _ _))
    | (intro _) | (lift_lets) | (with_reducible apply keeps_ite) | split | (dsimp only))

theorem State.flushDone_keeps {pq : State} (s : State) (c : Nat) (ok : Bool) (hk : Keeps pq s) :
    Keeps pq (State.flushDone s c ok) := by
  unfold State.flushDone
  repeat' (first
    | with_reducible assumption | (with_reducible apply State.askFlush_keeps)
    | (with_reducible apply State.drainPosts_keeps) | (with_reducible apply State.dropPuts_keeps)
    | (with_reducible apply State.hostError_keeps) | (with_reducible apply State.modCtx_keeps)
    | (with_reducible apply State.orphans_keeps) | (with_reducible apply State.settle_keeps)
    | (intro _ (_ : Keeps _ _)) | (intro _ _ (_ : Keeps _ _)) | (intro w; refine @keeps_cut pq _ w ?_ ?_; unfold w)
    | (intro _) | (lift_lets) | (with_reducible apply keeps_ite) | split | (dsimp only) | (simp only [keeps_mk])
    | (dsimp +zetaDelta only))

theorem execFlushReadComplete_keeps {pq : State} (x : Ctx) (ok : Bool) (s : State) (hk : Keeps pq s) :
    KeepsR pq (execFlushReadComplete x ok s) := by
  unfold execFlushReadComplete
  repeat' (first
    | with_reducible assumption | (with_reducible apply keepsR_next) | (with_reducible apply State.flushDone_keeps)
    | (with_reducible apply keeps_ite) | split | (dsimp only))

theorem execIrqDelayExpiry_keeps {pq : State} (x : Ctx) (s : State) (hk : Keeps pq s) :
    KeepsR pq (execIrqDelayExpiry x s) := by
  unfold execIrqDelayExpiry
  repeat' (first
    | with_reducible assumption | (with_reducible apply keepsR_next) | (with_reducible apply State.msix_keeps)
    | (with_reducible apply State.setCtx_keeps) | (intro w; refine @keeps_cut pq _ w ?_ ?_; unfold w) | (intro _)
    | (lift_lets) | (with_reducible apply keeps_ite) | split | (dsimp only) | (simp only [keeps_mk])
    | (dsimp +zetaDelta only))

theorem execRingStatusWrite_keeps {pq : State} (x : Ctx) (s : State) (hk : Keeps pq s) :
    KeepsR pq (execRingStatusWrite x s) := by
  unfold execRingStatusWrite
  repeat' (first
    | with_reducible assumption | (with_reducible apply keepsR_next) | (with_reducible apply State.writeRsb_keeps)
    | (with_reducible apply keeps_ite) | split | (dsimp only))

theorem State.noteFailed_keeps {pq : State} (s : State) (c who : Nat) (tag : Word) (bus : BitVec 64) (hk : Keeps pq s) :
    Keeps pq (State.noteFailed s c who tag bus) := by
  unfold State.noteFailed
  repeat' (first
    | with_reducible assumption | (with_reducible apply State.hostError_keeps)
    | (with_reducible apply State.modCtx_keeps) | (intro _ (_ : Keeps _ _)) | (intro _ _ (_ : Keeps _ _)) | (intro _)
    | (lift_lets) | (dsimp only) | (simp only [keeps_mk]) | (dsimp +zetaDelta only))

theorem State.promptFailed_keeps {pq : State} (s : State) (c uid slot : Nat) (bus : BitVec 64) (hk : Keeps pq s) :
    Keeps pq (State.promptFailed s c uid slot bus) := by
  unfold State.promptFailed
  repeat' (first
    | with_reducible assumption | (with_reducible apply State.countError_keeps)
    | (with_reducible apply State.endSeq_keeps) | (with_reducible apply State.final_keeps)
    | (with_reducible apply State.hostError_keeps) | (with_reducible apply State.modSeq_keeps)
    | (with_reducible apply State.settleHank_keeps) | (intro _ (_ : Keeps _ _)) | (intro _ _ (_ : Keeps _ _))
    | (intro w; refine @keeps_cut pq _ w ?_ ?_; unfold w) | (intro _) | (lift_lets) | (with_reducible apply keeps_ite)
    | split | (dsimp only) | (simp only [keeps_mk]) | (dsimp +zetaDelta only))

theorem State.hostReadError_keeps {pq : State} (s : State) (c : Nat) (who : HostRequester) (bus : BitVec 64) (hk : Keeps pq s) :
    Keeps pq (State.hostReadError s c who bus) := by
  unfold State.hostReadError
  repeat' (first
    | with_reducible assumption | (with_reducible apply State.hostError_keeps)
    | (with_reducible apply State.noteFailed_keeps) | (with_reducible apply State.promptFailed_keeps)
    | (with_reducible apply State.restoreFailed_keeps) | (intro _ (_ : Keeps _ _)) | (intro _ _ (_ : Keeps _ _))
    | (intro _) | (lift_lets) | (with_reducible apply keeps_ite) | split | (dsimp only))

theorem execHostReadError_keeps {pq : State} (x : Ctx) (who : HostRequester) (bus : BitVec 64) (s : State) (hk : Keeps pq s) :
    KeepsR pq (execHostReadError x who bus s) := by
  unfold execHostReadError
  repeat' (first
    | with_reducible assumption | (with_reducible apply keepsR_next) | (with_reducible apply State.hostReadError_keeps)
    | (with_reducible apply State.whenServing_keeps) | (intro _ (_ : Keeps _ _)) | (intro _ _ (_ : Keeps _ _))
    | (intro _) | (lift_lets) | (dsimp only))

theorem State.setRun_keeps {pq : State} (s : State) (func page c : Nat) (run : Bool) (hk : Keeps pq s) :
    Keeps pq (State.setRun s func page c run) := by
  unfold State.setRun
  repeat' (first
    | with_reducible assumption | (with_reducible apply State.enter_keeps)
    | (with_reducible apply State.logInvalid_keeps) | (with_reducible apply State.modCtx_keeps)
    | (with_reducible apply State.setReg_keeps) | (with_reducible apply State.settle_keeps) | (intro _ (_ : Keeps _ _))
    | (intro _ _ (_ : Keeps _ _)) | (intro w; refine @keeps_cut pq _ w ?_ ?_; unfold w) | (intro _) | (lift_lets)
    | (with_reducible apply keeps_ite) | split | (dsimp only) | (dsimp +zetaDelta only))

theorem execRingCtlRun_keeps {pq : State} (x : Ctx) (run : Bool) (s : State) (hk : Keeps pq s) :
    KeepsR pq (execRingCtlRun x run s) := by
  unfold execRingCtlRun
  repeat' (first
    | with_reducible assumption | (with_reducible apply keepsR_next) | (with_reducible apply State.pageWrite_keeps)
    | (with_reducible apply State.setRun_keeps) | (intro _ (_ : Keeps _ _)) | (intro _ _ (_ : Keeps _ _)) | (intro _)
    | (lift_lets) | (dsimp only))

theorem execStoppingDone_keeps {pq : State} (x : Ctx) (s : State) (hk : Keeps pq s) :
    KeepsR pq (execStoppingDone x s) := by
  unfold execStoppingDone
  repeat' (first
    | with_reducible assumption | (with_reducible apply keepsR_next) | (with_reducible apply State.settle_keeps)
    | (dsimp only))

theorem State.resetCtx_keeps {pq : State} (s : State) (c : Nat) (hk : Keeps pq s) :
    Keeps pq (State.resetCtx s c) := by
  unfold State.resetCtx
  repeat' (first
    | with_reducible assumption | (with_reducible apply State.freshPage_keeps)
    | (with_reducible apply State.modCtx_keeps) | (with_reducible apply State.teardownFor_keeps)
    | (intro _ (_ : Keeps _ _)) | (intro _ _ (_ : Keeps _ _)) | (intro _) | (lift_lets)
    | (with_reducible apply keeps_ite) | split | (dsimp only) | (simp only [keeps_mk]) | (dsimp +zetaDelta only))

theorem State.flrCtx_keeps {pq : State} (s : State) (c : Nat) (hk : Keeps pq s) :
    Keeps pq (State.flrCtx s c) := by
  unfold State.flrCtx
  repeat' (first
    | with_reducible assumption | (with_reducible apply State.dropPosts_keeps)
    | (with_reducible apply State.freshPage_keeps) | (with_reducible apply State.teardownFor_keeps) | (intro _)
    | (lift_lets) | (dsimp only) | (simp only [keeps_mk]) | (dsimp +zetaDelta only))

theorem execCtxReset_keeps {pq : State} (x : Ctx) (s : State) (hk : Keeps pq s) :
    KeepsR pq (execCtxReset x s) := by
  unfold execCtxReset
  repeat' (first
    | with_reducible assumption | (with_reducible apply keepsR_next) | (with_reducible apply State.pfWrite_keeps)
    | (with_reducible apply State.resetCtx_keeps) | (intro _ (_ : Keeps _ _)) | (intro _ _ (_ : Keeps _ _)) | (intro _)
    | (lift_lets) | (dsimp only))

theorem State.endFuncSessions_keeps {pq : State} (s : State) (p : Nat → Bool) (hk : Keeps pq s) :
    Keeps pq (State.endFuncSessions s p) := by
  unfold State.endFuncSessions
  repeat' (first
    | with_reducible assumption | (intro _ (_ : Keeps _ _)) | (intro _ _ (_ : Keeps _ _)) | (intro _) | (lift_lets)
    | split | (dsimp only) | (simp only [keeps_mk]) | (dsimp +zetaDelta only))

theorem execVfFlr_keeps {pq : State} (x : Ctx) (s : State) (hk : Keeps pq s) :
    KeepsR pq (execVfFlr x s) := by
  unfold execVfFlr
  repeat' (first
    | with_reducible assumption | (with_reducible apply keepsR_next) | (with_reducible apply State.cfgRequest_keeps)
    | (with_reducible apply State.endFuncSessions_keeps) | (with_reducible apply State.flrCtx_keeps)
    | (with_reducible apply State.modCtx_keeps) | (intro _ (_ : Keeps _ _)) | (intro _ _ (_ : Keeps _ _))
    | (intro w; refine @keeps_cut pq _ w ?_ ?_; unfold w) | (intro _) | (lift_lets) | (with_reducible apply keeps_ite)
    | split | (dsimp only) | (dsimp +zetaDelta only))

theorem State.pfFlr_keeps {pq : State} (s : State) (hk : Keeps pq s) :
    Keeps pq (State.pfFlr s) := by
  unfold State.pfFlr
  repeat' (first
    | with_reducible assumption | (with_reducible apply keeps_foldl) | (with_reducible apply State.dropUpdate_keeps)
    | (with_reducible apply State.endFuncSessions_keeps) | (with_reducible apply State.flrCtx_keeps)
    | (with_reducible apply State.freeHeldWhere_keeps) | (intro _ (_ : Keeps _ _)) | (intro _ _ (_ : Keeps _ _))
    | (intro w; refine @keeps_cut pq _ w ?_ ?_; unfold w) | (intro _) | (lift_lets) | (dsimp only)
    | (simp only [keeps_mk]) | (dsimp +zetaDelta only))

theorem execPfFlr_keeps {pq : State} (s : State) (hk : Keeps pq s) :
    KeepsR pq (execPfFlr s) := by
  unfold execPfFlr
  repeat' (first
    | with_reducible assumption | (with_reducible apply keepsR_next) | (with_reducible apply State.cfgRequest_keeps)
    | (with_reducible apply State.pfFlr_keeps) | (dsimp only))

theorem execBusMasterClear_keeps {pq : State} (x : Ctx) (s : State) (hk : Keeps pq s) :
    KeepsR pq (execBusMasterClear x s) := by
  unfold execBusMasterClear
  repeat' (first
    | with_reducible assumption | (with_reducible apply keepsR_next) | (with_reducible apply State.atBoundary_keeps)
    | (with_reducible apply State.cfgRequest_keeps) | (with_reducible apply State.modCtx_keeps)
    | (with_reducible apply State.teardown_keeps) | (intro _ (_ : Keeps _ _)) | (intro _ _ (_ : Keeps _ _))
    | (intro w; refine @keeps_cut pq _ w ?_ ?_; unfold w) | (intro _) | (lift_lets) | (with_reducible apply keeps_ite)
    | split | (dsimp only) | (simp only [keeps_mk]) | (dsimp +zetaDelta only))

end Sys2Proof.Machine
end

