-- ==== Sys2Proof/Laws/KeepsInputs.lean ====
section
/-!
SUPPORT. The operations of Machine/Inputs.lean keep memory canonical and the queue as it is.
-/

namespace Sys2Proof.Machine

theorem State.setInput_keeps {pq : State} (s : State) (i : Nat) (x : InputSt) (hk : Keeps pq s) :
    Keeps pq (State.setInput s i x) := by
  unfold State.setInput
  repeat' (first
    | with_reducible assumption | (intro _) | (lift_lets) | (dsimp only) | (simp only [keeps_mk])
    | (dsimp +zetaDelta only))

theorem State.acceptInput_keeps {pq : State} (s : State) (i : Nat) (prev cur : Bool) (hk : Keeps pq s) :
    Keeps pq (State.acceptInput s i prev cur).2 := by
  unfold State.acceptInput
  repeat' (first
    | with_reducible assumption | (with_reducible apply State.countPort_keeps)
    | (with_reducible apply State.setInput_keeps) | (intro _ (_ : Keeps _ _)) | (intro _ _ (_ : Keeps _ _))
    | (intro w; refine @keeps_cut pq _ w ?_ ?_; unfold w) | (intro _) | (lift_lets) | (with_reducible apply keeps_ite)
    | split | (dsimp only) | (simp only [keeps_mk]) | (dsimp +zetaDelta only))

theorem State.endMask_keeps {pq : State} (s : State) (i : Nat) (prev cur : Bool) (hk : Keeps pq s) :
    Keeps pq (State.endMask s i prev cur).2 := by
  unfold State.endMask
  repeat' (first
    | with_reducible assumption | (with_reducible apply State.setInput_keeps) | (intro _ (_ : Keeps _ _))
    | (intro _ _ (_ : Keeps _ _)) | (intro w; refine @keeps_cut pq _ w ?_ ?_; unfold w) | (intro _) | (lift_lets)
    | (with_reducible apply keeps_ite) | split | (dsimp only) | (simp only [keeps_mk]) | (dsimp +zetaDelta only))

theorem State.unstall_keeps {pq : State} (s : State) (p : Nat) (hk : Keeps pq s) :
    Keeps pq (State.unstall s p) := by
  unfold State.unstall
  repeat' (first
    | with_reducible assumption | (with_reducible apply State.portState_keeps)
    | (with_reducible apply State.settleRoutes_keeps) | (with_reducible apply keeps_ite) | split | (dsimp only))

theorem execPauseInAccept_keeps {pq : State} (p : Port) (prev cur : Bool) (s : State) (hk : Keeps pq s) :
    KeepsR pq (execPauseInAccept p prev cur s) := by
  unfold execPauseInAccept
  repeat' (first
    | with_reducible assumption | (with_reducible apply keepsR_next) | (with_reducible apply State.acceptInput_keeps)
    | (with_reducible apply State.unstall_keeps) | (intro w; refine @keeps_cut pq _ w ?_ ?_; unfold w) | (intro _)
    | (lift_lets) | (with_reducible apply keeps_ite) | split | (dsimp only) | (dsimp +zetaDelta only)
    | (refine keeps_pair (by assumption) ?_) | (refine keeps_triple (by assumption) ?_))

theorem State.setStuck_keeps {pq : State} (s : State) (i : Nat) (hk : Keeps pq s) :
    Keeps pq (State.setStuck s i) := by
  unfold State.setStuck
  repeat' (first
    | with_reducible assumption | (with_reducible apply State.setInput_keeps) | (intro _) | (lift_lets) | (dsimp only)
    | (simp only [keeps_mk]) | (dsimp +zetaDelta only))

theorem State.pauseStuck_keeps {pq : State} (s : State) (p : Nat) (hk : Keeps pq s) :
    Keeps pq (State.pauseStuck s p) := by
  unfold State.pauseStuck
  repeat' (first
    | with_reducible assumption | (with_reducible apply State.portState_keeps)
    | (with_reducible apply State.setStuck_keeps) | (with_reducible apply State.settleRoutes_keeps)
    | (intro w; refine @keeps_cut pq _ w ?_ ?_; unfold w) | (intro _) | (lift_lets) | (with_reducible apply keeps_ite)
    | split | (dsimp only) | (dsimp +zetaDelta only))

theorem execPauseStuck_keeps {pq : State} (p : Port) (s : State) (hk : Keeps pq s) :
    KeepsR pq (execPauseStuck p s) := by
  unfold execPauseStuck
  repeat' (first
    | with_reducible assumption | (with_reducible apply keepsR_next) | (with_reducible apply State.pauseStuck_keeps)
    | (dsimp only))

theorem State.cancelDrain_keeps {pq : State} (s : State) (hk : Keeps pq s) :
    Keeps pq (State.cancelDrain s) := by
  unfold State.cancelDrain
  repeat' (first
    | with_reducible assumption | (with_reducible apply keeps_foldl) | (with_reducible apply State.setFld_keeps)
    | (with_reducible apply State.trainPort_keeps) | (intro _ (_ : Keeps _ _)) | (intro _ _ (_ : Keeps _ _))
    | (intro w; refine @keeps_cut pq _ w ?_ ?_; unfold w) | (intro _) | (lift_lets) | (with_reducible apply keeps_ite)
    | split | (dsimp only) | (simp only [keeps_mk]) | (dsimp +zetaDelta only))

theorem State.wakeBy_keeps {pq : State} (s : State) (src : Nat) (hk : Keeps pq s) :
    Keeps pq (State.wakeBy s src) := by
  unfold State.wakeBy
  repeat' (first
    | with_reducible assumption | (with_reducible apply State.cancelDrain_keeps)
    | (with_reducible apply State.wakeFrom_keeps) | (with_reducible apply keeps_ite) | split | (dsimp only))

theorem State.wakeIn_keeps {pq : State} (s : State) (prev cur : Bool) (hk : Keeps pq s) :
    Keeps pq (State.wakeIn s prev cur) := by
  unfold State.wakeIn
  repeat' (first
    | with_reducible assumption | (with_reducible apply State.acceptInput_keeps)
    | (with_reducible apply State.wakeBy_keeps) | (intro w; refine @keeps_cut pq _ w ?_ ?_; unfold w) | (intro _)
    | (lift_lets) | (with_reducible apply keeps_ite) | split | (dsimp only) | (dsimp +zetaDelta only)
    | (refine keeps_pair (by assumption) ?_) | (refine keeps_triple (by assumption) ?_))

theorem execWakeInAccept_keeps {pq : State} (prev cur : Bool) (s : State) (hk : Keeps pq s) :
    KeepsR pq (execWakeInAccept prev cur s) := by
  unfold execWakeInAccept
  repeat' (first
    | with_reducible assumption | (with_reducible apply keepsR_next) | (with_reducible apply State.wakeIn_keeps)
    | (dsimp only))

theorem State.alertIn_keeps {pq : State} (s : State) (r : Bool × State) (hk : Keeps pq s) (hk2 : Keeps pq r.2) :
    Keeps pq (State.alertIn s r) := by
  unfold State.alertIn
  repeat' (first
    | with_reducible assumption | (intro _) | (lift_lets) | (with_reducible apply keeps_ite) | split | (dsimp only)
    | (simp only [keeps_mk]) | (dsimp +zetaDelta only))

theorem execThermAlertAccept_keeps {pq : State} (prev cur : Bool) (s : State) (hk : Keeps pq s) :
    KeepsR pq (execThermAlertAccept prev cur s) := by
  unfold execThermAlertAccept
  repeat' (first
    | with_reducible assumption | (with_reducible apply keepsR_next) | (with_reducible apply State.acceptInput_keeps)
    | (with_reducible apply State.alertIn_keeps) | (dsimp only) | (refine keeps_pair (by assumption) ?_)
    | (refine keeps_triple (by assumption) ?_))

theorem State.maskExpiry_keeps {pq : State} (s : State) (i : PinInput) (prev cur : Bool) (hk : Keeps pq s) :
    Keeps pq (State.maskExpiry s i prev cur) := by
  unfold State.maskExpiry
  repeat' (first
    | with_reducible assumption | (with_reducible apply State.alertIn_keeps)
    | (with_reducible apply State.endMask_keeps) | (with_reducible apply State.unstall_keeps)
    | (with_reducible apply State.wakeBy_keeps) | (with_reducible apply State.wakeIn_keeps)
    | (intro w; refine @keeps_cut pq _ w ?_ ?_; unfold w) | (intro _) | (lift_lets) | (with_reducible apply keeps_ite)
    | split | (dsimp only) | (dsimp +zetaDelta only) | (refine keeps_pair (by assumption) ?_)
    | (refine keeps_triple (by assumption) ?_))

theorem execChatterMaskExpiry_keeps {pq : State} (i : PinInput) (prev cur : Bool) (s : State) (hk : Keeps pq s) :
    KeepsR pq (execChatterMaskExpiry i prev cur s) := by
  unfold execChatterMaskExpiry
  repeat' (first
    | with_reducible assumption | (with_reducible apply keepsR_next) | (with_reducible apply State.maskExpiry_keeps)
    | (dsimp only))

theorem State.inputStuck_keeps {pq : State} (s : State) (i : PinInput) (hk : Keeps pq s) :
    Keeps pq (State.inputStuck s i) := by
  unfold State.inputStuck
  repeat' (first
    | with_reducible assumption | (with_reducible apply State.pauseStuck_keeps)
    | (with_reducible apply State.recordWake_keeps) | (with_reducible apply State.setStuck_keeps)
    | (with_reducible apply State.wakeIn_keeps) | (with_reducible apply keeps_ite) | split | (dsimp only))

theorem execInputStuck_keeps {pq : State} (i : PinInput) (s : State) (hk : Keeps pq s) :
    KeepsR pq (execInputStuck i s) := by
  unfold execInputStuck
  repeat' (first
    | with_reducible assumption | (with_reducible apply keepsR_next) | (with_reducible apply State.inputStuck_keeps)
    | (dsimp only))

end Sys2Proof.Machine
end

