-- ==== Sys2Proof/Laws/KeepsSteps.lean ====
section
/-!
SUPPORT. The operations of Machine/Steps.lean keep memory canonical and the queue as it is.
-/

namespace Sys2Proof.Machine

theorem State.giveCore_keeps {pq : State} (s : State) (core p c : Nat) (hk : Keeps pq s) :
    Keeps pq (State.giveCore s core p c) := by
  unfold State.giveCore
  repeat' (first
    | with_reducible assumption | (with_reducible apply State.asyncAll_keeps)
    | (with_reducible apply State.clearCore_keeps) | (with_reducible apply State.modCore_keeps)
    | (intro _ (_ : Keeps _ _)) | (intro _ _ (_ : Keeps _ _)) | (intro _) | (lift_lets)
    | (with_reducible apply keeps_ite) | split | (dsimp only) | (simp only [keeps_mk]) | (dsimp +zetaDelta only))

theorem State.giveCores_keeps {pq : State} (s : State) (m : BitVec 8) (c : Nat) (hk : Keeps pq s) :
    Keeps pq (State.giveCores s m c) := by
  unfold State.giveCores
  repeat' (first
    | with_reducible assumption | (with_reducible apply keeps_foldl) | (with_reducible apply State.giveCore_keeps)
    | (intro _ (_ : Keeps _ _)) | (intro _ _ (_ : Keeps _ _)) | (intro _) | (lift_lets) | split | (dsimp only))

theorem State.launch_keeps {pq : State} (s : State) (p : StepSt) (bank : Option Nat) (core : Nat) (src : StreamSrc) (credit : Word) (hk : Keeps pq s) :
    Keeps pq (State.launch s p bank core src credit) := by
  unfold State.launch
  repeat' (first
    | with_reducible assumption | (with_reducible apply State.endStream_keeps)
    | (with_reducible apply State.modCore_keeps) | (with_reducible apply State.setStream_keeps)
    | (with_reducible apply State.statusRecord_keeps) | (intro w; refine @keeps_cut pq _ w ?_ ?_; unfold w) | (intro _)
    | (lift_lets) | split | (dsimp only) | (dsimp +zetaDelta only))

theorem State.clearBank_keeps {pq : State} (s : State) (b : Nat) (hk : Keeps pq s) :
    Keeps pq (State.clearBank s b) := by
  unfold State.clearBank
  repeat' (first
    | with_reducible assumption | (intro _ (_ : Keeps _ _)) | (intro _ _ (_ : Keeps _ _)) | (intro _) | (lift_lets)
    | (dsimp only) | (simp only [keeps_mk]) | (dsimp +zetaDelta only))

theorem State.settleSeq_keeps {pq : State} (s : State) (uid i : Nat) (hk : Keeps pq s) :
    Keeps pq (State.settleSeq s uid i) := by
  unfold State.settleSeq
  repeat' (first
    | with_reducible assumption | (with_reducible apply State.endSeq_keeps) | (with_reducible apply State.modSeq_keeps)
    | (intro _ (_ : Keeps _ _)) | (intro _ _ (_ : Keeps _ _)) | (intro w; refine @keeps_cut pq _ w ?_ ?_; unfold w)
    | (intro _) | (lift_lets) | (with_reducible apply keeps_ite) | split | (dsimp only) | (simp only [keeps_mk])
    | (dsimp +zetaDelta only))

theorem State.closeStep_keeps {pq : State} (s : State) (uid tokens : Nat) (hk : Keeps pq s) :
    Keeps pq (State.closeStep s uid tokens) := by
  unfold State.closeStep
  repeat' (first
    | with_reducible assumption | (with_reducible apply keeps_foldl) | (with_reducible apply State.addStat_keeps)
    | (with_reducible apply State.chargeTime_keeps) | (with_reducible apply State.dropStep_keeps)
    | (with_reducible apply State.endAtMax_keeps) | (with_reducible apply State.freeBank_keeps)
    | (with_reducible apply State.modHank_keeps) | (with_reducible apply State.noteReady_keeps)
    | (with_reducible apply State.post_keeps) | (with_reducible apply State.settleHank_keeps)
    | (with_reducible apply State.settleModels_keeps) | (with_reducible apply State.settleSeq_keeps)
    | (intro _ (_ : Keeps _ _)) | (intro _ _ (_ : Keeps _ _)) | (intro w; refine @keeps_cut pq _ w ?_ ?_; unfold w)
    | (intro _) | (lift_lets) | (with_reducible apply keeps_ite) | split | (dsimp only) | (simp only [keeps_mk])
    | (dsimp +zetaDelta only))

theorem State.failStep_keeps {pq : State} (s : State) (uid code : Nat) (hk : Keeps pq s) :
    Keeps pq (State.failStep s uid code) := by
  unfold State.failStep
  repeat' (first
    | with_reducible assumption | (with_reducible apply keeps_foldl) | (with_reducible apply State.closeStep_keeps)
    | (with_reducible apply State.modSeq_keeps) | (intro _ (_ : Keeps _ _)) | (intro _ _ (_ : Keeps _ _))
    | (intro w; refine @keeps_cut pq _ w ?_ ?_; unfold w) | (intro _) | (lift_lets) | split | (dsimp only)
    | (simp only [keeps_mk]) | (dsimp +zetaDelta only))

theorem State.launchEntry_keeps {pq : State} (s : State) (uid : Nat) (table : List Nat) (core : Nat) (hk : Keeps pq s) :
    Keeps pq (State.launchEntry s uid table core) := by
  unfold State.launchEntry
  repeat' (first
    | with_reducible assumption | (with_reducible apply State.launch_keeps) | (intro _ (_ : Keeps _ _))
    | (intro _ _ (_ : Keeps _ _)) | (intro w; refine @keeps_cut pq _ w ?_ ?_; unfold w) | (intro _) | (lift_lets)
    | (with_reducible apply keeps_ite) | split | (dsimp only) | (dsimp +zetaDelta only))

theorem State.startPhase_keeps {pq : State} (s : State) (uid : Nat) (ph : Phase) (hk : Keeps pq s) :
    Keeps pq (State.startPhase s uid ph) := by
  unfold State.startPhase
  repeat' (first
    | with_reducible assumption | (with_reducible apply keeps_foldl) | (with_reducible apply keeps_foldl_snd)
    | (with_reducible apply keeps_foldl_trd) | (with_reducible apply State.clearBank_keeps)
    | (with_reducible apply State.failStep_keeps) | (with_reducible apply State.giveCores_keeps)
    | (with_reducible apply State.govRead_keeps) | (with_reducible apply State.launchEntry_keeps)
    | (with_reducible apply State.modStep_keeps) | (intro _ (_ : Keeps _ _)) | (intro _ _ (_ : Keeps _ _))
    | (intro w; refine @keeps_cut pq _ w ?_ ?_; unfold w) | (intro _) | (lift_lets) | (with_reducible apply keeps_ite)
    | split | (dsimp only) | (simp only [keeps_mk]) | (dsimp +zetaDelta only) | (refine keeps_pair (by assumption) ?_)
    | (refine keeps_triple (by assumption) ?_))

theorem State.armSlot_keeps {pq : State} (s : State) (uid : Nat) (w : SlotWork) (hk : Keeps pq s) :
    Keeps pq (State.armSlot s uid w) := by
  unfold State.armSlot
  repeat' (first
    | with_reducible assumption | (with_reducible apply keeps_foldl) | (with_reducible apply keeps_foldl_snd)
    | (with_reducible apply keeps_foldl_trd) | (with_reducible apply State.govRead_keeps)
    | (with_reducible apply State.govWrite_keeps) | (with_reducible apply State.modSeq_keeps)
    | (with_reducible apply State.modStep_keeps) | (with_reducible apply State.putBlock_keeps)
    | (with_reducible apply State.teardownFor_keeps) | (intro _ (_ : Keeps _ _)) | (intro _ _ (_ : Keeps _ _))
    | (intro w; refine @keeps_cut pq _ w ?_ ?_; unfold w) | (intro _) | (lift_lets) | (with_reducible apply keeps_ite)
    | split | (dsimp only) | (simp only [keeps_mk]) | (dsimp +zetaDelta only) | (refine keeps_pair (by assumption) ?_)
    | (refine keeps_triple (by assumption) ?_))

theorem State.fillAppend_keeps {pq : State} (s : State) (uid : Nat) (hk : Keeps pq s) :
    Keeps pq (State.fillAppend s uid) := by
  unfold State.fillAppend
  repeat' (first
    | with_reducible assumption | (with_reducible apply keeps_foldl) | (with_reducible apply keeps_foldl_snd)
    | (with_reducible apply State.govWrite_keeps) | (intro _ (_ : Keeps _ _)) | (intro _ _ (_ : Keeps _ _))
    | (intro w; refine @keeps_cut pq _ w ?_ ?_; unfold w) | (intro _) | (lift_lets) | split | (dsimp only)
    | (dsimp +zetaDelta only))

theorem State.leaveStep_keeps {pq : State} (s : State) (uid slot : Nat) (hk : Keeps pq s) :
    Keeps pq (State.leaveStep s uid slot) := by
  unfold State.leaveStep
  repeat' (first
    | with_reducible assumption | (with_reducible apply State.modStep_keeps) | (intro _ (_ : Keeps _ _))
    | (intro _ _ (_ : Keeps _ _)) | (intro _) | (lift_lets) | (dsimp only) | (simp only [keeps_mk])
    | (dsimp +zetaDelta only))

theorem State.prepSlot_keeps {pq : State} (s : State) (uid : Nat) (w : SlotWork) (hk : Keeps pq s) :
    Keeps pq (State.prepSlot s uid w) := by
  unfold State.prepSlot
  repeat' (first
    | with_reducible assumption | (with_reducible apply State.leaveStep_keeps)
    | (with_reducible apply State.modSeq_keeps) | (with_reducible apply State.modStep_keeps)
    | (with_reducible apply State.obtain_keeps) | (with_reducible apply State.parkSeq_keeps)
    | (with_reducible apply State.raiseSeq_keeps) | (intro _ (_ : Keeps _ _)) | (intro _ _ (_ : Keeps _ _))
    | exact keepsG_lack | exact keepsG_limit | (with_reducible apply keepsG_done)
    | (intro w; refine @keeps_cut pq _ w ?_ ?_; unfold w) | (intro _) | (lift_lets) | (with_reducible apply keeps_ite)
    | split | (dsimp only) | (simp only [keeps_mk]) | (dsimp +zetaDelta only) | (refine keepsG_pair (by assumption) ?_)
    | (refine keepsG_snd (by assumption) ?_) | (refine keepsG_id (by assumption) ?_))

theorem State.reclaimSlot_keeps {pq : State} (s : State) (uid i : Nat) (hk : Keeps pq s) :
    Keeps pq (State.reclaimSlot s uid i) := by
  unfold State.reclaimSlot
  repeat' (first
    | with_reducible assumption | (with_reducible apply State.reclaim_keeps)
    | (intro w; refine @keeps_cut pq _ w ?_ ?_; unfold w) | (intro _) | (lift_lets) | (with_reducible apply keeps_ite)
    | split | (dsimp only) | (dsimp +zetaDelta only))

theorem State.writeDepth_keeps {pq : State} (s : State) (uid : Nat) (w : SlotWork) (hk : Keeps pq s) :
    Keeps pq (State.writeDepth s uid w) := by
  unfold State.writeDepth
  repeat' (first
    | with_reducible assumption | (with_reducible apply State.govWrite_keeps) | split | (dsimp only))

theorem State.armStep_keeps {pq : State} (s : State) (uid : Nat) (ph : Phase) (hk : Keeps pq s) :
    Keeps pq (State.armStep s uid ph) := by
  unfold State.armStep
  repeat' (first
    | with_reducible assumption | (with_reducible apply keeps_foldl) | (with_reducible apply State.armSlot_keeps)
    | (with_reducible apply State.fillAppend_keeps) | (with_reducible apply State.startPhase_keeps)
    | (intro _ (_ : Keeps _ _)) | (intro _ _ (_ : Keeps _ _)) | (intro w; refine @keeps_cut pq _ w ?_ ?_; unfold w)
    | (intro _) | (lift_lets) | (with_reducible apply keeps_ite) | split | (dsimp only) | (dsimp +zetaDelta only))

theorem State.cancelStep_keeps {pq : State} (s : State) (p : StepSt) (hk : Keeps pq s) :
    Keeps pq (State.cancelStep s p) := by
  unfold State.cancelStep
  repeat' (first
    | with_reducible assumption | (with_reducible apply State.dropStep_keeps)
    | (with_reducible apply State.freeBank_keeps) | (with_reducible apply State.modHank_keeps)
    | (with_reducible apply State.noteReady_keeps) | (with_reducible apply State.settleHank_keeps)
    | (with_reducible apply State.settleModels_keeps) | (intro _ (_ : Keeps _ _)) | (intro _ _ (_ : Keeps _ _))
    | (intro w; refine @keeps_cut pq _ w ?_ ?_; unfold w) | (intro _) | (lift_lets) | (with_reducible apply keeps_ite)
    | split | (dsimp only) | (simp only [keeps_mk]) | (dsimp +zetaDelta only))

theorem State.beginStep_keeps {pq : State} (s : State) (uid : Nat) (hk : Keeps pq s) :
    Keeps pq (State.beginStep s uid) := by
  unfold State.beginStep
  repeat' (first
    | with_reducible assumption | (with_reducible apply keeps_foldl) | (with_reducible apply State.armStep_keeps)
    | (with_reducible apply State.cancelStep_keeps) | (with_reducible apply State.dropStep_keeps)
    | (with_reducible apply State.giveCores_keeps) | (with_reducible apply State.prepSlot_keeps)
    | (with_reducible apply State.reclaimSlot_keeps) | (with_reducible apply State.startPhase_keeps)
    | (with_reducible apply State.writeDepth_keeps) | (intro _ (_ : Keeps _ _)) | (intro _ _ (_ : Keeps _ _))
    | (intro w; refine @keeps_cut pq _ w ?_ ?_; unfold w) | (intro _) | (lift_lets) | (with_reducible apply keeps_ite)
    | split | (dsimp only) | (dsimp +zetaDelta only))

theorem State.appendRow_keeps {pq : State} (s : State) (h : Hank) (m : Model) (w : SlotWork) (r l j : Nat) (hk : Keeps pq s) :
    Keeps pq (State.appendRow s h m w r l j) := by
  unfold State.appendRow
  repeat' (first
    | with_reducible assumption | (with_reducible apply keeps_foldl) | (with_reducible apply keeps_foldl_snd)
    | (with_reducible apply keeps_foldl_trd) | (with_reducible apply State.govRead_keeps)
    | (with_reducible apply State.modSeq_keeps) | (with_reducible apply State.putBlock_keeps)
    | (intro _ (_ : Keeps _ _)) | (intro _ _ (_ : Keeps _ _)) | (intro w; refine @keeps_cut pq _ w ?_ ?_; unfold w)
    | (intro _) | (lift_lets) | (with_reducible apply keeps_ite) | split | (dsimp only) | (simp only [keeps_mk])
    | (dsimp +zetaDelta only) | (refine keeps_pair (by assumption) ?_) | (refine keeps_triple (by assumption) ?_))

theorem State.appendLayer_keeps {pq : State} (s : State) (p : StepSt) (h : Hank) (m : Model) (sub : Bool) (hk : Keeps pq s) :
    Keeps pq (State.appendLayer s p h m sub) := by
  unfold State.appendLayer
  repeat' (first
    | with_reducible assumption | (with_reducible apply keeps_foldl) | (with_reducible apply State.appendRow_keeps)
    | (intro _ (_ : Keeps _ _)) | (intro _ _ (_ : Keeps _ _)) | (intro _) | (lift_lets) | (dsimp only))

theorem State.queryRows_keeps {pq : State} (s : State) (p : StepSt) (h : Hank) (m : Model) (sub : Bool) (slot r : Nat) (heads : List Nat) (hk : Keeps pq s) :
    Keeps pq (State.queryRows s p h m sub slot r heads).2 := by
  unfold State.queryRows
  repeat' (first
    | with_reducible assumption | (with_reducible apply keeps_foldl) | (with_reducible apply keeps_foldl_snd)
    | (with_reducible apply keeps_foldl_trd) | (with_reducible apply State.govRead_keeps)
    | (with_reducible apply State.modSeq_keeps) | (intro _ (_ : Keeps _ _)) | (intro _ _ (_ : Keeps _ _))
    | (intro w; refine @keeps_cut pq _ w ?_ ?_; unfold w) | (intro _) | (lift_lets) | (with_reducible apply keeps_ite)
    | split | (dsimp only) | (simp only [keeps_mk]) | (dsimp +zetaDelta only) | (refine keeps_pair (by assumption) ?_)
    | (refine keeps_triple (by assumption) ?_))

theorem State.planGroup_keeps {pq : State} (s : State) (p : StepSt) (h : Hank) (m : Model) (sub : Bool) (w : SlotWork) (r l j : Nat) (heads : List Nat) (hk : Keeps pq s) :
    Keeps pq (State.planGroup s p h m sub w r l j heads) := by
  unfold State.planGroup
  repeat' (first
    | with_reducible assumption | (with_reducible apply State.queryRows_keeps) | (intro _ (_ : Keeps _ _))
    | (intro _ _ (_ : Keeps _ _)) | (intro w; refine @keeps_cut pq _ w ?_ ?_; unfold w) | (intro _) | (lift_lets)
    | (with_reducible apply keeps_ite) | split | (dsimp only) | (simp only [keeps_mk]) | (dsimp +zetaDelta only)
    | (refine keeps_pair (by assumption) ?_) | (refine keeps_triple (by assumption) ?_))

theorem State.prefillAppend_keeps {pq : State} (s : State) (uid : Nat) (sub : Bool) (hk : Keeps pq s) :
    Keeps pq (State.prefillAppend s uid sub) := by
  unfold State.prefillAppend
  repeat' (first
    | with_reducible assumption | (with_reducible apply State.appendLayer_keeps)
    | (with_reducible apply State.modStep_keeps) | (with_reducible apply State.tcAdd_keeps)
    | (with_reducible apply keeps_ite) | split | (dsimp only))

theorem State.mergeReserve_keeps {pq : State} (s : State) (k : Nat) (hk : Keeps pq s) :
    Keeps pq (State.mergeReserve s k) := by
  unfold State.mergeReserve
  repeat' (first
    | with_reducible assumption | (intro _ (_ : Keeps _ _)) | (intro _ _ (_ : Keeps _ _)) | (intro _) | (lift_lets)
    | (with_reducible apply keeps_ite) | split | (dsimp only) | (simp only [keeps_mk]) | (dsimp +zetaDelta only))

theorem State.setMergeRow_keeps {pq : State} (s : State) (r : MergeRow) (hk : Keeps pq s) :
    Keeps pq (State.setMergeRow s r) := by
  unfold State.setMergeRow
  repeat' (first
    | with_reducible assumption | (intro _ (_ : Keeps _ _)) | (intro _ _ (_ : Keeps _ _)) | (intro _) | (lift_lets)
    | (with_reducible apply keeps_ite) | split | (dsimp only) | (simp only [keeps_mk]) | (dsimp +zetaDelta only))

theorem State.dropMergeRow_keeps {pq : State} (s : State) (id : Nat) (hk : Keeps pq s) :
    Keeps pq (State.dropMergeRow s id) := by
  unfold State.dropMergeRow
  repeat' (first
    | with_reducible assumption | (intro _ (_ : Keeps _ _)) | (intro _ _ (_ : Keeps _ _)) | (intro _) | (lift_lets)
    | (dsimp only) | (simp only [keeps_mk]) | (dsimp +zetaDelta only))

theorem State.rowLines_keeps {pq : State} (s : State) (y0 : Nat) (y1 : MergeRow) (hk : Keeps pq s) :
    Keeps pq (State.rowLines s y0 y1).2 := by
  induction y0 generalizing s y1 with
  | zero =>
    unfold State.rowLines
    repeat' (first
      | with_reducible assumption | (with_reducible apply State.asyncAll_keeps)
      | (with_reducible apply State.placeLineAt_keeps) | (with_reducible apply State.reach_keeps)
      | (intro w; refine @keeps_cut pq _ w ?_ ?_; unfold w) | (intro _) | (lift_lets) | (with_reducible apply keeps_ite)
      | split | (dsimp only) | (simp only [keeps_mk]) | (dsimp +zetaDelta only) | (refine keeps_pair (by assumption) ?_)
      | (refine keeps_triple (by assumption) ?_))
  | succ n ih =>
    unfold State.rowLines
    repeat' (first
      | with_reducible assumption | (with_reducible apply State.asyncAll_keeps)
      | (with_reducible apply State.placeLineAt_keeps) | (with_reducible apply State.reach_keeps)
      | (with_reducible apply ih) | (intro w; refine @keeps_cut pq _ w ?_ ?_; unfold w) | (intro _) | (lift_lets)
      | (with_reducible apply keeps_ite) | split | (dsimp only) | (simp only [keeps_mk]) | (dsimp +zetaDelta only)
      | (refine keeps_pair (by assumption) ?_) | (refine keeps_triple (by assumption) ?_))


theorem State.writeOutput_keeps {pq : State} (s : State) (r : MergeRow) (hk : Keeps pq s) :
    Keeps pq (State.writeOutput s r) := by
  unfold State.writeOutput
  repeat' (first
    | with_reducible assumption | (with_reducible apply State.dropMergeRow_keeps)
    | (with_reducible apply State.rowLines_keeps) | (with_reducible apply State.setMergeRow_keeps)
    | (with_reducible apply State.tcAdd_keeps) | (intro w; refine @keeps_cut pq _ w ?_ ?_; unfold w) | (intro _)
    | (lift_lets) | (with_reducible apply keeps_ite) | split | (dsimp only) | (simp only [keeps_mk])
    | (dsimp +zetaDelta only) | (refine keeps_pair (by assumption) ?_) | (refine keeps_triple (by assumption) ?_))

theorem State.refuseOutput_keeps {pq : State} (s : State) (r : MergeRow) (code : Nat) (hk : Keeps pq s) :
    Keeps pq (State.refuseOutput s r code) := by
  unfold State.refuseOutput
  repeat' (first
    | with_reducible assumption | (with_reducible apply State.dropMergeRow_keeps)
    | (with_reducible apply State.modSeq_keeps) | (intro _ (_ : Keeps _ _)) | (intro _ _ (_ : Keeps _ _)) | (intro _)
    | (lift_lets) | split | (dsimp only) | (simp only [keeps_mk]) | (dsimp +zetaDelta only))

theorem State.issueOutput_keeps {pq : State} (s : State) (r : MergeRow) (hk : Keeps pq s) :
    Keeps pq (State.issueOutput s r) := by
  unfold State.issueOutput
  repeat' (first
    | with_reducible assumption | (with_reducible apply State.refuseOutput_keeps)
    | (with_reducible apply State.writeOutput_keeps) | (with_reducible apply keeps_ite) | split | (dsimp only))

theorem State.mergeOutput_keeps {pq : State} (s : State) (r : MergeRow) (hk : Keeps pq s) :
    Keeps pq (State.mergeOutput s r) := by
  unfold State.mergeOutput
  repeat' (first
    | with_reducible assumption | (with_reducible apply State.dropMergeRow_keeps)
    | (with_reducible apply State.issueOutput_keeps) | (with_reducible apply State.refuseOutput_keeps)
    | (with_reducible apply State.setMergeRow_keeps) | (intro _) | (lift_lets) | (with_reducible apply keeps_ite)
    | split | (dsimp only) | (simp only [keeps_mk]) | (dsimp +zetaDelta only))

theorem State.slotCheck_keeps {pq : State} (s : State) (r : MergeRow) (e : PartialRec) (y0 : SlotCheck) (hk : Keeps pq s) :
    Keeps pq (State.slotCheck s r e y0).2 := by
  unfold State.slotCheck
  repeat' (first
    | with_reducible assumption | (with_reducible apply keeps_foldl) | (with_reducible apply keeps_foldl_snd)
    | (with_reducible apply State.countCe_keeps) | (with_reducible apply State.modSeq_keeps)
    | (with_reducible apply State.ssbFailed_keeps) | (intro _ (_ : Keeps _ _)) | (intro _ _ (_ : Keeps _ _))
    | (intro w; refine @keeps_cut pq _ w ?_ ?_; unfold w) | (intro _) | (lift_lets) | (with_reducible apply keeps_ite)
    | split | (dsimp only) | (simp only [keeps_mk]) | (dsimp +zetaDelta only) | (refine keeps_pair (by assumption) ?_)
    | (refine keeps_triple (by assumption) ?_))

theorem State.partialArrive_keeps {pq : State} (s : State) (k id pos : Nat) (check : SlotCheck) (hk : Keeps pq s) :
    Keeps pq (State.partialArrive s k id pos check) := by
  unfold State.partialArrive
  repeat' (first
    | with_reducible assumption | (with_reducible apply State.mergeOutput_keeps)
    | (with_reducible apply State.setMergeRow_keeps) | (with_reducible apply State.slotCheck_keeps)
    | (intro _ (_ : Keeps _ _)) | (intro _ _ (_ : Keeps _ _)) | (intro w; refine @keeps_cut pq _ w ?_ ?_; unfold w)
    | (intro _) | (lift_lets) | (with_reducible apply keeps_ite) | split | (dsimp only) | (simp only [keeps_mk])
    | (dsimp +zetaDelta only) | (refine keeps_pair (by assumption) ?_) | (refine keeps_triple (by assumption) ?_))

theorem State.inactiveRow_keeps {pq : State} (s : State) (r : MergeRow) (hk : Keeps pq s) :
    Keeps pq (State.inactiveRow s r) := by
  unfold State.inactiveRow
  repeat' (first
    | with_reducible assumption | (with_reducible apply State.mergeOutput_keeps)
    | (intro w; refine @keeps_cut pq _ w ?_ ?_; unfold w) | (intro _) | (lift_lets) | (dsimp only)
    | (simp only [keeps_mk]) | (dsimp +zetaDelta only))

theorem State.inactiveRows_keeps {pq : State} (s : State) (p : StepSt) (h : Hank) (m : Model) (sub : Bool) (slot : Nat) (hk : Keeps pq s) :
    Keeps pq (State.inactiveRows s p h m sub slot) := by
  unfold State.inactiveRows
  repeat' (first
    | with_reducible assumption | (with_reducible apply keeps_foldl) | (with_reducible apply State.inactiveRow_keeps)
    | (intro _ (_ : Keeps _ _)) | (intro _ _ (_ : Keeps _ _)) | (intro w; refine @keeps_cut pq _ w ?_ ?_; unfold w)
    | (intro _) | (lift_lets) | (dsimp only) | (simp only [keeps_mk]) | (dsimp +zetaDelta only))

theorem State.attend_keeps {pq : State} (s : State) (p : StepSt) (h : Hank) (m : Model) (sub : Bool) (hk : Keeps pq s) :
    Keeps pq (State.attend s p h m sub) := by
  unfold State.attend
  repeat' (first
    | with_reducible assumption | (with_reducible apply keeps_foldl) | (with_reducible apply State.appendLayer_keeps)
    | (with_reducible apply State.inactiveRows_keeps) | (with_reducible apply State.modStep_keeps)
    | (with_reducible apply State.planGroup_keeps) | (intro _ (_ : Keeps _ _)) | (intro _ _ (_ : Keeps _ _))
    | (intro w; refine @keeps_cut pq _ w ?_ ?_; unfold w) | (intro _) | (lift_lets) | (dsimp only)
    | (dsimp +zetaDelta only))

theorem State.attentionBegin_keeps {pq : State} (s : State) (uid : Nat) (sub : Bool) (hk : Keeps pq s) :
    Keeps pq (State.attentionBegin s uid sub) := by
  unfold State.attentionBegin
  repeat' (first
    | with_reducible assumption | (with_reducible apply State.attend_keeps) | (with_reducible apply keeps_ite) | split
    | (dsimp only))

theorem State.moveChain_keeps {pq : State} (s : State) (pos : Nat) (acc : List Nat) (chain : List Nat) (hk : Keeps pq s) :
    Keeps pq (State.moveChain s pos acc chain) := by
  unfold State.moveChain
  repeat' (first
    | with_reducible assumption | (with_reducible apply keeps_foldl) | (with_reducible apply keeps_foldl_snd)
    | (with_reducible apply keeps_foldl_trd) | (with_reducible apply State.copySlot_keeps)
    | (with_reducible apply State.setSkein_keeps) | (intro _ (_ : Keeps _ _)) | (intro _ _ (_ : Keeps _ _))
    | (intro w; refine @keeps_cut pq _ w ?_ ?_; unfold w) | (intro _) | (lift_lets) | (with_reducible apply keeps_ite)
    | split | (dsimp only) | (simp only [keeps_mk]) | (dsimp +zetaDelta only))

theorem State.adaptSeq_keeps {pq : State} (s : State) (h : Hank) (m : Model) (slot k : Nat) (hk : Keeps pq s) :
    Keeps pq (State.adaptSeq s h m slot k) := by
  unfold State.adaptSeq
  repeat' (first
    | with_reducible assumption | (with_reducible apply keeps_foldl) | (with_reducible apply keeps_foldl_snd)
    | (with_reducible apply State.clearSpec_keeps) | (with_reducible apply State.modSeq_keeps)
    | (intro _ (_ : Keeps _ _)) | (intro _ _ (_ : Keeps _ _)) | (intro w; refine @keeps_cut pq _ w ?_ ?_; unfold w)
    | (intro _) | (lift_lets) | (with_reducible apply keeps_ite) | split | (dsimp only) | (dsimp +zetaDelta only))

theorem State.emit_keeps {pq : State} (s : State) (h : Hank) (m : Model) (slot : Nat) (toks : List Word) (fin : Bool) (hk : Keeps pq s) :
    Keeps pq (State.emit s h m slot toks fin) := by
  unfold State.emit
  repeat' (first
    | with_reducible assumption | (with_reducible apply State.hostWrite_keeps)
    | (with_reducible apply State.modSeq_keeps) | (intro _ (_ : Keeps _ _)) | (intro _ _ (_ : Keeps _ _))
    | (intro w; refine @keeps_cut pq _ w ?_ ?_; unfold w) | (intro _) | (lift_lets) | (with_reducible apply keeps_ite)
    | split | (dsimp only) | (simp only [keeps_mk]) | (dsimp +zetaDelta only))

theorem State.readVerdict_keeps {pq : State} (s : State) (p : StepSt) (h : Hank) (m : Model) (w : SlotWork) (hk : Keeps pq s) :
    Keeps pq (State.readVerdict s p h m w).2 := by
  unfold State.readVerdict
  repeat' (first
    | with_reducible assumption | (with_reducible apply keeps_foldl) | (with_reducible apply keeps_foldl_snd)
    | (with_reducible apply keeps_foldl_trd) | (with_reducible apply State.adaptSeq_keeps)
    | (with_reducible apply State.emit_keeps) | (with_reducible apply State.govRead_keeps)
    | (with_reducible apply State.modSeq_keeps) | (with_reducible apply State.moveChain_keeps)
    | (with_reducible apply State.teardownFor_keeps) | (intro _ (_ : Keeps _ _)) | (intro _ _ (_ : Keeps _ _))
    | (intro w; refine @keeps_cut pq _ w ?_ ?_; unfold w) | (intro _) | (lift_lets) | (with_reducible apply keeps_ite)
    | split | (dsimp only) | (simp only [keeps_mk]) | (dsimp +zetaDelta only) | (refine keeps_pair (by assumption) ?_)
    | (refine keeps_triple (by assumption) ?_))

theorem State.verdictSlot_keeps {pq : State} (s : State) (uid : Nat) (w : SlotWork) (hk : Keeps pq s) :
    Keeps pq (State.verdictSlot s uid w).2 := by
  unfold State.verdictSlot
  repeat' (first
    | with_reducible assumption | (with_reducible apply State.modSeq_keeps)
    | (with_reducible apply State.readVerdict_keeps) | (intro _ (_ : Keeps _ _)) | (intro _ _ (_ : Keeps _ _))
    | (intro w; refine @keeps_cut pq _ w ?_ ?_; unfold w) | (intro _) | (lift_lets) | (with_reducible apply keeps_ite)
    | split | (dsimp only) | (simp only [keeps_mk]) | (dsimp +zetaDelta only) | (refine keeps_pair (by assumption) ?_)
    | (refine keeps_triple (by assumption) ?_))

theorem State.verdictStage_keeps {pq : State} (s : State) (uid : Nat) (hk : Keeps pq s) :
    Keeps pq (State.verdictStage s uid) := by
  unfold State.verdictStage
  repeat' (first
    | with_reducible assumption | (with_reducible apply keeps_foldl) | (with_reducible apply keeps_foldl_snd)
    | (with_reducible apply State.closeStep_keeps) | (with_reducible apply State.verdictSlot_keeps)
    | (intro _ (_ : Keeps _ _)) | (intro _ _ (_ : Keeps _ _)) | (intro w; refine @keeps_cut pq _ w ?_ ?_; unfold w)
    | (intro _) | (lift_lets) | (with_reducible apply keeps_ite) | split | (dsimp only) | (dsimp +zetaDelta only)
    | (refine keeps_pair (by assumption) ?_) | (refine keeps_triple (by assumption) ?_))

theorem State.phaseEnd_keeps {pq : State} (s : State) (uid : Nat) (hk : Keeps pq s) :
    Keeps pq (State.phaseEnd s uid) := by
  unfold State.phaseEnd
  repeat' (first
    | with_reducible assumption | (with_reducible apply State.armStep_keeps)
    | (with_reducible apply State.failStep_keeps) | (with_reducible apply State.verdictStage_keeps)
    | (intro _ (_ : Keeps _ _)) | (intro _ _ (_ : Keeps _ _)) | (intro w; refine @keeps_cut pq _ w ?_ ?_; unfold w)
    | (intro _) | (lift_lets) | (with_reducible apply keeps_ite) | split | (dsimp only) | (dsimp +zetaDelta only))

end Sys2Proof.Machine
end

