-- ==== Sys2Proof/Laws/KeepsServing.lean ====
section
/-!
SUPPORT. The operations of Machine/Serving.lean keep memory canonical and the queue as it is.
-/

namespace Sys2Proof.Machine

theorem execModelLoad_keeps {pq : State} (x : Ctx) (rec : Record) (s : State) (hk : Keeps pq s) :
    KeepsR pq (execModelLoad x rec s) := by
  unfold execModelLoad
  repeat' (first
    | with_reducible assumption | (with_reducible apply keepsR_next) | (with_reducible apply State.acceptRecord_keeps)
    | (with_reducible apply State.noteReady_keeps) | (with_reducible apply State.settleModels_keeps)
    | (intro _ (_ : Keeps _ _)) | (intro _ _ (_ : Keeps _ _)) | (intro _) | (lift_lets) | (dsimp only)
    | (simp only [keeps_mk]) | (dsimp +zetaDelta only))

theorem execModelUnload_keeps {pq : State} (x : Ctx) (rec : Record) (s : State) (hk : Keeps pq s) :
    KeepsR pq (execModelUnload x rec s) := by
  unfold execModelUnload
  repeat' (first
    | with_reducible assumption | (with_reducible apply keepsR_next) | (with_reducible apply State.acceptRecord_keeps)
    | (with_reducible apply State.setModel_keeps) | (with_reducible apply State.settleModels_keeps)
    | (intro _ (_ : Keeps _ _)) | (intro _ _ (_ : Keeps _ _)) | (intro w; refine @keeps_cut pq _ w ?_ ?_; unfold w)
    | (intro _) | (lift_lets) | split | (dsimp only) | (simp only [keeps_mk]) | (dsimp +zetaDelta only))

theorem State.acceptHank_keeps {pq : State} (s : State) (c : Nat) (r : Record) (hk : Keeps pq s) :
    Keeps pq (State.acceptHank s c r) := by
  unfold State.acceptHank
  repeat' (first
    | with_reducible assumption | (with_reducible apply State.event_keeps) | (with_reducible apply State.modCtx_keeps)
    | (with_reducible apply State.noteReady_keeps) | (intro _ (_ : Keeps _ _)) | (intro _ _ (_ : Keeps _ _))
    | (intro w; refine @keeps_cut pq _ w ?_ ?_; unfold w) | (intro _) | (lift_lets) | (with_reducible apply keeps_ite)
    | split | (dsimp only) | (simp only [keeps_mk]) | (dsimp +zetaDelta only))

theorem execHank_keeps {pq : State} (x : Ctx) (rec : Record) (s : State) (hk : Keeps pq s) :
    KeepsR pq (execHank x rec s) := by
  unfold execHank
  repeat' (first
    | with_reducible assumption | (with_reducible apply keepsR_next) | (with_reducible apply State.acceptHank_keeps)
    | (with_reducible apply State.acceptRecord_keeps) | (intro _ (_ : Keeps _ _)) | (intro _ _ (_ : Keeps _ _))
    | (intro _) | (lift_lets) | (dsimp only))

theorem State.cancelHank_keeps {pq : State} (s : State) (uid : Nat) (all : Bool) (slot : Nat) (hk : Keeps pq s) :
    Keeps pq (State.cancelHank s uid all slot) := by
  unfold State.cancelHank
  repeat' (first
    | with_reducible assumption | (with_reducible apply keeps_foldl) | (with_reducible apply State.askEnd_keeps)
    | (intro _ (_ : Keeps _ _)) | (intro _ _ (_ : Keeps _ _)) | (intro _) | (lift_lets) | split | (dsimp only))

theorem State.cancelRecord_keeps {pq : State} (s : State) (c : Nat) (r : Record) (hk : Keeps pq s) :
    Keeps pq (State.cancelRecord s c r) := by
  unfold State.cancelRecord
  repeat' (first
    | with_reducible assumption | (with_reducible apply keeps_foldl) | (with_reducible apply State.cancelHank_keeps)
    | (with_reducible apply State.final_keeps) | (with_reducible apply State.readTable_keeps)
    | (intro _ (_ : Keeps _ _)) | (intro _ _ (_ : Keeps _ _)) | (intro w; refine @keeps_cut pq _ w ?_ ?_; unfold w)
    | (intro _) | (lift_lets) | (dsimp only) | (simp only [keeps_mk]) | (dsimp +zetaDelta only))

theorem execCancel_keeps {pq : State} (x : Ctx) (rec : Record) (s : State) (hk : Keeps pq s) :
    KeepsR pq (execCancel x rec s) := by
  unfold execCancel
  repeat' (first
    | with_reducible assumption | (with_reducible apply keepsR_next) | (with_reducible apply State.acceptRecord_keeps)
    | (with_reducible apply State.cancelRecord_keeps) | (intro _ (_ : Keeps _ _)) | (intro _ _ (_ : Keeps _ _))
    | (intro _) | (lift_lets) | (dsimp only))

theorem execSeqRelease_keeps {pq : State} (x : Ctx) (rec : Record) (s : State) (hk : Keeps pq s) :
    KeepsR pq (execSeqRelease x rec s) := by
  unfold execSeqRelease
  repeat' (first
    | with_reducible assumption | (with_reducible apply keepsR_next) | (with_reducible apply State.acceptRecord_keeps)
    | (with_reducible apply State.final_keeps) | (with_reducible apply State.freeHeldWhere_keeps)
    | (intro _ (_ : Keeps _ _)) | (intro _ _ (_ : Keeps _ _)) | (intro w; refine @keeps_cut pq _ w ?_ ?_; unfold w)
    | (intro _) | (lift_lets) | (with_reducible apply keeps_ite) | split | (dsimp only) | (simp only [keeps_mk])
    | (dsimp +zetaDelta only))

theorem State.ownTarget_keeps {pq : State} (s : State) (c h : Nat) (prev : Option Nat) (hk : Keeps pq s) :
    KeepsO pq Prod.snd (State.ownTarget s c h prev) := by
  unfold State.ownTarget
  repeat' (first
    | with_reducible assumption | (with_reducible apply State.forkSkein_keeps) | exact keepsO_none
    | (with_reducible apply keepsO_some) | (with_reducible apply keeps_ite) | split | (dsimp only)
    | (refine keepsO_map ?_ (fun _ => rfl)) | (refine keepsO_pair (by assumption) ?_)
    | (refine keepsO_snd (by assumption) ?_) | (refine keepsO_id (by assumption) ?_))

theorem State.compactChain_keeps {pq : State} (s : State) (c : Nat) (src : List (Nat × Nat)) (prev : Option Nat) (y0 : List Nat) (y1 : Nat) (hk : Keeps pq s) :
    KeepsO pq Prod.snd (State.compactChain s c src prev y0 y1) := by
  induction y0 generalizing s prev y1 with
  | nil =>
    unfold State.compactChain
    repeat' (first
      | with_reducible assumption | (with_reducible apply keeps_foldl) | (with_reducible apply keeps_foldl_snd)
      | (with_reducible apply State.clearSpec_keeps) | (with_reducible apply State.copySlot_keeps)
      | (with_reducible apply State.dropRef_keeps) | (with_reducible apply State.ownTarget_keeps)
      | (with_reducible apply State.setSkein_keeps) | (intro _ (_ : Keeps _ _)) | (intro _ _ (_ : Keeps _ _))
      | exact keepsO_none | (with_reducible apply keepsO_some) | (intro w; refine @keeps_cut pq _ w ?_ ?_; unfold w)
      | (intro _) | (lift_lets) | (with_reducible apply keeps_ite) | split | (dsimp only) | (simp only [keeps_mk])
      | (dsimp +zetaDelta only) | (refine keepsO_map ?_ (fun _ => rfl)) | (refine keepsO_pair (by assumption) ?_)
      | (refine keepsO_snd (by assumption) ?_) | (refine keepsO_id (by assumption) ?_))
  | cons x l ih =>
    unfold State.compactChain
    repeat' (first
      | with_reducible assumption | (with_reducible apply keeps_foldl) | (with_reducible apply keeps_foldl_snd)
      | (with_reducible apply State.clearSpec_keeps) | (with_reducible apply State.copySlot_keeps)
      | (with_reducible apply State.dropRef_keeps) | (with_reducible apply State.ownTarget_keeps)
      | (with_reducible apply State.setSkein_keeps) | (with_reducible apply ih) | (intro _ (_ : Keeps _ _))
      | (intro _ _ (_ : Keeps _ _)) | exact keepsO_none | (with_reducible apply keepsO_some)
      | (intro w; refine @keeps_cut pq _ w ?_ ?_; unfold w) | (intro _) | (lift_lets) | (with_reducible apply keeps_ite)
      | split | (dsimp only) | (simp only [keeps_mk]) | (dsimp +zetaDelta only) | (refine keepsO_map ?_ (fun _ => rfl))
      | (refine keepsO_pair (by assumption) ?_) | (refine keepsO_snd (by assumption) ?_)
      | (refine keepsO_id (by assumption) ?_))


theorem State.compactChains_keeps {pq : State} (s : State) (c : Nat) (y0 : Sparse (List Nat)) (hk : Keeps pq s) :
    KeepsO pq Prod.snd (State.compactChains s c y0) := by
  induction y0 generalizing s with
  | nil =>
    unfold State.compactChains
    repeat' (first
      | with_reducible assumption | (with_reducible apply State.compactChain_keeps) | (intro _ (_ : Keeps _ _))
      | (intro _ _ (_ : Keeps _ _)) | exact keepsO_none | (with_reducible apply keepsO_some) | (intro _) | (lift_lets)
      | split | (dsimp only) | (refine keepsO_map ?_ (fun _ => rfl)) | (refine keepsO_pair (by assumption) ?_)
      | (refine keepsO_snd (by assumption) ?_) | (refine keepsO_id (by assumption) ?_))
  | cons x l ih =>
    unfold State.compactChains
    repeat' (first
      | with_reducible assumption | (with_reducible apply State.compactChain_keeps) | (with_reducible apply ih)
      | (intro _ (_ : Keeps _ _)) | (intro _ _ (_ : Keeps _ _)) | exact keepsO_none | (with_reducible apply keepsO_some)
      | (intro _) | (lift_lets) | split | (dsimp only) | (refine keepsO_map ?_ (fun _ => rfl))
      | (refine keepsO_pair (by assumption) ?_) | (refine keepsO_snd (by assumption) ?_)
      | (refine keepsO_id (by assumption) ?_))


theorem State.settleCompact_keeps {pq : State} (s : State) (hk : Keeps pq s) :
    Keeps pq (State.settleCompact s) := by
  unfold State.settleCompact
  repeat' (first
    | with_reducible assumption | (with_reducible apply keeps_foldl) | (with_reducible apply keeps_foldl_snd)
    | (with_reducible apply State.compactChains_keeps) | (with_reducible apply State.final_keeps)
    | (with_reducible apply State.modSeq_keeps) | (intro _ (_ : Keeps _ _)) | (intro _ _ (_ : Keeps _ _))
    | exact keepsO_none | (with_reducible apply keepsO_some) | (intro w; refine @keeps_cut pq _ w ?_ ?_; unfold w)
    | (intro _) | (lift_lets) | (with_reducible apply keeps_ite) | split | (dsimp only) | (simp only [keeps_mk])
    | (dsimp +zetaDelta only) | (refine keepsO_map ?_ (fun _ => rfl)) | (refine keepsO_pair (by assumption) ?_)
    | (refine keepsO_snd (by assumption) ?_) | (refine keepsO_id (by assumption) ?_))

theorem State.compactRecord_keeps {pq : State} (s : State) (c id : Nat) (tag : Word) (hk : Keeps pq s) :
    Keeps pq (State.compactRecord s c id tag) := by
  unfold State.compactRecord
  repeat' (first
    | with_reducible assumption | (with_reducible apply State.final_keeps) | (with_reducible apply State.modSeq_keeps)
    | (with_reducible apply State.settleCompact_keeps) | (intro _ (_ : Keeps _ _)) | (intro _ _ (_ : Keeps _ _))
    | (intro w; refine @keeps_cut pq _ w ?_ ?_; unfold w) | (intro _) | (lift_lets) | (with_reducible apply keeps_ite)
    | split | (dsimp only) | (simp only [keeps_mk]) | (dsimp +zetaDelta only))

theorem execSeqCompact_keeps {pq : State} (x : Ctx) (rec : Record) (s : State) (hk : Keeps pq s) :
    KeepsR pq (execSeqCompact x rec s) := by
  unfold execSeqCompact
  repeat' (first
    | with_reducible assumption | (with_reducible apply keepsR_next) | (with_reducible apply State.acceptRecord_keeps)
    | (with_reducible apply State.compactRecord_keeps) | (intro _ (_ : Keeps _ _)) | (intro _ _ (_ : Keeps _ _))
    | (intro _) | (lift_lets) | (dsimp only))

theorem execBarrier_keeps {pq : State} (x : Ctx) (rec : Record) (s : State) (hk : Keeps pq s) :
    KeepsR pq (execBarrier x rec s) := by
  unfold execBarrier
  repeat' (first
    | with_reducible assumption | (with_reducible apply keepsR_next) | (with_reducible apply State.acceptRecord_keeps)
    | (with_reducible apply State.modCtx_keeps) | (with_reducible apply State.settle_keeps) | (intro _ (_ : Keeps _ _))
    | (intro _ _ (_ : Keeps _ _)) | (intro _) | (lift_lets) | (dsimp only) | (simp only [keeps_mk])
    | (dsimp +zetaDelta only))

theorem execStream_keeps {pq : State} (x : Ctx) (rec : Record) (s : State) (hk : Keeps pq s) :
    KeepsR pq (execStream x rec s) := by
  unfold execStream
  repeat' (first
    | with_reducible assumption | (with_reducible apply keepsR_next) | (with_reducible apply State.acceptRecord_keeps)
    | (with_reducible apply State.noteReady_keeps) | (intro _ (_ : Keeps _ _)) | (intro _ _ (_ : Keeps _ _))
    | (intro w; refine @keeps_cut pq _ w ?_ ?_; unfold w) | (intro _) | (lift_lets) | (dsimp only)
    | (simp only [keeps_mk]) | (dsimp +zetaDelta only))

theorem State.buffersOk_keeps {pq : State} (s : State) (h : Hank) (m : Model) (hk : Keeps pq s) :
    Keeps pq (State.buffersOk s h m).2 := by
  unfold State.buffersOk
  repeat' (first
    | with_reducible assumption | (with_reducible apply keeps_foldl) | (with_reducible apply keeps_foldl_snd)
    | (with_reducible apply keeps_foldl_trd) | (with_reducible apply State.govRead_keeps) | (intro _ (_ : Keeps _ _))
    | (intro _ _ (_ : Keeps _ _)) | (intro w; refine @keeps_cut pq _ w ?_ ?_; unfold w) | (intro _) | (lift_lets)
    | (with_reducible apply keeps_ite) | split | (dsimp only) | (dsimp +zetaDelta only)
    | (refine keeps_pair (by assumption) ?_) | (refine keeps_triple (by assumption) ?_))

theorem State.enterSeq_keeps {pq : State} (s : State) (h : Hank) (m : Model) (i : Nat) (hk : Keeps pq s) :
    Keeps pq (State.enterSeq s h m i) := by
  unfold State.enterSeq
  repeat' (first
    | with_reducible assumption | (with_reducible apply State.modSeq_keeps)
    | (with_reducible apply State.parkSeq_keeps) | (intro _ (_ : Keeps _ _)) | (intro _ _ (_ : Keeps _ _))
    | (intro w; refine @keeps_cut pq _ w ?_ ?_; unfold w) | (intro _) | (lift_lets) | (with_reducible apply keeps_ite)
    | split | (dsimp only) | (simp only [keeps_mk]) | (dsimp +zetaDelta only))

theorem State.resolveSeq_keeps {pq : State} (s : State) (h : Hank) (m : Model) (i : Nat) (hk : Keeps pq s) :
    Keeps pq (State.resolveSeq s h m i) := by
  unfold State.resolveSeq
  repeat' (first
    | with_reducible assumption | (with_reducible apply keeps_foldl) | (with_reducible apply keeps_foldl_snd)
    | (with_reducible apply State.endSeq_keeps) | (with_reducible apply State.enterSeq_keeps)
    | (with_reducible apply State.modSeq_keeps) | (with_reducible apply State.setSkein_keeps)
    | (intro _ (_ : Keeps _ _)) | (intro _ _ (_ : Keeps _ _)) | (intro w; refine @keeps_cut pq _ w ?_ ?_; unfold w)
    | (intro _) | (lift_lets) | (with_reducible apply keeps_ite) | split | (dsimp only) | (simp only [keeps_mk])
    | (dsimp +zetaDelta only))

theorem State.firstSelection_keeps {pq : State} (s : State) (uid : Nat) (hk : Keeps pq s) :
    Keeps pq (State.firstSelection s uid) := by
  unfold State.firstSelection
  repeat' (first
    | with_reducible assumption | (with_reducible apply keeps_foldl) | (with_reducible apply keeps_foldl_snd)
    | (with_reducible apply State.buffersOk_keeps) | (with_reducible apply State.endAllSeqs_keeps)
    | (with_reducible apply State.modHank_keeps) | (with_reducible apply State.readTable_keeps)
    | (with_reducible apply State.resolveSeq_keeps) | (with_reducible apply State.settleHank_keeps)
    | (intro _ (_ : Keeps _ _)) | (intro _ _ (_ : Keeps _ _)) | (intro w; refine @keeps_cut pq _ w ?_ ?_; unfold w)
    | (intro _) | (lift_lets) | (with_reducible apply keeps_ite) | split | (dsimp only) | (simp only [keeps_mk])
    | (dsimp +zetaDelta only) | (refine keeps_pair (by assumption) ?_) | (refine keeps_triple (by assumption) ?_))

theorem State.startOne_keeps {pq : State} (s : State) (p : StepSt) (core : Nat) (x : StreamSrc × Word × Option Nat) (hk : Keeps pq s) :
    Keeps pq (State.startOne s p core x) := by
  unfold State.startOne
  repeat' (first
    | with_reducible assumption | (with_reducible apply State.launch_keeps)
    | (with_reducible apply State.modStep_keeps) | (with_reducible apply State.statusRecord_keeps)
    | (intro _ (_ : Keeps _ _)) | (intro _ _ (_ : Keeps _ _)) | (intro w; refine @keeps_cut pq _ w ?_ ?_; unfold w)
    | (intro _) | (lift_lets) | (with_reducible apply keeps_ite) | split | (dsimp only) | (simp only [keeps_mk])
    | (dsimp +zetaDelta only))

theorem State.startStreams_keeps {pq : State} (s : State) (h : Hank) (uid : Nat) (hk : Keeps pq s) :
    Keeps pq (State.startStreams s h uid) := by
  unfold State.startStreams
  repeat' (first
    | with_reducible assumption | (with_reducible apply keeps_foldl) | (with_reducible apply keeps_foldl_snd)
    | (with_reducible apply keeps_foldl_trd) | (with_reducible apply State.dropHank_keeps)
    | (with_reducible apply State.dropStep_keeps) | (with_reducible apply State.final_keeps)
    | (with_reducible apply State.giveCores_keeps) | (with_reducible apply State.govRead_keeps)
    | (with_reducible apply State.settleStream_keeps) | (with_reducible apply State.startOne_keeps)
    | (intro _ (_ : Keeps _ _)) | (intro _ _ (_ : Keeps _ _)) | (intro w; refine @keeps_cut pq _ w ?_ ?_; unfold w)
    | (intro _) | (lift_lets) | (with_reducible apply keeps_ite) | split | (dsimp only) | (simp only [keeps_mk])
    | (dsimp +zetaDelta only) | (refine keeps_pair (by assumption) ?_) | (refine keeps_triple (by assumption) ?_))

theorem State.quarantineSweep_keeps {pq : State} (s : State) (hk : Keeps pq s) :
    Keeps pq (State.quarantineSweep s) := by
  unfold State.quarantineSweep
  repeat' (first
    | with_reducible assumption | (with_reducible apply keeps_foldl) | (with_reducible apply State.endAllSeqs_keeps)
    | (with_reducible apply State.readTable_keeps) | (with_reducible apply State.settleHank_keeps)
    | (intro _ (_ : Keeps _ _)) | (intro _ _ (_ : Keeps _ _)) | (intro _) | (lift_lets)
    | (with_reducible apply keeps_ite) | split | (dsimp only))

theorem State.wantRestores_keeps {pq : State} (s : State) (uid : Nat) (hk : Keeps pq s) :
    Keeps pq (State.wantRestores s uid) := by
  unfold State.wantRestores
  repeat' (first
    | with_reducible assumption | (with_reducible apply State.modHank_keeps) | (intro _ (_ : Keeps _ _))
    | (intro _ _ (_ : Keeps _ _)) | (intro _) | (lift_lets) | (with_reducible apply keeps_ite) | split | (dsimp only)
    | (simp only [keeps_mk]) | (dsimp +zetaDelta only))

theorem State.passOver_keeps {pq : State} (s : State) (hk : Keeps pq s) :
    Keeps pq (State.passOver s) := by
  unfold State.passOver
  repeat' (first
    | with_reducible assumption | (with_reducible apply keeps_foldl) | (with_reducible apply State.final_keeps)
    | (with_reducible apply State.wantRestores_keeps) | (intro _ (_ : Keeps _ _)) | (intro _ _ (_ : Keeps _ _))
    | (intro _) | (lift_lets) | (with_reducible apply keeps_ite) | split | (dsimp only))

theorem State.makeStep_keeps {pq : State} (s : State) (h : Hank) (waiting : List Nat) (hk : Keeps pq s) :
    Keeps pq (State.makeStep s h waiting).2 := by
  unfold State.makeStep
  repeat' (first
    | with_reducible assumption | (with_reducible apply State.modHank_keeps) | (intro _ (_ : Keeps _ _))
    | (intro _ _ (_ : Keeps _ _)) | (intro w; refine @keeps_cut pq _ w ?_ ?_; unfold w) | (intro _) | (lift_lets)
    | (with_reducible apply keeps_ite) | split | (dsimp only) | (simp only [keeps_mk]) | (dsimp +zetaDelta only))

theorem State.fillStep_keeps {pq : State} (s : State) (uid : Nat) (hk : Keeps pq s) :
    Keeps pq (State.fillStep s uid) := by
  unfold State.fillStep
  repeat' (first
    | with_reducible assumption | (with_reducible apply State.modHank_keeps)
    | (with_reducible apply State.modStep_keeps) | (intro _ (_ : Keeps _ _)) | (intro _ _ (_ : Keeps _ _))
    | (intro w; refine @keeps_cut pq _ w ?_ ?_; unfold w) | (intro _) | (lift_lets) | (with_reducible apply keeps_ite)
    | split | (dsimp only) | (simp only [keeps_mk]) | (dsimp +zetaDelta only))

theorem State.runStep_keeps {pq : State} (s : State) (uid : Nat) (hk : Keeps pq s) :
    Keeps pq (State.runStep s uid) := by
  unfold State.runStep
  repeat' (first
    | with_reducible assumption | (with_reducible apply State.beginStep_keeps)
    | (with_reducible apply State.fillStep_keeps) | (with_reducible apply State.modStep_keeps)
    | (with_reducible apply State.startStreams_keeps) | (intro _ (_ : Keeps _ _)) | (intro _ _ (_ : Keeps _ _))
    | (intro _) | (lift_lets) | (with_reducible apply keeps_ite) | split | (dsimp only) | (simp only [keeps_mk])
    | (dsimp +zetaDelta only))

theorem State.pauseCore_keeps {pq : State} (s : State) (uid core : Nat) (hk : Keeps pq s) :
    Keeps pq (State.pauseCore s uid core) := by
  unfold State.pauseCore
  repeat' (first
    | with_reducible assumption | (with_reducible apply State.closeStream_keeps)
    | (with_reducible apply State.countHold_keeps) | (with_reducible apply State.modStep_keeps)
    | (with_reducible apply State.statusRecord_keeps) | (intro _ (_ : Keeps _ _)) | (intro _ _ (_ : Keeps _ _))
    | (intro w; refine @keeps_cut pq _ w ?_ ?_; unfold w) | (intro _) | (lift_lets) | (with_reducible apply keeps_ite)
    | split | (dsimp only) | (simp only [keeps_mk]) | (dsimp +zetaDelta only))

theorem State.preempt_keeps {pq : State} (s : State) (v : StepSt) (hk : Keeps pq s) :
    Keeps pq (State.preempt s v) := by
  unfold State.preempt
  repeat' (first
    | with_reducible assumption | (with_reducible apply keeps_foldl) | (with_reducible apply State.addStat_keeps)
    | (with_reducible apply State.event_keeps) | (with_reducible apply State.modCore_keeps)
    | (with_reducible apply State.modCtx_keeps) | (with_reducible apply State.modHank_keeps)
    | (with_reducible apply State.modStep_keeps) | (with_reducible apply State.pauseCore_keeps)
    | (intro _ (_ : Keeps _ _)) | (intro _ _ (_ : Keeps _ _)) | (intro w; refine @keeps_cut pq _ w ?_ ?_; unfold w)
    | (intro _) | (lift_lets) | (with_reducible apply keeps_ite) | split | (dsimp only) | (simp only [keeps_mk])
    | (dsimp +zetaDelta only))

theorem State.resumeStep_keeps {pq : State} (s : State) (uid : Nat) (hk : Keeps pq s) :
    Keeps pq (State.resumeStep s uid) := by
  unfold State.resumeStep
  repeat' (first
    | with_reducible assumption | (with_reducible apply State.modStep_keeps) | (intro _ (_ : Keeps _ _))
    | (intro _ _ (_ : Keeps _ _)) | (intro w; refine @keeps_cut pq _ w ?_ ?_; unfold w) | (intro _) | (lift_lets)
    | (dsimp only) | (simp only [keeps_mk]) | (dsimp +zetaDelta only))

theorem Pass.resumes_keeps {pq : State} (a : Pass) (hk : Keeps pq a.s) :
    Keeps pq (Pass.resumes a).s := by
  unfold Pass.resumes
  repeat' (first
    | with_reducible assumption | (with_reducible apply keeps_foldl) | (with_reducible apply keeps_foldl_pass)
    | (with_reducible apply State.resumeStep_keeps) | (intro _ (_ : Keeps _ _)) | (intro _ _ (_ : Keeps _ _))
    | (intro _) | (lift_lets) | (with_reducible apply keeps_ite) | split | (dsimp only) | (simp only [keeps_mk])
    | (dsimp +zetaDelta only))

theorem State.select_keeps {pq : State} (s : State) (h : Hank) (hk : Keeps pq s) :
    Keeps pq (State.select s h).2 := by
  unfold State.select
  repeat' (first
    | with_reducible assumption | (with_reducible apply State.firstSelection_keeps)
    | (with_reducible apply State.wantRestores_keeps) | (intro _ (_ : Keeps _ _)) | (intro _ _ (_ : Keeps _ _))
    | (intro w; refine @keeps_cut pq _ w ?_ ?_; unfold w) | (intro _) | (lift_lets) | (dsimp only)
    | (dsimp +zetaDelta only))

theorem Pass.consider_keeps {pq : State} (a : Pass) (h : Hank) (hk : Keeps pq a.s) :
    Keeps pq (Pass.consider a h).s := by
  unfold Pass.consider
  repeat' (first
    | with_reducible assumption | (with_reducible apply keeps_foldl) | (with_reducible apply keeps_foldl_snd)
    | (with_reducible apply keeps_foldl_pass) | (with_reducible apply State.makeStep_keeps)
    | (with_reducible apply State.preempt_keeps) | (with_reducible apply State.runStep_keeps)
    | (with_reducible apply State.select_keeps) | (intro _ (_ : Keeps _ _)) | (intro _ _ (_ : Keeps _ _))
    | (intro w; refine @keeps_cut pq _ w ?_ ?_; unfold w) | (intro _) | (lift_lets) | (with_reducible apply keeps_ite)
    | split | (dsimp only) | (simp only [keeps_mk]) | (dsimp +zetaDelta only) | (refine keeps_pair (by assumption) ?_)
    | (refine keeps_triple (by assumption) ?_))

theorem Pass.contexts_keeps {pq : State} (a : Pass) (lc : Bool) (y0 : Nat) (y1 : List Nat) (hk : Keeps pq a.s) :
    Keeps pq (Pass.contexts a lc y0 y1).s := by
  induction y0 generalizing a y1 with
  | zero =>
    unfold Pass.contexts
    repeat' (first
      | with_reducible assumption | (with_reducible apply Pass.consider_keeps) | (intro _ (_ : Keeps _ _))
      | (intro _ _ (_ : Keeps _ _)) | (intro w; refine @keeps_cut pq _ w ?_ ?_; unfold w) | (intro _) | (lift_lets)
      | split | (dsimp only) | (dsimp +zetaDelta only))
  | succ n ih =>
    unfold Pass.contexts
    repeat' (first
      | with_reducible assumption | (with_reducible apply Pass.consider_keeps) | (with_reducible apply ih)
      | (intro _ (_ : Keeps _ _)) | (intro _ _ (_ : Keeps _ _)) | (intro w; refine @keeps_cut pq _ w ?_ ?_; unfold w)
      | (intro _) | (lift_lets) | split | (dsimp only) | (dsimp +zetaDelta only))


theorem State.drainPass_keeps {pq : State} (s : State) (hk : Keeps pq s) :
    Keeps pq (State.drainPass s) := by
  unfold State.drainPass
  repeat' (first
    | with_reducible assumption | (with_reducible apply Pass.resumes_keeps) | (intro _) | (lift_lets) | (dsimp only)
    | (simp only [keeps_mk]) | (dsimp +zetaDelta only))

theorem State.selectionPass_keeps {pq : State} (s : State) (hk : Keeps pq s) :
    Keeps pq (State.selectionPass s) := by
  unfold State.selectionPass
  repeat' (first
    | with_reducible assumption | (with_reducible apply Pass.contexts_keeps)
    | (with_reducible apply State.drainPass_keeps) | (with_reducible apply State.noteReady_keeps)
    | (with_reducible apply State.passOver_keeps) | (with_reducible apply State.quarantineSweep_keeps)
    | (with_reducible apply Pass.resumes_keeps) | (with_reducible apply State.settleCompact_keeps)
    | (intro w; refine @keeps_cut pq _ w ?_ ?_; unfold w) | (intro _) | (lift_lets) | (with_reducible apply keeps_ite)
    | split | (dsimp only) | (simp only [keeps_mk]) | (dsimp +zetaDelta only))

theorem execSelectionPass_keeps {pq : State} (s : State) (hk : Keeps pq s) :
    KeepsR pq (execSelectionPass s) := by
  unfold execSelectionPass
  repeat' (first
    | with_reducible assumption | (with_reducible apply keepsR_next) | (with_reducible apply State.selectionPass_keeps)
    | (intro _) | (lift_lets) | (with_reducible apply keeps_ite) | split | (dsimp only) | (simp only [keeps_mk])
    | (dsimp +zetaDelta only))

theorem State.lateSignals_keeps {pq : State} (s : State) (core : Nat) (hk : Keeps pq s) :
    Keeps pq (State.lateSignals s core) := by
  unfold State.lateSignals
  repeat' (first
    | with_reducible assumption | (with_reducible apply keeps_foldl) | (with_reducible apply State.lateSignal_keeps)
    | (intro _ (_ : Keeps _ _)) | (intro _ _ (_ : Keeps _ _)) | (intro _) | (lift_lets) | (dsimp only))

theorem State.saveCore_keeps {pq : State} (s : State) (uid core : Nat) (hk : Keeps pq s) :
    Keeps pq (State.saveCore s uid core) := by
  unfold State.saveCore
  repeat' (first
    | with_reducible assumption | (with_reducible apply keeps_foldl) | (with_reducible apply keeps_foldl_snd)
    | (with_reducible apply State.asyncAll_keeps) | (with_reducible apply State.lateSignals_keeps)
    | (with_reducible apply State.modStep_keeps) | (with_reducible apply State.readSpad_keeps)
    | (intro _ (_ : Keeps _ _)) | (intro _ _ (_ : Keeps _ _)) | (intro w; refine @keeps_cut pq _ w ?_ ?_; unfold w)
    | (intro _) | (lift_lets) | split | (dsimp only) | (simp only [keeps_mk]) | (dsimp +zetaDelta only)
    | (refine keeps_pair (by assumption) ?_) | (refine keeps_triple (by assumption) ?_))

theorem State.saveStep_keeps {pq : State} (s : State) (uid : Nat) (hk : Keeps pq s) :
    Keeps pq (State.saveStep s uid) := by
  unfold State.saveStep
  repeat' (first
    | with_reducible assumption | (with_reducible apply keeps_foldl) | (with_reducible apply State.modStep_keeps)
    | (with_reducible apply State.saveCore_keeps) | (intro _ (_ : Keeps _ _)) | (intro _ _ (_ : Keeps _ _))
    | (intro w; refine @keeps_cut pq _ w ?_ ?_; unfold w) | (intro _) | (lift_lets) | (with_reducible apply keeps_ite)
    | split | (dsimp only) | (simp only [keeps_mk]) | (dsimp +zetaDelta only))

theorem State.clearRegs_keeps {pq : State} (s : State) (p : Nat) (hk : Keeps pq s) :
    Keeps pq (State.clearRegs s p) := by
  unfold State.clearRegs
  repeat' (first
    | with_reducible assumption | (intro _ (_ : Keeps _ _)) | (intro _ _ (_ : Keeps _ _)) | (intro _) | (lift_lets)
    | (dsimp only) | (simp only [keeps_mk]) | (dsimp +zetaDelta only))

theorem State.restoreCore_keeps {pq : State} (s : State) (p : StepSt) (x : Parked) (hk : Keeps pq s) :
    Keeps pq (State.restoreCore s p x) := by
  unfold State.restoreCore
  repeat' (first
    | with_reducible assumption | (with_reducible apply keeps_foldl) | (with_reducible apply keeps_foldl_snd)
    | (with_reducible apply keeps_foldl_trd) | (with_reducible apply State.asyncAll_keeps)
    | (with_reducible apply State.clearRegs_keeps) | (with_reducible apply State.modStep_keeps)
    | (with_reducible apply State.setAccRow_keeps) | (with_reducible apply State.setPipe_keeps)
    | (with_reducible apply State.setStream_keeps) | (with_reducible apply State.setVreg_keeps)
    | (with_reducible apply State.statusRecord_keeps) | (with_reducible apply State.writeSpad_keeps)
    | (intro _ (_ : Keeps _ _)) | (intro _ _ (_ : Keeps _ _)) | (intro w; refine @keeps_cut pq _ w ?_ ?_; unfold w)
    | (intro _) | (lift_lets) | (with_reducible apply keeps_ite) | split | (dsimp only) | (simp only [keeps_mk])
    | (dsimp +zetaDelta only))

theorem State.resumeEnd_keeps {pq : State} (s : State) (core : Nat) (hk : Keeps pq s) :
    Keeps pq (State.resumeEnd s core) := by
  unfold State.resumeEnd
  repeat' (first
    | with_reducible assumption | (with_reducible apply State.closeStream_keeps)
    | (with_reducible apply State.countHold_keeps) | (with_reducible apply State.endStream_keeps)
    | (with_reducible apply State.tryEnd_keeps) | (with_reducible apply keeps_ite) | split | (dsimp only))

theorem State.restoreStep_keeps {pq : State} (s : State) (p : StepSt) (hk : Keeps pq s) :
    Keeps pq (State.restoreStep s p) := by
  unfold State.restoreStep
  repeat' (first
    | with_reducible assumption | (with_reducible apply keeps_foldl) | (with_reducible apply keeps_foldl_snd)
    | (with_reducible apply State.giveCores_keeps) | (with_reducible apply State.haltStep_keeps)
    | (with_reducible apply State.mergeOutput_keeps) | (with_reducible apply State.modHank_keeps)
    | (with_reducible apply State.modStep_keeps) | (with_reducible apply State.restoreCore_keeps)
    | (with_reducible apply State.resumeEnd_keeps) | (with_reducible apply State.settleStream_keeps)
    | (intro _ (_ : Keeps _ _)) | (intro _ _ (_ : Keeps _ _)) | (intro w; refine @keeps_cut pq _ w ?_ ?_; unfold w)
    | (intro _) | (lift_lets) | (with_reducible apply keeps_ite) | split | (dsimp only) | (simp only [keeps_mk])
    | (dsimp +zetaDelta only))

theorem State.switchEnd_keeps {pq : State} (s : State) (uid : Nat) (hk : Keeps pq s) :
    Keeps pq (State.switchEnd s uid) := by
  unfold State.switchEnd
  repeat' (first
    | with_reducible assumption | (with_reducible apply keeps_foldl) | (with_reducible apply State.cancelStep_keeps)
    | (with_reducible apply State.modStep_keeps) | (with_reducible apply State.restoreStep_keeps)
    | (with_reducible apply State.runStep_keeps) | (with_reducible apply State.saveStep_keeps)
    | (intro _ (_ : Keeps _ _)) | (intro _ _ (_ : Keeps _ _)) | (intro w; refine @keeps_cut pq _ w ?_ ?_; unfold w)
    | (intro _) | (lift_lets) | (with_reducible apply keeps_ite) | split | (dsimp only) | (simp only [keeps_mk])
    | (dsimp +zetaDelta only))

theorem execPreemptSwitchEnd_keeps {pq : State} (step : Nat) (s : State) (hk : Keeps pq s) :
    KeepsR pq (execPreemptSwitchEnd step s) := by
  unfold execPreemptSwitchEnd
  repeat' (first
    | with_reducible assumption | (with_reducible apply keepsR_next) | (with_reducible apply State.switchEnd_keeps)
    | (dsimp only))

theorem execPhaseEnd_keeps {pq : State} (step : Nat) (s : State) (hk : Keeps pq s) :
    KeepsR pq (execPhaseEnd step s) := by
  unfold execPhaseEnd
  repeat' (first
    | with_reducible assumption | (with_reducible apply keepsR_next) | (with_reducible apply State.phaseEnd_keeps)
    | (dsimp only))

theorem execAttentionBegin_keeps {pq : State} (step : Nat) (sub : Bool) (s : State) (hk : Keeps pq s) :
    KeepsR pq (execAttentionBegin step sub s) := by
  unfold execAttentionBegin
  repeat' (first
    | with_reducible assumption | (with_reducible apply keepsR_next)
    | (with_reducible apply State.attentionBegin_keeps) | (dsimp only))

theorem execPrefillAppend_keeps {pq : State} (step : Nat) (sub : Bool) (s : State) (hk : Keeps pq s) :
    KeepsR pq (execPrefillAppend step sub s) := by
  unfold execPrefillAppend
  repeat' (first
    | with_reducible assumption | (with_reducible apply keepsR_next) | (with_reducible apply State.prefillAppend_keeps)
    | (dsimp only))

theorem execMergeSlotReserve_keeps {pq : State} (k : Stack) (s : State) (hk : Keeps pq s) :
    KeepsR pq (execMergeSlotReserve k s) := by
  unfold execMergeSlotReserve
  repeat' (first
    | with_reducible assumption | (with_reducible apply keepsR_next) | (with_reducible apply State.mergeReserve_keeps)
    | (dsimp only))

theorem execPartialArrive_keeps {pq : State} (k : Stack) (row : Nat) (pos : Nat) (check : SlotCheck) (s : State) (hk : Keeps pq s) :
    KeepsR pq (execPartialArrive k row pos check s) := by
  unfold execPartialArrive
  repeat' (first
    | with_reducible assumption | (with_reducible apply keepsR_next) | (with_reducible apply State.partialArrive_keeps)
    | (dsimp only))

theorem execKvRetry_keeps {pq : State} (s : State) (hk : Keeps pq s) :
    KeepsR pq (execKvRetry s) := by
  unfold execKvRetry
  repeat' (first
    | with_reducible assumption | (with_reducible apply keeps_foldl) | (with_reducible apply keepsR_next)
    | (with_reducible apply State.noteReady_keeps) | (with_reducible apply State.retrySeq_keeps)
    | (intro _ (_ : Keeps _ _)) | (intro _ _ (_ : Keeps _ _)) | (intro _) | (lift_lets)
    | (with_reducible apply keeps_ite) | split | (dsimp only))

theorem State.kvExpire_keeps {pq : State} (s : State) (uid i : Nat) (hk : Keeps pq s) :
    Keeps pq (State.kvExpire s uid i) := by
  unfold State.kvExpire
  repeat' (first
    | with_reducible assumption | (with_reducible apply State.endSeq_keeps)
    | (with_reducible apply State.settleHank_keeps) | (intro w; refine @keeps_cut pq _ w ?_ ?_; unfold w) | (intro _)
    | (lift_lets) | (with_reducible apply keeps_ite) | split | (dsimp only) | (dsimp +zetaDelta only))

theorem execKvWaitExpiry_keeps {pq : State} (hank : Nat) (slot : Nat) (s : State) (hk : Keeps pq s) :
    KeepsR pq (execKvWaitExpiry hank slot s) := by
  unfold execKvWaitExpiry
  repeat' (first
    | with_reducible assumption | (with_reducible apply keepsR_next) | (with_reducible apply State.kvExpire_keeps)
    | (dsimp only))

theorem execBudgetWindowStart_keeps {pq : State} (s : State) (hk : Keeps pq s) :
    KeepsR pq (execBudgetWindowStart s) := by
  unfold execBudgetWindowStart
  repeat' (first
    | with_reducible assumption | (with_reducible apply keepsR_next)
    | (intro w; refine @keeps_cut pq _ w ?_ ?_; unfold w) | (intro _) | (lift_lets) | (with_reducible apply keeps_ite)
    | split | (dsimp only) | (simp only [keeps_mk]) | (dsimp +zetaDelta only))

theorem execGovernorThrottle_keeps {pq : State} (watts : BitVec 16) (s : State) (hk : Keeps pq s) :
    KeepsR pq (execGovernorThrottle watts s) := by
  unfold execGovernorThrottle
  repeat' (first
    | with_reducible assumption | (with_reducible apply keepsR_next) | (with_reducible apply State.setReg_keeps)
    | (intro w; refine @keeps_cut pq _ w ?_ ?_; unfold w) | (intro _) | (lift_lets) | (with_reducible apply keeps_ite)
    | split | (dsimp only) | (simp only [keeps_mk]) | (dsimp +zetaDelta only))

theorem State.quarantineModel_keeps {pq : State} (s : State) (m : Nat) (hk : Keeps pq s) :
    Keeps pq (State.quarantineModel s m) := by
  unfold State.quarantineModel
  repeat' (first
    | with_reducible assumption | (with_reducible apply keeps_foldl) | (with_reducible apply State.event_keeps)
    | (with_reducible apply State.log_keeps) | (with_reducible apply State.setModel_keeps) | (intro _ (_ : Keeps _ _))
    | (intro _ _ (_ : Keeps _ _)) | (intro w; refine @keeps_cut pq _ w ?_ ?_; unfold w) | (intro _) | (lift_lets)
    | (with_reducible apply keeps_ite) | split | (dsimp only) | (simp only [keeps_mk]) | (dsimp +zetaDelta only))

theorem execQuarantine_keeps {pq : State} (m : ModelSlot) (s : State) (hk : Keeps pq s) :
    KeepsR pq (execQuarantine m s) := by
  unfold execQuarantine
  repeat' (first
    | with_reducible assumption | (with_reducible apply keepsR_next)
    | (with_reducible apply State.quarantineModel_keeps) | (with_reducible apply keeps_ite) | split | (dsimp only))

theorem State.probeLine_keeps {pq : State} (s : State) (a : Nat) (hk : Keeps pq s) :
    Keeps pq (State.probeLine s a).2 := by
  unfold State.probeLine
  repeat' (first
    | with_reducible assumption | (with_reducible apply State.readMem_keeps) | (intro _) | (lift_lets)
    | (with_reducible apply keeps_ite) | split | (dsimp only) | (simp only [keeps_mk]) | (dsimp +zetaDelta only)
    | (refine keeps_pair (by assumption) ?_) | (refine keeps_triple (by assumption) ?_))

theorem State.repairLine_keeps {pq : State} (s : State) (bad good : Nat) (stuck : List Nat) (hk : Keeps pq s) :
    Keeps pq (State.repairLine s bad good stuck).2 := by
  unfold State.repairLine
  repeat' (first
    | with_reducible assumption | (with_reducible apply State.probeLine_keeps)
    | (with_reducible apply State.unstage_keeps) | (with_reducible apply State.writeMem_keeps)
    | (intro w; refine @keeps_cut pq _ w ?_ ?_; unfold w) | (intro _) | (lift_lets) | (with_reducible apply keeps_ite)
    | split | (dsimp only) | (dsimp +zetaDelta only) | (refine keeps_pair (by assumption) ?_)
    | (refine keeps_triple (by assumption) ?_))

theorem State.repairList_keeps {pq : State} (s : State) (m : Nat) (stuck : List Nat) (y0 : List Nat) (hk : Keeps pq s) :
    Keeps pq (State.repairList s m stuck y0) := by
  induction y0 generalizing s with
  | nil =>
    unfold State.repairList
    repeat' (first
      | with_reducible assumption | (with_reducible apply State.log_keeps) | (with_reducible apply State.logAt_keeps)
      | (with_reducible apply State.repairLine_keeps) | (with_reducible apply State.setModel_keeps)
      | (intro _ (_ : Keeps _ _)) | (intro _ _ (_ : Keeps _ _)) | (intro w; refine @keeps_cut pq _ w ?_ ?_; unfold w)
      | (intro _) | (lift_lets) | (with_reducible apply keeps_ite) | split | (dsimp only) | (simp only [keeps_mk])
      | (dsimp +zetaDelta only) | (refine keeps_pair (by assumption) ?_) | (refine keeps_triple (by assumption) ?_))
  | cons x l ih =>
    unfold State.repairList
    repeat' (first
      | with_reducible assumption | (with_reducible apply State.log_keeps) | (with_reducible apply State.logAt_keeps)
      | (with_reducible apply State.repairLine_keeps) | (with_reducible apply State.setModel_keeps)
      | (with_reducible apply ih) | (intro _ (_ : Keeps _ _)) | (intro _ _ (_ : Keeps _ _))
      | (intro w; refine @keeps_cut pq _ w ?_ ?_; unfold w) | (intro _) | (lift_lets) | (with_reducible apply keeps_ite)
      | split | (dsimp only) | (simp only [keeps_mk]) | (dsimp +zetaDelta only) | (refine keeps_pair (by assumption) ?_)
      | (refine keeps_triple (by assumption) ?_))


theorem State.repairMirrors_keeps {pq : State} (s : State) (m : Nat) (stuck : List Nat) (hk : Keeps pq s) :
    Keeps pq (State.repairMirrors s m stuck) := by
  unfold State.repairMirrors
  repeat' (first
    | with_reducible assumption | (with_reducible apply keeps_foldl) | (with_reducible apply keeps_foldl_snd)
    | (with_reducible apply State.log_keeps) | (with_reducible apply State.logAt_keeps)
    | (with_reducible apply State.repairLine_keeps) | (intro _ (_ : Keeps _ _)) | (intro _ _ (_ : Keeps _ _))
    | (intro w; refine @keeps_cut pq _ w ?_ ?_; unfold w) | (intro _) | (lift_lets) | (with_reducible apply keeps_ite)
    | split | (dsimp only) | (simp only [keeps_mk]) | (dsimp +zetaDelta only) | (refine keeps_pair (by assumption) ?_)
    | (refine keeps_triple (by assumption) ?_))

theorem State.mirrorRepair_keeps {pq : State} (s : State) (m : Nat) (stuck : List Nat) (hk : Keeps pq s) :
    Keeps pq (State.mirrorRepair s m stuck) := by
  unfold State.mirrorRepair
  repeat' (first
    | with_reducible assumption | (with_reducible apply State.atBoundary_keeps)
    | (with_reducible apply State.copyDone_keeps) | (with_reducible apply State.repairList_keeps)
    | (with_reducible apply State.repairMirrors_keeps) | (intro w; refine @keeps_cut pq _ w ?_ ?_; unfold w)
    | (intro _) | (lift_lets) | (with_reducible apply keeps_ite) | split | (dsimp only) | (dsimp +zetaDelta only))

theorem State.restoreModel_keeps {pq : State} (s : State) (m : Nat) (hk : Keeps pq s) :
    Keeps pq (State.restoreModel s m) := by
  unfold State.restoreModel
  repeat' (first
    | with_reducible assumption | (with_reducible apply State.event_keeps)
    | (with_reducible apply State.noteReady_keeps) | (with_reducible apply State.setModel_keeps) | (intro _)
    | (lift_lets) | (with_reducible apply keeps_ite) | split | (dsimp only) | (simp only [keeps_mk])
    | (dsimp +zetaDelta only))

theorem execMirrorRepair_keeps {pq : State} (m : ModelSlot) (stuck : List Nat) (s : State) (hk : Keeps pq s) :
    KeepsR pq (execMirrorRepair m stuck s) := by
  unfold execMirrorRepair
  repeat' (first
    | with_reducible assumption | (with_reducible apply keepsR_next) | (with_reducible apply State.mirrorRepair_keeps)
    | (dsimp only))

theorem State.dropFated_keeps {pq : State} (s : State) (uid : Nat) (p : StepSt) (w : SlotWork) (hk : Keeps pq s) :
    Keeps pq (State.dropFated s uid p w) := by
  unfold State.dropFated
  repeat' (first
    | with_reducible assumption | (with_reducible apply State.endSeq_keeps)
    | (with_reducible apply State.leaveStep_keeps) | split | (dsimp only))

theorem State.restartStep_keeps {pq : State} (s : State) (uid : Nat) (p : StepSt) (hk : Keeps pq s) :
    Keeps pq (State.restartStep s uid p) := by
  unfold State.restartStep
  repeat' (first
    | with_reducible assumption | (with_reducible apply keeps_foldl) | (with_reducible apply State.beginStep_keeps)
    | (with_reducible apply State.dropFated_keeps) | (with_reducible apply State.modStep_keeps)
    | (with_reducible apply State.settleHank_keeps) | (intro _ (_ : Keeps _ _)) | (intro _ _ (_ : Keeps _ _))
    | (intro w; refine @keeps_cut pq _ w ?_ ?_; unfold w) | (intro _) | (lift_lets) | (with_reducible apply keeps_ite)
    | split | (dsimp only) | (simp only [keeps_mk]) | (dsimp +zetaDelta only))

theorem State.stepRestart_keeps {pq : State} (s : State) (uid : Nat) (hk : Keeps pq s) :
    Keeps pq (State.stepRestart s uid) := by
  unfold State.stepRestart
  repeat' (first
    | with_reducible assumption | (with_reducible apply State.restartStep_keeps) | (intro _ (_ : Keeps _ _))
    | (intro _ _ (_ : Keeps _ _)) | (intro w; refine @keeps_cut pq _ w ?_ ?_; unfold w) | (intro _) | (lift_lets)
    | (with_reducible apply keeps_ite) | split | (dsimp only) | (dsimp +zetaDelta only))

theorem execDeadCoreStepRestart_keeps {pq : State} (step : Nat) (s : State) (hk : Keeps pq s) :
    KeepsR pq (execDeadCoreStepRestart step s) := by
  unfold execDeadCoreStepRestart
  repeat' (first
    | with_reducible assumption | (with_reducible apply keepsR_next) | (with_reducible apply State.stepRestart_keeps)
    | (dsimp only))

end Sys2Proof.Machine
end

