-- ==== Sys2Proof/Laws/KeepsReliability.lean ====
section
/-!
SUPPORT. The operations of Machine/Reliability.lean keep memory canonical and the queue as it is.
-/

namespace Sys2Proof.Machine

theorem execCeLeak_keeps {pq : State} (bucket : Fin 9) (s : State) (hk : Keeps pq s) :
    KeepsR pq (execCeLeak bucket s) := by
  unfold execCeLeak
  repeat' (first
    | with_reducible assumption | (with_reducible apply keepsR_next) | (with_reducible apply State.setFld_keeps)
    | (intro w; refine @keeps_cut pq _ w ?_ ?_; unfold w) | (intro _) | (lift_lets) | (with_reducible apply keeps_ite)
    | split | (dsimp only) | (dsimp +zetaDelta only))

theorem State.repairCopy_keeps {pq : State} (s : State) (a : Nat) (y0 : List Nat) (hk : Keeps pq s) :
    Keeps pq (State.repairCopy s a y0) := by
  induction y0 generalizing s with
  | nil =>
    unfold State.repairCopy
    repeat' (first
      | with_reducible assumption | (with_reducible apply State.readLoc_keeps)
      | (with_reducible apply State.writeLoc_keeps) | (intro w; refine @keeps_cut pq _ w ?_ ?_; unfold w) | (intro _)
      | (lift_lets) | (with_reducible apply keeps_ite) | split | (dsimp only) | (dsimp +zetaDelta only)
      | (refine keeps_pair (by assumption) ?_) | (refine keeps_triple (by assumption) ?_))
  | cons x l ih =>
    unfold State.repairCopy
    repeat' (first
      | with_reducible assumption | (with_reducible apply State.readLoc_keeps)
      | (with_reducible apply State.writeLoc_keeps) | (with_reducible apply ih)
      | (intro w; refine @keeps_cut pq _ w ?_ ?_; unfold w) | (intro _) | (lift_lets) | (with_reducible apply keeps_ite)
      | split | (dsimp only) | (dsimp +zetaDelta only) | (refine keeps_pair (by assumption) ?_)
      | (refine keeps_triple (by assumption) ?_))


theorem State.carderLine_keeps {pq : State} (s : State) (k n : Nat) (stuck : List Nat) (hk : Keeps pq s) :
    Keeps pq (State.carderLine s k n stuck) := by
  unfold State.carderLine
  repeat' (first
    | with_reducible assumption | (with_reducible apply State.countCe_keeps)
    | (with_reducible apply State.foundUe_keeps) | (with_reducible apply State.logAt_keeps)
    | (with_reducible apply State.loseSkein_keeps) | (with_reducible apply State.repairCopy_keeps)
    | (with_reducible apply State.storeLine_keeps) | (with_reducible apply State.unstage_keeps)
    | (intro w; refine @keeps_cut pq _ w ?_ ?_; unfold w) | (intro _) | (lift_lets) | (with_reducible apply keeps_ite)
    | split | (dsimp only) | (simp only [keeps_mk]) | (dsimp +zetaDelta only))

theorem State.carderNext_keeps {pq : State} (s : State) (k : Nat) (stuck : List Nat) (hk : Keeps pq s) :
    Keeps pq (State.carderNext s k stuck) := by
  unfold State.carderNext
  repeat' (first
    | with_reducible assumption | (with_reducible apply State.bumpReg_keeps)
    | (with_reducible apply State.carderLine_keeps) | (with_reducible apply State.setFld_keeps)
    | (intro _ (_ : Keeps _ _)) | (intro _ _ (_ : Keeps _ _)) | (intro w; refine @keeps_cut pq _ w ?_ ?_; unfold w)
    | (intro _) | (lift_lets) | (with_reducible apply keeps_ite) | split | (dsimp only) | (simp only [keeps_mk])
    | (dsimp +zetaDelta only))

theorem State.carderRun_keeps {pq : State} (s : State) (k : Nat) (stuck : List Nat) (y0 : Nat) (hk : Keeps pq s) :
    Keeps pq (State.carderRun s k stuck y0) := by
  induction y0 generalizing s with
  | zero =>
    unfold State.carderRun
    repeat' (first
      | with_reducible assumption | (with_reducible apply State.carderNext_keeps)
      | (with_reducible apply State.reach_keeps) | (intro w; refine @keeps_cut pq _ w ?_ ?_; unfold w) | (intro _)
      | (lift_lets) | (with_reducible apply keeps_ite) | split | (dsimp only) | (dsimp +zetaDelta only)
      | (refine keeps_pair (by assumption) ?_) | (refine keeps_triple (by assumption) ?_))
  | succ n ih =>
    unfold State.carderRun
    repeat' (first
      | with_reducible assumption | (with_reducible apply State.carderNext_keeps)
      | (with_reducible apply State.reach_keeps) | (with_reducible apply ih)
      | (intro w; refine @keeps_cut pq _ w ?_ ?_; unfold w) | (intro _) | (lift_lets) | (with_reducible apply keeps_ite)
      | split | (dsimp only) | (dsimp +zetaDelta only) | (refine keeps_pair (by assumption) ?_)
      | (refine keeps_triple (by assumption) ?_))


theorem State.carderVisit_keeps {pq : State} (s : State) (k : Nat) (stuck : List Nat) (hk : Keeps pq s) :
    Keeps pq (State.carderVisit s k stuck) := by
  unfold State.carderVisit
  repeat' (first
    | with_reducible assumption | (with_reducible apply State.carderRun_keeps)
    | (intro w; refine @keeps_cut pq _ w ?_ ?_; unfold w) | (intro _) | (lift_lets) | (with_reducible apply keeps_ite)
    | split | (dsimp only) | (dsimp +zetaDelta only))

theorem execCarderVisit_keeps {pq : State} (k : Stack) (stuck : List Nat) (s : State) (hk : Keeps pq s) :
    KeepsR pq (execCarderVisit k stuck s) := by
  unfold execCarderVisit
  repeat' (first
    | with_reducible assumption | (with_reducible apply keepsR_next) | (with_reducible apply State.carderVisit_keeps)
    | (dsimp only))

theorem State.blockRelease_keeps {pq : State} (s : State) (v : Word) (hk : Keeps pq s) :
    Keeps pq (State.blockRelease s v) := by
  unfold State.blockRelease
  repeat' (first
    | with_reducible assumption | (with_reducible apply State.logInvalid_keeps)
    | (intro w; refine @keeps_cut pq _ w ?_ ?_; unfold w) | (intro _) | (lift_lets) | (with_reducible apply keeps_ite)
    | split | (dsimp only) | (simp only [keeps_mk]) | (dsimp +zetaDelta only))

theorem execEccBlockRelease_keeps {pq : State} (v : Word) (s : State) (hk : Keeps pq s) :
    KeepsR pq (execEccBlockRelease v s) := by
  unfold execEccBlockRelease
  repeat' (first
    | with_reducible assumption | (with_reducible apply keepsR_next) | (with_reducible apply State.blockRelease_keeps)
    | (with_reducible apply State.pfWrite_keeps) | (intro _ (_ : Keeps _ _)) | (intro _ _ (_ : Keeps _ _)) | (intro _)
    | (lift_lets) | (dsimp only))

theorem State.abandonStep_keeps {pq : State} (s : State) (uid : Nat) (hk : Keeps pq s) :
    Keeps pq (State.abandonStep s uid) := by
  unfold State.abandonStep
  repeat' (first
    | with_reducible assumption | (with_reducible apply keeps_foldl) | (with_reducible apply State.closeStream_keeps)
    | (with_reducible apply State.countHold_keeps) | (with_reducible apply State.modStep_keeps)
    | (intro _ (_ : Keeps _ _)) | (intro _ _ (_ : Keeps _ _)) | (intro w; refine @keeps_cut pq _ w ?_ ?_; unfold w)
    | (intro _) | (lift_lets) | (with_reducible apply keeps_ite) | split | (dsimp only) | (simp only [keeps_mk])
    | (dsimp +zetaDelta only))

theorem State.withholdGroup_keeps {pq : State} (s : State) (n : Nat) (hk : Keeps pq s) :
    Keeps pq (State.withholdGroup s n) := by
  unfold State.withholdGroup
  repeat' (first
    | with_reducible assumption | (with_reducible apply keeps_foldl) | (with_reducible apply keeps_foldl_snd)
    | (with_reducible apply State.abandonStep_keeps) | (with_reducible apply State.loseSkein_keeps)
    | (intro _ (_ : Keeps _ _)) | (intro _ _ (_ : Keeps _ _)) | (intro w; refine @keeps_cut pq _ w ?_ ?_; unfold w)
    | (intro _) | (lift_lets) | (dsimp only) | (simp only [keeps_mk]) | (dsimp +zetaDelta only))

theorem State.rebuildMap_keeps {pq : State} (s : State) (dead : List Nat) (hk : Keeps pq s) :
    Keeps pq (State.rebuildMap s dead) := by
  unfold State.rebuildMap
  repeat' (first
    | with_reducible assumption | (with_reducible apply keeps_foldl) | (with_reducible apply State.modCore_keeps)
    | (with_reducible apply State.setPhys_keeps) | (intro _ (_ : Keeps _ _)) | (intro _ _ (_ : Keeps _ _))
    | (intro w; refine @keeps_cut pq _ w ?_ ?_; unfold w) | (intro _) | (lift_lets) | split | (dsimp only)
    | (simp only [keeps_mk]) | (dsimp +zetaDelta only))

theorem State.giveNumber_keeps {pq : State} (s : State) (p c : Nat) (hk : Keeps pq s) :
    Keeps pq (State.giveNumber s p c) := by
  unfold State.giveNumber
  repeat' (first
    | with_reducible assumption | (with_reducible apply State.clearCore_keeps)
    | (with_reducible apply State.modCore_keeps) | (with_reducible apply State.setPhys_keeps)
    | (intro _ (_ : Keeps _ _)) | (intro _ _ (_ : Keeps _ _)) | (intro _) | (lift_lets) | (dsimp only)
    | (simp only [keeps_mk]) | (dsimp +zetaDelta only))

theorem State.loseCoreWork_keeps {pq : State} (s : State) (c : Nat) (hk : Keeps pq s) :
    Keeps pq (State.loseCoreWork s c) := by
  unfold State.loseCoreWork
  repeat' (first
    | with_reducible assumption | (with_reducible apply keeps_foldl) | (with_reducible apply State.abandonStep_keeps)
    | (with_reducible apply State.endStream_keeps) | (with_reducible apply State.modStep_keeps)
    | (with_reducible apply State.statusRecord_keeps) | (intro _ (_ : Keeps _ _)) | (intro _ _ (_ : Keeps _ _))
    | (intro w; refine @keeps_cut pq _ w ?_ ?_; unfold w) | (intro _) | (lift_lets) | (with_reducible apply keeps_ite)
    | split | (dsimp only) | (simp only [keeps_mk]) | (dsimp +zetaDelta only))

theorem State.killCore_keeps {pq : State} (s : State) (p why : Nat) (hk : Keeps pq s) :
    Keeps pq (State.killCore s p why) := by
  unfold State.killCore
  repeat' (first
    | with_reducible assumption | (with_reducible apply keeps_foldl) | (with_reducible apply State.bumpReg_keeps)
    | (with_reducible apply State.finishTeardown_keeps) | (with_reducible apply State.giveNumber_keeps)
    | (with_reducible apply State.log_keeps) | (with_reducible apply State.loseCoreWork_keeps)
    | (with_reducible apply State.modCore_keeps) | (with_reducible apply State.setPhys_keeps)
    | (intro _ (_ : Keeps _ _)) | (intro _ _ (_ : Keeps _ _)) | (intro w; refine @keeps_cut pq _ w ?_ ?_; unfold w)
    | (intro _) | (lift_lets) | (with_reducible apply keeps_ite) | split | (dsimp only) | (simp only [keeps_mk])
    | (dsimp +zetaDelta only))

theorem State.coreDeclare_keeps {pq : State} (s : State) (p : Nat) (hk : Keeps pq s) :
    Keeps pq (State.coreDeclare s p) := by
  unfold State.coreDeclare
  repeat' (first
    | with_reducible assumption | (with_reducible apply State.atBoundary_keeps)
    | (with_reducible apply State.logInvalid_keeps) | (with_reducible apply keeps_ite) | split | (dsimp only))

theorem execCoreDeclare_keeps {pq : State} (p : BitVec 8) (s : State) (hk : Keeps pq s) :
    KeepsR pq (execCoreDeclare p s) := by
  unfold execCoreDeclare
  repeat' (first
    | with_reducible assumption | (with_reducible apply keepsR_next) | (with_reducible apply State.coreDeclare_keeps)
    | (with_reducible apply State.pfWrite_keeps) | (intro _ (_ : Keeps _ _)) | (intro _ _ (_ : Keeps _ _)) | (intro _)
    | (lift_lets) | (dsimp only))

theorem State.coreDies_keeps {pq : State} (s : State) (p : Nat) (hk : Keeps pq s) :
    Keeps pq (State.coreDies s p) := by
  unfold State.coreDies
  repeat' (first
    | with_reducible assumption | (with_reducible apply keeps_foldl) | (with_reducible apply State.dropBoundary_keeps)
    | (with_reducible apply State.killCore_keeps) | (intro _ (_ : Keeps _ _)) | (intro _ _ (_ : Keeps _ _))
    | (intro w; refine @keeps_cut pq _ w ?_ ?_; unfold w) | (intro _) | (lift_lets) | (with_reducible apply keeps_ite)
    | split | (dsimp only) | (dsimp +zetaDelta only))

theorem execCoreDeclaredDead_keeps {pq : State} (p : PCore) (s : State) (hk : Keeps pq s) :
    KeepsR pq (execCoreDeclaredDead p s) := by
  unfold execCoreDeclaredDead
  repeat' (first
    | with_reducible assumption | (with_reducible apply keepsR_next) | (with_reducible apply State.coreDies_keeps)
    | (with_reducible apply State.whenServing_keeps) | (intro _ (_ : Keeps _ _)) | (intro _ _ (_ : Keeps _ _))
    | (intro _) | (lift_lets) | (dsimp only))

theorem execCoreStopTimeout_keeps {pq : State} (c : Core) (s : State) (hk : Keeps pq s) :
    KeepsR pq (execCoreStopTimeout c s) := by
  unfold execCoreStopTimeout
  repeat' (first
    | with_reducible assumption | (with_reducible apply keepsR_next) | (with_reducible apply State.atBoundary_keeps)
    | (with_reducible apply State.whenServing_keeps) | (intro _ (_ : Keeps _ _)) | (intro _ _ (_ : Keeps _ _))
    | (intro _) | (lift_lets) | (with_reducible apply keeps_ite) | split | (dsimp only))

theorem State.coreJoins_keeps {pq : State} (s : State) (p : Nat) (hk : Keeps pq s) :
    Keeps pq (State.coreJoins s p) := by
  unfold State.coreJoins
  repeat' (first
    | with_reducible assumption | (with_reducible apply State.clearCore_keeps)
    | (with_reducible apply State.giveNumber_keeps) | (with_reducible apply State.log_keeps)
    | (with_reducible apply State.setPhys_keeps) | (intro _) | (lift_lets) | (with_reducible apply keeps_ite) | split
    | (dsimp only) | (simp only [keeps_mk]) | (dsimp +zetaDelta only))

theorem State.coreAdmit_keeps {pq : State} (s : State) (p : Nat) (ok : Bool) (hk : Keeps pq s) :
    Keeps pq (State.coreAdmit s p ok) := by
  unfold State.coreAdmit
  repeat' (first
    | with_reducible assumption | (with_reducible apply State.atBoundary_keeps)
    | (with_reducible apply State.log_keeps) | (with_reducible apply State.logInvalid_keeps) | (intro _) | (lift_lets)
    | (with_reducible apply keeps_ite) | split | (dsimp only) | (simp only [keeps_mk]) | (dsimp +zetaDelta only))

theorem execCoreAdmit_keeps {pq : State} (p : BitVec 8) (selfTestOk : Bool) (s : State) (hk : Keeps pq s) :
    KeepsR pq (execCoreAdmit p selfTestOk s) := by
  unfold execCoreAdmit
  repeat' (first
    | with_reducible assumption | (with_reducible apply keepsR_next) | (with_reducible apply State.coreAdmit_keeps)
    | (with_reducible apply State.pfWrite_keeps) | (intro _ (_ : Keeps _ _)) | (intro _ _ (_ : Keeps _ _)) | (intro _)
    | (lift_lets) | (dsimp only))

theorem State.reissue_keeps {pq : State} (s : State) (n : Nat) (c : SpdCmd) (hk : Keeps pq s) :
    Keeps pq (State.reissue s n c) := by
  unfold State.reissue
  repeat' (first
    | with_reducible assumption | (with_reducible apply State.enqueueSpd_keeps) | (intro _ (_ : Keeps _ _))
    | (intro _ _ (_ : Keeps _ _)) | (intro w; refine @keeps_cut pq _ w ?_ ?_; unfold w) | (intro _) | (lift_lets)
    | (with_reducible apply keeps_ite) | split | (dsimp only) | (simp only [keeps_mk]) | (dsimp +zetaDelta only))

theorem State.evacuate_keeps {pq : State} (s : State) (n : Nat) (hk : Keeps pq s) :
    Keeps pq (State.evacuate s n) := by
  unfold State.evacuate
  repeat' (first
    | with_reducible assumption | (with_reducible apply keeps_foldl) | (with_reducible apply keeps_foldl_snd)
    | (with_reducible apply State.abandonStep_keeps) | (with_reducible apply State.final_keeps)
    | (with_reducible apply State.modSeq_keeps) | (with_reducible apply State.parkSeq_keeps)
    | (intro _ (_ : Keeps _ _)) | (intro _ _ (_ : Keeps _ _)) | (intro w; refine @keeps_cut pq _ w ?_ ?_; unfold w)
    | (intro _) | (lift_lets) | (with_reducible apply keeps_ite) | split | (dsimp only) | (simp only [keeps_mk])
    | (dsimp +zetaDelta only))

theorem State.killSpindle_keeps {pq : State} (s : State) (n why : Nat) (alone : Bool) (hk : Keeps pq s) :
    Keeps pq (State.killSpindle s n why alone) := by
  unfold State.killSpindle
  repeat' (first
    | with_reducible assumption | (with_reducible apply keeps_foldl) | (with_reducible apply keeps_foldl_snd)
    | (with_reducible apply State.evacuate_keeps) | (with_reducible apply State.failRequest_keeps)
    | (with_reducible apply State.finishTeardown_keeps) | (with_reducible apply State.log_keeps)
    | (with_reducible apply State.reissue_keeps) | (with_reducible apply State.setRow_keeps)
    | (with_reducible apply State.setSpindle_keeps) | (intro _ (_ : Keeps _ _)) | (intro _ _ (_ : Keeps _ _))
    | (intro w; refine @keeps_cut pq _ w ?_ ?_; unfold w) | (intro _) | (lift_lets) | (with_reducible apply keeps_ite)
    | split | (dsimp only) | (simp only [keeps_mk]) | (dsimp +zetaDelta only))

theorem State.spindleDies_keeps {pq : State} (s : State) (n : Nat) (hk : Keeps pq s) :
    Keeps pq (State.spindleDies s n) := by
  unfold State.spindleDies
  repeat' (first
    | with_reducible assumption | (with_reducible apply keeps_foldl) | (with_reducible apply State.dropBoundary_keeps)
    | (with_reducible apply State.killSpindle_keeps) | (intro _ (_ : Keeps _ _)) | (intro _ _ (_ : Keeps _ _))
    | (intro w; refine @keeps_cut pq _ w ?_ ?_; unfold w) | (intro _) | (lift_lets) | (with_reducible apply keeps_ite)
    | split | (dsimp only) | (dsimp +zetaDelta only))

theorem execSpindleDeclaredDead_keeps {pq : State} (n : SpindleIx) (s : State) (hk : Keeps pq s) :
    KeepsR pq (execSpindleDeclaredDead n s) := by
  unfold execSpindleDeclaredDead
  repeat' (first
    | with_reducible assumption | (with_reducible apply keepsR_next) | (with_reducible apply State.spindleDies_keeps)
    | (with_reducible apply State.whenServing_keeps) | (intro _ (_ : Keeps _ _)) | (intro _ _ (_ : Keeps _ _))
    | (intro _) | (lift_lets) | (dsimp only))

theorem State.spdDeclare_keeps {pq : State} (s : State) (n : Nat) (hk : Keeps pq s) :
    Keeps pq (State.spdDeclare s n) := by
  unfold State.spdDeclare
  repeat' (first
    | with_reducible assumption | (with_reducible apply State.atBoundary_keeps)
    | (with_reducible apply State.logInvalid_keeps) | (with_reducible apply keeps_ite) | split | (dsimp only))

theorem execSpdCmdDeclare_keeps {pq : State} (n : SpindleIx) (s : State) (hk : Keeps pq s) :
    KeepsR pq (execSpdCmdDeclare n s) := by
  unfold execSpdCmdDeclare
  repeat' (first
    | with_reducible assumption | (with_reducible apply keepsR_next) | (with_reducible apply State.pfWrite_keeps)
    | (with_reducible apply State.spdDeclare_keeps) | (intro _ (_ : Keeps _ _)) | (intro _ _ (_ : Keeps _ _))
    | (intro _) | (lift_lets) | (dsimp only))

theorem execSpindleCmdTimeout_keeps {pq : State} (n : SpindleIx) (s : State) (hk : Keeps pq s) :
    KeepsR pq (execSpindleCmdTimeout n s) := by
  unfold execSpindleCmdTimeout
  repeat' (first
    | with_reducible assumption | (with_reducible apply keepsR_next) | (with_reducible apply State.atBoundary_keeps)
    | (with_reducible apply State.whenServing_keeps) | (intro _ (_ : Keeps _ _)) | (intro _ _ (_ : Keeps _ _))
    | (intro _) | (lift_lets) | (with_reducible apply keeps_ite) | split | (dsimp only))

theorem State.takeBack_keeps {pq : State} (s : State) (n : Nat) (hk : Keeps pq s) :
    Keeps pq (State.takeBack s n) := by
  unfold State.takeBack
  repeat' (first
    | with_reducible assumption | (with_reducible apply State.setSpindle_keeps) | (intro _ (_ : Keeps _ _))
    | (intro _ _ (_ : Keeps _ _)) | (intro w; refine @keeps_cut pq _ w ?_ ?_; unfold w) | (intro _) | (lift_lets)
    | (with_reducible apply keeps_ite) | split | (dsimp only) | (simp only [keeps_mk]) | (dsimp +zetaDelta only))

theorem State.settleAdmits_keeps {pq : State} (s : State) (hk : Keeps pq s) :
    Keeps pq (State.settleAdmits s) := by
  unfold State.settleAdmits
  repeat' (first
    | with_reducible assumption | (with_reducible apply keeps_foldl) | (with_reducible apply State.takeBack_keeps)
    | (intro _ (_ : Keeps _ _)) | (intro _ _ (_ : Keeps _ _)) | (intro _) | (lift_lets)
    | (with_reducible apply keeps_ite) | split | (dsimp only))

theorem State.spdAdmit_keeps {pq : State} (s : State) (n : Nat) (ok : Bool) (hk : Keeps pq s) :
    Keeps pq (State.spdAdmit s n ok) := by
  unfold State.spdAdmit
  repeat' (first
    | with_reducible assumption | (with_reducible apply State.log_keeps)
    | (with_reducible apply State.logInvalid_keeps) | (intro w; refine @keeps_cut pq _ w ?_ ?_; unfold w) | (intro _)
    | (lift_lets) | (with_reducible apply keeps_ite) | split | (dsimp only) | (simp only [keeps_mk])
    | (dsimp +zetaDelta only))

theorem execSpdCmdAdmit_keeps {pq : State} (n : SpindleIx) (selfTestOk : Bool) (s : State) (hk : Keeps pq s) :
    KeepsR pq (execSpdCmdAdmit n selfTestOk s) := by
  unfold execSpdCmdAdmit
  repeat' (first
    | with_reducible assumption | (with_reducible apply keepsR_next) | (with_reducible apply State.pfWrite_keeps)
    | (with_reducible apply State.spdAdmit_keeps) | (intro _ (_ : Keeps _ _)) | (intro _ _ (_ : Keeps _ _)) | (intro _)
    | (lift_lets) | (dsimp only))

theorem State.dropStackRows_keeps {pq : State} (s : State) (k : Nat) (hk : Keeps pq s) :
    Keeps pq (State.dropStackRows s k) := by
  unfold State.dropStackRows
  repeat' (first
    | with_reducible assumption | (with_reducible apply keeps_foldl) | (with_reducible apply State.modRow_keeps)
    | (with_reducible apply State.setRow_keeps) | (intro _ (_ : Keeps _ _)) | (intro _ _ (_ : Keeps _ _))
    | (intro w; refine @keeps_cut pq _ w ?_ ?_; unfold w) | (intro _) | (lift_lets) | split | (dsimp only)
    | (simp only [keeps_mk]) | (dsimp +zetaDelta only))

theorem State.loseSpindles_keeps {pq : State} (s : State) (k : Nat) (hk : Keeps pq s) :
    Keeps pq (State.loseSpindles s k) := by
  unfold State.loseSpindles
  repeat' (first
    | with_reducible assumption | (with_reducible apply keeps_foldl) | (with_reducible apply State.killSpindle_keeps)
    | (with_reducible apply State.withholdGroup_keeps) | (intro _ (_ : Keeps _ _)) | (intro _ _ (_ : Keeps _ _))
    | (intro w; refine @keeps_cut pq _ w ?_ ?_; unfold w) | (intro _) | (lift_lets) | (dsimp only)
    | (dsimp +zetaDelta only))

theorem State.loseStack_keeps {pq : State} (s : State) (k : Nat) (hk : Keeps pq s) :
    Keeps pq (State.loseStack s k) := by
  unfold State.loseStack
  split
  · exact hk
  · lift_lets
    intro s1 s2 s3 m s4 s5 s6
    have k3 : Keeps pq s3 := State.loseSpindles_keeps _ _ (State.dropStackRows_keeps _ _ (State.setReg_keeps _ _ _ hk))
    clear_value s3
    have k4 : Keeps pq s4 := keeps_mkm.2 k3
    clear_value s4
    have k6 : Keeps pq s6 := State.log_keeps _ _ (State.setThread_keeps _ _ _ k4)
    clear_value s6
    split
    · exact State.atBoundary_keeps _ _ k6
    · exact k6


theorem execStackLost_keeps {pq : State} (k : Stack) (s : State) (hk : Keeps pq s) :
    KeepsR pq (execStackLost k s) := by
  unfold execStackLost
  repeat' (first
    | with_reducible assumption | (with_reducible apply keepsR_next) | (with_reducible apply State.dropBoundary_keeps)
    | (with_reducible apply State.loseStack_keeps) | (with_reducible apply State.whenServing_keeps)
    | (intro _ (_ : Keeps _ _)) | (intro _ _ (_ : Keeps _ _)) | (intro _) | (lift_lets)
    | (with_reducible apply keeps_ite) | split | (dsimp only))

theorem State.stkCmd_keeps {pq : State} (s : State) (v : Word) (hk : Keeps pq s) :
    Keeps pq (State.stkCmd s v) := by
  unfold State.stkCmd
  repeat' (first
    | with_reducible assumption | (with_reducible apply State.atBoundary_keeps)
    | (with_reducible apply State.logInvalid_keeps) | (intro w; refine @keeps_cut pq _ w ?_ ?_; unfold w) | (intro _)
    | (lift_lets) | (with_reducible apply keeps_ite) | split | (dsimp only) | (dsimp +zetaDelta only))

theorem execStkCmdLost_keeps {pq : State} (v : Word) (s : State) (hk : Keeps pq s) :
    KeepsR pq (execStkCmdLost v s) := by
  unfold execStkCmdLost
  repeat' (first
    | with_reducible assumption | (with_reducible apply keepsR_next) | (with_reducible apply State.pfWrite_keeps)
    | (with_reducible apply State.stkCmd_keeps) | (intro _ (_ : Keeps _ _)) | (intro _ _ (_ : Keeps _ _)) | (intro _)
    | (lift_lets) | (dsimp only))

theorem execStackUnanswered_keeps {pq : State} (k : Stack) (s : State) (hk : Keeps pq s) :
    KeepsR pq (execStackUnanswered k s) := by
  unfold execStackUnanswered
  repeat' (first
    | with_reducible assumption | (with_reducible apply keepsR_next) | (with_reducible apply State.atBoundary_keeps)
    | (with_reducible apply State.whenServing_keeps) | (intro _ (_ : Keeps _ _)) | (intro _ _ (_ : Keeps _ _))
    | (intro _) | (lift_lets) | (with_reducible apply keeps_ite) | split | (dsimp only))

theorem State.winWrite_keeps {pq : State} (s : State) (l : WinLine) (d c : List Nat) (hk : Keeps pq s) :
    Keeps pq (State.winWrite s l d c) := by
  unfold State.winWrite
  repeat' (first
    | with_reducible assumption | (with_reducible apply State.setRawChk_keeps)
    | (with_reducible apply State.setRawData_keeps) | (with_reducible apply State.setSpadUnit_keeps)
    | (with_reducible apply State.setSsbLine_keeps) | (with_reducible apply State.unstage_keeps)
    | (intro w; refine @keeps_cut pq _ w ?_ ?_; unfold w) | (intro _) | (lift_lets) | split | (dsimp only)
    | (simp only [keeps_mk]) | (dsimp +zetaDelta only))

theorem State.winLoad_keeps {pq : State} (s : State) (l : WinLine) (hk : Keeps pq s) :
    Keeps pq (State.winLoad s l) := by
  unfold State.winLoad
  repeat' (first
    | with_reducible assumption | (with_reducible apply keeps_foldl) | (with_reducible apply keeps_foldl_snd)
    | (with_reducible apply State.setReg_keeps) | (intro _ (_ : Keeps _ _)) | (intro _ _ (_ : Keeps _ _))
    | (intro w; refine @keeps_cut pq _ w ?_ ?_; unfold w) | (intro _) | (lift_lets) | split | (dsimp only)
    | (dsimp +zetaDelta only))

theorem State.window_keeps {pq : State} (s : State) (cmd : Nat) (f : State → WinLine → State) (hk : Keeps pq s) (hf : ∀ x0 x1, Keeps pq x0 → Keeps pq (f x0 x1)) :
    Keeps pq (State.window s cmd f) := by
  unfold State.window
  repeat' (first
    | with_reducible assumption | (with_reducible apply hf) | (with_reducible apply State.logInvalid_keeps) | split
    | (dsimp only))

theorem State.winUnstage_keeps {pq : State} (s : State) (l : WinLine) (hk : Keeps pq s) :
    Keeps pq (State.winUnstage s l) := by
  unfold State.winUnstage
  repeat' (first
    | with_reducible assumption | (with_reducible apply State.unstage_keeps) | split | (dsimp only))

theorem State.readRaw_keeps {pq : State} (s : State) (hk : Keeps pq s) :
    Keeps pq (State.readRaw s) := by
  unfold State.readRaw
  repeat' (first
    | with_reducible assumption | (with_reducible apply State.winLoad_keeps)
    | (with_reducible apply State.winUnstage_keeps) | (with_reducible apply State.window_keeps)
    | (intro _ (_ : Keeps _ _)) | (intro _ _ (_ : Keeps _ _)) | (intro _) | (lift_lets) | (dsimp only))

theorem State.writeData_keeps {pq : State} (s : State) (hk : Keeps pq s) :
    Keeps pq (State.writeData s) := by
  unfold State.writeData
  repeat' (first
    | with_reducible assumption | (with_reducible apply State.winWrite_keeps)
    | (with_reducible apply State.window_keeps) | (intro _ (_ : Keeps _ _)) | (intro _ _ (_ : Keeps _ _)) | (intro _)
    | (lift_lets) | (dsimp only))

theorem State.writeCheck_keeps {pq : State} (s : State) (hk : Keeps pq s) :
    Keeps pq (State.writeCheck s) := by
  unfold State.writeCheck
  repeat' (first
    | with_reducible assumption | (with_reducible apply State.winWrite_keeps)
    | (with_reducible apply State.window_keeps) | (intro _ (_ : Keeps _ _)) | (intro _ _ (_ : Keeps _ _)) | (intro _)
    | (lift_lets) | (dsimp only))

theorem State.writeBoth_keeps {pq : State} (s : State) (hk : Keeps pq s) :
    Keeps pq (State.writeBoth s) := by
  unfold State.writeBoth
  repeat' (first
    | with_reducible assumption | (with_reducible apply State.winWrite_keeps)
    | (with_reducible apply State.window_keeps) | (intro _ (_ : Keeps _ _)) | (intro _ _ (_ : Keeps _ _)) | (intro _)
    | (lift_lets) | (dsimp only))

theorem execReadRaw_keeps {pq : State} (s : State) (hk : Keeps pq s) :
    KeepsR pq (execReadRaw s) := by
  unfold execReadRaw
  repeat' (first
    | with_reducible assumption | (with_reducible apply keepsR_next) | (with_reducible apply State.pfWrite_keeps)
    | (with_reducible apply State.readRaw_keeps) | (dsimp only))

theorem execWriteData_keeps {pq : State} (s : State) (hk : Keeps pq s) :
    KeepsR pq (execWriteData s) := by
  unfold execWriteData
  repeat' (first
    | with_reducible assumption | (with_reducible apply keepsR_next) | (with_reducible apply State.pfWrite_keeps)
    | (with_reducible apply State.writeData_keeps) | (dsimp only))

theorem execWriteCheck_keeps {pq : State} (s : State) (hk : Keeps pq s) :
    KeepsR pq (execWriteCheck s) := by
  unfold execWriteCheck
  repeat' (first
    | with_reducible assumption | (with_reducible apply keepsR_next) | (with_reducible apply State.pfWrite_keeps)
    | (with_reducible apply State.writeCheck_keeps) | (dsimp only))

theorem execWriteBoth_keeps {pq : State} (s : State) (hk : Keeps pq s) :
    KeepsR pq (execWriteBoth s) := by
  unfold execWriteBoth
  repeat' (first
    | with_reducible assumption | (with_reducible apply keepsR_next) | (with_reducible apply State.pfWrite_keeps)
    | (with_reducible apply State.writeBoth_keeps) | (dsimp only))

theorem State.stopWork_keeps {pq : State} (s : State) (hk : Keeps pq s) :
    Keeps pq (State.stopWork s) := by
  unfold State.stopWork
  repeat' (first
    | with_reducible assumption | (intro _ (_ : Keeps _ _)) | (intro _ _ (_ : Keeps _ _)) | (intro _) | (lift_lets)
    | (dsimp only) | (simp only [keeps_mk]) | (dsimp +zetaDelta only))

theorem State.enterSafe_keeps {pq : State} (s : State) (cause : Nat) (hk : Keeps pq s) :
    Keeps pq (State.enterSafe s cause) := by
  unfold State.enterSafe
  repeat' (first
    | with_reducible assumption | (with_reducible apply State.disablePorts_keeps)
    | (with_reducible apply State.log_keeps) | (with_reducible apply State.msix_keeps)
    | (with_reducible apply State.stopWork_keeps) | (intro w; refine @keeps_cut pq _ w ?_ ?_; unfold w) | (intro _)
    | (lift_lets) | (dsimp only) | (simp only [keeps_mk]) | (dsimp +zetaDelta only))

theorem execSafeEntry_keeps {pq : State} (s : State) (hk : Keeps pq s) :
    KeepsR pq (execSafeEntry s) := by
  unfold execSafeEntry
  repeat' (first
    | with_reducible assumption | (with_reducible apply keeps_foldl) | (with_reducible apply keepsR_next)
    | (with_reducible apply State.enterSafe_keeps) | (with_reducible apply keeps_ite) | split | (dsimp only))

theorem execGlbSafeEnter_keeps {pq : State} (s : State) (hk : Keeps pq s) :
    KeepsR pq (execGlbSafeEnter s) := by
  unfold execGlbSafeEnter
  repeat' (first
    | with_reducible assumption | (with_reducible apply keepsR_next) | (with_reducible apply State.atBoundary_keeps)
    | (with_reducible apply State.pfWrite_keeps) | (intro _ (_ : Keeps _ _)) | (intro _ _ (_ : Keeps _ _)) | (intro _)
    | (lift_lets) | (dsimp only))

theorem execGovWatchdogExpiry_keeps {pq : State} (s : State) (hk : Keeps pq s) :
    KeepsR pq (execGovWatchdogExpiry s) := by
  unfold execGovWatchdogExpiry
  repeat' (first
    | with_reducible assumption | (with_reducible apply keepsR_next) | (with_reducible apply State.atBoundary_keeps)
    | (with_reducible apply State.whenServing_keeps) | (intro _ (_ : Keeps _ _)) | (intro _ _ (_ : Keeps _ _))
    | (intro _) | (lift_lets) | (with_reducible apply keeps_ite) | split | (dsimp only))

end Sys2Proof.Machine
end

