-- ==== Sys2Proof/Laws/KeepsBanks.lean ====
section
/-!
SUPPORT. The operations of Machine/Banks.lean keep memory canonical and the queue as it is.
-/

namespace Sys2Proof.Machine

theorem State.serveHeld_keeps {pq : State} (s : State) (k : Nat) (hk : Keeps pq s) :
    Keeps pq (State.serveHeld s k) := by
  unfold State.serveHeld
  repeat' (first
    | with_reducible assumption | (with_reducible apply State.serveAll_keeps)
    | (with_reducible apply State.serveLoop_keeps) | (with_reducible apply keeps_ite) | split | (dsimp only))

theorem State.serveAccess_keeps {pq : State} (s : State) (l : Loc) (w : BankAcc) (hk : Keeps pq s) :
    Keeps pq (State.serveAccess s l w) := by
  unfold State.serveAccess
  repeat' (first
    | with_reducible assumption | (with_reducible apply State.bar4_keeps) | (with_reducible apply State.bar4Go_keeps)
    | (with_reducible apply State.carderRun_keeps) | (with_reducible apply State.channelRead_keeps)
    | (with_reducible apply State.channelWrite_keeps) | (with_reducible apply State.fetchLines_keeps)
    | (with_reducible apply State.land_keeps) | (with_reducible apply State.landPieces_keeps)
    | (with_reducible apply State.mergeOutput_keeps) | (with_reducible apply State.ownWrite_keeps)
    | (with_reducible apply State.putLines_keeps) | (with_reducible apply State.refreshBank_keeps)
    | (with_reducible apply State.serveHeld_keeps) | (with_reducible apply State.threadDo_keeps)
    | (with_reducible apply State.tqLineFetch_keeps) | (with_reducible apply State.winderAccess_keeps)
    | (intro _ (_ : Keeps _ _)) | (intro _ _ (_ : Keeps _ _)) | (intro _) | (lift_lets)
    | (with_reducible apply keeps_ite) | split | (dsimp only))

theorem State.serveBank_keeps {pq : State} (s : State) (l : Loc) (y0 : Nat) (hk : Keeps pq s) :
    Keeps pq (State.serveBank s l y0) := by
  induction y0 generalizing s with
  | zero =>
    unfold State.serveBank
    repeat' (first
      | with_reducible assumption | (with_reducible apply State.serveAccess_keeps)
      | (with_reducible apply State.setBankSt_keeps) | (intro w; refine @keeps_cut pq _ w ?_ ?_; unfold w) | (intro _)
      | (lift_lets) | (with_reducible apply keeps_ite) | split | (dsimp only) | (dsimp +zetaDelta only))
  | succ n ih =>
    unfold State.serveBank
    repeat' (first
      | with_reducible assumption | (with_reducible apply State.serveAccess_keeps)
      | (with_reducible apply State.setBankSt_keeps) | (with_reducible apply ih)
      | (intro w; refine @keeps_cut pq _ w ?_ ?_; unfold w) | (intro _) | (lift_lets) | (with_reducible apply keeps_ite)
      | split | (dsimp only) | (dsimp +zetaDelta only))


theorem State.serveWaiting_keeps {pq : State} (s : State) (l : Loc) (hk : Keeps pq s) :
    Keeps pq (State.serveWaiting s l) := by
  unfold State.serveWaiting
  repeat' (first
    | with_reducible assumption | (with_reducible apply State.serveBank_keeps) | (dsimp only))

theorem State.ringBell_keeps {pq : State} (s : State) (cmd : Instr) (hk : Keeps pq s) :
    Keeps pq (State.ringBell s cmd) := by
  unfold State.ringBell
  repeat' (first
    | with_reducible assumption | (with_reducible apply State.dbCq_keeps) | (with_reducible apply State.dbEq_keeps)
    | (with_reducible apply State.dbSq_keeps) | (with_reducible apply State.dbTally_keeps)
    | (with_reducible apply State.rung_keeps) | (with_reducible apply State.tqDoorbell_keeps)
    | (intro _ (_ : Keeps _ _)) | (intro _ _ (_ : Keeps _ _)) | (intro _) | (lift_lets) | split | (dsimp only))

theorem State.ringBells_keeps {pq : State} (s : State) (c : Nat) (y0 : Nat) (hk : Keeps pq s) :
    Keeps pq (State.ringBells s c y0) := by
  induction y0 generalizing s with
  | zero =>
    unfold State.ringBells
    repeat' (first
      | with_reducible assumption | (with_reducible apply State.modCtx_keeps)
      | (with_reducible apply State.ringBell_keeps) | (intro _ (_ : Keeps _ _)) | (intro _ _ (_ : Keeps _ _)) | (intro _)
      | (lift_lets) | (with_reducible apply keeps_ite) | split | (dsimp only) | (simp only [keeps_mk])
      | (dsimp +zetaDelta only))
  | succ n ih =>
    unfold State.ringBells
    repeat' (first
      | with_reducible assumption | (with_reducible apply State.modCtx_keeps)
      | (with_reducible apply State.ringBell_keeps) | (with_reducible apply ih) | (intro _ (_ : Keeps _ _))
      | (intro _ _ (_ : Keeps _ _)) | (intro _) | (lift_lets) | (with_reducible apply keeps_ite) | split | (dsimp only)
      | (simp only [keeps_mk]) | (dsimp +zetaDelta only))


theorem State.ringAll_keeps {pq : State} (s : State) (hk : Keeps pq s) :
    Keeps pq (State.ringAll s) := by
  unfold State.ringAll
  repeat' (first
    | with_reducible assumption | (with_reducible apply keeps_foldl) | (with_reducible apply State.ringBells_keeps)
    | (intro _ (_ : Keeps _ _)) | (intro _ _ (_ : Keeps _ _)) | (intro _) | (lift_lets) | (dsimp only))

theorem execBusyBankServe_keeps {pq : State} (k : Stack) (d : Die) (b : Bank) (g : SclkInTick) (s : State) (hk : Keeps pq s) :
    KeepsR pq (execBusyBankServe k d b g s) := by
  unfold execBusyBankServe
  repeat' (first
    | with_reducible assumption | (with_reducible apply keepsR_next) | (with_reducible apply State.reachSclk_keeps)
    | (with_reducible apply State.ringAll_keeps) | (with_reducible apply State.serveWaiting_keeps)
    | (with_reducible apply keeps_ite) | split | (dsimp only))

theorem State.stepAbort_keeps {pq : State} (s : State) (l : Loc) (hk : Keeps pq s) :
    Keeps pq (State.stepAbort s l) := by
  unfold State.stepAbort
  repeat' (first
    | with_reducible assumption | (with_reducible apply State.abortStep_keeps)
    | (with_reducible apply State.serveWaiting_keeps) | (intro w; refine @keeps_cut pq _ w ?_ ?_; unfold w) | (intro _)
    | (lift_lets) | split | (dsimp only) | (dsimp +zetaDelta only))

theorem execStepAbort_keeps {pq : State} (k : Stack) (d : Die) (b : Bank) (g : SclkInTick) (s : State) (hk : Keeps pq s) :
    KeepsR pq (execStepAbort k d b g s) := by
  unfold execStepAbort
  repeat' (first
    | with_reducible assumption | (with_reducible apply keepsR_next) | (with_reducible apply State.reachSclk_keeps)
    | (with_reducible apply State.ringAll_keeps) | (with_reducible apply State.stepAbort_keeps)
    | (with_reducible apply keeps_ite) | split | (dsimp only))

theorem State.serveThread_keeps {pq : State} (s : State) (k : Nat) (w : ThreadWait) (hk : Keeps pq s) :
    Keeps pq (State.serveThread s k w) := by
  unfold State.serveThread
  repeat' (first
    | with_reducible assumption | (with_reducible apply State.serveHeld_keeps)
    | (with_reducible apply State.threadDo_keeps) | (with_reducible apply State.threadTurn_keeps)
    | (with_reducible apply State.winderAccess_keeps) | (with_reducible apply keeps_ite) | split | (dsimp only)
    | (refine keeps_pair (by assumption) ?_) | (refine keeps_triple (by assumption) ?_))

theorem State.serveThreads_keeps {pq : State} (s : State) (k : Nat) (y0 : Nat) (hk : Keeps pq s) :
    Keeps pq (State.serveThreads s k y0) := by
  induction y0 generalizing s with
  | zero =>
    unfold State.serveThreads
    repeat' (first
      | with_reducible assumption | (with_reducible apply State.serveThread_keeps)
      | (with_reducible apply State.setThread_keeps) | (intro w; refine @keeps_cut pq _ w ?_ ?_; unfold w) | (intro _)
      | (lift_lets) | (with_reducible apply keeps_ite) | split | (dsimp only) | (simp only [keeps_mk])
      | (dsimp +zetaDelta only))
  | succ n ih =>
    unfold State.serveThreads
    repeat' (first
      | with_reducible assumption | (with_reducible apply State.serveThread_keeps)
      | (with_reducible apply State.setThread_keeps) | (with_reducible apply ih)
      | (intro w; refine @keeps_cut pq _ w ?_ ?_; unfold w) | (intro _) | (lift_lets) | (with_reducible apply keeps_ite)
      | split | (dsimp only) | (simp only [keeps_mk]) | (dsimp +zetaDelta only))


theorem execThreadWindowWait_keeps {pq : State} (k : Stack) (s : State) (hk : Keeps pq s) :
    KeepsR pq (execThreadWindowWait k s) := by
  unfold execThreadWindowWait
  repeat' (first
    | with_reducible assumption | (with_reducible apply keepsR_next) | (with_reducible apply State.serveThreads_keeps)
    | (with_reducible apply keeps_ite) | split | (dsimp only))

end Sys2Proof.Machine
end

