-- ==== Sys2Proof/Laws/KeepsTrust.lean ====
section
/-!
SUPPORT. The operations of Machine/Trust.lean keep memory canonical and the queue as it is.
-/

namespace Sys2Proof.Machine

theorem State.bootVerify_keeps {pq : State} (s : State) (env : BootEnv) (hk : Keeps pq s) :
    Keeps pq (State.bootVerify s env).2 := by
  unfold State.bootVerify
  repeat' (first
    | with_reducible assumption | (with_reducible apply State.setReg_keeps) | (intro _ (_ : Keeps _ _))
    | (intro _ _ (_ : Keeps _ _)) | (intro w; refine @keeps_cut pq _ w ?_ ?_; unfold w) | (intro _) | (lift_lets)
    | (with_reducible apply keeps_ite) | split | (dsimp only) | (simp only [keeps_mk]) | (dsimp +zetaDelta only))

theorem State.askStage_keeps {pq : State} (s : State) (hk : Keeps pq s) :
    Keeps pq (State.askStage s) := by
  unfold State.askStage
  repeat' (first
    | with_reducible assumption | (with_reducible apply State.logInvalid_keeps)
    | (with_reducible apply State.setTrust_keeps) | (intro _) | (lift_lets) | (with_reducible apply keeps_ite) | split
    | (dsimp only) | (simp only [keeps_mk]) | (dsimp +zetaDelta only))

theorem State.stageImage_keeps {pq : State} (s : State) (x : FlashSlot) (hk : Keeps pq s) :
    Keeps pq (State.stageImage s x) := by
  unfold State.stageImage
  repeat' (first
    | with_reducible assumption | (with_reducible apply State.failUpdate_keeps)
    | (with_reducible apply State.setTrust_keeps) | (intro _) | (lift_lets) | (with_reducible apply keeps_ite) | split
    | (dsimp only) | (simp only [keeps_mk]) | (dsimp +zetaDelta only))

theorem State.stage_keeps {pq : State} (s : State) (host : HostRead) (sigOk hashOk : Bool) (hk : Keeps pq s) :
    Keeps pq (State.stage s host sigOk hashOk) := by
  unfold State.stage
  repeat' (first
    | with_reducible assumption | (with_reducible apply State.askStage_keeps)
    | (with_reducible apply State.failUpdate_keeps) | (with_reducible apply State.hostRead_keeps)
    | (with_reducible apply State.stageImage_keeps) | (intro w; refine @keeps_cut pq _ w ?_ ?_; unfold w) | (intro _)
    | (lift_lets) | (with_reducible apply keeps_ite) | split | (dsimp only) | (dsimp +zetaDelta only))

theorem execStage_keeps {pq : State} (host : HostRead) (sigOk hashOk : Bool) (s : State) (hk : Keeps pq s) :
    KeepsR pq (execStage host sigOk hashOk s) := by
  unfold execStage
  repeat' (first
    | with_reducible assumption | (with_reducible apply keepsR_next) | (with_reducible apply State.stage_keeps)
    | (dsimp only))

theorem execAbort_keeps {pq : State} (s : State) (hk : Keeps pq s) :
    KeepsR pq (execAbort s) := by
  unfold execAbort
  repeat' (first
    | with_reducible assumption | (with_reducible apply keepsR_next) | (with_reducible apply State.dropUpdate_keeps)
    | (with_reducible apply keeps_ite) | split | (dsimp only))

theorem execFwupDone_keeps {pq : State} (flashOk : Bool) (s : State) (hk : Keeps pq s) :
    KeepsR pq (execFwupDone flashOk s) := by
  unfold execFwupDone
  repeat' (first
    | with_reducible assumption | (with_reducible apply keepsR_next) | (with_reducible apply State.failUpdate_keeps)
    | (with_reducible apply State.setTrust_keeps) | (intro _) | (lift_lets) | (with_reducible apply keeps_ite) | split
    | (dsimp only) | (simp only [keeps_mk]) | (dsimp +zetaDelta only))

theorem State.setConn_keeps {pq : State} (s : State) (r : SpdmReq) (n : Nat) (hk : Keeps pq s) :
    Keeps pq (State.setConn s r n) := by
  unfold State.setConn
  repeat' (first
    | with_reducible assumption | (with_reducible apply State.setTrust_keeps) | (intro _) | (lift_lets) | (dsimp only)
    | (simp only [keeps_mk]) | (dsimp +zetaDelta only))

theorem State.answer_keeps {pq : State} (s : State) (x : SpdmReply) (hk : Keeps pq s) :
    Keeps pq (State.answer s x) := by
  unfold State.answer
  repeat' (first
    | with_reducible assumption | (intro _) | (lift_lets) | (dsimp only) | (simp only [keeps_mk])
    | (dsimp +zetaDelta only))

theorem State.spdmError_keeps {pq : State} (s : State) (e : SpdmError) (hk : Keeps pq s) :
    Keeps pq (State.spdmError s e) := by
  unfold State.spdmError
  repeat' (first
    | with_reducible assumption | (with_reducible apply State.answer_keeps) | (dsimp only))

theorem State.sendAnswer_keeps {pq : State} (s : State) (r : SpdmReq) (rekey : List LinkDir) (hk : Keeps pq s) :
    Keeps pq (State.sendAnswer s r rekey) := by
  unfold State.sendAnswer
  repeat' (first
    | with_reducible assumption | (with_reducible apply State.queueSpdm_keeps) | (intro _ (_ : Keeps _ _))
    | (intro _ _ (_ : Keeps _ _)) | (intro _) | (lift_lets) | split | (dsimp only))

theorem State.spdmFor_keeps {pq : State} (s : State) (r : SpdmReq) (need : Nat) (ident : Bool) (rekey : List LinkDir) (f : State → State) (hk : Keeps pq s) (hf : ∀ x0, Keeps pq x0 → Keeps pq (f x0)) :
    Keeps pq (State.spdmFor s r need ident rekey f) := by
  unfold State.spdmFor
  repeat' (first
    | with_reducible assumption | (with_reducible apply hf) | (with_reducible apply State.sendAnswer_keeps)
    | (with_reducible apply State.spdmError_keeps) | (with_reducible apply keeps_ite) | split | (dsimp only))

theorem State.spdm_keeps {pq : State} (s : State) (r : SpdmReq) (need : Nat) (f : State → State) (hk : Keeps pq s) (hf : ∀ x0, Keeps pq x0 → Keeps pq (f x0)) :
    Keeps pq (State.spdm s r need f) := by
  unfold State.spdm
  repeat' (first
    | with_reducible assumption | (with_reducible apply hf) | (with_reducible apply State.spdmFor_keeps) | (dsimp only))

theorem State.spdmIdent_keeps {pq : State} (s : State) (r : SpdmReq) (f : State → State) (hk : Keeps pq s) (hf : ∀ x0, Keeps pq x0 → Keeps pq (f x0)) :
    Keeps pq (State.spdmIdent s r f) := by
  unfold State.spdmIdent
  repeat' (first
    | with_reducible assumption | (with_reducible apply hf) | (with_reducible apply State.spdmFor_keeps) | (dsimp only))

theorem State.sign_keeps {pq : State} (s : State) (msg : List Byte) (hk : Keeps pq s) :
    Keeps pq (State.sign s msg).2 := by
  unfold State.sign
  repeat' (first
    | with_reducible assumption | (with_reducible apply State.setTrust_keeps) | (intro _) | (lift_lets) | (dsimp only)
    | (simp only [keeps_mk]) | (dsimp +zetaDelta only))

theorem State.random_keeps {pq : State} (s : State) (hk : Keeps pq s) :
    Keeps pq (State.random s).2 := by
  unfold State.random
  repeat' (first
    | with_reducible assumption | (with_reducible apply State.setTrust_keeps) | (intro _) | (lift_lets) | (dsimp only)
    | (simp only [keeps_mk]) | (dsimp +zetaDelta only))

theorem execGetVersion_keeps {pq : State} (r : SpdmReq) (s : State) (hk : Keeps pq s) :
    KeepsR pq (execGetVersion r s) := by
  unfold execGetVersion
  repeat' (first
    | with_reducible assumption | (with_reducible apply keepsR_next) | (with_reducible apply State.answer_keeps)
    | (with_reducible apply State.setConn_keeps) | (with_reducible apply State.spdm_keeps) | (intro _ (_ : Keeps _ _))
    | (intro _ _ (_ : Keeps _ _)) | (intro _) | (lift_lets) | (dsimp only))

theorem execGetCapabilities_keeps {pq : State} (r : SpdmReq) (s : State) (hk : Keeps pq s) :
    KeepsR pq (execGetCapabilities r s) := by
  unfold execGetCapabilities
  repeat' (first
    | with_reducible assumption | (with_reducible apply keepsR_next) | (with_reducible apply State.answer_keeps)
    | (with_reducible apply State.setConn_keeps) | (with_reducible apply State.spdm_keeps) | (intro _ (_ : Keeps _ _))
    | (intro _ _ (_ : Keeps _ _)) | (intro _) | (lift_lets) | (dsimp only))

theorem execNegotiateAlgorithms_keeps {pq : State} (r : SpdmReq) (s : State) (hk : Keeps pq s) :
    KeepsR pq (execNegotiateAlgorithms r s) := by
  unfold execNegotiateAlgorithms
  repeat' (first
    | with_reducible assumption | (with_reducible apply keepsR_next) | (with_reducible apply State.answer_keeps)
    | (with_reducible apply State.setConn_keeps) | (with_reducible apply State.spdm_keeps)
    | (with_reducible apply State.spdmError_keeps) | (intro _ (_ : Keeps _ _)) | (intro _ _ (_ : Keeps _ _))
    | (intro _) | (lift_lets) | (with_reducible apply keeps_ite) | split | (dsimp only))

theorem execGetDigests_keeps {pq : State} (r : SpdmReq) (s : State) (hk : Keeps pq s) :
    KeepsR pq (execGetDigests r s) := by
  unfold execGetDigests
  repeat' (first
    | with_reducible assumption | (with_reducible apply keepsR_next) | (with_reducible apply State.answer_keeps)
    | (with_reducible apply State.spdm_keeps) | (intro _ (_ : Keeps _ _)) | (intro _ _ (_ : Keeps _ _)) | (intro _)
    | (lift_lets) | (dsimp only))

theorem execGetCertificate_keeps {pq : State} (r : SpdmReq) (s : State) (hk : Keeps pq s) :
    KeepsR pq (execGetCertificate r s) := by
  unfold execGetCertificate
  repeat' (first
    | with_reducible assumption | (with_reducible apply keepsR_next) | (with_reducible apply State.answer_keeps)
    | (with_reducible apply State.spdm_keeps) | (with_reducible apply State.spdmError_keeps)
    | (intro _ (_ : Keeps _ _)) | (intro _ _ (_ : Keeps _ _)) | (intro w; refine @keeps_cut pq _ w ?_ ?_; unfold w)
    | (intro _) | (lift_lets) | (with_reducible apply keeps_ite) | split | (dsimp only) | (dsimp +zetaDelta only))

theorem execChallenge_keeps {pq : State} (r : SpdmReq) (s : State) (hk : Keeps pq s) :
    KeepsR pq (execChallenge r s) := by
  unfold execChallenge
  repeat' (first
    | with_reducible assumption | (with_reducible apply keepsR_next) | (with_reducible apply State.answer_keeps)
    | (with_reducible apply State.random_keeps) | (with_reducible apply State.sign_keeps)
    | (with_reducible apply State.spdmError_keeps) | (with_reducible apply State.spdmIdent_keeps)
    | (intro _ (_ : Keeps _ _)) | (intro _ _ (_ : Keeps _ _)) | (intro w; refine @keeps_cut pq _ w ?_ ?_; unfold w)
    | (intro _) | (lift_lets) | (with_reducible apply keeps_ite) | split | (dsimp only) | (dsimp +zetaDelta only)
    | (refine keeps_pair (by assumption) ?_) | (refine keeps_triple (by assumption) ?_))

theorem execGetMeasurements_keeps {pq : State} (r : SpdmReq) (s : State) (hk : Keeps pq s) :
    KeepsR pq (execGetMeasurements r s) := by
  unfold execGetMeasurements
  repeat' (first
    | with_reducible assumption | (with_reducible apply keepsR_next) | (with_reducible apply State.answer_keeps)
    | (with_reducible apply State.random_keeps) | (with_reducible apply State.sign_keeps)
    | (with_reducible apply State.spdmError_keeps) | (with_reducible apply State.spdmFor_keeps)
    | (intro _ (_ : Keeps _ _)) | (intro _ _ (_ : Keeps _ _)) | (intro w; refine @keeps_cut pq _ w ?_ ?_; unfold w)
    | (intro _) | (lift_lets) | (with_reducible apply keeps_ite) | split | (dsimp only) | (dsimp +zetaDelta only)
    | (refine keeps_pair (by assumption) ?_) | (refine keeps_triple (by assumption) ?_))

theorem State.openSession_keeps {pq : State} (s : State) (r : SpdmReq) (hk : Keeps pq s) :
    Keeps pq (State.openSession s r) := by
  unfold State.openSession
  repeat' (first
    | with_reducible assumption | (with_reducible apply State.answer_keeps) | (with_reducible apply State.random_keeps)
    | (with_reducible apply State.setTrust_keeps) | (with_reducible apply State.sign_keeps)
    | (intro w; refine @keeps_cut pq _ w ?_ ?_; unfold w) | (intro _) | (lift_lets) | (dsimp only)
    | (simp only [keeps_mk]) | (dsimp +zetaDelta only) | (refine keeps_pair (by assumption) ?_)
    | (refine keeps_triple (by assumption) ?_))

theorem execKeyExchange_keeps {pq : State} (r : SpdmReq) (s : State) (hk : Keeps pq s) :
    KeepsR pq (execKeyExchange r s) := by
  unfold execKeyExchange
  repeat' (first
    | with_reducible assumption | (with_reducible apply keepsR_next) | (with_reducible apply State.openSession_keeps)
    | (with_reducible apply State.spdmError_keeps) | (with_reducible apply State.spdmIdent_keeps)
    | (intro _ (_ : Keeps _ _)) | (intro _ _ (_ : Keeps _ _)) | (intro _) | (lift_lets)
    | (with_reducible apply keeps_ite) | split | (dsimp only))

theorem State.endSession_keeps {pq : State} (s : State) (id : BitVec 32) (hk : Keeps pq s) :
    Keeps pq (State.endSession s id) := by
  unfold State.endSession
  repeat' (first
    | with_reducible assumption | (with_reducible apply State.setTrust_keeps) | (intro _ (_ : Keeps _ _))
    | (intro _ _ (_ : Keeps _ _)) | (intro _) | (lift_lets) | (dsimp only) | (simp only [keeps_mk])
    | (dsimp +zetaDelta only))

theorem State.modSession_keeps {pq : State} (s : State) (id : BitVec 32) (f : SpdmSession → SpdmSession) (hk : Keeps pq s) :
    Keeps pq (State.modSession s id f) := by
  unfold State.modSession
  repeat' (first
    | with_reducible assumption | (with_reducible apply State.setTrust_keeps) | (intro _ (_ : Keeps _ _))
    | (intro _ _ (_ : Keeps _ _)) | (intro _) | (lift_lets) | (with_reducible apply keeps_ite) | split | (dsimp only)
    | (simp only [keeps_mk]) | (dsimp +zetaDelta only))

theorem execFinish_keeps {pq : State} (r : SpdmReq) (s : State) (hk : Keeps pq s) :
    KeepsR pq (execFinish r s) := by
  unfold execFinish
  repeat' (first
    | with_reducible assumption | (with_reducible apply keepsR_next) | (with_reducible apply State.answer_keeps)
    | (with_reducible apply State.endSession_keeps) | (with_reducible apply State.modSession_keeps)
    | (with_reducible apply State.spdmError_keeps) | (with_reducible apply State.spdmIdent_keeps)
    | (intro _ (_ : Keeps _ _)) | (intro _ _ (_ : Keeps _ _)) | (intro _) | (lift_lets)
    | (with_reducible apply keeps_ite) | split | (dsimp only) | (simp only [keeps_mk]) | (dsimp +zetaDelta only))

theorem State.inSession_keeps {pq : State} (s : State) (r : SpdmReq) (f : State → SpdmSession → State) (hk : Keeps pq s) (hf : ∀ x0 x1, Keeps pq x0 → Keeps pq (f x0 x1)) :
    Keeps pq (State.inSession s r f) := by
  unfold State.inSession
  repeat' (first
    | with_reducible assumption | (with_reducible apply hf) | (with_reducible apply State.spdmError_keeps)
    | (with_reducible apply keeps_ite) | split | (dsimp only))

theorem execHeartbeat_keeps {pq : State} (r : SpdmReq) (s : State) (hk : Keeps pq s) :
    KeepsR pq (execHeartbeat r s) := by
  unfold execHeartbeat
  repeat' (first
    | with_reducible assumption | (with_reducible apply keepsR_next) | (with_reducible apply State.answer_keeps)
    | (with_reducible apply State.inSession_keeps) | (with_reducible apply State.spdmIdent_keeps)
    | (intro _ (_ : Keeps _ _)) | (intro _ _ (_ : Keeps _ _)) | (intro _) | (lift_lets) | (dsimp only))

theorem execKeyUpdate_keeps {pq : State} (r : SpdmReq) (s : State) (hk : Keeps pq s) :
    KeepsR pq (execKeyUpdate r s) := by
  unfold execKeyUpdate
  repeat' (first
    | with_reducible assumption | (with_reducible apply keepsR_next) | (with_reducible apply State.answer_keeps)
    | (with_reducible apply State.inSession_keeps) | (with_reducible apply State.modSession_keeps)
    | (with_reducible apply State.spdmFor_keeps) | (intro _ (_ : Keeps _ _)) | (intro _ _ (_ : Keeps _ _)) | (intro _)
    | (lift_lets) | (dsimp only) | (simp only [keeps_mk]) | (dsimp +zetaDelta only))

theorem execEndSession_keeps {pq : State} (r : SpdmReq) (s : State) (hk : Keeps pq s) :
    KeepsR pq (execEndSession r s) := by
  unfold execEndSession
  repeat' (first
    | with_reducible assumption | (with_reducible apply keepsR_next) | (with_reducible apply State.answer_keeps)
    | (with_reducible apply State.endSession_keeps) | (with_reducible apply State.inSession_keeps)
    | (with_reducible apply State.spdmIdent_keeps) | (intro _ (_ : Keeps _ _)) | (intro _ _ (_ : Keeps _ _))
    | (intro _) | (lift_lets) | (dsimp only))

theorem State.ideKey_keeps {pq : State} (s : State) (stream : Nat) (at_ : IdeKeySlot) (key : BitVec 256) (hk : Keeps pq s) :
    Keeps pq (State.ideKey s stream at_ key) := by
  unfold State.ideKey
  repeat' (first
    | with_reducible assumption | (intro w; refine @keeps_cut pq _ w ?_ ?_; unfold w) | (intro _) | (lift_lets)
    | (dsimp only) | (simp only [keeps_mk]) | (dsimp +zetaDelta only))

theorem execIdeKm_keeps {pq : State} (x : Ctx) (session : Option (BitVec 32)) (stream : Fin 9) (keySet : IdeKeySlot) (key : BitVec 256) (s : State) (hk : Keeps pq s) :
    KeepsR pq (execIdeKm x session stream keySet key s) := by
  unfold execIdeKm
  repeat' (first
    | with_reducible assumption | (with_reducible apply keepsR_next) | (with_reducible apply State.ideKey_keeps)
    | (with_reducible apply State.spdmError_keeps) | (intro _ (_ : Keeps _ _)) | (intro _ _ (_ : Keeps _ _))
    | (intro w; refine @keeps_cut pq _ w ?_ ?_; unfold w) | (intro _) | (lift_lets) | (with_reducible apply keeps_ite)
    | split | (dsimp only) | (simp only [keeps_mk]) | (dsimp +zetaDelta only))

theorem State.ideInsecure_keeps {pq : State} (s : State) (stream : Nat) (hk : Keeps pq s) :
    Keeps pq (State.ideInsecure s stream) := by
  unfold State.ideInsecure
  repeat' (first
    | with_reducible assumption | (with_reducible apply State.setTrust_keeps) | (intro _) | (lift_lets) | (dsimp only)
    | (simp only [keeps_mk]) | (dsimp +zetaDelta only))

theorem execIdeIntegrityFail_keeps {pq : State} (stream : Fin 9) (s : State) (hk : Keeps pq s) :
    KeepsR pq (execIdeIntegrityFail stream s) := by
  unfold execIdeIntegrityFail
  repeat' (first
    | with_reducible assumption | (with_reducible apply keepsR_next) | (with_reducible apply State.ideInsecure_keeps)
    | (with_reducible apply keeps_ite) | split | (dsimp only))

theorem State.tapIr_keeps {pq : State} (s : State) (ir : TapIr) (held : Bool) (out : BitVec 512) (hk : Keeps pq s) :
    Keeps pq (State.tapIr s ir held out) := by
  unfold State.tapIr
  repeat' (first
    | with_reducible assumption | (intro _) | (lift_lets) | (with_reducible apply keeps_ite) | split | (dsimp only)
    | (simp only [keeps_mk]) | (dsimp +zetaDelta only))

theorem execBypass_keeps {pq : State} (s : State) (hk : Keeps pq s) :
    KeepsR pq (execBypass s) := by
  unfold execBypass
  repeat' (first
    | with_reducible assumption | (with_reducible apply keepsR_next) | (with_reducible apply State.tapIr_keeps)
    | (dsimp only))

theorem execIdcode_keeps {pq : State} (s : State) (hk : Keeps pq s) :
    KeepsR pq (execIdcode s) := by
  unfold execIdcode
  repeat' (first
    | with_reducible assumption | (with_reducible apply keepsR_next) | (with_reducible apply State.tapIr_keeps)
    | (dsimp only))

theorem execSamplePreload_keeps {pq : State} (pins : BitVec 64) (s : State) (hk : Keeps pq s) :
    KeepsR pq (execSamplePreload pins s) := by
  unfold execSamplePreload
  repeat' (first
    | with_reducible assumption | (with_reducible apply keepsR_next) | (with_reducible apply State.tapIr_keeps)
    | (intro _) | (lift_lets) | (with_reducible apply keeps_ite) | split | (dsimp only) | (simp only [keeps_mk])
    | (dsimp +zetaDelta only))

theorem execExtest_keeps {pq : State} (s : State) (hk : Keeps pq s) :
    KeepsR pq (execExtest s) := by
  unfold execExtest
  repeat' (first
    | with_reducible assumption | (with_reducible apply keepsR_next) | (with_reducible apply State.tapIr_keeps)
    | (dsimp only))

theorem execClamp_keeps {pq : State} (s : State) (hk : Keeps pq s) :
    KeepsR pq (execClamp s) := by
  unfold execClamp
  repeat' (first
    | with_reducible assumption | (with_reducible apply keepsR_next) | (with_reducible apply State.tapIr_keeps)
    | (dsimp only))

theorem execHighz_keeps {pq : State} (s : State) (hk : Keeps pq s) :
    KeepsR pq (execHighz s) := by
  unfold execHighz
  repeat' (first
    | with_reducible assumption | (with_reducible apply keepsR_next) | (with_reducible apply State.tapIr_keeps)
    | (dsimp only))

theorem State.dbgChal_keeps {pq : State} (s : State) (hk : Keeps pq s) :
    Keeps pq (State.dbgChal s) := by
  unfold State.dbgChal
  repeat' (first
    | with_reducible assumption | (with_reducible apply State.random_keeps)
    | (intro w; refine @keeps_cut pq _ w ?_ ?_; unfold w) | (intro _) | (lift_lets) | (with_reducible apply keeps_ite)
    | split | (dsimp only) | (simp only [keeps_mk]) | (dsimp +zetaDelta only) | (refine keeps_pair (by assumption) ?_)
    | (refine keeps_triple (by assumption) ?_))

theorem execDbgChal_keeps {pq : State} (s : State) (hk : Keeps pq s) :
    KeepsR pq (execDbgChal s) := by
  unfold execDbgChal
  repeat' (first
    | with_reducible assumption | (with_reducible apply keepsR_next) | (with_reducible apply State.dbgChal_keeps)
    | (dsimp only))

theorem State.dbgResp_keeps {pq : State} (s : State) (verifies : Bool) (hk : Keeps pq s) :
    Keeps pq (State.dbgResp s verifies) := by
  unfold State.dbgResp
  repeat' (first
    | with_reducible assumption | (with_reducible apply State.atBoundary_keeps) | (intro _ (_ : Keeps _ _))
    | (intro _ _ (_ : Keeps _ _)) | (intro w; refine @keeps_cut pq _ w ?_ ?_; unfold w) | (intro _) | (lift_lets)
    | (with_reducible apply keeps_ite) | split | (dsimp only) | (simp only [keeps_mk]) | (dsimp +zetaDelta only))

theorem execDbgResp_keeps {pq : State} (u1 : List Byte) (u2 : List Byte) (verifies : Bool) (s : State) (hk : Keeps pq s) :
    KeepsR pq (execDbgResp u1 u2 verifies s) := by
  unfold execDbgResp
  repeat' (first
    | with_reducible assumption | (with_reducible apply keepsR_next) | (with_reducible apply State.dbgResp_keeps)
    | (dsimp only))

theorem State.debugUnlock_keeps {pq : State} (s : State) (hk : Keeps pq s) :
    Keeps pq (State.debugUnlock s) := by
  unfold State.debugUnlock
  repeat' (first
    | with_reducible assumption | (with_reducible apply keeps_foldl) | (with_reducible apply State.portDown_keeps)
    | (with_reducible apply State.setFld_keeps) | (with_reducible apply State.setTrust_keeps)
    | (intro _ (_ : Keeps _ _)) | (intro _ _ (_ : Keeps _ _)) | (intro w; refine @keeps_cut pq _ w ?_ ?_; unfold w)
    | (intro _) | (lift_lets) | (with_reducible apply keeps_ite) | split | (dsimp only) | (simp only [keeps_mk])
    | (dsimp +zetaDelta only))

theorem execDebugUnlock_keeps {pq : State} (s : State) (hk : Keeps pq s) :
    KeepsR pq (execDebugUnlock s) := by
  unfold execDebugUnlock
  repeat' (first
    | with_reducible assumption | (with_reducible apply keepsR_next) | (with_reducible apply State.debugUnlock_keeps)
    | (with_reducible apply State.dropBoundary_keeps) | (with_reducible apply keeps_ite) | split | (dsimp only))

theorem execNonceExpiry_keeps {pq : State} (s : State) (hk : Keeps pq s) :
    KeepsR pq (execNonceExpiry s) := by
  unfold execNonceExpiry
  repeat' (first
    | with_reducible assumption | (with_reducible apply keepsR_next) | (with_reducible apply State.setTrust_keeps)
    | (intro _) | (lift_lets) | (with_reducible apply keeps_ite) | split | (dsimp only) | (simp only [keeps_mk])
    | (dsimp +zetaDelta only))

end Sys2Proof.Machine
end

