-- ==== Sys2Proof/Laws/KeepsPower.lean ====
section
/-!
SUPPORT. The operations of Machine/Power.lean keep memory canonical and the queue as it is.
-/

namespace Sys2Proof.Machine

theorem State.holdPads_keeps {pq : State} (s : State) (pins levels : BitVec 9) (hk : Keeps pq s) :
    Keeps pq (State.holdPads s pins levels) := by
  unfold State.holdPads
  repeat' (first
    | with_reducible assumption | (intro w; refine @keeps_cut pq _ w ?_ ?_; unfold w) | (intro _) | (lift_lets)
    | (dsimp only) | (simp only [keeps_mk]) | (dsimp +zetaDelta only))

theorem State.settlePads_keeps {pq : State} (s : State) (hk : Keeps pq s) :
    Keeps pq (State.settlePads s) := by
  unfold State.settlePads
  repeat' (first
    | with_reducible assumption | (intro w; refine @keeps_cut pq _ w ?_ ?_; unfold w) | (intro _) | (lift_lets)
    | (dsimp only) | (simp only [keeps_mk]) | (dsimp +zetaDelta only))

theorem State.parkPauses_keeps {pq : State} (s : State) (hk : Keeps pq s) :
    Keeps pq (State.parkPauses s) := by
  unfold State.parkPauses
  repeat' (first
    | with_reducible assumption | (with_reducible apply keeps_foldl) | (with_reducible apply State.modPort_keeps)
    | (intro _ (_ : Keeps _ _)) | (intro _ _ (_ : Keeps _ _)) | (intro _) | (lift_lets) | (dsimp only)
    | (simp only [keeps_mk]) | (dsimp +zetaDelta only))

theorem State.idleEntry_keeps {pq : State} (s : State) (hk : Keeps pq s) :
    Keeps pq (State.idleEntry s) := by
  unfold State.idleEntry
  repeat' (first
    | with_reducible assumption | (intro w; refine @keeps_cut pq _ w ?_ ?_; unfold w) | (intro _) | (lift_lets)
    | (with_reducible apply keeps_ite) | split | (dsimp only) | (simp only [keeps_mk]) | (dsimp +zetaDelta only))

theorem execIdleEntry_keeps {pq : State} (s : State) (hk : Keeps pq s) :
    KeepsR pq (execIdleEntry s) := by
  unfold execIdleEntry
  repeat' (first
    | with_reducible assumption | (with_reducible apply keepsR_next) | (with_reducible apply State.idleEntry_keeps)
    | (dsimp only))

theorem State.p1Wake_keeps {pq : State} (s : State) (hk : Keeps pq s) :
    Keeps pq (State.p1Wake s) := by
  unfold State.p1Wake
  repeat' (first
    | with_reducible assumption | (intro _ (_ : Keeps _ _)) | (intro _ _ (_ : Keeps _ _)) | (intro _) | (lift_lets)
    | (with_reducible apply keeps_ite) | split | (dsimp only) | (simp only [keeps_mk]) | (dsimp +zetaDelta only))

theorem execP1Wake_keeps {pq : State} (s : State) (hk : Keeps pq s) :
    KeepsR pq (execP1Wake s) := by
  unfold execP1Wake
  repeat' (first
    | with_reducible assumption | (with_reducible apply keepsR_next) | (with_reducible apply State.p1Wake_keeps)
    | (dsimp only))

theorem State.targetRun_keeps {pq : State} (s : State) (hk : Keeps pq s) :
    Keeps pq (State.targetRun s) := by
  unfold State.targetRun
  repeat' (first
    | with_reducible assumption | (with_reducible apply State.cancelDrain_keeps)
    | (with_reducible apply State.setFld_keeps) | (with_reducible apply State.wakeFrom_keeps)
    | (intro w; refine @keeps_cut pq _ w ?_ ?_; unfold w) | (intro _) | (lift_lets) | (with_reducible apply keeps_ite)
    | split | (dsimp only) | (simp only [keeps_mk]) | (dsimp +zetaDelta only))

theorem State.targetLow_keeps {pq : State} (s : State) (t : Nat) (hk : Keeps pq s) :
    Keeps pq (State.targetLow s t) := by
  unfold State.targetLow
  repeat' (first
    | with_reducible assumption | (with_reducible apply State.setFld_keeps)
    | (intro w; refine @keeps_cut pq _ w ?_ ?_; unfold w) | (intro _) | (lift_lets) | (with_reducible apply keeps_ite)
    | split | (dsimp only) | (simp only [keeps_mk]) | (dsimp +zetaDelta only))

theorem execPwrTargetRun_keeps {pq : State} (s : State) (hk : Keeps pq s) :
    KeepsR pq (execPwrTargetRun s) := by
  unfold execPwrTargetRun
  repeat' (first
    | with_reducible assumption | (with_reducible apply keepsR_next) | (with_reducible apply State.pfWrite_keeps)
    | (with_reducible apply State.targetRun_keeps) | (dsimp only))

theorem execPwrTargetBobbin_keeps {pq : State} (s : State) (hk : Keeps pq s) :
    KeepsR pq (execPwrTargetBobbin s) := by
  unfold execPwrTargetBobbin
  repeat' (first
    | with_reducible assumption | (with_reducible apply keepsR_next) | (with_reducible apply State.pfWrite_keeps)
    | (with_reducible apply State.targetLow_keeps) | (intro _ (_ : Keeps _ _)) | (intro _ _ (_ : Keeps _ _))
    | (intro _) | (lift_lets) | (dsimp only))

theorem execPwrTargetStandby_keeps {pq : State} (s : State) (hk : Keeps pq s) :
    KeepsR pq (execPwrTargetStandby s) := by
  unfold execPwrTargetStandby
  repeat' (first
    | with_reducible assumption | (with_reducible apply keepsR_next) | (with_reducible apply State.pfWrite_keeps)
    | (with_reducible apply State.targetLow_keeps) | (intro _ (_ : Keeps _ _)) | (intro _ _ (_ : Keeps _ _))
    | (intro _) | (lift_lets) | (dsimp only))

theorem State.drainEnd_keeps {pq : State} (s : State) (hk : Keeps pq s) :
    Keeps pq (State.drainEnd s) := by
  unfold State.drainEnd
  repeat' (first
    | with_reducible assumption | (with_reducible apply keeps_foldl) | (with_reducible apply keeps_foldl_snd)
    | (with_reducible apply State.disablePorts_keeps) | (with_reducible apply State.loseSkein_keeps)
    | (intro _ (_ : Keeps _ _)) | (intro _ _ (_ : Keeps _ _)) | (intro w; refine @keeps_cut pq _ w ?_ ?_; unfold w)
    | (intro _) | (lift_lets) | (dsimp only) | (simp only [keeps_mk]) | (dsimp +zetaDelta only))

theorem State.loseSram_keeps {pq : State} (s : State) (hk : Keeps pq s) :
    Keeps pq (State.loseSram s) := by
  unfold State.loseSram
  repeat' (first
    | with_reducible assumption | (intro _ (_ : Keeps _ _)) | (intro _ _ (_ : Keeps _ _))
    | (intro w; refine @keeps_cut pq _ w ?_ ?_; unfold w) | (intro _) | (lift_lets) | (with_reducible apply keeps_ite)
    | split | (dsimp only) | (simp only [keeps_mk]) | (simp only [keeps_mkm]) | (dsimp +zetaDelta only))

theorem State.portsOff_keeps {pq : State} (s : State) (hk : Keeps pq s) :
    Keeps pq (State.portsOff s) := by
  unfold State.portsOff
  repeat' (first
    | with_reducible assumption | (with_reducible apply State.holdPads_keeps) | (dsimp only))

theorem State.unstageRegions_keeps {pq : State} (s : State) (keep : Nat → Bool) (hk : Keeps pq s) :
    Keeps pq (State.unstageRegions s keep) := by
  unfold State.unstageRegions
  repeat' (first
    | with_reducible assumption | (intro _ (_ : Keeps _ _)) | (intro _ _ (_ : Keeps _ _)) | (intro _) | (lift_lets)
    | (dsimp only) | (simp only [keeps_mk]) | (simp only [keeps_mkm]) | (dsimp +zetaDelta only))

theorem State.bobbinEntry_keeps {pq : State} (s : State) (hk : Keeps pq s) :
    Keeps pq (State.bobbinEntry s) := by
  unfold State.bobbinEntry
  repeat' (first
    | with_reducible assumption | (with_reducible apply State.cancelDrain_keeps)
    | (with_reducible apply State.drainEnd_keeps) | (with_reducible apply State.loseSram_keeps)
    | (with_reducible apply State.parkPauses_keeps) | (with_reducible apply State.portsOff_keeps)
    | (intro w; refine @keeps_cut pq _ w ?_ ?_; unfold w) | (intro _) | (lift_lets) | (with_reducible apply keeps_ite)
    | split | (dsimp only) | (simp only [keeps_mk]) | (dsimp +zetaDelta only))

theorem execBobbinEntry_keeps {pq : State} (s : State) (hk : Keeps pq s) :
    KeepsR pq (execBobbinEntry s) := by
  unfold execBobbinEntry
  repeat' (first
    | with_reducible assumption | (with_reducible apply keepsR_next) | (with_reducible apply State.bobbinEntry_keeps)
    | (dsimp only))

theorem State.standbyEntry_keeps {pq : State} (s : State) (hk : Keeps pq s) :
    Keeps pq (State.standbyEntry s) := by
  unfold State.standbyEntry
  repeat' (first
    | with_reducible assumption | (with_reducible apply State.cancelDrain_keeps)
    | (with_reducible apply State.drainEnd_keeps) | (with_reducible apply State.holdPads_keeps)
    | (with_reducible apply State.parkPauses_keeps) | (intro w; refine @keeps_cut pq _ w ?_ ?_; unfold w) | (intro _)
    | (lift_lets) | (with_reducible apply keeps_ite) | split | (dsimp only) | (simp only [keeps_mk])
    | (dsimp +zetaDelta only))

theorem execStandbyEntry_keeps {pq : State} (s : State) (hk : Keeps pq s) :
    KeepsR pq (execStandbyEntry s) := by
  unfold execStandbyEntry
  repeat' (first
    | with_reducible assumption | (with_reducible apply keepsR_next) | (with_reducible apply State.standbyEntry_keeps)
    | (dsimp only))

theorem State.zeroRows_keeps {pq : State} (s : State) (keep : Nat → Bool) (hk : Keeps pq s) :
    Keeps pq (State.zeroRows s keep) := by
  unfold State.zeroRows
  exact ⟨⟨sparse_filter_wf hk.mem.1 _, sparse_filter_wf hk.mem.2.1 _, sparse_filter_wf hk.mem.2.2 _⟩, hk.queue, hk.sent, hk.drew⟩


theorem State.answerHeld_keeps {pq : State} (s : State) (q : Instr × Nat) (hk : Keeps pq s) :
    Keeps pq (State.answerHeld s q) := by
  unfold State.answerHeld
  repeat' (first
    | with_reducible assumption | (with_reducible apply keeps_nextOr) | (with_reducible apply State.bar4_keeps)
    | (with_reducible apply State.bar4ReadNow_keeps) | (with_reducible apply State.bar4WriteNow_keeps)
    | (with_reducible apply execCtxDbCq_keeps) | (with_reducible apply execCtxDbEq_keeps)
    | (with_reducible apply execCtxDbSq_keeps) | (with_reducible apply execCtxDbTally_keeps)
    | (with_reducible apply execCtxDbTq_keeps) | (with_reducible apply State.send_keeps) | (intro _ (_ : Keeps _ _))
    | (intro _ _ (_ : Keeps _ _)) | (intro w; refine @keeps_cut pq _ w ?_ ?_; unfold w) | (intro _) | (lift_lets)
    | split | (dsimp only) | (simp only [keeps_mk]) | (dsimp +zetaDelta only))

theorem State.bobbinWake_keeps {pq : State} (s : State) (hk : Keeps pq s) :
    Keeps pq (State.bobbinWake s) := by
  unfold State.bobbinWake
  repeat' (first
    | with_reducible assumption | (with_reducible apply keeps_foldl) | (with_reducible apply State.answerHeld_keeps)
    | (with_reducible apply State.setFld_keeps) | (with_reducible apply State.settlePads_keeps)
    | (with_reducible apply State.trainPort_keeps) | (with_reducible apply State.unstageRegions_keeps)
    | (with_reducible apply State.zeroRows_keeps) | (intro _ (_ : Keeps _ _)) | (intro _ _ (_ : Keeps _ _))
    | (intro w; refine @keeps_cut pq _ w ?_ ?_; unfold w) | (intro _) | (lift_lets) | (with_reducible apply keeps_ite)
    | split | (dsimp only) | (simp only [keeps_mk]) | (dsimp +zetaDelta only))

theorem execBobbinWake_keeps {pq : State} (s : State) (hk : Keeps pq s) :
    KeepsR pq (execBobbinWake s) := by
  unfold execBobbinWake
  repeat' (first
    | with_reducible assumption | (with_reducible apply keepsR_next) | (with_reducible apply State.bobbinWake_keeps)
    | (dsimp only))

theorem State.wakeTimer_keeps {pq : State} (s : State) (hk : Keeps pq s) :
    Keeps pq (State.wakeTimer s) := by
  unfold State.wakeTimer
  repeat' (first
    | with_reducible assumption | (with_reducible apply State.wakeFrom_keeps)
    | (intro w; refine @keeps_cut pq _ w ?_ ?_; unfold w) | (intro _) | (lift_lets) | (with_reducible apply keeps_ite)
    | split | (dsimp only) | (dsimp +zetaDelta only))

theorem execWakeTimerExpiry_keeps {pq : State} (s : State) (hk : Keeps pq s) :
    KeepsR pq (execWakeTimerExpiry s) := by
  unfold execWakeTimerExpiry
  repeat' (first
    | with_reducible assumption | (with_reducible apply keepsR_next) | (with_reducible apply State.wakeTimer_keeps)
    | (dsimp only))

theorem State.stackReading_keeps {pq : State} (s : State) (k : Nat) (t thr : Int) (hk : Keeps pq s) :
    Keeps pq (State.stackReading s k t thr) := by
  unfold State.stackReading
  repeat' (first
    | with_reducible assumption | (intro w; refine @keeps_cut pq _ w ?_ ?_; unfold w) | (intro _) | (lift_lets)
    | (with_reducible apply keeps_ite) | split | (dsimp only) | (simp only [keeps_mk]) | (dsimp +zetaDelta only))

theorem State.millReading_keeps {pq : State} (s : State) (t thr : Int) (hk : Keeps pq s) :
    Keeps pq (State.millReading s t thr) := by
  unfold State.millReading
  repeat' (first
    | with_reducible assumption | (intro w; refine @keeps_cut pq _ w ?_ ?_; unfold w) | (intro _) | (lift_lets)
    | (dsimp only) | (simp only [keeps_mk]) | (dsimp +zetaDelta only))

theorem State.tripStack_keeps {pq : State} (s : State) (k : Nat) (hk : Keeps pq s) :
    Keeps pq (State.tripStack s k) := by
  unfold State.tripStack
  repeat' (first
    | with_reducible assumption | (with_reducible apply State.zeroRows_keeps) | (intro _ (_ : Keeps _ _))
    | (intro _ _ (_ : Keeps _ _)) | (intro w; refine @keeps_cut pq _ w ?_ ?_; unfold w) | (intro _) | (lift_lets)
    | (dsimp only) | (simp only [keeps_mk]) | (simp only [keeps_mkm]) | (dsimp +zetaDelta only))

theorem State.millOff_keeps {pq : State} (s : State) (hk : Keeps pq s) :
    Keeps pq (State.millOff s) := by
  unfold State.millOff
  repeat' (first
    | with_reducible assumption | (with_reducible apply State.stopWork_keeps) | (intro _ (_ : Keeps _ _))
    | (intro _ _ (_ : Keeps _ _)) | (intro w; refine @keeps_cut pq _ w ?_ ?_; unfold w) | (intro _) | (lift_lets)
    | (dsimp only) | (simp only [keeps_mk]) | (dsimp +zetaDelta only))

theorem State.trip_keeps {pq : State} (s : State) (hot : List Nat) (hk : Keeps pq s) :
    Keeps pq (State.trip s hot) := by
  unfold State.trip
  repeat' (first
    | with_reducible assumption | (with_reducible apply keeps_foldl) | (with_reducible apply State.atBoundary_keeps)
    | (with_reducible apply State.millOff_keeps) | (with_reducible apply State.portsOff_keeps)
    | (with_reducible apply State.tripStack_keeps) | (intro _ (_ : Keeps _ _)) | (intro _ _ (_ : Keeps _ _))
    | (intro w; refine @keeps_cut pq _ w ?_ ?_; unfold w) | (intro _) | (lift_lets) | (with_reducible apply keeps_ite)
    | split | (dsimp only) | (simp only [keeps_mk]) | (dsimp +zetaDelta only))

theorem State.criticalOff_keeps {pq : State} (s : State) (hk : Keeps pq s) :
    Keeps pq (State.criticalOff s) := by
  unfold State.criticalOff
  repeat' (first
    | with_reducible assumption | (with_reducible apply State.holdPads_keeps)
    | (with_reducible apply State.zeroRows_keeps) | (intro _ (_ : Keeps _ _)) | (intro _ _ (_ : Keeps _ _))
    | (intro w; refine @keeps_cut pq _ w ?_ ?_; unfold w) | (intro _) | (lift_lets) | (dsimp only)
    | (simp only [keeps_mk]) | (dsimp +zetaDelta only))

theorem State.tempRefresh_keeps {pq : State} (s : State) (mill : BitVec 16) (stk : List (BitVec 16)) (hk : Keeps pq s) :
    Keeps pq (State.tempRefresh s mill stk) := by
  unfold State.tempRefresh
  repeat' (first
    | with_reducible assumption | (with_reducible apply keeps_foldl) | (with_reducible apply State.criticalOff_keeps)
    | (with_reducible apply State.millReading_keeps) | (with_reducible apply State.setReg_keeps)
    | (with_reducible apply State.stackReading_keeps) | (with_reducible apply State.trip_keeps)
    | (intro _ (_ : Keeps _ _)) | (intro _ _ (_ : Keeps _ _)) | (intro w; refine @keeps_cut pq _ w ?_ ?_; unfold w)
    | (intro _) | (lift_lets) | (with_reducible apply keeps_ite) | split | (dsimp only) | (dsimp +zetaDelta only))

theorem execTempRefresh_keeps {pq : State} (mill : BitVec 16) (stk : List (BitVec 16)) (s : State) (hk : Keeps pq s) :
    KeepsR pq (execTempRefresh mill stk s) := by
  unfold execTempRefresh
  repeat' (first
    | with_reducible assumption | (with_reducible apply keepsR_next) | (with_reducible apply State.tempRefresh_keeps)
    | (dsimp only))

theorem execThrottleEscalate_keeps {pq : State} (k : Stack) (s : State) (hk : Keeps pq s) :
    KeepsR pq (execThrottleEscalate k s) := by
  unfold execThrottleEscalate
  repeat' (first
    | with_reducible assumption | (with_reducible apply keepsR_next) | (intro _ (_ : Keeps _ _))
    | (intro _ _ (_ : Keeps _ _)) | (intro _) | (lift_lets) | (with_reducible apply keeps_ite) | split | (dsimp only)
    | (simp only [keeps_mk]) | (dsimp +zetaDelta only))

theorem execL1Entry_keeps {pq : State} (s : State) (hk : Keeps pq s) :
    KeepsR pq (execL1Entry s) := by
  unfold execL1Entry
  repeat' (first
    | with_reducible assumption | (with_reducible apply keepsR_next) | (intro _) | (lift_lets)
    | (with_reducible apply keeps_ite) | split | (dsimp only) | (simp only [keeps_mk]) | (dsimp +zetaDelta only))

theorem execAspmL1Exit_keeps {pq : State} (s : State) (hk : Keeps pq s) :
    KeepsR pq (execAspmL1Exit s) := by
  unfold execAspmL1Exit
  repeat' (first
    | with_reducible assumption | (with_reducible apply keepsR_next) | (intro _) | (lift_lets)
    | (with_reducible apply keeps_ite) | split | (dsimp only) | (simp only [keeps_mk]) | (dsimp +zetaDelta only))

theorem execPcieLinkUp_keeps {pq : State} (speed : BitVec 4) (width : BitVec 5) (s : State) (hk : Keeps pq s) :
    KeepsR pq (execPcieLinkUp speed width s) := by
  unfold execPcieLinkUp
  repeat' (first
    | with_reducible assumption | (with_reducible apply keepsR_next) | (with_reducible apply State.setReg_keeps)
    | (with_reducible apply keeps_ite) | split | (dsimp only))

theorem execFunctionD3hotChange_keeps {pq : State} (x : Ctx) (d3hot : Bool) (s : State) (hk : Keeps pq s) :
    KeepsR pq (execFunctionD3hotChange x d3hot s) := by
  unfold execFunctionD3hotChange
  repeat' (first
    | with_reducible assumption | (with_reducible apply keepsR_next) | (with_reducible apply State.cfgRequest_keeps)
    | (with_reducible apply State.modCtx_keeps) | (intro _ (_ : Keeps _ _)) | (intro _ _ (_ : Keeps _ _)) | (intro _)
    | (lift_lets) | (dsimp only) | (simp only [keeps_mk]) | (dsimp +zetaDelta only))

theorem State.cleared_keeps {pq : State} (s : State) (k : ResetKind) (hk : Keeps pq s) :
    Keeps pq (State.cleared s k) := by
  refine ⟨?_, hk.queue, hk.sent, hk.drew⟩
  show Memory.wf (s.keptMem k)
  unfold State.keptMem
  split
  · have h := (State.zeroRows_keeps s (fun rk => decide (keyRegion rk < 62) && !s.stackFresh (keyStack rk)) hk).mem
    exact ⟨h.1, h.2.1, h.2.2⟩
  · exact ⟨sparse_nil_wf _, sparse_nil_wf _, sparse_nil_wf _⟩


theorem State.selfTestFail_keeps {pq : State} (s : State) (unit : Nat) (hk : Keeps pq s) :
    Keeps pq (State.selfTestFail s unit) := by
  unfold State.selfTestFail
  repeat' (first
    | with_reducible assumption | (with_reducible apply State.draw_keeps) | (with_reducible apply State.log_keeps)
    | (with_reducible apply State.setFld_keeps) | (intro w; refine @keeps_cut pq _ w ?_ ?_; unfold w) | (intro _)
    | (lift_lets) | (dsimp only) | (simp only [keeps_mk]) | (dsimp +zetaDelta only)
    | (refine keeps_pair (by assumption) ?_) | (refine keeps_triple (by assumption) ?_))

theorem State.applyMaps_keeps {pq : State} (s : State) (env : BootEnv) (hk : Keeps pq s) :
    Keeps pq (State.applyMaps s env) := by
  unfold State.applyMaps
  repeat' (first
    | with_reducible assumption | (with_reducible apply keeps_foldl) | (with_reducible apply State.killSpindle_keeps)
    | (with_reducible apply State.log_keeps) | (with_reducible apply State.loseStack_keeps)
    | (with_reducible apply State.rebuildMap_keeps) | (with_reducible apply State.selfTestFail_keeps)
    | (intro _ (_ : Keeps _ _)) | (intro _ _ (_ : Keeps _ _)) | (intro w; refine @keeps_cut pq _ w ?_ ?_; unfold w)
    | (intro _) | (lift_lets) | (dsimp only) | (simp only [keeps_mk]) | (dsimp +zetaDelta only))

theorem State.startUp_keeps {pq : State} (s : State) (k : ResetKind) (env : BootEnv) (hk : Keeps pq s) :
    Keeps pq (State.startUp s k env) := by
  unfold State.startUp
  repeat' (first
    | with_reducible assumption | (with_reducible apply State.applyMaps_keeps)
    | (with_reducible apply State.bootVerify_keeps) | (with_reducible apply State.enterSafe_keeps)
    | (with_reducible apply State.setFld_keeps) | (with_reducible apply State.settlePads_keeps)
    | (intro w; refine @keeps_cut pq _ w ?_ ?_; unfold w) | (intro _) | (lift_lets) | (with_reducible apply keeps_ite)
    | split | (dsimp only) | (simp only [keeps_mk]) | (dsimp +zetaDelta only) | (refine keeps_pair (by assumption) ?_)
    | (refine keeps_triple (by assumption) ?_))

theorem State.startIfReleased_keeps {pq : State} (s : State) (k : ResetKind) (env : BootEnv) (hk : Keeps pq s) :
    Keeps pq (State.startIfReleased s k env) := by
  unfold State.startIfReleased
  repeat' (first
    | with_reducible assumption | (with_reducible apply State.startUp_keeps) | (with_reducible apply keeps_ite) | split
    | (dsimp only))

theorem State.powerOn_keeps {pq : State} (s : State) (env : BootEnv) (hk : Keeps pq s) :
    Keeps pq (State.powerOn s env) := by
  unfold State.powerOn
  repeat' (first
    | with_reducible assumption | (with_reducible apply State.cleared_keeps)
    | (with_reducible apply State.startIfReleased_keeps) | (intro w; refine @keeps_cut pq _ w ?_ ?_; unfold w)
    | (intro _) | (lift_lets) | (dsimp only) | (simp only [keeps_mk]) | (dsimp +zetaDelta only))

theorem execPowerOnReset_keeps {pq : State} (env : BootEnv) (s : State) (hk : Keeps pq s) :
    KeepsR pq (execPowerOnReset env s) := by
  unfold execPowerOnReset
  repeat' (first
    | with_reducible assumption | (with_reducible apply keepsR_next) | (with_reducible apply State.powerOn_keeps)
    | (dsimp only))

theorem State.deviceReset_keeps {pq : State} (s : State) (k : ResetKind) (env : BootEnv) (hk : Keeps pq s) :
    Keeps pq (State.deviceReset s k env) := by
  unfold State.deviceReset
  repeat' (first
    | with_reducible assumption | (with_reducible apply State.cleared_keeps)
    | (with_reducible apply State.startIfReleased_keeps) | (dsimp only))

theorem State.coldReset_keeps {pq : State} (s : State) (env : BootEnv) (hk : Keeps pq s) :
    Keeps pq (State.coldReset s env) := by
  unfold State.coldReset
  repeat' (first
    | with_reducible assumption | (with_reducible apply State.deviceReset_keeps) | (with_reducible apply keeps_ite)
    | split | (dsimp only))

theorem execColdReset_keeps {pq : State} (env : BootEnv) (s : State) (hk : Keeps pq s) :
    KeepsR pq (execColdReset env s) := by
  unfold execColdReset
  repeat' (first
    | with_reducible assumption | (with_reducible apply keepsR_next) | (with_reducible apply State.coldReset_keeps)
    | (dsimp only))

theorem State.warmReset_keeps {pq : State} (s : State) (env : BootEnv) (hk : Keeps pq s) :
    Keeps pq (State.warmReset s env) := by
  unfold State.warmReset
  repeat' (first
    | with_reducible assumption | (with_reducible apply State.deviceReset_keeps) | (with_reducible apply keeps_ite)
    | split | (dsimp only))

theorem execWarmReset_keeps {pq : State} (env : BootEnv) (s : State) (hk : Keeps pq s) :
    KeepsR pq (execWarmReset env s) := by
  unfold execWarmReset
  repeat' (first
    | with_reducible assumption | (with_reducible apply keepsR_next) | (with_reducible apply State.warmReset_keeps)
    | (dsimp only))

theorem State.perstAssert_keeps {pq : State} (s : State) (aonCycles : Nat) (hk : Keeps pq s) :
    Keeps pq (State.perstAssert s aonCycles) := by
  unfold State.perstAssert
  repeat' (first
    | with_reducible assumption | (with_reducible apply State.cleared_keeps)
    | (with_reducible apply State.recordWake_keeps) | (intro w; refine @keeps_cut pq _ w ?_ ?_; unfold w) | (intro _)
    | (lift_lets) | (with_reducible apply keeps_ite) | split | (dsimp only) | (simp only [keeps_mk])
    | (dsimp +zetaDelta only))

theorem execPerstAssert_keeps {pq : State} (aonCycles : Nat) (s : State) (hk : Keeps pq s) :
    KeepsR pq (execPerstAssert aonCycles s) := by
  unfold execPerstAssert
  repeat' (first
    | with_reducible assumption | (with_reducible apply keepsR_next) | (with_reducible apply State.perstAssert_keeps)
    | (dsimp only))

theorem State.perstDeassert_keeps {pq : State} (s : State) (env : BootEnv) (hk : Keeps pq s) :
    Keeps pq (State.perstDeassert s env) := by
  unfold State.perstDeassert
  repeat' (first
    | with_reducible assumption | (with_reducible apply State.startIfReleased_keeps) | (intro _) | (lift_lets)
    | (with_reducible apply keeps_ite) | split | (dsimp only) | (simp only [keeps_mk]) | (dsimp +zetaDelta only))

theorem execPerstDeassert_keeps {pq : State} (env : BootEnv) (s : State) (hk : Keeps pq s) :
    KeepsR pq (execPerstDeassert env s) := by
  unfold execPerstDeassert
  repeat' (first
    | with_reducible assumption | (with_reducible apply keepsR_next) | (with_reducible apply State.perstDeassert_keeps)
    | (dsimp only))

theorem State.floatPins_keeps {pq : State} (s : State) (hk : Keeps pq s) :
    Keeps pq (State.floatPins s) := by
  unfold State.floatPins
  repeat' (first
    | with_reducible assumption | (with_reducible apply keeps_foldl) | (with_reducible apply State.modPort_keeps)
    | (intro _ (_ : Keeps _ _)) | (intro _ _ (_ : Keeps _ _)) | (intro w; refine @keeps_cut pq _ w ?_ ?_; unfold w)
    | (intro _) | (lift_lets) | (dsimp only) | (simp only [keeps_mk]) | (dsimp +zetaDelta only))

theorem State.powerFail_keeps {pq : State} (s : State) (rail : Rail) (hk : Keeps pq s) :
    Keeps pq (State.powerFail s rail) := by
  unfold State.powerFail
  repeat' (first
    | with_reducible assumption | (with_reducible apply State.floatPins_keeps)
    | (with_reducible apply State.holdPads_keeps) | (intro w; refine @keeps_cut pq _ w ?_ ?_; unfold w) | (intro _)
    | (lift_lets) | (with_reducible apply keeps_ite) | split | (dsimp only) | (simp only [keeps_mk])
    | (dsimp +zetaDelta only))

theorem execPowerFail_keeps {pq : State} (f : RailFall) (s : State) (hk : Keeps pq s) :
    KeepsR pq (execPowerFail f s) := by
  unfold execPowerFail
  repeat' (first
    | with_reducible assumption | (with_reducible apply keepsR_next) | (with_reducible apply State.powerFail_keeps)
    | (with_reducible apply keeps_ite) | split | (dsimp only))

theorem execAonClkLoss_keeps {pq : State} (s : State) (hk : Keeps pq s) :
    KeepsR pq (execAonClkLoss s) := by
  unfold execAonClkLoss
  repeat' (first
    | with_reducible assumption | (with_reducible apply keepsR_next) | (intro _) | (lift_lets) | (dsimp only)
    | (simp only [keeps_mk]) | (dsimp +zetaDelta only))

theorem State.aonReturn_keeps {pq : State} (s : State) (env : BootEnv) (hk : Keeps pq s) :
    Keeps pq (State.aonReturn s env) := by
  unfold State.aonReturn
  repeat' (first
    | with_reducible assumption | (with_reducible apply State.cleared_keeps)
    | (with_reducible apply State.powerOn_keeps) | (with_reducible apply State.startIfReleased_keeps)
    | (intro w; refine @keeps_cut pq _ w ?_ ?_; unfold w) | (intro _) | (lift_lets) | (with_reducible apply keeps_ite)
    | split | (dsimp only) | (simp only [keeps_mk]) | (dsimp +zetaDelta only))

theorem execAonClkReturn_keeps {pq : State} (env : BootEnv) (s : State) (hk : Keeps pq s) :
    KeepsR pq (execAonClkReturn env s) := by
  unfold execAonClkReturn
  repeat' (first
    | with_reducible assumption | (with_reducible apply keepsR_next) | (with_reducible apply State.aonReturn_keeps)
    | (dsimp only))

theorem execReady_keeps {pq : State} (s : State) (hk : Keeps pq s) :
    KeepsR pq (execReady s) := by
  unfold execReady
  repeat' (first
    | with_reducible assumption | (with_reducible apply keepsR_next) | (intro _) | (lift_lets)
    | (with_reducible apply keeps_ite) | split | (dsimp only) | (simp only [keeps_mk]) | (dsimp +zetaDelta only))

theorem State.countGroupTicks_keeps {pq : State} (s : State) (hk : Keeps pq s) :
    Keeps pq (State.countGroupTicks s) := by
  unfold State.countGroupTicks
  repeat' (first
    | with_reducible assumption | (with_reducible apply keeps_foldl) | (with_reducible apply State.addStat_keeps)
    | (intro _ (_ : Keeps _ _)) | (intro _ _ (_ : Keeps _ _)) | (intro w; refine @keeps_cut pq _ w ?_ ?_; unfold w)
    | (intro _) | (lift_lets) | (with_reducible apply keeps_ite) | split | (dsimp only) | (simp only [keeps_mk])
    | (dsimp +zetaDelta only))

theorem State.tickBegins_keeps {pq : State} (s : State) (hk : Keeps pq s) :
    Keeps pq (State.tickBegins s) := by
  unfold State.tickBegins
  repeat' (first
    | with_reducible assumption | (with_reducible apply keeps_foldl) | (with_reducible apply State.cancelDrain_keeps)
    | (with_reducible apply State.countGroupTicks_keeps) | (with_reducible apply State.serveAll_keeps)
    | (with_reducible apply State.settleAdmits_keeps) | (with_reducible apply State.settlePads_keeps)
    | (intro _ (_ : Keeps _ _)) | (intro _ _ (_ : Keeps _ _)) | (intro w; refine @keeps_cut pq _ w ?_ ?_; unfold w)
    | (intro _) | (lift_lets) | (with_reducible apply keeps_ite) | split | (dsimp only) | (simp only [keeps_mk])
    | (dsimp +zetaDelta only))

end Sys2Proof.Machine
end

