-- ==== Sys2Proof/Laws/KeepsRegisters.lean ====
section
/-!
SUPPORT. The operations of Machine/Registers.lean keep memory canonical and the queue as it is.
-/

namespace Sys2Proof.Machine

theorem State.setTxn_keeps {pq : State} (s : State) (t : Txn) (hk : Keeps pq s) :
    Keeps pq (State.setTxn s t) := by
  unfold State.setTxn
  repeat' (first
    | with_reducible assumption | (intro _) | (lift_lets) | (dsimp only) | (simp only [keeps_mk])
    | (dsimp +zetaDelta only))

theorem State.begin__keeps {pq : State} (s : State) (hk : Keeps pq s) :
    Keeps pq (State.begin_ s) := by
  unfold State.begin_
  repeat' (first
    | with_reducible assumption | (with_reducible apply State.logInvalid_keeps)
    | (with_reducible apply State.setTxn_keeps) | (intro _) | (lift_lets) | (with_reducible apply keeps_ite) | split
    | (dsimp only) | (simp only [keeps_mk]) | (dsimp +zetaDelta only))

theorem State.commit_keeps {pq : State} (s : State) (hk : Keeps pq s) :
    Keeps pq (State.commit s) := by
  unfold State.commit
  repeat' (first
    | with_reducible assumption | (with_reducible apply State.logInvalid_keeps)
    | (with_reducible apply State.setTxn_keeps) | (intro _) | (lift_lets) | split | (dsimp only)
    | (simp only [keeps_mk]) | (dsimp +zetaDelta only))

theorem State.rollback_keeps {pq : State} (s : State) (hk : Keeps pq s) :
    Keeps pq (State.rollback s) := by
  unfold State.rollback
  repeat' (first
    | with_reducible assumption | (with_reducible apply State.logInvalid_keeps)
    | (with_reducible apply State.setTxn_keeps) | (intro _) | (lift_lets) | (with_reducible apply keeps_ite) | split
    | (dsimp only) | (simp only [keeps_mk]) | (dsimp +zetaDelta only))

theorem execBegin_keeps {pq : State} (s : State) (hk : Keeps pq s) :
    KeepsR pq (execBegin s) := by
  unfold execBegin
  repeat' (first
    | with_reducible assumption | (with_reducible apply keepsR_next) | (with_reducible apply State.begin__keeps)
    | (with_reducible apply State.pfWrite_keeps) | (dsimp only))

theorem execCommit_keeps {pq : State} (s : State) (hk : Keeps pq s) :
    KeepsR pq (execCommit s) := by
  unfold execCommit
  repeat' (first
    | with_reducible assumption | (with_reducible apply keepsR_next) | (with_reducible apply State.commit_keeps)
    | (with_reducible apply State.pfWrite_keeps) | (dsimp only))

theorem execRollback_keeps {pq : State} (s : State) (hk : Keeps pq s) :
    KeepsR pq (execRollback s) := by
  unfold execRollback
  repeat' (first
    | with_reducible assumption | (with_reducible apply keepsR_next) | (with_reducible apply State.pfWrite_keeps)
    | (with_reducible apply State.rollback_keeps) | (dsimp only))

theorem State.stageWrite_keeps {pq : State} (s : State) (off v : Nat) (fs : List Field) (hk : Keeps pq s) :
    Keeps pq (State.stageWrite s off v fs) := by
  unfold State.stageWrite
  repeat' (first
    | with_reducible assumption | (with_reducible apply State.logInvalid_keeps)
    | (with_reducible apply State.setTxn_keeps) | (intro _ (_ : Keeps _ _)) | (intro _ _ (_ : Keeps _ _))
    | (intro w; refine @keeps_cut pq _ w ?_ ?_; unfold w) | (intro _) | (lift_lets) | (with_reducible apply keeps_ite)
    | split | (dsimp only) | (simp only [keeps_mk]) | (dsimp +zetaDelta only))

theorem State.putStaged_keeps {pq : State} (s : State) (ws : List Staged) (hk : Keeps pq s) :
    Keeps pq (State.putStaged s ws) := by
  unfold State.putStaged
  repeat' (first
    | with_reducible assumption | (with_reducible apply keeps_foldl) | (with_reducible apply State.setReg_keeps)
    | (intro _ (_ : Keeps _ _)) | (intro _ _ (_ : Keeps _ _)) | (intro _) | (lift_lets)
    | (with_reducible apply keeps_ite) | split | (dsimp only))

theorem State.revert_keeps {pq : State} (s old : State) (offs : List Nat) (at_ : Nat) (hk : Keeps pq s) :
    Keeps pq (State.revert s old offs at_) := by
  unfold State.revert
  repeat' (first
    | with_reducible assumption | (with_reducible apply keeps_foldl) | (with_reducible apply State.logInvalid_keeps)
    | (with_reducible apply State.setReg_keeps) | (intro _ (_ : Keeps _ _)) | (intro _ _ (_ : Keeps _ _))
    | (intro w; refine @keeps_cut pq _ w ?_ ?_; unfold w) | (intro _) | (lift_lets) | (dsimp only)
    | (dsimp +zetaDelta only))

theorem State.checkRange_keeps {pq : State} (s old : State) (c : Nat) (hk : Keeps pq s) :
    Keeps pq (State.checkRange s old c) := by
  unfold State.checkRange
  repeat' (first
    | with_reducible assumption | (with_reducible apply State.revert_keeps)
    | (intro w; refine @keeps_cut pq _ w ?_ ?_; unfold w) | (intro _) | (lift_lets) | (with_reducible apply keeps_ite)
    | split | (dsimp only) | (dsimp +zetaDelta only))

theorem State.checkPause_keeps {pq : State} (s old : State) (p : Nat) (hk : Keeps pq s) :
    Keeps pq (State.checkPause s old p) := by
  unfold State.checkPause
  repeat' (first
    | with_reducible assumption | (with_reducible apply State.revert_keeps)
    | (intro w; refine @keeps_cut pq _ w ?_ ?_; unfold w) | (intro _) | (lift_lets) | (with_reducible apply keeps_ite)
    | split | (dsimp only) | (dsimp +zetaDelta only))

theorem State.checkEnable_keeps {pq : State} (s old : State) (c : Nat) (hk : Keeps pq s) :
    Keeps pq (State.checkEnable s old c) := by
  unfold State.checkEnable
  repeat' (first
    | with_reducible assumption | (with_reducible apply State.revert_keeps)
    | (intro w; refine @keeps_cut pq _ w ?_ ?_; unfold w) | (intro _) | (lift_lets) | (with_reducible apply keeps_ite)
    | split | (dsimp only) | (dsimp +zetaDelta only))

theorem State.checkMode_keeps {pq : State} (s old : State) (j : Nat) (hk : Keeps pq s) :
    Keeps pq (State.checkMode s old j) := by
  unfold State.checkMode
  repeat' (first
    | with_reducible assumption | (with_reducible apply State.logInvalid_keeps)
    | (with_reducible apply State.setFld_keeps) | (intro _ (_ : Keeps _ _)) | (intro _ _ (_ : Keeps _ _))
    | (intro w; refine @keeps_cut pq _ w ?_ ?_; unfold w) | (intro _) | (lift_lets) | (with_reducible apply keeps_ite)
    | split | (dsimp only) | (dsimp +zetaDelta only))

theorem State.applyRetire_keeps {pq : State} (s : State) (ws : List Staged) (hk : Keeps pq s) :
    Keeps pq (State.applyRetire s ws) := by
  unfold State.applyRetire
  repeat' (first
    | with_reducible assumption | (with_reducible apply keeps_foldl) | (with_reducible apply State.logInvalid_keeps)
    | (with_reducible apply State.retire_keeps) | (with_reducible apply State.unstageRow_keeps)
    | (intro _ (_ : Keeps _ _)) | (intro _ _ (_ : Keeps _ _)) | (intro w; refine @keeps_cut pq _ w ?_ ?_; unfold w)
    | (intro _) | (lift_lets) | (with_reducible apply keeps_ite) | split | (dsimp only) | (simp only [keeps_mk])
    | (dsimp +zetaDelta only))

theorem State.applyRoutes_keeps {pq : State} (s : State) (ws : List Staged) (hk : Keeps pq s) :
    Keeps pq (State.applyRoutes s ws) := by
  unfold State.applyRoutes
  repeat' (first
    | with_reducible assumption | (with_reducible apply keeps_foldl) | (intro _ (_ : Keeps _ _))
    | (intro _ _ (_ : Keeps _ _)) | (intro _) | (lift_lets) | (dsimp only) | (simp only [keeps_mk])
    | (dsimp +zetaDelta only))

theorem State.disableCtx_keeps {pq : State} (s : State) (c : Nat) (hk : Keeps pq s) :
    Keeps pq (State.disableCtx s c) := by
  unfold State.disableCtx
  repeat' (first
    | with_reducible assumption | (with_reducible apply State.enter_keeps) | (with_reducible apply State.modCtx_keeps)
    | (with_reducible apply State.teardownFor_keeps) | (intro _ (_ : Keeps _ _)) | (intro _ _ (_ : Keeps _ _))
    | (intro _) | (lift_lets) | (with_reducible apply keeps_ite) | split | (dsimp only) | (simp only [keeps_mk])
    | (dsimp +zetaDelta only))

theorem State.applyEnable_keeps {pq : State} (s old : State) (c : Nat) (hk : Keeps pq s) :
    Keeps pq (State.applyEnable s old c) := by
  unfold State.applyEnable
  repeat' (first
    | with_reducible assumption | (with_reducible apply State.disableCtx_keeps)
    | (with_reducible apply State.enter_keeps) | (with_reducible apply State.modCtx_keeps)
    | (with_reducible apply State.setFld_keeps) | (intro w; refine @keeps_cut pq _ w ?_ ?_; unfold w) | (intro _)
    | (lift_lets) | (with_reducible apply keeps_ite) | split | (dsimp only) | (dsimp +zetaDelta only))

theorem State.applyMode_keeps {pq : State} (s old : State) (j : Nat) (hk : Keeps pq s) :
    Keeps pq (State.applyMode s old j) := by
  unfold State.applyMode
  repeat' (first
    | with_reducible assumption | (intro _ (_ : Keeps _ _)) | (intro _ _ (_ : Keeps _ _))
    | (intro w; refine @keeps_cut pq _ w ?_ ?_; unfold w) | (intro _) | (lift_lets) | (with_reducible apply keeps_ite)
    | split | (dsimp only) | (simp only [keeps_mk]) | (simp only [keeps_mkm]) | (dsimp +zetaDelta only))

theorem State.applyBanks_keeps {pq : State} (s old : State) (n : Nat) (hk : Keeps pq s) :
    Keeps pq (State.applyBanks s old n) := by
  unfold State.applyBanks
  repeat' (first
    | with_reducible assumption | (with_reducible apply keeps_foldl) | (with_reducible apply State.withholdGroup_keeps)
    | (intro _ (_ : Keeps _ _)) | (intro _ _ (_ : Keeps _ _)) | (intro w; refine @keeps_cut pq _ w ?_ ?_; unfold w)
    | (intro _) | (lift_lets) | (with_reducible apply keeps_ite) | split | (dsimp only) | (dsimp +zetaDelta only))

theorem State.applyPort_keeps {pq : State} (s : State) (ws : List Staged) (p : Nat) (hk : Keeps pq s) :
    Keeps pq (State.applyPort s ws p) := by
  unfold State.applyPort
  repeat' (first
    | with_reducible assumption | (with_reducible apply State.disablePort_keeps)
    | (with_reducible apply State.drivePause_keeps) | (with_reducible apply State.modPort_keeps)
    | (intro _ (_ : Keeps _ _)) | (intro _ _ (_ : Keeps _ _)) | (intro w; refine @keeps_cut pq _ w ?_ ?_; unfold w)
    | (intro _) | (lift_lets) | (with_reducible apply keeps_ite) | split | (dsimp only) | (simp only [keeps_mk])
    | (dsimp +zetaDelta only))

theorem State.applyWrites_keeps {pq : State} (s : State) (ws : List Staged) (hk : Keeps pq s) :
    Keeps pq (State.applyWrites s ws) := by
  unfold State.applyWrites
  repeat' (first
    | with_reducible assumption | (with_reducible apply keeps_foldl) | (with_reducible apply State.applyBanks_keeps)
    | (with_reducible apply State.applyEnable_keeps) | (with_reducible apply State.applyMode_keeps)
    | (with_reducible apply State.applyPort_keeps) | (with_reducible apply State.applyRetire_keeps)
    | (with_reducible apply State.applyRoutes_keeps) | (with_reducible apply State.checkEnable_keeps)
    | (with_reducible apply State.checkMode_keeps) | (with_reducible apply State.checkPause_keeps)
    | (with_reducible apply State.checkRange_keeps) | (with_reducible apply State.putStaged_keeps)
    | (intro _ (_ : Keeps _ _)) | (intro _ _ (_ : Keeps _ _)) | (intro w; refine @keeps_cut pq _ w ?_ ?_; unfold w)
    | (intro _) | (lift_lets) | (with_reducible apply keeps_ite) | split | (dsimp only) | (dsimp +zetaDelta only))

theorem State.cfgApply_keeps {pq : State} (s : State) (hk : Keeps pq s) :
    Keeps pq (State.cfgApply s) := by
  unfold State.cfgApply
  repeat' (first
    | with_reducible assumption | (with_reducible apply State.applyWrites_keeps)
    | (with_reducible apply State.event_keeps) | (with_reducible apply State.setTxn_keeps)
    | (intro w; refine @keeps_cut pq _ w ?_ ?_; unfold w) | (intro _) | (lift_lets) | (with_reducible apply keeps_ite)
    | split | (dsimp only) | (simp only [keeps_mk]) | (dsimp +zetaDelta only))

theorem execCfgApply_keeps {pq : State} (s : State) (hk : Keeps pq s) :
    KeepsR pq (execCfgApply s) := by
  unfold execCfgApply
  repeat' (first
    | with_reducible assumption | (with_reducible apply keepsR_next) | (with_reducible apply State.cfgApply_keeps)
    | (with_reducible apply keeps_ite) | split | (dsimp only))

theorem State.capture_keeps {pq : State} (s : State) (base v n : Nat) (hk : Keeps pq s) :
    Keeps pq (State.capture s base v n) := by
  unfold State.capture
  repeat' (first
    | with_reducible assumption | (with_reducible apply keeps_foldl) | (with_reducible apply State.setReg_keeps)
    | (intro _ (_ : Keeps _ _)) | (intro _ _ (_ : Keeps _ _)) | (intro _) | (lift_lets) | (dsimp only))

theorem State.captureSkein_keeps {pq : State} (s : State) (v : Word) (hk : Keeps pq s) :
    Keeps pq (State.captureSkein s v) := by
  unfold State.captureSkein
  repeat' (first
    | with_reducible assumption | (with_reducible apply State.capture_keeps)
    | (with_reducible apply State.setReg_keeps) | (intro w; refine @keeps_cut pq _ w ?_ ?_; unfold w) | (intro _)
    | (lift_lets) | (dsimp only) | (dsimp +zetaDelta only))

theorem State.captureLog_keeps {pq : State} (s : State) (v : Word) (hk : Keeps pq s) :
    Keeps pq (State.captureLog s v) := by
  unfold State.captureLog
  repeat' (first
    | with_reducible assumption | (with_reducible apply State.capture_keeps) | (with_reducible apply State.log_keeps)
    | (with_reducible apply State.setReg_keeps) | (dsimp only))

theorem execSknRdHandle_keeps {pq : State} (v : Word) (s : State) (hk : Keeps pq s) :
    KeepsR pq (execSknRdHandle v s) := by
  unfold execSknRdHandle
  repeat' (first
    | with_reducible assumption | (with_reducible apply keepsR_next) | (with_reducible apply State.captureSkein_keeps)
    | (with_reducible apply State.pfWrite_keeps) | (intro _ (_ : Keeps _ _)) | (intro _ _ (_ : Keeps _ _)) | (intro _)
    | (lift_lets) | (dsimp only))

theorem execEccLogSel_keeps {pq : State} (v : Word) (s : State) (hk : Keeps pq s) :
    KeepsR pq (execEccLogSel v s) := by
  unfold execEccLogSel
  repeat' (first
    | with_reducible assumption | (with_reducible apply keepsR_next) | (with_reducible apply State.captureLog_keeps)
    | (with_reducible apply State.touch_keeps) | (with_reducible apply keeps_ite) | split | (dsimp only))

theorem execClkTickLoRead_keeps {pq : State} (s : State) (hk : Keeps pq s) :
    KeepsR pq (execClkTickLoRead s) := by
  unfold execClkTickLoRead
  repeat' (first
    | with_reducible assumption | (with_reducible apply keepsR_next) | (with_reducible apply State.touch_keeps)
    | (intro w; refine @keeps_cut pq _ w ?_ ?_; unfold w) | (intro _) | (lift_lets) | (with_reducible apply keeps_ite)
    | split | (dsimp only) | (simp only [keeps_mk]) | (dsimp +zetaDelta only))

theorem State.writeTail_keeps {pq : State} (s : State) (v : Nat) (hk : Keeps pq s) :
    Keeps pq (State.writeTail s v) := by
  unfold State.writeTail
  repeat' (first
    | with_reducible assumption | (with_reducible apply State.logInvalid_keeps)
    | (with_reducible apply State.setReg_keeps) | (intro w; refine @keeps_cut pq _ w ?_ ?_; unfold w) | (intro _)
    | (lift_lets) | (with_reducible apply keeps_ite) | split | (dsimp only) | (dsimp +zetaDelta only))

theorem State.clearInput_keeps {pq : State} (s : State) (i v : Nat) (hk : Keeps pq s) :
    Keeps pq (State.clearInput s i v) := by
  unfold State.clearInput
  repeat' (first
    | with_reducible assumption | (with_reducible apply State.setInput_keeps)
    | (intro w; refine @keeps_cut pq _ w ?_ ?_; unfold w) | (intro _) | (lift_lets) | (dsimp only)
    | (simp only [keeps_mk]) | (dsimp +zetaDelta only))

theorem State.selfTest_keeps {pq : State} (s : State) (hk : Keeps pq s) :
    Keeps pq (State.selfTest s).2 := by
  unfold State.selfTest
  repeat' (first
    | with_reducible assumption | (with_reducible apply State.draw_keeps)
    | (intro w; refine @keeps_cut pq _ w ?_ ?_; unfold w) | (intro _) | (lift_lets) | (dsimp only)
    | (dsimp +zetaDelta only) | (refine keeps_pair (by assumption) ?_) | (refine keeps_triple (by assumption) ?_))

theorem State.coreCmd_keeps {pq : State} (s : State) (v : Nat) (hk : Keeps pq s) :
    Keeps pq (State.coreCmd s v) := by
  unfold State.coreCmd
  repeat' (first
    | with_reducible assumption | (with_reducible apply State.coreAdmit_keeps)
    | (with_reducible apply State.coreDeclare_keeps) | (with_reducible apply State.selfTest_keeps)
    | (intro w; refine @keeps_cut pq _ w ?_ ?_; unfold w) | (intro _) | (lift_lets) | (with_reducible apply keeps_ite)
    | split | (dsimp only) | (dsimp +zetaDelta only) | (refine keeps_pair (by assumption) ?_)
    | (refine keeps_triple (by assumption) ?_))

theorem State.spdCmd_keeps {pq : State} (s : State) (v : Nat) (hk : Keeps pq s) :
    Keeps pq (State.spdCmd s v) := by
  unfold State.spdCmd
  repeat' (first
    | with_reducible assumption | (with_reducible apply State.selfTest_keeps)
    | (with_reducible apply State.spdAdmit_keeps) | (with_reducible apply State.spdDeclare_keeps)
    | (intro w; refine @keeps_cut pq _ w ?_ ?_; unfold w) | (intro _) | (lift_lets) | (with_reducible apply keeps_ite)
    | split | (dsimp only) | (dsimp +zetaDelta only) | (refine keeps_pair (by assumption) ?_)
    | (refine keeps_triple (by assumption) ?_))

theorem State.writeWinCtl_keeps {pq : State} (s : State) (v : Nat) (hk : Keeps pq s) :
    Keeps pq (State.writeWinCtl s v) := by
  unfold State.writeWinCtl
  repeat' (first
    | with_reducible assumption | (with_reducible apply State.logInvalid_keeps)
    | (with_reducible apply State.setFld_keeps) | (intro w; refine @keeps_cut pq _ w ?_ ?_; unfold w) | (intro _)
    | (lift_lets) | (with_reducible apply keeps_ite) | split | (dsimp only) | (dsimp +zetaDelta only))

theorem State.action_keeps {pq : State} (s : State) (off v : Nat) (hk : Keeps pq s) :
    Keeps pq (State.action s off v) := by
  unfold State.action
  repeat' (first
    | with_reducible assumption | (with_reducible apply State.askStage_keeps)
    | (with_reducible apply State.atBoundary_keeps) | (with_reducible apply State.begin__keeps)
    | (with_reducible apply State.blockRelease_keeps) | (with_reducible apply State.commit_keeps)
    | (with_reducible apply State.coreCmd_keeps) | (with_reducible apply State.dropUpdate_keeps)
    | (with_reducible apply State.peerCmd_keeps) | (with_reducible apply State.readRaw_keeps)
    | (with_reducible apply State.rollback_keeps) | (with_reducible apply State.spdCmd_keeps)
    | (with_reducible apply State.stkCmd_keeps) | (with_reducible apply State.writeBoth_keeps)
    | (with_reducible apply State.writeCheck_keeps) | (with_reducible apply State.writeData_keeps)
    | (with_reducible apply State.xltRead_keeps) | (with_reducible apply State.xltWrite_keeps) | (intro _)
    | (lift_lets) | (with_reducible apply keeps_ite) | split | (dsimp only) | (simp only [keeps_mk])
    | (dsimp +zetaDelta only))

theorem State.writeLow_keeps {pq : State} (s : State) (off v : Nat) (fs : List Field) (hk : Keeps pq s) :
    Keeps pq (State.writeLow s off v fs) := by
  unfold State.writeLow
  repeat' (first
    | with_reducible assumption | (with_reducible apply State.action_keeps)
    | (with_reducible apply State.captureLog_keeps) | (with_reducible apply State.captureSkein_keeps)
    | (with_reducible apply State.clearInput_keeps) | (with_reducible apply State.logInvalid_keeps)
    | (with_reducible apply State.stageWrite_keeps) | (with_reducible apply State.targetLow_keeps)
    | (with_reducible apply State.targetRun_keeps) | (with_reducible apply State.writePlain_keeps)
    | (with_reducible apply State.writeTail_keeps) | (with_reducible apply State.writeWinCtl_keeps)
    | (with_reducible apply keeps_ite) | split | (dsimp only))

theorem State.writePage_keeps {pq : State} (s : State) (func page : Nat) (c : Ctx) (x v : Nat) (hk : Keeps pq s) :
    Keeps pq (State.writePage s func page c x v) := by
  unfold State.writePage
  repeat' (first
    | with_reducible assumption | (with_reducible apply keeps_nextOr) | (with_reducible apply execCtxDbCq_keeps)
    | (with_reducible apply execCtxDbEq_keeps) | (with_reducible apply execCtxDbSq_keeps)
    | (with_reducible apply execCtxDbTally_keeps) | (with_reducible apply execCtxDbTq_keeps)
    | (with_reducible apply State.logInvalid_keeps) | (with_reducible apply State.selectCounter_keeps)
    | (with_reducible apply State.setRun_keeps) | (with_reducible apply State.writePlain_keeps)
    | (intro _ (_ : Keeps _ _)) | (intro _ _ (_ : Keeps _ _)) | (intro w; refine @keeps_cut pq _ w ?_ ?_; unfold w)
    | (intro _) | (lift_lets) | (with_reducible apply keeps_ite) | split | (dsimp only) | (dsimp +zetaDelta only))

theorem State.writeMsix_keeps {pq : State} (s : State) (c x v : Nat) (hk : Keeps pq s) :
    Keeps pq (State.writeMsix s c x v) := by
  unfold State.writeMsix
  repeat' (first
    | with_reducible assumption | (with_reducible apply State.modCtx_keeps) | (with_reducible apply State.msix_keeps)
    | (intro _ (_ : Keeps _ _)) | (intro _ _ (_ : Keeps _ _)) | (intro w; refine @keeps_cut pq _ w ?_ ?_; unfold w)
    | (intro _) | (lift_lets) | (with_reducible apply keeps_ite) | split | (dsimp only) | (simp only [keeps_mk])
    | (dsimp +zetaDelta only))

theorem State.writeBar0_keeps {pq : State} (s : State) (off v : Nat) (hk : Keeps pq s) :
    Keeps pq (State.writeBar0 s off v) := by
  unfold State.writeBar0
  repeat' (first
    | with_reducible assumption | (with_reducible apply State.logInvalid_keeps)
    | (with_reducible apply State.resetCtx_keeps) | (with_reducible apply State.stageWrite_keeps)
    | (with_reducible apply State.writeLow_keeps) | (with_reducible apply State.writeMsix_keeps)
    | (with_reducible apply State.writePage_keeps) | (intro w; refine @keeps_cut pq _ w ?_ ?_; unfold w) | (intro _)
    | (lift_lets) | (with_reducible apply keeps_ite) | split | (dsimp only) | (dsimp +zetaDelta only))

theorem State.barWrite_keeps {pq : State} (s : State) (bar : BarAccess) (off size v : Nat) (hk : Keeps pq s) :
    Keeps pq (State.barWrite s bar off size v) := by
  unfold State.barWrite
  repeat' (first
    | with_reducible assumption | (with_reducible apply State.logInvalid_keeps)
    | (with_reducible apply State.touch_keeps) | (with_reducible apply State.writeBar0_keeps)
    | (with_reducible apply State.writeMsix_keeps) | (with_reducible apply State.writePage_keeps)
    | (intro _ (_ : Keeps _ _)) | (intro _ _ (_ : Keeps _ _)) | (intro w; refine @keeps_cut pq _ w ?_ ?_; unfold w)
    | (intro _) | (lift_lets) | (with_reducible apply keeps_ite) | split | (dsimp only) | (dsimp +zetaDelta only))

theorem State.readCaptured_keeps {pq : State} (s : State) (off : Nat) (hk : Keeps pq s) :
    Keeps pq (State.readCaptured s off).2 := by
  unfold State.readCaptured
  repeat' (first
    | with_reducible assumption | (intro _) | (lift_lets) | (with_reducible apply keeps_ite) | split | (dsimp only)
    | (simp only [keeps_mk]) | (dsimp +zetaDelta only))

theorem State.barRead_keeps {pq : State} (s : State) (bar : BarAccess) (off size : Nat) (hk : Keeps pq s) :
    Keeps pq (State.barRead s bar off size).2 := by
  unfold State.barRead
  repeat' (first
    | with_reducible assumption | (with_reducible apply State.logInvalid_keeps)
    | (with_reducible apply State.readCaptured_keeps) | (with_reducible apply State.touch_keeps)
    | (intro _ (_ : Keeps _ _)) | (intro _ _ (_ : Keeps _ _)) | (intro w; refine @keeps_cut pq _ w ?_ ?_; unfold w)
    | (intro _) | (lift_lets) | (with_reducible apply keeps_ite) | split | (dsimp only) | (dsimp +zetaDelta only)
    | (refine keeps_pair (by assumption) ?_) | (refine keeps_triple (by assumption) ?_))

theorem execRegisterWrite_keeps {pq : State} (bar : BarAccess) (off : BitVec 26) (size : Nat) (v : BitVec 64) (s : State) (hk : Keeps pq s) :
    KeepsR pq (execRegisterWrite bar off size v s) := by
  unfold execRegisterWrite
  repeat' (first
    | with_reducible assumption | (with_reducible apply keepsR_next) | (with_reducible apply State.barWrite_keeps)
    | (with_reducible apply keeps_ite) | split | (dsimp only))

theorem execRwtWrite_keeps {pq : State} (off : BitVec 26) (v : Word) (s : State) (hk : Keeps pq s) :
    KeepsR pq (execRwtWrite off v s) := by
  unfold execRwtWrite
  repeat' (first
    | with_reducible assumption | (with_reducible apply keepsR_next) | (with_reducible apply State.barWrite_keeps)
    | (with_reducible apply keeps_ite) | split | (dsimp only))

theorem State.takeAny_keeps {pq : State} (s : State) (x : Ctx) (r : Record) (hk : Keeps pq s) :
    Keeps pq (State.takeAny s x r) := by
  unfold State.takeAny
  repeat' (first
    | with_reducible assumption | (with_reducible apply keeps_nextOr) | (with_reducible apply execBarrier_keeps)
    | (with_reducible apply execCancel_keeps) | (with_reducible apply execHank_keeps)
    | (with_reducible apply execModelLoad_keeps) | (with_reducible apply execModelUnload_keeps)
    | (with_reducible apply execRowreq_keeps) | (with_reducible apply execSeqCompact_keeps)
    | (with_reducible apply execSeqRelease_keeps) | (with_reducible apply execStream_keeps)
    | (with_reducible apply execWinder_keeps) | (with_reducible apply State.refuseRecord_keeps)
    | (intro w; refine @keeps_cut pq _ w ?_ ?_; unfold w) | (intro _) | (lift_lets) | (with_reducible apply keeps_ite)
    | split | (dsimp only) | (dsimp +zetaDelta only))

theorem execRecordAccept_keeps {pq : State} (x : Ctx) (rec : Record) (s : State) (hk : Keeps pq s) :
    KeepsR pq (execRecordAccept x rec s) := by
  unfold execRecordAccept
  repeat' (first
    | with_reducible assumption | (with_reducible apply keepsR_next) | (with_reducible apply State.takeAny_keeps)
    | (dsimp only))

theorem State.dbgMem_keeps {pq : State} (s : State) (a : Nat) (wr : Option Word) (hk : Keeps pq s) :
    Keeps pq (State.dbgMem s a wr) := by
  unfold State.dbgMem
  repeat' (first
    | with_reducible assumption | (with_reducible apply State.govRead_keeps)
    | (with_reducible apply State.govWrite_keeps) | (with_reducible apply State.window_keeps)
    | (intro w; refine @keeps_cut pq _ w ?_ ?_; unfold w) | (intro _) | (lift_lets) | (with_reducible apply keeps_ite)
    | split | (dsimp only) | (simp only [keeps_mk]) | (dsimp +zetaDelta only) | (refine keeps_pair (by assumption) ?_)
    | (refine keeps_triple (by assumption) ?_))

theorem State.dbgAccess_keeps {pq : State} (s : State) (op : DbgOp) (hk : Keeps pq s) :
    Keeps pq (State.dbgAccess s op) := by
  unfold State.dbgAccess
  repeat' (first
    | with_reducible assumption | (with_reducible apply State.dbgMem_keeps)
    | (with_reducible apply State.logInvalid_keeps) | (with_reducible apply State.readCaptured_keeps)
    | (with_reducible apply State.writeBar0_keeps) | (intro _) | (lift_lets) | (with_reducible apply keeps_ite) | split
    | (dsimp only) | (simp only [keeps_mk]) | (dsimp +zetaDelta only) | (refine keeps_pair (by assumption) ?_)
    | (refine keeps_triple (by assumption) ?_))

theorem execDbgAccess_keeps {pq : State} (op : DbgOp) (s : State) (hk : Keeps pq s) :
    KeepsR pq (execDbgAccess op s) := by
  unfold execDbgAccess
  repeat' (first
    | with_reducible assumption | (with_reducible apply keepsR_next) | (with_reducible apply State.dbgAccess_keeps)
    | (dsimp only))

end Sys2Proof.Machine
end

