-- ==== Sys2Proof/Laws/KeepsSideband.lean ====
section
/-!
SUPPORT. The operations of Machine/Sideband.lean keep memory canonical and the queue as it is.
-/

namespace Sys2Proof.Machine

theorem State.smbRead_keeps {pq : State} (s : State) (n v : Nat) (hk : Keeps pq s) :
    Keeps pq (State.smbRead s n v) := by
  unfold State.smbRead
  repeat' (first
    | with_reducible assumption | (intro _) | (lift_lets) | (with_reducible apply keeps_ite) | split | (dsimp only)
    | (simp only [keeps_mk]) | (dsimp +zetaDelta only))

theorem execSmbStatus_keeps {pq : State} (s : State) (hk : Keeps pq s) :
    KeepsR pq (execSmbStatus s) := by
  unfold execSmbStatus
  repeat' (first
    | with_reducible assumption | (with_reducible apply keepsR_next) | (with_reducible apply State.smbRead_keeps)
    | (dsimp only))

theorem execSmbTemps_keeps {pq : State} (s : State) (hk : Keeps pq s) :
    KeepsR pq (execSmbTemps s) := by
  unfold execSmbTemps
  repeat' (first
    | with_reducible assumption | (with_reducible apply keepsR_next) | (with_reducible apply State.smbRead_keeps)
    | (dsimp only))

theorem execSmbPower_keeps {pq : State} (s : State) (hk : Keeps pq s) :
    KeepsR pq (execSmbPower s) := by
  unfold execSmbPower
  repeat' (first
    | with_reducible assumption | (with_reducible apply keepsR_next) | (with_reducible apply State.smbRead_keeps)
    | (dsimp only))

theorem execSmbId_keeps {pq : State} (s : State) (hk : Keeps pq s) :
    KeepsR pq (execSmbId s) := by
  unfold execSmbId
  repeat' (first
    | with_reducible assumption | (with_reducible apply keepsR_next) | (with_reducible apply State.smbRead_keeps)
    | (dsimp only))

theorem execSmbAlertResponse_keeps {pq : State} (s : State) (hk : Keeps pq s) :
    KeepsR pq (execSmbAlertResponse s) := by
  unfold execSmbAlertResponse
  repeat' (first
    | with_reducible assumption | (with_reducible apply keepsR_next) | (intro _) | (lift_lets)
    | (with_reducible apply keeps_ite) | split | (dsimp only) | (simp only [keeps_mk]) | (dsimp +zetaDelta only))

theorem execSmbClockLowTimeout_keeps {pq : State} (ms : Nat) (s : State) (hk : Keeps pq s) :
    KeepsR pq (execSmbClockLowTimeout ms s) := by
  unfold execSmbClockLowTimeout
  repeat' (first
    | with_reducible assumption | (with_reducible apply keepsR_next) | (intro _) | (lift_lets)
    | (with_reducible apply keeps_ite) | split | (dsimp only) | (simp only [keeps_mk]) | (dsimp +zetaDelta only))

end Sys2Proof.Machine
end

