-- ==== Sys2Proof/Laws/KeepsTick.lean ====
section
/-!
SUPPORT. The operations of Machine/Tick.lean keep memory canonical and the queue as it is.
-/

namespace Sys2Proof.Machine

theorem State.resolve_keeps {pq : State} (s : State) (b : Boundary) (hk : Keeps pq s) :
    Keeps pq (State.resolve s b) := by
  unfold State.resolve
  repeat' (first
    | with_reducible assumption | (with_reducible apply keeps_nextOr) | (with_reducible apply State.applyLoads_keeps)
    | (with_reducible apply State.applyPeers_keeps) | (with_reducible apply State.coreDies_keeps)
    | (with_reducible apply State.coreJoins_keeps) | (with_reducible apply State.dropBoundary_keeps)
    | (with_reducible apply execDebugUnlock_keeps) | (with_reducible apply execSafeEntry_keeps)
    | (with_reducible apply State.freeHeldWhere_keeps) | (with_reducible apply State.loseStack_keeps)
    | (with_reducible apply State.noteReady_keeps) | (with_reducible apply State.peerDead_keeps)
    | (with_reducible apply State.quarantineModel_keeps) | (with_reducible apply State.restoreModel_keeps)
    | (with_reducible apply State.seqEnds_keeps) | (with_reducible apply State.spindleDies_keeps)
    | (with_reducible apply State.teardown_keeps) | (with_reducible apply State.whenServing_keeps)
    | (intro _ (_ : Keeps _ _)) | (intro _ _ (_ : Keeps _ _)) | (intro _) | (lift_lets)
    | (with_reducible apply keeps_ite) | split | (dsimp only))

theorem State.resolveAll_keeps {pq : State} (s : State) (hk : Keeps pq s) :
    Keeps pq (State.resolveAll s) := by
  unfold State.resolveAll
  repeat' (first
    | with_reducible assumption | (with_reducible apply keeps_foldl) | (with_reducible apply State.cfgApply_keeps)
    | (with_reducible apply State.resolve_keeps) | (intro _ (_ : Keeps _ _)) | (intro _ _ (_ : Keeps _ _))
    | (intro w; refine @keeps_cut pq _ w ?_ ?_; unfold w) | (intro _) | (lift_lets) | (with_reducible apply keeps_ite)
    | split | (dsimp only) | (dsimp +zetaDelta only))

theorem State.fallDue_keeps {pq : State} (s : State) (hk : Keeps pq s) :
    Keeps pq (State.fallDue s) := by
  unfold State.fallDue
  repeat' (first
    | with_reducible assumption | (with_reducible apply State.resolveAll_keeps)
    | (intro w; refine @keeps_cut pq _ w ?_ ?_; unfold w) | (intro _) | (lift_lets) | (with_reducible apply keeps_ite)
    | split | (dsimp only) | (simp only [keeps_mk]) | (dsimp +zetaDelta only))

theorem State.tickOver_keeps {pq : State} (s : State) (hk : Keeps pq s) :
    Keeps pq (State.tickOver s) := by
  unfold State.tickOver
  repeat' (first
    | with_reducible assumption | (with_reducible apply State.fallDue_keeps)
    | (with_reducible apply State.tickBegins_keeps) | (dsimp only))

end Sys2Proof.Machine
end

