-- ==== Sys2Proof/Laws/State.lean ====
section
/-!
SUPPORT. The small lemmas of the state's updates: what each leaves as it is, field by field, and what it makes read back.
-/

namespace Sys2Proof.Machine

variable (s : State)


/-! ### setReg -/

@[simp] theorem State.setReg_pending (off : Nat) (v : Word) : (s.setReg off v).pending = s.pending := rfl
@[simp] theorem State.setReg_tick (off : Nat) (v : Word) : (s.setReg off v).tick = s.tick := rfl
@[simp] theorem State.setReg_mem (off : Nat) (v : Word) : (s.setReg off v).mem = s.mem := rfl
@[simp] theorem State.setReg_cores (off : Nat) (v : Word) : (s.setReg off v).cores = s.cores := rfl
@[simp] theorem State.setReg_phys (off : Nat) (v : Word) : (s.setReg off v).phys = s.phys := rfl
@[simp] theorem State.setReg_spads (off : Nat) (v : Word) : (s.setReg off v).spads = s.spads := rfl
@[simp] theorem State.setReg_tally (off : Nat) (v : Word) : (s.setReg off v).tally = s.tally := rfl
@[simp] theorem State.setReg_banks (off : Nat) (v : Word) : (s.setReg off v).banks = s.banks := rfl
@[simp] theorem State.setReg_spindles (off : Nat) (v : Word) : (s.setReg off v).spindles = s.spindles := rfl
@[simp] theorem State.setReg_rowLogic (off : Nat) (v : Word) : (s.setReg off v).rowLogic = s.rowLogic := rfl
@[simp] theorem State.setReg_skeins (off : Nat) (v : Word) : (s.setReg off v).skeins = s.skeins := rfl
@[simp] theorem State.setReg_serve (off : Nat) (v : Word) : (s.setReg off v).serve = s.serve := rfl
@[simp] theorem State.setReg_ctxs (off : Nat) (v : Word) : (s.setReg off v).ctxs = s.ctxs := rfl
@[simp] theorem State.setReg_txn (off : Nat) (v : Word) : (s.setReg off v).txn = s.txn := rfl
@[simp] theorem State.setReg_rel (off : Nat) (v : Word) : (s.setReg off v).rel = s.rel := rfl
@[simp] theorem State.setReg_pwr (off : Nat) (v : Word) : (s.setReg off v).pwr = s.pwr := rfl
@[simp] theorem State.setReg_winder (off : Nat) (v : Word) : (s.setReg off v).winder = s.winder := rfl
@[simp] theorem State.setReg_twine (off : Nat) (v : Word) : (s.setReg off v).twine = s.twine := rfl
@[simp] theorem State.setReg_trust (off : Nat) (v : Word) : (s.setReg off v).trust = s.trust := rfl
@[simp] theorem State.setReg_toHost (off : Nat) (v : Word) : (s.setReg off v).toHost = s.toHost := rfl
@[simp] theorem State.setReg_reply (off : Nat) (v : Word) : (s.setReg off v).reply = s.reply := rfl
@[simp] theorem State.setReg_drawn (off : Nat) (v : Word) : (s.setReg off v).drawn = s.drawn := rfl

/-! ### setFld -/

@[simp] theorem State.setFld_pending (off hi lo x : Nat) : (s.setFld off hi lo x).pending = s.pending := rfl
@[simp] theorem State.setFld_tick (off hi lo x : Nat) : (s.setFld off hi lo x).tick = s.tick := rfl
@[simp] theorem State.setFld_mem (off hi lo x : Nat) : (s.setFld off hi lo x).mem = s.mem := rfl
@[simp] theorem State.setFld_cores (off hi lo x : Nat) : (s.setFld off hi lo x).cores = s.cores := rfl
@[simp] theorem State.setFld_phys (off hi lo x : Nat) : (s.setFld off hi lo x).phys = s.phys := rfl
@[simp] theorem State.setFld_spads (off hi lo x : Nat) : (s.setFld off hi lo x).spads = s.spads := rfl
@[simp] theorem State.setFld_tally (off hi lo x : Nat) : (s.setFld off hi lo x).tally = s.tally := rfl
@[simp] theorem State.setFld_banks (off hi lo x : Nat) : (s.setFld off hi lo x).banks = s.banks := rfl
@[simp] theorem State.setFld_spindles (off hi lo x : Nat) : (s.setFld off hi lo x).spindles = s.spindles := rfl
@[simp] theorem State.setFld_rowLogic (off hi lo x : Nat) : (s.setFld off hi lo x).rowLogic = s.rowLogic := rfl
@[simp] theorem State.setFld_skeins (off hi lo x : Nat) : (s.setFld off hi lo x).skeins = s.skeins := rfl
@[simp] theorem State.setFld_serve (off hi lo x : Nat) : (s.setFld off hi lo x).serve = s.serve := rfl
@[simp] theorem State.setFld_ctxs (off hi lo x : Nat) : (s.setFld off hi lo x).ctxs = s.ctxs := rfl
@[simp] theorem State.setFld_txn (off hi lo x : Nat) : (s.setFld off hi lo x).txn = s.txn := rfl
@[simp] theorem State.setFld_rel (off hi lo x : Nat) : (s.setFld off hi lo x).rel = s.rel := rfl
@[simp] theorem State.setFld_pwr (off hi lo x : Nat) : (s.setFld off hi lo x).pwr = s.pwr := rfl
@[simp] theorem State.setFld_winder (off hi lo x : Nat) : (s.setFld off hi lo x).winder = s.winder := rfl
@[simp] theorem State.setFld_twine (off hi lo x : Nat) : (s.setFld off hi lo x).twine = s.twine := rfl
@[simp] theorem State.setFld_trust (off hi lo x : Nat) : (s.setFld off hi lo x).trust = s.trust := rfl
@[simp] theorem State.setFld_toHost (off hi lo x : Nat) : (s.setFld off hi lo x).toHost = s.toHost := rfl
@[simp] theorem State.setFld_reply (off hi lo x : Nat) : (s.setFld off hi lo x).reply = s.reply := rfl
@[simp] theorem State.setFld_drawn (off hi lo x : Nat) : (s.setFld off hi lo x).drawn = s.drawn := rfl

/-! ### bumpReg -/

@[simp] theorem State.bumpReg_pending (off n : Nat) : (s.bumpReg off n).pending = s.pending := rfl
@[simp] theorem State.bumpReg_tick (off n : Nat) : (s.bumpReg off n).tick = s.tick := rfl
@[simp] theorem State.bumpReg_mem (off n : Nat) : (s.bumpReg off n).mem = s.mem := rfl
@[simp] theorem State.bumpReg_cores (off n : Nat) : (s.bumpReg off n).cores = s.cores := rfl
@[simp] theorem State.bumpReg_phys (off n : Nat) : (s.bumpReg off n).phys = s.phys := rfl
@[simp] theorem State.bumpReg_spads (off n : Nat) : (s.bumpReg off n).spads = s.spads := rfl
@[simp] theorem State.bumpReg_tally (off n : Nat) : (s.bumpReg off n).tally = s.tally := rfl
@[simp] theorem State.bumpReg_banks (off n : Nat) : (s.bumpReg off n).banks = s.banks := rfl
@[simp] theorem State.bumpReg_spindles (off n : Nat) : (s.bumpReg off n).spindles = s.spindles := rfl
@[simp] theorem State.bumpReg_rowLogic (off n : Nat) : (s.bumpReg off n).rowLogic = s.rowLogic := rfl
@[simp] theorem State.bumpReg_skeins (off n : Nat) : (s.bumpReg off n).skeins = s.skeins := rfl
@[simp] theorem State.bumpReg_serve (off n : Nat) : (s.bumpReg off n).serve = s.serve := rfl
@[simp] theorem State.bumpReg_ctxs (off n : Nat) : (s.bumpReg off n).ctxs = s.ctxs := rfl
@[simp] theorem State.bumpReg_txn (off n : Nat) : (s.bumpReg off n).txn = s.txn := rfl
@[simp] theorem State.bumpReg_rel (off n : Nat) : (s.bumpReg off n).rel = s.rel := rfl
@[simp] theorem State.bumpReg_pwr (off n : Nat) : (s.bumpReg off n).pwr = s.pwr := rfl
@[simp] theorem State.bumpReg_winder (off n : Nat) : (s.bumpReg off n).winder = s.winder := rfl
@[simp] theorem State.bumpReg_twine (off n : Nat) : (s.bumpReg off n).twine = s.twine := rfl
@[simp] theorem State.bumpReg_trust (off n : Nat) : (s.bumpReg off n).trust = s.trust := rfl
@[simp] theorem State.bumpReg_toHost (off n : Nat) : (s.bumpReg off n).toHost = s.toHost := rfl
@[simp] theorem State.bumpReg_reply (off n : Nat) : (s.bumpReg off n).reply = s.reply := rfl
@[simp] theorem State.bumpReg_drawn (off n : Nat) : (s.bumpReg off n).drawn = s.drawn := rfl

/-! ### setCtx -/

@[simp] theorem State.setCtx_pending (c : Nat) (x : Ctxs) : (s.setCtx c x).pending = s.pending := rfl
@[simp] theorem State.setCtx_tick (c : Nat) (x : Ctxs) : (s.setCtx c x).tick = s.tick := rfl
@[simp] theorem State.setCtx_regs (c : Nat) (x : Ctxs) : (s.setCtx c x).regs = s.regs := rfl
@[simp] theorem State.setCtx_mem (c : Nat) (x : Ctxs) : (s.setCtx c x).mem = s.mem := rfl
@[simp] theorem State.setCtx_cores (c : Nat) (x : Ctxs) : (s.setCtx c x).cores = s.cores := rfl
@[simp] theorem State.setCtx_phys (c : Nat) (x : Ctxs) : (s.setCtx c x).phys = s.phys := rfl
@[simp] theorem State.setCtx_spads (c : Nat) (x : Ctxs) : (s.setCtx c x).spads = s.spads := rfl
@[simp] theorem State.setCtx_tally (c : Nat) (x : Ctxs) : (s.setCtx c x).tally = s.tally := rfl
@[simp] theorem State.setCtx_banks (c : Nat) (x : Ctxs) : (s.setCtx c x).banks = s.banks := rfl
@[simp] theorem State.setCtx_spindles (c : Nat) (x : Ctxs) : (s.setCtx c x).spindles = s.spindles := rfl
@[simp] theorem State.setCtx_rowLogic (c : Nat) (x : Ctxs) : (s.setCtx c x).rowLogic = s.rowLogic := rfl
@[simp] theorem State.setCtx_skeins (c : Nat) (x : Ctxs) : (s.setCtx c x).skeins = s.skeins := rfl
@[simp] theorem State.setCtx_serve (c : Nat) (x : Ctxs) : (s.setCtx c x).serve = s.serve := rfl
@[simp] theorem State.setCtx_txn (c : Nat) (x : Ctxs) : (s.setCtx c x).txn = s.txn := rfl
@[simp] theorem State.setCtx_rel (c : Nat) (x : Ctxs) : (s.setCtx c x).rel = s.rel := rfl
@[simp] theorem State.setCtx_pwr (c : Nat) (x : Ctxs) : (s.setCtx c x).pwr = s.pwr := rfl
@[simp] theorem State.setCtx_winder (c : Nat) (x : Ctxs) : (s.setCtx c x).winder = s.winder := rfl
@[simp] theorem State.setCtx_twine (c : Nat) (x : Ctxs) : (s.setCtx c x).twine = s.twine := rfl
@[simp] theorem State.setCtx_trust (c : Nat) (x : Ctxs) : (s.setCtx c x).trust = s.trust := rfl
@[simp] theorem State.setCtx_toHost (c : Nat) (x : Ctxs) : (s.setCtx c x).toHost = s.toHost := rfl
@[simp] theorem State.setCtx_reply (c : Nat) (x : Ctxs) : (s.setCtx c x).reply = s.reply := rfl
@[simp] theorem State.setCtx_drawn (c : Nat) (x : Ctxs) : (s.setCtx c x).drawn = s.drawn := rfl

/-! ### modCtx -/

@[simp] theorem State.modCtx_pending (c : Nat) (f : Ctxs → Ctxs) : (s.modCtx c f).pending = s.pending := rfl
@[simp] theorem State.modCtx_tick (c : Nat) (f : Ctxs → Ctxs) : (s.modCtx c f).tick = s.tick := rfl
@[simp] theorem State.modCtx_regs (c : Nat) (f : Ctxs → Ctxs) : (s.modCtx c f).regs = s.regs := rfl
@[simp] theorem State.modCtx_mem (c : Nat) (f : Ctxs → Ctxs) : (s.modCtx c f).mem = s.mem := rfl
@[simp] theorem State.modCtx_cores (c : Nat) (f : Ctxs → Ctxs) : (s.modCtx c f).cores = s.cores := rfl
@[simp] theorem State.modCtx_phys (c : Nat) (f : Ctxs → Ctxs) : (s.modCtx c f).phys = s.phys := rfl
@[simp] theorem State.modCtx_spads (c : Nat) (f : Ctxs → Ctxs) : (s.modCtx c f).spads = s.spads := rfl
@[simp] theorem State.modCtx_tally (c : Nat) (f : Ctxs → Ctxs) : (s.modCtx c f).tally = s.tally := rfl
@[simp] theorem State.modCtx_banks (c : Nat) (f : Ctxs → Ctxs) : (s.modCtx c f).banks = s.banks := rfl
@[simp] theorem State.modCtx_spindles (c : Nat) (f : Ctxs → Ctxs) : (s.modCtx c f).spindles = s.spindles := rfl
@[simp] theorem State.modCtx_rowLogic (c : Nat) (f : Ctxs → Ctxs) : (s.modCtx c f).rowLogic = s.rowLogic := rfl
@[simp] theorem State.modCtx_skeins (c : Nat) (f : Ctxs → Ctxs) : (s.modCtx c f).skeins = s.skeins := rfl
@[simp] theorem State.modCtx_serve (c : Nat) (f : Ctxs → Ctxs) : (s.modCtx c f).serve = s.serve := rfl
@[simp] theorem State.modCtx_txn (c : Nat) (f : Ctxs → Ctxs) : (s.modCtx c f).txn = s.txn := rfl
@[simp] theorem State.modCtx_rel (c : Nat) (f : Ctxs → Ctxs) : (s.modCtx c f).rel = s.rel := rfl
@[simp] theorem State.modCtx_pwr (c : Nat) (f : Ctxs → Ctxs) : (s.modCtx c f).pwr = s.pwr := rfl
@[simp] theorem State.modCtx_winder (c : Nat) (f : Ctxs → Ctxs) : (s.modCtx c f).winder = s.winder := rfl
@[simp] theorem State.modCtx_twine (c : Nat) (f : Ctxs → Ctxs) : (s.modCtx c f).twine = s.twine := rfl
@[simp] theorem State.modCtx_trust (c : Nat) (f : Ctxs → Ctxs) : (s.modCtx c f).trust = s.trust := rfl
@[simp] theorem State.modCtx_toHost (c : Nat) (f : Ctxs → Ctxs) : (s.modCtx c f).toHost = s.toHost := rfl
@[simp] theorem State.modCtx_reply (c : Nat) (f : Ctxs → Ctxs) : (s.modCtx c f).reply = s.reply := rfl
@[simp] theorem State.modCtx_drawn (c : Nat) (f : Ctxs → Ctxs) : (s.modCtx c f).drawn = s.drawn := rfl

/-! ### setCore -/

@[simp] theorem State.setCore_pending (c : Nat) (x : CoreSt) : (s.setCore c x).pending = s.pending := rfl
@[simp] theorem State.setCore_tick (c : Nat) (x : CoreSt) : (s.setCore c x).tick = s.tick := rfl
@[simp] theorem State.setCore_regs (c : Nat) (x : CoreSt) : (s.setCore c x).regs = s.regs := rfl
@[simp] theorem State.setCore_mem (c : Nat) (x : CoreSt) : (s.setCore c x).mem = s.mem := rfl
@[simp] theorem State.setCore_phys (c : Nat) (x : CoreSt) : (s.setCore c x).phys = s.phys := rfl
@[simp] theorem State.setCore_spads (c : Nat) (x : CoreSt) : (s.setCore c x).spads = s.spads := rfl
@[simp] theorem State.setCore_tally (c : Nat) (x : CoreSt) : (s.setCore c x).tally = s.tally := rfl
@[simp] theorem State.setCore_banks (c : Nat) (x : CoreSt) : (s.setCore c x).banks = s.banks := rfl
@[simp] theorem State.setCore_spindles (c : Nat) (x : CoreSt) : (s.setCore c x).spindles = s.spindles := rfl
@[simp] theorem State.setCore_rowLogic (c : Nat) (x : CoreSt) : (s.setCore c x).rowLogic = s.rowLogic := rfl
@[simp] theorem State.setCore_skeins (c : Nat) (x : CoreSt) : (s.setCore c x).skeins = s.skeins := rfl
@[simp] theorem State.setCore_serve (c : Nat) (x : CoreSt) : (s.setCore c x).serve = s.serve := rfl
@[simp] theorem State.setCore_ctxs (c : Nat) (x : CoreSt) : (s.setCore c x).ctxs = s.ctxs := rfl
@[simp] theorem State.setCore_txn (c : Nat) (x : CoreSt) : (s.setCore c x).txn = s.txn := rfl
@[simp] theorem State.setCore_rel (c : Nat) (x : CoreSt) : (s.setCore c x).rel = s.rel := rfl
@[simp] theorem State.setCore_pwr (c : Nat) (x : CoreSt) : (s.setCore c x).pwr = s.pwr := rfl
@[simp] theorem State.setCore_winder (c : Nat) (x : CoreSt) : (s.setCore c x).winder = s.winder := rfl
@[simp] theorem State.setCore_twine (c : Nat) (x : CoreSt) : (s.setCore c x).twine = s.twine := rfl
@[simp] theorem State.setCore_trust (c : Nat) (x : CoreSt) : (s.setCore c x).trust = s.trust := rfl
@[simp] theorem State.setCore_toHost (c : Nat) (x : CoreSt) : (s.setCore c x).toHost = s.toHost := rfl
@[simp] theorem State.setCore_reply (c : Nat) (x : CoreSt) : (s.setCore c x).reply = s.reply := rfl
@[simp] theorem State.setCore_drawn (c : Nat) (x : CoreSt) : (s.setCore c x).drawn = s.drawn := rfl

/-! ### modCore -/

@[simp] theorem State.modCore_pending (c : Nat) (f : CoreSt → CoreSt) : (s.modCore c f).pending = s.pending := rfl
@[simp] theorem State.modCore_tick (c : Nat) (f : CoreSt → CoreSt) : (s.modCore c f).tick = s.tick := rfl
@[simp] theorem State.modCore_regs (c : Nat) (f : CoreSt → CoreSt) : (s.modCore c f).regs = s.regs := rfl
@[simp] theorem State.modCore_mem (c : Nat) (f : CoreSt → CoreSt) : (s.modCore c f).mem = s.mem := rfl
@[simp] theorem State.modCore_phys (c : Nat) (f : CoreSt → CoreSt) : (s.modCore c f).phys = s.phys := rfl
@[simp] theorem State.modCore_spads (c : Nat) (f : CoreSt → CoreSt) : (s.modCore c f).spads = s.spads := rfl
@[simp] theorem State.modCore_tally (c : Nat) (f : CoreSt → CoreSt) : (s.modCore c f).tally = s.tally := rfl
@[simp] theorem State.modCore_banks (c : Nat) (f : CoreSt → CoreSt) : (s.modCore c f).banks = s.banks := rfl
@[simp] theorem State.modCore_spindles (c : Nat) (f : CoreSt → CoreSt) : (s.modCore c f).spindles = s.spindles := rfl
@[simp] theorem State.modCore_rowLogic (c : Nat) (f : CoreSt → CoreSt) : (s.modCore c f).rowLogic = s.rowLogic := rfl
@[simp] theorem State.modCore_skeins (c : Nat) (f : CoreSt → CoreSt) : (s.modCore c f).skeins = s.skeins := rfl
@[simp] theorem State.modCore_serve (c : Nat) (f : CoreSt → CoreSt) : (s.modCore c f).serve = s.serve := rfl
@[simp] theorem State.modCore_ctxs (c : Nat) (f : CoreSt → CoreSt) : (s.modCore c f).ctxs = s.ctxs := rfl
@[simp] theorem State.modCore_txn (c : Nat) (f : CoreSt → CoreSt) : (s.modCore c f).txn = s.txn := rfl
@[simp] theorem State.modCore_rel (c : Nat) (f : CoreSt → CoreSt) : (s.modCore c f).rel = s.rel := rfl
@[simp] theorem State.modCore_pwr (c : Nat) (f : CoreSt → CoreSt) : (s.modCore c f).pwr = s.pwr := rfl
@[simp] theorem State.modCore_winder (c : Nat) (f : CoreSt → CoreSt) : (s.modCore c f).winder = s.winder := rfl
@[simp] theorem State.modCore_twine (c : Nat) (f : CoreSt → CoreSt) : (s.modCore c f).twine = s.twine := rfl
@[simp] theorem State.modCore_trust (c : Nat) (f : CoreSt → CoreSt) : (s.modCore c f).trust = s.trust := rfl
@[simp] theorem State.modCore_toHost (c : Nat) (f : CoreSt → CoreSt) : (s.modCore c f).toHost = s.toHost := rfl
@[simp] theorem State.modCore_reply (c : Nat) (f : CoreSt → CoreSt) : (s.modCore c f).reply = s.reply := rfl
@[simp] theorem State.modCore_drawn (c : Nat) (f : CoreSt → CoreSt) : (s.modCore c f).drawn = s.drawn := rfl

/-! ### setStream -/

@[simp] theorem State.setStream_pending (c : Nat) (x : Option Stream) : (s.setStream c x).pending = s.pending := rfl
@[simp] theorem State.setStream_tick (c : Nat) (x : Option Stream) : (s.setStream c x).tick = s.tick := rfl
@[simp] theorem State.setStream_regs (c : Nat) (x : Option Stream) : (s.setStream c x).regs = s.regs := rfl
@[simp] theorem State.setStream_mem (c : Nat) (x : Option Stream) : (s.setStream c x).mem = s.mem := rfl
@[simp] theorem State.setStream_phys (c : Nat) (x : Option Stream) : (s.setStream c x).phys = s.phys := rfl
@[simp] theorem State.setStream_spads (c : Nat) (x : Option Stream) : (s.setStream c x).spads = s.spads := rfl
@[simp] theorem State.setStream_tally (c : Nat) (x : Option Stream) : (s.setStream c x).tally = s.tally := rfl
@[simp] theorem State.setStream_banks (c : Nat) (x : Option Stream) : (s.setStream c x).banks = s.banks := rfl
@[simp] theorem State.setStream_spindles (c : Nat) (x : Option Stream) : (s.setStream c x).spindles = s.spindles := rfl
@[simp] theorem State.setStream_rowLogic (c : Nat) (x : Option Stream) : (s.setStream c x).rowLogic = s.rowLogic := rfl
@[simp] theorem State.setStream_skeins (c : Nat) (x : Option Stream) : (s.setStream c x).skeins = s.skeins := rfl
@[simp] theorem State.setStream_serve (c : Nat) (x : Option Stream) : (s.setStream c x).serve = s.serve := rfl
@[simp] theorem State.setStream_ctxs (c : Nat) (x : Option Stream) : (s.setStream c x).ctxs = s.ctxs := rfl
@[simp] theorem State.setStream_txn (c : Nat) (x : Option Stream) : (s.setStream c x).txn = s.txn := rfl
@[simp] theorem State.setStream_rel (c : Nat) (x : Option Stream) : (s.setStream c x).rel = s.rel := rfl
@[simp] theorem State.setStream_pwr (c : Nat) (x : Option Stream) : (s.setStream c x).pwr = s.pwr := rfl
@[simp] theorem State.setStream_winder (c : Nat) (x : Option Stream) : (s.setStream c x).winder = s.winder := rfl
@[simp] theorem State.setStream_twine (c : Nat) (x : Option Stream) : (s.setStream c x).twine = s.twine := rfl
@[simp] theorem State.setStream_trust (c : Nat) (x : Option Stream) : (s.setStream c x).trust = s.trust := rfl
@[simp] theorem State.setStream_toHost (c : Nat) (x : Option Stream) : (s.setStream c x).toHost = s.toHost := rfl
@[simp] theorem State.setStream_reply (c : Nat) (x : Option Stream) : (s.setStream c x).reply = s.reply := rfl
@[simp] theorem State.setStream_drawn (c : Nat) (x : Option Stream) : (s.setStream c x).drawn = s.drawn := rfl

/-! ### closeStream -/

@[simp] theorem State.closeStream_pending (c : Nat) (x : Stream) : (s.closeStream c x).pending = s.pending := rfl
@[simp] theorem State.closeStream_tick (c : Nat) (x : Stream) : (s.closeStream c x).tick = s.tick := rfl
@[simp] theorem State.closeStream_regs (c : Nat) (x : Stream) : (s.closeStream c x).regs = s.regs := rfl
@[simp] theorem State.closeStream_mem (c : Nat) (x : Stream) : (s.closeStream c x).mem = s.mem := rfl
@[simp] theorem State.closeStream_phys (c : Nat) (x : Stream) : (s.closeStream c x).phys = s.phys := rfl
@[simp] theorem State.closeStream_spads (c : Nat) (x : Stream) : (s.closeStream c x).spads = s.spads := rfl
@[simp] theorem State.closeStream_tally (c : Nat) (x : Stream) : (s.closeStream c x).tally = s.tally := rfl
@[simp] theorem State.closeStream_banks (c : Nat) (x : Stream) : (s.closeStream c x).banks = s.banks := rfl
@[simp] theorem State.closeStream_spindles (c : Nat) (x : Stream) : (s.closeStream c x).spindles = s.spindles := rfl
@[simp] theorem State.closeStream_rowLogic (c : Nat) (x : Stream) : (s.closeStream c x).rowLogic = s.rowLogic := rfl
@[simp] theorem State.closeStream_skeins (c : Nat) (x : Stream) : (s.closeStream c x).skeins = s.skeins := rfl
@[simp] theorem State.closeStream_serve (c : Nat) (x : Stream) : (s.closeStream c x).serve = s.serve := rfl
@[simp] theorem State.closeStream_ctxs (c : Nat) (x : Stream) : (s.closeStream c x).ctxs = s.ctxs := rfl
@[simp] theorem State.closeStream_txn (c : Nat) (x : Stream) : (s.closeStream c x).txn = s.txn := rfl
@[simp] theorem State.closeStream_rel (c : Nat) (x : Stream) : (s.closeStream c x).rel = s.rel := rfl
@[simp] theorem State.closeStream_pwr (c : Nat) (x : Stream) : (s.closeStream c x).pwr = s.pwr := rfl
@[simp] theorem State.closeStream_winder (c : Nat) (x : Stream) : (s.closeStream c x).winder = s.winder := rfl
@[simp] theorem State.closeStream_twine (c : Nat) (x : Stream) : (s.closeStream c x).twine = s.twine := rfl
@[simp] theorem State.closeStream_trust (c : Nat) (x : Stream) : (s.closeStream c x).trust = s.trust := rfl
@[simp] theorem State.closeStream_toHost (c : Nat) (x : Stream) : (s.closeStream c x).toHost = s.toHost := rfl
@[simp] theorem State.closeStream_reply (c : Nat) (x : Stream) : (s.closeStream c x).reply = s.reply := rfl
@[simp] theorem State.closeStream_drawn (c : Nat) (x : Stream) : (s.closeStream c x).drawn = s.drawn := rfl

/-! ### setPhys -/

@[simp] theorem State.setPhys_pending (p : Nat) (x : Phys) : (s.setPhys p x).pending = s.pending := rfl
@[simp] theorem State.setPhys_tick (p : Nat) (x : Phys) : (s.setPhys p x).tick = s.tick := rfl
@[simp] theorem State.setPhys_regs (p : Nat) (x : Phys) : (s.setPhys p x).regs = s.regs := rfl
@[simp] theorem State.setPhys_mem (p : Nat) (x : Phys) : (s.setPhys p x).mem = s.mem := rfl
@[simp] theorem State.setPhys_cores (p : Nat) (x : Phys) : (s.setPhys p x).cores = s.cores := rfl
@[simp] theorem State.setPhys_spads (p : Nat) (x : Phys) : (s.setPhys p x).spads = s.spads := rfl
@[simp] theorem State.setPhys_tally (p : Nat) (x : Phys) : (s.setPhys p x).tally = s.tally := rfl
@[simp] theorem State.setPhys_banks (p : Nat) (x : Phys) : (s.setPhys p x).banks = s.banks := rfl
@[simp] theorem State.setPhys_spindles (p : Nat) (x : Phys) : (s.setPhys p x).spindles = s.spindles := rfl
@[simp] theorem State.setPhys_rowLogic (p : Nat) (x : Phys) : (s.setPhys p x).rowLogic = s.rowLogic := rfl
@[simp] theorem State.setPhys_skeins (p : Nat) (x : Phys) : (s.setPhys p x).skeins = s.skeins := rfl
@[simp] theorem State.setPhys_serve (p : Nat) (x : Phys) : (s.setPhys p x).serve = s.serve := rfl
@[simp] theorem State.setPhys_ctxs (p : Nat) (x : Phys) : (s.setPhys p x).ctxs = s.ctxs := rfl
@[simp] theorem State.setPhys_txn (p : Nat) (x : Phys) : (s.setPhys p x).txn = s.txn := rfl
@[simp] theorem State.setPhys_rel (p : Nat) (x : Phys) : (s.setPhys p x).rel = s.rel := rfl
@[simp] theorem State.setPhys_pwr (p : Nat) (x : Phys) : (s.setPhys p x).pwr = s.pwr := rfl
@[simp] theorem State.setPhys_winder (p : Nat) (x : Phys) : (s.setPhys p x).winder = s.winder := rfl
@[simp] theorem State.setPhys_twine (p : Nat) (x : Phys) : (s.setPhys p x).twine = s.twine := rfl
@[simp] theorem State.setPhys_trust (p : Nat) (x : Phys) : (s.setPhys p x).trust = s.trust := rfl
@[simp] theorem State.setPhys_toHost (p : Nat) (x : Phys) : (s.setPhys p x).toHost = s.toHost := rfl
@[simp] theorem State.setPhys_reply (p : Nat) (x : Phys) : (s.setPhys p x).reply = s.reply := rfl
@[simp] theorem State.setPhys_drawn (p : Nat) (x : Phys) : (s.setPhys p x).drawn = s.drawn := rfl

/-! ### setSpindle -/

@[simp] theorem State.setSpindle_pending (n : Nat) (x : Spindle) : (s.setSpindle n x).pending = s.pending := rfl
@[simp] theorem State.setSpindle_tick (n : Nat) (x : Spindle) : (s.setSpindle n x).tick = s.tick := rfl
@[simp] theorem State.setSpindle_regs (n : Nat) (x : Spindle) : (s.setSpindle n x).regs = s.regs := rfl
@[simp] theorem State.setSpindle_mem (n : Nat) (x : Spindle) : (s.setSpindle n x).mem = s.mem := rfl
@[simp] theorem State.setSpindle_cores (n : Nat) (x : Spindle) : (s.setSpindle n x).cores = s.cores := rfl
@[simp] theorem State.setSpindle_phys (n : Nat) (x : Spindle) : (s.setSpindle n x).phys = s.phys := rfl
@[simp] theorem State.setSpindle_spads (n : Nat) (x : Spindle) : (s.setSpindle n x).spads = s.spads := rfl
@[simp] theorem State.setSpindle_tally (n : Nat) (x : Spindle) : (s.setSpindle n x).tally = s.tally := rfl
@[simp] theorem State.setSpindle_banks (n : Nat) (x : Spindle) : (s.setSpindle n x).banks = s.banks := rfl
@[simp] theorem State.setSpindle_rowLogic (n : Nat) (x : Spindle) : (s.setSpindle n x).rowLogic = s.rowLogic := rfl
@[simp] theorem State.setSpindle_skeins (n : Nat) (x : Spindle) : (s.setSpindle n x).skeins = s.skeins := rfl
@[simp] theorem State.setSpindle_serve (n : Nat) (x : Spindle) : (s.setSpindle n x).serve = s.serve := rfl
@[simp] theorem State.setSpindle_ctxs (n : Nat) (x : Spindle) : (s.setSpindle n x).ctxs = s.ctxs := rfl
@[simp] theorem State.setSpindle_txn (n : Nat) (x : Spindle) : (s.setSpindle n x).txn = s.txn := rfl
@[simp] theorem State.setSpindle_rel (n : Nat) (x : Spindle) : (s.setSpindle n x).rel = s.rel := rfl
@[simp] theorem State.setSpindle_pwr (n : Nat) (x : Spindle) : (s.setSpindle n x).pwr = s.pwr := rfl
@[simp] theorem State.setSpindle_winder (n : Nat) (x : Spindle) : (s.setSpindle n x).winder = s.winder := rfl
@[simp] theorem State.setSpindle_twine (n : Nat) (x : Spindle) : (s.setSpindle n x).twine = s.twine := rfl
@[simp] theorem State.setSpindle_trust (n : Nat) (x : Spindle) : (s.setSpindle n x).trust = s.trust := rfl
@[simp] theorem State.setSpindle_toHost (n : Nat) (x : Spindle) : (s.setSpindle n x).toHost = s.toHost := rfl
@[simp] theorem State.setSpindle_reply (n : Nat) (x : Spindle) : (s.setSpindle n x).reply = s.reply := rfl
@[simp] theorem State.setSpindle_drawn (n : Nat) (x : Spindle) : (s.setSpindle n x).drawn = s.drawn := rfl

/-! ### setRow -/

@[simp] theorem State.setRow_pending (k : Nat) (x : StackRow) : (s.setRow k x).pending = s.pending := rfl
@[simp] theorem State.setRow_tick (k : Nat) (x : StackRow) : (s.setRow k x).tick = s.tick := rfl
@[simp] theorem State.setRow_regs (k : Nat) (x : StackRow) : (s.setRow k x).regs = s.regs := rfl
@[simp] theorem State.setRow_mem (k : Nat) (x : StackRow) : (s.setRow k x).mem = s.mem := rfl
@[simp] theorem State.setRow_cores (k : Nat) (x : StackRow) : (s.setRow k x).cores = s.cores := rfl
@[simp] theorem State.setRow_phys (k : Nat) (x : StackRow) : (s.setRow k x).phys = s.phys := rfl
@[simp] theorem State.setRow_spads (k : Nat) (x : StackRow) : (s.setRow k x).spads = s.spads := rfl
@[simp] theorem State.setRow_tally (k : Nat) (x : StackRow) : (s.setRow k x).tally = s.tally := rfl
@[simp] theorem State.setRow_banks (k : Nat) (x : StackRow) : (s.setRow k x).banks = s.banks := rfl
@[simp] theorem State.setRow_spindles (k : Nat) (x : StackRow) : (s.setRow k x).spindles = s.spindles := rfl
@[simp] theorem State.setRow_skeins (k : Nat) (x : StackRow) : (s.setRow k x).skeins = s.skeins := rfl
@[simp] theorem State.setRow_serve (k : Nat) (x : StackRow) : (s.setRow k x).serve = s.serve := rfl
@[simp] theorem State.setRow_ctxs (k : Nat) (x : StackRow) : (s.setRow k x).ctxs = s.ctxs := rfl
@[simp] theorem State.setRow_txn (k : Nat) (x : StackRow) : (s.setRow k x).txn = s.txn := rfl
@[simp] theorem State.setRow_rel (k : Nat) (x : StackRow) : (s.setRow k x).rel = s.rel := rfl
@[simp] theorem State.setRow_pwr (k : Nat) (x : StackRow) : (s.setRow k x).pwr = s.pwr := rfl
@[simp] theorem State.setRow_winder (k : Nat) (x : StackRow) : (s.setRow k x).winder = s.winder := rfl
@[simp] theorem State.setRow_twine (k : Nat) (x : StackRow) : (s.setRow k x).twine = s.twine := rfl
@[simp] theorem State.setRow_trust (k : Nat) (x : StackRow) : (s.setRow k x).trust = s.trust := rfl
@[simp] theorem State.setRow_toHost (k : Nat) (x : StackRow) : (s.setRow k x).toHost = s.toHost := rfl
@[simp] theorem State.setRow_reply (k : Nat) (x : StackRow) : (s.setRow k x).reply = s.reply := rfl
@[simp] theorem State.setRow_drawn (k : Nat) (x : StackRow) : (s.setRow k x).drawn = s.drawn := rfl

/-! ### tcAdd -/

@[simp] theorem State.tcAdd_pending (k n : Nat) : (s.tcAdd k n).pending = s.pending := rfl
@[simp] theorem State.tcAdd_tick (k n : Nat) : (s.tcAdd k n).tick = s.tick := rfl
@[simp] theorem State.tcAdd_regs (k n : Nat) : (s.tcAdd k n).regs = s.regs := rfl
@[simp] theorem State.tcAdd_mem (k n : Nat) : (s.tcAdd k n).mem = s.mem := rfl
@[simp] theorem State.tcAdd_cores (k n : Nat) : (s.tcAdd k n).cores = s.cores := rfl
@[simp] theorem State.tcAdd_phys (k n : Nat) : (s.tcAdd k n).phys = s.phys := rfl
@[simp] theorem State.tcAdd_spads (k n : Nat) : (s.tcAdd k n).spads = s.spads := rfl
@[simp] theorem State.tcAdd_banks (k n : Nat) : (s.tcAdd k n).banks = s.banks := rfl
@[simp] theorem State.tcAdd_spindles (k n : Nat) : (s.tcAdd k n).spindles = s.spindles := rfl
@[simp] theorem State.tcAdd_rowLogic (k n : Nat) : (s.tcAdd k n).rowLogic = s.rowLogic := rfl
@[simp] theorem State.tcAdd_skeins (k n : Nat) : (s.tcAdd k n).skeins = s.skeins := rfl
@[simp] theorem State.tcAdd_serve (k n : Nat) : (s.tcAdd k n).serve = s.serve := rfl
@[simp] theorem State.tcAdd_ctxs (k n : Nat) : (s.tcAdd k n).ctxs = s.ctxs := rfl
@[simp] theorem State.tcAdd_txn (k n : Nat) : (s.tcAdd k n).txn = s.txn := rfl
@[simp] theorem State.tcAdd_rel (k n : Nat) : (s.tcAdd k n).rel = s.rel := rfl
@[simp] theorem State.tcAdd_pwr (k n : Nat) : (s.tcAdd k n).pwr = s.pwr := rfl
@[simp] theorem State.tcAdd_winder (k n : Nat) : (s.tcAdd k n).winder = s.winder := rfl
@[simp] theorem State.tcAdd_twine (k n : Nat) : (s.tcAdd k n).twine = s.twine := rfl
@[simp] theorem State.tcAdd_trust (k n : Nat) : (s.tcAdd k n).trust = s.trust := rfl
@[simp] theorem State.tcAdd_toHost (k n : Nat) : (s.tcAdd k n).toHost = s.toHost := rfl
@[simp] theorem State.tcAdd_reply (k n : Nat) : (s.tcAdd k n).reply = s.reply := rfl
@[simp] theorem State.tcAdd_drawn (k n : Nat) : (s.tcAdd k n).drawn = s.drawn := rfl

/-! ### send -/

@[simp] theorem State.send_pending (m : HostMsg) : (s.send m).pending = s.pending := rfl
@[simp] theorem State.send_tick (m : HostMsg) : (s.send m).tick = s.tick := rfl
@[simp] theorem State.send_regs (m : HostMsg) : (s.send m).regs = s.regs := rfl
@[simp] theorem State.send_mem (m : HostMsg) : (s.send m).mem = s.mem := rfl
@[simp] theorem State.send_cores (m : HostMsg) : (s.send m).cores = s.cores := rfl
@[simp] theorem State.send_phys (m : HostMsg) : (s.send m).phys = s.phys := rfl
@[simp] theorem State.send_spads (m : HostMsg) : (s.send m).spads = s.spads := rfl
@[simp] theorem State.send_tally (m : HostMsg) : (s.send m).tally = s.tally := rfl
@[simp] theorem State.send_banks (m : HostMsg) : (s.send m).banks = s.banks := rfl
@[simp] theorem State.send_spindles (m : HostMsg) : (s.send m).spindles = s.spindles := rfl
@[simp] theorem State.send_rowLogic (m : HostMsg) : (s.send m).rowLogic = s.rowLogic := rfl
@[simp] theorem State.send_skeins (m : HostMsg) : (s.send m).skeins = s.skeins := rfl
@[simp] theorem State.send_serve (m : HostMsg) : (s.send m).serve = s.serve := rfl
@[simp] theorem State.send_ctxs (m : HostMsg) : (s.send m).ctxs = s.ctxs := rfl
@[simp] theorem State.send_txn (m : HostMsg) : (s.send m).txn = s.txn := rfl
@[simp] theorem State.send_rel (m : HostMsg) : (s.send m).rel = s.rel := rfl
@[simp] theorem State.send_pwr (m : HostMsg) : (s.send m).pwr = s.pwr := rfl
@[simp] theorem State.send_winder (m : HostMsg) : (s.send m).winder = s.winder := rfl
@[simp] theorem State.send_twine (m : HostMsg) : (s.send m).twine = s.twine := rfl
@[simp] theorem State.send_trust (m : HostMsg) : (s.send m).trust = s.trust := rfl
@[simp] theorem State.send_reply (m : HostMsg) : (s.send m).reply = s.reply := rfl
@[simp] theorem State.send_drawn (m : HostMsg) : (s.send m).drawn = s.drawn := rfl

/-! ### setModel -/

@[simp] theorem State.setModel_pending (m : Nat) (x : Option Model) : (s.setModel m x).pending = s.pending := rfl
@[simp] theorem State.setModel_tick (m : Nat) (x : Option Model) : (s.setModel m x).tick = s.tick := rfl
@[simp] theorem State.setModel_regs (m : Nat) (x : Option Model) : (s.setModel m x).regs = s.regs := rfl
@[simp] theorem State.setModel_mem (m : Nat) (x : Option Model) : (s.setModel m x).mem = s.mem := rfl
@[simp] theorem State.setModel_cores (m : Nat) (x : Option Model) : (s.setModel m x).cores = s.cores := rfl
@[simp] theorem State.setModel_phys (m : Nat) (x : Option Model) : (s.setModel m x).phys = s.phys := rfl
@[simp] theorem State.setModel_spads (m : Nat) (x : Option Model) : (s.setModel m x).spads = s.spads := rfl
@[simp] theorem State.setModel_tally (m : Nat) (x : Option Model) : (s.setModel m x).tally = s.tally := rfl
@[simp] theorem State.setModel_banks (m : Nat) (x : Option Model) : (s.setModel m x).banks = s.banks := rfl
@[simp] theorem State.setModel_spindles (m : Nat) (x : Option Model) : (s.setModel m x).spindles = s.spindles := rfl
@[simp] theorem State.setModel_rowLogic (m : Nat) (x : Option Model) : (s.setModel m x).rowLogic = s.rowLogic := rfl
@[simp] theorem State.setModel_skeins (m : Nat) (x : Option Model) : (s.setModel m x).skeins = s.skeins := rfl
@[simp] theorem State.setModel_ctxs (m : Nat) (x : Option Model) : (s.setModel m x).ctxs = s.ctxs := rfl
@[simp] theorem State.setModel_txn (m : Nat) (x : Option Model) : (s.setModel m x).txn = s.txn := rfl
@[simp] theorem State.setModel_rel (m : Nat) (x : Option Model) : (s.setModel m x).rel = s.rel := rfl
@[simp] theorem State.setModel_pwr (m : Nat) (x : Option Model) : (s.setModel m x).pwr = s.pwr := rfl
@[simp] theorem State.setModel_winder (m : Nat) (x : Option Model) : (s.setModel m x).winder = s.winder := rfl
@[simp] theorem State.setModel_twine (m : Nat) (x : Option Model) : (s.setModel m x).twine = s.twine := rfl
@[simp] theorem State.setModel_trust (m : Nat) (x : Option Model) : (s.setModel m x).trust = s.trust := rfl
@[simp] theorem State.setModel_toHost (m : Nat) (x : Option Model) : (s.setModel m x).toHost = s.toHost := rfl
@[simp] theorem State.setModel_reply (m : Nat) (x : Option Model) : (s.setModel m x).reply = s.reply := rfl
@[simp] theorem State.setModel_drawn (m : Nat) (x : Option Model) : (s.setModel m x).drawn = s.drawn := rfl

/-! ### putSkein -/

@[simp] theorem State.putSkein_pending (h : Nat) (e : Skein) : (s.putSkein h e).pending = s.pending := rfl
@[simp] theorem State.putSkein_tick (h : Nat) (e : Skein) : (s.putSkein h e).tick = s.tick := rfl
@[simp] theorem State.putSkein_regs (h : Nat) (e : Skein) : (s.putSkein h e).regs = s.regs := rfl
@[simp] theorem State.putSkein_mem (h : Nat) (e : Skein) : (s.putSkein h e).mem = s.mem := rfl
@[simp] theorem State.putSkein_cores (h : Nat) (e : Skein) : (s.putSkein h e).cores = s.cores := rfl
@[simp] theorem State.putSkein_phys (h : Nat) (e : Skein) : (s.putSkein h e).phys = s.phys := rfl
@[simp] theorem State.putSkein_spads (h : Nat) (e : Skein) : (s.putSkein h e).spads = s.spads := rfl
@[simp] theorem State.putSkein_tally (h : Nat) (e : Skein) : (s.putSkein h e).tally = s.tally := rfl
@[simp] theorem State.putSkein_banks (h : Nat) (e : Skein) : (s.putSkein h e).banks = s.banks := rfl
@[simp] theorem State.putSkein_spindles (h : Nat) (e : Skein) : (s.putSkein h e).spindles = s.spindles := rfl
@[simp] theorem State.putSkein_rowLogic (h : Nat) (e : Skein) : (s.putSkein h e).rowLogic = s.rowLogic := rfl
@[simp] theorem State.putSkein_serve (h : Nat) (e : Skein) : (s.putSkein h e).serve = s.serve := rfl
@[simp] theorem State.putSkein_ctxs (h : Nat) (e : Skein) : (s.putSkein h e).ctxs = s.ctxs := rfl
@[simp] theorem State.putSkein_txn (h : Nat) (e : Skein) : (s.putSkein h e).txn = s.txn := rfl
@[simp] theorem State.putSkein_rel (h : Nat) (e : Skein) : (s.putSkein h e).rel = s.rel := rfl
@[simp] theorem State.putSkein_pwr (h : Nat) (e : Skein) : (s.putSkein h e).pwr = s.pwr := rfl
@[simp] theorem State.putSkein_winder (h : Nat) (e : Skein) : (s.putSkein h e).winder = s.winder := rfl
@[simp] theorem State.putSkein_twine (h : Nat) (e : Skein) : (s.putSkein h e).twine = s.twine := rfl
@[simp] theorem State.putSkein_trust (h : Nat) (e : Skein) : (s.putSkein h e).trust = s.trust := rfl
@[simp] theorem State.putSkein_toHost (h : Nat) (e : Skein) : (s.putSkein h e).toHost = s.toHost := rfl
@[simp] theorem State.putSkein_reply (h : Nat) (e : Skein) : (s.putSkein h e).reply = s.reply := rfl
@[simp] theorem State.putSkein_drawn (h : Nat) (e : Skein) : (s.putSkein h e).drawn = s.drawn := rfl

/-! ### setOwner -/

@[simp] theorem State.setOwner_pending (b v : Nat) : (s.setOwner b v).pending = s.pending := rfl
@[simp] theorem State.setOwner_tick (b v : Nat) : (s.setOwner b v).tick = s.tick := rfl
@[simp] theorem State.setOwner_regs (b v : Nat) : (s.setOwner b v).regs = s.regs := rfl
@[simp] theorem State.setOwner_mem (b v : Nat) : (s.setOwner b v).mem = s.mem := rfl
@[simp] theorem State.setOwner_cores (b v : Nat) : (s.setOwner b v).cores = s.cores := rfl
@[simp] theorem State.setOwner_phys (b v : Nat) : (s.setOwner b v).phys = s.phys := rfl
@[simp] theorem State.setOwner_spads (b v : Nat) : (s.setOwner b v).spads = s.spads := rfl
@[simp] theorem State.setOwner_tally (b v : Nat) : (s.setOwner b v).tally = s.tally := rfl
@[simp] theorem State.setOwner_banks (b v : Nat) : (s.setOwner b v).banks = s.banks := rfl
@[simp] theorem State.setOwner_spindles (b v : Nat) : (s.setOwner b v).spindles = s.spindles := rfl
@[simp] theorem State.setOwner_rowLogic (b v : Nat) : (s.setOwner b v).rowLogic = s.rowLogic := rfl
@[simp] theorem State.setOwner_serve (b v : Nat) : (s.setOwner b v).serve = s.serve := rfl
@[simp] theorem State.setOwner_ctxs (b v : Nat) : (s.setOwner b v).ctxs = s.ctxs := rfl
@[simp] theorem State.setOwner_txn (b v : Nat) : (s.setOwner b v).txn = s.txn := rfl
@[simp] theorem State.setOwner_rel (b v : Nat) : (s.setOwner b v).rel = s.rel := rfl
@[simp] theorem State.setOwner_pwr (b v : Nat) : (s.setOwner b v).pwr = s.pwr := rfl
@[simp] theorem State.setOwner_winder (b v : Nat) : (s.setOwner b v).winder = s.winder := rfl
@[simp] theorem State.setOwner_twine (b v : Nat) : (s.setOwner b v).twine = s.twine := rfl
@[simp] theorem State.setOwner_trust (b v : Nat) : (s.setOwner b v).trust = s.trust := rfl
@[simp] theorem State.setOwner_toHost (b v : Nat) : (s.setOwner b v).toHost = s.toHost := rfl
@[simp] theorem State.setOwner_reply (b v : Nat) : (s.setOwner b v).reply = s.reply := rfl
@[simp] theorem State.setOwner_drawn (b v : Nat) : (s.setOwner b v).drawn = s.drawn := rfl

/-! ### setDirty -/

@[simp] theorem State.setDirty_pending (b : Nat) : (s.setDirty b).pending = s.pending := rfl
@[simp] theorem State.setDirty_tick (b : Nat) : (s.setDirty b).tick = s.tick := rfl
@[simp] theorem State.setDirty_regs (b : Nat) : (s.setDirty b).regs = s.regs := rfl
@[simp] theorem State.setDirty_mem (b : Nat) : (s.setDirty b).mem = s.mem := rfl
@[simp] theorem State.setDirty_cores (b : Nat) : (s.setDirty b).cores = s.cores := rfl
@[simp] theorem State.setDirty_phys (b : Nat) : (s.setDirty b).phys = s.phys := rfl
@[simp] theorem State.setDirty_spads (b : Nat) : (s.setDirty b).spads = s.spads := rfl
@[simp] theorem State.setDirty_tally (b : Nat) : (s.setDirty b).tally = s.tally := rfl
@[simp] theorem State.setDirty_banks (b : Nat) : (s.setDirty b).banks = s.banks := rfl
@[simp] theorem State.setDirty_spindles (b : Nat) : (s.setDirty b).spindles = s.spindles := rfl
@[simp] theorem State.setDirty_rowLogic (b : Nat) : (s.setDirty b).rowLogic = s.rowLogic := rfl
@[simp] theorem State.setDirty_serve (b : Nat) : (s.setDirty b).serve = s.serve := rfl
@[simp] theorem State.setDirty_ctxs (b : Nat) : (s.setDirty b).ctxs = s.ctxs := rfl
@[simp] theorem State.setDirty_txn (b : Nat) : (s.setDirty b).txn = s.txn := rfl
@[simp] theorem State.setDirty_rel (b : Nat) : (s.setDirty b).rel = s.rel := rfl
@[simp] theorem State.setDirty_pwr (b : Nat) : (s.setDirty b).pwr = s.pwr := rfl
@[simp] theorem State.setDirty_winder (b : Nat) : (s.setDirty b).winder = s.winder := rfl
@[simp] theorem State.setDirty_twine (b : Nat) : (s.setDirty b).twine = s.twine := rfl
@[simp] theorem State.setDirty_trust (b : Nat) : (s.setDirty b).trust = s.trust := rfl
@[simp] theorem State.setDirty_toHost (b : Nat) : (s.setDirty b).toHost = s.toHost := rfl
@[simp] theorem State.setDirty_reply (b : Nat) : (s.setDirty b).reply = s.reply := rfl
@[simp] theorem State.setDirty_drawn (b : Nat) : (s.setDirty b).drawn = s.drawn := rfl

/-! ### setTaken -/

@[simp] theorem State.setTaken_pending (k : Nat) (t : Taken) : (s.setTaken k t).pending = s.pending := rfl
@[simp] theorem State.setTaken_tick (k : Nat) (t : Taken) : (s.setTaken k t).tick = s.tick := rfl
@[simp] theorem State.setTaken_regs (k : Nat) (t : Taken) : (s.setTaken k t).regs = s.regs := rfl
@[simp] theorem State.setTaken_mem (k : Nat) (t : Taken) : (s.setTaken k t).mem = s.mem := rfl
@[simp] theorem State.setTaken_cores (k : Nat) (t : Taken) : (s.setTaken k t).cores = s.cores := rfl
@[simp] theorem State.setTaken_phys (k : Nat) (t : Taken) : (s.setTaken k t).phys = s.phys := rfl
@[simp] theorem State.setTaken_spads (k : Nat) (t : Taken) : (s.setTaken k t).spads = s.spads := rfl
@[simp] theorem State.setTaken_tally (k : Nat) (t : Taken) : (s.setTaken k t).tally = s.tally := rfl
@[simp] theorem State.setTaken_banks (k : Nat) (t : Taken) : (s.setTaken k t).banks = s.banks := rfl
@[simp] theorem State.setTaken_spindles (k : Nat) (t : Taken) : (s.setTaken k t).spindles = s.spindles := rfl
@[simp] theorem State.setTaken_rowLogic (k : Nat) (t : Taken) : (s.setTaken k t).rowLogic = s.rowLogic := rfl
@[simp] theorem State.setTaken_skeins (k : Nat) (t : Taken) : (s.setTaken k t).skeins = s.skeins := rfl
@[simp] theorem State.setTaken_serve (k : Nat) (t : Taken) : (s.setTaken k t).serve = s.serve := rfl
@[simp] theorem State.setTaken_ctxs (k : Nat) (t : Taken) : (s.setTaken k t).ctxs = s.ctxs := rfl
@[simp] theorem State.setTaken_txn (k : Nat) (t : Taken) : (s.setTaken k t).txn = s.txn := rfl
@[simp] theorem State.setTaken_rel (k : Nat) (t : Taken) : (s.setTaken k t).rel = s.rel := rfl
@[simp] theorem State.setTaken_pwr (k : Nat) (t : Taken) : (s.setTaken k t).pwr = s.pwr := rfl
@[simp] theorem State.setTaken_winder (k : Nat) (t : Taken) : (s.setTaken k t).winder = s.winder := rfl
@[simp] theorem State.setTaken_trust (k : Nat) (t : Taken) : (s.setTaken k t).trust = s.trust := rfl
@[simp] theorem State.setTaken_toHost (k : Nat) (t : Taken) : (s.setTaken k t).toHost = s.toHost := rfl
@[simp] theorem State.setTaken_reply (k : Nat) (t : Taken) : (s.setTaken k t).reply = s.reply := rfl
@[simp] theorem State.setTaken_drawn (k : Nat) (t : Taken) : (s.setTaken k t).drawn = s.drawn := rfl

/-! ### setBankSt -/

@[simp] theorem State.setBankSt_pending (l : Loc) (b : BankSt) : (s.setBankSt l b).pending = s.pending := rfl
@[simp] theorem State.setBankSt_tick (l : Loc) (b : BankSt) : (s.setBankSt l b).tick = s.tick := rfl
@[simp] theorem State.setBankSt_regs (l : Loc) (b : BankSt) : (s.setBankSt l b).regs = s.regs := rfl
@[simp] theorem State.setBankSt_mem (l : Loc) (b : BankSt) : (s.setBankSt l b).mem = s.mem := rfl
@[simp] theorem State.setBankSt_cores (l : Loc) (b : BankSt) : (s.setBankSt l b).cores = s.cores := rfl
@[simp] theorem State.setBankSt_phys (l : Loc) (b : BankSt) : (s.setBankSt l b).phys = s.phys := rfl
@[simp] theorem State.setBankSt_spads (l : Loc) (b : BankSt) : (s.setBankSt l b).spads = s.spads := rfl
@[simp] theorem State.setBankSt_tally (l : Loc) (b : BankSt) : (s.setBankSt l b).tally = s.tally := rfl
@[simp] theorem State.setBankSt_banks (l : Loc) (b : BankSt) : (s.setBankSt l b).banks = s.banks := rfl
@[simp] theorem State.setBankSt_spindles (l : Loc) (b : BankSt) : (s.setBankSt l b).spindles = s.spindles := rfl
@[simp] theorem State.setBankSt_skeins (l : Loc) (b : BankSt) : (s.setBankSt l b).skeins = s.skeins := rfl
@[simp] theorem State.setBankSt_serve (l : Loc) (b : BankSt) : (s.setBankSt l b).serve = s.serve := rfl
@[simp] theorem State.setBankSt_ctxs (l : Loc) (b : BankSt) : (s.setBankSt l b).ctxs = s.ctxs := rfl
@[simp] theorem State.setBankSt_txn (l : Loc) (b : BankSt) : (s.setBankSt l b).txn = s.txn := rfl
@[simp] theorem State.setBankSt_rel (l : Loc) (b : BankSt) : (s.setBankSt l b).rel = s.rel := rfl
@[simp] theorem State.setBankSt_pwr (l : Loc) (b : BankSt) : (s.setBankSt l b).pwr = s.pwr := rfl
@[simp] theorem State.setBankSt_winder (l : Loc) (b : BankSt) : (s.setBankSt l b).winder = s.winder := rfl
@[simp] theorem State.setBankSt_twine (l : Loc) (b : BankSt) : (s.setBankSt l b).twine = s.twine := rfl
@[simp] theorem State.setBankSt_trust (l : Loc) (b : BankSt) : (s.setBankSt l b).trust = s.trust := rfl
@[simp] theorem State.setBankSt_toHost (l : Loc) (b : BankSt) : (s.setBankSt l b).toHost = s.toHost := rfl
@[simp] theorem State.setBankSt_reply (l : Loc) (b : BankSt) : (s.setBankSt l b).reply = s.reply := rfl
@[simp] theorem State.setBankSt_drawn (l : Loc) (b : BankSt) : (s.setBankSt l b).drawn = s.drawn := rfl

/-! ### setSsbLine -/

@[simp] theorem State.setSsbLine_pending (b off : Nat) (d chk : List Nat) : (s.setSsbLine b off d chk).pending = s.pending := rfl
@[simp] theorem State.setSsbLine_tick (b off : Nat) (d chk : List Nat) : (s.setSsbLine b off d chk).tick = s.tick := rfl
@[simp] theorem State.setSsbLine_regs (b off : Nat) (d chk : List Nat) : (s.setSsbLine b off d chk).regs = s.regs := rfl
@[simp] theorem State.setSsbLine_mem (b off : Nat) (d chk : List Nat) : (s.setSsbLine b off d chk).mem = s.mem := rfl
@[simp] theorem State.setSsbLine_cores (b off : Nat) (d chk : List Nat) : (s.setSsbLine b off d chk).cores = s.cores := rfl
@[simp] theorem State.setSsbLine_phys (b off : Nat) (d chk : List Nat) : (s.setSsbLine b off d chk).phys = s.phys := rfl
@[simp] theorem State.setSsbLine_spads (b off : Nat) (d chk : List Nat) : (s.setSsbLine b off d chk).spads = s.spads := rfl
@[simp] theorem State.setSsbLine_tally (b off : Nat) (d chk : List Nat) : (s.setSsbLine b off d chk).tally = s.tally := rfl
@[simp] theorem State.setSsbLine_banks (b off : Nat) (d chk : List Nat) : (s.setSsbLine b off d chk).banks = s.banks := rfl
@[simp] theorem State.setSsbLine_spindles (b off : Nat) (d chk : List Nat) : (s.setSsbLine b off d chk).spindles = s.spindles := rfl
@[simp] theorem State.setSsbLine_rowLogic (b off : Nat) (d chk : List Nat) : (s.setSsbLine b off d chk).rowLogic = s.rowLogic := rfl
@[simp] theorem State.setSsbLine_skeins (b off : Nat) (d chk : List Nat) : (s.setSsbLine b off d chk).skeins = s.skeins := rfl
@[simp] theorem State.setSsbLine_serve (b off : Nat) (d chk : List Nat) : (s.setSsbLine b off d chk).serve = s.serve := rfl
@[simp] theorem State.setSsbLine_ctxs (b off : Nat) (d chk : List Nat) : (s.setSsbLine b off d chk).ctxs = s.ctxs := rfl
@[simp] theorem State.setSsbLine_txn (b off : Nat) (d chk : List Nat) : (s.setSsbLine b off d chk).txn = s.txn := rfl
@[simp] theorem State.setSsbLine_pwr (b off : Nat) (d chk : List Nat) : (s.setSsbLine b off d chk).pwr = s.pwr := rfl
@[simp] theorem State.setSsbLine_winder (b off : Nat) (d chk : List Nat) : (s.setSsbLine b off d chk).winder = s.winder := rfl
@[simp] theorem State.setSsbLine_twine (b off : Nat) (d chk : List Nat) : (s.setSsbLine b off d chk).twine = s.twine := rfl
@[simp] theorem State.setSsbLine_trust (b off : Nat) (d chk : List Nat) : (s.setSsbLine b off d chk).trust = s.trust := rfl
@[simp] theorem State.setSsbLine_toHost (b off : Nat) (d chk : List Nat) : (s.setSsbLine b off d chk).toHost = s.toHost := rfl
@[simp] theorem State.setSsbLine_reply (b off : Nat) (d chk : List Nat) : (s.setSsbLine b off d chk).reply = s.reply := rfl
@[simp] theorem State.setSsbLine_drawn (b off : Nat) (d chk : List Nat) : (s.setSsbLine b off d chk).drawn = s.drawn := rfl

/-! ### setSpadUnit -/

@[simp] theorem State.setSpadUnit_pending (p unit : Nat) (d chk : List Nat) : (s.setSpadUnit p unit d chk).pending = s.pending := rfl
@[simp] theorem State.setSpadUnit_tick (p unit : Nat) (d chk : List Nat) : (s.setSpadUnit p unit d chk).tick = s.tick := rfl
@[simp] theorem State.setSpadUnit_regs (p unit : Nat) (d chk : List Nat) : (s.setSpadUnit p unit d chk).regs = s.regs := rfl
@[simp] theorem State.setSpadUnit_mem (p unit : Nat) (d chk : List Nat) : (s.setSpadUnit p unit d chk).mem = s.mem := rfl
@[simp] theorem State.setSpadUnit_cores (p unit : Nat) (d chk : List Nat) : (s.setSpadUnit p unit d chk).cores = s.cores := rfl
@[simp] theorem State.setSpadUnit_phys (p unit : Nat) (d chk : List Nat) : (s.setSpadUnit p unit d chk).phys = s.phys := rfl
@[simp] theorem State.setSpadUnit_tally (p unit : Nat) (d chk : List Nat) : (s.setSpadUnit p unit d chk).tally = s.tally := rfl
@[simp] theorem State.setSpadUnit_banks (p unit : Nat) (d chk : List Nat) : (s.setSpadUnit p unit d chk).banks = s.banks := rfl
@[simp] theorem State.setSpadUnit_spindles (p unit : Nat) (d chk : List Nat) : (s.setSpadUnit p unit d chk).spindles = s.spindles := rfl
@[simp] theorem State.setSpadUnit_rowLogic (p unit : Nat) (d chk : List Nat) : (s.setSpadUnit p unit d chk).rowLogic = s.rowLogic := rfl
@[simp] theorem State.setSpadUnit_skeins (p unit : Nat) (d chk : List Nat) : (s.setSpadUnit p unit d chk).skeins = s.skeins := rfl
@[simp] theorem State.setSpadUnit_serve (p unit : Nat) (d chk : List Nat) : (s.setSpadUnit p unit d chk).serve = s.serve := rfl
@[simp] theorem State.setSpadUnit_ctxs (p unit : Nat) (d chk : List Nat) : (s.setSpadUnit p unit d chk).ctxs = s.ctxs := rfl
@[simp] theorem State.setSpadUnit_txn (p unit : Nat) (d chk : List Nat) : (s.setSpadUnit p unit d chk).txn = s.txn := rfl
@[simp] theorem State.setSpadUnit_rel (p unit : Nat) (d chk : List Nat) : (s.setSpadUnit p unit d chk).rel = s.rel := rfl
@[simp] theorem State.setSpadUnit_pwr (p unit : Nat) (d chk : List Nat) : (s.setSpadUnit p unit d chk).pwr = s.pwr := rfl
@[simp] theorem State.setSpadUnit_winder (p unit : Nat) (d chk : List Nat) : (s.setSpadUnit p unit d chk).winder = s.winder := rfl
@[simp] theorem State.setSpadUnit_twine (p unit : Nat) (d chk : List Nat) : (s.setSpadUnit p unit d chk).twine = s.twine := rfl
@[simp] theorem State.setSpadUnit_trust (p unit : Nat) (d chk : List Nat) : (s.setSpadUnit p unit d chk).trust = s.trust := rfl
@[simp] theorem State.setSpadUnit_toHost (p unit : Nat) (d chk : List Nat) : (s.setSpadUnit p unit d chk).toHost = s.toHost := rfl
@[simp] theorem State.setSpadUnit_reply (p unit : Nat) (d chk : List Nat) : (s.setSpadUnit p unit d chk).reply = s.reply := rfl
@[simp] theorem State.setSpadUnit_drawn (p unit : Nat) (d chk : List Nat) : (s.setSpadUnit p unit d chk).drawn = s.drawn := rfl

/-! ### setEngine -/

@[simp] theorem State.setEngine_pending (e : Nat) (x : WEngine) : (s.setEngine e x).pending = s.pending := rfl
@[simp] theorem State.setEngine_tick (e : Nat) (x : WEngine) : (s.setEngine e x).tick = s.tick := rfl
@[simp] theorem State.setEngine_regs (e : Nat) (x : WEngine) : (s.setEngine e x).regs = s.regs := rfl
@[simp] theorem State.setEngine_mem (e : Nat) (x : WEngine) : (s.setEngine e x).mem = s.mem := rfl
@[simp] theorem State.setEngine_cores (e : Nat) (x : WEngine) : (s.setEngine e x).cores = s.cores := rfl
@[simp] theorem State.setEngine_phys (e : Nat) (x : WEngine) : (s.setEngine e x).phys = s.phys := rfl
@[simp] theorem State.setEngine_spads (e : Nat) (x : WEngine) : (s.setEngine e x).spads = s.spads := rfl
@[simp] theorem State.setEngine_tally (e : Nat) (x : WEngine) : (s.setEngine e x).tally = s.tally := rfl
@[simp] theorem State.setEngine_banks (e : Nat) (x : WEngine) : (s.setEngine e x).banks = s.banks := rfl
@[simp] theorem State.setEngine_spindles (e : Nat) (x : WEngine) : (s.setEngine e x).spindles = s.spindles := rfl
@[simp] theorem State.setEngine_rowLogic (e : Nat) (x : WEngine) : (s.setEngine e x).rowLogic = s.rowLogic := rfl
@[simp] theorem State.setEngine_skeins (e : Nat) (x : WEngine) : (s.setEngine e x).skeins = s.skeins := rfl
@[simp] theorem State.setEngine_serve (e : Nat) (x : WEngine) : (s.setEngine e x).serve = s.serve := rfl
@[simp] theorem State.setEngine_ctxs (e : Nat) (x : WEngine) : (s.setEngine e x).ctxs = s.ctxs := rfl
@[simp] theorem State.setEngine_txn (e : Nat) (x : WEngine) : (s.setEngine e x).txn = s.txn := rfl
@[simp] theorem State.setEngine_rel (e : Nat) (x : WEngine) : (s.setEngine e x).rel = s.rel := rfl
@[simp] theorem State.setEngine_pwr (e : Nat) (x : WEngine) : (s.setEngine e x).pwr = s.pwr := rfl
@[simp] theorem State.setEngine_twine (e : Nat) (x : WEngine) : (s.setEngine e x).twine = s.twine := rfl
@[simp] theorem State.setEngine_trust (e : Nat) (x : WEngine) : (s.setEngine e x).trust = s.trust := rfl
@[simp] theorem State.setEngine_toHost (e : Nat) (x : WEngine) : (s.setEngine e x).toHost = s.toHost := rfl
@[simp] theorem State.setEngine_reply (e : Nat) (x : WEngine) : (s.setEngine e x).reply = s.reply := rfl
@[simp] theorem State.setEngine_drawn (e : Nat) (x : WEngine) : (s.setEngine e x).drawn = s.drawn := rfl

/-! ### setPort -/

@[simp] theorem State.setPort_pending (p : Nat) (x : TPort) : (s.setPort p x).pending = s.pending := rfl
@[simp] theorem State.setPort_tick (p : Nat) (x : TPort) : (s.setPort p x).tick = s.tick := rfl
@[simp] theorem State.setPort_regs (p : Nat) (x : TPort) : (s.setPort p x).regs = s.regs := rfl
@[simp] theorem State.setPort_mem (p : Nat) (x : TPort) : (s.setPort p x).mem = s.mem := rfl
@[simp] theorem State.setPort_cores (p : Nat) (x : TPort) : (s.setPort p x).cores = s.cores := rfl
@[simp] theorem State.setPort_phys (p : Nat) (x : TPort) : (s.setPort p x).phys = s.phys := rfl
@[simp] theorem State.setPort_spads (p : Nat) (x : TPort) : (s.setPort p x).spads = s.spads := rfl
@[simp] theorem State.setPort_tally (p : Nat) (x : TPort) : (s.setPort p x).tally = s.tally := rfl
@[simp] theorem State.setPort_banks (p : Nat) (x : TPort) : (s.setPort p x).banks = s.banks := rfl
@[simp] theorem State.setPort_spindles (p : Nat) (x : TPort) : (s.setPort p x).spindles = s.spindles := rfl
@[simp] theorem State.setPort_rowLogic (p : Nat) (x : TPort) : (s.setPort p x).rowLogic = s.rowLogic := rfl
@[simp] theorem State.setPort_skeins (p : Nat) (x : TPort) : (s.setPort p x).skeins = s.skeins := rfl
@[simp] theorem State.setPort_serve (p : Nat) (x : TPort) : (s.setPort p x).serve = s.serve := rfl
@[simp] theorem State.setPort_ctxs (p : Nat) (x : TPort) : (s.setPort p x).ctxs = s.ctxs := rfl
@[simp] theorem State.setPort_txn (p : Nat) (x : TPort) : (s.setPort p x).txn = s.txn := rfl
@[simp] theorem State.setPort_rel (p : Nat) (x : TPort) : (s.setPort p x).rel = s.rel := rfl
@[simp] theorem State.setPort_pwr (p : Nat) (x : TPort) : (s.setPort p x).pwr = s.pwr := rfl
@[simp] theorem State.setPort_winder (p : Nat) (x : TPort) : (s.setPort p x).winder = s.winder := rfl
@[simp] theorem State.setPort_trust (p : Nat) (x : TPort) : (s.setPort p x).trust = s.trust := rfl
@[simp] theorem State.setPort_toHost (p : Nat) (x : TPort) : (s.setPort p x).toHost = s.toHost := rfl
@[simp] theorem State.setPort_reply (p : Nat) (x : TPort) : (s.setPort p x).reply = s.reply := rfl
@[simp] theorem State.setPort_drawn (p : Nat) (x : TPort) : (s.setPort p x).drawn = s.drawn := rfl

/-! ### modPort -/

@[simp] theorem State.modPort_pending (p : Nat) (f : TPort → TPort) : (s.modPort p f).pending = s.pending := rfl
@[simp] theorem State.modPort_tick (p : Nat) (f : TPort → TPort) : (s.modPort p f).tick = s.tick := rfl
@[simp] theorem State.modPort_regs (p : Nat) (f : TPort → TPort) : (s.modPort p f).regs = s.regs := rfl
@[simp] theorem State.modPort_mem (p : Nat) (f : TPort → TPort) : (s.modPort p f).mem = s.mem := rfl
@[simp] theorem State.modPort_cores (p : Nat) (f : TPort → TPort) : (s.modPort p f).cores = s.cores := rfl
@[simp] theorem State.modPort_phys (p : Nat) (f : TPort → TPort) : (s.modPort p f).phys = s.phys := rfl
@[simp] theorem State.modPort_spads (p : Nat) (f : TPort → TPort) : (s.modPort p f).spads = s.spads := rfl
@[simp] theorem State.modPort_tally (p : Nat) (f : TPort → TPort) : (s.modPort p f).tally = s.tally := rfl
@[simp] theorem State.modPort_banks (p : Nat) (f : TPort → TPort) : (s.modPort p f).banks = s.banks := rfl
@[simp] theorem State.modPort_spindles (p : Nat) (f : TPort → TPort) : (s.modPort p f).spindles = s.spindles := rfl
@[simp] theorem State.modPort_rowLogic (p : Nat) (f : TPort → TPort) : (s.modPort p f).rowLogic = s.rowLogic := rfl
@[simp] theorem State.modPort_skeins (p : Nat) (f : TPort → TPort) : (s.modPort p f).skeins = s.skeins := rfl
@[simp] theorem State.modPort_serve (p : Nat) (f : TPort → TPort) : (s.modPort p f).serve = s.serve := rfl
@[simp] theorem State.modPort_ctxs (p : Nat) (f : TPort → TPort) : (s.modPort p f).ctxs = s.ctxs := rfl
@[simp] theorem State.modPort_txn (p : Nat) (f : TPort → TPort) : (s.modPort p f).txn = s.txn := rfl
@[simp] theorem State.modPort_rel (p : Nat) (f : TPort → TPort) : (s.modPort p f).rel = s.rel := rfl
@[simp] theorem State.modPort_pwr (p : Nat) (f : TPort → TPort) : (s.modPort p f).pwr = s.pwr := rfl
@[simp] theorem State.modPort_winder (p : Nat) (f : TPort → TPort) : (s.modPort p f).winder = s.winder := rfl
@[simp] theorem State.modPort_trust (p : Nat) (f : TPort → TPort) : (s.modPort p f).trust = s.trust := rfl
@[simp] theorem State.modPort_toHost (p : Nat) (f : TPort → TPort) : (s.modPort p f).toHost = s.toHost := rfl
@[simp] theorem State.modPort_reply (p : Nat) (f : TPort → TPort) : (s.modPort p f).reply = s.reply := rfl
@[simp] theorem State.modPort_drawn (p : Nat) (f : TPort → TPort) : (s.modPort p f).drawn = s.drawn := rfl

/-! ### setPeer -/

@[simp] theorem State.setPeer_pending (n : Nat) (x : Peer) : (s.setPeer n x).pending = s.pending := rfl
@[simp] theorem State.setPeer_tick (n : Nat) (x : Peer) : (s.setPeer n x).tick = s.tick := rfl
@[simp] theorem State.setPeer_regs (n : Nat) (x : Peer) : (s.setPeer n x).regs = s.regs := rfl
@[simp] theorem State.setPeer_mem (n : Nat) (x : Peer) : (s.setPeer n x).mem = s.mem := rfl
@[simp] theorem State.setPeer_cores (n : Nat) (x : Peer) : (s.setPeer n x).cores = s.cores := rfl
@[simp] theorem State.setPeer_phys (n : Nat) (x : Peer) : (s.setPeer n x).phys = s.phys := rfl
@[simp] theorem State.setPeer_spads (n : Nat) (x : Peer) : (s.setPeer n x).spads = s.spads := rfl
@[simp] theorem State.setPeer_tally (n : Nat) (x : Peer) : (s.setPeer n x).tally = s.tally := rfl
@[simp] theorem State.setPeer_banks (n : Nat) (x : Peer) : (s.setPeer n x).banks = s.banks := rfl
@[simp] theorem State.setPeer_spindles (n : Nat) (x : Peer) : (s.setPeer n x).spindles = s.spindles := rfl
@[simp] theorem State.setPeer_rowLogic (n : Nat) (x : Peer) : (s.setPeer n x).rowLogic = s.rowLogic := rfl
@[simp] theorem State.setPeer_skeins (n : Nat) (x : Peer) : (s.setPeer n x).skeins = s.skeins := rfl
@[simp] theorem State.setPeer_serve (n : Nat) (x : Peer) : (s.setPeer n x).serve = s.serve := rfl
@[simp] theorem State.setPeer_ctxs (n : Nat) (x : Peer) : (s.setPeer n x).ctxs = s.ctxs := rfl
@[simp] theorem State.setPeer_txn (n : Nat) (x : Peer) : (s.setPeer n x).txn = s.txn := rfl
@[simp] theorem State.setPeer_rel (n : Nat) (x : Peer) : (s.setPeer n x).rel = s.rel := rfl
@[simp] theorem State.setPeer_pwr (n : Nat) (x : Peer) : (s.setPeer n x).pwr = s.pwr := rfl
@[simp] theorem State.setPeer_winder (n : Nat) (x : Peer) : (s.setPeer n x).winder = s.winder := rfl
@[simp] theorem State.setPeer_trust (n : Nat) (x : Peer) : (s.setPeer n x).trust = s.trust := rfl
@[simp] theorem State.setPeer_toHost (n : Nat) (x : Peer) : (s.setPeer n x).toHost = s.toHost := rfl
@[simp] theorem State.setPeer_reply (n : Nat) (x : Peer) : (s.setPeer n x).reply = s.reply := rfl
@[simp] theorem State.setPeer_drawn (n : Nat) (x : Peer) : (s.setPeer n x).drawn = s.drawn := rfl

/-! ### setTrust -/

@[simp] theorem State.setTrust_pending (x : Trust) : (s.setTrust x).pending = s.pending := rfl
@[simp] theorem State.setTrust_tick (x : Trust) : (s.setTrust x).tick = s.tick := rfl
@[simp] theorem State.setTrust_regs (x : Trust) : (s.setTrust x).regs = s.regs := rfl
@[simp] theorem State.setTrust_mem (x : Trust) : (s.setTrust x).mem = s.mem := rfl
@[simp] theorem State.setTrust_cores (x : Trust) : (s.setTrust x).cores = s.cores := rfl
@[simp] theorem State.setTrust_phys (x : Trust) : (s.setTrust x).phys = s.phys := rfl
@[simp] theorem State.setTrust_spads (x : Trust) : (s.setTrust x).spads = s.spads := rfl
@[simp] theorem State.setTrust_tally (x : Trust) : (s.setTrust x).tally = s.tally := rfl
@[simp] theorem State.setTrust_banks (x : Trust) : (s.setTrust x).banks = s.banks := rfl
@[simp] theorem State.setTrust_spindles (x : Trust) : (s.setTrust x).spindles = s.spindles := rfl
@[simp] theorem State.setTrust_rowLogic (x : Trust) : (s.setTrust x).rowLogic = s.rowLogic := rfl
@[simp] theorem State.setTrust_skeins (x : Trust) : (s.setTrust x).skeins = s.skeins := rfl
@[simp] theorem State.setTrust_serve (x : Trust) : (s.setTrust x).serve = s.serve := rfl
@[simp] theorem State.setTrust_ctxs (x : Trust) : (s.setTrust x).ctxs = s.ctxs := rfl
@[simp] theorem State.setTrust_txn (x : Trust) : (s.setTrust x).txn = s.txn := rfl
@[simp] theorem State.setTrust_rel (x : Trust) : (s.setTrust x).rel = s.rel := rfl
@[simp] theorem State.setTrust_pwr (x : Trust) : (s.setTrust x).pwr = s.pwr := rfl
@[simp] theorem State.setTrust_winder (x : Trust) : (s.setTrust x).winder = s.winder := rfl
@[simp] theorem State.setTrust_twine (x : Trust) : (s.setTrust x).twine = s.twine := rfl
@[simp] theorem State.setTrust_toHost (x : Trust) : (s.setTrust x).toHost = s.toHost := rfl
@[simp] theorem State.setTrust_reply (x : Trust) : (s.setTrust x).reply = s.reply := rfl
@[simp] theorem State.setTrust_drawn (x : Trust) : (s.setTrust x).drawn = s.drawn := rfl

/-! ### setTxn -/

@[simp] theorem State.setTxn_pending (x : Txn) : (s.setTxn x).pending = s.pending := rfl
@[simp] theorem State.setTxn_tick (x : Txn) : (s.setTxn x).tick = s.tick := rfl
@[simp] theorem State.setTxn_regs (x : Txn) : (s.setTxn x).regs = s.regs := rfl
@[simp] theorem State.setTxn_mem (x : Txn) : (s.setTxn x).mem = s.mem := rfl
@[simp] theorem State.setTxn_cores (x : Txn) : (s.setTxn x).cores = s.cores := rfl
@[simp] theorem State.setTxn_phys (x : Txn) : (s.setTxn x).phys = s.phys := rfl
@[simp] theorem State.setTxn_spads (x : Txn) : (s.setTxn x).spads = s.spads := rfl
@[simp] theorem State.setTxn_tally (x : Txn) : (s.setTxn x).tally = s.tally := rfl
@[simp] theorem State.setTxn_banks (x : Txn) : (s.setTxn x).banks = s.banks := rfl
@[simp] theorem State.setTxn_spindles (x : Txn) : (s.setTxn x).spindles = s.spindles := rfl
@[simp] theorem State.setTxn_rowLogic (x : Txn) : (s.setTxn x).rowLogic = s.rowLogic := rfl
@[simp] theorem State.setTxn_skeins (x : Txn) : (s.setTxn x).skeins = s.skeins := rfl
@[simp] theorem State.setTxn_serve (x : Txn) : (s.setTxn x).serve = s.serve := rfl
@[simp] theorem State.setTxn_ctxs (x : Txn) : (s.setTxn x).ctxs = s.ctxs := rfl
@[simp] theorem State.setTxn_rel (x : Txn) : (s.setTxn x).rel = s.rel := rfl
@[simp] theorem State.setTxn_pwr (x : Txn) : (s.setTxn x).pwr = s.pwr := rfl
@[simp] theorem State.setTxn_winder (x : Txn) : (s.setTxn x).winder = s.winder := rfl
@[simp] theorem State.setTxn_twine (x : Txn) : (s.setTxn x).twine = s.twine := rfl
@[simp] theorem State.setTxn_trust (x : Txn) : (s.setTxn x).trust = s.trust := rfl
@[simp] theorem State.setTxn_toHost (x : Txn) : (s.setTxn x).toHost = s.toHost := rfl
@[simp] theorem State.setTxn_reply (x : Txn) : (s.setTxn x).reply = s.reply := rfl
@[simp] theorem State.setTxn_drawn (x : Txn) : (s.setTxn x).drawn = s.drawn := rfl

/-! ### atBoundary -/

@[simp] theorem State.atBoundary_pending (b : Boundary) : (s.atBoundary b).pending = s.pending := by
  unfold State.atBoundary; split <;> rfl
@[simp] theorem State.atBoundary_tick (b : Boundary) : (s.atBoundary b).tick = s.tick := by
  unfold State.atBoundary; split <;> rfl
@[simp] theorem State.atBoundary_regs (b : Boundary) : (s.atBoundary b).regs = s.regs := by
  unfold State.atBoundary; split <;> rfl
@[simp] theorem State.atBoundary_mem (b : Boundary) : (s.atBoundary b).mem = s.mem := by
  unfold State.atBoundary; split <;> rfl
@[simp] theorem State.atBoundary_cores (b : Boundary) : (s.atBoundary b).cores = s.cores := by
  unfold State.atBoundary; split <;> rfl
@[simp] theorem State.atBoundary_phys (b : Boundary) : (s.atBoundary b).phys = s.phys := by
  unfold State.atBoundary; split <;> rfl
@[simp] theorem State.atBoundary_spads (b : Boundary) : (s.atBoundary b).spads = s.spads := by
  unfold State.atBoundary; split <;> rfl
@[simp] theorem State.atBoundary_tally (b : Boundary) : (s.atBoundary b).tally = s.tally := by
  unfold State.atBoundary; split <;> rfl
@[simp] theorem State.atBoundary_banks (b : Boundary) : (s.atBoundary b).banks = s.banks := by
  unfold State.atBoundary; split <;> rfl
@[simp] theorem State.atBoundary_spindles (b : Boundary) : (s.atBoundary b).spindles = s.spindles := by
  unfold State.atBoundary; split <;> rfl
@[simp] theorem State.atBoundary_rowLogic (b : Boundary) : (s.atBoundary b).rowLogic = s.rowLogic := by
  unfold State.atBoundary; split <;> rfl
@[simp] theorem State.atBoundary_skeins (b : Boundary) : (s.atBoundary b).skeins = s.skeins := by
  unfold State.atBoundary; split <;> rfl
@[simp] theorem State.atBoundary_serve (b : Boundary) : (s.atBoundary b).serve = s.serve := by
  unfold State.atBoundary; split <;> rfl
@[simp] theorem State.atBoundary_ctxs (b : Boundary) : (s.atBoundary b).ctxs = s.ctxs := by
  unfold State.atBoundary; split <;> rfl
@[simp] theorem State.atBoundary_txn (b : Boundary) : (s.atBoundary b).txn = s.txn := by
  unfold State.atBoundary; split <;> rfl
@[simp] theorem State.atBoundary_pwr (b : Boundary) : (s.atBoundary b).pwr = s.pwr := by
  unfold State.atBoundary; split <;> rfl
@[simp] theorem State.atBoundary_winder (b : Boundary) : (s.atBoundary b).winder = s.winder := by
  unfold State.atBoundary; split <;> rfl
@[simp] theorem State.atBoundary_twine (b : Boundary) : (s.atBoundary b).twine = s.twine := by
  unfold State.atBoundary; split <;> rfl
@[simp] theorem State.atBoundary_trust (b : Boundary) : (s.atBoundary b).trust = s.trust := by
  unfold State.atBoundary; split <;> rfl
@[simp] theorem State.atBoundary_toHost (b : Boundary) : (s.atBoundary b).toHost = s.toHost := by
  unfold State.atBoundary; split <;> rfl
@[simp] theorem State.atBoundary_reply (b : Boundary) : (s.atBoundary b).reply = s.reply := by
  unfold State.atBoundary; split <;> rfl
@[simp] theorem State.atBoundary_drawn (b : Boundary) : (s.atBoundary b).drawn = s.drawn := by
  unfold State.atBoundary; split <;> rfl

/-! ### dropBoundary -/

@[simp] theorem State.dropBoundary_pending (b : Boundary) : (s.dropBoundary b).pending = s.pending := rfl
@[simp] theorem State.dropBoundary_tick (b : Boundary) : (s.dropBoundary b).tick = s.tick := rfl
@[simp] theorem State.dropBoundary_regs (b : Boundary) : (s.dropBoundary b).regs = s.regs := rfl
@[simp] theorem State.dropBoundary_mem (b : Boundary) : (s.dropBoundary b).mem = s.mem := rfl
@[simp] theorem State.dropBoundary_cores (b : Boundary) : (s.dropBoundary b).cores = s.cores := rfl
@[simp] theorem State.dropBoundary_phys (b : Boundary) : (s.dropBoundary b).phys = s.phys := rfl
@[simp] theorem State.dropBoundary_spads (b : Boundary) : (s.dropBoundary b).spads = s.spads := rfl
@[simp] theorem State.dropBoundary_tally (b : Boundary) : (s.dropBoundary b).tally = s.tally := rfl
@[simp] theorem State.dropBoundary_banks (b : Boundary) : (s.dropBoundary b).banks = s.banks := rfl
@[simp] theorem State.dropBoundary_spindles (b : Boundary) : (s.dropBoundary b).spindles = s.spindles := rfl
@[simp] theorem State.dropBoundary_rowLogic (b : Boundary) : (s.dropBoundary b).rowLogic = s.rowLogic := rfl
@[simp] theorem State.dropBoundary_skeins (b : Boundary) : (s.dropBoundary b).skeins = s.skeins := rfl
@[simp] theorem State.dropBoundary_serve (b : Boundary) : (s.dropBoundary b).serve = s.serve := rfl
@[simp] theorem State.dropBoundary_ctxs (b : Boundary) : (s.dropBoundary b).ctxs = s.ctxs := rfl
@[simp] theorem State.dropBoundary_txn (b : Boundary) : (s.dropBoundary b).txn = s.txn := rfl
@[simp] theorem State.dropBoundary_pwr (b : Boundary) : (s.dropBoundary b).pwr = s.pwr := rfl
@[simp] theorem State.dropBoundary_winder (b : Boundary) : (s.dropBoundary b).winder = s.winder := rfl
@[simp] theorem State.dropBoundary_twine (b : Boundary) : (s.dropBoundary b).twine = s.twine := rfl
@[simp] theorem State.dropBoundary_trust (b : Boundary) : (s.dropBoundary b).trust = s.trust := rfl
@[simp] theorem State.dropBoundary_toHost (b : Boundary) : (s.dropBoundary b).toHost = s.toHost := rfl
@[simp] theorem State.dropBoundary_reply (b : Boundary) : (s.dropBoundary b).reply = s.reply := rfl
@[simp] theorem State.dropBoundary_drawn (b : Boundary) : (s.dropBoundary b).drawn = s.drawn := rfl

/-! ### setRowClass -/

@[simp] theorem State.setRowClass_pending (rk : Nat) (c : RowClass) : (s.setRowClass rk c).pending = s.pending := rfl
@[simp] theorem State.setRowClass_tick (rk : Nat) (c : RowClass) : (s.setRowClass rk c).tick = s.tick := rfl
@[simp] theorem State.setRowClass_regs (rk : Nat) (c : RowClass) : (s.setRowClass rk c).regs = s.regs := rfl
@[simp] theorem State.setRowClass_cores (rk : Nat) (c : RowClass) : (s.setRowClass rk c).cores = s.cores := rfl
@[simp] theorem State.setRowClass_phys (rk : Nat) (c : RowClass) : (s.setRowClass rk c).phys = s.phys := rfl
@[simp] theorem State.setRowClass_spads (rk : Nat) (c : RowClass) : (s.setRowClass rk c).spads = s.spads := rfl
@[simp] theorem State.setRowClass_tally (rk : Nat) (c : RowClass) : (s.setRowClass rk c).tally = s.tally := rfl
@[simp] theorem State.setRowClass_banks (rk : Nat) (c : RowClass) : (s.setRowClass rk c).banks = s.banks := rfl
@[simp] theorem State.setRowClass_spindles (rk : Nat) (c : RowClass) : (s.setRowClass rk c).spindles = s.spindles := rfl
@[simp] theorem State.setRowClass_rowLogic (rk : Nat) (c : RowClass) : (s.setRowClass rk c).rowLogic = s.rowLogic := rfl
@[simp] theorem State.setRowClass_skeins (rk : Nat) (c : RowClass) : (s.setRowClass rk c).skeins = s.skeins := rfl
@[simp] theorem State.setRowClass_serve (rk : Nat) (c : RowClass) : (s.setRowClass rk c).serve = s.serve := rfl
@[simp] theorem State.setRowClass_ctxs (rk : Nat) (c : RowClass) : (s.setRowClass rk c).ctxs = s.ctxs := rfl
@[simp] theorem State.setRowClass_txn (rk : Nat) (c : RowClass) : (s.setRowClass rk c).txn = s.txn := rfl
@[simp] theorem State.setRowClass_rel (rk : Nat) (c : RowClass) : (s.setRowClass rk c).rel = s.rel := rfl
@[simp] theorem State.setRowClass_pwr (rk : Nat) (c : RowClass) : (s.setRowClass rk c).pwr = s.pwr := rfl
@[simp] theorem State.setRowClass_winder (rk : Nat) (c : RowClass) : (s.setRowClass rk c).winder = s.winder := rfl
@[simp] theorem State.setRowClass_twine (rk : Nat) (c : RowClass) : (s.setRowClass rk c).twine = s.twine := rfl
@[simp] theorem State.setRowClass_trust (rk : Nat) (c : RowClass) : (s.setRowClass rk c).trust = s.trust := rfl
@[simp] theorem State.setRowClass_toHost (rk : Nat) (c : RowClass) : (s.setRowClass rk c).toHost = s.toHost := rfl
@[simp] theorem State.setRowClass_reply (rk : Nat) (c : RowClass) : (s.setRowClass rk c).reply = s.reply := rfl
@[simp] theorem State.setRowClass_drawn (rk : Nat) (c : RowClass) : (s.setRowClass rk c).drawn = s.drawn := rfl

/-! ### setRawData -/

@[simp] theorem State.setRawData_pending (rk i : Nat) (d : List Nat) : (s.setRawData rk i d).pending = s.pending := rfl
@[simp] theorem State.setRawData_tick (rk i : Nat) (d : List Nat) : (s.setRawData rk i d).tick = s.tick := rfl
@[simp] theorem State.setRawData_regs (rk i : Nat) (d : List Nat) : (s.setRawData rk i d).regs = s.regs := rfl
@[simp] theorem State.setRawData_cores (rk i : Nat) (d : List Nat) : (s.setRawData rk i d).cores = s.cores := rfl
@[simp] theorem State.setRawData_phys (rk i : Nat) (d : List Nat) : (s.setRawData rk i d).phys = s.phys := rfl
@[simp] theorem State.setRawData_spads (rk i : Nat) (d : List Nat) : (s.setRawData rk i d).spads = s.spads := rfl
@[simp] theorem State.setRawData_tally (rk i : Nat) (d : List Nat) : (s.setRawData rk i d).tally = s.tally := rfl
@[simp] theorem State.setRawData_banks (rk i : Nat) (d : List Nat) : (s.setRawData rk i d).banks = s.banks := rfl
@[simp] theorem State.setRawData_spindles (rk i : Nat) (d : List Nat) : (s.setRawData rk i d).spindles = s.spindles := rfl
@[simp] theorem State.setRawData_rowLogic (rk i : Nat) (d : List Nat) : (s.setRawData rk i d).rowLogic = s.rowLogic := rfl
@[simp] theorem State.setRawData_skeins (rk i : Nat) (d : List Nat) : (s.setRawData rk i d).skeins = s.skeins := rfl
@[simp] theorem State.setRawData_serve (rk i : Nat) (d : List Nat) : (s.setRawData rk i d).serve = s.serve := rfl
@[simp] theorem State.setRawData_ctxs (rk i : Nat) (d : List Nat) : (s.setRawData rk i d).ctxs = s.ctxs := rfl
@[simp] theorem State.setRawData_txn (rk i : Nat) (d : List Nat) : (s.setRawData rk i d).txn = s.txn := rfl
@[simp] theorem State.setRawData_rel (rk i : Nat) (d : List Nat) : (s.setRawData rk i d).rel = s.rel := rfl
@[simp] theorem State.setRawData_pwr (rk i : Nat) (d : List Nat) : (s.setRawData rk i d).pwr = s.pwr := rfl
@[simp] theorem State.setRawData_winder (rk i : Nat) (d : List Nat) : (s.setRawData rk i d).winder = s.winder := rfl
@[simp] theorem State.setRawData_twine (rk i : Nat) (d : List Nat) : (s.setRawData rk i d).twine = s.twine := rfl
@[simp] theorem State.setRawData_trust (rk i : Nat) (d : List Nat) : (s.setRawData rk i d).trust = s.trust := rfl
@[simp] theorem State.setRawData_toHost (rk i : Nat) (d : List Nat) : (s.setRawData rk i d).toHost = s.toHost := rfl
@[simp] theorem State.setRawData_reply (rk i : Nat) (d : List Nat) : (s.setRawData rk i d).reply = s.reply := rfl
@[simp] theorem State.setRawData_drawn (rk i : Nat) (d : List Nat) : (s.setRawData rk i d).drawn = s.drawn := rfl

/-! ### setRawChk -/

@[simp] theorem State.setRawChk_pending (rk i : Nat) (d : List Nat) : (s.setRawChk rk i d).pending = s.pending := rfl
@[simp] theorem State.setRawChk_tick (rk i : Nat) (d : List Nat) : (s.setRawChk rk i d).tick = s.tick := rfl
@[simp] theorem State.setRawChk_regs (rk i : Nat) (d : List Nat) : (s.setRawChk rk i d).regs = s.regs := rfl
@[simp] theorem State.setRawChk_cores (rk i : Nat) (d : List Nat) : (s.setRawChk rk i d).cores = s.cores := rfl
@[simp] theorem State.setRawChk_phys (rk i : Nat) (d : List Nat) : (s.setRawChk rk i d).phys = s.phys := rfl
@[simp] theorem State.setRawChk_spads (rk i : Nat) (d : List Nat) : (s.setRawChk rk i d).spads = s.spads := rfl
@[simp] theorem State.setRawChk_tally (rk i : Nat) (d : List Nat) : (s.setRawChk rk i d).tally = s.tally := rfl
@[simp] theorem State.setRawChk_banks (rk i : Nat) (d : List Nat) : (s.setRawChk rk i d).banks = s.banks := rfl
@[simp] theorem State.setRawChk_spindles (rk i : Nat) (d : List Nat) : (s.setRawChk rk i d).spindles = s.spindles := rfl
@[simp] theorem State.setRawChk_rowLogic (rk i : Nat) (d : List Nat) : (s.setRawChk rk i d).rowLogic = s.rowLogic := rfl
@[simp] theorem State.setRawChk_skeins (rk i : Nat) (d : List Nat) : (s.setRawChk rk i d).skeins = s.skeins := rfl
@[simp] theorem State.setRawChk_serve (rk i : Nat) (d : List Nat) : (s.setRawChk rk i d).serve = s.serve := rfl
@[simp] theorem State.setRawChk_ctxs (rk i : Nat) (d : List Nat) : (s.setRawChk rk i d).ctxs = s.ctxs := rfl
@[simp] theorem State.setRawChk_txn (rk i : Nat) (d : List Nat) : (s.setRawChk rk i d).txn = s.txn := rfl
@[simp] theorem State.setRawChk_rel (rk i : Nat) (d : List Nat) : (s.setRawChk rk i d).rel = s.rel := rfl
@[simp] theorem State.setRawChk_pwr (rk i : Nat) (d : List Nat) : (s.setRawChk rk i d).pwr = s.pwr := rfl
@[simp] theorem State.setRawChk_winder (rk i : Nat) (d : List Nat) : (s.setRawChk rk i d).winder = s.winder := rfl
@[simp] theorem State.setRawChk_twine (rk i : Nat) (d : List Nat) : (s.setRawChk rk i d).twine = s.twine := rfl
@[simp] theorem State.setRawChk_trust (rk i : Nat) (d : List Nat) : (s.setRawChk rk i d).trust = s.trust := rfl
@[simp] theorem State.setRawChk_toHost (rk i : Nat) (d : List Nat) : (s.setRawChk rk i d).toHost = s.toHost := rfl
@[simp] theorem State.setRawChk_reply (rk i : Nat) (d : List Nat) : (s.setRawChk rk i d).reply = s.reply := rfl
@[simp] theorem State.setRawChk_drawn (rk i : Nat) (d : List Nat) : (s.setRawChk rk i d).drawn = s.drawn := rfl

/-! ### setStage -/

@[simp] theorem State.setStage_pending (k : Nat) (l : List StagedLine) : (s.setStage k l).pending = s.pending := rfl
@[simp] theorem State.setStage_tick (k : Nat) (l : List StagedLine) : (s.setStage k l).tick = s.tick := rfl
@[simp] theorem State.setStage_regs (k : Nat) (l : List StagedLine) : (s.setStage k l).regs = s.regs := rfl
@[simp] theorem State.setStage_cores (k : Nat) (l : List StagedLine) : (s.setStage k l).cores = s.cores := rfl
@[simp] theorem State.setStage_phys (k : Nat) (l : List StagedLine) : (s.setStage k l).phys = s.phys := rfl
@[simp] theorem State.setStage_spads (k : Nat) (l : List StagedLine) : (s.setStage k l).spads = s.spads := rfl
@[simp] theorem State.setStage_tally (k : Nat) (l : List StagedLine) : (s.setStage k l).tally = s.tally := rfl
@[simp] theorem State.setStage_banks (k : Nat) (l : List StagedLine) : (s.setStage k l).banks = s.banks := rfl
@[simp] theorem State.setStage_spindles (k : Nat) (l : List StagedLine) : (s.setStage k l).spindles = s.spindles := rfl
@[simp] theorem State.setStage_rowLogic (k : Nat) (l : List StagedLine) : (s.setStage k l).rowLogic = s.rowLogic := rfl
@[simp] theorem State.setStage_skeins (k : Nat) (l : List StagedLine) : (s.setStage k l).skeins = s.skeins := rfl
@[simp] theorem State.setStage_serve (k : Nat) (l : List StagedLine) : (s.setStage k l).serve = s.serve := rfl
@[simp] theorem State.setStage_ctxs (k : Nat) (l : List StagedLine) : (s.setStage k l).ctxs = s.ctxs := rfl
@[simp] theorem State.setStage_txn (k : Nat) (l : List StagedLine) : (s.setStage k l).txn = s.txn := rfl
@[simp] theorem State.setStage_rel (k : Nat) (l : List StagedLine) : (s.setStage k l).rel = s.rel := rfl
@[simp] theorem State.setStage_pwr (k : Nat) (l : List StagedLine) : (s.setStage k l).pwr = s.pwr := rfl
@[simp] theorem State.setStage_winder (k : Nat) (l : List StagedLine) : (s.setStage k l).winder = s.winder := rfl
@[simp] theorem State.setStage_twine (k : Nat) (l : List StagedLine) : (s.setStage k l).twine = s.twine := rfl
@[simp] theorem State.setStage_trust (k : Nat) (l : List StagedLine) : (s.setStage k l).trust = s.trust := rfl
@[simp] theorem State.setStage_toHost (k : Nat) (l : List StagedLine) : (s.setStage k l).toHost = s.toHost := rfl
@[simp] theorem State.setStage_reply (k : Nat) (l : List StagedLine) : (s.setStage k l).reply = s.reply := rfl
@[simp] theorem State.setStage_drawn (k : Nat) (l : List StagedLine) : (s.setStage k l).drawn = s.drawn := rfl

/-! ### setThread -/

@[simp] theorem State.setThread_pending (k : Nat) (x : ThreadPath) : (s.setThread k x).pending = s.pending := rfl
@[simp] theorem State.setThread_tick (k : Nat) (x : ThreadPath) : (s.setThread k x).tick = s.tick := rfl
@[simp] theorem State.setThread_regs (k : Nat) (x : ThreadPath) : (s.setThread k x).regs = s.regs := rfl
@[simp] theorem State.setThread_cores (k : Nat) (x : ThreadPath) : (s.setThread k x).cores = s.cores := rfl
@[simp] theorem State.setThread_phys (k : Nat) (x : ThreadPath) : (s.setThread k x).phys = s.phys := rfl
@[simp] theorem State.setThread_spads (k : Nat) (x : ThreadPath) : (s.setThread k x).spads = s.spads := rfl
@[simp] theorem State.setThread_tally (k : Nat) (x : ThreadPath) : (s.setThread k x).tally = s.tally := rfl
@[simp] theorem State.setThread_banks (k : Nat) (x : ThreadPath) : (s.setThread k x).banks = s.banks := rfl
@[simp] theorem State.setThread_spindles (k : Nat) (x : ThreadPath) : (s.setThread k x).spindles = s.spindles := rfl
@[simp] theorem State.setThread_rowLogic (k : Nat) (x : ThreadPath) : (s.setThread k x).rowLogic = s.rowLogic := rfl
@[simp] theorem State.setThread_skeins (k : Nat) (x : ThreadPath) : (s.setThread k x).skeins = s.skeins := rfl
@[simp] theorem State.setThread_serve (k : Nat) (x : ThreadPath) : (s.setThread k x).serve = s.serve := rfl
@[simp] theorem State.setThread_ctxs (k : Nat) (x : ThreadPath) : (s.setThread k x).ctxs = s.ctxs := rfl
@[simp] theorem State.setThread_txn (k : Nat) (x : ThreadPath) : (s.setThread k x).txn = s.txn := rfl
@[simp] theorem State.setThread_rel (k : Nat) (x : ThreadPath) : (s.setThread k x).rel = s.rel := rfl
@[simp] theorem State.setThread_pwr (k : Nat) (x : ThreadPath) : (s.setThread k x).pwr = s.pwr := rfl
@[simp] theorem State.setThread_winder (k : Nat) (x : ThreadPath) : (s.setThread k x).winder = s.winder := rfl
@[simp] theorem State.setThread_twine (k : Nat) (x : ThreadPath) : (s.setThread k x).twine = s.twine := rfl
@[simp] theorem State.setThread_trust (k : Nat) (x : ThreadPath) : (s.setThread k x).trust = s.trust := rfl
@[simp] theorem State.setThread_toHost (k : Nat) (x : ThreadPath) : (s.setThread k x).toHost = s.toHost := rfl
@[simp] theorem State.setThread_reply (k : Nat) (x : ThreadPath) : (s.setThread k x).reply = s.reply := rfl
@[simp] theorem State.setThread_drawn (k : Nat) (x : ThreadPath) : (s.setThread k x).drawn = s.drawn := rfl

/-! ### Reading back -/

@[simp] theorem State.reg_setReg_same (off : Nat) (v : Word) : (s.setReg off v).reg off = v := by
  simp [State.reg, State.setReg]
theorem State.reg_setReg_other {off o : Nat} (v : Word) (h : o ≠ off) : (s.setReg off v).reg o = s.reg o := by
  simp [State.reg, State.setReg, sget_sset_other _ _ _ h]
@[simp] theorem State.ctx_setCtx_same (c : Nat) (x : Ctxs) : (s.setCtx c x).ctx c = x := by
  simp [State.ctx, State.setCtx]
theorem State.ctx_setCtx_other {c o : Nat} (x : Ctxs) (h : o ≠ c) : (s.setCtx c x).ctx o = s.ctx o := by
  simp [State.ctx, State.setCtx, sget_sset_other _ _ _ h]
@[simp] theorem State.ctx_modCtx_same (c : Nat) (f : Ctxs → Ctxs) : (s.modCtx c f).ctx c = f (s.ctx c) := by
  simp [State.modCtx]
theorem State.ctx_modCtx_other {c o : Nat} (f : Ctxs → Ctxs) (h : o ≠ c) : (s.modCtx c f).ctx o = s.ctx o := by
  simp [State.modCtx, State.ctx_setCtx_other _ _ h]
@[simp] theorem State.core_setCore_same (c : Nat) (x : CoreSt) : (s.setCore c x).core c = x := by
  simp [State.core, State.setCore]
theorem State.core_setCore_other {c o : Nat} (x : CoreSt) (h : o ≠ c) : (s.setCore c x).core o = s.core o := by
  simp [State.core, State.setCore, sget_sset_other _ _ _ h]
@[simp] theorem State.core_modCore_same (c : Nat) (f : CoreSt → CoreSt) : (s.modCore c f).core c = f (s.core c) := by
  simp [State.modCore]
theorem State.core_modCore_other {c o : Nat} (f : CoreSt → CoreSt) (h : o ≠ c) : (s.modCore c f).core o = s.core o := by
  simp [State.modCore, State.core_setCore_other _ _ h]
@[simp] theorem State.stream_setStream_same (c : Nat) (x : Option Stream) : (s.setStream c x).stream c = x := by
  simp [State.stream, State.setStream]
@[simp] theorem State.stream_closeStream_same (c : Nat) (x : Stream) : (s.closeStream c x).stream c = none := by
  simp [State.stream, State.closeStream]
@[simp] theorem State.physOf_setPhys_same (p : Nat) (x : Phys) : (s.setPhys p x).physOf p = x := by
  simp [State.physOf, State.setPhys]
@[simp] theorem State.spindle_setSpindle_same (n : Nat) (x : Spindle) : (s.setSpindle n x).spindle n = x := by
  simp [State.spindle, State.setSpindle]
theorem State.spindle_setSpindle_other {n o : Nat} (x : Spindle) (h : o ≠ n) : (s.setSpindle n x).spindle o = s.spindle o := by
  simp [State.spindle, State.setSpindle, sget_sset_other _ _ _ h]
@[simp] theorem State.rowOf_setRow_same (k : Nat) (x : StackRow) : (s.setRow k x).rowOf k = x := by
  simp [State.rowOf, State.setRow]
@[simp] theorem State.tcVal_tcAdd_same (k n : Nat) : (s.tcAdd k n).tcVal k = s.tcVal k + BitVec.ofNat 48 n := by
  simp [State.tcVal, State.tcAdd]
theorem State.tcVal_tcAdd_other {k o : Nat} (n : Nat) (h : o ≠ k) : (s.tcAdd k n).tcVal o = s.tcVal o := by
  simp [State.tcVal, State.tcAdd, sget_sset_other _ _ _ h]
@[simp] theorem State.skein_putSkein_same (h : Nat) (e : Skein) : (s.putSkein h e).skein h = e := by
  simp [State.skein, State.putSkein]
@[simp] theorem State.takenOf_setTaken_same (k : Nat) (t : Taken) : (s.setTaken k t).takenOf k = t := by
  simp [State.takenOf, State.setTaken]
@[simp] theorem State.engine_setEngine_same (e : Nat) (x : WEngine) : (s.setEngine e x).engine e = x := by
  simp [State.engine, State.setEngine]
@[simp] theorem State.port_setPort_same (p : Nat) (x : TPort) : (s.setPort p x).port p = x := by
  simp [State.port, State.setPort]
@[simp] theorem State.port_modPort_same (p : Nat) (f : TPort → TPort) : (s.modPort p f).port p = f (s.port p) := by
  simp [State.modPort]
@[simp] theorem State.model_setModel_same (m : Nat) (x : Option Model) : (s.setModel m x).model m = x := by
  simp [State.model, State.setModel]

end Sys2Proof.Machine
end

