-- ==== Sys2Proof/Laws/Reach.lean ====
section
/-!
SUPPORT. What an access does at a bank (R161) and in a stack's Thread path (R124): it is made, or it waits.
-/

namespace Sys2Proof.Machine

variable {s : State} {l : Loc} {k : Nat}

theorem State.reach_idle (h : s.BankIdle l) (x : BankAcc) : s.reach l x = (true, s) := by
  simp [State.reach, h.free, h.first]

/-- A busy bank: the access waits, behind those already there, unless it is an agent's that waits there already. -/
theorem State.reach_busy (h : s.bankBusy l = true) (x : BankAcc) : s.reach l x =
    if (x.returns && (s.bankSt l).waits.any (fun w => w.2 == x)) = true then (false, s)
    else (false, s.setBankSt l { s.bankSt l with waits := (s.bankSt l).waits ++ [(s.sclkNow l.stack, x)] }) := by
  simp [State.reach, h]

/-- Nothing but the bank's queue changes. -/
theorem State.reach_state (x : BankAcc) : (s.reach l x).2 = { s with rowLogic := (s.reach l x).2.rowLogic } := by
  unfold State.reach
  dsimp only
  split
  · rfl
  split
  · rfl
  split <;> rfl

theorem State.threadTurn_within {w : ThreadWait} {n : Nat} (h : s.threadUsed k + n ≤ 1500) (e : (s.threadOf k).waiting = []) :
    s.threadTurn k w n = (true, s.setThread k { inTick := s.tick, used := s.threadUsed k + n, waiting := [] }) := by
  simp [State.threadTurn, h, e]

theorem State.threadTurn_beyond {w : ThreadWait} {n : Nat} (h : 1500 < s.threadUsed k + n) : s.threadTurn k w n =
    if (w.returns && (s.threadOf k).waiting.contains w) = true then (false, s)
    else (false, s.setThread k { s.threadOf k with waiting := (s.threadOf k).waiting ++ [w] }) := by
  simp [State.threadTurn, Nat.not_le.2 h]

/-- Nothing but the stack's Thread path changes. -/
theorem State.threadTurn_state (w : ThreadWait) (n : Nat) :
    (s.threadTurn k w n).2 = { s with mem := { s.mem with thread := (s.threadTurn k w n).2.mem.thread } } := by
  unfold State.threadTurn
  dsimp only
  split
  · rfl
  split <;> rfl

@[simp] theorem State.threadOf_setThread_same (x : ThreadPath) : (s.setThread k x).threadOf k = x := by
  simp [State.threadOf, State.setThread]
theorem State.threadOf_setThread_other {j : Nat} (x : ThreadPath) (h : j ≠ k) : (s.setThread k x).threadOf j = s.threadOf j := by
  simp [State.threadOf, State.setThread, sget_sset_other _ _ _ h]

@[simp] theorem State.bankSt_setThread (x : ThreadPath) : (s.setThread k x).bankSt l = s.bankSt l := rfl
@[simp] theorem State.bankBusy_setThread (x : ThreadPath) : (s.setThread k x).bankBusy l = s.bankBusy l := rfl

theorem State.bankIdle_setThread (h : s.BankIdle l) (x : ThreadPath) : (s.setThread k x).BankIdle l := ⟨h.free, h.first⟩

end Sys2Proof.Machine
end

