-- ==== Sys2Proof/Laws/Step.lean ====
section
/-!
SUPPORT. What a tick boundary does to the queue: the commands by which what is due takes effect are put on it, and memory stays
canonical, what has been sent stays sent, and no free value is drawn twice.
-/

namespace Sys2Proof.Machine

theorem keeps_pending {q t : State} (h : Keeps q t) (l : List Instr) :
    Keeps { q with pending := q.pending ++ l } { t with pending := t.pending ++ l } :=
  ⟨h.mem, congrArg (· ++ l) h.queue, h.sent, h.drew⟩

theorem State.nextTick_keeps {q : State} (s : State) (hk : Keeps q s) :
    Keeps { q with pending := q.pending ++ s.tickOver.dueCommands } s.nextTick := by
  unfold State.nextTick
  exact keeps_pending (State.tickOver_keeps s hk) _

end Sys2Proof.Machine
end

