-- ==== Sys2Proof/WellFormed.lean ====
section
/-!
DEFINITION. Well-formed commands: the operands that a bus, a link or the device's own engines can present. The machine's
meanings are total and do not rest on it; it says which terms of `Instr` stand for something that can happen.
-/

namespace Sys2Proof

/-- A host read returns no more bytes than were asked for. -/
def HostRead.fits (h : HostRead) (n : Nat) : Bool :=
  match h with
  | .ok b => decide (b.length ≤ n)
  | .failed => true

/-- A packet carries at most 64 lines, as 128 data items (R291). -/
def Packet.wf (p : Packet) : Bool := decide (p.data.length ≤ 128)

/-- The KIND byte of a submission record (Table 12.7). -/
def Record.isKind (r : Record) (k : Nat) : Bool := decide (r.toNat % 256 = k)

/-- Sizes of a memory access over PCI Express as one register write carries them (R5). -/
def accessSize (n : Nat) : Bool := decide (n = 1 ∨ n = 2 ∨ n = 4 ∨ n = 8)

/-- Widths of the host link (R412). -/
def linkWidth (n : Nat) : Bool := decide (n = 1 ∨ n = 2 ∨ n = 4 ∨ n = 8 ∨ n = 16)

/-- The checks, command by command. A command that is not listed has operands whose types already say all. -/
def Instr.wf (i : Instr) : Bool :=
  match i with
  | .fetchLand _ q h => q.lines.all (fun j => decide (j < 256)) && h.fits 16384
  | .putCommit _ q => q.lines.all (fun j => decide (j < 256))
  | .skeinTableLost (.map a _) => decide (a.toNat % 64 = 0)
  | .tqLineFetch _ h => h.fits 64
  | .bar4Read _ _ n => decide (1 ≤ n ∧ n ≤ 4096)
  | .bar4Write _ _ d => decide (1 ≤ d.length ∧ d.length ≤ 4096)
  | .qload _ _ _ q => decide (q.length ≤ 2048)
  | .restoreComplete _ _ h => h.fits 131072
  | .modelLoad _ r => Record.isKind r 0x50
  | .modelUnload _ r => Record.isKind r 0x51
  | .hank _ r => Record.isKind r 0x10
  | .cancel _ r => Record.isKind r 0x11
  | .seqRelease _ r => Record.isKind r 0x12
  | .seqCompact _ r => Record.isKind r 0x13
  | .barrier _ r => Record.isKind r 0x01
  | .stream _ r => Record.isKind r 0x40
  | .rowreq _ r => Record.isKind r 0x30
  | .winder _ r => Record.isKind r 0x20
  | .blockZero _ l => l.all (fun i => decide (i < 2048))
  | .mirrorRepair _ l => l.all (fun a => decide (a % 64 = 0 ∧ a < 0x8000000000))
  | .carderVisit _ l => l.all (fun n => decide (n < 2 ^ 30))
  | .partialArrive _ _ _ (.corrected n) => decide (n ≤ 33)
  | .winderAccess _ h => h.fits 64
  | .write _ p => p.wf
  | .read _ p => p.wf
  | .rdata _ p => p.wf
  | .cack _ p => p.wf
  | .nack _ p => p.wf
  | .param _ p => p.wf
  | .credit _ p => p.wf
  | .down _ p => p.wf
  | .registerWrite _ _ n _ => accessSize n
  | .tempRefresh _ l => decide (l.length = 8)
  | .stage h _ _ => h.fits 2099200
  | .pcieLinkUp v w => decide (1 ≤ v.toNat ∧ v.toNat ≤ 6) && linkWidth w.toNat
  | _ => true

end Sys2Proof
end

