-- ==== Sys2Proof/Tests/Slice0.lean ====
section
/-!
SUPPORT. Tests: ill-formed commands, states that meet the premises of the statements, and single steps whose results come from
the spec.
-/

set_option Elab.async false

namespace Sys2Proof.Tests

open Sys2Proof.Machine

/-! ### Well-formedness: one ill-formed command for each check -/

def longRead : HostRead := .ok (List.replicate 65 0)
def packet (h : BitVec 256) (n : Nat) : Packet := { header := h, data := List.replicate n 0, trailer := 0 }

theorem test_wf_host_reads : Instr.wf (.tqLineFetch 0 longRead) = false ∧ Instr.wf (.winderAccess 0 longRead) = false ∧
    Instr.wf (.tqLineFetch 0 .failed) = true := by decide
theorem test_wf_bar4 : Instr.wf (.bar4Read 0 0 0) = false ∧ Instr.wf (.bar4Read 0 0 4097) = false ∧
    Instr.wf (.bar4Write 0 0 []) = false ∧ Instr.wf (.bar4Read 0 0 4096) = true := by decide
theorem test_wf_records : Instr.wf (.modelLoad 0 0x51) = false ∧ Instr.wf (.modelUnload 0 0x50) = false ∧
    Instr.wf (.hank 0 0x11) = false ∧ Instr.wf (.cancel 0 0x10) = false ∧ Instr.wf (.seqRelease 0 0x13) = false ∧
    Instr.wf (.seqCompact 0 0x12) = false ∧ Instr.wf (.barrier 0 0) = false ∧ Instr.wf (.stream 0 0x41) = false ∧
    Instr.wf (.rowreq 0 0x31) = false ∧ Instr.wf (.winder 0 0x21) = false ∧ Instr.wf (.winder 0 0x20) = true := by decide +kernel
theorem test_wf_packets : Instr.wf (.write 0 (packet 0 129)) = false ∧ Instr.wf (.read 0 (packet 0 129)) = false ∧
    Instr.wf (.rdata 0 (packet 0 129)) = false ∧ Instr.wf (.cack 0 (packet 0 129)) = false ∧
    Instr.wf (.nack 0 (packet 0 129)) = false ∧ Instr.wf (.param 0 (packet 0 129)) = false ∧
    Instr.wf (.credit 0 (packet 0 129)) = false ∧ Instr.wf (.down 0 (packet 0 129)) = false ∧
    Instr.wf (.write 0 (packet 0 128)) = true := by decide +kernel
theorem test_wf_registers : Instr.wf (.registerWrite .bar0 0 3 0) = false ∧ Instr.wf (.registerWrite .bar0 0 4 0) = true := by decide
theorem longer_than (n k : Nat) (h : k < n) : (HostRead.ok (List.replicate n 0)).fits k = false := by
  simp only [HostRead.fits, List.length_replicate, decide_eq_false_iff_not]; omega
theorem test_wf_query : Instr.wf (.qload 0 0 0 (List.replicate 2049 0)) = false := by
  simp only [Instr.wf, List.length_replicate]; decide
theorem test_wf_fetch (n : Nat) (h : 16384 < n) : Instr.wf (.fetchLand 0 ⟨0, []⟩ (.ok (List.replicate n 0))) = false := longer_than n _ h
theorem test_wf_lines : Instr.wf (.fetchLand 0 ⟨0, [256]⟩ .failed) = false ∧ Instr.wf (.putCommit 0 ⟨0, [256]⟩) = false ∧
    Instr.wf (.putCommit 0 ⟨0, [255]⟩) = true := by decide
theorem test_wf_map : Instr.wf (.skeinTableLost (.map 32 [])) = false ∧ Instr.wf (.skeinTableLost (.map 64 [])) = true := by decide
theorem test_wf_restore (n : Nat) (h : 131072 < n) : Instr.wf (.restoreComplete 0 0 (.ok (List.replicate n 0))) = false := longer_than n _ h
theorem test_wf_stage (n : Nat) (h : 2099200 < n) : Instr.wf (.stage (.ok (List.replicate n 0)) true true) = false := longer_than n _ h
theorem test_wf_slot : Instr.wf (.partialArrive 0 0 0 (.corrected 34)) = false := by decide
theorem test_wf_block : Instr.wf (.blockZero 0 [2048]) = false := by decide
theorem test_wf_repair : Instr.wf (.mirrorRepair 0 [32]) = false ∧ Instr.wf (.mirrorRepair 0 [0x8000000000]) = false := by decide
theorem test_wf_carder : Instr.wf (.carderVisit 0 [2 ^ 30]) = false := by decide
theorem test_wf_readings : Instr.wf (.tempRefresh 0 []) = false ∧ Instr.wf (.pcieLinkUp 0 1) = false ∧
    Instr.wf (.pcieLinkUp 6 3) = false ∧ Instr.wf (.pcieLinkUp 6 16) = true := by decide
/-! ### States that meet the premises of the statements -/

/-- A device in service, in P0. -/
def up : State := { pwr := { started := true, ready := true } }

theorem meets_StepRunsFront : ({ up with pending := [.idleEntry] } : State).pending = .idleEntry :: [] := rfl
theorem meets_EmptyQueueTicks (b : Boundary) (h : b.hasRow) : let s := { up with rel := { asked := [b] } }
    s.pending = [] ∧ s.serve.steps = [] ∧ s.rel.admits = [] ∧ ¬ s.pwr.drain ∧ (∀ p, (s.port p).inReq = []) ∧
    s.rel.asked.all Boundary.hasRow ∧ (Boundary.safe 6).hasRow ∧ (Boundary.safe 6).cmd = some .safeEntry :=
  ⟨rfl, rfl, rfl, Bool.false_ne_true, fun _ => rfl, by simpa [List.all] using h, by decide, by decide⟩
theorem meets_StepKeepsMemoryForm : State.reset.Inv ∧ ∃ t, step State.reset = .next t := ⟨by decide, _, rfl⟩
theorem meets_CommandsComplete : State.reset.Inv ∧ ∃ t, exec .idleEntry State.reset = .next t := ⟨by decide, _, rfl⟩

/-- The last line below the reserved area, in GLOBAL mode. -/
def lastLine : Nat := 62 * 2 ^ 33 - 64
/-- `up` with the row of a line in a class. -/
def classed (a : Nat) (c : RowClass) : State := { up with mem := { cls := [(up.rowKey (up.locate a), c)] } }

/-- The two parts of `State.BankIdle`. -/
abbrev bankIdle (s : State) (l : Loc) : Prop := s.bankBusy l = false ∧ (s.bankSt l).waits = []
theorem bankIdle_is (s : State) (l : Loc) (h : bankIdle s l) : s.BankIdle l := ⟨h.1, h.2⟩
/-- The premises that the line commands share. -/
abbrev lineReady (s : State) (a : Nat) : Prop :=
  s.powered ∧ a < memTop ∧ ¬ isContent a ∧ s.bankAnswers (s.locate a) ∧ bankIdle s (s.locate a)

theorem meets_ChannelReads :
    (lineReady (classed lastLine .raw) lastLine ∧
      (classed lastLine .raw).rowClass ((classed lastLine .raw).rowKey ((classed lastLine .raw).locate lastLine)) = .raw) ∧
    (lineReady up 0 ∧ up.rowClass (up.rowKey (up.locate 0)) = .sealed ∧
      classifyLine (up.rawData (up.rowKey (up.locate 0)) (up.locate 0).line ++ up.rawChk (up.rowKey (up.locate 0)) (up.locate 0).line) = .clean) ∧
    (lineReady (classed 0 .unsealed) 0 ∧
      (classed 0 .unsealed).rowClass ((classed 0 .unsealed).rowKey ((classed 0 .unsealed).locate 0)) = .unsealed) := by decide +kernel
/-- `up` with a bank held by a step until SCLK 1501. -/
def heldBank (k : Nat) (d b : Nat) (x : BankSt) : State := { up with rowLogic := [(k, { banks := [(d * 64 + b, { x with busyTo := 1501 })] })] }
theorem meets_ChannelWriteStoresOneLine : lineReady up 0 ∧ lineReady up lastLine ∧
    (let l := up.locate 0; (heldBank l.stack l.die l.bank {}).bankBusy l) := by decide +kernel

/-- A Thread path that has performed `n` accesses in this tick. -/
def threaded (n : Nat) (w : List ThreadWait) : State :=
  { classed 0 .raw with mem := { cls := (classed 0 .raw).mem.cls, thread := [(0, { inTick := 0, used := n, waiting := w })] } }
theorem meets_ThreadPathWindow :
    (let l := (threaded 1499 []).locate 0;
      (threaded 1499 []).threadTakes 0 ⟨0, none, l⟩ ∧ (threaded 1499 []).threadTakes 0 ⟨0, some 5, l⟩ ∧ ¬ isContent 0 ∧
      (threaded 1499 []).threadUsed 0 < 1500 ∧ ((threaded 1499 []).threadOf 0).waiting = [] ∧
      bankIdle (threaded 1499 []) ((threaded 1499 []).locate 0) ∧
      (threaded 1499 []).rowClass ((threaded 1499 []).rowKey ((threaded 1499 []).locate 0)) = .raw) ∧
    ((threaded 1500 []).threadTakes 0 ⟨0, none, (threaded 1500 []).locate 0⟩ ∧ 1500 ≤ (threaded 1500 []).threadUsed 0) ∧
    (let l := up.locate 0
     let s := threaded 1498 [.access ⟨0, none, l⟩, .access ⟨0, none, l⟩]
     s.powered ∧ ¬ s.stackIsLost 0 ∧ (s.threadOf 0).waiting = [.access ⟨0, none, l⟩, .access ⟨0, none, l⟩] ∧ s.threadUsed 0 + 1 < 1500 ∧
      ¬ isContent 0 ∧ bankIdle s l ∧ s.rowClass (s.rowKey l) = .raw) := by decide +kernel
theorem meets_RefreshOneBank : up.powered ∧ up.pwr.state = .p0 ∧ up.bankAnswers ⟨0, 0, 0, 0, 0⟩ ∧ bankIdle up ⟨0, 0, 0, 0, 0⟩ ∧
    (heldBank 7 15 63 {}).bankBusy ⟨7, 15, 63, 0, 0⟩ ∧ (heldBank 7 15 63 {}).bankAnswers ⟨7, 15, 63, 0, 0⟩ ∧
    ({ up with pwr := { up.pwr with state := .p1 } }).powered := by decide +kernel

/-- One read and write extent from 0 on, for context 1, running. -/
def ext1 : State := { classed 0 .raw with
  regs := [(Reg.ctx 1 (Reg.extLimit 0), 0x3fffffff), (Reg.ctx 1 (Reg.extCtl 0), 3)]
  ctxs := [(1, { st := .running })] }
/-- The same without an extent. -/
def noExt : State := { ext1 with regs := [] }
theorem meets_Bar4OneLine :
    (ext1.powered ∧ ext1.pwr.ready ∧ ¬ (ext1.ctx 1).d3hot ∧ ext1.ideAdmits ∧ (ext1.ctx 1).st ≠ .off ∧ ext1.pwr.state = .p0 ∧
      ext1.pwr.safe = none ∧ ext1.mem.bar4s = [] ∧ (ext1.ctx 1).closing = none ∧ bankIdle ext1 (ext1.locate (ext1.bar4Addr 1 0))) ∧
    (ext1.bar4Addr 1 0 % 64 + 64 ≤ 64 ∧ ¬ isContent (ext1.bar4Addr 1 0) ∧ ext1.bar4Ok 1 (ext1.bar4Addr 1 0) 64 false ∧
      ext1.rowClass (ext1.rowKey (ext1.locate (ext1.bar4Addr 1 0))) = .raw) ∧
    ¬ noExt.bar4Ok 1 (noExt.bar4Addr 1 0) 1 false ∧ (ext1.bar4Addr 1 0 % 64 = 0 ∧ ext1.bar4Ok 1 (ext1.bar4Addr 1 0) 64 true) ∧
    (noExt.ctx 1).st ≠ .off ∧ ¬ noExt.bar4Ok 1 (noExt.bar4Addr 1 0) 1 true := by decide +kernel
/-- Bytes put at an address of stacked memory, its row made RAW. -/
def poke (s : State) (a : Nat) (b : List Byte) : State :=
  let l := s.locate a
  let r := s.rowKey l
  { s with mem := { s.mem with
    cls := sset noClass s.mem.cls r .raw
    data := (b.zipIdx).foldl (fun m e => sset noByte m (r * 1024 + 64 * l.line + a % 64 + e.2) e.1) s.mem.data } }
/-! #### Streams on core 0 -/

/-- A treadle word from the values of its fields, each at its lowest bit. -/
def word (fields : List (Nat × Nat)) : TreadleWord := BitVec.ofNat 256 ((fields.map (fun e => e.2 * 2 ^ e.1)).sum)
/-- A SETUP word of an operation, for index `i`. -/
def setup (op i : Nat) : TreadleWord := word [(16, 1), (18, op), (22, i)]
def stream (ws : List TreadleWord) : Stream :=
  { work := 0, ctx := 1, bank := none, seed := 0, stepIx := 0, src := .program 0 100, queue := ws.map (fun w => { w := w }) }
def onCore (t : Stream) (k : CoreSt) : State := { up with
  cores := [(0, { k with map := { phys := some 0, last := some 0 }, stream := some t, lastCtx := some 1 })]
  phys := [(0, { logical := some 0 })]
  regs := [(Reg.ctx 1 Reg.tcRangeLo, 0x00100000), (Reg.ctx 1 (Reg.extLimit 0), 0x3fffffff), (Reg.ctx 1 (Reg.extCtl 0), 3)]
  ctxs := [(1, { st := .running })] }
def two (w : TreadleWord) : State := onCore (stream [w, 0]) {}

theorem two_goes_on (w : TreadleWord) : (stream [w, 0]).GoesOn :=
  ⟨rfl, ⟨_, _, rfl, rfl, rfl⟩, by intro a n h; cases h; exact (by decide : ((0 : Word) + 1).toNat ≠ 100)⟩

theorem meets_StreamSetupAndEnd :
    (∀ op ∈ [0, 1, 2, 3], (two (setup op 0)).frontWord 0 = some (stream [setup op 0, 0], setup op 0, 0) ∧
      ¬ (two (setup op 0)).wordIllegal 1 (setup op 0) ∧ ((two (setup op 0)).pipe 0).scales.owed = [] ∧ wordRow (setup op 0) = op) ∧
    ((two (setup 4 0)).frontWord 0 = some (stream [setup 4 0, 0], setup 4 0, 0) ∧ wordRow (setup 4 0) = 4 ∧
      ¬ (two (setup 4 0)).wordIllegal 1 (setup 4 0) ∧ ((two (setup 4 0)).pipe 0).scales.owed = [] ∧
      (stream [setup 4 0, 0]).halt = none ∧ (stream [setup 4 0, 0]).sigs = []) ∧
    ((two (setup 4 0)).core 0).late = [] ∧ ((two (setup 4 0)).ctx 1).closing = none ∧ ((two (setup 4 0)).core 0).fetches = [] ∧
    (let t := { stream [setup 4 0] with sigs := [⟨0, 1, 0⟩] }
     (onCore t {}).frontWord 0 = some (t, setup 4 0, 0) ∧ t.sigs ≠ []) ∧
    (let f : FetchReq := { id := 0, ctx := 1, bank := none, addr := 0, loc := 0, lines := 1, stage := false, tc := none, arr := 0, left := [0] }
     (onCore (stream [setup 4 0, 0]) { fetches := [f] }).frontWord 0 = some (stream [setup 4 0, 0], setup 4 0, 0) ∧ f.ctx = 1) := by
  decide +kernel

/-- EXEC words of one stream cycle: a FETCH by generator 0 that signals and counts, and a vector ADD (VOP 1). -/
def fetchWord : TreadleWord := word [(84, 1), (24, 1), (25, 5), (37, 7), (91, 1), (92, 4)]
def vecWord (op : Nat) : TreadleWord := word [(192, op), (198, 2), (203, 0), (208, 1)]
theorem meets_ExecWords :
    (let s := two fetchWord; let w := fetchWord; let t := stream [fetchWord, 0]
     s.frontWord 0 = some (t, w, 0) ∧ wordRow w = 5 ∧ twKind w = 0 ∧ t.pos = 0 ∧ t.passed = false ∧ t.primed = false ∧
      ¬ s.wordIllegal 1 w ∧ (s.pipe 0).scales.owed = [] ∧ (s.pipe 0).flight = [] ∧ twRepeat w = 0 ∧ twNetOp w = 1 ∧
      twMxOp w = 0 ∧ twVop w = 0 ∧ ¬ twVlEn w ∧ ¬ twVsEn w ∧ twXferOp w = 0 ∧ ¬ twSr w ∧ s.fenceDone 0 w ∧ ¬ twWaitEn w ∧
      s.cycleGate 0 w 0 = .go) ∧
    (let s := two (vecWord 1); let w := vecWord 1; let t := stream [vecWord 1, 0]
     s.frontWord 0 = some (t, w, 0) ∧ wordRow w = 5 ∧ twKind w = 0 ∧ t.pos = 0 ∧ t.passed = false ∧ t.primed = false ∧
      ¬ s.wordIllegal 1 w ∧ (s.pipe 0).scales.owed = [] ∧ (s.pipe 0).flight = [] ∧ twRepeat w = 0 ∧ twNetOp w = 0 ∧
      twMxOp w = 0 ∧ ¬ twVlEn w ∧ ¬ twVsEn w ∧ twXferOp w = 0 ∧ ¬ twSr w ∧ vopRow (twVop w) ≠ 4 ∧ s.fenceDone 0 w ∧
      ¬ twWaitEn w ∧ s.cycleGate 0 w 0 = .go ∧
      (vectorOp (twVop w) (s.vreg 0 (twVa w)) (s.vreg 0 (twVb w)) (s.vreg 0 (twVc w)) (twVb w) (twVfmt w) (twSat w) none).vd.isSome) := by
  decide +kernel

/-- A stream held since tick 0, at tick `n`. -/
def held (w : TreadleWord) (k : HoldKind) (n : Nat) : State :=
  { onCore { stream [w, 0] with hold := some (k, 0), state := .hold } {} with tick := n }
/-- An EXEC word that waits on register 0; one with a fence. -/
def waitWord : TreadleWord := word [(20, 1)]
theorem meets_HoldsEndOrStop :
    (∀ k ∈ [HoldKind.wait, .fence, .hazard, .limit, .underrun], (held fetchWord k 0).heldWord 0 =
      some ({ stream [fetchWord, 0] with hold := some (k, 0), state := .hold }, fetchWord)) ∧
    ((held waitWord .wait 0).waitDone (stream [waitWord, 0]) waitWord ∧
      ¬ (held waitWord .wait 0).waitDone { stream [waitWord, 0] with wts := [{ target := 1 }] } waitWord) ∧
    (let s := { onCore { stream [waitWord, 0] with hold := some (.wait, 0), wts := [{ target := 1 }] } {} with tick := 10000 }
     (s.ctx 1).closing = none ∧ 0 + s.cfld 1 Reg.tqHold 23 0 ≤ s.tick ∧ s.stillHeld 0 { stream [waitWord, 0] with hold := some (.wait, 0), wts := [{ target := 1 }] } .wait) ∧
    (held waitWord .wait 0).tick < 0 + (held waitWord .wait 0).cfld 1 Reg.tqHold 23 0 := by decide +kernel

def fetchReq : FetchReq :=
  { id := 0, ctx := 1, bank := none, addr := 0, loc := 0x1fff80, lines := 2, stage := false, tc := some 4, arr := up.arrangement, left := [0, 1] }
def putReq : PutReq :=
  { id := 0, ctx := 1, bank := none, addr := lastLine - 64, data := [(1, false), (2, false)], tc := some 4, arr := up.arrangement, left := [0, 1] }
theorem meets_FetchesAndPuts :
    (let s := { onCore (stream [0]) { fetches := [fetchReq] } with mem := (classed 0 .raw).mem }
     s.powered ∧ (s.core 0).fetches[0]? = some fetchReq ∧ (s.core 0).fetchNo 0 = some fetchReq ∧ (s.core 0).map.phys = some 0 ∧
      (s.core 0).lastCtx = some 1 ∧ (∀ t, s.stream 0 = some t → ¬ t.ending) ∧
      (∀ j ∈ fetchReq.left, ¬ s.fetchBehind 0 fetchReq j) ∧ ¬ s.farBlocked 0 fetchReq ∧ lineAt 0 1 < memTop ∧ ¬ isContent (lineAt 0 1) ∧
      bankIdle s (locateIn fetchReq.arr 0) ∧ s.rowClass (s.rowKey (locateIn fetchReq.arr 0)) = .raw) ∧
    (let s := onCore (stream [0]) { puts := [putReq] }
     s.powered ∧ (s.core 0).puts[0]? = some putReq ∧ (s.core 0).putNo 0 = some putReq ∧ putReq.sent = none ∧
      (∀ j ∈ putReq.left, ¬ s.putBehind 0 putReq j) ∧ putReq.addr < memTop ∧ lineAt putReq.addr 1 = lastLine ∧
      bankIdle s (locateIn putReq.arr lastLine)) := by decide +kernel

/-- What is left of a request once its other line is through. -/
theorem meets_FetchesAndPuts_last :
    (let f := { fetchReq with left := [1] }
     let s := { onCore (stream [0]) { fetches := [f] } with mem := (classed 64 .raw).mem }
     f.left = [1] ∧ ¬ s.fetchBehind 0 f 1 ∧ s.rowClass (s.rowKey (locateIn f.arr (lineAt 0 1))) = .raw) ∧
    (let q := { putReq with left := [1] }
     q.left = [1] ∧ ¬ (onCore (stream [0]) { puts := [q] }).putBehind 0 q 1) := by decide +kernel
/-- R268, R81: the two lines of a fetch land one by one, in any order; the counter increases with the last. -/
theorem test_fetch_by_lines :
    (let s := poke { onCore (stream [0]) { fetches := [fetchReq] } with mem := (classed 0 .raw).mem } 64 [7]
     let one := nextOr (exec (.fetchLand 0 ⟨0, [1]⟩ .failed) s) s
     let two := nextOr (exec (.fetchLand 0 ⟨0, [0]⟩ .failed) one) one
     (one.core 0).fetches.map (fun f => f.left) = [[0]] ∧ sget noByte one.spads.data 0x1fffc0 = 7 ∧ one.tcVal (one.tcKey 1 none 4) = 0 ∧
      (two.core 0).fetches = [] ∧ two.tcVal (two.tcKey 1 none 4) = 128) := by decide +kernel

/-- The parts of `State.DoorbellTaken`. -/
abbrev taken (s : State) (c : Nat) : Prop :=
  s.powered ∧ s.pwr.ready ∧ s.pwr.safe = none ∧ ¬ (s.ctx c).d3hot ∧ s.ideAdmits ∧ ¬ s.pwr.drain ∧ (s.ctx c).bells = [] ∧
    ¬ s.bar4Before c s.mem.nextBar4
theorem taken_is (s : State) (c : Nat) (h : taken s c) : s.DoorbellTaken c :=
  ⟨h.1, h.2.1, h.2.2.1, h.2.2.2.1, h.2.2.2.2.1, h.2.2.2.2.2.1, h.2.2.2.2.2.2.1, h.2.2.2.2.2.2.2⟩

theorem meets_TallyIncrements :
    (let t := { stream [0] with sigs := [⟨4, 7, 0⟩] }
     let s := onCore t {}
     s.stream 0 = some t ∧ (s.core 0).late = [] ∧ s.sigReady 0 0 ∧ ¬ (t.ending ∧ ([] : List SigReq) = []) ∧
      ¬ (onCore t { fetches := [fetchReq] }).sigReady 0 1) ∧
    (∀ st ∈ [CtxSt.running, .stopping, .idle], let s := { onCore (stream [0]) {} with ctxs := [(1, { st := st })] }
     taken s 1 ∧ s.pwr.state = .p0 ∧ (s.ctx 1).closing = none ∧ (s.ctx 1).st = st ∧ s.tcInRange 1 15 ∧ ¬ s.tcInRange 1 16) := by
  decide +kernel

def hosted : Stream := { stream [] with src := .host 0x10000 0x20000, produced := 4, fetched := 1, retired := 1 }
theorem meets_QueueFilling :
    ((onCore hosted {}).stream 0 = some hosted ∧ ¬ hosted.endFetched ∧ hosted.halt = none ∧ hosted.queue = [] ∧ 0 < hosted.nextLine.2 ∧
      (onCore hosted {}).powered ∧ ¬ (onCore hosted {}).lineBlocked 0 [] ∧ ((onCore hosted {}).ctx 1).busMaster) ∧
    (let s := onCore hosted {}
     taken s 1 ∧ s.pwr.state = .p0 ∧ (s.ctx 1).closing = none ∧ (s.ctx 1).st = .running ∧ hosted.ctx = 1 ∧ hosted.halt = none ∧
      creditOf hosted.produced hosted.retired 4097 = .taken ∧ creditOf hosted.produced hosted.retired 4 = .ignored) := by decide +kernel

def niItem : NiItem := { addr := 0x1fffc0, data := 1, mask := fullMask, poison := false }
theorem meets_CorePorts :
    ((onCore (stream []) {}).domainOn (.core 0) ∧ ((onCore (stream []) {}).core 0).map.phys = some 0 ∧ ((onCore (stream []) {}).core 0).async = [] ∧
      ((onCore (stream []) { async := [.xo 64] }).core 0).async = .xo 64 :: [] ∧
      niItem.poison = false ∧ niItem.mask = fullMask ∧
      ((onCore (stream []) { async := [.ni niItem] }).core 0).async = .ni niItem :: [] ∧
      ¬ (onCore (stream []) {}).spads.written.contains (spadKey 0 0)) := by decide +kernel

theorem meets_CounterCapture : (up.regAnswers ∧ ¬ (up.ctx 1).d3hot ∧ (up.ctx 1).st = .off) ∧
    let s := onCore (stream []) {}
    s.regAnswers ∧ s.pwr.state = .p0 ∧ ¬ (s.ctx 1).d3hot ∧ (s.ctx 1).st ≠ .off ∧ (s.ctx 0).closing = none ∧
      15 < s.cfld 1 Reg.tcRangeLo 28 16 ∧ s.cfld 1 Reg.tcRangeLo 28 16 ≤ 16 := by decide +kernel
/-! #### Spindles, row logic, Skeins -/

/-- A Spindle command from the values of its fields, each at its lowest bit. -/
def xcmd (fields : List (Nat × Nat)) : Xcmd := BitVec.ofNat 128 ((fields.map (fun e => e.2 * 2 ^ e.1)).sum)
/-- A ROWOP on rows of the last subarray of die 15, bank group 15 (pseudo-channel 31): from rows 65534, 65533, 65532 to 65535. -/
def rowop (op : Nat) (epoch : Nat := 0) : Xcmd := xcmd ([(0, 5), (12, epoch), (4, 15), (8, 15), (32, op), (35, 3), (40, 65535)] ++
  (if op = 1 then [] else [(56, 65534)]) ++ (if 3 ≤ op then [(72, 65533)] else []) ++ (if op = 6 then [(88, 65532)] else []))
/-- MKRAW of the last two rows of bank 0 of die 0, bank group 0. -/
def mkrawCmd : Xcmd := xcmd [(0, 6), (32, 65534), (50, 1)]
/-- The step that a ROWOP's row operation waits with. -/
def opOf (k : Nat) (x : Xcmd) : PStep :=
  let row (r : Nat) : Loc := rowAt k x (xf x 36 35) r
  up.opStep (xf x 34 32) (row (xf x 55 40)) (.op (xf x 34 32) (row (xf x 55 40)) (row (xf x 71 56)) (row (xf x 87 72)) (row (xf x 103 88)))
theorem meets_RowOperations : up.rowLogicRuns 7 ∧ (up.rowOf 7).pend = [] ∧
    (∀ op ∈ [0, 1, 2, 3, 4, 5, 6], xop (rowop op) = 5 ∧ ¬ xFormBad (rowop op) ∧ up.xAddressOk 7 31 (rowop op) (xBg (rowop op)) ∧
      ¬ rowopSplit (rowop op) ∧ up.bankAnswers (rowAt 7 (rowop op) (xf (rowop op) 36 35) (xf (rowop op) 55 40)) ∧ xf (rowop op) 34 32 = op ∧
      (opOf 7 (rowop op)).ready (up.rowOf 7) (up.sclkNow 7) ∧ up.fitsBudget 7 (up.sclkNow 7) (opOf 7 (rowop op)) ∧
      (let s := heldBank 7 15 63 {}
       s.rowLogicRuns 7 ∧ (s.rowOf 7).pend = [] ∧ ¬ (opOf 7 (rowop op)).ready (s.rowOf 7) (s.sclkNow 7))) ∧
    up.rowLogicRuns 0 ∧ (up.rowOf 0).pend = [] ∧
    xop mkrawCmd = 6 ∧ ¬ xFormBad mkrawCmd ∧ up.xAddressOk 0 0 mkrawCmd (xBg mkrawCmd) ∧ xf mkrawCmd 47 32 + xf mkrawCmd 61 50 = 65535 ∧
    (let row := rowAt 0 mkrawCmd (xf mkrawCmd 49 48) (xf mkrawCmd 47 32)
     let q := up.opStep 8 row (.op 8 row row row row)
     up.bankAnswers row ∧ q.ready (up.rowOf 0) (up.sclkNow 0) ∧ up.fitsBudget 0 (up.sclkNow 0) q) := by
  decide +kernel

def qbuf : QBuf := { d := 32, rows := [], sigma := 0 }
def qloadCmd : Xcmd := xcmd [(0, 1), (32, 255)]
def scanCmd : Xcmd := xcmd [(0, 2), (48, 1)]
def scopyCmd : Xcmd := xcmd [(0, 3), (32, 65534), (50, 0), (68, 1)]
def resealCmd : Xcmd := xcmd [(0, 4), (32, 65535)]
def preadCmd : Xcmd := xcmd [(0, 7), (20, 255)]
def spindled (p : Spindle) : State := { up with spindles := [(0, p)] }
abbrev reaches0 (c : Xcmd) : Prop := ¬ xFormBad c ∧ up.xAddressOk 0 0 c (xBg c) ∧ execSpindle 0 (xDie c) (xBg c) (xForeign c) = 0
theorem meets_SpindleCommandsTaken :
    (∀ op ∈ [2, 3, 4, 6, 7], up.serving ∧ xFormBad (xcmd [(0, op), (30, 1)]) ∧ xop (xcmd [(0, op), (30, 1)]) = op) ∧
    (xop (rowop 5 1) = 5 ∧ xf (rowop 5 1) 34 32 = 5 ∧
      ¬ up.xAddressOk 7 31 (rowop 5 1) (xBg (rowop 5 1))) ∧
    (xop qloadCmd = 1 ∧ ¬ xFormBad qloadCmd ∧ ∀ i ∈ List.range 8, up.xAddressOk 0 0 qloadCmd i ∧
      up.spdAlive (execSpindle 0 (xDie qloadCmd) i (xForeign qloadCmd)) ∧
      ¬ (up.spindle (execSpindle 0 (xDie qloadCmd) i (xForeign qloadCmd))).bufBusy false) ∧
    (spindled { qb0 := some qbuf }).spdAlive 0 ∧ reaches0 scanCmd ∧ reaches0 scopyCmd ∧ reaches0 resealCmd ∧
    (xop scanCmd = 2 ∧ scanCmd.getLsbD 61 = false ∧ ((spindled { qb0 := some qbuf }).spindle 0).qb0 = some qbuf) ∧
    (xop scopyCmd = 3 ∧ max (xf scopyCmd 47 32) (xf scopyCmd 65 50) + xf scopyCmd 79 68 = 65535) ∧
    (xop resealCmd = 4 ∧ xf resealCmd 47 32 + xf resealCmd 61 50 = 65535) ∧
    ((spindled { queue := List.replicate 3 { x := resealCmd } }).spindle 0).queue.length < 4 ∧
    ((spindled { queue := List.replicate 3 { x := resealCmd } }).spindle 0).backlog = [] ∧ (8 ≤ xop (xcmd [(0, 8)])) ∧
    4 ≤ ((spindled { queue := List.replicate 4 { x := resealCmd } }).spindle 0).queue.length := by decide +kernel

theorem meets_SpindleRuns :
    (let s := spindled { queue := [{ x := resealCmd }], backlog := [{ x := scopyCmd }] }
     s.serving ∧ s.spdAlive 0 ∧ (s.spindle 0).run = none ∧ (s.spindle 0).nextCmd = some { x := resealCmd } ∧
      (s.spindle 0).room { x := resealCmd }) ∧
    (let c : SpdCmd := { x := scanCmd, q := some qbuf, total := 1 }
     let s := spindled { run := some c }
     (s.spindle 0).run = some c ∧ c.steps = 0 ∧ c.endAt ≤ max (s.sclkNow 0) 0) ∧
    (xop preadCmd = 7 ∧ ¬ xFormBad preadCmd ∧ up.xAddressOk 0 0 preadCmd (xBg preadCmd) ∧ up.spdAlive 0 ∧
      up.serve.plans.find? (planOf 0 (xTag preadCmd)) = none) := by decide +kernel

/-- A step of Spindle 0's SCAN, and one of a row request of context 1. -/
def scanStep : PStep := { kind := .spindle, bg := 0, banks := [0], units := 500, len := 24, busy := 60, spindle := some 0, dest := [], act := .command }
def rowStep : PStep := { kind := .rowop, bg := 255, banks := [1023], units := 2, len := 90, busy := 90, spindle := none, dest := [7], act := .request 1 0 }
def lastScan : SpdCmd := { x := scanCmd, q := some qbuf, total := 1, steps := 1 }
def granting (used : Nat) : State :=
  { up with spindles := [(0, { run := some lastScan })], rowLogic := [(0, { pend := [scanStep], window := 0, used := used })] }
/-- A row request: one ZERO from the row of the last line on. -/
def zeroBody : BitVec 512 := BitVec.ofNat 512 (1 + 2 ^ 24 + 4 * 2 ^ 32 + (62 * 2 ^ 33 - 1024) * 2 ^ 64)
def zeroReq : RowReq := { id := 0, body := zeroBody, tag := 9, started := true }
/-- Bank 63 of die 15 of stack 7 under that request's step, two accesses waiting since SCLK 0, at tick 2. -/
def aborting : State := { up with
  tick := 2
  ctxs := [(1, { st := .running, rowQ := [zeroReq] })]
  rowLogic := [(7, { banks := [(15 * 64 + 63, { busyTo := 1501, step := some rowStep, held := some rowStep, waits := [(0, .read 0 .channel false ⟨7, 15, 63, 0, 0⟩)] })] })] }
theorem meets_RowStepBudget :
    (∀ u ∈ [0, 127500, 127501], (granting u).rowLogicRuns 0 ∧ ((granting u).rowOf 0).pend = [scanStep] ∧ scanStep.bg < 256 ∧
      scanStep.ready ((granting u).rowOf 0) 0 ∧ ((granting u).spindle 0).run = some lastScan ∧ ((granting u).rowOf 0).window = (granting u).tick) ∧
    (127500 + scanStep.units ≤ (granting 127500).effectiveBudget 0 ∧
      ∀ i ∈ List.range scanStep.len, occupied ((granting 127500).rowOf 0).booked 0 (scanStep.start 0 + i) < (granting 127500).fld Reg.spdDieCap 3 0) ∧
    (granting 127501).effectiveBudget 0 < 127501 + scanStep.units ∧
    (let l : Loc := ⟨7, 15, 63, 0, 0⟩
     let x := aborting.bankSt l
     aborting.domainOn (.stack 7) ∧ x.held = some rowStep ∧ rowStep.spindle = none ∧ rowStep.kind = .rowop ∧
      rowStep.act = .request 1 zeroReq.id ∧ rowStep.banks = [64 * 15 + 63] ∧ (aborting.ctx 1).rowQ = [zeroReq] ∧ ¬ isContent 0 ∧
      x.waits = [(0, .read 0 .channel false l)] ∧ 0 + 1500 ≤ aborting.sclkNow 7 ∧ (aborting.ctx 0).closing = none) := by decide +kernel

theorem meets_RowStepBudget_bells : (∀ c, (aborting.ctx c).bells = []) ∧ ∀ c, (up.ctx c).bells = [] := by
  refine ⟨fun c => ?_, fun _ => rfl⟩
  simp only [State.ctx, aborting, sget]
  split <;> rfl

/-- A bank whose step is over, where a write and a read of one row wait. -/
def freed (data : Line) : State :=
  let l := up.locate 0
  let s := classed 0 .raw
  s.setBankSt l { busyTo := 0, waits := [(0, .write 0 data fullMask false l), (1, .read 0 .channel false l)] }
theorem meets_BusyBankServed :
    (let l := up.locate 0
     let s := freed 0x5A
     s.domainOn (.stack 0) ∧ l.stack = 0 ∧ ¬ s.bankBusy l ∧ (s.bankSt l).waits = [(0, .write 0 0x5A fullMask false l), (1, .read 0 .channel false l)] ∧
      0 < memTop ∧ ¬ isContent 0 ∧ s.bankAnswers l ∧ s.rowClass (s.rowKey l) = .raw) ∧
    (heldBank 7 15 63 {}).bankBusy ⟨7, 15, 63, 0, 0⟩ := by decide +kernel
/-- R161, R162: what waited at a bank is performed when its step is over, in order of arrival. -/
theorem test_bank_serves :
    (let s := freed 0x5A
     let l := up.locate 0
     let u := nextOr (exec (.busyBankServe 0 0 0 0) s) s
     l.stack = 0 ∧ l.die = 0 ∧ l.bank = 0 ∧ (u.bankSt l).waits = [] ∧ u.reply = .data (0x5A :: List.replicate 63 0) false) := by decide +kernel

/-- The five parts of `State.PostsNow`. -/
abbrev posting (s : State) (c : Nat) : Prop :=
  s.canPost c ∧ (s.ctx c).closing = none ∧ (s.ctx c).posts = [] ∧ (s.ctx c).writes ≤ (s.ctx c).flushed ∧ (s.ctx c).barrier = none
theorem posting_is (s : State) (c : Nat) (h : posting s c) : s.PostsNow c := ⟨h.1, h.2.1, h.2.2.1, h.2.2.2.1, h.2.2.2.2⟩

/-- Context 1 running, with a completion ring of 8 slots and a record waiting. -/
def ringed : State := { up with
  regs := [(Reg.ctx 1 Reg.cqSize, 3), (Reg.ctx 1 Reg.tcRangeLo, 0x00100000)]
  ctxs := [(1, { st := .running, sqTail := 1 })] }
/-- A record from the values of its fields, each at its lowest bit. -/
def record (fields : List (Nat × Nat)) : Record := BitVec.ofNat 2048 ((fields.map (fun e => e.2 * 2 ^ e.1)).sum)
def rowRec : Record := record [(0, 0x30), (512, 1), (576, 62 * 2 ^ 33 - 1024), (1984, 77)]
/-- The last step of `zeroReq`, pending in the stack of its row. -/
def lastRow : State :=
  let s := { up with ctxs := [(1, { st := .running, rowQ := [zeroReq] })] }
  s.setRow (s.locate (62 * 2 ^ 33 - 1024)).stack { pend := [rowStep] }
theorem meets_RowRequests :
    (recKind rowRec = 0x30 ∧ ringed.rowreqBad 1 rowRec = none ∧ ringed.mayAccept 1 1) ∧
    (∀ r ∈ [{ zeroReq with fail := some 0x0F }, { zeroReq with done := 1 }],
      let s := { ringed with ctxs := [(1, { st := .running, rowQ := [r] })] }
      posting s 1 ∧ (s.ctx 1).rowQ = [r] ∧ s.rowOver r) ∧
    (let l := lastRow.locate (RowBody.dst zeroBody)
     let w := lastRow.rowOf l.stack
     lastRow.rowLogicRuns l.stack ∧ w.pend = [rowStep] ∧ rowStep.bg < 256 ∧ rowStep.ready w 0 ∧ (lastRow.ctx 1).rowQ = [zeroReq] ∧
      RowBody.op zeroBody = 1 ∧ RowBody.count zeroBody = zeroReq.done ∧ RowBody.tcEn zeroBody ∧ lastRow.bankAnswers l ∧
      rowStep.units ≤ lastRow.effectiveBudget l.stack ∧
      ∀ i ∈ List.range rowStep.len, occupied w.booked (rowStep.bg / 16) i < lastRow.fld Reg.spdDieCap 3 0) := by decide +kernel

theorem meets_SpindleLifecycle :
    (up.regAnswers ∧ ¬ (up.ctx 0).d3hot ∧ up.pwr.state = .p0 ∧ up.spdAlive 2047) ∧
    (let s := { up with rel := { boundary := [.spindleDead 2047 6] } }
     s.serving ∧ .spindleDead 2047 6 ∈ s.rel.boundary ∧ s.spdAlive 2047 ∧ s.skeins.table = []) ∧
    (let s := { spindled { state := .deadUnserved } with rel := { admits := [0] } }
     s.pending = [] ∧ s.serving ∧ s.serve.steps = [] ∧ ¬ s.pwr.drain ∧ s.rel.asked = [] ∧ 0 ∈ s.rel.admits ∧ ¬ s.foreignHeld 0) ∧
    (let s := spindled { state := .deadServed, epoch := 254 }
     s.regAnswers ∧ ¬ s.spdAlive 0 ∧ (s.spindle 0).epoch ≠ 255 ∧ ¬ s.stackIsLost 0 ∧ ¬ s.foreignHeld 0 ∧ s.rel.admits = []) := by
  decide +kernel
/-- Region `j` in SKEIN mode, a block of it not yet zeroed. -/
def skeined (j : Nat) (dirty : NatSet) : State :=
  { up with regs := [(Reg.stkRmode (j / 16), BitVec.ofNat 32 (2 * 4 ^ (j % 16)))], skeins := { dirty := dirty } }
theorem meets_BlockZeroClears : ∀ n ∈ [0, 62 * 65536 - 1],
    let s := skeined (n / 65536) [n]
    s.serving ∧ ¬ s.blockZeroed n ∧ n < 62 * 65536 ∧ s.rmode (n / 65536) = 2 ∧ sget noOwner s.skeins.owner n = 0 ∧
      ¬ s.blockWithheld n ∧ ¬ s.skeins.lost.contains n ∧ s.blockAnswers n ∧ s.blockQuiet n ∧ ¬ s.skeins.reseal.contains n := by decide +kernel

/-- Block 5 held an uncorrectable line of a lost Skein: two wrong symbols in its last line. -/
def failing : State :=
  let l := decodeLoc 2 (5 * 2 ^ 17 + 64 * 2047)
  let s := skeined 0 [5]
  { s with skeins := { s.skeins with reseal := [5] },
           mem := { data := [(s.rowKey l * 1024 + 64 * l.line, 1), (s.rowKey l * 1024 + 64 * l.line + 1, 1)] } }
theorem meets_BlockZeroClears_withheld :
    (let s := failing
     let l := decodeLoc 2 (5 * 2 ^ 17 + 64 * 2047)
     s.serving ∧ ¬ s.blockZeroed 5 ∧ s.rmode 0 = 2 ∧ sget noOwner s.skeins.owner 5 = 0 ∧ ¬ s.blockWithheld 5 ∧
      ¬ s.skeins.lost.contains 5 ∧ s.blockAnswers 5 ∧ s.blockQuiet 5 ∧ s.skeins.reseal.contains 5 ∧
      classifyLine (s.rawData (s.rowKey l) l.line ++ s.rawChk (s.rowKey l) l.line) = .uncorrectable) := by decide +kernel

/-- Skein 3 at block 5 of region 0 or in a spill slot, for context 1. -/
def withSkein (e : Skein) : State :=
  { skeined 0 [] with skeins := { table := [(3, e)], owner := if e.st = .spilled then [] else [(e.block, 4)] } }
/-- A sequence whose chain is the handles given. -/
def chained (l : List Nat) (st : SeqSt) : Seq := { st := st, chains := [(0, l)] }
def hank (desc : Record) (seqs : List Seq) (st : HankSt) : Hank :=
  { uid := 1, ctx := 1, stream := false, desc := desc, lc := false, model := 0, mask := 1, nmax := 0, st := st, seqs := seqs }
/-- Engine 15 makes a copy of the Governor's. -/
def copied (s : State) (g : GovCopy) : State := { s with winder := { engines := [(15, { gov := some g })] } }
theorem meets_SkeinMoves :
    (let s := withSkein { st := .resident, ctx := 1, block := 5, refs := 1 }
     s.serving ∧ (s.skein 3).st = .resident ∧ (s.skein 3).spillTo = none ∧ s.skeinIdle 3 ∧ s.blockFree 65535 ∧ s.wellPlaced 3 65535) ∧
    (∀ dest ∈ [65535, 5 + 2048], let s := copied (withSkein { st := .moving, ctx := 1, block := 5, dest := dest, refs := 1 }) (.relocate 3)
     s.serving ∧ (s.skein 3).st = .moving ∧ (s.skein 3).dest ≠ (s.skein 3).block ∧ (s.skein 3).refs ≠ 0 ∧ s.copying (.relocate 3) ∧ s.blockQuiet 5 ∧ s.blockQuiet dest) ∧
    (let s := copied (withSkein { st := .resident, ctx := 1, block := 5, spillTo := some 0, refs := 1 }) (.spill 3)
     s.serving ∧ (s.skein 3).st = .resident ∧ (s.skein 3).spillTo = some 0 ∧ s.skeinIdle 3 ∧ s.copying (.spill 3) ∧ (s.ctx 1).busMaster ∧ s.blockQuiet 5) ∧
    (let s := copied { withSkein { st := .spilled, ctx := 1, block := 0, refs := 1 } with
                serve := { hanks := [hank 0 [{ chained [3] .parked with restore := true }] .active] } } (.restore 3)
     s.serving ∧ (s.skein 3).st = .spilled ∧ s.restoring 3 ∧ s.copying (.restore 3) ∧ s.blockFree 65535 ∧ ¬ s.atCeiling 1 ∧
      s.blockQuiet 65535 ∧ s.wellPlaced 3 65535) := by decide +kernel
theorem meets_TableLineLost : (withSkein { st := .resident, ctx := 1, block := 5, refs := 1 }).powered ∧
    ((withSkein { st := .resident, ctx := 1, block := 5, refs := 1 }).skein (4 * 0 + 3)).st = .resident := by decide +kernel

/-- Context 0 running with a ring, and nothing else (model records come to it). -/
def ring0 : State := { up with regs := [(Reg.ctx 0 Reg.cqSize, 3)], ctxs := [(0, { st := .running, sqTail := 1 })] }
theorem meets_MalformedRecordsRefused :
    ringed.mayAccept 1 1 ∧ posting ringed 1 ∧
    (recKind (rowRec + 0x100) = 0x30 ∧ ringed.rowreqBad 1 (rowRec + 0x100) = some 1) ∧
    (recKind (record [(0, 0x50)]) = 0x50 ∧ ringed.loadBad 1 (record [(0, 0x50)]) = some 0) ∧
    (recKind (record [(0, 0x10)]) = 0x10 ∧ ringed.hankBad 1 (record [(0, 0x10)]) = some 2) ∧
    (recKind (record [(0, 0x12), (2016, 1)]) = 0x12 ∧ seqRecordBad (record [(0, 0x12), (2016, 1)]) = some 252) ∧
    (recKind (record [(0, 0x13), (52, 1)]) = 0x13 ∧ seqRecordBad (record [(0, 0x13), (52, 1)]) = some 6) := by decide +kernel

/-- The least model: one layer, one head, groups of core group 0, context 1 allowed, one range of 4 KiB at 0. -/
def modelBits (base : Nat) : List (Nat × Nat) := [(base + 48, 1), (base + 65, 1), (base + 128, 1), (base + 288, 1)]
def model0 : Model := { rec_ := BitVec.ofNat 1024 (((modelBits 0).map (fun e => e.2 * 2 ^ e.1)).sum) }
def hankRec : Record := record [(0, 0x10), (8, 1), (32, 5), (96, 0)]
def modelled (s : State) : State := { s with serve := { s.serve with models := [(0, some model0)] } }
theorem meets_HanksAndModels :
    (let s := modelled ringed
     recKind hankRec = 0x10 ∧ s.hankBad 1 hankRec = none ∧ s.mayAccept 1 (recField hankRec 73 64 + 2)) ∧
    (let r := record [(0, 0x40), (8, 255)]
     recKind r = 0x40 ∧ lowestOutside r.toNat (spans [(0, 15), (64, 105), (1984, 2015)]) 0 2047 = none ∧ recField r 69 64 = 0 ∧
      ringed.mayAccept 1 1) ∧
    (let r := record ([(0, 0x50), (512, 1)] ++ modelBits 512)
     posting ring0 0 ∧ ring0.mayAccept 0 1 ∧ ring0.serve.hanks = [] ∧ ring0.serve.steps = [] ∧ ring0.serve.loads = [] ∧
      ring0.serve.held = [] ∧ (∀ e ∈ ring0.serve.models, ∀ m ∈ e.2, m.unload = none) ∧
      recKind r = 0x50 ∧ ring0.loadBad 0 r = none ∧ ring0.model (recField r 519 512) = none ∧
      (let s := { ring0 with serve := { models := [(1, some model0)] } }
       posting s 0 ∧ s.mayAccept 0 1 ∧ s.serve.hanks = [] ∧ s.serve.steps = [] ∧ s.serve.loads = [] ∧ s.serve.held = [] ∧
        s.loadBad 0 r = none ∧ s.model (recField r 519 512) = some model0 ∧ ¬ model0.quarantined)) ∧
    (let s := modelled ring0
     let r := record [(0, 0x51)]
     posting s 0 ∧ s.mayAccept 0 1 ∧ (∀ e ∈ s.serve.models, ∀ m ∈ e.2, m.unload = none) ∧ recKind r = 0x51 ∧
      lowestOutside r.toNat (spans [(0, 7), (16, 23), (1984, 2015)]) 0 2047 = none ∧ s.loaded (recField r 23 16)) := by decide +kernel

def heldSeq : Held := { ctx := 1, seqid := 2 ^ 20 - 1, model := 0, committed := 0, chains := [], home := none, lastStep := 0 }
/-- `ringed` with one hank or one HELD sequence. -/
def serves (s : State) (h : List Hank) (p : List StepSt) : State := { s with serve := { s.serve with hanks := h, steps := p } }
theorem meets_SequenceRecords :
    posting ringed 1 ∧ ringed.mayAccept 1 1 ∧
    (let s := serves ringed [hank hankRec [chained [] .stepping] .active] []
     let r := record [(0, 0x11), (32, 5)]
     recKind r = 0x11 ∧ lowestOutside r.toNat (spans [(0, 8), (16, 25), (32, 63), (1984, 2015)]) 0 2047 = none ∧ recField r 8 8 = 0 ∧
      s.serve.hanks = [hank hankRec [chained [] .stepping] .active] ∧
      (hank hankRec [chained [] .stepping] .active).tag = BitVec.ofNat 32 (recField r 63 32) ∧ recField r 25 16 = 0 ∧
      posting s 1 ∧ s.mayAccept 1 1) ∧
    (∀ id ∈ [2 ^ 20 - 1, 0], let s := { ringed with serve := { held := [heldSeq] } }
     let r := record [(0, 0x12), (32, id)]
     recKind r = 0x12 ∧ seqRecordBad r = none ∧ s.serve.held = [heldSeq] ∧ heldSeq.ctx = 1 ∧ heldSeq.compact = none ∧ posting s 1 ∧ s.mayAccept 1 1 ∧
      (heldSeq.seqid = recField r 51 32 ↔ id = 2 ^ 20 - 1)) ∧
    (let r := record [(0, 0x13)]
     recKind r = 0x13 ∧ seqRecordBad r = none ∧ ringed.serve.held = [] ∧ ringed.serve.hanks = [] ∧
      (let s := serves ringed [hank hankRec [chained [] .stepping] .active] []
       posting s 1 ∧ s.mayAccept 1 1 ∧ (chained [] .stepping).seqid = recField r 51 32 ∧ (chained [] .stepping).compact = none)) ∧
    (let r := record [(0, 0x01)]
     recKind r = 0x01 ∧ lowestOutside r.toNat (spans [(0, 7), (1984, 2015)]) 0 2047 = none ∧ (ringed.ctx 1).reserved = 0 ∧
      (let s := { ringed with ctxs := [(1, { st := .running, sqTail := 1, reserved := 7 })] }
       posting s 1 ∧ s.mayAccept 1 1 ∧ (s.ctx 1).reserved ≠ 0)) := by decide +kernel

theorem meets_SequenceRecords_cancel :
    (let q := chained [] .decode
     let s := serves ringed [hank hankRec [q] .active] []
     ¬ q.st.final ∧ q.st ≠ .stepping ∧ posting s 1 ∧ s.mayAccept 1 1) ∧ ¬ SeqSt.stepping.final := by decide +kernel

/-- A step of hank 1. -/
def step1 : StepSt := { uid := 2, hank := 1, ctx := 1, lc := false, mask := 0, bank := 0, phase := .main, no := 0, seed := 0, slots := [{ slot := 0, pos := 0, rows := 1 }] }
def stepping : Hank := hank hankRec [chained [] .stepping] .stepping
theorem meets_StepsEndAndResume :
    ({ up with trust := { halted := true } }).trust.halted ∧
    (let s := { up with serve := { steps := [step1], preempted := [2] } }
     ¬ s.trust.halted ∧ s.serving ∧ s.pwr.state = .p0 ∧ ¬ s.pwr.drain ∧ s.serve.held = [] ∧ s.serve.hanks = [] ∧
      s.serve.steps = [step1] ∧ s.serve.preempted = [step1.uid] ∧ step1.switch = none ∧ (s.ctx 1).closing = none) ∧
    (let p := { step1 with ends := [(0, 0x07, 0)] }
     let s := serves up [stepping] [p]
     s.serving ∧ s.stepOf p.uid = some p ∧ s.hankOf p.hank = some stepping ∧ phaseCode p.ends = some 0x07 ∧
      s.cores.all (fun e => !(e.2.stream.any (fun t => t.work = p.uid))) ∧ p.preAt = none ∧ p.switch = none ∧ p.waiting = [] ∧
      p.restart = false ∧ stepping.seqs.length = stepping.nseq ∧ (stepping.seq 0).st = .stepping) ∧
    (let p := { step1 with switch := some true, mask := 255 }
     let s := serves up [stepping] [p]
     s.serving ∧ s.stepOf p.uid = some p ∧ s.hankOf p.hank = some stepping ∧ s.settled p ∧ p.saved = []) ∧
    (let p := { step1 with switch := some false, preAt := some 0 }
     let s := serves up [stepping] [p]
     s.serving ∧ s.stepOf p.uid = some p ∧ s.hankOf p.hank = some stepping ∧ p.saved = [] ∧ p.ends = [] ∧ s.serve.rows = [] ∧
      (s.ctx 1).closing = none ∧ coresOf p.mask = []) := by decide +kernel

/-- A step of hank 1 in the attention of its first layer, its trigger counter at the value that reaches it. -/
def attending (ph : Phase) : State :=
  let h := stepping
  let s := modelled (serves up [h] [{ step1 with phase := ph }])
  s.tcAdd (s.tcKey 1 (some 0) (h.qtc false)) (layerTarget h model0 ph false)
def mergeRow : MergeRow := { id := 4, ssb := 7, ctx := 1, step := 2, slot := 0, d := 32, nslots := 2, dest := 0, tc := some 4096, acc := Partial.init 32 }
def partialRec : PartialRec := { ctag := 0, qrow := 0, d := 32, part := Partial.init 32, poison := false, unsealed := false, empty := false }
def merging (r : MergeRow) : State := { up with serve := { rows := [r] } }
theorem meets_LayersAndMerges :
    (∀ ph ∈ [Phase.main, .prefill], let s := attending ph
     s.serving ∧ s.stepOf 2 = some { step1 with phase := ph } ∧ s.hankOf 1 = some stepping ∧ s.modelOf stepping = some model0 ∧
      s.layerDue { step1 with phase := ph } stepping model0 false) ∧
    ((merging mergeRow).domainOn (.ssb 7) ∧
      (merging mergeRow).serve.rows.find? (fun r => decide (r.ssb = 7) && !r.reserved) = some mergeRow ∧
      (merging mergeRow).mergeUsed 7 + mergeRow.bytes ≤ (merging mergeRow).mergeRoom 7 ∧
      (let s := { up with serve := { rows := [mergeRow, { mergeRow with id := 5, nslots := 52428, reserved := true }] } }
       s.mergeRoom 7 < s.mergeUsed 7 + mergeRow.bytes)) ∧
    (let r := { mergeRow with reserved := true, inbox := [(0, partialRec)] }
     (merging r).serve.rows.find? (fun x => decide (x.id = r.id ∧ x.ssb = 7) && x.reserved) = some r ∧
      r.inbox.find? (fun e => decide (e.1 = r.next)) = some (r.next, partialRec) ∧ ((merging r).ctx 1).closing = none ∧ r.slots = [] ∧ r.next + 1 < r.nslots ∧
      (let s := serves up [stepping] [step1]
       s.stepOf r.step = some step1 ∧ s.hankOf step1.hank = some stepping ∧ r.slot < stepping.seqs.length)) := by decide +kernel

/-- Table 13.2: a partial whose slot fails its check makes its row NaN, and its sequence will end with WEIGHT_POISON. -/
theorem test_slot_fails :
    (let r := { mergeRow with reserved := true, inbox := [(0, partialRec)] }
     let s := serves up [stepping] [step1]
     let u := nextOr (exec (.partialArrive 7 4 0 (.failed 0x1C00000)) { s with serve := { s.serve with rows := [r] } }) s
     u.serve.rows.map (fun r => (r.next, r.acc.m)) = [(1, f32NaN)] ∧ (u.seq 1 0).fate = some 0x07 ∧
      u.rel.logHead = 1) := by decide +kernel

/-- R359, R361, R365: a staged line with one wrong symbol is delivered corrected and counted in bucket 8; with two it is poisoned,
and the second failure withholds its way, after which the line comes from the stack again. -/
theorem test_staged_errors :
    (let s := (State.reset.readStaged 64 (State.reset.locate 64) none).2
     let k := stageKey (s.locate 64).stack 64
     let spoil (d : List Nat) : State := s.setSsbLine (k / 20480) (stageOff k 0) (d ++ List.replicate (64 - d.length) 0) (List.replicate 6 0)
     let one := (spoil [9]).readStaged 64 (State.reset.locate 64) none
     let two := (spoil [9, 9]).readStaged 64 (State.reset.locate 64) none
     let again := two.2.readStaged 64 (State.reset.locate 64) none
     one.1.data = 0 ∧ ¬ one.1.poison ∧ one.2.reg (Reg.eccCeCount 8) = 1 ∧ two.1.poison ∧ again.1.poison ∧
      again.2.rel.ssbWays = [k * 16] ∧ ¬ (again.2.readStaged 64 (State.reset.locate 64) none).1.poison) := by decide +kernel

theorem meets_GovernorLimits :
    (let q := chained [3] .parked
     let s := modelled (serves (withSkein { st := .resident, ctx := 1, block := 5, refs := 1 }) [hank hankRec [q] .active] [])
     s.serving ∧ s.seqResident q.chains ∧ q.kvSince = none ∧ s.modelOf (hank hankRec [q] .active) = some model0) ∧
    (let q := { chained [] .parked with kvSince := some 0 }
     let s := { serves ringed [hank hankRec [q] .active] [] with tick := (ringed.fld Reg.govKvWait 23 0) }
     s.serving ∧ posting s 1 ∧ q.compact = none ∧ q.errs = [] ∧ 0 + s.fld Reg.govKvWait 23 0 = s.tick) ∧
    (let s := { up with tick := up.fld Reg.govWindow 23 0 }
     s.tick / s.fld Reg.govWindow 23 0 * s.fld Reg.govWindow 23 0 ≠ s.serve.windowStart) ∧
    up.tick / up.fld Reg.govWindow 23 0 * up.fld Reg.govWindow 23 0 = up.serve.windowStart ∧
    (let s := { up with tick := 1000 }
     s.serving ∧ s.serve.throttleAt + 1000 = s.tick ∧ s.fld Reg.govThrottle 28 18 < 2047 ∧ ¬ s.throttledOut ∧ s.serve.throttle < 8 ∧
      ({ s with tick := 999 }).tick < s.serve.throttleAt + 1000) := by decide +kernel

theorem meets_QuarantineAndRestart :
    (let s := { modelled up with rel := { boundary := [.quarantine 0 64] } }
     s.serving ∧ s.rel.boundary = [.quarantine 0 64] ∧ s.model 0 = some model0 ∧ model0.hasWeight 64 ∧ model0.repair = []) ∧
    (let o := { model0 with rec_ := model0.rec_ + 1024, quarantined := true }
     let s := { up with serve := { models := [(0, some o)] } }
     s.serving ∧ s.model 0 = some o ∧ o.mirror ∧ ¬ s.modelStepping 0 ∧ o.repair = [] ∧ s.rel.mirrorBad = []) ∧
    (let o := { model0 with rec_ := model0.rec_ + 1024 + 2 ^ 320, quarantined := true, repair := [64] }
     let s := poke (poke (copied { up with serve := { models := [(0, some o)] } } (.mirror 0)) 64 []) 4160 []
     s.model 0 = some o ∧ ¬ o.full ∧ o.repair = [64] ∧ o.mirrorOf 64 = some 4160 ∧ s.copying (.mirror 0) ∧
      (∀ a ∈ [64, 4160], ¬ isContent a ∧ s.bankAnswers (s.locate a) ∧ s.rowClass (s.rowKey (s.locate a)) = .raw)) ∧
    (let p := { step1 with restart := true }
     let s := modelled (serves up [stepping] [p])
     s.serving ∧ s.stepOf p.uid = some p ∧ s.hankOf p.hank = some stepping ∧ p.preAt = none ∧ p.switch = none ∧ p.waiting = [] ∧
      s.serve.rows = [] ∧ p.restart ∧ ¬ s.bankOwed p.bank ∧ (s.ctx 1).closing = none ∧ s.cores.all (fun e => !(e.2.stream.any (fun t => t.work = p.uid)))) := by decide +kernel
/-! #### The Winder and the Twine fabric -/

/-- A WINDER record of context 1: 64 bytes from `src` to `dst`, with more fields. -/
def copyRec (src dst : Nat) (more : List (Nat × Nat)) : Record :=
  record ([(0, 0x20), (11, 5), (16, 18056), (128, src), (192, dst), (576, 63), (696, 64), (720, 1), (744, 1), (768, 1), (792, 1), (1984, 77)] ++ more)
def desc (src dst : Nat) (more : List (Nat × Nat)) : WDesc := ⟨1, 77, BitVec.ofNat 1024 (copyRec src dst more).toNat⟩
/-- `ringed` with an extent over all of memory, and engine 15. -/
def wound (e : WEngine) (q : List WDesc) : State := { ringed with
  regs := ringed.regs ++ [(Reg.ctx 1 (Reg.extLimit 0), 0x3fffffff), (Reg.ctx 1 (Reg.extCtl 0), 3)]
  winder := { queue := q, engines := [(15, e)] } }
def waiting (tick : Nat) (value : BitVec 48) : State :=
  { wound { desc := some (desc 0 0x100000 [(45, 1), (64, 5)]), wait := some 0 } [] with tick := tick, tally := [(0, value)] }
theorem meets_WinderDescriptors :
    (recKind (copyRec 0 0x100000 []) = 0x20 ∧ (wound {} []).winderBad 1 (copyRec 0 0x100000 []) = none ∧ (wound {} []).mayAccept 1 1) ∧
    (let d := desc 0 0x100000 []
     let s := wound {} [d]
     s.serving ∧ ¬ s.pwr.drain ∧ (s.engine 15).desc = none ∧ ¬ (s.engine 15).gov.any s.copyWanted ∧ s.nextCopy = none ∧
      s.nextWinder (s.engine 15).last = some d ∧ ¬ d.overlaps ∧ d.aligned) ∧
    (let s := { wound {} [] with skeins := (withSkein { st := .resident, ctx := 1, block := 5, spillTo := some 0, refs := 1 }).skeins }
     s.nextCopy = some (.spill 3) ∧ s.governing < s.fld Reg.wndGov 3 0) ∧
    (let d := desc 1 0x100000 []
     let s := wound {} [d]
     s.nextWinder (s.engine 15).last = some d ∧ ¬ d.overlaps ∧ ¬ d.aligned ∧ posting s 1) ∧
    (let d := desc 0 0x100000 [(45, 1), (64, 5)]
     let s := waiting (ringed.fld Reg.wndHold 23 0) 5
     let t := waiting (ringed.fld Reg.wndHold 23 0) 4
     (s.engine 15).desc = some d ∧ (s.engine 15).wait = some 0 ∧ s.winderReached d ∧ ¬ t.winderReached d ∧ t.serving ∧
      0 + t.fld Reg.wndHold 23 0 = t.tick ∧ posting t d.ctx) ∧
    (let d := desc 0 0x100000 []
     let s := wound { desc := some d, rpos := 64, pos := 64, committed := 64 } []
     s.serving ∧ (s.engine 15).desc = some d ∧ (s.engine 15).wait = none ∧ (s.engine 15).torn = false ∧ (s.engine 15).finished d ∧
      s.twine.reqs.all (fun r => r.eng != 15) ∧ posting s d.ctx) := by decide +kernel

/-- Engine 15 at the start of a copy of the line at 0, and with that line in hand. -/
def copying (src dst : Nat) (got : List SrcUnit) : State :=
  poke (poke (wound { desc := some (desc src dst []), got := got } []) src [1, 2, 3]) dst [9]
def inHand : SrcUnit := { addr := 0, data := [1, 2, 3] ++ List.replicate 61 0, poison := false, unsealed := false }
theorem meets_WinderCopies :
    (∀ dst ∈ [0x100000, lastLine], ∀ got ∈ [[], [inHand]],
      let s := copying 0 dst got
      let d := desc 0 dst []
      let x := s.engine 15
      s.serving ∧ x.desc = some d ∧ x.wait = none ∧ x.stop = none ∧ x.land = [] ∧ x.loop = [] ∧ x.at_ = none ∧ d.mode = 0 ∧ ¬ d.sremote ∧ ¬ d.dremote ∧ x.pos < d.total ∧
        x.rpos = x.pos ∧ x.skipPads d d.total d.total x.pos = x.pos) ∧
    (let s := copying 0 lastLine []
     let d := desc 0 lastLine []
     let x := s.engine 15
     let seg := min d.total (x.segEnd d)
     (WEngine.fill d seg (seg + 1) x).2 = some 0 ∧ s.winderRefusal 1 0 false = none ∧ ¬ isContent 0 ∧ bankIdle s (s.locate 0) ∧
      s.rowClass (s.rowKey (s.locate 0)) = .raw ∧ 0 % 64 + d.unit ≤ 64) ∧
    (let s := copying 0 lastLine [inHand]
     let d := desc 0 lastLine []
     let x := s.engine 15
     let seg := min d.total (x.segEnd d)
     let f := WEngine.fill d seg (seg + 1) x
     let y := f.1
     let l := y.chunk d (min seg y.rpos) y.pos
     f.2 = none ∧ y.outStart l = (lastLine : Int) ∧ s.winderRefusal 1 lastLine true = none ∧ lastLine < memTop ∧ ¬ isContent lastLine ∧
      bankIdle s (s.locate lastLine) ∧ s.rowClass (s.rowKey (s.locate (lastLine / 64 * 64))) = .raw ∧
      lastLine % 64 + (y.outBytes d l).length = 64 ∧ ¬ d.dtcEn ∧ y.badUnit d l = none) := by decide +kernel

/-- Port 7 in a state, from a base of `up`. -/
def ported (s : State) (x : TPort) : State := { s with twine := { s.twine with ports := [(7, x)] } }
def live : TPort := { st := .up, rxKey := true, txKey := true }
/-- A packet sealed as its receiver expects it. -/
def sealed (s : State) (p : Port) (h : BitVec 256) (data : List (BitVec 256)) : Packet :=
  let x := s.port p
  let c := gcmSeal (Config.linkKey p false x.rxGen) (Config.linkIv p false x.rxGen ^^^ BitVec.ofNat 96 x.rxSeq) (BitVec.ofNat 384 h.toNat) data
  { header := h, data := c.1, trailer := BitVec.ofNat 256 c.2.toNat }
theorem sealed_header (s : State) (p : Port) (h : BitVec 256) (data : List (BitVec 256)) : (sealed s p h data).header = h := rfl
theorem sealed_length (s : State) (p : Port) (h : BitVec 256) (data : List (BitVec 256)) : (sealed s p h data).data.length = data.length := by simp [sealed]
/-- Above its tag the trailer holds nothing. -/
theorem sealed_above (s : State) (p : Port) (h : BitVec 256) (data : List (BitVec 256)) (hi lo : Nat) (n : 128 ≤ lo) : bitsAt (sealed s p h data).trailer.toNat hi lo = 0 := by
  have t : (sealed s p h data).trailer.toNat < 2 ^ 128 := by
    simp only [sealed, BitVec.toNat_ofNat]
    exact Nat.lt_of_le_of_lt (Nat.mod_le _ _) (BitVec.isLt _)
  simp only [bitsAt]
  rw [Nat.div_eq_of_lt (Nat.lt_of_lt_of_le t (Nat.pow_le_pow_right (by decide) n)), Nat.zero_mod]
theorem sealed_opens (s : State) (p : Port) (h : BitVec 256) (data : List (BitVec 256)) : s.opened p (sealed s p h data) = some data := by
  have a := sealed_above s p h data 255 128 (by decide)
  have t : (sealed s p h data).trailer.extractLsb' 0 128 =
      (gcmSeal (Config.linkKey p false (s.port p).rxGen) (Config.linkIv p false (s.port p).rxGen ^^^ BitVec.ofNat 96 (s.port p).rxSeq)
        (BitVec.ofNat 384 h.toNat) data).2 := by
    apply BitVec.eq_of_toNat_eq
    simp only [sealed, BitVec.extractLsb'_toNat, BitVec.toNat_ofNat, Nat.shiftRight_zero]
    omega
  simp only [State.opened, a, t, sealed_header, Nat.mul_zero, Nat.add_zero]
  exact gcmOpen_gcmSeal _ _ _ _
theorem sealed_ok (s : State) (p : Port) (h : BitVec 256) (data : List (BitVec 256)) : pktOk h data (sealed s p h data).trailer = pktOk h data 0 := by
  simp only [pktOk, sealed_above s p h data 255 176 (by decide)]
  rfl

/-- The parts of `State.Receives` for a packet with this header and `n` data items. -/
abbrev receives (s : State) (p : Port) (h : BitVec 256) (n : Nat) : Prop :=
  s.powered ∧ s.pwr.safe = none ∧ s.pwr.state = .p0 ∧ (s.port p).st.receives ∧ (s.port p).rxKey ∧ ¬ s.overflows p (hClass h) (2 + n)
theorem receives_is (s : State) (p : Port) (h : BitVec 256) (data : List (BitVec 256)) (w : receives s p h data.length) :
    s.Receives p (sealed s p h data) :=
  ⟨w.1, w.2.1, w.2.2.1, w.2.2.2.1, w.2.2.2.2.1, by rw [sealed_length]; exact w.2.2.2.2.2⟩
abbrev addressed (s : State) (h : BitVec 256) : Prop :=
  hField h 63 56 = (s.peer (hSnode h)).epoch ∧ ¬ (s.peer (hSnode h)).dead ∧ hField h 55 48 = s.nodeEpoch ∧ hDnode h = s.nodeId
theorem addressed_is (s : State) (h : BitVec 256) (w : addressed s h) : s.AddressedHere h := ⟨w.1, w.2.1, w.2.2.1, w.2.2.2⟩
/-- A request for 64 bytes at page 1, offset 64, from node 2 to node 0. -/
def request (typ : Nat) : BitVec 256 := pktHeader typ 0 0 2 0 0 9 0 false (2 ^ 21 + 64) 63 0 0
/-- The translation of page 1 to local page 0 for context 1 and node 2: read and write. -/
def entry : BitVec 128 := 0x17 + 2 * 2 ^ 64
/-- A port that holds a translation of page 1. -/
def translated (e : BitVec 128) : State := ported ext1 { live with cache := [(1, e)] }
/-- With `sealed_opens`, `sealed_ok`, `receives_is` and `addressed_is`: what InboundRequests asks of a packet `sealed s 7 h data`. -/
theorem meets_InboundRequests : ∀ k ∈ [(1, ([7, 0] : List (BitVec 256))), (2, [])],
    (let s := translated entry
     let h := request k.1
     receives s 7 h k.2.length ∧ addressed s h ∧ (s.port 7).inReq = [] ∧ (s.port 7).st.live ∧ (s.port 7).egress + responseItems h ≤ 8192 ∧
      s.takenOf (7 : Port) = {} ∧ (s.port 7).cache.find? (fun x => decide (x.1 = hAddr h / 2 ^ 21)) = some (hAddr h / 2 ^ 21, entry) ∧
      isKind k.1 0 h ∧ pktOk h k.2 0 ∧ s.grant entry h (hSnode h) = some 64 ∧ 64 % 64 + (hBytes h + 1) = 64 ∧
      bankIdle s (s.locate 64) ∧ s.rowClass (s.rowKey (s.locate 64)) = .raw) ∧
    (let s := translated 0
     s.grant 0 (request k.1) 2 = none) := by decide +kernel

/-- R307 to R310: a READ of one line through a translation is answered with the line. -/
theorem test_inbound_read :
    (let s := poke (translated entry) 64 [1, 2, 3]
     let u := (s.modPort 7 (fun x => { x with inReq := [{ header := request 2, data := [] }] })).serveAll 7
     (u.port 7).rsp.map (fun k => (hType k.header, k.data)) = [(3, [0x030201, 0])] ∧ (u.port 7).inReq = []) := by decide +kernel

def remote (write : Bool) (into : List (Nat × Nat × Nat) := []) : RemReq :=
  { tag := 9, eng := 15, serial := 3, node := 2, write := write, addr := 64, len := 64, port := some 7, sent := true, at_ := 0, bytes := 64
    into := into }
def answered (l : List RemReq) : State :=
  { ported (wound { desc := some (desc 0 (2 ^ 21) []) } []) live with twine := { ports := [(7, live)], reqs := l } }
def response (typ addr bytes status : Nat) : BitVec 256 := pktHeader typ 0 0 2 0 0 9 0 false addr bytes status 0
/-- With `sealed_opens`, `sealed_ok`, `receives_is` and `addressed_is`: what ResponsesResolve asks. -/
theorem meets_ResponsesAndTimers :
    (∀ k ∈ [(4, response 4 0 0 0, remote true, ([] : List (BitVec 256))), (5, response 5 0 0 3, remote true, []),
        (3, response 3 64 63 0, remote false, [1, 0]), (3, response 3 64 63 0, remote false [(lastLine, 0, 64)], [1, 0])],
      let r := k.2.2.1
      let s := answered [r]
      let h := k.2.1
      receives s 7 h k.2.2.2.length ∧ addressed s h ∧ (s.port 7).inReq = [] ∧ s.twine.reqs = [r] ∧ r.tag = hTag h ∧
        r.node = hSnode h ∧ r.sent ∧ isKind k.1 0 h ∧ pktOk h k.2.2.2 0 ∧ (s.engine 15).desc = some (desc 0 (2 ^ 21) []) ∧
        (s.engine 15).failed = none ∧ (s.engine 15).land = [] ∧ (s.engine 15).landAt = none) ∧
    (hAddr (response 3 64 63 0) = 64 ∧ hBytes (response 3 64 63 0) + 1 = 64 ∧ hPoison (response 3 64 63 0) = 0 ∧
      (answered []).twine.reqs = []) ∧
    (let d := desc 0 (2 ^ 21) []
     let s := poke (answered [remote false [(lastLine, 0, 64)]]) lastLine []
     lastLine % d.unit + 64 ≤ d.unit ∧ s.winderRefusal 1 lastLine true = none ∧ lastLine < memTop ∧ ¬ isContent lastLine ∧
      bankIdle s (s.locate lastLine) ∧ s.rowClass (s.rowKey (s.locate (lastLine / 64 * 64))) = .raw ∧ ¬ d.dtcEn) ∧
    (let s := { answered [remote true] with tick := up.fld Reg.twnReqTo 19 0 }
     s.twine.reqs = [remote true] ∧ 0 + s.fld Reg.twnReqTo 19 0 = s.tick) ∧
    ({ up with twine := { late := [(0xffff, 1)] } }).twine.late = [((0xffff : BitVec 16).toNat, 1)] := by decide +kernel

def link (sub : Nat) : BitVec 256 := pktHeader 6 sub 0 2 0 0 0 0 false 0 0 0 0
/-- Register TWN_P7_CTL: ENABLE, with MODE 0 (CREDIT) or 1. -/
def portCtl (v : Word) (s : State) : State := { s with regs := [(Reg.twnPCtl 7, v)] }
/-- With `sealed_opens`, `sealed_ok` and `receives_is`: what LinkPackets asks; and what Transmitter asks. -/
theorem meets_LinkTraffic :
    (let s := ported up { live with st := .param }
     receives s 7 (link 1) 2 ∧ (s.port 7).inReq = [] ∧ isKind 6 1 (link 1) ∧ (s.port 7).st = .param ∧
      pktOk (link 1) [0, 0] 0 ∧ (s.creditMode 7 = !(0 : Nat).testBit 25) ∧ ¬ (s.peer 0).dead) ∧
    (∀ k ∈ [(2, ([] : List (BitVec 256))), (3, [1]), (4, [])], let s := ported up { live with updates := [.transmit] }
     receives s 7 (link k.1) k.2.length ∧ isKind 6 k.1 (link k.1) ∧ pktOk (link k.1) k.2 0 ∧ s.creditMode 7 ∧ (s.port 7).st.live ∧
      (s.port 7).updates = [.transmit]) ∧
    (hField (1 : BitVec 256) 7 0 ≤ 1 ∧ 2 ≤ hField (2 : BitVec 256) 7 0) ∧
    (let k : TxPkt := { header := link 4, data := [] }
     let s := ported up { live with lnk := [k], credit := { lnk := 2 } }
     s.powered ∧ s.pwr.safe = none ∧ (s.port 7).st = .up ∧ ¬ s.paused 7 ∧ (s.port 7).inReq = [] ∧ (s.port 7).lnk = k :: [] ∧ (s.port 7).lnkWait = [] ∧
      k.items = (s.port 7).credit.lnk) ∧
    (let s := ported up { live with owed := { rsp := 256 } }
     s.creditMode 7 ∧ 256 ≤ (s.port 7).owed.lnk + (s.port 7).owed.rsp + (s.port 7).owed.req ∧ (s.port 7).lnk = [] ∧ (s.port 7).lnkWait = [] ∧ (s.port 7).st = .up) ∧
    (let s := { ported up { live with heads := [(2, 0)], txSeq := 2 ^ 40, rxSeq := 2 ^ 41 } with tick := 1000 }
     (classCode .req, 0) ∈ (s.port 7).heads ∧ 0 + 1000 = s.tick ∧ (s.port 7).seq .transmit = 2 ^ 40 ∧ (s.port 7).updates = [] ∧ (s.port 7).txKey ∧
      2 ^ 41 ≤ (s.port 7).seq .receive) := by decide +kernel

def aged (t : Nat) (x : TPort) : State := { ported up x with tick := t }
theorem meets_PortStates :
    (let s := portCtl 1 (ported up {})
     s.serving ∧ s.portEnabled 7 ∧ (s.port 7).st = .disabled ∧ ¬ s.pwr.drained) ∧
    (∀ st ∈ [PortSt.train, .align, .auth], ((ported up { st := st }).port 7).st = st ∧ ((ported up { st := st }).port 7).txKey = false ∧ (ported up { st := st }).serving) ∧
    (∀ k ∈ [(PortSt.train, 300000), (.align, 10000), (.auth, 200000), (.param, 1000)],
      ((aged k.2 { st := k.1 }).port 7).st.limit = some k.2 ∧ ((aged k.2 { st := k.1 }).port 7).since + k.2 = (aged k.2 { st := k.1 }).tick) ∧
    (let s := aged 100000 { st := .down }
     (s.port 7).st = .down ∧ ¬ (s.port 7).spent ∧ (s.port 7).since + 100000 = s.tick) ∧ live.st.live ∧
    (let k : TxPkt := { header := request 1, data := [0, 0], own := some 9 }
     let r := { remote true with sent := false, port := some 6 }
     let s := { up with twine := { ports := [(6, { st := .train, req := [k] }), (7, live)], routes := [(2, 6 + 16 * 7)], reqs := [r] } }
     s.serving ∧ s.route 2 = (6, 7) ∧ ¬ s.portUp 6 ∧ s.portUp 7 ∧ s.twine.reqs = [r] ∧ (s.port 6).req = [k] ∧ k.own = some r.tag ∧
      (s.port 7).egress + k.items ≤ 8192) := by
  decide +kernel

/-- A port whose session is established, whichever end of the link it is. -/
def agreed : State := { ported up { st := .auth, spdmIn := List.replicate (Config.linkRounds 7 + 1) [] } with
  regs := [(Reg.secStatusLo, 0x20000)], trust := { sessions := [{ id := 1, peer := .port 7, ready := true }] } }
theorem meets_PortBringUp_auth : (agreed.port 7).st = .auth ∧ agreed.fld Reg.secStatusLo 17 17 = 1 ∧ agreed.linkAgreed 7 := by
  refine ⟨rfl, by decide +kernel, ?_⟩
  have a : agreed.sessionFits 7 = true := by decide +kernel
  have b : (agreed.trust.sessions.any (fun y => State.ofPort 7 y && y.ready) &&
      !((agreed.port 7).lnk ++ (agreed.port 7).lnkWait).any (fun k => decide (hSub k.header = 3))) = true := by decide +kernel
  have c : (agreed.port 7).spdmIn = List.replicate (Config.linkRounds 7 + 1) [] := rfl
  simp only [State.linkAgreed, a, b, c, List.length_replicate]
  simp

/-- A chain of a device, one of a sled whose root SEC_TWN_ROOT_2 names, one of a sled it does not, and one that does not verify. -/
theorem meets_PortBringUp_chain :
    let s : State := { up with regs := [(Reg.secTwnRoot 2 0, 5), (Reg.secTwnRoot 2 7, 1)] }
    s.chainPasses { verifies := true, sled := none } ∧ s.chainPasses { verifies := true, sled := some (5 + 2 ^ 224) } ∧
      (∀ r, r < 4 → s.twnRoot r ≠ (5 : BitVec 256).toNat) ∧ ¬ s.chainPasses { verifies := true, sled := some 0 } := by decide +kernel

theorem meets_PeersAndTranslations :
    (∀ b ∈ [Boundary.peerDead 65535, .peerAlive 65535], let s := { up with rel := { boundary := [b] } }
     s.serving ∧ s.rel.boundary = [b] ∧ s.twine.reqs = [] ∧ s.twine.ports = []) ∧
    (∀ v ∈ [0, 1024], let a := xltAddr (2 ^ 18 - 1)
     let s := poke (poke (poke { up with regs := [(Reg.twnXltIdx, 0x3ffff), (Reg.twnXltData 0, BitVec.ofNat 32 v), (Reg.twnXltData 1, 61 * 2 ^ 12)] }
       a [1]) (a + 0x140003000) []) (a + 0x280006000) []
     s.regAnswers ∧ ¬ (s.ctx 0).d3hot ∧ s.pwr.state = .p0 ∧ xltAddr (s.fld Reg.twnXltIdx 17 0) = a ∧
      (∀ b ∈ copiesOf a, s.bankAnswers (s.locate b) ∧ s.rowClass (s.rowKey (s.locate b)) = .raw) ∧
      bitsAt (s.reg (Reg.twnXltData 0)).toNat 31 10 * 1024 = v ∧ bitsAt (s.reg (Reg.twnXltData 1)).toNat 31 18 = 0 ∧
      bitsAt (s.reg (Reg.twnXltData 3)).toNat 31 0 = 0 ∧ bitsAt (s.reg (Reg.twnXltData 1)).toNat 17 12 = 61) := by decide +kernel
/-! #### The host interface, inputs, registers, repair -/

/-- Context 1 in a state, with rings of 8 slots and a ring status block. -/
def ctx1 (x : Ctxs) : State := { up with
  regs := [(Reg.ctx 1 Reg.sqSize, 3), (Reg.ctx 1 Reg.cqSize, 3), (Reg.ctx 1 Reg.rsbLo, 64), (Reg.ctx 1 Reg.irq, 0)], ctxs := [(1, x)] }
theorem meets_HostDoorbells :
    (let s := ctx1 { st := .running, sqTail := 0xffffffff, sqHead := 0xffffffff, cqTail := 7, eqTail := 7 }
     taken s 1 ∧ s.pwr.state = .p0 ∧ (s.ctx 1).closing = none ∧ s.stopped 1 ∧ (∀ p ∈ s.serve.steps, p.ctx = 1 → p.saved = []) ∧
      (s.ctx 1).posts = [] ∧ (s.ctx 1).writes ≤ (s.ctx 1).flushed ∧ ahead 7 (s.ctx 1).sqTail ∧ (7 - (s.ctx 1).sqHead).toNat = s.sqSize 1 ∧ ahead 8 (s.ctx 1).sqTail ∧
      s.sqSize 1 < (8 - (s.ctx 1).sqHead).toNat ∧ ¬ ahead 0xffffffff (s.ctx 1).sqTail ∧ ahead 7 (s.ctx 1).cqHead ∧
      ¬ ahead 7 (s.ctx 1).cqTail ∧ ahead 8 (s.ctx 1).cqTail ∧ ¬ ahead 0 (s.ctx 1).cqHead ∧ ahead 7 (s.ctx 1).eqHead ∧
      ¬ ahead 7 (s.ctx 1).eqTail ∧ ahead 8 (s.ctx 1).eqTail ∧ ¬ ahead 0 (s.ctx 1).eqHead) ∧
    (∀ st ∈ [CtxSt.off, .idle, .faulted], ((ctx1 { st := st }).ctx 1).st ≠ .running ∧ ((ctx1 { st := st }).ctx 1).st ≠ .stopping) ∧
    (let s := { ctx1 {} with pwr := { up.pwr with state := .p2 } }
     taken s 1 ∧ s.pwr.state = .p2 ∧ s.fld Reg.pwrWakeEn 2 2 ≠ 1) := by decide +kernel

theorem meets_RecordsAndInterrupts :
    (recKind (record [(0, 2)]) ∉ [0x01, 0x10, 0x11, 0x12, 0x13, 0x20, 0x30, 0x40, 0x50, 0x51] ∧ ringed.mayAccept 1 1 ∧ posting ringed 1) ∧
    recKind (record [(0, 0x51)]) = 0x51 ∧
    (∀ st ∈ [CtxSt.running, .stopping], let s := ctx1 { st := st, sqTail := 1, sqRead := 1 }
     s.serving ∧ (s.ctx 1).st = st ∧ (s.ctx 1).sqHead ≠ (s.ctx 1).sqRead ∧ (s.ctx 1).closing = none ∧ s.stopped 1 ∧
      (∀ p ∈ s.serve.steps, p.ctx = 1 → p.saved = []) ∧ (s.ctx 1).posts = [] ∧ (s.ctx 1).writes ≤ (s.ctx 1).flushed) ∧
    (let s := ctx1 { st := .running }; s.serving ∧ (s.ctx 1).st = .running ∧ (s.ctx 1).sqHead = (s.ctx 1).sqRead) ∧
    (let s := ctx1 { st := .running, flushes := [4, 9], writes := 9 }
     s.powered ∧ (s.ctx 1).closing = none ∧ (s.ctx 1).st = .running ∧ (s.ctx 1).flushes = 4 :: [9] ∧ (s.ctx 1).barrier = none ∧ (s.ctx 1).posts = []) ∧
    (let r : Completion := { rkind := 0x20 }
     let s := ctx1 { st := .running, flushes := [4], writes := 4, posts := [⟨.final r, 4⟩], reserved := 1 }
     s.powered ∧ (s.ctx 1).flushes = 4 :: [] ∧ (s.ctx 1).barrier = none ∧ (s.ctx 1).posts = [⟨.final r, 4⟩] ∧ 4 ≤ max (s.ctx 1).flushed 4 ∧
      s.canPost 1) ∧
    (let s := ctx1 { st := .running, unsignalled := 1, msix := [(12, 0)], dirty := true }
     s.canSend 1 ∧ 0 < (s.ctx 1).unsignalled ∧ (s.ctx 1).firstUnsig + s.cfld 1 Reg.irq 25 16 = s.tick ∧ ¬ (s.ctx 1).d3hot ∧
      (sget noMsix (s.ctx 1).msix 12).getLsbD 0 = false ∧ (s.ctx 1).dirty ∧ s.pair (Reg.ctx 1 Reg.rsbLo) (Reg.ctx 1 Reg.rsbHi) ≠ 0) ∧
    (let s := serves up [stepping] []
     s.serving ∧ (s.ctx 1).closing = none ∧ s.hankOf 1 = some stepping ∧ stepping.ctx = 1 ∧ (s.seq 1 0).st = .stepping ∧ (s.seq 1 0).fate = none) := by
  decide +kernel

theorem meets_RunAndResets :
    (let s := ctx1 { st := .idle }
     s.regAnswers ∧ s.pwr.state = .p0 ∧ ¬ (s.ctx 1).d3hot ∧ (s.ctx 1).closing = none ∧ (s.ctx 0).closing = none ∧ (s.ctx 1).posts = [] ∧
      (s.ctx 1).st = .idle ∧ (s.ctx 1).busMaster ∧
      s.pair (Reg.ctx 1 Reg.rsbLo) (Reg.ctx 1 Reg.rsbHi) ≠ 0 ∧ s.powered ∧ s.pwr.ready ∧ ¬ (s.ctx 0).d3hot) ∧
    ¬ ((ctx1 { st := .idle, busMaster := false }).ctx 1).busMaster ∧
    (let s := { up with ctxs := [(1, { st := .idle })] }
     s.pair (Reg.ctx 1 Reg.rsbLo) (Reg.ctx 1 Reg.rsbHi) = 0) ∧
    (∀ n ∈ [0, 1], let s := ctx1 { st := .running, reserved := n }
     s.regAnswers ∧ (s.ctx 1).st = .running ∧ (s.ctx 1).barrier = none ∧ (s.ctx 1).posts = []) ∧
    (∀ n ∈ [0, 1], let s := ctx1 { st := .stopping, reserved := n }
     s.regAnswers ∧ (s.ctx 1).st = .stopping ∧ (s.ctx 1).barrier = none ∧ (s.ctx 1).reserved = n) ∧
    (let k : Closing := { cause := 4, mute := true, flr := false, info := 0, core := 0 }
     (ctx1 { st := .running, closing := some k }).regAnswers ∧ ((ctx1 { st := .running, closing := some k }).ctx 1).closing = some k) ∧
    (∀ st ∈ [CtxSt.off, .idle, .faulted], let s := ctx1 { st := st }
     s.regAnswers ∧ ¬ (s.ctx 0).d3hot ∧ (s.ctx 1).closing = none ∧ (s.ctx 1).st ≠ .running ∧ (s.ctx 1).st ≠ .stopping ∧ (s.ctx 1).posts = []) ∧
    ((1 : Ctx).val ≠ 0 ∧ (0 : Ctx).val = 0) := by decide +kernel

def inputs (x : InputSt) (i : Nat) : State := { up with tick := 100, pwr := { up.pwr with inputs := [(i, x)] }, regs := [(Reg.twnPCtl 7, 3)] }
theorem meets_InputsFilter :
    (∀ i ∈ [0, 1, 9], (inputs {} i).filters i ∧ ((inputs {} i).input i).maskTo = none ∧ ((inputs {} i).input i).level = false ∧
      ((inputs {} i).input i).lastEdge = none) ∧
    (inputIx .wakeIn = 0 ∧ inputIx .thermAlertIn = 1 ∧ inputIx (.pauseIn 7) = 9) ∧
    (∀ e ∈ [97, 99], let s := inputs { lastEdge := some e } 9
     s.filters 9 ∧ (s.input 9).maskTo = none ∧ (s.input 9).lastEdge = some e ∧ e < s.tick ∧ s.tick ≤ e + 3) ∧
    (∀ m ∈ [100, 101], let s := inputs { maskTo := some m } 0
     s.filters 0 ∧ (s.input 0).maskTo = some m ∧ (m = 100 ↔ m ≤ s.tick)) ∧
    (let s := { inputs {} 0 with pwr := { up.pwr with state := .p2 }, regs := [(Reg.pwrWakeEn, 1)] }
     s.filters 0 ∧ (s.input 0).maskTo = none ∧ (s.input 0).lastEdge = none ∧ (s.input 0).level = false ∧ s.fld Reg.pwrWakeEn 0 0 = 1 ∧
      s.pwr.state = .p2 ∧ s.pwr.wakeSrc = none) := by decide +kernel

/-- Asserted since tick 0, at tick `n`. -/
def asserted (i n : Nat) : State := { inputs { level := true, since := some 0 } i with tick := n }
theorem meets_InputsStuck :
    (let n := (inputs {} 9).fld (Reg.twnPPauseHi 7) 23 0
     (asserted 9 n).assertedFor 9 n ∧ ¬ (asserted 9 (n - 1)).assertedFor 9 n ∧ (ported (asserted 9 n) live).assertedFor 9 n ∧
      ((ported (asserted 9 n) live).port 7).st = .up ∧ ((asserted 9 n).port 7).st ≠ .up) ∧
    (let n := up.fld Reg.pwrInCfgHi 23 0; (asserted 1 n).assertedFor 1 n ∧ (asserted 1 n).fld Reg.pwrInCfgHi 23 0 = n) ∧
    (let n := up.fld Reg.pwrInCfgLo 23 0; (asserted 0 n).assertedFor 0 n ∧ (asserted 0 n).fld Reg.pwrInCfgLo 23 0 = n ∧
      ((asserted 0 n).input 0).stuck = false ∧
      (let s := (asserted 0 n).setInput 0 { level := true, since := some 0, stuck := true }; s.assertedFor 0 n ∧ (s.input 0).stuck)) := by
  decide +kernel

/-- The write of GOV_SHARE to context 1's page, as it is staged. -/
def shareWrite (v : Word) : Staged :=
  { off := Reg.ctx 1 Reg.govShare, idx := 0, mask := stagedMask v.toNat ((regFields (Reg.ctx 1 Reg.govShare)).getD []), val := v.toNat }
def inTxn (t : Txn) : State := { up with txn := t }
theorem meets_ConfigurationTransactions :
    (∀ st ∈ [TxnSt.idle, .open_, .full, .committing], (inTxn { st := st }).regAnswers ∧ (inTxn { st := st }).pwr.state = .p0 ∧
      ¬ ((inTxn { st := st }).ctx 0).d3hot ∧ ((inTxn { st := st }).ctx 0).closing = none ∧ (inTxn { st := st }).txn.st = st ∧
      (inTxn { st := st }).txn.single = [] ∧ (inTxn { st := st }).txn.due = false) ∧
    (∀ v ∈ [0x100, 0xff01], (shareWrite (BitVec.ofNat 32 v)).mask ≠ 0 ∧
      ∀ f ∈ (regFields (Reg.ctx 1 Reg.govShare)).getD [], f.ty = .rwt → f.enc.admits (f.val (BitVec.ofNat 32 v).toNat)) ∧
    ((inTxn { st := .open_, count := 1023 }).txn.count < 1024 ∧ (inTxn { st := .open_, count := 1024 }).txn.count = 1024) ∧
    (inTxn { single := [shareWrite 0x1001] }).txn.st ≠ .committing ∧
    (let t := (inTxn { st := .committing, due := true, staged := [shareWrite 0x1001] }).txn
     t.st = .committing ∧ t.due ∧ t.single = [] ∧ t.staged = [shareWrite 0x1001]) := by decide +kernel

/-- R7, R388: a one-write transaction waits for the next tick boundary, and takes effect there. -/
theorem test_one_write :
    (let s := nextOr (exec (.rwtWrite (BitVec.ofNat 26 (Reg.ctx 1 Reg.govShare)) 0x1001) up) up
     let early := nextOr (exec .cfgApply s) s
     let tick := nextOr (step s) s
     let late := nextOr (exec .cfgApply tick) tick
     early.reg (Reg.ctx 1 Reg.govShare) = up.reg (Reg.ctx 1 Reg.govShare) ∧ late.reg (Reg.ctx 1 Reg.govShare) = 0x1001) := by decide +kernel

theorem meets_TransactionsDiscarded :
    (up.powered ∧ up.pwr.ready ∧ up.pwr.railsOk ∧ up.pwr.aonOk ∧ up.pwr.started ∧ up.pwr.resetReq ≠ some true ∧ up.pwr.safe ≠ some 2) ∧
    ¬ ({ up with pwr := { up.pwr with aonOk := false } }).pwr.aonOk ∧
    ({ up with pwr := { up.pwr with resetReq := some true } }).pwr.resetReq = some true ∧ 2000 ≤ 2000 := by decide +kernel
theorem meets_TransactionsDiscarded_powerFail : ∃ t, exec (.powerFail ⟨.vddCore, 2000⟩) up = .next t := ⟨_, rfl⟩

theorem meets_RegisterAccesses :
    (up.regAnswers ∧ up.pwr.state = .p0 ∧ (up.ctx 0).closing = none ∧ ¬ (up.ctx 0).d3hot ∧ (up.ctx 1).st = .off) ∧
    (let s := { up with ctxs := [(0, { d3hot := true })] }; s.regAnswers ∧ (s.ctx 0).d3hot) ∧
    (∀ st ∈ [CtxSt.idle, .running], let s := { up with ctxs := [(1, { st := st })] }
     s.regAnswers ∧ ¬ (s.ctx 1).d3hot ∧ (s.ctx 1).st = st) := by decide +kernel

/-- The Carder of stack 7 on, at its last line; a SEALED line there with symbol 0 wrong by 1. -/
def carding (m : Mem) : State := { up with
  regs := [(Reg.eccCarder 7, 0x01000100), (Reg.eccCarderPos 7, 0x3fffffff)], mem := m }
theorem meets_CarderAndBuckets :
    (let s := { up with regs := [(Reg.eccCeStat 8, 1)] }
     s.powered ∧ s.tick % s.fld (Reg.eccCeCfgHi 8) 23 0 = 0 ∧ s.fld (Reg.eccCeStat 8) 15 0 = 1 ∧ up.fld (Reg.eccCeStat 8) 15 0 = 0) ∧
    (let rk := (carding {}).rowKey (carderLoc 7 0x3fffffff)
     let line := (carderLoc 7 0x3fffffff).line
     let raw := carding { cls := [(rk, .raw)] }
     let bad := carding { data := [(rk * 1024 + 64 * line, 1)] }
     raw.serving ∧ raw.fld (Reg.eccCarder 7) 24 24 = 1 ∧ raw.tick % raw.fld (Reg.eccCarder 7) 23 8 = 0 ∧ ¬ raw.stackIsLost 7 ∧
      ¬ raw.pwr.tripped.getLsbD 7 ∧ raw.fld (Reg.eccCarder 7) 7 0 = 0 ∧ raw.bankAnswers (carderLoc 7 0x3fffffff) ∧
      bankIdle raw (carderLoc 7 0x3fffffff) ∧ raw.rowClass rk = .raw ∧ bankIdle bad (carderLoc 7 0x3fffffff) ∧ bad.rowClass rk = .sealed ∧
      classifyLine (bad.rawData rk line ++ bad.rawChk rk line) = .correctable 0 1) ∧
    (let l := carderLoc 7 0
     let s := { heldBank 7 l.die l.bank {} with regs := [(Reg.eccCarder 7, 0x01000100)] }
     s.fld (Reg.eccCarderPos 7) 29 0 = 0 ∧ s.bankBusy l ∧ s.bankAnswers l ∧ 0 + 1 < 2 ^ 30) ∧
    ¬ (({ up with regs := [(Reg.eccCarder 7, 0)] }).fld (Reg.eccCarder 7) 24 24 = 1) := by decide +kernel

/-- R371: a symbol that does not take its corrected value is logged as HARD (type 3) by the Carder (source 3) with its position. -/
theorem test_carder_hard :
    (let s : State := { up with regs := [(Reg.eccCarder 7, 0x01000100)], mem := { data := [(up.rowKey (carderLoc 7 0) * 1024, 1)] } }
     let u := nextOr (exec (.carderVisit 7 [0]) s) s
     u.mem.data = s.mem.data ∧ u.rel.log.map (fun e => (e.2.typ, e.2.source, e.2.symbol)) = [(3, 3, 0)] ∧
      (nextOr (exec (.carderVisit 7 []) s) s).mem.data = []) := by decide +kernel

/-- Physical core 151 carries logical core 143. -/
def carried (k : CoreSt) (x : Phys) : State := { up with cores := [(143, { k with map := { k.map with phys := some 151, last := some 151 } })], phys := [(151, x)] }
def window (dom : Word) (lo hi : Word) : State := { up with regs := [(Reg.eccWinAddrLo, lo), (Reg.eccWinAddrHi, hi), (Reg.eccWinCtl, dom)] }
/-- With these words in CTL, ADDR_LO and ADDR_HI the window names a line. -/
def windowReaches (ctl lo hi : Word) : Bool :=
  let s := { window ctl lo hi with cores := (carried {} {}).cores }
  s.winLine.isSome && s.regAnswers
theorem meets_SplitWriteWindow :
    windowReaches 0 0 0 ∧ windowReaches 0x8f01 0 0 ∧ windowReaches 0x702 0 0 ∧ (up.ctx 0).closing = none ∧
    (window 0 0 0x3ff).winLine = none ∧
    (let s := { up with skeins := { withheld := [0x3dffff] } }
     s.blockWithheld (bitsAt (0x3dffff : Word).toNat 21 0) ∧ ¬ s.blockWithheld 0) := by decide +kernel

theorem meets_CoreCommands :
    (let s := carried {} { logical := some 143 }
     s.regAnswers ∧ (151 : BitVec 8).toNat ≤ 151 ∧ .coreDead 151 6 ∈ ({ s with rel := { boundary := [.coreDead 151 6] } }).rel.boundary ∧
      (151 : PCore).val = (151 : BitVec 8).toNat ∧ ¬ (s.physOf 151).dead ∧ (s.physOf 151).logical = some 143 ∧ s.rel.boundary = [] ∧ s.rel.asked = []) ∧
    (let s := { up with phys := [(151, { dead := true })] }
     (s.physOf 151).dead ∧ (s.physOf 0).logical = none ∧ ¬ (s.physOf 0).dead ∧ 151 < (152 : BitVec 8).toNat) := by decide +kernel

theorem meets_CoresDieAndReturn :
    (let s := { up with phys := [(151, { dead := true })] }
     s.regAnswers ∧ (s.physOf (151 : BitVec 8).toNat).dead) ∧
    (let s := { carried {} { logical := some 143 } with rel := { boundary := [.coreDead 151 3] } }
     s.serving ∧ s.rel.boundary = [.coreDead 151 3] ∧ ¬ (s.physOf 151).dead ∧ (s.physOf 151).logical = some 143 ∧
      (s.core 143).map.epoch ≠ 255 ∧ s.serve.steps = [] ∧ (∀ x ∈ [0, 1, 15], (s.ctx x).closing = none) ∧ s.stream 143 = none) ∧
    (∀ n ∈ [99, 100], let s := { carried { stopReq := some 0, stream := some { stream [] with halt := some (some 3) } } { logical := some 143 } with tick := n }
     s.serving ∧ (s.core 143).stopReq = some 0 ∧ (s.core 143).map.phys = some 151 ∧ s.stopping 143) ∧
    (let s := { spindled { run := some { x := resealCmd, started := 0 } } with tick := 10000 }
     s.serving ∧ (s.spindle 0).run = some { x := resealCmd, started := 0 } ∧ s.spdAlive 0 ∧ 0 + 10000 = s.tick) := by decide +kernel

theorem meets_LostStacksAndSafeMode :
    (up.regAnswers ∧ (up.ctx 0).closing = none ∧ bitsAt (0x17 : Word).toNat 3 0 = 7 ∧ (0x17 : Word).getLsbD 4 ∧ ¬ up.stackIsLost 7 ∧ ¬ (7 : Word).getLsbD 4) ∧
    ({ up with regs := [(Reg.stkLost, 0x80)] }).stackIsLost 7 ∧
    (let s := { up with rel := { boundary := [.stackLost 7] } }; s.serving ∧ s.rel.boundary = [.stackLost 7] ∧ ¬ s.stackIsLost 7) ∧
    (let s := { up with tick := up.fld Reg.govWdog 23 0 }
     s.serving ∧ s.rel.wdogAt + s.fld Reg.govWdog 23 0 = s.tick ∧ up.tick < up.rel.wdogAt + up.fld Reg.govWdog 23 0) ∧
    (let s := { up with rel := { boundary := [.safe 6, .safe 1] } }
     s.safeCauses = 6 :: [1] ∧ s.powered ∧ s.pwr.safe = none ∧ up.safeCauses = []) := by decide +kernel
/-! #### Power, resets, trust, sideband -/

def powering (p : Power) (regs : List (Nat × Word)) (tick : Nat) : State :=
  { up with pwr := { p with started := true, ready := true }, regs := regs, tick := tick }
theorem meets_IdleAndLink :
    (let n := up.fld Reg.pwrIdle 19 0
     0 < n ∧ (∀ t ∈ [n - 1, n], let s := powering {} [] t
      s.serving ∧ s.pwr.state = .p0 ∧ ¬ s.pwr.drain ∧ s.fld Reg.pwrIdle 19 0 ≠ 0 ∧ ¬ s.atWork ∧ (s.pwr.busyAt + n ≤ s.tick ↔ t = n))) ∧
    ringed.atWork ∧
    (∀ t ∈ [1, 2], let s := powering { state := .p1, wakeAt := some 0 } [] t
     s.pwr.state = .p1 ∧ s.pwr.wakeAt = some 0 ∧ (0 + 2 ≤ s.tick ↔ t = 2)) ∧
    (let s := powering {} [(Reg.hifLink, 0x1106)] 0
     s.powered ∧ s.pwr.started ∧ s.pwr.ready ∧ s.fld Reg.hifLink 3 0 = 6) := by decide +kernel

theorem meets_LowPower :
    (up.regAnswers ∧ up.pwr.state = .p0 ∧ ¬ (up.ctx 0).d3hot) ∧
    (let s := powering { drain := true } [(Reg.pwrCtl, 2)] 1
     s.serving ∧ s.pwr.drain ∧ s.pwr.wakeSrc = none ∧ s.fld Reg.pwrCtl 1 0 = 2 ∧ ¬ s.pwr.drained ∧ ¬ s.inFlight ∧
      ({ s with twine := { reqs := [remote true] } }).inFlight ∧ ({ s with twine := { reqs := [remote true] } }).serving) ∧
    (let s := powering { drain := true, drained := true } [(Reg.pwrCtl, 2)] 1
     s.serving ∧ s.pwr.drained ∧ s.pwr.lowAt < s.tick ∧ ¬ s.pwr.wakeReq) ∧
    (∀ d ∈ [true, false], let s := { powering { drain := true, drained := true } [(Reg.pwrCtl, 3)] 1 with ctxs := [(0, { d3hot := d })] }
     s.powered ∧ s.pwr.ready ∧ s.pwr.safe = none ∧ s.pwr.drain ∧ s.fld Reg.pwrCtl 1 0 = 3 ∧ s.pwr.wakeSrc = none ∧ s.pwr.drained ∧
      s.pwr.lowAt < s.tick ∧ ¬ s.pwr.wakeReq ∧ ((s.ctx 0).d3hot ↔ d)) ∧
    (let s := powering { state := .p2 } [(Reg.pwrWakeEn, 2), (Reg.pwrWakeTimer, 9)] 9
     s.pwr.state = .p2 ∧ s.fld Reg.pwrWakeEn 1 1 = 1 ∧ s.reg Reg.pwrWakeTimer ≠ 0 ∧ s.pwr.lowAt + (s.reg Reg.pwrWakeTimer).toNat = s.tick ∧
      s.pwr.wakeSrc = none) ∧
    (let s := powering { state := .p2, wakeSrc := some 4 } [] 0
     s.pwr.state = .p2 ∧ s.pwr.wakeSrc.isSome ∧ s.powered ∧ s.pwr.heldReq = []) := by decide +kernel

/-- Readings in quarters of a degree: 105 °C is 420, 115 °C is 460, and the Mill die's bounds are 440 and 480. -/
def readings (first : Nat) : List (BitVec 16) := BitVec.ofNat 16 first :: List.replicate 7 400
theorem meets_Temperatures :
    (up.powered ∧ up.pwr.started ∧ up.tick % 100 = 0 ∧ ({ up with tick := 99 }).tick % 100 ≠ 0) ∧
    ((439 : BitVec 16).toInt < 440 ∧ ∀ k ∈ List.range 8, ((readings 419).getD k 0).toInt < 420) ∧
    ((479 : BitVec 16).toInt < 480 ∧ (∀ k ∈ List.range 8, ((readings 459).getD k 0).toInt < 460) ∧ 420 ≤ ((readings 420).getD 0 0).toInt) ∧
    (480 ≤ (480 : BitVec 16).toInt ∧ 460 ≤ ((readings 460).getD 0 0).toInt) ∧
    (∀ t ∈ [999, 1000], let s := powering { stkHot := 0x80, hotSince := [(7, some 0)] } [] t
     s.powered ∧ s.pwr.stkHot.getLsbD 7 ∧ sget noHot s.pwr.hotSince 7 = some 0 ∧ (0 + 1000 ≤ s.tick ↔ t = 1000)) := by decide +kernel

def bootEnv : BootEnv :=
  { repairMap := [], identityOk := true, record := none, stacksFail := [], checkersFail := [], coresFail := [], spindlesFail := [],
    testBallsOpen := true, aonClkOk := true, smbStraps := 0, flash := none }
theorem meets_Resets :
    (bootEnv.testBallsOpen ∧ bootEnv.aonClkOk ∧ ¬ up.pwr.perst ∧ up.pwr.railsOk ∧ up.pwr.aonOk ∧ up.pwr.resetReq ≠ some true ∧
      up.pwr.state ≠ .p3 ∧ up.powered ∧ up.pwr.started ∧ up.pwr.safe ≠ some 2 ∧ ¬ up.pwr.bootFail) ∧
    (let s := powering { resetReq := some true } [] 0; s.pwr.railsOk ∧ s.pwr.aonOk ∧ s.pwr.resetReq = some true) ∧
    (powering { perst := true } [] 0).pwr.perst ∧ ¬ (powering { aonOk := false } [] 0).pwr.aonOk ∧
    (powering { bootFail := true } [] 0).pwr.bootFail ∧ ¬ up.pinsFloat ∧ up.skeins.table = [] ∧ 24 < 25 ∧ 25 ≤ 25 ∧ 1999 < 2000 ∧ 2000 ≤ 2000 := by decide +kernel

/-- A header that passes: magic, format 1, VERSION 65537 for the signature's exponent, and a body of no bytes. -/
def header : Nat := 0x58485A51 + 2 ^ 32 + 65537 * 2 ^ 3584
def image : List Byte := (bytesOfNat 2048 header).map (BitVec.ofNat 8)
def updating (t : Trust) : State := { up with regs := [(Reg.secFwupLen, 2048)], trust := t }
theorem meets_FirmwareUpdate :
    (let s := updating {}
     s.secAnswers ∧ (s.ctx 0).busMaster ∧ s.trust.fw ≠ .busy ∧ ¬ s.trust.asked ∧ (imageOf image true true).formOk ∧
      2048 + (imageOf image true true).bodyLen = s.fld Reg.secFwupLen 21 0 ∧ (imageOf image true true).seq = s.trust.wantedSeq ∧
      s.fld Reg.secStatusLo 15 0 ≤ (imageOf image true true).svn) ∧
    ¬ (imageOf [] true true).formOk ∧
    (let s := updating { fw := .busy, staged := some {} }
     s.secAnswers ∧ s.trust.fw = .busy ∧ ¬ s.trust.asked ∧ s.trust.staged = some {} ∧ s.powered) := by decide +kernel

def req (session : Option (BitVec 32)) (p1 p2 : Byte) : SpdmReq := { peer := .func 0, session := session, param1 := p1, param2 := p2, payload := [], valid := true }
def trusted (conn : Nat) (ident : Word) (l : List SpdmSession) : State :=
  { up with regs := [(Reg.secStatusLo, ident)], trust := { conn := [(0, conn)], sessions := l } }
theorem meets_SpdmRequestsAndSessions :
    (∀ n ∈ [0, 1, 2, 3], (trusted n 0 []).spdmServes (req none 0 255) ∧ (trusted n 0 []).conn (req none 0 255) = n ∧
      (trusted n 0x20000 []).spdmServes (req none 0 255) ∧ (trusted n 0x20000 []).conn (req none 0 255) = n ∧ (trusted n 0x20000 []).identity) ∧
    ((req none 0 255).valid ∧ ¬ ({ req none 0 255 with valid := false }).valid ∧ bitsAt (req none 0 255).param1.toNat 3 0 = 0 ∧
      (req none 0 255).param1 = 0 ∧ (trusted 3 0x20000 []).identity ∧ ¬ (trusted 3 0 []).identity ∧
      (req none 1 255).param1.getLsbD 0 = true ∧ (req none 0 255).param2 = 255 ∧ (req none 0 200).param2.toNat = 200) ∧
    (let full := (List.range 16).map (fun i => ({ id := BitVec.ofNat 32 i, peer := .func 0 } : SpdmSession))
     (trusted 3 0x20000 (full.drop 1)).trust.sessions.length < 16 ∧ 16 ≤ (trusted 3 0x20000 full).trust.sessions.length ∧
      (req none 0 0).param2 = 0 ∧ (trusted 3 0x20000 []).sessionOf (req (some 5) 0 0) = none) ∧
    (∀ b ∈ [true, false], let x : SpdmSession := { id := 5, peer := .func 0, ready := b }
     let s := trusted 3 0x20000 [x]
     s.spdmServes (req (some 5) 0 0) ∧ 3 ≤ s.conn (req (some 5) 0 0) ∧ s.identity ∧ s.sessionOf (req (some 5) 0 0) = some x ∧ x.ready = b) := by
  decide +kernel

theorem meets_SpdmRequestsAndSessions_link :
    (let x : SpdmSession := { id := 5, peer := .port 7, ready := true }
     let s : State := { ported up live with regs := [(Reg.secStatusLo, 0x20000)], trust := { conn := [(71, 3)], sessions := [x] } }
     let r : SpdmReq := { req (some 5) 0 0 with peer := .port 7 }
     s.spdmServes r ∧ s.conn r = 3 ∧ s.identity ∧ s.sessionOf r = some x ∧ x.ready) := by decide +kernel

def debugging (dbg status : Word) (t : Trust) (b : List Boundary) : State :=
  { up with regs := [(Reg.secStatusLo, status), (Reg.secDbg, dbg)], trust := t, rel := { boundary := b } }
theorem meets_DebugLock :
    (up.pwr.railsOk ∧ (powering { perst := true } [] 0).pwr.perst ∧ ¬ up.pwr.perst ∧ up.powered ∧ up.pwr.started) ∧
    (∀ n ∈ [2, 3], (debugging 0 0 { fails := n } []).trust.fails = n) ∧
    ((debugging 0 0 {} []).fld Reg.secDbg 0 0 = 0 ∧ (debugging 3 0 {} []).fld Reg.secDbg 1 1 = 1) ∧
    (let s := debugging 1 0 { nonce := some (7, 0) } []
     s.fld Reg.secDbg 0 0 ≠ 0 ∧ s.fld Reg.secDbg 1 1 ≠ 1 ∧ s.trust.nonce = some (7, 0) ∧ s.tick < 0 + nonceLife ∧
      (debugging 1 0 {} []).trust.nonce = none ∧ 0 + nonceLife ≤ ({ s with tick := nonceLife }).tick) ∧
    .unlock ∈ (debugging 1 0 {} [.unlock]).rel.boundary ∧
    ((debugging 1 0x80000 {} []).fld Reg.secStatusLo 19 19 = 1 ∧ (debugging 1 0 {} []).fld Reg.secStatusLo 19 19 ≠ 1 ∧
      (2 : BitVec 64).toNat % 4 ≠ 0) := by decide +kernel

theorem meets_SmbusTelemetry :
    (powering { smbOn := true, smbAlert := true, safe := some 6 } [] 0).smbAnswers ∧
    (powering { smbOn := true, smbAlert := true, safe := some 6 } [] 0).pwr.smbAlert ∧ ¬ up.smbAnswers ∧ ¬ up.pwr.smbAlert := by decide +kernel
/-! ### The worked examples of the spec -/

/-- spec/05_stack_memory.md, "two addresses": the first line of region 16, in GLOBAL mode, and two of its neighbours. -/
theorem test_global_address : decodeLoc 0 0x0214C000000 = ⟨0, 0, 0, 17048, 0⟩ ∧ decodeLoc 0 0x0214C001000 = ⟨1, 0, 0, 17048, 0⟩ ∧
    decodeLoc 0 0x0214C008000 = ⟨0, 0, 32, 17048, 0⟩ := by decide +kernel
/-- The same example: a line of a Skein in region 40, in SKEIN mode: S3, D07, B51, row 41,126, line 1. -/
theorem test_skein_address : decodeLoc 2 0x050DF0A6C40 = ⟨3, 7, 51, 41126, 1⟩ := by decide +kernel
/-- spec/13_reliability.md, "a mirrored weight line": S4, D03, B09, row 61,442, line 5, and its mirror in S5. -/
theorem test_mirrored_line : decodeLoc 0 0x07801234540 = ⟨4, 3, 9, 61442, 5⟩ ∧ decodeLoc 0 0x07A01235540 = ⟨5, 3, 9, 62466, 5⟩ := by
  decide +kernel
/-- spec/02_arithmetic.md, Spindle and merge arithmetic: the partials (2, 1, 3.0) and (3, 1, 1.5) merge to L = 1.5, O = 3.0. -/
theorem test_merge : mergeAdd (mergeAdd (Partial.init 1) ⟨0x40000000, f32One, [0x40400000]⟩) ⟨0x40400000, f32One, [0x3FC00000]⟩ =
    ⟨0x40400000, 0x3FC00000, [0x40400000]⟩ := by decide +kernel
/-- spec/02_arithmetic.md, KV quantisation: an INT4 block of largest magnitude 3.5 with 1.25, −0.75 and 0.3. -/
theorem test_kv_block : (kvBlock 7 ([0x40600000, 0x3FA00000, 0xBF400000, 0x3E99999A] ++ List.replicate 28 0)).1 = 0x3F00 ∧
    ((kvBlock 7 ([0x40600000, 0x3FA00000, 0xBF400000, 0x3E99999A] ++ List.replicate 28 0)).2.take 4) = [7, 2, 14, 1] := by decide +kernel
/-- The same: an INT8 block of largest magnitude 1.0, where s is 0.00787353515625 and 0.5 becomes 64. -/
theorem test_kv_block_int8 : (kvBlock 127 ([0x3F800000, 0x3F000000] ++ List.replicate 30 0)).1 = 0x3C01 ∧
    ((kvBlock 127 ([0x3F800000, 0x3F000000] ++ List.replicate 30 0)).2.take 2) = [127, 64] := by decide +kernel
/-- spec/04_treadle_streams.md: 256 FP32 lanes take 4 cycles, 192 BF16 lanes 2, 256 INT4 lanes 1. -/
theorem test_move_cycles : moveCycles 7 256 = 4 ∧ moveCycles 5 192 = 2 ∧ moveCycles 4 256 = 1 := by decide
/-- FIPS 197, appendix C.3: one block under the key 00, 01, … 1F. -/
theorem test_aes_block : aesBlock (roundKeys (List.range 32)) ((List.range 16).map (fun i => 17 * i)) =
    [0x8e, 0xa2, 0xb7, 0xca, 0x51, 0x67, 0x45, 0xbf, 0xea, 0xfc, 0x49, 0x90, 0x4b, 0x49, 0x60, 0x89] := by decide +kernel
/-- The GCM specification's test case 14: key and IV of zeros, one block of zeros. -/
theorem test_gcm :
    (let keys := roundKeys (List.replicate 32 0)
     let c := gcmStream keys (List.replicate 12 0) (List.replicate 16 0)
     bigEndian c = 0xcea7403d4d606b6e074ec5d3baf39d18 ∧
      bigEndian (gcmTag keys (List.replicate 12 0) [] c) = 0xd0d1c8a799996bf0265b98b5d48ab919) := by decide +kernel
/-- Outcome of a command, looked at. -/
def after (c : Instr) (s : State) (p : State → Bool) : Bool :=
  match exec c s with
  | .next t => p t
  | _ => false
/-- spec/14_power_clocks_events.md, Table 14.4: the alert accepted at boundary 102, deasserted at 104, is masked until 1,104, where its
level agrees; deasserted again at 5,002. -/
def alert (n : Nat) (x : InputSt) : State := { up with tick := n, pwr := { up.pwr with inputs := [(1, x)] } }
theorem test_bouncing_alert :
    after (.thermAlertAccept true true) (alert 102 {}) (fun s => (s.input 1).level && !(s.input 1).chatter && (s.input 1).taken 1) ∧
    after (.thermAlertAccept false false) (alert 104 { level := true, lastEdge := some 102 })
      (fun s => !(s.input 1).level && (s.input 1).chatter && (s.input 1).maskTo == some 1104 && (s.input 1).taken 1) ∧
    after (.chatterMaskExpiry .thermAlertIn true true) (alert 1104 { chatter := true, maskTo := some 1104 })
      (fun s => (s.input 1).level && (s.input 1).maskTo == none && (s.input 1).taken 1) ∧
    after (.thermAlertAccept false false) (alert 5002 { level := true, chatter := true, lastEdge := some 104 })
      (fun s => !(s.input 1).level && (s.input 1).maskTo == none && !(s.input 1).taken 1) := by decide +kernel
/-- spec/12_host_interface.md, "the gate explainer": hanks of 32 sequences with 4,092 of 4,096 slots reserved wait; with 37 free one is
accepted. -/
def explainer (reserved cqTail cqHead : Nat) : State := { modelled up with
  regs := [(Reg.ctx 1 Reg.cqSize, 12), (Reg.ctx 1 Reg.tcRangeLo, 0x00100000)]
  ctxs := [(1, { st := .running, sqTail := 130, sqHead := 124, reserved := reserved, cqTail := BitVec.ofNat 32 cqTail, cqHead := BitVec.ofNat 32 cqHead })] }
def hank32 : Record := record [(0, 0x10), (32, 5), (64, 31), (96, 0)]
theorem test_completion_slots :
    after (.hank 1 hank32) (explainer 4092 0 0) (fun s => (s.ctx 1).sqHead == 124 && s.serve.hanks.isEmpty) ∧
    after (.hank 1 hank32) (explainer 4059 33 0) (fun s => (s.ctx 1).sqHead == 124) ∧
    after (.hank 1 hank32) (explainer 4059 33 33) (fun s => (s.ctx 1).sqHead == 125 && (s.ctx 1).reserved == 4092) := by decide +kernel
/-- spec/06_spindles_row_logic.md, "forking a Skein": one ROW-COPY of row 41,120 of B48 to row 41,248 copies the row; the neighbour of the
destination keeps its bytes. -/
theorem test_fork_row :
    let l : Loc := ⟨3, 7, 48, 41120, 0⟩
    let d : Loc := ⟨3, 7, 48, 41248, 0⟩
    let x := xcmd [(0, 5), (4, 7), (8, 12), (35, 0), (40, 41248), (56, 41120)]
    after (.rowCopy 3 15 x) { up with mem := { data := [(up.rowKey l * 1024 + 5, 0x5A)] } }
      (fun s => sget noByte s.mem.data (s.rowKey d * 1024 + 5) == 0x5A && sget noByte s.mem.data (s.rowKey d * 1024 + 1024 + 5) == 0 &&
        sget noByte s.mem.data (s.rowKey l * 1024 + 5) == 0x5A) := by decide +kernel
/-- The model's queue: a step runs the front command and leaves the rest. -/
theorem test_step_front : (match step { up with pending := [.begin_, .commit] } with
    | .next s => s.pending == [.commit] && s.txn.st == .open_
    | _ => false) = true := by decide +kernel

end Sys2Proof.Tests
end

section
/-!
O17: a post to a context's rings, and so an entry of the error log, changes no register; how the registers of a context's page
read; the capture of a counter (R276).
-/

namespace Sys2Proof.Machine

/-! ### What posting a record leaves unchanged

A post changes its context's indices and counts and what is sent to the host, or a tally counter, and writes no register. What
resets registers is the end of a teardown (R330), so the frame carries along which teardowns are under way. -/

/-- `t` has the registers of `s`, and the same teardowns are under way. -/
structure SameRegs (s t : State) : Prop where
  regs : t.regs = s.regs
  closing : ∀ c, (t.ctx c).closing = (s.ctx c).closing

namespace SameRegs

variable {s t : State}

theorem refl (s : State) : SameRegs s s := ⟨rfl, fun _ => rfl⟩

theorem send (h : SameRegs s t) (m : HostMsg) : SameRegs s (t.send m) := ⟨h.regs, h.closing⟩

theorem tcAdd (h : SameRegs s t) (key n : Nat) : SameRegs s (t.tcAdd key n) := ⟨h.regs, h.closing⟩

theorem setRel (h : SameRegs s t) (r : Rel) : SameRegs s { t with rel := r } := ⟨h.regs, h.closing⟩

theorem setCtx (h : SameRegs s t) (c : Nat) (x : Ctxs) (hx : x.closing = (t.ctx c).closing := by rfl) :
    SameRegs s (t.setCtx c x) := by
  refine ⟨h.regs, fun d => ?_⟩
  by_cases hd : d = c
  · subst hd; rw [State.ctx_setCtx_same, hx, h.closing]
  · rw [State.ctx_setCtx_other _ _ hd, h.closing]

theorem modCtx (h : SameRegs s t) (c : Nat) (f : Ctxs → Ctxs)
    (hf : (f (t.ctx c)).closing = (t.ctx c).closing := by rfl) :
    SameRegs s (t.modCtx c f) := h.setCtx c _ hf

theorem ite {u : State} (ht : SameRegs s t) (hu : SameRegs s u) (p : Prop) [Decidable p] : SameRegs s (if p then t else u) := by
  split
  · exact ht
  · exact hu

theorem msix (h : SameRegs s t) (c v : Nat) : SameRegs s (t.msix c v) := by
  unfold State.msix
  exact h.ite ((h.setCtx c _).ite (h.send _) _) _

theorem putEvent (h : SameRegs s t) (c : Nat) (e : Event) : SameRegs s (t.putEvent c e) := by
  unfold State.putEvent
  exact ((h.send _).modCtx c _).msix c 1

theorem eqFull (h : SameRegs s t) (c : Nat) : SameRegs s (t.eqFull c) := by
  unfold State.eqFull
  exact (h.putEvent c _).ite h _

theorem writeEvent (h : SameRegs s t) (c : Nat) (e : Event) : SameRegs s (t.writeEvent c e) := by
  unfold State.writeEvent
  exact h.ite (((h.eqFull c).modCtx c _).ite ((h.putEvent c e).eqFull c) _) _

theorem signalCompletion (h : SameRegs s t) (c : Nat) : SameRegs s (t.signalCompletion c) := by
  unfold State.signalCompletion
  exact ((h.setCtx c _).msix c 0).ite (h.setCtx c _) _

theorem putCompletion (h : SameRegs s t) (c : Nat) (r : Completion) : SameRegs s (t.putCompletion c r) := by
  unfold State.putCompletion
  exact (h.send _).modCtx c _

theorem writeCompletion (h : SameRegs s t) (c : Nat) (r : Completion) : SameRegs s (t.writeCompletion c r) := by
  unfold State.writeCompletion
  exact h.ite ((h.putCompletion c r).signalCompletion c) _

theorem postBoth (h : SameRegs s t) (c : Nat) (r : Completion) (e : Event) : SameRegs s (t.postBoth c r e) := by
  unfold State.postBoth
  exact h.ite (((h.putCompletion c r).writeEvent c e).signalCompletion c) _

theorem writePost (h : SameRegs s t) (c : Nat) (p : Post) : SameRegs s (t.writePost c p) := by
  unfold State.writePost
  cases p with
  | final r => exact (h.writeCompletion c r).modCtx c _
  | both r e => exact (h.postBoth c r e).modCtx c _
  | step r => exact (h.modCtx c _).ite (h.writeCompletion c r) _
  | event e => exact h.writeEvent c e
  | tally tc bank n => exact h.tcAdd _ n

theorem mutePost (h : SameRegs s t) (c : Nat) (p : Post) : SameRegs s (t.mutePost c p) := by
  unfold State.mutePost
  cases p with
  | final r => exact h.modCtx c _
  | both r e => exact h.modCtx c _
  | step r => exact h
  | event e => exact h
  | tally tc bank n => exact h.tcAdd _ n

theorem askFlush (h : SameRegs s t) (c need : Nat) : SameRegs s (t.askFlush c need) := by
  unfold State.askFlush
  exact h.ite ((h.modCtx c _).send _) _

theorem give (h : SameRegs s t) (c : Nat) (p : Post) : SameRegs s (t.give c p) := by
  unfold State.give
  exact (h.mutePost c p).ite ((h.writePost c p).ite ((h.setCtx c _).askFlush c _) _) _

theorem writeRsb (h : SameRegs s t) (c : Nat) : SameRegs s (t.writeRsb c) := by
  have hclean := h.setCtx c { t.ctx c with dirty := false }
  unfold State.writeRsb
  exact hclean.ite (hclean.send _) _

theorem enter (h : SameRegs s t) (c : Nat) (st : CtxSt) : SameRegs s (t.enter c st) := by
  unfold State.enter
  exact (h.modCtx c _).writeRsb c

/-- Outside a teardown, what follows a written record resets no page. -/
theorem settle (h : SameRegs s t) {c : Nat} (hc : (s.ctx c).closing = none) : SameRegs s (t.settle c) := by
  have hct : ¬ (t.ctx c).closing.isSome = true := by rw [h.closing, hc]; exact Bool.false_ne_true
  have stopped {u : State} (hu : SameRegs s u) (p : Prop) [Decidable p] : SameRegs s (if p then u.enter c .idle else u) :=
    (hu.enter c .idle).ite hu p
  unfold State.settle
  rw [if_neg hct]
  refine stopped ?_ _
  cases (t.ctx c).barrier with
  | none => exact h
  | some tag => exact ((h.writePost c _).modCtx c _).ite h _

theorem post (h : SameRegs s t) {c : Nat} (hc : (s.ctx c).closing = none) (p : Post) : SameRegs s (t.post c p) := by
  unfold State.post
  exact ((h.give c p).settle hc).ite (h.give c p) _

theorem event (h : SameRegs s t) {c : Nat} (hc : (s.ctx c).closing = none) (e : Event) : SameRegs s (t.event c e) :=
  h.post hc _

/-- The log posts to context 0 alone (R374). -/
theorem log (h : SameRegs s t) (hc : (s.ctx 0).closing = none) (e : LogEntry) : SameRegs s (t.log e) := by
  unfold State.log
  exact (h.setRel _).ite ((h.setRel _).ite ((h.setRel _).event hc _) _) _

end SameRegs

theorem State.logInvalid_regs {s : State} (hc : (s.ctx 0).closing = none) (func off v : Nat) :
    (s.logInvalid func off v).regs = s.regs := ((SameRegs.refl s).log hc _).regs

/-! ### The registers of a context's page -/

theorem inFamily_eq_false {x base stride n : Nat} (h : x < base ∨ base + stride * n ≤ x) :
    inFamily x base stride n = false := by
  simp only [inFamily, decide_eq_false_iff_not]; omega

/-- BAR0 offsets of context pages lie above every other block (Table 16.1). -/
theorem ctxPage_bounds (c : Ctx) {x : Nat} (hx : x < 0x1000) : ctxBase 0 ≤ Reg.ctx c x ∧ Reg.ctx c x < ctxBase 64 := by
  have hc := c.isLt
  simp only [Reg.ctx, ctxBase]; omega

theorem ctxPage_mod (c : Nat) {x : Nat} (hx : x < 0x1000) : Reg.ctx c x % 0x10000 = x := by
  simp only [Reg.ctx, ctxBase]; omega

/-- Two registers of one context at different offsets are two. -/
theorem ctxReg_ne (c : Nat) {x y : Nat} (h : x ≠ y) : Reg.ctx c x ≠ Reg.ctx c y := fun e => h (Nat.add_left_cancel e)

theorem regFields_ctxPage (c : Ctx) {x : Nat} (hx : x < 0x1000) (hx4 : x % 4 = 0) : regFields (Reg.ctx c x) = pageFields x := by
  obtain ⟨hlo, hhi⟩ := ctxPage_bounds c hx
  have h4 : Reg.ctx c x % 4 = 0 := by simp only [Reg.ctx, ctxBase]; omega
  have hlo' : 0x400000 ≤ Reg.ctx c x := hlo
  unfold regFields
  rw [if_neg (by omega), if_neg (by omega), if_neg (by unfold stkBase; omega), if_neg (by unfold spdBase; omega),
    if_neg (by unfold twnBase; omega), if_neg (by omega), if_pos hhi]
  simp only [ctxPage_mod _ hx, if_pos hx]

/-- CTX_RING_STAT is the one register of a page that is computed. -/
theorem State.highReg_page (s : State) (c : Ctx) {x : Nat} (hx : x < 0x1000) (hs : x ≠ Reg.ringStat) :
    s.highReg (Reg.ctx c x) = none := by
  obtain ⟨hlo, hhi⟩ := ctxPage_bounds c hx
  have hlo' : 0x400000 ≤ Reg.ctx c x := hlo
  have hgov : inFamily x (Reg.govStat 0) 4 7 = false := inFamily_eq_false (.inl (Nat.lt_trans hx (by decide)))
  unfold State.highReg
  rw [inFamily_eq_false (.inr (by unfold Reg.spdBudgetHi spdBase; omega)),
    inFamily_eq_false (.inr (by unfold Reg.spdMap spdBase; omega)),
    inFamily_eq_false (.inr (by unfold Reg.twnPStat Reg.twnPort twnBase; omega)),
    if_neg (by decide), if_neg (by decide), if_neg (by unfold Reg.twnRtData twnBase; omega),
    if_neg (by unfold Reg.twnPeerData twnBase; omega), if_neg (by decide), if_pos ⟨hlo, hhi⟩]
  simp [ctxPage_mod _ hx, hs, hgov]

/-- In a page (Table 16.8) every register but CTX_RING_STAT reads as it is held. -/
theorem State.readReg_page (s : State) (c : Ctx) {x : Nat} (hx : x < 0x1000) (hx4 : x % 4 = 0) (hf : (pageFields x).isSome)
    (hs : x ≠ Reg.ringStat) : s.readReg (Reg.ctx c x) = s.reg (Reg.ctx c x) := by
  have hlo : 0x400000 ≤ Reg.ctx c x := (ctxPage_bounds c hx).1
  unfold State.readReg
  rw [if_neg (by unfold pwrBase; omega), if_neg (by unfold spdBase; omega), s.highReg_page c hx hs]
  simp [regFields_ctxPage c hx hx4, hf]

/-! ### CTX_TC_SEL -/

theorem State.touch_p0 {s : State} (h : s.pwr.state = .p0) : s.touch = s := by simp [State.touch, h]

theorem State.pageWrite_off {s : State} {c : Nat} (h : (s.ctx c).st = .off) (f : State → State) : s.pageWrite c f = s := by
  simp [State.pageWrite, h]

theorem State.pageWrite_p0 {s : State} {c : Nat} (ha : s.regAnswers) (hp : s.pwr.state = .p0) (hd : ¬ (s.ctx c).d3hot)
    (h : (s.ctx c).st ≠ .off) (f : State → State) : s.pageWrite c f = f s := by
  simp [State.pageWrite, State.touch_p0 hp, ha, hd, h]

theorem State.readReg_tcSel (s : State) (c : Ctx) : s.readReg (Reg.ctx c Reg.tcSel) = s.reg (Reg.ctx c Reg.tcSel) :=
  s.readReg_page c (by decide) (by decide) (by decide) (by decide)
theorem State.readReg_tcValLo (s : State) (c : Ctx) :
    s.readReg (Reg.ctx c Reg.tcValLo) = s.reg (Reg.ctx c Reg.tcValLo) :=
  s.readReg_page c (by decide) (by decide) (by decide) (by decide)
theorem State.readReg_tcValHi (s : State) (c : Ctx) :
    s.readReg (Reg.ctx c Reg.tcValHi) = s.reg (Reg.ctx c Reg.tcValHi) :=
  s.readReg_page c (by decide) (by decide) (by decide) (by decide)

theorem State.reg_tcAdd (s : State) (key n off : Nat) : (s.tcAdd key n).reg off = s.reg off := rfl

/-- The state in which context `c` has captured the value `x` of the counter of index `i` (R276). -/
def State.captured (s : State) (c i : Nat) (x : BitVec 48) : State :=
  ((s.setReg (Reg.ctx c Reg.tcSel) (BitVec.ofNat 32 i)).setReg (Reg.ctx c Reg.tcValLo) (BitVec.ofNat 32 x.toNat)).setReg
    (Reg.ctx c Reg.tcValHi) (BitVec.ofNat 32 (x.toNat / 2 ^ 32))

theorem State.selectCounter_reserved {s : State} {c : Nat} {v : Word}
    (h : s.cfld c Reg.tcRangeLo 28 16 ≤ bitsAt v.toNat 12 0) (func page : Nat) :
    s.selectCounter func page c v = s.logInvalid func (page + Reg.tcSel) v.toNat := if_pos h

theorem State.selectCounter_inRange {s : State} {c : Nat} {v : Word}
    (h : bitsAt v.toNat 12 0 < s.cfld c Reg.tcRangeLo 28 16) (func page : Nat) :
    s.selectCounter func page c v =
      s.captured c (bitsAt v.toNat 12 0) (s.tcVal (s.cfld c Reg.tcRangeLo 11 0 + bitsAt v.toNat 12 0)) :=
  if_neg (by omega)

section Captured

variable (s : State) (c i : Nat) (x : BitVec 48)

theorem State.captured_frame : s.captured c i x = { s with regs := (s.captured c i x).regs } := rfl

theorem State.captured_tcSel : (s.captured c i x).reg (Reg.ctx c Reg.tcSel) = BitVec.ofNat 32 i := by
  unfold State.captured
  rw [State.reg_setReg_other _ _ (ctxReg_ne c (by decide)), State.reg_setReg_other _ _ (ctxReg_ne c (by decide)),
    State.reg_setReg_same]

theorem State.captured_tcValLo : (s.captured c i x).reg (Reg.ctx c Reg.tcValLo) = x.extractLsb' 0 32 := by
  unfold State.captured
  rw [State.reg_setReg_other _ _ (ctxReg_ne c (by decide)), State.reg_setReg_same]
  apply BitVec.eq_of_toNat_eq
  rw [BitVec.toNat_ofNat, BitVec.extractLsb'_toNat, Nat.shiftRight_zero]

theorem State.captured_tcValHi :
    (s.captured c i x).reg (Reg.ctx c Reg.tcValHi) = (x.extractLsb' 32 16).setWidth 32 := by
  unfold State.captured
  rw [State.reg_setReg_same]
  apply BitVec.eq_of_toNat_eq
  simp only [BitVec.toNat_ofNat, BitVec.toNat_setWidth, BitVec.extractLsb'_toNat, Nat.shiftRight_eq_div_pow]
  omega

theorem State.captured_other {o : Nat} (hsel : o ≠ Reg.ctx c Reg.tcSel) (hlo : o ≠ Reg.ctx c Reg.tcValLo)
    (hhi : o ≠ Reg.ctx c Reg.tcValHi) : (s.captured c i x).reg o = s.reg o := by
  unfold State.captured
  rw [State.reg_setReg_other _ _ hhi, State.reg_setReg_other _ _ hlo, State.reg_setReg_other _ _ hsel]

end Captured

theorem exec_ctxTcSel (x : Ctx) (v : Word) (s : State) :
    exec (.ctxTcSel x v) s = .next (s.pageWrite x fun s => s.selectCounter x 0 x v) := rfl

/-- Settles O17: the captured value stands in two registers, which no increment of a counter writes, and the log posts only to
context 0, whose registers stay as they are unless it is being torn down. -/
theorem counterCapture : Obligations.CounterCapture := by
  unfold Obligations.CounterCapture
  intro s x v ha hp hd i val
  refine ⟨fun hoff => ?_, fun hon hi => ?_, fun hon hi => ?_⟩
  · rw [exec_ctxTcSel, State.pageWrite_off hoff]
  · refine ⟨s.captured x i val, ?_, s.captured_frame x i val,
      (State.readReg_tcSel _ x).trans (s.captured_tcSel x i val), (State.readReg_tcValLo _ x).trans (s.captured_tcValLo x i val),
      (State.readReg_tcValHi _ x).trans (s.captured_tcValHi x i val), fun key n => ⟨?_, ?_⟩, fun o => s.captured_other x i val⟩
    · rw [exec_ctxTcSel, State.pageWrite_p0 ha hp hd hon, State.selectCounter_inRange hi]
    · rw [State.readReg_tcValLo, State.readReg_tcValLo, State.reg_tcAdd]
    · rw [State.readReg_tcValHi, State.readReg_tcValHi, State.reg_tcAdd]
  · refine ⟨?_, fun hc => State.logInvalid_regs hc x Reg.tcSel v.toNat⟩
    rw [exec_ctxTcSel, State.pageWrite_p0 ha hp hd hon, State.selectCounter_reserved hi, Nat.zero_add]

end Sys2Proof.Machine
end

section
/-!
O46: a reset discards a configuration transaction (R356), and what start-up does after it opens none. What a post and the log
change; the start-up of a device just cleared, which keeps its transactions and its region modes as the reset left them.
-/

namespace Sys2Proof.Machine

/-! ### What a post and an entry of the log change

A post writes the rings of a context, makes an increment, or ends a teardown; the log notes the entry and posts to context 0. -/

/-- `t` is `s` but for registers, tally counters, contexts, the error log and what has been sent to the host. -/
def PostFrame (s t : State) : Prop :=
  ∃ regs tally ctxs rel toHost,
    t = { s with regs := regs, tally := tally, ctxs := ctxs, rel := rel, toHost := toHost }

namespace PostFrame

variable {s t : State}

theorem refl (s : State) : PostFrame s s := ⟨_, _, _, _, _, rfl⟩

theorem txn (h : PostFrame s t) : t.txn = s.txn := by
  obtain ⟨_, _, _, _, _, rfl⟩ := h; rfl

theorem skeins (h : PostFrame s t) : t.skeins = s.skeins := by
  obtain ⟨_, _, _, _, _, rfl⟩ := h; rfl

theorem setCtx (h : PostFrame s t) (c : Nat) (x : Ctxs) : PostFrame s (t.setCtx c x) := by
  obtain ⟨_, _, _, _, _, rfl⟩ := h; exact ⟨_, _, _, _, _, rfl⟩

theorem modCtx (h : PostFrame s t) (c : Nat) (f : Ctxs → Ctxs) : PostFrame s (t.modCtx c f) := h.setCtx c _

theorem send (h : PostFrame s t) (m : HostMsg) : PostFrame s (t.send m) := by
  obtain ⟨_, _, _, _, _, rfl⟩ := h; exact ⟨_, _, _, _, _, rfl⟩

theorem tcAdd (h : PostFrame s t) (key n : Nat) : PostFrame s (t.tcAdd key n) := by
  obtain ⟨_, _, _, _, _, rfl⟩ := h; exact ⟨_, _, _, _, _, rfl⟩

theorem setRel (h : PostFrame s t) (r : Rel) : PostFrame s { t with rel := r } := by
  obtain ⟨_, _, _, _, _, rfl⟩ := h; exact ⟨_, _, _, _, _, rfl⟩

theorem clearPage (h : PostFrame s t) (c : Nat) : PostFrame s (t.clearPage c) := by
  obtain ⟨_, _, _, _, _, rfl⟩ := h; exact ⟨_, _, _, _, _, rfl⟩

theorem ite {u : State} (ht : PostFrame s t) (hu : PostFrame s u) (p : Prop) [Decidable p] : PostFrame s (if p then t else u) := by
  split
  · exact ht
  · exact hu

theorem msix (h : PostFrame s t) (c v : Nat) : PostFrame s (t.msix c v) := by
  unfold State.msix
  exact h.ite ((h.setCtx c _).ite (h.send _) _) _

theorem putEvent (h : PostFrame s t) (c : Nat) (e : Event) : PostFrame s (t.putEvent c e) := by
  unfold State.putEvent
  exact ((h.send _).modCtx c _).msix c 1

theorem eqFull (h : PostFrame s t) (c : Nat) : PostFrame s (t.eqFull c) := by
  unfold State.eqFull
  exact (h.putEvent c _).ite h _

theorem writeEvent (h : PostFrame s t) (c : Nat) (e : Event) : PostFrame s (t.writeEvent c e) := by
  unfold State.writeEvent
  exact h.ite (((h.eqFull c).modCtx c _).ite ((h.putEvent c e).eqFull c) _) _

theorem signalCompletion (h : PostFrame s t) (c : Nat) : PostFrame s (t.signalCompletion c) := by
  unfold State.signalCompletion
  exact ((h.setCtx c _).msix c 0).ite (h.setCtx c _) _

theorem putCompletion (h : PostFrame s t) (c : Nat) (r : Completion) : PostFrame s (t.putCompletion c r) := by
  unfold State.putCompletion
  exact (h.send _).modCtx c _

theorem writeCompletion (h : PostFrame s t) (c : Nat) (r : Completion) : PostFrame s (t.writeCompletion c r) := by
  unfold State.writeCompletion
  exact h.ite ((h.putCompletion c r).signalCompletion c) _

theorem postBoth (h : PostFrame s t) (c : Nat) (r : Completion) (e : Event) : PostFrame s (t.postBoth c r e) := by
  unfold State.postBoth
  exact h.ite (((h.putCompletion c r).writeEvent c e).signalCompletion c) _

theorem writePost (h : PostFrame s t) (c : Nat) (p : Post) : PostFrame s (t.writePost c p) := by
  unfold State.writePost
  cases p with
  | final r => exact (h.writeCompletion c r).modCtx c _
  | both r e => exact (h.postBoth c r e).modCtx c _
  | step r => exact (h.modCtx c _).ite (h.writeCompletion c r) _
  | event e => exact h.writeEvent c e
  | tally tc bank n => exact h.tcAdd _ n

theorem mutePost (h : PostFrame s t) (c : Nat) (p : Post) : PostFrame s (t.mutePost c p) := by
  unfold State.mutePost
  cases p with
  | final r => exact h.modCtx c _
  | both r e => exact h.modCtx c _
  | step r => exact h
  | event e => exact h
  | tally tc bank n => exact h.tcAdd _ n

theorem askFlush (h : PostFrame s t) (c need : Nat) : PostFrame s (t.askFlush c need) := by
  unfold State.askFlush
  exact h.ite ((h.modCtx c _).send _) _

theorem give (h : PostFrame s t) (c : Nat) (p : Post) : PostFrame s (t.give c p) := by
  unfold State.give
  exact (h.mutePost c p).ite ((h.writePost c p).ite ((h.setCtx c _).askFlush c _) _) _

theorem writeRsb (h : PostFrame s t) (c : Nat) : PostFrame s (t.writeRsb c) := by
  have clean := h.setCtx c { t.ctx c with dirty := false }
  unfold State.writeRsb
  exact clean.ite (clean.send _) _

theorem enter (h : PostFrame s t) (c : Nat) (st : CtxSt) : PostFrame s (t.enter c st) := by
  unfold State.enter
  exact (h.modCtx c _).writeRsb c

theorem freshPage (h : PostFrame s t) (c : Nat) : PostFrame s (t.freshPage c) := by
  unfold State.freshPage
  exact (h.clearPage c).modCtx c _

theorem closed (h : PostFrame s t) (c : Nat) : PostFrame s (t.closed c) := by
  unfold State.closed
  cases (t.ctx c).closing with
  | none => exact h
  | some k =>
    have told {u : State} (hu : PostFrame s u) : PostFrame s (if c = 0 then u else u.give 0 (.event (u.tornEvent c k))) :=
      hu.ite (hu.give 0 _) _
    have ended := h.modCtx c fun x => { x with closing := none, reserved := 0 }
    have torn := ended.ite (((told ended).modCtx c fun x => { x with st := .faulted }).ite ((told ended).enter c .faulted)
      (k.mute = true)) (¬ k.tears = true)
    exact h.ite ((torn.freshPage c).ite ((torn.enter c .off).ite torn _) _) _

theorem settle (h : PostFrame s t) (c : Nat) : PostFrame s (t.settle c) := by
  have stopped {u : State} (hu : PostFrame s u) (p : Prop) [Decidable p] : PostFrame s (if p then u.enter c .idle else u) :=
    (hu.enter c .idle).ite hu p
  unfold State.settle
  refine (h.closed c).ite (stopped ?_ _) _
  cases (t.ctx c).barrier with
  | none => exact h
  | some tag => exact ((h.writePost c _).modCtx c _).ite h _

theorem post (h : PostFrame s t) (c : Nat) (p : Post) : PostFrame s (t.post c p) := by
  unfold State.post
  exact ((h.give c p).settle c).ite (h.give c p) _

theorem log (h : PostFrame s t) (e : LogEntry) : PostFrame s (t.log e) := by
  unfold State.log
  exact (h.setRel _).ite ((h.setRel _).ite ((h.setRel _).post 0 _) _) _

end PostFrame

/-! ### No transaction -/

/-- No transaction is open, full or committing, and no write is staged (R352, R356). -/
def State.noTxn (s : State) : Prop := s.txn = { last := s.txn.last }

theorem State.noTxn_of_last {s : State} {n : Nat} (h : s.txn = { last := n }) : s.noTxn := by
  rw [State.noTxn, h]

theorem PostFrame.noTxn {s t : State} (h : PostFrame s t) (hs : s.noTxn) : t.noTxn := by
  rw [State.noTxn, h.txn]; exact hs

theorem State.stopWork_noTxn (s : State) : s.stopWork.noTxn := rfl

theorem State.enterSafe_noTxn (s : State) (cause : Nat) : (s.enterSafe cause).noTxn := by
  unfold State.enterSafe
  exact (((PostFrame.refl _).log _).msix 0 2).noTxn (State.stopWork_noTxn _)

/-! ### Start-up of a device just cleared

Start-up (Table 14.10) may find cores, Spindles and stacks failed. No Skein exists yet and no context is being torn down, so
their loss ends no sequence and resets no page. -/

/-- `t` has the transactions and the region modes of `b`; it holds no Skein, and no context is being torn down. -/
structure Starting (b t : State) : Prop where
  txn : t.txn = b.txn
  rmode : ∀ i, i < 4 → t.reg (Reg.stkRmode i) = b.reg (Reg.stkRmode i)
  noSkein : t.skeins.table = []
  calm : ∀ c, (t.ctx c).closing = none

namespace Starting

variable {b t : State}

/-- A change of anything that the predicate does not speak of. -/
theorem of_same {u : State} (h : Starting b t) (htxn : u.txn = t.txn := by rfl) (hregs : u.regs = t.regs := by rfl)
    (htable : u.skeins.table = t.skeins.table := by rfl) (hctxs : u.ctxs = t.ctxs := by rfl) : Starting b u where
  txn := htxn.trans h.txn
  rmode i hi := by rw [State.reg, hregs]; exact h.rmode i hi
  noSkein := htable.trans h.noSkein
  calm c := by rw [State.ctx, hctxs]; exact h.calm c

theorem ite {u : State} (ht : Starting b t) (hu : Starting b u) (p : Prop) [Decidable p] :
    Starting b (if p then t else u) := by
  split
  · exact ht
  · exact hu

theorem foldl {α : Type} {f : State → α → State} (h : Starting b t) (l : List α)
    (hf : ∀ {u : State} (x : α), Starting b u → Starting b (f u x)) : Starting b (l.foldl f t) :=
  List.foldlRecOn l f h fun _ hu x _ => hf x hu

theorem setReg (h : Starting b t) (off : Nat) (v : Word) (hoff : ∀ i, i < 4 → Reg.stkRmode i ≠ off := by decide) :
    Starting b (t.setReg off v) where
  txn := h.txn
  rmode i hi := (State.reg_setReg_other _ v (hoff i hi)).trans (h.rmode i hi)
  noSkein := h.noSkein
  calm := h.calm

theorem modCtx (h : Starting b t) (c : Nat) (f : Ctxs → Ctxs) (hf : (f (t.ctx c)).closing = (t.ctx c).closing := by rfl) :
    Starting b (t.modCtx c f) where
  txn := h.txn
  rmode := h.rmode
  noSkein := h.noSkein
  calm d := (((SameRegs.refl t).modCtx c f hf).closing d).trans (h.calm d)

theorem log (h : Starting b t) (e : LogEntry) : Starting b (t.log e) where
  txn := ((PostFrame.refl t).log e).txn.trans h.txn
  rmode i hi := by
    rw [State.reg, ((SameRegs.refl t).log (h.calm 0) e).regs]; exact h.rmode i hi
  noSkein := (congrArg Skeins.table ((PostFrame.refl t).log e).skeins).trans h.noSkein
  calm c := (((SameRegs.refl t).log (h.calm 0) e).closing c).trans (h.calm c)

theorem atBoundary (h : Starting b t) (x : Boundary) : Starting b (t.atBoundary x) := by
  unfold State.atBoundary
  exact h.ite h.of_same _

/-! #### Units that fail the self-test -/

theorem selfTestFail (h : Starting b t) (unit : Nat) : Starting b (t.selfTestFail unit) := by
  unfold State.selfTestFail
  exact (log (h.of_same (u := t.draw.2)) _).setReg _ _

theorem failRequest (h : Starting b t) (c id code : Nat) : Starting b (t.failRequest c id code) := by
  unfold State.failRequest
  exact ((h.foldl _ fun _ hu => hu.of_same).foldl _ fun _ hu => hu.of_same).modCtx c _

theorem reissue (h : Starting b t) (n : Nat) (c : SpdCmd) : Starting b (t.reissue n c) := by
  have sent {x : SpdCmd} {m : Nat} : Starting b (t.enqueueSpd m x) := by
    unfold State.enqueueSpd
    exact ite h.of_same h.of_same _
  unfold State.reissue
  exact sent.of_same

/-- A device that holds no Skein has none to relocate. -/
theorem evacuate_eq (h : Starting b t) (n : Nat) : t.evacuate n = t := by
  unfold State.evacuate
  rw [h.noSkein]; rfl

theorem withholdGroup (h : Starting b t) (n : Nat) : Starting b (t.withholdGroup n) := by
  unfold State.withholdGroup
  extract_lets _ u inGroup gone
  have hu : Starting b u := h.of_same
  have none_gone : gone = [] := by simp only [gone, hu.noSkein, List.filter_nil, List.map_nil]
  rw [none_gone]
  exact hu

theorem finishTeardown_eq (h : Starting b t) (c : Nat) : t.finishTeardown c = t := by
  unfold State.finishTeardown
  rw [h.calm c]

theorem killSpindle (h : Starting b t) (n why : Nat) (alone : Bool) : Starting b (t.killSpindle n why alone) := by
  unfold State.killSpindle
  refine h.ite ?_ _
  extract_lets buddy served cmds s1 _ s2 failed _ s3 _ _ s4 s5 s6
  have h2 : Starting b s2 := h.of_same
  have hfailed : Starting b failed := h2.foldl _ fun c hu => by
    cases c.owner with
    | none => exact hu
    | some o => exact hu.failRequest o.1 o.2 _
  have h3 : Starting b s3 := (h2.foldl cmds fun c hu => hu.reissue n c).ite (ite hfailed.of_same hfailed _) _
  have h5 : Starting b s5 := log (h3.of_same (u := s4)) _
  have h6 : Starting b s6 := h5.foldl _ fun e hu => by rw [hu.finishTeardown_eq]; exact hu
  rw [h6.evacuate_eq, h6.evacuate_eq]
  exact h6.ite h6 _

theorem dropStackRows (h : Starting b t) (k : Nat) : Starting b (t.dropStackRows k) := by
  unfold State.dropStackRows
  refine of_same (h.foldl _ fun q hu => ?_)
  cases q.act with
  | request c id => exact hu.modCtx c _
  | _ => exact hu

theorem loseSpindles (h : Starting b t) (k : Nat) : Starting b (t.loseSpindles k) := by
  unfold State.loseSpindles
  exact (h.foldl _ fun i hu => hu.killSpindle _ 7 true).foldl _ fun i hu => hu.withholdGroup _

theorem loseStack (h : Starting b t) (k : Nat) : Starting b (t.loseStack k) := by
  have logged {u : State} (hu : Starting b u) (m : Mem) (e : LogEntry) :
      Starting b ((({ u with mem := m } : State).setThread k {}).log e) := log hu.of_same e
  have asked {u : State} (hu : Starting b u) : Starting b (if 2 < u.lostCount then u.atBoundary (.safe 3) else u) :=
    (hu.atBoundary _).ite hu _
  unfold State.loseStack
  exact h.ite (asked (logged (((h.setReg _ _).dropStackRows k).loseSpindles k) _ _)) _

theorem rebuildMap (h : Starting b t) (dead : List Nat) : Starting b (t.rebuildMap dead) := by
  unfold State.rebuildMap
  refine foldl h.of_same _ fun c hu => ?_
  cases assignCore dead c with
  | none => exact hu
  | some p => exact hu.of_same

theorem applyMaps (h : Starting b t) (env : BootEnv) : Starting b (t.applyMaps env) := by
  unfold State.applyMaps
  have off := (h.rebuildMap ((env.repairMap ++ env.coresFail).map Fin.val)).foldl env.stacksFail
    fun k hu => hu.loseStack k
  have cores := off.foldl env.coresFail fun p hu => (hu.selfTestFail p).log { typ := 0x09, status := 0x0C, unit := p, info := 1 }
  have spindles := cores.foldl env.spindlesFail fun n hu => (hu.selfTestFail n).killSpindle n 1 false
  exact spindles.foldl env.checkersFail fun k hu => (hu.selfTestFail k).loseStack k

/-! #### The sequence -/

theorem bootVerify (h : Starting b t) (env : BootEnv) : Starting b (t.bootVerify env).2 := by
  unfold State.bootVerify
  extract_lets flash record ident _ u cands
  have hu : Starting b u := h.of_same
  split
  · exact hu.setReg _ _
  · exact (setReg hu.of_same _ _).setReg _ _

/-- Start-up ends in SAFE mode where boot verification fails; after a warm reset it is not repeated (R427). -/
theorem startUp (h : Starting b t) (k : ResetKind) (env : BootEnv) :
    Starting b (t.startUp k env) ∨ k ≠ .warm ∧ ∃ u : State, t.startUp k env = u.enterSafe 2 := by
  have verified : Starting b (if k = .warm then (true, t) else t.bootVerify env).2 := by
    split
    · exact h
    · exact h.bootVerify env
  unfold State.startUp
  split
  · exact .inl h
  extract_lets v _ _ w x
  have hx : Starting b w := of_same (u := w) (verified.setReg Reg.clkStat _)
  split
  · exact .inl (of_same (t := x) (hx.applyMaps env))
  · next failed =>
    refine .inr ⟨fun hk => failed ?_, _, rfl⟩
    simp only [v, hk, if_true]

theorem noTxn (h : Starting b t) (hb : b.noTxn) : t.noTxn := by
  rw [State.noTxn, h.txn]; exact hb

theorem startIfReleased_noTxn (h : Starting b t) (hb : b.noTxn) (k : ResetKind) (env : BootEnv) :
    (t.startIfReleased k env).noTxn := by
  unfold State.startIfReleased
  split
  · obtain up | ⟨_, u, safe⟩ := h.startUp k env
    · exact up.noTxn hb
    · rw [safe]; exact u.enterSafe_noTxn 2
  · exact h.noTxn hb

theorem startIfReleased_warm (h : Starting b t) (env : BootEnv) : Starting b (t.startIfReleased .warm env) := by
  unfold State.startIfReleased
  exact ite ((h.startUp .warm env).resolve_right fun failed => failed.1 rfl) h _

end Starting

/-! ### What the resets leave (R356, Table 14.9) -/

theorem State.cleared_noTxn (s : State) (k : ResetKind) : (s.cleared k).noTxn := rfl

theorem State.cleared_starting (s : State) (k : ResetKind) : Starting (s.cleared k) (s.cleared k) where
  txn := rfl
  rmode _ _ := rfl
  noSkein := by cases k <;> rfl
  calm _ := rfl

theorem sget_filter {α : Type} (d : Nat → α) (m : Sparse α) (p : Nat → Bool) {k : Nat} (hk : p k = true) :
    sget d (m.filter fun e => p e.1) k = sget d m k := by
  induction m with
  | nil => rfl
  | cons e m ih =>
    by_cases hkey : k = e.1
    · simp [sget, ← hkey, hk]
    · by_cases he : p e.1
      · simp [sget, he, hkey, ih]
      · simp [sget, he, hkey, ih]

/-- A warm reset keeps the region modes. -/
theorem State.cleared_rmode (s : State) {i : Nat} (hi : i < 4) :
    (s.cleared .warm).reg (Reg.stkRmode i) = s.reg (Reg.stkRmode i) := by
  have kept : keptReg .warm (Reg.stkRmode i) = true := by
    revert i; decide
  have dbg : Reg.stkRmode i ≠ Reg.secDbg := by
    revert i; decide
  have hregs : sget regReset (s.keptRegs .warm) (Reg.stkRmode i) = s.reg (Reg.stkRmode i) := by
    unfold State.keptRegs
    split
    · rw [sget_sset_other _ _ _ dbg, sget_filter _ _ _ kept]; rfl
    · rw [sget_filter _ _ _ kept]; rfl
  exact hregs

theorem State.pfFlr_noTxn (s : State) : s.pfFlr.noTxn := State.noTxn_of_last rfl

theorem State.cfgRequest_pfFlr_noTxn {s : State} (hp : s.powered) (hr : s.pwr.ready) :
    (s.cfgRequest State.pfFlr).noTxn := by
  unfold State.cfgRequest
  rw [if_pos (by simp [State.cfgAnswers, hp, hr])]
  exact s.pfFlr_noTxn

theorem State.deviceReset_noTxn (s : State) (k : ResetKind) (env : BootEnv) : (s.deviceReset k env).noTxn :=
  (s.cleared_starting k).startIfReleased_noTxn (s.cleared_noTxn k) k env

/-- A power-on reset, with the rails and AON_CLK as they are then. -/
theorem State.poweredOn_noTxn (s : State) (p : Power) (env : BootEnv) :
    (({ s.cleared .powerOn with pwr := p } : State).startIfReleased .powerOn env).noTxn :=
  Starting.startIfReleased_noTxn (s.cleared_starting .powerOn).of_same (s.cleared_noTxn .powerOn) .powerOn env

theorem State.powerOn_noTxn (s : State) (env : BootEnv) : (s.powerOn env).noTxn := by
  unfold State.powerOn
  exact s.poweredOn_noTxn _ env

theorem State.aonReturn_noTxn {s : State} (h : ¬ s.pwr.aonOk) (env : BootEnv) : (s.aonReturn env).noTxn := by
  unfold State.aonReturn
  rw [if_neg h]
  exact s.poweredOn_noTxn _ env

theorem State.coldReset_noTxn {s : State} (hr : s.pwr.railsOk) (ha : s.pwr.aonOk) (hq : s.pwr.resetReq = some true)
    (env : BootEnv) : (s.coldReset env).noTxn := by
  unfold State.coldReset
  rw [if_pos ⟨hr, ha, .inr (.inl hq)⟩]
  exact s.deviceReset_noTxn .cold env

theorem State.perstAssert_noTxn {s : State} (hr : s.pwr.railsOk) (ha : s.pwr.aonOk) {n : Nat} (hn : 25 ≤ n) :
    (s.perstAssert n).noTxn := by
  unfold State.perstAssert
  rw [if_neg (by omega), if_neg (by simp [hr, ha])]
  exact State.cleared_noTxn _ .cold

theorem State.warmReset_noTxn {s : State} (hp : s.powered) (hs : s.pwr.started) (hr : s.pwr.resetReq ≠ some true)
    (env : BootEnv) : (s.warmReset env).noTxn := by
  unfold State.warmReset
  rw [if_neg (by simp [hp, hs, hr])]
  split
  · exact s.deviceReset_noTxn .cold env
  · exact s.deviceReset_noTxn .warm env

theorem State.warmReset_rmode {s : State} (hp : s.powered) (hs : s.pwr.started) (hr : s.pwr.resetReq ≠ some true)
    (hsafe : s.pwr.safe ≠ some 2) (env : BootEnv) {i : Nat} (hi : i < 4) :
    (s.warmReset env).reg (Reg.stkRmode i) = s.reg (Reg.stkRmode i) := by
  unfold State.warmReset
  rw [if_neg (by simp [hp, hs, hr]), if_neg hsafe]
  exact (((s.cleared_starting .warm).startIfReleased_warm env).rmode i hi).trans (s.cleared_rmode hi)

/-! ### Loss of power (R389, R419) -/

theorem State.foldl_modPort_frame (f : TPort → TPort) (l : List Nat) (s : State) :
    ∃ w, l.foldl (fun s p => s.modPort p f) s = { s with twine := w } := by
  induction l generalizing s with
  | nil => exact ⟨s.twine, rfl⟩
  | cons p l ih => exact ih (s.modPort p f)

theorem exec_powerFail (f : RailFall) (s : State) :
    exec (.powerFail f) s = .next (if 2000 ≤ f.belowNs then s.powerFail f.rail else s) := rfl

theorem State.floatPins_frame (s : State) :
    ∃ pwr twine, s.floatPins = { s with pwr := pwr, twine := twine } ∧ pwr.railsOk = s.pwr.railsOk := by
  obtain ⟨w, hw⟩ := State.foldl_modPort_frame (fun x => { x with pauseOut := true }) (List.range 8) s
  unfold State.floatPins
  rw [hw]
  exact ⟨_, _, rfl, rfl⟩

/-- What fails with the power is the power's own state and the levels of the ports' pins. -/
theorem State.powerFail_frame (s : State) (rail : Rail) :
    ∃ pwr twine, s.powerFail rail = { s with pwr := pwr, twine := twine } ∧ pwr.railsOk = false := by
  unfold State.powerFail
  extract_lets was u _ v
  have hu : u = { s with pwr := u.pwr } := by
    simp only [u]; split <;> rfl
  have hv : v = { s with pwr := v.pwr } := congrArg (fun x : State => { x with pwr := v.pwr }) hu
  split
  · obtain ⟨pwr, twine, hpins, hrails⟩ := v.floatPins_frame
    exact ⟨pwr, twine, by rw [hpins, hv], hrails⟩
  · exact ⟨v.pwr, s.twine, hv, rfl⟩

/-- Settles O46: every reset clears the state of transactions before start-up, which opens none. -/
theorem transactionsDiscarded : Obligations.TransactionsDiscarded := by
  unfold Obligations.TransactionsDiscarded
  intro s env gone kept
  have discarded {u : State} (h : u.noTxn) : gone u := by
    simp only [gone]; rw [h]; exact ⟨rfl, rfl, rfl, rfl, rfl⟩
  refine ⟨fun hp hr => ⟨_, rfl, discarded (State.cfgRequest_pfFlr_noTxn hp hr)⟩,
    ⟨_, rfl, discarded (s.powerOn_noTxn env)⟩,
    fun ha => ⟨_, rfl, discarded (State.aonReturn_noTxn ha env)⟩,
    fun hr ha hq => ⟨_, rfl, discarded (State.coldReset_noTxn hr ha hq env)⟩,
    fun hp hs hq => ⟨_, rfl, discarded (State.warmReset_noTxn hp hs hq env),
      fun hsafe i hi => State.warmReset_rmode hp hs hq hsafe env hi⟩,
    fun hr ha => ⟨_, rfl, discarded (State.perstAssert_noTxn hr ha (by decide))⟩, fun rail n hn => ?_⟩
  obtain ⟨pwr, twine, hfail, hrails⟩ := s.powerFail_frame rail
  refine ⟨s.powerFail rail, ?_, ?_, ?_, _, rfl, discarded (State.powerOn_noTxn _ env)⟩
  · rw [exec_powerFail, if_pos hn]
  · rw [hfail, State.powered, hrails]; exact Bool.false_ne_true
  · rw [hfail]

end Sys2Proof.Machine
end

section
/-!
O43: the filtered inputs (R398, R399). What follows an accepted level, a port's change of state or a wake, leaves the inputs,
the memory and the tally counters as they are; what a new level and the end of a mask make of an input.
-/

namespace Sys2Proof.Machine

/-! ### Posts that make no increment leave the tally counters

Of what is posted only an increment counts (R271): an event, what it lets be posted behind it and the end of a teardown do not. -/

@[simp] theorem State.msix_tally (s : State) (c v : Nat) : (s.msix c v).tally = s.tally := by
  simp [State.msix, apply_ite State.tally]

@[simp] theorem State.putEvent_tally (s : State) (c : Nat) (e : Event) : (s.putEvent c e).tally = s.tally := by
  simp [State.putEvent]

@[simp] theorem State.eqFull_tally (s : State) (c : Nat) : (s.eqFull c).tally = s.tally := by
  simp [State.eqFull, apply_ite State.tally]

@[simp] theorem State.writeEvent_tally (s : State) (c : Nat) (e : Event) : (s.writeEvent c e).tally = s.tally := by
  simp [State.writeEvent, apply_ite State.tally]

@[simp] theorem State.signalCompletion_tally (s : State) (c : Nat) : (s.signalCompletion c).tally = s.tally := by
  simp [State.signalCompletion, apply_ite State.tally]

@[simp] theorem State.putCompletion_tally (s : State) (c : Nat) (r : Completion) : (s.putCompletion c r).tally = s.tally := rfl

@[simp] theorem State.writeCompletion_tally (s : State) (c : Nat) (r : Completion) :
    (s.writeCompletion c r).tally = s.tally := by
  simp [State.writeCompletion, apply_ite State.tally]

@[simp] theorem State.postBoth_tally (s : State) (c : Nat) (r : Completion) (e : Event) :
    (s.postBoth c r e).tally = s.tally := by
  simp [State.postBoth, apply_ite State.tally]

theorem State.writePost_tally (s : State) (c : Nat) {p : Post} (hp : p.isTally = false) :
    (s.writePost c p).tally = s.tally := by
  cases p with
  | final r => simp [State.writePost]
  | both r e => simp [State.writePost]
  | step r => simp [State.writePost, apply_ite State.tally]
  | event e => exact s.writeEvent_tally c e
  | tally tc bank n => cases hp

theorem State.mutePost_tally (s : State) (c : Nat) {p : Post} (hp : p.isTally = false) :
    (s.mutePost c p).tally = s.tally := by
  cases p with
  | final r => rfl
  | both r e => rfl
  | step r => rfl
  | event e => rfl
  | tally tc bank n => cases hp

@[simp] theorem State.askFlush_tally (s : State) (c need : Nat) : (s.askFlush c need).tally = s.tally := by
  simp [State.askFlush, apply_ite State.tally]

theorem State.give_tally (s : State) (c : Nat) {p : Post} (hp : p.isTally = false) : (s.give c p).tally = s.tally := by
  simp [State.give, apply_ite State.tally, State.mutePost_tally s c hp, State.writePost_tally s c hp]

@[simp] theorem State.give_event_tally (s : State) (c : Nat) (e : Event) : (s.give c (.event e)).tally = s.tally :=
  s.give_tally c rfl

@[simp] theorem State.enter_tally (s : State) (c : Nat) (st : CtxSt) : (s.enter c st).tally = s.tally := by
  simp [State.enter, State.writeRsb, apply_ite State.tally]

@[simp] theorem State.freshPage_tally (s : State) (c : Nat) : (s.freshPage c).tally = s.tally := rfl

@[simp] theorem State.closed_tally (s : State) (c : Nat) : (s.closed c).tally = s.tally := by
  unfold State.closed
  cases (s.ctx c).closing with
  | none => rfl
  | some k => simp [apply_ite State.tally]

@[simp] theorem State.settle_tally (s : State) (c : Nat) : (s.settle c).tally = s.tally := by
  unfold State.settle
  cases (s.ctx c).barrier with
  | none => simp [apply_ite State.tally]
  | some tag => simp [apply_ite State.tally, State.writePost_tally s c (p := .final _) rfl]

@[simp] theorem State.event_tally (s : State) (c : Nat) (e : Event) : (s.event c e).tally = s.tally := by
  simp [State.event, State.post, apply_ite State.tally]

/-! ### What leaves the inputs as they are

After a level has been accepted a port leaves STALLED and its requests are routed again (R305, R319), a drain is cancelled or a wake
recorded (R406, R410), or the throttle's alert is raised (R415). -/

/-- `t` has the inputs of `s`, its memory and its tally counters. -/
structure SameInputs (s t : State) : Prop where
  inputs : t.pwr.inputs = s.pwr.inputs
  mem : t.mem = s.mem
  tally : t.tally = s.tally

namespace SameInputs

variable {s t u : State}

theorem refl (s : State) : SameInputs s s := ⟨rfl, rfl, rfl⟩

theorem trans (h : SameInputs s t) (h' : SameInputs t u) : SameInputs s u :=
  ⟨h'.inputs.trans h.inputs, h'.mem.trans h.mem, h'.tally.trans h.tally⟩

theorem input (h : SameInputs s t) (i : Nat) : t.input i = s.input i := by
  rw [State.input, h.inputs, State.input]

theorem ite (ht : SameInputs s t) (hu : SameInputs s u) (p : Prop) [Decidable p] : SameInputs s (if p then t else u) := by
  split
  · exact ht
  · exact hu

theorem foldl {α : Type} {f : State → α → State} (hf : ∀ t a, SameInputs t (f t a)) (l : List α) (s : State) :
    SameInputs s (l.foldl f s) := by
  induction l generalizing s with
  | nil => exact refl s
  | cons a l ih => exact (hf s a).trans (ih (f s a))

theorem event (s : State) (c : Nat) (e : Event) : SameInputs s (s.event c e) := by
  have tally := s.event_tally c e
  obtain ⟨_, _, _, _, _, h⟩ := (PostFrame.refl s).post c (.event { e with tick := s.tick32 })
  rw [State.event, h] at tally ⊢
  exact ⟨rfl, rfl, tally⟩

theorem modPort (s : State) (p : Nat) (f : TPort → TPort) : SameInputs s (s.modPort p f) := ⟨rfl, rfl, rfl⟩

theorem portState (s : State) (p : Nat) (st : PortSt) : SameInputs s (s.portState p st) := by
  unfold State.portState
  split
  · exact refl s
  · exact (modPort s p _).trans (event _ 0 _)

theorem countPort (s : State) (p m : Nat) : SameInputs s (s.countPort p m) := ⟨rfl, rfl, rfl⟩

theorem failEngine (s : State) (e serial code addr : Nat) : SameInputs s (s.failEngine e serial code addr) := by
  unfold State.failEngine
  extract_lets x f
  split
  · exact refl s
  · exact ⟨rfl, rfl, rfl⟩

theorem watchCredit (s : State) (p : Nat) : SameInputs s (s.watchCredit p) := ⟨rfl, rfl, rfl⟩

theorem dropReq (s : State) (tag : Nat) : SameInputs s (s.dropReq tag) := by
  unfold State.dropReq
  extract_lets mine _ t
  have dropped : SameInputs s t := ⟨rfl, rfl, rfl⟩
  exact dropped.trans (foldl (fun t e => (watchCredit t e.1).ite (refl t) _) s.twine.ports t)

theorem resolveFail (s : State) (r : RemReq) (code : Nat) : SameInputs s (s.resolveFail r code) :=
  (dropReq s r.tag).trans (failEngine _ _ _ _ _)

theorem settleRoutes (s : State) : SameInputs s s.settleRoutes := by
  refine foldl (fun t r => ?_) _ s
  split
  · exact (refl t).ite (resolveFail t r _) _
  · exact refl t

theorem unstall (s : State) (p : Nat) : SameInputs s (s.unstall p) := by
  unfold State.unstall
  exact ((portState s p .up).trans (settleRoutes _)).ite (refl s) _

theorem trainPort (s : State) (p : Nat) : SameInputs s (s.trainPort p) :=
  (modPort s p _).trans (portState _ p .train)

theorem cancelDrain (s : State) : SameInputs s s.cancelDrain := by
  unfold State.cancelDrain
  extract_lets again _ u v
  have undone : SameInputs s v := ⟨rfl, rfl, rfl⟩
  exact (refl s).ite ((undone.trans (foldl (fun t p => (trainPort t p).ite (refl t) _) _ v)).ite undone _) _

theorem wakeFrom (s : State) (src : Nat) : SameInputs s (s.wakeFrom src) := by
  unfold State.wakeFrom
  extract_lets _ u
  have woken : SameInputs s u := ⟨rfl, rfl, rfl⟩
  have recorded : SameInputs s (u.recordWake src) := ⟨rfl, rfl, rfl⟩
  exact (refl s).ite (recorded.ite woken _) _

theorem wakeBy (s : State) (src : Nat) : SameInputs s (s.wakeBy src) := by
  unfold State.wakeBy
  exact (wakeFrom s src).ite (cancelDrain s) _

theorem alertIn (s : State) (r : Bool × State) : SameInputs r.2 (s.alertIn r) := by
  unfold State.alertIn
  split
  · exact ⟨rfl, rfl, rfl⟩
  · exact refl r.2

theorem wakeIn (s : State) (prev cur : Bool) : SameInputs (s.acceptInput 0 prev cur).2 (s.wakeIn prev cur) := by
  unfold State.wakeIn
  exact (wakeBy _ 1).ite (refl _) _

theorem maskExpiry (s : State) (pin : PinInput) (prev cur : Bool) :
    SameInputs (s.endMask (inputIx pin) prev cur).2 (s.maskExpiry pin prev cur) := by
  unfold State.maskExpiry
  cases pin with
  | wakeIn => exact (wakeBy _ 1).ite (refl _) _
  | thermAlertIn => exact alertIn s _
  | pauseIn p => exact (unstall _ p).ite (refl _) _

end SameInputs

/-! ### What a new level and the end of a mask make of an input -/

@[simp] theorem State.input_setInput_same (s : State) (i : Nat) (x : InputSt) : (s.setInput i x).input i = x := by
  simp [State.input, State.setInput]

theorem State.input_setInput_other (s : State) {i j : Nat} (x : InputSt) (h : j ≠ i) :
    (s.setInput i x).input j = s.input j := by
  simp [State.input, State.setInput, sget_sset_other _ _ _ h]

/-- An edge came in the three boundaries before `now` (R399). -/
def InputSt.chatters (x : InputSt) (now : Nat) : Bool := x.lastEdge.any (fun e => decide (now ≤ e + 3 ∧ e < now))

/-- The input once the level `cur` has been accepted at boundary `now`. -/
def InputSt.accept (x : InputSt) (i now : Nat) (cur : Bool) : InputSt :=
  ({ x with
    level := cur
    lastEdge := some now
    chatter := x.chatter || x.chatters now
    maskTo := if x.chatters now then some (now + 1000) else none
    stuck := if cur then x.stuck else false } : InputSt).count i now

/-- The input once its mask has ended at boundary `now` with the level `cur`. -/
def InputSt.unmask (x : InputSt) (i now : Nat) (cur : Bool) : InputSt :=
  ({ x with level := cur, maskTo := none } : InputSt).count i now

@[simp] theorem InputSt.count_chatter (x : InputSt) (i now : Nat) : (x.count i now).chatter = x.chatter := rfl
@[simp] theorem InputSt.count_maskTo (x : InputSt) (i now : Nat) : (x.count i now).maskTo = x.maskTo := rfl

theorem InputSt.accept_of_chatters {x : InputSt} {now : Nat} (h : x.chatters now = true) (i : Nat) (cur : Bool) :
    (x.accept i now cur).chatter = true ∧ (x.accept i now cur).maskTo = some (now + 1000) := by
  simp [InputSt.accept, h]

theorem InputSt.accept_of_calm {x : InputSt} {now : Nat} (h : x.chatters now = false) (i : Nat) (cur : Bool) :
    (x.accept i now cur).chatter = x.chatter ∧ (x.accept i now cur).maskTo = none := by
  simp [InputSt.accept, h]

/-- A masked input is taken as its masked value (Table 14.3). -/
theorem InputSt.taken_masked {x : InputSt} {m : Nat} (h : x.maskTo = some m) (i : Nat) : x.taken i = decide (i ≠ 0) := by
  simp [InputSt.taken, maskedValue, h]

theorem InputSt.taken_unmasked {x : InputSt} (h : x.maskTo = none) (i : Nat) : x.taken i = x.level := by
  simp [InputSt.taken, h]

theorem InputSt.chatters_of_edge {x : InputSt} {now e : Nat} (he : x.lastEdge = some e) (hlt : e < now) (hle : now ≤ e + 3) :
    x.chatters now = true := by
  simp [InputSt.chatters, he, hlt, hle]

theorem InputSt.chatters_of_none {x : InputSt} (h : x.lastEdge = none) (now : Nat) : x.chatters now = false := by
  simp [InputSt.chatters, h]

/-- A sample that differs from the one before it, or that shows the old level, and every sample of a masked input, is no new
level (R398, R399). -/
theorem State.acceptInput_none {s : State} {i : Nat} {prev cur : Bool}
    (h : (s.input i).maskTo = none ∧ (prev ≠ cur ∨ cur = (s.input i).level) ∨ (s.input i).maskTo.isSome) :
    s.acceptInput i prev cur = (false, s) := by
  unfold State.acceptInput
  refine if_pos ?_
  rcases h with ⟨-, hdiffer | hold⟩ | hmasked
  · simp [hdiffer]
  · simp [hold]
  · simp [hmasked]

/-- The two samples show a new level of an input that is filtered and not masked. -/
structure State.NewLevel (s : State) (i : Nat) (prev cur : Bool) : Prop where
  filters : s.filters i
  unmasked : (s.input i).maskTo = none
  agree : prev = cur
  new : cur ≠ (s.input i).level

/-- An accepted level is written to its input; a pause input that chatters is counted at its port (R304). -/
theorem State.acceptInput_new {s : State} {i : Nat} {prev cur : Bool} (h : s.NewLevel i prev cur) :
    s.acceptInput i prev cur =
      let t := s.setInput i ((s.input i).accept i s.tick cur)
      (true, if (s.input i).chatters s.tick ∧ 2 ≤ i then t.countPort (i - 2) 8 else t) := by
  obtain ⟨hfilters, hmask, rfl, hnew⟩ := h
  unfold State.acceptInput
  exact if_neg (by simp [hfilters, hmask, hnew])

theorem SameInputs.acceptInput {s : State} {i : Nat} {prev cur : Bool} (h : s.NewLevel i prev cur) :
    SameInputs (s.setInput i ((s.input i).accept i s.tick cur)) (s.acceptInput i prev cur).2 := by
  rw [State.acceptInput_new h]
  exact (SameInputs.countPort _ _ _).ite (SameInputs.refl _) _

theorem State.endMask_none {s : State} {i : Nat} {prev cur : Bool} {m : Nat} (hm : (s.input i).maskTo = some m)
    (h : s.tick < m ∨ prev ≠ cur) : s.endMask i prev cur = (false, s) := by
  unfold State.endMask
  refine if_neg ?_
  rcases h with hearly | hdiffer
  · have hmasked : ¬ m ≤ s.tick := Nat.not_le_of_lt hearly
    simp [hm, hmasked]
  · simp [hdiffer]

theorem State.endMask_out {s : State} {i : Nat} {cur : Bool} {m : Nat} (hf : s.filters i)
    (hm : (s.input i).maskTo = some m) (h : m ≤ s.tick) :
    s.endMask i cur cur = (true, s.setInput i ((s.input i).unmask i s.tick cur)) := by
  unfold State.endMask
  exact if_pos (by simp [hf, hm, h])

/-! ### The commands -/

theorem exec_wakeInAccept (prev cur : Bool) (s : State) : exec (.wakeInAccept prev cur) s = .next (s.wakeIn prev cur) := rfl

theorem exec_thermAlertAccept (prev cur : Bool) (s : State) :
    exec (.thermAlertAccept prev cur) s = .next (s.alertIn (s.acceptInput 1 prev cur)) := rfl

theorem exec_pauseInAccept (p : Port) (prev cur : Bool) (s : State) : exec (.pauseInAccept p prev cur) s =
    .next (if (s.acceptInput (2 + p) prev cur).1 then (s.acceptInput (2 + p) prev cur).2.unstall p else s) := rfl

theorem exec_pauseInAccept_new {p : Port} {prev cur : Bool} {s : State} (h : s.NewLevel (2 + p) prev cur) :
    exec (.pauseInAccept p prev cur) s = .next ((s.acceptInput (2 + p) prev cur).2.unstall p) := by
  rw [exec_pauseInAccept, State.acceptInput_new h]
  rfl

theorem exec_chatterMaskExpiry (pin : PinInput) (prev cur : Bool) (s : State) :
    exec (.chatterMaskExpiry pin prev cur) s = .next (s.maskExpiry pin prev cur) := rfl

theorem State.wakeIn_eq_self {s : State} {prev cur : Bool} (h : s.acceptInput 0 prev cur = (false, s)) :
    s.wakeIn prev cur = s := by
  simp [State.wakeIn, h]

theorem State.alertIn_eq_self (s : State) : s.alertIn (false, s) = s := by
  simp [State.alertIn]

theorem State.maskExpiry_eq_self {s : State} {pin : PinInput} {prev cur : Bool}
    (h : s.endMask (inputIx pin) prev cur = (false, s)) : s.maskExpiry pin prev cur = s := by
  unfold State.maskExpiry
  rw [h]
  cases pin with
  | wakeIn => exact if_neg (by simp)
  | thermAlertIn => exact s.alertIn_eq_self
  | pauseIn p => exact if_neg (by simp)

/-- The last-wake record names the source and the power state (R410). -/
theorem State.recordWake_lastWake0 {s : State} {st : PwrState} (h : s.pwr.state = st) (src : Nat) :
    (s.recordWake src).reg Reg.pwrLastWake0 = BitVec.ofNat 32 (src + 16 * st.code) := by
  unfold State.recordWake
  rw [State.reg_setReg_other _ _ (by decide), State.reg_setReg_same, h]

theorem State.recordWake_lastWake1 (s : State) (src : Nat) :
    (s.recordWake src).reg Reg.pwrLastWake1 = BitVec.ofNat 32 s.tick32 := State.reg_setReg_same _ _ _

/-- In P2 a wake is accepted and recorded at once (R406, R410). -/
theorem State.wakeBy_p2 {s : State} (hp : s.pwr.state = .p2) (hw : s.pwr.wakeSrc = none) (src : Nat) :
    (s.wakeBy src).pwr.wakeSrc = some src ∧ (s.wakeBy src).reg Reg.pwrLastWake0 = BitVec.ofNat 32 (src + 16 * 2) ∧
      (s.wakeBy src).reg Reg.pwrLastWake1 = BitVec.ofNat 32 s.tick32 := by
  have hrec : s.wakeBy src = ({ s with pwr := { s.pwr with wakeSrc := some src } } : State).recordWake src := by
    simp [State.wakeBy, State.wakeFrom, hp, hw]
  rw [hrec]
  exact ⟨rfl, State.recordWake_lastWake0 (st := .p2) hp src, State.recordWake_lastWake1 _ src⟩

/-- An accepted assertion of WAKE_IN#, not masked for chatter and enabled as a source, is a wake (R398, R410). -/
theorem State.wakeIn_asserted {s : State} {prev : Bool} (h : s.NewLevel 0 prev true)
    (hcalm : (s.input 0).chatters s.tick = false) (hen : s.fld Reg.pwrWakeEn 0 0 = 1) :
    s.wakeIn prev true = (s.setInput 0 ((s.input 0).accept 0 s.tick true)).wakeBy 1 := by
  have haccept : s.acceptInput 0 prev true = (true, s.setInput 0 ((s.input 0).accept 0 s.tick true)) := by
    simp [State.acceptInput_new h]
  have htaken : ((s.input 0).accept 0 s.tick true).taken 0 = true :=
    InputSt.taken_unmasked (InputSt.accept_of_calm hcalm 0 true).2 0
  unfold State.wakeIn
  rw [haccept]
  exact if_pos ⟨rfl, by rw [State.input_setInput_same, htaken], hen⟩

/-- Settles O43: a new level or the end of a mask changes its own input, and what follows it changes no input, no memory and no
tally counter. -/
theorem inputsFilter : Obligations.InputsFilter := by
  unfold Obligations.InputsFilter
  intro s prev cur edge none_ taken
  have new {i : Nat} (h : edge i) : s.NewLevel i prev cur := by
    obtain ⟨hfilters, hmask, hagree, hlevel⟩ := h
    exact ⟨hfilters, hmask, hagree, hlevel⟩
  have takes {i : Nat} {u : State} (h : edge i) (hu : SameInputs (s.acceptInput i prev cur).2 u) : taken i u := by
    have hset := (SameInputs.acceptInput (new h)).trans hu
    have hi : u.input i = (s.input i).accept i s.tick cur := (hset.input i).trans (s.input_setInput_same i _)
    simp only [taken, hi]
    exact ⟨rfl, rfl, hset.mem, hset.tally, fun j hj => (hset.input j).trans (s.input_setInput_other _ hj),
      fun e he hlt hle => InputSt.accept_of_chatters (InputSt.chatters_of_edge he hlt hle) i cur,
      fun he => InputSt.accept_of_calm (InputSt.chatters_of_none he s.tick) i cur⟩
  refine ⟨fun h => ⟨_, exec_wakeInAccept prev cur s, takes h (.wakeIn s prev cur)⟩,
    fun h => ⟨_, exec_thermAlertAccept prev cur s, takes h (.alertIn s _)⟩,
    fun p h => ⟨_, exec_pauseInAccept_new (new h), takes h (.unstall _ p)⟩, fun h => ?_, fun h => ?_, fun p h => ?_,
    fun pin m => ?_, fun hf hm he hl hen hp hw => ?_⟩
  · rw [exec_wakeInAccept, State.wakeIn_eq_self (State.acceptInput_none h)]
  · rw [exec_thermAlertAccept, State.acceptInput_none h, State.alertIn_eq_self]
  · rw [exec_pauseInAccept, State.acceptInput_none h]
    rfl
  · intro i x hmask
    refine ⟨InputSt.taken_masked hmask i, fun hf hout hagree => ⟨_, exec_chatterMaskExpiry pin prev cur s, ?_⟩, fun h => ?_⟩
    · subst hagree
      have hset := SameInputs.maskExpiry s pin prev prev
      rw [State.endMask_out hf hmask hout] at hset
      rw [(hset.input i).trans (s.input_setInput_same i _)]
      exact ⟨rfl, rfl, rfl, rfl, hset.mem, fun j hj => (hset.input j).trans (s.input_setInput_other _ hj)⟩
    · rw [exec_chatterMaskExpiry, State.maskExpiry_eq_self (State.endMask_none hmask h)]
  · have hnew : s.NewLevel 0 true true := ⟨hf, hm, rfl, by simp [hl]⟩
    refine ⟨_, exec_wakeInAccept true true s, ?_⟩
    rw [State.wakeIn_asserted hnew (InputSt.chatters_of_none he s.tick) hen]
    exact State.wakeBy_p2 (s := s.setInput 0 _) hp hw 1

end Sys2Proof.Machine
end

section
/-!
O50: what a core's declaration and its death leave as they are (R67, R382, R383, R447). A post to a context's rings asks for nothing
at a tick boundary; the work that ends with a core, and the teardowns that end with it, change no core's place in the map, no
request that is due and start no stream.
-/

namespace Sys2Proof.Machine

/-! ### A post changes neither the error log nor what waits for a tick boundary -/

@[simp] theorem State.msix_rel (s : State) (c v : Nat) : (s.msix c v).rel = s.rel := by
  simp [State.msix, apply_ite State.rel]

@[simp] theorem State.putEvent_rel (s : State) (c : Nat) (e : Event) : (s.putEvent c e).rel = s.rel := by
  simp [State.putEvent]

@[simp] theorem State.eqFull_rel (s : State) (c : Nat) : (s.eqFull c).rel = s.rel := by
  simp [State.eqFull, apply_ite State.rel]

@[simp] theorem State.writeEvent_rel (s : State) (c : Nat) (e : Event) : (s.writeEvent c e).rel = s.rel := by
  simp [State.writeEvent, apply_ite State.rel]

@[simp] theorem State.signalCompletion_rel (s : State) (c : Nat) : (s.signalCompletion c).rel = s.rel := by
  simp [State.signalCompletion, apply_ite State.rel]

@[simp] theorem State.putCompletion_rel (s : State) (c : Nat) (r : Completion) : (s.putCompletion c r).rel = s.rel := rfl

@[simp] theorem State.writeCompletion_rel (s : State) (c : Nat) (r : Completion) :
    (s.writeCompletion c r).rel = s.rel := by
  simp [State.writeCompletion, apply_ite State.rel]

@[simp] theorem State.postBoth_rel (s : State) (c : Nat) (r : Completion) (e : Event) :
    (s.postBoth c r e).rel = s.rel := by
  simp [State.postBoth, apply_ite State.rel]

@[simp] theorem State.writePost_rel (s : State) (c : Nat) (p : Post) : (s.writePost c p).rel = s.rel := by
  cases p with
  | final r => simp [State.writePost]
  | both r e => simp [State.writePost]
  | step r => simp [State.writePost, apply_ite State.rel]
  | event e => exact s.writeEvent_rel c e
  | tally tc bank n => rfl

@[simp] theorem State.mutePost_rel (s : State) (c : Nat) (p : Post) : (s.mutePost c p).rel = s.rel := by
  cases p <;> rfl

@[simp] theorem State.askFlush_rel (s : State) (c need : Nat) : (s.askFlush c need).rel = s.rel := by
  simp [State.askFlush, apply_ite State.rel]

@[simp] theorem State.give_rel (s : State) (c : Nat) (p : Post) : (s.give c p).rel = s.rel := by
  simp [State.give, apply_ite State.rel]

@[simp] theorem State.enter_rel (s : State) (c : Nat) (st : CtxSt) : (s.enter c st).rel = s.rel := by
  simp [State.enter, State.writeRsb, apply_ite State.rel]

@[simp] theorem State.freshPage_rel (s : State) (c : Nat) : (s.freshPage c).rel = s.rel := rfl

@[simp] theorem State.closed_rel (s : State) (c : Nat) : (s.closed c).rel = s.rel := by
  unfold State.closed
  cases (s.ctx c).closing with
  | none => rfl
  | some k => simp [apply_ite State.rel]

@[simp] theorem State.settle_rel (s : State) (c : Nat) : (s.settle c).rel = s.rel := by
  unfold State.settle
  cases (s.ctx c).barrier with
  | none => simp [apply_ite State.rel]
  | some tag => simp [apply_ite State.rel]

@[simp] theorem State.post_rel (s : State) (c : Nat) (p : Post) : (s.post c p).rel = s.rel := by
  simp [State.post, apply_ite State.rel]

@[simp] theorem State.event_rel (s : State) (c : Nat) (e : Event) : (s.event c e).rel = s.rel := s.post_rel c _

/-- The log changes its own entries and counts, and nothing that waits for a tick boundary (R372, R374). -/
theorem State.log_rel (s : State) (e : LogEntry) :
    ∃ log logHead logLost, (s.log e).rel = { s.rel with log := log, logHead := logHead, logLost := logLost } := by
  unfold State.log
  extract_lets
  split
  · exact ⟨_, _, _, rfl⟩
  · split
    · exact ⟨_, _, _, rfl⟩
    · rw [State.event_rel]; exact ⟨_, _, _, rfl⟩

@[simp] theorem State.log_boundary (s : State) (e : LogEntry) : (s.log e).rel.boundary = s.rel.boundary := by
  obtain ⟨_, _, _, h⟩ := s.log_rel e
  rw [h]

@[simp] theorem State.log_asked (s : State) (e : LogEntry) : (s.log e).rel.asked = s.rel.asked := by
  obtain ⟨_, _, _, h⟩ := s.log_rel e
  rw [h]

namespace PostFrame

variable {s t : State}

theorem phys (h : PostFrame s t) : t.phys = s.phys := by
  obtain ⟨_, _, _, _, _, rfl⟩ := h; rfl

theorem cores (h : PostFrame s t) : t.cores = s.cores := by
  obtain ⟨_, _, _, _, _, rfl⟩ := h; rfl

theorem mem (h : PostFrame s t) : t.mem = s.mem := by
  obtain ⟨_, _, _, _, _, rfl⟩ := h; rfl

end PostFrame

/-! ### Work that leaves the cores where they are

The work that ends with a core, and a teardown, end streams and start none. They read and write memory, post records and ask for
effects at the next tick boundary; the core map, and the requests whose boundary has come, stay as they are. -/

/-- `t` has the physical cores of `s` and the requests that are due in it; each logical core has its place in the map, and where it ran
no stream it runs none. -/
structure CoresStay (s t : State) : Prop where
  phys : t.phys = s.phys
  due : t.rel.boundary = s.rel.boundary
  map : ∀ c, (t.core c).map = (s.core c).map
  idle : ∀ c, s.stream c = none → t.stream c = none

namespace CoresStay

variable {s t : State}

theorem refl (s : State) : CoresStay s s := ⟨rfl, rfl, fun _ => rfl, fun _ h => h⟩

/-- A change of anything that the predicate does not speak of. -/
theorem of_same {u : State} (h : CoresStay s t) (hphys : u.phys = t.phys := by rfl) (hcores : u.cores = t.cores := by rfl)
    (hdue : u.rel.boundary = t.rel.boundary := by rfl) : CoresStay s u where
  phys := hphys.trans h.phys
  due := hdue.trans h.due
  map c := by rw [State.core, hcores]; exact h.map c
  idle c hc := by rw [State.stream, State.core, hcores]; exact h.idle c hc

theorem withServe (h : CoresStay s t) (x : Serve) : CoresStay s { t with serve := x } := h.of_same
theorem withSkeins (h : CoresStay s t) (x : Skeins) : CoresStay s { t with skeins := x } := h.of_same
theorem withSpads (h : CoresStay s t) (x : Spads) : CoresStay s { t with spads := x } := h.of_same
theorem withWinder (h : CoresStay s t) (x : WinderSt) : CoresStay s { t with winder := x } := h.of_same
theorem send (h : CoresStay s t) (m : HostMsg) : CoresStay s (t.send m) := h.of_same

theorem ite {u : State} (ht : CoresStay s t) (hu : CoresStay s u) (p : Prop) [Decidable p] :
    CoresStay s (if p then t else u) := by
  split
  · exact ht
  · exact hu

theorem foldl {α : Type} {f : State → α → State} (h : CoresStay s t) (l : List α)
    (hf : ∀ {u : State} (x : α), CoresStay s u → CoresStay s (f u x)) : CoresStay s (l.foldl f t) :=
  List.foldlRecOn l f h fun _ hu x _ => hf x hu

theorem setCore (h : CoresStay s t) (c : Nat) (x : CoreSt) (hmap : x.map = (t.core c).map)
    (hidle : t.stream c = none → x.stream = none) : CoresStay s (t.setCore c x) where
  phys := h.phys
  due := h.due
  map d := by
    by_cases hd : d = c
    · subst hd; rw [State.core_setCore_same, hmap, h.map]
    · rw [State.core_setCore_other _ _ hd, h.map]
  idle d hs := by
    by_cases hd : d = c
    · subst hd; rw [State.stream, State.core_setCore_same, hidle (h.idle d hs)]
    · rw [State.stream, State.core_setCore_other _ _ hd]; exact h.idle d hs

theorem modCore (h : CoresStay s t) (c : Nat) (f : CoreSt → CoreSt) (hmap : (f (t.core c)).map = (t.core c).map := by rfl)
    (hidle : t.stream c = none → (f (t.core c)).stream = none := by exact fun idle => idle) :
    CoresStay s (t.modCore c f) := h.setCore c _ hmap hidle

theorem closeStream (h : CoresStay s t) (c : Nat) (x : Stream) : CoresStay s (t.closeStream c x) :=
  h.modCore c _ rfl fun _ => rfl

/-- A stream that runs is put back. -/
theorem setStream (h : CoresStay s t) {c : Nat} {x : Stream} (hx : t.stream c = some x) (y : Option Stream) :
    CoresStay s (t.setStream c y) :=
  h.modCore c _ rfl fun none => absurd (hx.symm.trans none) (by simp)

theorem modCtx (h : CoresStay s t) (c : Nat) (f : Ctxs → Ctxs) : CoresStay s (t.modCtx c f) := h.of_same

theorem atBoundary (h : CoresStay s t) (x : Boundary) : CoresStay s (t.atBoundary x) := by
  unfold State.atBoundary
  exact h.ite h.of_same _

/-! #### Posts and the log -/

theorem of_post {u : State} (h : CoresStay s t) (hu : PostFrame t u) (hdue : u.rel.boundary = t.rel.boundary) :
    CoresStay s u := h.of_same hu.phys hu.cores hdue

theorem post (h : CoresStay s t) (c : Nat) (p : Post) : CoresStay s (t.post c p) :=
  h.of_post ((PostFrame.refl t).post c p) (congrArg Rel.boundary (t.post_rel c p))

theorem final (h : CoresStay s t) (c : Nat) (r : Completion) : CoresStay s (t.final c r) := h.post c _

theorem event (h : CoresStay s t) (c : Nat) (e : Event) : CoresStay s (t.event c e) := h.post c _

theorem closed (h : CoresStay s t) (c : Nat) : CoresStay s (t.closed c) :=
  h.of_post ((PostFrame.refl t).closed c) (congrArg Rel.boundary (t.closed_rel c))

theorem log (h : CoresStay s t) (e : LogEntry) : CoresStay s (t.log e) :=
  h.of_post ((PostFrame.refl t).log e) (t.log_boundary e)

theorem statusRecord (h : CoresStay s t) (c : Nat) (x : Stream) : CoresStay s (t.statusRecord c x) := by
  unfold State.statusRecord
  split
  · exact h
  · exact h.ite ((h.modCtx x.ctx _).send _) _

/-! #### Lines of stacked memory -/

theorem countCe (h : CoresStay s t) (n : Nat) : CoresStay s (t.countCe n) := by
  have counted : CoresStay s (t.bumpReg (Reg.eccCeCount n) 1) := h.of_same
  unfold State.countCe
  exact ite counted.of_same (ite (log counted.of_same _) counted _) _

theorem quarantineLine (h : CoresStay s t) (a : Nat) : CoresStay s (t.quarantineLine a) := by
  unfold State.quarantineLine
  refine h.foldl _ fun e hu => ?_
  split
  · exact (hu.atBoundary _).ite hu _
  · exact hu

theorem noteMirror (h : CoresStay s t) (a : Nat) : CoresStay s (t.noteMirror a) := by
  unfold State.noteMirror
  refine h.foldl _ fun e hu => ?_
  split
  · exact hu.of_same
  · exact hu

theorem foundUe (h : CoresStay s t) (a : Nat) (l : Loc) (path : Path) (ctx : Option Nat) :
    CoresStay s (t.foundUe a l path ctx) := by
  unfold State.foundUe
  extract_lets logged rk rows _ counted here asked
  have hl : CoresStay s logged := h.log _
  have hc : CoresStay s counted := hl.of_same
  exact (((hc.atBoundary _).ite hc _).quarantineLine a).noteMirror a

theorem readLoc (h : CoresStay s t) (a : Nat) (l : Loc) (path : Path) (ctx : Option Nat) :
    CoresStay s (t.readLoc a l path ctx).2 := by
  unfold State.readLoc
  extract_lets rk d
  split
  · exact h
  · exact h.log _
  · split
    · exact h
    · exact h
    · exact h.countCe _
    · exact h.foundUe _ _ _ _

theorem storeLine (h : CoresStay s t) (rk i : Nat) (d : List Nat) (poison : Bool) :
    CoresStay s (t.storeLine rk i d poison) := h.of_same

theorem writeLoc (h : CoresStay s t) (a : Nat) (l : Loc) (data : Line) (mask : LineMask) (poison : Bool) (path : Path)
    (ctx : Option Nat) : CoresStay s (t.writeLoc a l data mask poison path ctx) := by
  unfold State.writeLoc
  extract_lets rk d
  refine (h.storeLine _ _ _ _).ite (h.ite ?_ _) _
  split
  · split
    · exact h.storeLine _ _ _ _
    · exact h.storeLine _ _ _ _
    · exact (h.countCe _).storeLine _ _ _ _
    · exact (h.foundUe _ _ _ _).storeLine _ _ _ _
  · exact h.storeLine _ _ _ _

theorem unstage (h : CoresStay s t) (a : Nat) : CoresStay s (t.unstage a) := h.of_same

theorem readCopies (h : CoresStay s t) (path : Path) (l bad : List Nat) (worst : Got) :
    CoresStay s (t.readCopies path l bad worst).2 := by
  induction l generalizing t bad worst with
  | nil => exact h
  | cons a rest ih =>
    unfold State.readCopies
    extract_lets l r
    have hr : CoresStay s r.2 := h.readLoc a l path none
    split
    · exact ih h _ _
    · split
      · exact ih hr _ _
      · exact hr.foldl bad fun b hu => hu.writeLoc _ _ _ _ _ _ _

theorem readMem (h : CoresStay s t) (a : Nat) (path : Path) (ctx : Option Nat) : CoresStay s (t.readMem a path ctx).2 := by
  unfold State.readMem
  extract_lets a r
  have hr : CoresStay s r.2 := h.readCopies path _ _ _
  split
  · exact (hr.atBoundary _).ite hr _
  · exact h.readLoc _ _ _ _

theorem readMemAt (h : CoresStay s t) (a : Nat) (l : Loc) (path : Path) (ctx : Option Nat) :
    CoresStay s (t.readMemAt a l path ctx).2 := by
  unfold State.readMemAt
  split
  · exact h.readMem a path ctx
  · exact h.readLoc _ _ _ _

theorem writeCopies (h : CoresStay s t) (a : Nat) (data : Line) (mask : LineMask) (poison : Bool) (path : Path) :
    CoresStay s (t.writeCopies a data mask poison path) := by
  unfold State.writeCopies
  exact h.foldl _ fun b hu => (hu.writeLoc _ _ _ _ _ _ _).ite hu _

theorem syncTable (h : CoresStay s t) (a : Nat) : CoresStay s (t.syncTable a) := by
  unfold State.syncTable
  refine h.ite ?_ _
  split
  · exact h
  · exact h.of_same

theorem writeMem (h : CoresStay s t) (a : Nat) (data : Line) (mask : LineMask) (poison : Bool) (path : Path) (ctx : Option Nat) :
    CoresStay s (t.writeMem a data mask poison path ctx) := by
  unfold State.writeMem
  exact ((h.writeCopies _ _ _ _ _).syncTable _).ite ((h.writeLoc _ _ _ _ _ _ _).unstage _) _

theorem writeMemAt (h : CoresStay s t) (a : Nat) (l : Loc) (data : Line) (mask : LineMask) (poison : Bool) (path : Path)
    (ctx : Option Nat) : CoresStay s (t.writeMemAt a l data mask poison path ctx) := by
  unfold State.writeMemAt
  exact (h.writeMem _ _ _ _ _ _).ite ((h.writeLoc _ _ _ _ _ _ _).unstage _) _

/-! #### Lines of scratchpads, and the Governor's reads -/

theorem sramFailed (h : CoresStay s t) (p unit core : Nat) : CoresStay s (t.sramFailed p unit core) := by
  unfold State.sramFailed
  extract_lets key again _ noted
  have hn : CoresStay s noted := h.of_same
  exact ((hn.log _).atBoundary _).ite hn _

theorem readUnit (h : CoresStay s t) (p unit core : Nat) : CoresStay s (t.readUnit p unit core).2.2 := by
  unfold State.readUnit
  extract_lets d
  split
  · exact h
  · exact h
  · exact h.countCe 8
  · exact (h.log _).sramFailed _ _ _

theorem readSpad (h : CoresStay s t) (core p line : Nat) : CoresStay s (t.readSpad core p line).2 := by
  unfold State.readSpad
  extract_lets k a b
  split
  · exact h
  · exact (h.readUnit _ _ _).readUnit _ _ _

theorem putSpadUnit (h : CoresStay s t) (p unit : Nat) (on fresh : Bool) (x : List Nat) :
    CoresStay s (t.putSpadUnit p unit on fresh x) := by
  unfold State.putSpadUnit
  exact (h.withSpads _).ite ((h.withSpads _).ite h _) _

theorem writeSpad (h : CoresStay s t) (p line : Nat) (data : Line) (mask : LineMask) (poison unsealed : Bool) :
    CoresStay s (t.writeSpad p line data mask poison unsealed) := by
  unfold State.writeSpad
  exact h.ite (((h.putSpadUnit _ _ _ _ _).putSpadUnit _ _ _ _ _).withSpads _) _

theorem asyncFirst (h : CoresStay s t) (core : Nat) : CoresStay s (t.asyncFirst core) := by
  unfold State.asyncFirst
  extract_lets k
  split
  · next a rest p _ _ =>
    have taken : CoresStay s (t.setCore core { k with async := rest }) := h.setCore core _ rfl fun idle => idle
    split
    · exact taken.writeSpad _ _ _ _ _ _
    · exact (taken.readSpad _ _ _).of_same
  · exact h

theorem asyncAll (h : CoresStay s t) (core : Nat) : CoresStay s (t.asyncAll core) := by
  unfold State.asyncAll
  exact h.foldl _ fun _ hu => hu.asyncFirst core

theorem hostRead (h : CoresStay s t) (c addr len : Nat) (window : Bool) : CoresStay s (t.hostRead c addr len window) := by
  unfold State.hostRead
  exact ite h h.of_same _

theorem readFailed (h : CoresStay s t) (c who : Nat) (tag : Word) (bus : Nat) : CoresStay s (t.readFailed c who tag bus) := by
  unfold State.readFailed
  exact (h.modCtx c _).ite ((h.modCtx c _).event c _) _

/-- The Governor stages nothing. -/
theorem fetchLine (h : CoresStay s t) (a ctx : Nat) (host : Option Line) : CoresStay s (t.fetchLine a false ctx host).2 := by
  unfold State.fetchLine State.fetchLineAt
  cases placeOf a with
  | stacked => exact h.readMemAt _ _ _ _
  | scratch core o =>
    cases hp : (t.core core).map.phys with
    | some p => simp only [hp]; exact h.readSpad _ _ _
    | none => simp only [hp]; exact h
  | window o =>
    cases host with
    | some l => exact h.hostRead _ _ _ _
    | none => exact (h.hostRead _ _ _ _).readFailed _ _ _ _
  | reserved => exact h

theorem performOwn (h : CoresStay s t) (x : BankAcc) : CoresStay s (t.performOwn x) := by
  unfold State.performOwn
  split
  · exact h.writeMemAt _ _ _ _ _ _ _
  · exact h

theorem flushRow (h : CoresStay s t) (l : Loc) : CoresStay s (t.flushRow l) := by
  unfold State.flushRow
  exact ite (foldl h.of_same _ fun w hu => hu.performOwn w.2) h _

theorem govLine (h : CoresStay s t) (c a : Nat) : CoresStay s (t.govLine c a).2 := by
  unfold State.govLine
  cases placeOf a with
  | window o => exact fetchLine (t := { t with drawn := t.drawn + 64 }) h.of_same _ _ _
  | stacked => exact (h.flushRow _).fetchLine _ _ _
  | scratch core o => exact (h.asyncAll core).fetchLine _ _ _
  | reserved => exact h.fetchLine _ _ _

theorem govRead (h : CoresStay s t) (c a n : Nat) : CoresStay s (t.govRead c a n).2.2 := by
  unfold State.govRead
  exact List.foldlRecOn (motive := fun (acc : List Nat × List Bool × State) => CoresStay s acc.2.2) _ _ h fun _ hu _ _ => hu.govLine _ _

/-! #### Skeins and HELD sequences -/

theorem setSkein (h : CoresStay s t) (n : Nat) (e : Skein) : CoresStay s (t.setSkein n e) := by
  have put : CoresStay s (t.putSkein n e) := h.of_same
  unfold State.setSkein
  exact put.ite (put.writeCopies _ _ _ _ _) _

theorem noteReseal (h : CoresStay s t) (lost : Bool) (n : Nat) : CoresStay s (t.noteReseal lost n) := by
  unfold State.noteReseal
  exact ite h.of_same h _

theorem freeSkein (h : CoresStay s t) (n : Nat) : CoresStay s (t.freeSkein n) := by
  unfold State.freeSkein
  extract_lets e u v
  have hu : CoresStay s u := (h.setSkein n {}).withServe _
  have hv : CoresStay s v := by
    simp only [v]
    split
    · exact hu.withServe _
    · exact hu
  split
  · exact hu
  · exact hu.withServe _
  · exact ((hv.withSkeins _).withSkeins _).noteReseal _ _
  · exact (((((hu.withSkeins _).withSkeins _).withSkeins _).withSkeins _).noteReseal _ _).noteReseal _ _

theorem dropRef (h : CoresStay s t) (n : Nat) : CoresStay s (t.dropRef n) := by
  unfold State.dropRef
  exact h.ite (((h.setSkein n _).ite (h.freeSkein n) _).ite (h.setSkein n _) _) _

theorem releaseChains (h : CoresStay s t) (ch : Sparse (List Nat)) : CoresStay s (t.releaseChains ch) := by
  unfold State.releaseChains
  exact h.foldl _ fun n hu => hu.dropRef n

theorem trimChains (h : CoresStay s t) (ch : Sparse (List Nat)) : CoresStay s (t.trimChains ch) := by
  unfold State.trimChains
  exact h.foldl _ fun n hu => (hu.setSkein n _).ite hu _

theorem freeHeld (h : CoresStay s t) (x : Held) (code : Nat) : CoresStay s (t.freeHeld x code) := by
  unfold State.freeHeld
  extract_lets _ u v
  have hv : CoresStay s v := (h.withServe _).releaseChains x.chains
  split
  · exact hv.final _ _
  · exact hv

theorem freeHeldWhere (h : CoresStay s t) (p : Held → Bool) (code : Nat) : CoresStay s (t.freeHeldWhere p code) := by
  unfold State.freeHeldWhere
  exact h.foldl _ fun x hu => hu.freeHeld x code

/-! #### Models -/

theorem applyLoad (h : CoresStay s t) (q : LoadReq) : CoresStay s (t.applyLoad q) := by
  unfold State.applyLoad
  extract_lets old freed loaded u r
  have hf : CoresStay s freed := (h.freeHeldWhere _ _).ite h _
  have hu : CoresStay s u := (hf.withServe _).withServe _
  exact (hu.post 0 _).ite (hu.final 0 r) _

theorem settleModels (h : CoresStay s t) : CoresStay s t.settleModels := by
  unfold State.settleModels
  extract_lets u
  have hu : CoresStay s u := h.foldl _ fun q hu => hu.ite ((hu.atBoundary _).ite (hu.applyLoad q) _) _
  refine hu.foldl _ fun e hv => ?_
  split
  · split
    · exact hv.ite (((hv.withServe _).freeHeldWhere _ _).final 0 _) _
    · exact hv
  · exact hv

/-! #### Sequences, hanks and steps -/

theorem settleHank (h : CoresStay s t) (uid status : Nat) : CoresStay s (t.settleHank uid status) := by
  unfold State.settleHank
  split
  · exact h
  · exact (((h.withServe _).final _ _).settleModels).ite h _

theorem endSeq (h : CoresStay s t) (uid i code : Nat) : CoresStay s (t.endSeq uid i code) := by
  unfold State.endSeq
  split
  · exact h
  · next k _ =>
    extract_lets q keep trimmed _ released left u r ev
    have hleft : CoresStay s left := by
      refine ite ((h.trimChains _).withServe _) ?_ _
      split
      · exact (h.releaseChains _).final _ _
      · exact h.releaseChains _
    have hu : CoresStay s u := hleft.withServe _
    refine h.ite ?_ _
    split
    · exact hu.final _ _
    · exact (hu.post _ _).foldl _ fun e hv => hv.post _ _

theorem endAllSeqs (h : CoresStay s t) (uid code : Nat) : CoresStay s (t.endAllSeqs uid code) := by
  unfold State.endAllSeqs
  split
  · exact h
  · exact h.foldl _ fun i hu => hu.endSeq uid i code

theorem readTable (h : CoresStay s t) (uid : Nat) (early : Bool) : CoresStay s (t.readTable uid early) := by
  unfold State.readTable
  split
  · exact h
  · next k _ =>
    extract_lets n base ok r noTag seqs
    have hr : CoresStay s r.2.2 := by
      simp only [r]
      split
      · exact h.govRead _ _ _
      · exact h
    exact h.ite (hr.withServe _) _

theorem tearHank (h : CoresStay s t) (k : Hank) : CoresStay s (t.tearHank k) := by
  unfold State.tearHank
  exact ((h.final _ _).withServe _).ite (((h.readTable _ _).endAllSeqs _ _).settleHank _ _) _

theorem freeBank (h : CoresStay s t) (n : Nat) : CoresStay s (t.freeBank n) := by
  unfold State.freeBank
  extract_lets stale cut u
  have hcut : CoresStay s cut := h.foldl _ fun e hu => hu.modCore e.1 _
  have hu : CoresStay s u := hcut.foldl _ fun e hu => hu.modCtx e.1 _
  exact hu.of_same

theorem dropWork (h : CoresStay s t) (c : Nat) (gone : List Nat) : CoresStay s (t.dropWork c gone) := by
  unfold State.dropWork
  refine withServe ?_ _
  exact h.foldl _ fun p hu => hu.freeBank p.bank

theorem catchUp (h : CoresStay s t) (lc : Bool) : CoresStay s (t.catchUp lc) := by
  unfold State.catchUp
  extract_lets now u
  have hu : CoresStay s u := by
    simp only [u]
    split
    · exact h
    · exact h.foldl _ fun c hv => hv.withServe _
  exact hu.withServe _

theorem settleStream (h : CoresStay s t) (uid : Nat) : CoresStay s (t.settleStream uid) := by
  unfold State.settleStream
  split
  · exact h
  · next p _ =>
    extract_lets alive bad worst dropped
    refine h.ite ?_ _
    split
    · exact h.withServe _
    · exact (((((h.withServe _).withServe _).withServe _).final _ _).catchUp true).catchUp false

/-! #### The end of a teardown (R330) -/

theorem idleEngine (h : CoresStay s t) (e : Nat) : CoresStay s (t.idleEngine e) := h.of_same

theorem tearWinder (h : CoresStay s t) (c : Nat) : CoresStay s (t.tearWinder c) := by
  unfold State.tearWinder
  extract_lets u gone _ v
  have hu : CoresStay s u := h.foldl _ fun e hu => by
    extract_lets x
    split
    · exact ((hu.idleEngine e).final c _).ite hu _
    · exact hu
  have hv : CoresStay s v := hu.withWinder _
  exact hv.foldl _ fun d hw => hw.final c _

theorem endSaved (h : CoresStay s t) (c : Nat) : CoresStay s (t.endSaved c) := by
  unfold State.endSaved
  refine h.foldl _ fun p hu => hu.foldl _ fun x hv => ?_
  split
  · exact hv.statusRecord _ _
  · exact hv

theorem tearModels (h : CoresStay s t) : CoresStay s t.tearModels := by
  unfold State.tearModels
  extract_lets u
  have hu : CoresStay s u := h.foldl _ fun q hv => (hv.final 0 _).withServe _
  refine hu.foldl _ fun e hv => ?_
  split
  · split
    · exact (hv.withServe _).final 0 _
    · exact hv
  · exact hv

theorem tearRecords (h : CoresStay s t) (c : Nat) : CoresStay s (t.tearRecords c) := by
  unfold State.tearRecords
  extract_lets gone winders hanks held _ spilt models rows
  have hw : CoresStay s winders := ((h.ite (h.endSaved c) _).dropWork c gone).tearWinder c
  have hh : CoresStay s held := (hw.foldl _ fun k hu => hu.tearHank k).freeHeldWhere _ _
  have hs : CoresStay s spilt := hh.withServe _
  have hm : CoresStay s models := hs.tearModels.ite hs _
  have hr : CoresStay s rows := (hm.modCtx c _).foldl _ fun r hu => hu.final c _
  split
  · exact (hr.modCtx c _).final c _
  · exact hr

theorem finishTeardown (h : CoresStay s t) (c : Nat) : CoresStay s (t.finishTeardown c) := by
  unfold State.finishTeardown
  split
  · exact h
  · exact h.ite ((((h.tearRecords c).event c _).modCtx c _).closed c) _

/-! #### The end of a stream, and of what a core worked for (R100, R221, R383) -/

theorem countHold (h : CoresStay s t) (c : Nat) : CoresStay s (t.countHold c) := by
  unfold State.countHold
  split
  · exact h
  · next k since _ =>
    have drawn : CoresStay s t.draw.2 := h.of_same
    cases k <;> exact drawn.modCore c _

theorem haltStep (h : CoresStay s t) (uid : Nat) : CoresStay s (t.haltStep uid) := by
  unfold State.haltStep
  refine h.foldl _ fun e hu => ?_
  split
  · next x hx =>
    have stopped := ((hu.countHold e.1).closeStream e.1 x).ite (hu.setStream hx (some { x with halt := some (x.halt.getD none) }))
      (x.pos = 0)
    exact (stopped.modCore e.1 _).ite hu _
  · exact hu

theorem endStream (h : CoresStay s t) (c code : Nat) : CoresStay s (t.endStream c code) := by
  unfold State.endStream
  split
  · exact h
  · next x _ =>
    extract_lets y closed u
    have hc : CoresStay s closed := ((h.countHold c).statusRecord c y).closeStream c x
    have hu : CoresStay s u := hc.withServe _
    refine (hu.finishTeardown _).ite ?_ _
    split
    · exact hu
    · exact (hu.settleStream _).ite ((hu.haltStep _).ite hu _) _

theorem abandonStep (h : CoresStay s t) (uid : Nat) : CoresStay s (t.abandonStep uid) := by
  unfold State.abandonStep
  refine withServe (h.foldl _ fun e hu => ?_) _
  split
  · exact ((hu.countHold e.1).closeStream e.1 _).ite hu _
  · exact hu

theorem loseCoreWork (h : CoresStay s t) (c : Nat) : CoresStay s (t.loseCoreWork c) := by
  unfold State.loseCoreWork
  extract_lets u
  have hu : CoresStay s u := by
    simp only [u]
    split
    · exact (h.endStream c _).ite h _
    · exact h
  refine hu.foldl _ fun p hv => hv.ite (ite (ite ?_ hv _) ((hv.abandonStep _).ite hv _) _) _
  refine (hv.withServe _).foldl _ fun x hw => ?_
  split
  · exact hw.statusRecord _ _
  · exact hw

end CoresStay

/-! ### Physical cores, and the requests that are due -/

theorem State.physOf_setPhys_other (s : State) {p o : Nat} (x : Phys) (h : o ≠ p) : (s.setPhys p x).physOf o = s.physOf o := by
  simp [State.physOf, State.setPhys, sget_sset_other _ _ _ h]

/-- A spare is a core that is not dead (R67). -/
theorem State.spareIn_alive {s : State} {g q : Nat} (h : s.spareIn g = some q) : (s.physOf q).dead = false := by
  have found := List.find?_some h
  simp only [Bool.and_eq_true, Bool.not_eq_true'] at found
  exact found.1

theorem State.spareFor_alive {s : State} {g q : Nat} (h : s.spareFor g = some q) : (s.physOf q).dead = false := by
  unfold State.spareFor at h
  split at h
  · next p own =>
    obtain rfl : p = q := Option.some.inj h
    exact State.spareIn_alive own
  · obtain ⟨k, _, other⟩ := List.exists_of_findSome?_eq_some h
    exact State.spareIn_alive other

theorem State.mem_boundary_dropBoundary (s : State) (x b : Boundary) :
    b ∈ (s.dropBoundary x).rel.boundary ↔ b ∈ s.rel.boundary ∧ b ≠ x := by
  simp [State.dropBoundary]

theorem State.foldl_dropBoundary_phys (f : Nat → Boundary) (l : List Nat) (s : State) :
    (l.foldl (fun s w => s.dropBoundary (f w)) s).phys = s.phys := by
  induction l generalizing s with
  | nil => rfl
  | cons w l ih => exact ih (s.dropBoundary (f w))

theorem State.mem_boundary_foldl_dropBoundary (f : Nat → Boundary) (l : List Nat) (s : State) (b : Boundary) :
    b ∈ (l.foldl (fun s w => s.dropBoundary (f w)) s).rel.boundary ↔ b ∈ s.rel.boundary ∧ ∀ w ∈ l, b ≠ f w := by
  induction l generalizing s with
  | nil => simp
  | cons w l ih => rw [List.foldl_cons, ih, State.mem_boundary_dropBoundary, List.forall_mem_cons, and_assoc]

/-! ### A core that has died -/

/-- Physical core `p` is dead, and logical core `c`, which it carried, runs no stream and is not carried by it. -/
structure State.CoreGone (s : State) (p c : Nat) : Prop where
  dead : (s.physOf p).dead = true
  idle : s.stream c = none
  apart : (s.core c).map.phys ≠ some p

namespace State.CoreGone

variable {s t : State} {p c : Nat}

theorem stay (h : s.CoreGone p c) (ht : CoresStay s t) : t.CoreGone p c where
  dead := by rw [State.physOf, ht.phys]; exact h.dead
  idle := ht.idle c h.idle
  apart := by rw [ht.map]; exact h.apart

theorem spareFor_ne (h : s.CoreGone p c) {g q : Nat} (hq : s.spareFor g = some q) : q ≠ p := by
  rintro rfl
  exact absurd h.dead (by simp [State.spareFor_alive hq])

/-- Another core takes the number. -/
theorem giveNumber (h : s.CoreGone p c) {q : Nat} (hq : q ≠ p) : (s.giveNumber q c).CoreGone p c := by
  unfold State.giveNumber
  constructor
  · exact (congrArg Phys.dead (s.physOf_setPhys_other { logical := some c } hq.symm)).trans h.dead
  · rw [State.stream, State.core_modCore_same]; exact h.idle
  · rw [State.core_modCore_same]; exact fun e => hq (Option.some.inj e)

end State.CoreGone

/-- A core that carries a number and is declared dead is gone, and what was due besides is still due (R67, R383). -/
theorem State.killCore_gone {s : State} {p c : Nat} (alive : (s.physOf p).dead = false) (carries : (s.physOf p).logical = some c)
    (why : Nat) : (s.killCore p why).CoreGone p c ∧ (s.killCore p why).rel.boundary = s.rel.boundary := by
  unfold State.killCore
  extract_lets old
  rw [if_neg (by simp [old, alive])]
  split
  · next free => cases carries.symm.trans free
  · next d held =>
    obtain rfl : c = d := Option.some.inj (carries.symm.trans held)
    extract_lets idle k full e bumped buried carried torn
    have hidle : idle.rel.boundary = s.rel.boundary := ((CoresStay.refl s).loseCoreWork c).due
    have hburied : buried.CoreGone p c := by
      constructor
      · exact congrArg Phys.dead (State.physOf_setPhys_same bumped p { dead := true })
      · rw [State.stream, State.core_modCore_same]
      · rw [State.core_modCore_same]; simp
    have hcarried : carried.CoreGone p c ∧ carried.rel.boundary = buried.rel.boundary := by
      simp only [carried]
      split
      · next q hq =>
        have spare : buried.spareFor (p / 19) = some q := by
          split at hq
          · cases hq
          · exact hq
        exact ⟨hburied.giveNumber (hburied.spareFor_ne spare), rfl⟩
      · exact ⟨hburied, rfl⟩
    have last : CoresStay carried (torn.log { typ := 0x09, status := 0x0C, unit := c, info := why + 256 * e.toNat }) :=
      ((CoresStay.refl carried).foldl _ fun x hu => hu.finishTeardown x.1).log _
    exact ⟨hcarried.1.stay last, last.due.trans (hcarried.2.trans hidle)⟩

/-- The declaration takes effect: the core dies for one of the reasons due, and no reason stays due. -/
theorem State.coreDies_due {s : State} {p w : Nat} (hw : .coreDead p w ∈ s.rel.boundary) :
    ∃ t why, s.coreDies p = State.killCore t p why ∧ t.phys = s.phys ∧ ∀ w', .coreDead p w' ∉ t.rel.boundary := by
  unfold State.coreDies
  extract_lets whys
  have mem_whys {v : Nat} (hv : .coreDead p v ∈ s.rel.boundary) : v ∈ whys :=
    List.mem_filterMap.mpr ⟨.coreDead p v, hv, if_pos rfl⟩
  clear_value whys
  cases whys with
  | nil => exact absurd (mem_whys hw) List.not_mem_nil
  | cons why rest =>
    refine ⟨_, why, rfl, State.foldl_dropBoundary_phys _ _ s, fun w' hw' => ?_⟩
    obtain ⟨was, left⟩ := (State.mem_boundary_foldl_dropBoundary _ _ s _).mp hw'
    exact left w' (mem_whys was) rfl

/-! ### The commands -/

theorem State.pfWrite_p0 {s : State} (ha : s.regAnswers) (hp : s.pwr.state = .p0) (hd : ¬ (s.ctx 0).d3hot) (f : State → State) :
    s.pfWrite f = f s := by
  simp [State.pfWrite, State.touch_p0 hp, ha, hd]

/-- In P0, where the registers answer the device serves. -/
theorem State.serving_p0 {s : State} (ha : s.regAnswers) (hp : s.pwr.state = .p0) : s.serving := by
  simp only [State.regAnswers, Bool.and_eq_true] at ha
  obtain ⟨⟨⟨⟨powered, ready⟩, noSafe⟩, _⟩, _⟩ := ha
  simp [State.serving, State.awake, powered, ready, noSafe, hp]

theorem exec_coreDeclare (p : BitVec 8) (s : State) :
    exec (.coreDeclare p) s = .next (s.pfWrite fun s => s.coreDeclare p.toNat) := rfl

theorem exec_coreAdmit (p : BitVec 8) (ok : Bool) (s : State) :
    exec (.coreAdmit p ok) s = .next (s.pfWrite fun s => s.coreAdmit p.toNat ok) := rfl

theorem exec_coreDeclaredDead (p : PCore) (s : State) :
    exec (.coreDeclaredDead p) s = .next (s.whenServing fun s => s.coreDies p) := rfl

theorem State.coreDeclare_ignored {s : State} {p : Nat} (h : 151 < p ∨ (s.physOf p).dead ∨ (s.physOf p).logical = none) :
    s.coreDeclare p = s.logInvalid 0 Reg.glbCoreCmd (p + 256) := if_pos (by rwa [Option.isNone_iff_eq_none])

theorem State.coreDeclare_carrying {s : State} {p c : Nat} (hp : p ≤ 151) (alive : ¬ (s.physOf p).dead)
    (carries : (s.physOf p).logical = some c) : s.coreDeclare p = s.atBoundary (.coreDead p 6) :=
  if_neg (by simp [carries, alive, hp])

theorem State.coreAdmit_ignored {s : State} {p : Nat} (h : 151 < p ∨ ¬ (s.physOf p).dead) (ok : Bool) :
    s.coreAdmit p ok = s.logInvalid 0 Reg.glbCoreCmd (p + 512) := if_pos h

/-- A request is asked for once, behind those of the tick. -/
theorem State.atBoundary_asks (s : State) (b : Boundary) :
    s.atBoundary b = { s with rel := { s.rel with asked := (s.atBoundary b).rel.asked } } ∧
      (b ∈ (s.atBoundary b).rel.asked ∨ b ∈ s.rel.boundary) ∧ s.rel.asked <+: (s.atBoundary b).rel.asked := by
  unfold State.atBoundary
  split
  · next waits => exact ⟨rfl, by simpa using waits, List.prefix_refl _⟩
  · exact ⟨rfl, by simp, List.prefix_append _ _⟩

/-- Settles O50: an ignored command is only logged, a declaration only asked for; what ends with a core that dies gives no core back
its place or a stream. -/
theorem coreCommands : Obligations.CoreCommands := by
  unfold Obligations.CoreCommands
  intro s p ha hp hd y logged kept
  have hkept (v : Nat) : kept (logged v) := by
    have logs : PostFrame s (logged v) := (PostFrame.refl s).log _
    exact ⟨logs.phys, logs.cores, s.log_boundary _, s.log_asked _, logs.mem⟩
  refine ⟨fun h => ⟨?_, hkept _⟩, fun ok h => ⟨?_, hkept _⟩,
    fun c hle alive carries => ⟨s.atBoundary (.coreDead p.toNat 6), ?_, s.atBoundary_asks _⟩, fun q c w hq due alive carries => ?_⟩
  · rw [exec_coreDeclare, State.pfWrite_p0 ha hp hd, State.coreDeclare_ignored h]
  · rw [exec_coreAdmit, State.pfWrite_p0 ha hp hd, State.coreAdmit_ignored h]
  · rw [exec_coreDeclare, State.pfWrite_p0 ha hp hd, State.coreDeclare_carrying hle alive carries]
  · obtain ⟨t, why, hdies, hphys, none_left⟩ := State.coreDies_due due
    have same : t.physOf p.toNat = y := by rw [State.physOf, hphys]; rfl
    obtain ⟨gone, hleft⟩ := State.killCore_gone (s := t) (p := p.toNat) (by simpa [same] using alive) (by rwa [same]) why
    refine ⟨s.coreDies p.toNat, ?_, ?_⟩
    · rw [exec_coreDeclaredDead, State.whenServing, if_pos (State.serving_p0 ha hp), hq]
    · rw [hdies]
      exact ⟨gone.dead, gone.idle, gone.apart, fun w' h => none_left w' (hleft ▸ h)⟩

end Sys2Proof.Machine
end
